-- ==== Sys2Proof/Word.lean ====
section
/-!
DEFINITION. The word types of the model, and the plain data types that describe a register field: block, access code,
reset rule, register-table row and stored field (00_scope.md R6 to R9, 16_register_map.md R447, R448).
-/

namespace Sys2Proof

/-- One byte of a memory or of a port transfer. -/
abbrev Byte := BitVec 8

/-- One 32-bit register word or bus address (00_scope.md, 'Register access'). -/
abbrev Word := BitVec 32

/-- A line lane, L0 to L7 (00_scope.md R5). -/
abbrev Lane := Fin 8

/-- A region, 0 to 3 (01_architecture.md, 'Region'). -/
abbrev Region := Fin 4

/-- A host lane, H0 to H15. -/
abbrev HostLane := Fin 16

/-- A line die: 0 is D1 and 1 is D2. -/
abbrev LineDie := Fin 2

/-- A tile of the device: 0 to 95 are `12 * lane + t`, 96 to 103 are `96 + 2 * region + p` (00_scope.md R5). -/
abbrev TileId := Fin 104

namespace Machine

/-- A table keyed by numbers, held as (key, value) pairs in canonical form: keys strictly rising, and no pair whose value
is the one an unlisted key reads as. -/
abbrev SMap (α : Type) := List (Nat × α)

/-- The register blocks of the address map (16_register_map.md R447, R448); `tile` is the tile space of R448 and
`hkac` one HKA converter. -/
inductive Blk where
  | loader | line | tile | host | xbar | port | ctx | bcn | syn | time | hkd | hka | hkac | filt | oe | mem | pwr | therm
  | bist | global | intc | perf | dbg
  deriving DecidableEq, Repr

/-- The access codes of 00_scope.md R8 that occur in the register tables. -/
inductive Acc where
  | ro | rw | wo | w1c | rwl
  deriving DecidableEq, Repr

/-- How the reset value of a field depends on its instance and element. -/
inductive Rst where
  /-- The same value everywhere. -/
  | k (v : Nat)
  /-- The number of the instance. -/
  | inst
  /-- The number of the element modulo `m`. -/
  | idxMod (m : Nat)
  /-- `v` in element `j` and 0 elsewhere. -/
  | onlyAt (j v : Nat)
  /-- `a` in element 0 and `b` elsewhere. -/
  | byIdx (a b : Nat)
  /-- `v` for a FAULT-class interrupt source and 0 for the others. -/
  | faultOnly (v : Nat)
  deriving DecidableEq, Repr

/-- One row of a register table: block, offset, stride and count of the array, lowest bit, width, access code, reset. -/
structure FRow where
  blk : Blk
  off : Nat
  stride : Nat
  count : Nat
  lsb : Nat
  width : Nat
  acc : Acc
  reset : Rst
  deriving DecidableEq, Repr

/-- One stored register field: byte address of its word, lowest bit, width and reset value. -/
structure Fld where
  addr : Nat
  lsb : Nat
  width : Nat
  reset : Nat
  deriving DecidableEq, Repr

end Machine

/-- Who makes a register access (16_register_map.md R459, UNMAPPED_INFO.ORIGIN). -/
inductive Origin where
  | mgmt | bulk | core | loader
  deriving DecidableEq, Repr

/-- The credit queues of 01_architecture.md, table of R42. -/
inductive QueueKind where
  | adcFfe | ffeMlse | mlseDec | decLink | linkTxp | linkD0 | d0Link | hostRx | hostTx | ctxReq | memRet | ctxPort
  | cmdRing
  deriving DecidableEq, Repr

/-- One queue instance: its kind and the number of its line lane, host lane or line die (0 where there is one). -/
structure QueueId where
  kind : QueueKind
  inst : Nat
  deriving DecidableEq, Repr

/-- A 66-bit block of a port, by the roles that 06_host_side.md R206 tells apart. -/
inductive Block66 where
  /-- Type 0x1E with eight idle characters. -/
  | idle
  /-- An ordered-set block (type 0x4B). -/
  | ordered (payload : BitVec 64)
  /-- The Local Fault ordered set. -/
  | localFault
  /-- A start block (type 0x78). -/
  | start (payload : BitVec 64)
  /-- A data block. -/
  | data (payload : BitVec 64)
  /-- A block with a terminate character. -/
  | term (payload : BitVec 64)
  /-- A control block of type 0x1E whose characters are not all idle. -/
  | control (payload : BitVec 64)
  /-- EBLOCK_R. -/
  | eblock
  deriving DecidableEq, Repr

/-- What one entry of a credit queue carries (01_architecture.md R38 and the table of R42). -/
inductive QData where
  /-- 136 raw samples of one cycle (03_line_receive.md R97) and the number of the word since the lane's enable (R96), which the
  lane itself counts: the number of a word that is sent from outside is not used. -/
  | samples (raw : List Int) (word : Nat)
  /-- 136 equalised samples, and the number of the word. -/
  | equalised (ys : List Int) (word : Nat)
  /-- 272 hard decisions, first decision in the top bit, each with its reliability. -/
  | soft (bits : BitVec 272) (rel : List Nat)
  /-- 256 decoded bits, first bit in the top bit, and receive status (R155). -/
  | decoded (msg : BitVec 256) (status : BitVec 16)
  /-- 256 message bits and transmit status (R155). -/
  | toSend (msg : BitVec 256) (status : BitVec 16)
  /-- One cycle of a host lane (06_host_side.md R195, R201).  In a host receive queue's command: the 64 symbols received, as level
  indices 0 to 3 from the lowest level up, the first one in the top two bits, and whether the receiver finds no signal.  In the
  queue: 128 bits, the first one in the top bit, and whether the receiver was not LOCKED. -/
  | host (bits : BitVec 128) (bad : Bool)
  /-- One 64-byte request of the context engine. -/
  | request (addr : Word) (write : Bool)
  /-- 64 bytes returned by the memory controller. -/
  | burst (bytes : List Byte)
  /-- 512 bits of a lane record. -/
  | record (bits : BitVec 512)
  /-- A command of eight words. -/
  | command (words : List Word)
  deriving DecidableEq, Repr

/-- One entry of a credit queue, with the local poison mark (11_memory.md). -/
structure QEntry where
  data : QData
  poison : Bool
  deriving DecidableEq, Repr

/-- The TAP instructions of 15_management.md R445. -/
inductive TapInstr where
  | bypass | idcode | sample | extest | clamp | highz | extestPulse | extestTrain
  deriving DecidableEq, Repr

/-- The requester classes of the memory controller, in order of precedence (11_memory.md R340). -/
inductive MemClass where
  | apply | refresh | context | fill | host | capture | scrub
  deriving DecidableEq, Repr

/-- One 64-byte burst request: requester class, direction, window address and write data. -/
structure MemReq where
  cls : MemClass
  write : Bool
  addr : Word
  data : List Byte
  deriving DecidableEq, Repr

/-- What a read of one 64-bit word of D3 finds (11_memory.md R341). -/
inductive WordErr where
  | clean | single | multi
  deriving DecidableEq, Repr

/-- A part that is powered down or returned (12_power.md R374 to R377, R381). -/
inductive Domain where
  /-- The lane group whose lowest lane is `n`. -/
  | group (n : Nat)
  | region (r : Nat)
  /-- The whole package, on entry to DEEP_STANDBY. -/
  | package
  deriving DecidableEq, Repr

end Sys2Proof
end

