-- ==== Sys2Proof/Syntax.lean ====
section
/-!
DEFINITION. The commands of the block: one constructor per row of spec/opcode_table.json.  The operands name the instance a
happening is about (lane, region, die, queue, entry) and carry what arrives from outside the block: bus words and bytes,
samples, measured quantities, the result of an analogue or physical process.
-/

namespace Sys2Proof

/-- The commands of the SKM-832 (spec/opcode_table.json). -/
inductive Instr where
  /-- CMD_PUSH (R427). A host write of 1 to CMD_PUSH copies CMD_IN0-7 into the command ring, spending one credit. -/
  | cmdPush
  /-- COMMAND_TAKE (R428). Once it can reserve a completion entry, the Mace core takes the ring head, returns its credit and checks it in the order of R430. -/
  | commandTake
  /-- CPL_POP (R429). A host write of 1 to CPL_POP removes the head of the completion queue, or is discarded when the queue is empty. -/
  | cplPop
  /-- NOP (R428). A fence command that completes OK when it is taken, after every earlier command has completed. -/
  | nop
  /-- PARTIAL (R86). LOAD_IMAGE OP 0 checks the partial image in staging and reconfigures one region while the other regions carry traffic. -/
  | partialLoad
  /-- PARTIAL_OUTAGE_END (R86). The partial-reload outage of a region ends at syndrome lock; the image is committed and the command completes. -/
  | partialOutageEnd (r : Region)
  /-- SLOT_BEGIN (R82). LOAD_IMAGE OP 1 erases the header of slot A or B and starts a slot write at offset 0. -/
  | slotBegin (mramOk : Bool)
  /-- SLOT_CHUNK (R82). LOAD_IMAGE OP 2 appends staging bytes to the slot being written, holding bytes 0x00-0x3F in D0. -/
  | slotChunk (mramOk : Bool)
  /-- SLOT_END (R82). LOAD_IMAGE OP 3 checks the slot as a full image and, if it passes, writes the held header last. -/
  | slotEnd (mramOk : Bool) (upsets : List (Nat × WordErr))
  /-- BOOT (R82). LOAD_IMAGE OP 4 checks its slot argument and performs a package reset that tries the named slot first. -/
  | boot
  /-- KEY_WRITE (R73). LOAD_IMAGE OP 5 writes the 48-byte hash in staging into an EMPTY key slot, making it VALID. -/
  | keyWrite (mramOk : Bool)
  /-- KEY_REVOKE (R73). LOAD_IMAGE OP 6 makes a VALID key slot REVOKED. -/
  | keyRevoke (mramOk : Bool)
  /-- FILL (R350). The FILL command writes zeros over an aligned range of the staging buffer, the context buffer or the capture ring. -/
  | fill
  /-- STORE_BUFFER (R241). CONTEXT_WRITE OP 0 checks the records in the context buffer and stores them under the key in the lowest free slot. -/
  | storeBuffer
  /-- STORE_LIVE (R243). CONTEXT_WRITE OP 1 takes the present trained state of the group's lanes in one cycle and stores it under the key. -/
  | storeLive
  /-- REMOVE (R241). CONTEXT_WRITE OP 2 removes the key from the directory and frees its slot. -/
  | remove
  /-- PIN (R247). CONTEXT_WRITE OP 3 sets PIN in the directory entry and makes the context resident in a cache line. -/
  | pin
  /-- UNPIN (R241). CONTEXT_WRITE OP 4 clears PIN in the directory entry. -/
  | unpin
  /-- APPLY_NOW (R241). CONTEXT_WRITE OP 5 applies the context to the group at once, with no latency bound. -/
  | applyNow
  /-- CLEAR_ALL (R241). CONTEXT_WRITE OP 6 zeroes both ways and the stash, frees every slot and cache line, and clears every PIN. -/
  | clearAll
  /-- CONTEXT_READ_STORED (R244). CONTEXT_READ OP 0 copies the key's stored records into the context buffer and zeros the rest. -/
  | contextReadStored
  /-- CONTEXT_READ_LIVE (R244). CONTEXT_READ OP 1 fills the context buffer with the group's live state, as STORE_LIVE would, and stores nothing. -/
  | contextReadLive
  /-- LOOKUP (R244). CONTEXT_READ OP 2 returns the key's slot, PIN flag and residency in its completion. -/
  | lookup
  /-- ADD (R303). SCHEDULE_ADD OP 0 writes SCHED_BUF to a given position, or to the lowest EMPTY position. -/
  | add
  /-- SCHEDULE_REMOVE (R303). SCHEDULE_ADD OP 1 makes a position EMPTY unless it is due. -/
  | scheduleRemove
  /-- SCHEDULE_READ (R303). SCHEDULE_ADD OP 2 copies a position into SCHED_BUF. -/
  | scheduleRead
  /-- PURGE (R303). SCHEDULE_ADD OP 3 makes every FIRED and SKIPPED position EMPTY. -/
  | purge
  /-- CAPTURE (R132). The CAPTURE command requests a copy of one lane's datapath at one point into the capture ring or the lane's capture window. -/
  | capture (die : LineDie)
  /-- CAPTURE_START (R134). A capture starts on its line die once any earlier capture there has completed, and its buffer begins to fill circularly. -/
  | captureStart (die : LineDie)
  /-- CAPTURE_TRIGGER (R134). The capture's trigger event occurs, after which LEN - PRE further cycles are stored. -/
  | captureTrigger (die : LineDie)
  /-- CAPTURE_TIMEOUT (R134). The capture TIMEOUT expires before the trigger, and the capture ends as though triggered, with TRIGGERED 0. -/
  | captureTimeout (die : LineDie)
  /-- CAPTURE_COMPLETE (R136). The capture record is wholly written to the ring or the window, and the command completes with the record's offset. -/
  | captureComplete (die : LineDie)
  /-- BIST_RUN (R413). The BIST_RUN command runs the slice of one tile on demand. -/
  | bistRun
  /-- BIST_RUN_DONE (R413). The slice of a BIST_RUN finishes, and FAILED is cleared or set before the command completes. -/
  | bistRunDone (pass : Bool)
  /-- WAIT (R373). The WAIT fence carries out the PWR_MODE target in order: parking, then gating, then the change of STATE. -/
  | wait
  /-- CLOCK_SWITCH_INTERNAL (R430). CLOCK_SWITCH OP 0 moves the Mace core to the internal oscillator. -/
  | clockSwitchInternal
  /-- CLOCK_SWITCH_MCLK (R36). CLOCK_SWITCH OP 1 moves the core, the loader and the thermal sampling timer to MCLK, or completes with BAD_STATE without REFCLK. -/
  | clockSwitchMclk
  /-- ACCEPT (R300). TIME_ACCEPT OP 0 steps the time by PEND at the next segment boundary and increments EPOCH. -/
  | accept
  /-- SET (R300). TIME_ACCEPT OP 1 loads the LOAD time at the next segment boundary, sets TIME_SET and increments EPOCH. -/
  | set
  /-- REGISTER_WRITE (R8). A host or core write to a register that has no row of its own stores its fields according to their access codes. -/
  | registerWrite (origin : Origin) (addr : Word) (value : Word)
  /-- UNMAPPED_ACCESS (R12). An access to an unassigned address reads 0 or discards the write, and latches UNMAPPED with its address and kind. -/
  | unmappedAccess (origin : Origin) (addr : Word) (write : Bool)
  /-- MGMT_WRITE (R420). A MGMT write transaction writes whole words from the sent address upward, or only sets the address for a following read. -/
  | mgmtWrite (dev : BitVec 7) (addr : List Byte) (data : List Byte)
  /-- MGMT_READ (R420). A MGMT read transaction returns words from the current address, stretching SCL or deferring with the T-bit until each word is ready. -/
  | mgmtRead (dev : BitVec 7) (nbytes : Nat) (readyWords : Nat)
  /-- ENTDAA (R419). The I3C common command ENTDAA assigns a dynamic address and puts the MGMT port in I3C mode. -/
  | entdaa (dynAddr : BitVec 7)
  /-- SETDASA (R419). The I3C common command SETDASA assigns a dynamic address from the static address and puts the port in I3C mode. -/
  | setdasa (dev : BitVec 7) (dynAddr : BitVec 7)
  /-- SETNEWDA (R419). The I3C common command SETNEWDA changes the dynamic address. -/
  | setnewda (dynAddr : BitVec 7)
  /-- RSTDAA (R419). The I3C common command RSTDAA returns the MGMT port to I2C mode. -/
  | rstdaa
  /-- GETPID (R419). The I3C common command GETPID returns the provisional ID 0x74E_5832_X000. -/
  | getpid
  /-- GETBCR (R419). The I3C common command GETBCR returns BCR 0x01. -/
  | getbcr
  /-- GETDCR (R419). The I3C common command GETDCR returns DCR 0x00. -/
  | getdcr
  /-- GETSTATUS (R419). The I3C common command GETSTATUS returns the port's status. -/
  | getstatus
  /-- QUAD_WRITE (R424). BULK command 0x32 writes data words from an aligned address upward. -/
  | quadWrite (addr : Word) (data : List Byte)
  /-- QUAD_READ (R425). BULK command 0xEB fetches WORDS words during the DUMMY clocks and returns them with DATA_OK 1, or returns zeros with DATA_OK 0. -/
  | quadRead (addr : Word) (words : Byte) (fetched : Nat) (nbytes : Nat)
  /-- BULK_STATUS (R424). BULK command 0x05 returns the status byte with READY and DATA_OK. -/
  | bulkStatus
  /-- SINGLE_WRITE (R424). BULK command 0x02 acts as a quad write, with input on IO0. -/
  | singleWrite (addr : Word) (data : List Byte)
  /-- SINGLE_READ (R424). BULK command 0x03 acts as a quad read, with output on IO1. -/
  | singleRead (addr : Word) (words : Byte) (fetched : Nat) (nbytes : Nat)
  /-- CLAIM (R437). A read of CLAIM returns the highest-priority deliverable source of target 0, marks it claimed and raises the floor. -/
  | claim
  /-- COMPLETE (R438). A write of COMPLETE ends a claim, lowers the floor and re-evaluates IRQ_N at the same edge. -/
  | complete (value : Word)
  /-- IRQ_DELIVERY (R436). A deliverable source is delivered to its target, at once when the target is idle or after the HOLDOFF time when it is busy. -/
  | irqDelivery (target : Fin 2)
  /-- SW_SET (R440). A write to SW_SET sets software source bits, which assert sources SW0-SW7. -/
  | swSet (value : Word)
  /-- COUNT_CLR (R433). A write of 1 to COUNT_CLR clears a source's 8-bit event counter. -/
  | countClr (source : Nat)
  /-- CNT_LO_READ (R441). A read of a performance counter's CNT_LO latches bits [47:32] of the count into CNT_HI. -/
  | cntLoRead (bank : Fin 3) (ctr : Nat)
  /-- CLEAR (R443). A write of 1 to CLEAR in CTR_CFG sets one counter's count to 0. -/
  | clear (bank : Fin 3) (ctr : Nat)
  /-- CLEAR_ALL_COUNTERS (R443). A write of 1 to CLEAR_ALL in BANK_CTL sets every count of the bank to 0. -/
  | clearAllCounters (bank : Fin 3)
  /-- FREEZE (R443). A write of FREEZE stops or restarts every counter of the bank in the same cycle. -/
  | freeze (bank : Fin 3) (on : Bool)
  /-- D1_RESET (R455). A write of 1 to D1_RESET or D2_RESET resets that line die alone for 1 us, then re-applies its configuration. -/
  | d1Reset (d1 : Bool) (d2 : Bool)
  /-- PKG_RESET (R456). A write of PKG_RESET with PKG_KEY 0xA5 acts as a 1 us RESET_N assertion followed by its release. -/
  | pkgReset (key : Byte)
  /-- LINE_DIE_REAPPLY (R81). At the end of a D1 or D2 reset, the loader re-applies the die's TILEMAP, DATAPATH and REGINIT entries and relocks its RWL fields. -/
  | lineDieReapply (die : LineDie)
  /-- HELD_PART_RETEST (R405). The slice of a lane or region held disabled is run again after re-application, and the lane follows its image if the slice passes. -/
  | heldPartRetest (lane : Lane) (pass : Bool)
  /-- HWM_CLR (R44). A write of 1 to a queue monitor's HWM_CLR loads HWM with the present OCC. -/
  | hwmClr (q : QueueId) (occRises : Bool)
  /-- NM_HWM_CLR (R222). A write of 1 to NM_HWM bit 31 loads both Nutmeg high-water marks with the present fill. -/
  | nmHwmClr (lane : Lane)
  /-- QUEUE_ENTRY (R39). A producer sends an entry into a credit queue, spending a credit, and the queue's credit conservation is checked. -/
  | queueEntry (q : QueueId) (entry : QEntry) (takes : Bool) (creditLost : Bool)
  /-- STARVE (R41). An active consumer finds its queue empty for more than STARVE_LIMIT cycles, which sets STARVE and has the consequence of R48. -/
  | starve (q : QueueId) (cycles : Nat)
  /-- RESTART (R114). A write of 1 to RESTART starts the lane at GAIN from presets, or at DARK without light. -/
  | restart (lane : Lane)
  /-- PRESET_LOAD (R114). A write of 1 to PRESET_LOAD loads the presets and restarts the lane, or stops it in OFF when ACQ_EN is 0. -/
  | presetLoad (lane : Lane)
  /-- TAP_LOAD (R113). A write to an FFE tile's TAP_LOAD sets one coefficient and clears its accumulator fraction. -/
  | tapLoad (tile : TileId) (index : Fin 16) (value : BitVec 12)
  /-- WIN_WRITE (R125). A write of WIN ends the measurement window under way without latching it. -/
  | winWrite (lane : Lane) (win : BitVec 5)
  /-- START (R128). A write of 1 to START clears every histogram bin and status bit and begins collection. -/
  | start (lane : Lane) (point : Bool) (len : BitVec 5)
  /-- HISTOGRAM_DONE (R128). The histogram has collected 2^LEN samples; BUSY clears and DONE sets. -/
  | histogramDone (lane : Lane)
  /-- MEAS_WINDOW_END (R125). A measurement window of 2^WIN cycles ends; its sums and counts are latched, SEQ advances and VALID is set or cleared. -/
  | measWindowEnd (lane : Lane)
  /-- ENV_CROSSING (R283). The TIA monitor current crosses TH_ON or TH_OFF, changing ABOVE and starting the hold-off timer. -/
  | envCrossing (lane : Lane) (current : Nat)
  /-- LIGHT_ON (R284). A rise of ABOVE held for the ON_HOLD time is accepted: LIGHT is set and the light-on event is stamped. -/
  | lightOn (lane : Lane)
  /-- LIGHT_OFF (R284). A fall of ABOVE held for the OFF_HOLD time is accepted: LIGHT is cleared, the event is stamped and the lane enters DARK. -/
  | lightOff (lane : Lane)
  /-- AGC_MEASUREMENT (R100). At the end of each 256-cycle measurement, GAIN_CODE steps one code toward TARGET_RMS, and GAIN exits to CAL once the RMS holds within range. -/
  | agcMeasurement (lane : Lane)
  /-- TRACKING_INTERVAL (R98). At the end of each tracking interval, interleave correction fields move toward their estimates, and CAL exits to CDR once they hold. -/
  | trackingInterval (lane : Lane)
  /-- CDR_WINDOW (R104). At the end of each 16-cycle window of votes, CDR_LOCK is set or cleared. -/
  | cdrWindow (lane : Lane)
  /-- CDR_DONE (R115). CDR_LOCK has been held for 256 cycles, and the lane leaves CDR for BLIND. -/
  | cdrDone (lane : Lane)
  /-- BLIND_DONE (R115). After 4,096 used positions meet the level criterion, the lane leaves BLIND for DD. -/
  | blindDone (lane : Lane)
  /-- DD_DONE (R115). After 16,384 used positions meet the error criterion, the lane leaves DD for TRAIN. -/
  | ddDone (lane : Lane)
  /-- TRAIN_DONE (R115). 1.0 ms in TRAIN elapses, and the lane enters SEARCH. -/
  | trainDone (lane : Lane)
  /-- ACQ_TIMEOUT (R118). A state from GAIN to SEARCH reaches its timeout; ACQ_TIMEOUT is set, ATTEMPT increments and the lane re-enters GAIN. -/
  | acqTimeout (lane : Lane)
  /-- WARM_FAIL (R121). Syndrome lock is not found within WARM_TO us of entry to WARM; WARM_FAIL is set and the lane enters GAIN. -/
  | warmFail (lane : Lane)
  /-- CODEWORD_DECODE (R152). A decoder takes a 272-bit word with its reliabilities and Chase-decodes it under the expected cover, producing output and status. -/
  | codewordDecode (lane : Lane)
  /-- SYNDROME_LOCK (R158). A run of 64 accepted alternating candidates at some offset declares syndrome lock, and the lane enters TRACK. -/
  | syndromeLock (lane : Lane)
  /-- LOCK_LOST (R161). 8 of the last 32 delivered codewords have a non-zero syndrome; lock is lost and the lane enters SEARCH. -/
  | lockLost (lane : Lane)
  /-- GROUP_LOSS (R167). Three group-lock misses with no match in between clear GROUP_LOCK and set GROUP_LOSS. -/
  | groupLoss (lane : Lane)
  /-- FORMAT_MISMATCH (R168). 340 delivered codewords pass in mode R with no group-cover match, and FORMAT_MISMATCH is set. -/
  | formatMismatch (lane : Lane)
  /-- CODEWORD_ENCODE (R174). T10 forms one inner codeword from a link-to-TXP entry, applying the named cover and poison. -/
  | codewordEncode (lane : Lane)
  /-- SQUELCH (R182). A host write of TX_CTL.SQUELCH sets or clears the HOST squelch reason. -/
  | squelch (lane : Lane) (on : Bool)
  /-- SQUELCH_ENTRY (R183). At the first codeword boundary after a reason is set, the output is held at differential zero. -/
  | squelchEntry (lane : Lane)
  /-- SQUELCH_RELEASE (R183). At the first stream-a boundary after every reason is clear, the output is released with the precoder restarted. -/
  | squelchRelease (lane : Lane)
  /-- PATTERN (R187). A write of PATTERN selects a test pattern, or data, from the next codeword boundary. -/
  | pattern (lane : Lane) (value : BitVec 3)
  /-- COMMIT (R188). A write of 1 to the TXP COMMIT copies the seven shadow taps into the active taps at the next codeword boundary. -/
  | commit (lane : Lane)
  /-- HOST_LOCK_ACQ (R196). A host receiver reaches LOCKED and sets LOCK_ACQ. -/
  | hostLockAcq (h : HostLane)
  /-- HOST_LOCK_LOST (R196). A host receiver leaves LOCKED when its signal detector drops or its phase detector loses lock, and sets LOCK_LOST. -/
  | hostLockLost (h : HostLane) (signal : Bool)
  /-- RX_RESTART (R196). A write of 1 to RX_RESTART returns the host receiver to ACQ. -/
  | rxRestart (h : HostLane)
  /-- HOST_TX_COMMIT (R197). A write of 1 to the host TX_CFG COMMIT copies the five shadow taps into the active taps at a 128-bit boundary. -/
  | hostTxCommit (h : HostLane)
  /-- HOST_CODEWORD (R205). In mode R a host KP4 codeword is decoded and reverse-transcoded to 66-bit blocks, or to EBLOCK_R when uncorrectable. -/
  | hostCodeword (lane : Lane) (portB : Bool)
  /-- HOST_GAP_END (R207). At the first clean point after the gap conditions clear, host blocks are written again. -/
  | hostGapEnd (lane : Lane) (portB : Bool)
  /-- LINE_RS_CODEWORD (R210). The Nutmeg write side takes a decoded line RS codeword and writes its blocks, or 80 EBLOCK_R when it is flagged.  `upsets`
  are the blocks of the codeword, by number, whose stored bytes lose their parity while the buffer holds them (R209). -/
  | lineRsCodeword (lane : Lane) (streamB : Bool) (upsets : List Nat)
  /-- LF_START (R212). HOLD_TIME elapses since the gap started; the state becomes GAP_LF and LF_START is set. -/
  | lfStart (lane : Lane) (portB : Bool)
  /-- RESUME (R213). A Nutmeg gap ends at a group start; the state becomes OPEN and RESUME is set. -/
  | resume (lane : Lane) (portB : Bool)
  /-- NUTMEG_READ_RESUME (R213). The fill reaches RESUME_FILL and the read side begins reading from the buffer. -/
  | nutmegReadResume (lane : Lane) (portB : Bool)
  /-- MON_AM_LOCK (R202). A monitoring KP4 engine gains or loses alignment-marker lock on its port.  The engine finds
  the position of the codewords: `offA` and `offB` bits of the port's physical lanes precede its next pair of codewords. -/
  | monAmLock (lane : Lane) (portB : Bool) (on : Bool) (offA offB : Nat)
  /-- GROUP_CFG_WRITE (R226). A write of GROUP_CFG changes the lane grouping, ending dissolved applies and identifications, or is refused with CFG_REFUSED. -/
  | groupCfgWrite (value : Word)
  /-- HASH_SEED_WRITE (R236). A write of HASH_SEED is accepted only while the directory is empty, and otherwise sets CFG_REFUSED. -/
  | hashSeedWrite (value : Word)
  /-- APPLY_RECORDS_READ (R237). The group's records are in the apply buffers and are checked under R231, and their transfer over the context ports starts. -/
  | applyRecordsRead (group : Fin 8)
  /-- APPLY_TRANSFER_DONE (R237). The transfers over both context ports complete whole, and each lane is due to take its state at its next codeword boundary. -/
  | applyTransferDone (group : Fin 8)
  /-- CONTEXT_APPLIED (R123). A lane takes the applied receive and transmit state at a codeword boundary, is stamped and enters WARM or DARK. -/
  | contextApplied (lane : Lane)
  /-- ID_TIMEOUT (R255). No beacon frame identifies a peer within ID_TO us; the identification ends and its lanes enter GAIN. -/
  | idTimeout (group : Fin 8)
  /-- PLACEMENT_TICK (R247). Every 1 us the placement engine marks schedule entries within PREFETCH_LEAD and starts prefetch fills into victim lines. -/
  | placementTick
  /-- CACHE_FILL_DONE (R246). A cache line fill from GDDR7 completes, and the line becomes VALID if its records pass, or FREE otherwise. -/
  | cacheFillDone (line : Fin 256)
  /-- RELOCATED (R248). After a fetch with an ECC correction, the context is rewritten to a new slot or in place and RELOCATED is set. -/
  | relocated (slot : Nat)
  /-- SEND (R268). A write of 1 to TX_CMD.SEND makes one beacon frame of the given type due at once. -/
  | send (lane : Lane) (full : Bool)
  /-- TX_MODE_WRITE (R268). A write of TX_MODE selects periodic or on-demand beacon frames and restarts the period grid. -/
  | txModeWrite (lane : Lane) (mode : BitVec 2)
  /-- BEACON_FRAME_DUE (R268). A periodic beacon frame falls due on its PERIOD grid. -/
  | beaconFrameDue (lane : Lane)
  /-- BEACON_FRAME_START (R269). A held frame starts at the first symbol boundary at which the synthesiser is locked for it and the output is not squelched. -/
  | beaconFrameStart (lane : Lane)
  /-- BEACON_DEPARTURE (R275). The frame's reference symbol departs at the DAC; the departure is stamped and the tick is sent to D0. -/
  | beaconDeparture (lane : Lane)
  /-- BEACON_TIMESTAMP_RETURN (R276). D0 returns the converted departure time, which the modulator writes into the full frame. -/
  | beaconTimestampReturn (lane : Lane)
  /-- SENT (R269). A beacon frame's last symbol is sent; SENT is set and the sent counter increments. -/
  | sent (lane : Lane)
  /-- TX_CH_LOAD (R270). A write of TX_CH.LOAD loads a new transmit channel, effective at the end of any frame under way. -/
  | txChLoad (lane : Lane) (ch : BitVec 4)
  /-- RX_CH_LOAD (R282). A write of RX_CH.LOAD loads the active receive channel and modulation, abandoning any frame being received. -/
  | rxChLoad (lane : Lane) (ch : BitVec 4) (fsk4 : Bool)
  /-- SYNTH_LOCK (R272). The beacon synthesiser locks and writes back its calibration word with VALID set. -/
  | synthLock (r : Region) (cal : Word)
  /-- NO_LOCK (R272). A hop fails to lock within 40 us; VALID is cleared and the held frames for the channel are skipped. -/
  | noLock (r : Region)
  /-- SYNTH_BG_CAL (R272). After a line-die reset, the synthesiser calibrates one channel in the background. -/
  | synthBgCal (r : Region) (cal : Word)
  /-- NOISE_WINDOW_END (R278). An idle window of 4,096 decimated samples ends; NOISE is updated and NOISE_SEQ advances. -/
  | noiseWindowEnd (lane : Lane) (meanSq : Nat)
  /-- BEACON_DETECTION (R279). The correlator detects a preamble and sync word above the margin and starts or restarts reception. -/
  | beaconDetection (lane : Lane) (meanSq : Nat) (hard : BitVec 32)
  /-- BEACON_REPORT (R281). At a frame's last symbol the receiver reports it as a valid FRAME or as BAD, and an identification takes it. -/
  | beaconReport (lane : Lane) (symbols : List (BitVec 2))
  /-- PPS_EDGE (R294). An active TIME_PPS edge is captured in ticks, or ignored with PPS_IGNORED. -/
  | ppsEdge (rising : Bool)
  /-- TOD_MESSAGE (R295). A time-of-day message completes and gives a servo measurement, or sets TOD_BAD. -/
  | todMessage (body : List Byte)
  /-- SUMAC_FRAME (R297). A slave receives a Sumac marker and payload and takes a measurement, or sets SUMAC_BAD. -/
  | sumacFrame (body : List Byte)
  /-- SUMAC_FRAME_SEND (R296). Each millisecond of its time, the master drives a marker and payload on the Sumac bus. -/
  | sumacFrameSend
  /-- SUMAC_CONFLICT (R301). A master sees a transition it did not drive, stops driving and sets SUMAC_CONFLICT. -/
  | sumacConflict
  /-- SUMAC_ROLE_WRITE (R301). A write of SUMAC_ROLE sets the bus role and lets a master resume driving. -/
  | sumacRoleWrite (role : BitVec 2)
  /-- SRC_WRITE (R293). A change of SRC takes effect at the next segment boundary, discarding any measurement and pending step. -/
  | srcWrite (src : BitVec 2)
  /-- SOURCE_LOSS (R298). The time source is lost; HOLDOVER is set and q is zeroed. -/
  | sourceLoss
  /-- SEGMENT_BOUNDARY (R290). Every 2^16 ticks, a pending rate change or step takes effect and a segment record is kept. -/
  | segmentBoundary
  /-- SNAP (R311). A write of 1 to SNAP latches the time and the tick. -/
  | snap
  /-- CONV_TICK_HI_WRITE (R291). A write of CONV_TICK_HI starts conversion of a tick to package time, setting CONV_VALID. -/
  | convTickHiWrite (value : Word)
  /-- SCHEDULE_DUE (R305). An entry is drawn into the due queue 2 us ahead of its time. -/
  | scheduleDue
  /-- SCHEDULE_TRIGGER (R304). An enabled entry's time is reached; it triggers with a Saffron stamp or is skipped, and its action runs. -/
  | scheduleTrigger (pos : Nat)
  /-- ARM (R308). A write of ARM arms a trigger line in MODE 1 or 2, or sets CFG_ERR. -/
  | arm (line : Fin 4)
  /-- TRIG_PULSE (R307). A trigger line's pulse begins at its programmed instant, strobing any subscribed HKD groups and urgent slots. -/
  | trigPulse (line : Fin 4)
  /-- TRIG_PULSE_END (R307). A trigger pulse ends after WIDTH ns. -/
  | trigPulseEnd (line : Fin 4)
  /-- STROBE (R316). A write of HKD_STROBE strobes groups, copying holding codes into active codes 4 CCLK later. -/
  | strobe (groups : BitVec 4)
  /-- SPAN_WRITE (R317). A write of SPAN that changes the value clamps the channel for 8 us. -/
  | spanWrite (ch : Fin 16) (span : BitVec 2)
  /-- SPAN_HOLD_END (R317). 8 us after a span change, the span hold ends. -/
  | spanHoldEnd (ch : Fin 16)
  /-- BIAS_STROBE (R318). The device strobes every HKD group after image release, and again 8 us after writing the engine page fields. -/
  | biasStrobe
  /-- DITHER_UPDATE (R320). Every 100 ns, each generator's accumulator advances and each unclamped channel drives its new output code. -/
  | ditherUpdate
  /-- SYNC (R320). A write of SINE_CTL.SYNC restarts the named generators together. -/
  | sync (gens : BitVec 4)
  /-- TARGET_WRITE (R320). A write of a generator's TARGET sets its accumulator to 0. -/
  | targetWrite (gen : Fin 4) (target : Byte)
  /-- HKA_CONVERSION (R322). A housekeeping ADC conversion completes, and its result goes to HKA_LAST, the filter queues and the ring. -/
  | hkaConversion (a : Fin 2) (code : BitVec 12)
  /-- GO (R323). A write of 1 to an urgent slot's GO requests one urgent conversion, or sets URG_BUSY. -/
  | go (slot : Fin 4)
  /-- RUN_WRITE (R326). A write of a converter's RUN starts it at entry 0, or stops it after the conversion under way. -/
  | runWrite (a : Fin 2) (on : Bool)
  /-- RD_IDX_WRITE (R325). A host write of RD_IDX advances the ring read index, or stores WR_IDX when the value is out of range. -/
  | rdIdxWrite (value : BitVec 12)
  /-- FILTER_SLOT (R328). In its slot of the frame, a telemetry channel absorbs its queued samples and updates VALUE. -/
  | filterSlot (k : Nat)
  /-- FILT_RUN_WRITE (R330). A write of the filter RUN starts the engine, clearing histories, or stops it at the frame end. -/
  | filtRunWrite (on : Bool)
  /-- LATCH (R330). A write of 1 to LATCH copies every channel's VALUE and FULL at the next frame start. -/
  | latch
  /-- FILT_CFG_WRITE (R330). A write of LEN, INPUT or CONV is stored while the engine is stopped, and otherwise sets CFG_REFUSED. -/
  | filtCfgWrite (k : Nat) (value : Word)
  /-- ENGINE_PAGE_READ (R332). The engine identification page read starts after release at ENTRY and stage 6, or fails with POWER. -/
  | enginePageRead
  /-- ENGINE_PAGE_READ_DONE (R332). The page read completes; the page is checked and, if it passes, the HKD fields are written from it. -/
  | enginePageReadDone (page : List Byte) (nack : Bool)
  /-- READ (R332). A write of ID_CTL.READ repeats the page read and check without changing HKD fields. -/
  | read
  /-- OE_XFER_GO (R333). A write of GO starts one OE bus transfer, or sets XFER_REFUSED. -/
  | oeXferGo (value : Word)
  /-- XFER_DONE (R333). An OE bus transfer ends with OK, NACK, TIMEOUT or ABORTED. -/
  | xferDone (result : BitVec 2) (data : List Byte)
  /-- RAIL_LOSS (R334). An enabled OE rail loses power-good; RAIL_LOSS is set and every HKD channel is clamped. -/
  | railLoss (rail : Fin 2)
  /-- OE_RAIL_RETRY (R372). Every 500 ms, D4 tries again an enabled OE rail that was switched off. -/
  | oeRailRetry (rail : Fin 2) (good : Bool)
  /-- OE_CTL_WRITE (R334). A write of EN_3V3 or EN_1V8 switches an OE rail on or off. -/
  | oeCtlWrite (en3v3 : Bool) (en1v8 : Bool) (good : Bool)
  /-- MEM_BURST (R340). A 64-byte GDDR7 burst completes, and the controller serves the next request by class. -/
  | memBurst (req : Option MemReq) (errs : List WordErr) (crcFails : Nat)
  /-- RETRAIN (R345). A write of 1 to RETRAIN starts an interface retraining. -/
  | retrain
  /-- RETRAINING_DONE (R345). An interface retraining ends, setting RETRAINED and READY, or leading to a second attempt or MEM_FAIL. -/
  | retrainingDone (ok : Bool)
  /-- D3_TEMP_READ (R346). Every 1 ms the controller reads D3's temperature and chooses the refresh band. -/
  | d3TempRead (temp : BitVec 8) (good : Bool)
  /-- REFRESH (R346). A per-bank refresh command is issued as the band requires. -/
  | refresh (bank : Nat)
  /-- SCRUB_BLOCK (R347). The scrubber reads its next 64-byte block and rewrites it if a word was corrected. -/
  | scrubBlock (errs : List WordErr) (crcFails : Nat)
  /-- SCRUB_EN_WRITE (R347). A write of SCRUB_EN starts or stops the scrubber. -/
  | scrubEnWrite (on : Bool)
  /-- RELOAD (R358). A write of 1 to RELOAD checks the calibration copies again and applies a passing copy, or sets CAL_RELOAD_FAIL. -/
  | reload (primary : List (Nat × WordErr)) (mirror : List (Nat × WordErr))
  /-- VIN_GOOD (R363). VIN rises through the UVLO threshold, and the 2.0 ms debounce starts. -/
  | vinGood
  /-- DEBOUNCE_DONE (R363). VIN stays up for the debounce, and the front end soft-starts. -/
  | debounceDone
  /-- SOFTSTART_DONE (R363). Front-end soft-start ends and the start-up sequence begins at stage 1. -/
  | softstartDone
  /-- VIN_OVERVOLTAGE (R363). VIN stays above OVLO for 100 us, and the front end stops and takes down every rail. -/
  | vinOvervoltage
  /-- VIN_OV_CLEAR (R363). VIN falls below the OVLO falling threshold and the device starts again from the debounce. -/
  | vinOvClear
  /-- VIN_OVERCURRENT (R363). The input current stays at its limit for 10 ms, and the front end stops. -/
  | vinOvercurrent
  /-- OVERCURRENT_RESTART (R363). 500 ms after an overcurrent stop, the front end starts again from the debounce. -/
  | overcurrentRestart
  /-- VIN_LOSS (R364). VIN falls below UVLO; package reset is asserted, rails go off in reverse and FAULT_N is held low. -/
  | vinLoss
  /-- STAGE_PASS (R366). Every rail of a stage reaches power-good, and the next stage starts. -/
  | stagePass
  /-- STAGE_FAIL (R369). A stage times out or an earlier rail is lost; the dies are held in reset, FAULT_N shows its code and rails go off. -/
  | stageFail (stage : Nat)
  /-- STAGE_RETRY (R369). 500 ms after a stage failure, the sequence starts again from the first stage not up. -/
  | stageRetry
  /-- REFCLK_PRESENT (R366). REFCLK shows 1,024 consecutive in-tolerance edges and stage 7 passes. -/
  | refclkPresent
  /-- RPLL_LOCK (R366). The root RPLL and all sampling synthesisers lock, stage 8 passes and power-up BIST starts. -/
  | rpllLock
  /-- BIST_COMPLETE (R400). Power-up BIST ends; results are kept in the island, and the dies leave reset or the held safe state is entered. -/
  | bistComplete (failed : List Nat)
  /-- BOOT_SLOT_CHECKED (R77). The loader accepts or rejects one image slot at boot and records its code in LOADER.ERR. -/
  | bootSlotChecked (upsets : List (Nat × WordErr))
  /-- IMAGE_APPLY (R78). The loader applies the accepted full image section by section, locks RWL fields and releases the Mace core at ENTRY. -/
  | imageApply
  /-- RESET_N_ASSERT (R371). RESET_N is asserted for at least 1 us, resetting D0, D1 and D2 and discarding the save RAM. -/
  | resetNAssert
  /-- RESET_N_RELEASE (R371). RESET_N is released; D0 leaves reset and the loader starts, or start-up resumes from BIST after the held safe state. -/
  | resetNRelease
  /-- RAIL_FAILURE (R372). A rail of stages 1-5 loses power-good for more than 10 us after start-up, which is a failure of its stage. -/
  | railFailure (stage : Nat)
  /-- REFCLK_LOST (R372). No REFCLK edge for 100 ns; D3 enters self-refresh, the line dies are held in reset and the time base stops. -/
  | refclkLost
  /-- REFCLK_RETURN (R372). REFCLK returns and stages 7 and 8 pass again; D3 is retrained and the line dies are re-applied. -/
  | refclkReturn
  /-- DRAIN_COMPLETE (R381). The queues and transfers of a domain being powered down drain fully, and power is removed. -/
  | drainComplete (d : Domain)
  /-- DRAIN_DISCARD (R381). 4 us of drain expire; in-flight work is discarded with ABORTED_POWER and DRAIN_DISCARD is set. -/
  | drainDiscard (d : Domain)
  /-- ADDRESS_MATCH_WAKE (R378). The clockless matcher recognises the device address in DEEP_STANDBY and D4 runs the stages from stage 2. -/
  | addressMatchWake (dev : BitVec 7)
  /-- AON_BROWNOUT (R380). AON falls below power-good in DEEP_STANDBY, and D4 performs a cold restart from stage 1. -/
  | aonBrownout
  /-- THERMAL_SAMPLE (R386). Each sensor is sampled and filtered; faults, bands, rate of rise and hot tracking are evaluated. -/
  | thermalSample (raws : List Int)
  /-- SHUTDOWN_HOLD (R393). 10 us after shutdown entry, D0, D1 and D2 are held in reset with FCODE 0b000 and HELD_CAUSE 2. -/
  | shutdownHold
  /-- THRESHOLD_WRITE (R389). A write of the thermal thresholds is stored, or discarded with CFG_REFUSED when the order would break. -/
  | thresholdWrite (value : Word)
  /-- TILE_FAILED (R407). A tile finds a byte with even parity; it fails with FAIL_CAUSE 1 and its output carries poison. -/
  | tileFailed (tile : TileId)
  /-- SWAP_DONE (R409). Under the resilient policy, a candidate tile is loaded in the failed tile's place, the groups resume and SWAP_DONE is set. -/
  | swapDone (tile : TileId)
  /-- REPLACED (R411). Under the placement policy, a replacement tile is loaded within 20 us and the lane re-enters WARM or GAIN. -/
  | replaced (lane : Lane)
  /-- CHECKPOINT (R408). Every 64 cycles of a TRAINED lane, the fixed lane logic copies and parity-checks a checkpoint of the tile state. -/
  | checkpoint (lane : Lane) (ok : Bool)
  /-- BG_SPARE_TEST (R412). Every 10 s, background slices start on each ready spare. -/
  | bgSpareTest
  /-- SPARE_FAIL (R412). A background slice fails its spare, which becomes FAILED with FAIL_CAUSE 3, and SPARE_FAIL is set. -/
  | spareFail (tile : TileId)
  /-- PLACEMENT_EVAL (R129). Every PLACE_INT x 10 ms the device chooses the hardest lane of a placement region and attaches or moves extensions. -/
  | placementEval (r : Region)
  /-- SEGMENT_MEASURE (R130). After each 2^16 cycles, one candidate segment start's correlation measure is completed. -/
  | segmentMeasure (lane : Lane)
  /-- WITHDRAW_HALVE (R131). Every 1,024 cycles of a withdrawal, the extension's coefficients are halved, detaching after 16 halvings. -/
  | withdrawHalve (r : Region)
  /-- JTAG_INSTRUCTION (R445). An instruction is loaded into the TAP, and the test instructions hold D0, D1 and D2 in reset. -/
  | jtagInstruction (ir : TapInstr)
  /-- JTAG_INSTRUCTION_EXIT (R445). Leaving a reset-holding TAP instruction ends that reset as a release of RESET_N. -/
  | jtagInstructionExit
  /-- D0_RESET_END (R76). At the end of D0 reset the directory, calibration and tick counter are initialised and the boot load begins. -/
  | d0ResetEnd (primary : List (Nat × WordErr)) (mirror : List (Nat × WordErr))
  /-- AM_LOCK (R207). The host-to-line clause 119 receive of a port gains or loses alignment-marker lock (AM_LOCK_A, AM_LOCK_B), which starts or clears a transmit-direction gap.  The
  receive finds the position of the codewords: `offA` and `offB` bits of the port's physical lanes precede the pair of codewords that
  begins with the next alignment markers. -/
  | amLock (lane : Lane) (portB : Bool) (on : Bool) (offA offB : Nat)
  /-- LOAD_IMAGE_COMPLETE (R84). A running LOAD_IMAGE operation (SLOT_CHUNK, SLOT_END, SLOT_BEGIN, KEY_WRITE, KEY_REVOKE) finishes its MRAM writes and checks and queues its completion; staging writes are accepted again, and the next queued LOAD_IMAGE starts. -/
  | loadImageComplete
  /-- BG_SLICE_PASS (R412). A background slice on a spare tile ends with a pass, and the spare becomes ready again. -/
  | bgSlicePass (tile : TileId)
  /-- RETURN_TO_ACTIVE (R374). A parked group or ungated region finishes powering its synthesisers and lanes, within 10 or 60 us, and the POWER squelch reason is cleared. -/
  | returnToActive (d : Domain)
  deriving DecidableEq, Repr

end Sys2Proof
end

