-- ==== Sys2Proof/Decode.lean ====
section
/-!
DEFINITION. The word of a command.  The opcode table gives no row a bit pattern, so no word spells a command.
-/

namespace Sys2Proof

/-- The command that `w` spells as a word of `nbits` bits: none, for the table gives no row bits. -/
def decodeTableWord (nbits w : Nat) : Option Instr :=
  match nbits, w with
  | _, _ => none

end Sys2Proof
end

