-- ==== Sys2Proof/Config.lean ====
section
/-!
DEFINITION. What an implementation fixes and the free values: constants without a body, so that nothing can be proved of
their values.
-/

namespace Sys2Proof.Config

/-- The free values, by the number that `freeCtr` counts (log 2): a value the spec leaves open is the next one. -/
opaque freeValue : Nat → Nat

/-- The early or late vote of the spectral-line phase detector at the newest sample of a history of corrected samples, newest
first (03_line_receive.md R103): its sign counts; the spec names the detector and does not give its arithmetic (log 94). -/
opaque spectralVote : List Int → Int

/-- The early or late vote of the Mueller-Müller type phase detector at one symbol (R103), from the equalised sample, the one
before it, the decision and the one before it: its sign counts; the spec does not give its arithmetic (log 94). -/
opaque symbolVote : Int → Int → Int → Int → Int

/-- The index of symbol `pos` of SSPRQ, which IEEE 802.3 defines and the spec does not give (log 22). -/
opaque ssprq : Nat → Nat

/-- The generator state at which PRBS13Q (13) and PRBS31Q (31) start, which the spec does not give (log 22). -/
opaque prbsSeed : Nat → Nat

/-- Bit `i` of the alignment markers that a port of two physical lanes (true) or one (false) sends, 2,056 or 1,028 bits with their
padding: IEEE 802.3 clause 119 defines them and the spec does not give them (log 97). -/
opaque amBit : Bool → Nat → Bool

/-- The frequency pulse g of the beacon (08_beacon.md R262) at an eighth of a DAC symbol, counted from its start over three
symbols, in units of 2^-16: R262 defines it over the real numbers, which the model does not compute (log 96). -/
opaque gaussPulse : Nat → Nat

/-- The cosine of a phase, given as a fraction of a turn, in units of 1/4096 (log 96). -/
opaque cosine : Nat → Nat → Int

/-- The factory's calibration value of an item at an index, in the primary copy (0) and the mirror (1), where the MRAM of
the state lists no record: what was written at manufacture is not given (log 11). -/
opaque factoryCal : Nat → Nat → Nat

/-- IMAGE_SERIAL of the factory image, where the MRAM of the state lists none (log 11). -/
opaque factoryImageSerial : Nat

/-- The length in bytes of the factory image, where the MRAM of the state lists none (log 11). -/
opaque factoryImageLength : Nat

end Sys2Proof.Config
end

