-- ==== Sys2Proof/Machine/Bits.lean ====
section
/-!
DEFINITION. Bit fields, two's-complement values, byte order, saturation and parity over numbers.  Multi-byte values are
least significant byte first (00_scope.md R6).
-/

namespace Sys2Proof.Machine

/-- Bits `lsb + width - 1` down to `lsb` of `w`. -/
def bitField (w lsb width : Nat) : Nat := (w >>> lsb) % 2 ^ width

/-- Bit `i` of `w`. -/
def bitAt (w i : Nat) : Bool := Nat.testBit w i

/-- 1 for true. -/
def natOf (b : Bool) : Nat := if b then 1 else 0

/-- The two's-complement value of the low `n` bits of `w`. -/
def signedOf (n w : Nat) : Int :=
  if w % 2 ^ n < 2 ^ (n - 1) then (w % 2 ^ n : Nat) else (w % 2 ^ n : Nat) - (2 ^ n : Nat)

/-- The `n`-bit two's-complement word of `z`. -/
def wordOf (n : Nat) (z : Int) : Nat := (z % (2 ^ n : Nat)).toNat

/-- `z` limited to `lo` to `hi`. -/
def clampInt (lo hi z : Int) : Int := if z < lo then lo else if hi < z then hi else z

/-- `v` limited to `lo` to `hi`. -/
def clampNat (lo hi v : Nat) : Nat := if v < lo then lo else if hi < v then hi else v

/-- `z` saturated to `n` signed bits. -/
def satSigned (n : Nat) (z : Int) : Int := clampInt (-(2 ^ (n - 1) : Nat)) ((2 ^ (n - 1) : Nat) - 1) z

/-- The quotient of `a` by `b > 0` rounded to nearest, ties away from zero. -/
def roundDiv (a b : Int) : Int :=
  if 0 ≤ a then (2 * a + b) / (2 * b) else -((2 * (-a) + b) / (2 * b))

/-- The number of bytes `bs`, least significant first (R6). -/
def leNat (bs : List Nat) : Nat :=
  match bs with
  | [] => 0
  | b :: r => b % 256 + 256 * leNat r

/-- The number of bytes `bs`, most significant first. -/
def beNat (bs : List Nat) : Nat := bs.foldl (fun a b => 256 * a + b % 256) 0

/-- `n` bytes of `v`, least significant first. -/
def leBytes (n v : Nat) : List Nat :=
  match n with
  | 0 => []
  | k + 1 => v % 256 :: leBytes k (v / 256)

/-- The parity of the low `n` bits of `v`: true when an odd number are 1. -/
def oddParity (n v : Nat) : Bool :=
  match n with
  | 0 => false
  | k + 1 => xor (v % 2 == 1) (oddParity k (v / 2))

/-- How many of the low `n` bits of `v` are 1. -/
def popCount (n v : Nat) : Nat :=
  match n with
  | 0 => 0
  | k + 1 => v % 2 + popCount k (v / 2)

/-- `v` with bits `lsb + width - 1` down to `lsb` replaced by the low bits of `x`. -/
def putField (v lsb width x : Nat) : Nat :=
  v - (bitField v lsb width) * 2 ^ lsb + (x % 2 ^ width) * 2 ^ lsb

/-- `v` with bit `i` set to `b`. -/
def putBit (v i : Nat) (b : Bool) : Nat := putField v i 1 (natOf b)

end Sys2Proof.Machine
end

