-- ==== Sys2Proof/Machine/Regs.lean ====
section
/-!
DEFINITION. The register map of the SKM-832: every register field the register tables of spec/ give, with its block,
offset, array stride and count, lowest bit, width, access code and reset value (16_register_map.md R447, R448; the
tables of R90, R139, R140, R172, R173, R191, R192, R221, R222, R258, R287, R288, R311, R336, R360, R361, R384, R397,
R417, R418, R432, R440, R443, R444, R453, R454, R459).  A field whose reset value the spec gives as 'By image' reads 0
(R449).  Queue monitors (R43), cache tags (R259), entry status words (R312) and interrupt sources are held as typed
state and are not listed here.  Reset values marked 'Health map', 'Last BIST', 'Fixed' and 'Factory' in the spec are
DESIGN CHOICE (log 4, log 15).
-/

namespace Sys2Proof.Machine

/-- The base address of instance `n` of a block (16_register_map.md R448).  For tiles, instances 0 to 95 are the
cluster tiles `12 * lane + tile` and 96 to 103 the pool tiles `96 + 2 * region + p`. -/
def Blk.base (b : Blk) (n : Nat) : Nat :=
  match b with
  | .loader => 0x000E0000
  | .line => 0x00080000 + n * 0x4000
  | .tile =>
    if n < 96 then 0x00080000 + (n / 12) * 0x4000 + 0x0800 + (n % 12) * 0x100
    else 0x00080000 + ((n - 96) / 2) * 0x8000 + 0x1400 + ((n - 96) % 2) * 0x100
  | .host => 0x00040000 + n * 0x400
  | .xbar => 0x00050000
  | .port => 0x00051000 + n * 0x100
  | .ctx => 0x00030000
  | .bcn => 0x000A0000 + n * 0x200
  | .syn => 0x000A1000 + n * 0x100
  | .time => 0x00020000
  | .hkd => 0x000B0000
  | .hka => 0x000B1000
  | .hkac => 0x000B1000 + n * 0x400
  | .filt => 0x000B2000
  | .oe => 0x000B3000
  | .mem => 0x000C0000
  | .pwr => 0x00000800
  | .therm => 0x000D0000
  | .bist => 0x000D0000
  | .global => 0x00000000
  | .intc => 0x00010000
  | .perf => 0x000F0000 + n * 0x1000
  | .dbg => 0x000F8000

/-- How many instances a block has (16_register_map.md R448). -/
def Blk.count (b : Blk) : Nat :=
  match b with
  | .line => 8 | .tile => 104 | .host => 16 | .port => 8 | .bcn => 8 | .syn => 4 | .hkac => 2 | .perf => 3
  | _ => 1

/-- The FAULT-class interrupt sources (15_management.md R434). -/
def faultClassSource (i : Nat) : Bool :=
  if i < 240 then i % 30 == 13
  else if i < 288 then i % 3 == 2
  else [290, 291, 292, 293, 300, 339, 345, 349, 355, 358, 360].contains i

/-- The reset value of a field in instance `n`, element `i`. -/
def Rst.value (r : Rst) (n i : Nat) : Nat :=
  match r with
  | .k v => v
  | .inst => n
  | .idxMod m => i % m
  | .onlyAt j v => if i = j then v else 0
  | .byIdx a b => if i = 0 then a else b
  | .faultOnly v => if faultClassSource i then v else 0

/-- The stored field of instance `n` of the block, element `i` of the array. -/
def FRow.f (r : FRow) (n : Nat := 0) (i : Nat := 0) : Fld :=
  ⟨r.blk.base n + r.off + r.stride * i, r.lsb, r.width, r.reset.value n i⟩

end Sys2Proof.Machine

namespace Sys2Proof.Machine.LOADER

/-- R90. -/
def STATUS_SOURCE : FRow := ⟨.loader, 0x0, 0, 1, 0, 2, .ro, .k 0⟩
/-- R90. -/
def STATUS_LOCKED : FRow := ⟨.loader, 0x0, 0, 1, 2, 1, .ro, .k 0⟩
/-- R90. -/
def STATUS_DEBUG_ALLOWED : FRow := ⟨.loader, 0x0, 0, 1, 3, 1, .ro, .k 0⟩
/-- R90. -/
def STATUS_KEY_USED : FRow := ⟨.loader, 0x0, 0, 1, 4, 2, .ro, .k 0⟩
/-- R90. -/
def STATUS_BUSY : FRow := ⟨.loader, 0x0, 0, 1, 6, 1, .ro, .k 0⟩
/-- R90. -/
def STATUS_REGION_SRC : FRow := ⟨.loader, 0x0, 0, 1, 8, 4, .ro, .k 0⟩
/-- R90. -/
def ERR_ERR_A : FRow := ⟨.loader, 0x4, 0, 1, 0, 4, .ro, .k 0⟩
/-- R90. -/
def ERR_ERR_B : FRow := ⟨.loader, 0x4, 0, 1, 4, 4, .ro, .k 0⟩
/-- R90. -/
def ERR_ERR_F : FRow := ⟨.loader, 0x4, 0, 1, 8, 4, .ro, .k 0⟩
/-- R90. -/
def ERR_ERR_LAST : FRow := ⟨.loader, 0x4, 0, 1, 12, 4, .ro, .k 0⟩
/-- R90. -/
def SERIAL_IMAGE_SERIAL : FRow := ⟨.loader, 0x8, 0, 1, 0, 32, .ro, .k 0⟩
/-- R90. -/
def KEYS_KEYn_STATE : FRow := ⟨.loader, 0xC, 0, 1, 0, 8, .ro, .k 0⟩
/-- R361. -/
def CAL_STAT_CAL_SRC : FRow := ⟨.loader, 0x100, 0, 1, 0, 2, .ro, .k 0⟩
/-- R361. -/
def CAL_CTL_RELOAD : FRow := ⟨.loader, 0x104, 0, 1, 0, 1, .wo, .k 0⟩
/-- R361. -/
def MRAM_EVT_CAL_FALLBACK : FRow := ⟨.loader, 0x108, 0, 1, 0, 1, .w1c, .k 0⟩
/-- R361. -/
def MRAM_EVT_CAL_RELOAD_FAIL : FRow := ⟨.loader, 0x108, 0, 1, 1, 1, .w1c, .k 0⟩
/-- R361. -/
def MRAM_EVT_MRAM_UE : FRow := ⟨.loader, 0x108, 0, 1, 2, 1, .w1c, .k 0⟩
/-- R361. -/
def MRAM_CE_CNT : FRow := ⟨.loader, 0x10C, 0, 1, 0, 32, .ro, .k 0⟩

/-- The fields of this chapter's register tables. -/
def rows0 : List FRow :=
  [STATUS_SOURCE, STATUS_LOCKED, STATUS_DEBUG_ALLOWED, STATUS_KEY_USED, STATUS_BUSY, STATUS_REGION_SRC, ERR_ERR_A, ERR_ERR_B, ERR_ERR_F, ERR_ERR_LAST, SERIAL_IMAGE_SERIAL, KEYS_KEYn_STATE, CAL_STAT_CAL_SRC, CAL_CTL_RELOAD, MRAM_EVT_CAL_FALLBACK, MRAM_EVT_CAL_RELOAD_FAIL, MRAM_EVT_MRAM_UE, MRAM_CE_CNT]
def rows : List FRow :=
  rows0

end Sys2Proof.Machine.LOADER

namespace Sys2Proof.Machine.LINE

/-- R139. -/
def RX_CTL_ACQ_EN : FRow := ⟨.line, 0x0, 0, 1, 0, 1, .rw, .k 1⟩
/-- R139. -/
def RX_CTL_RESTART : FRow := ⟨.line, 0x0, 0, 1, 1, 1, .wo, .k 0⟩
/-- R139. -/
def RX_CTL_ADAPT_FREEZE : FRow := ⟨.line, 0x0, 0, 1, 2, 1, .rw, .k 0⟩
/-- R139. -/
def RX_CTL_TRACK_FREEZE : FRow := ⟨.line, 0x0, 0, 1, 3, 1, .rw, .k 0⟩
/-- R139. -/
def RX_CTL_WARM_EN : FRow := ⟨.line, 0x0, 0, 1, 4, 1, .rw, .k 1⟩
/-- R139. -/
def RX_CTL_AGC_TRACK : FRow := ⟨.line, 0x0, 0, 1, 5, 1, .rw, .k 0⟩
/-- R139. -/
def RX_CTL_PRESET_LOAD : FRow := ⟨.line, 0x0, 0, 1, 6, 1, .wo, .k 0⟩
/-- R139. -/
def RX_STATE_STATE : FRow := ⟨.line, 0x4, 0, 1, 0, 4, .ro, .k 0⟩
/-- R139. -/
def RX_STATE_ATTEMPT : FRow := ⟨.line, 0x4, 0, 1, 8, 8, .ro, .k 0⟩
/-- R139. -/
def RX_STATE_CDR_LOCK : FRow := ⟨.line, 0x4, 0, 1, 16, 1, .ro, .k 0⟩
/-- R139. -/
def RX_STATE_LIGHT : FRow := ⟨.line, 0x4, 0, 1, 17, 1, .ro, .k 0⟩
/-- R139. -/
def RX_STATE_TRAINED : FRow := ⟨.line, 0x4, 0, 1, 18, 1, .ro, .k 0⟩
/-- R139. -/
def RX_STATE_EXT_FFE : FRow := ⟨.line, 0x4, 0, 1, 19, 1, .ro, .k 0⟩
/-- R139. -/
def RX_STATE_EXT_NP : FRow := ⟨.line, 0x4, 0, 1, 20, 1, .ro, .k 0⟩
/-- R139. -/
def RX_EVT_TRACK_ENTERED : FRow := ⟨.line, 0x8, 0, 1, 0, 1, .w1c, .k 0⟩
/-- R139. -/
def RX_EVT_ACQ_TIMEOUT : FRow := ⟨.line, 0x8, 0, 1, 1, 1, .w1c, .k 0⟩
/-- R139. -/
def RX_EVT_LOCK_LOST : FRow := ⟨.line, 0x8, 0, 1, 2, 1, .w1c, .k 0⟩
/-- R139. -/
def RX_EVT_WARM_FAIL : FRow := ⟨.line, 0x8, 0, 1, 3, 1, .w1c, .k 0⟩
/-- R139. -/
def RX_EVT_PLACE_CHANGE : FRow := ⟨.line, 0x8, 0, 1, 4, 1, .w1c, .k 0⟩
/-- R139. -/
def AGC_GAIN_CODE : FRow := ⟨.line, 0x10, 0, 1, 0, 6, .ro, .k 24⟩
/-- R139. -/
def AGC_GAIN_PRESET : FRow := ⟨.line, 0x10, 0, 1, 8, 6, .rw, .k 24⟩
/-- R139. -/
def AGC_TARGET_RMS : FRow := ⟨.line, 0x10, 0, 1, 16, 7, .rw, .k 40⟩
/-- R139. -/
def CDR_CFG_KP : FRow := ⟨.line, 0x14, 0, 1, 0, 4, .rw, .k 9⟩
/-- R139. -/
def CDR_CFG_KI : FRow := ⟨.line, 0x14, 0, 1, 4, 4, .rw, .k 12⟩
/-- R139. -/
def CDR_CFG_KP_FAST : FRow := ⟨.line, 0x14, 0, 1, 8, 4, .rw, .k 11⟩
/-- R139. -/
def CDR_CFG_KI_FAST : FRow := ⟨.line, 0x14, 0, 1, 12, 4, .rw, .k 15⟩
/-- R139. -/
def CDR_FREQ_FREQ_OFS : FRow := ⟨.line, 0x18, 0, 1, 0, 32, .ro, .k 0⟩
/-- R139. -/
def CDR_PHASE_PHASE : FRow := ⟨.line, 0x1C, 0, 1, 0, 16, .ro, .k 0⟩
/-- R139. -/
def ADAPT_MU_MU_FFE : FRow := ⟨.line, 0x20, 0, 1, 0, 4, .rw, .k 6⟩
/-- R139. -/
def ADAPT_MU_MU_DFE : FRow := ⟨.line, 0x20, 0, 1, 4, 4, .rw, .k 6⟩
/-- R139. -/
def ADAPT_MU_MU_TGT : FRow := ⟨.line, 0x20, 0, 1, 8, 4, .rw, .k 4⟩
/-- R139. -/
def ADAPT_MU_MU_LVL : FRow := ⟨.line, 0x20, 0, 1, 12, 4, .rw, .k 5⟩
/-- R139. -/
def ADAPT_MU_MU_NP : FRow := ⟨.line, 0x20, 0, 1, 16, 4, .rw, .k 4⟩
/-- R139. -/
def ADAPT_MU_ACQ_BOOST : FRow := ⟨.line, 0x20, 0, 1, 20, 4, .rw, .k 3⟩
/-- R139. -/
def TARGET_A1 : FRow := ⟨.line, 0x24, 0, 1, 0, 8, .ro, .k 128⟩
/-- R139. -/
def TARGET_A2 : FRow := ⟨.line, 0x24, 0, 1, 8, 8, .ro, .k 0⟩
/-- R139. -/
def TARGET_DFE_B : FRow := ⟨.line, 0x24, 0, 1, 16, 8, .ro, .k 0⟩
/-- R139. -/
def PRESET_A1_PRESET : FRow := ⟨.line, 0x28, 0, 1, 0, 8, .rw, .k 128⟩
/-- R139. -/
def PRESET_A2_PRESET : FRow := ⟨.line, 0x28, 0, 1, 8, 8, .rw, .k 0⟩
/-- R139. -/
def PRESET_MAIN_PRESET : FRow := ⟨.line, 0x28, 0, 1, 16, 12, .rw, .k 256⟩
/-- R139. -/
def DETECT_LEVEL_UNIT : FRow := ⟨.line, 0x2C, 0, 1, 0, 7, .rw, .k 96⟩
/-- R139. -/
def DETECT_REL_SHIFT : FRow := ⟨.line, 0x2C, 0, 1, 8, 4, .rw, .k 12⟩
/-- R139. -/
def DETECT_TGT_ADAPT : FRow := ⟨.line, 0x2C, 0, 1, 12, 1, .rw, .k 1⟩
/-- R139. -/
def TRACK_TRACK_NORM : FRow := ⟨.line, 0x30, 0, 1, 0, 4, .rw, .k 6⟩
/-- R139. -/
def TRACK_TRACK_HOT : FRow := ⟨.line, 0x30, 0, 1, 4, 4, .rw, .k 4⟩
/-- R139. -/
def WARM_WARM_TO : FRow := ⟨.line, 0x34, 0, 1, 0, 8, .rw, .k 10⟩
/-- R139. -/
def PLACE_PLACE_INT : FRow := ⟨.line, 0x38, 0, 1, 0, 8, .rw, .k 100⟩
/-- R139. -/
def PLACE_PLACE_HYST : FRow := ⟨.line, 0x38, 0, 1, 8, 8, .rw, .k 10⟩
/-- R139. -/
def PLACE_SEG_MIN : FRow := ⟨.line, 0x38, 0, 1, 16, 7, .rw, .k 6⟩
/-- R139. -/
def MEAS_CTL_WIN : FRow := ⟨.line, 0x300, 0, 1, 0, 5, .rw, .k 20⟩
/-- R139. -/
def MEAS_STAT_SEQ : FRow := ⟨.line, 0x304, 0, 1, 0, 8, .ro, .k 0⟩
/-- R139. -/
def MEAS_STAT_VALID : FRow := ⟨.line, 0x304, 0, 1, 8, 1, .ro, .k 0⟩
/-- R139. -/
def SIG_LO : FRow := ⟨.line, 0x308, 0, 1, 0, 32, .ro, .k 0⟩
/-- R139. -/
def SIG_HI : FRow := ⟨.line, 0x30C, 0, 1, 0, 24, .ro, .k 0⟩
/-- R139. -/
def ERR_LO : FRow := ⟨.line, 0x310, 0, 1, 0, 32, .ro, .k 0⟩
/-- R139. -/
def ERR_HI : FRow := ⟨.line, 0x314, 0, 1, 0, 24, .ro, .k 0⟩
/-- R139. -/
def CW : FRow := ⟨.line, 0x318, 0, 1, 0, 32, .ro, .k 0⟩
/-- R139. -/
def FLIP_LO : FRow := ⟨.line, 0x31C, 0, 1, 0, 32, .ro, .k 0⟩
/-- R139. -/
def FLIP_HI : FRow := ⟨.line, 0x320, 0, 1, 0, 16, .ro, .k 0⟩
/-- R139. -/
def UNC : FRow := ⟨.line, 0x324, 0, 1, 0, 32, .ro, .k 0⟩
/-- R139. -/
def CLIP_CLIP_CNT : FRow := ⟨.line, 0x328, 0, 1, 0, 32, .ro, .k 0⟩
/-- R139. -/
def HIST_CTL_START : FRow := ⟨.line, 0x340, 0, 1, 0, 1, .wo, .k 0⟩
/-- R139. -/
def HIST_CTL_POINT : FRow := ⟨.line, 0x340, 0, 1, 1, 1, .rw, .k 0⟩
/-- R139. -/
def HIST_CTL_LEN : FRow := ⟨.line, 0x340, 0, 1, 2, 5, .rw, .k 20⟩
/-- R139. -/
def HIST_STAT_BUSY : FRow := ⟨.line, 0x344, 0, 1, 0, 1, .ro, .k 0⟩
/-- R139. -/
def HIST_STAT_DONE : FRow := ⟨.line, 0x344, 0, 1, 1, 1, .ro, .k 0⟩
/-- R139. -/
def HIST_STAT_VALID : FRow := ⟨.line, 0x344, 0, 1, 2, 1, .ro, .k 0⟩
/-- R139. -/
def CORR_OFFSET : FRow := ⟨.line, 0x400, 4, 64, 0, 8, .ro, .k 0⟩
/-- R139. -/
def CORR_GAIN : FRow := ⟨.line, 0x400, 4, 64, 8, 10, .ro, .k 0⟩
/-- R139. -/
def CORR_SKEW : FRow := ⟨.line, 0x400, 4, 64, 18, 10, .ro, .k 0⟩
/-- R139. -/
def HIST_COUNT : FRow := ⟨.line, 0x600, 4, 128, 0, 32, .ro, .k 0⟩
/-- R172. -/
def SYNC_STAT_SYNC_LOCK : FRow := ⟨.line, 0x280, 0, 1, 0, 1, .ro, .k 0⟩
/-- R172. -/
def SYNC_STAT_GROUP_LOCK : FRow := ⟨.line, 0x280, 0, 1, 1, 1, .ro, .k 0⟩
/-- R172. -/
def SYNC_STAT_OFFSET : FRow := ⟨.line, 0x280, 0, 1, 8, 8, .ro, .k 0⟩
/-- R172. -/
def SYNC_STAT_FORMAT : FRow := ⟨.line, 0x280, 0, 1, 16, 2, .ro, .k 0⟩
/-- R172. -/
def SYNC_EVT_GROUP_ACQ : FRow := ⟨.line, 0x284, 0, 1, 0, 1, .w1c, .k 0⟩
/-- R172. -/
def SYNC_EVT_GROUP_LOSS : FRow := ⟨.line, 0x284, 0, 1, 1, 1, .w1c, .k 0⟩
/-- R172. -/
def SYNC_EVT_FORMAT_MISMATCH : FRow := ⟨.line, 0x284, 0, 1, 2, 1, .w1c, .k 0⟩
/-- R172. -/
def SYNC_EVT_RX_POISON : FRow := ⟨.line, 0x284, 0, 1, 3, 1, .w1c, .k 0⟩
/-- R172. -/
def SYNC_WIN_LOSS_COUNT : FRow := ⟨.line, 0x288, 0, 1, 0, 6, .ro, .k 0⟩
/-- R172. -/
def SYNC_WIN_GROUP_MISS : FRow := ⟨.line, 0x288, 0, 1, 8, 2, .ro, .k 0⟩
/-- R172. -/
def DEC_CTL_CHASE_EN : FRow := ⟨.line, 0x28C, 0, 1, 0, 1, .rw, .k 1⟩
/-- R172. -/
def DEC_CTL_MODE : FRow := ⟨.line, 0x28C, 0, 1, 8, 1, .ro, .k 0⟩
/-- R172. -/
def DEC_CTL_PRECODE : FRow := ⟨.line, 0x28C, 0, 1, 9, 1, .ro, .k 0⟩
/-- R191. -/
def TX_CTL_SQUELCH : FRow := ⟨.line, 0x100, 0, 1, 0, 1, .rw, .k 0⟩
/-- R191. -/
def TX_CTL_PATTERN : FRow := ⟨.line, 0x100, 0, 1, 1, 3, .rw, .k 0⟩
/-- R191. -/
def TX_CTL_AMPL : FRow := ⟨.line, 0x100, 0, 1, 8, 4, .rw, .k 15⟩
/-- R191. -/
def TX_STATE_SQUELCHED : FRow := ⟨.line, 0x104, 0, 1, 0, 1, .ro, .k 1⟩
/-- R191. -/
def TX_STATE_TIMING : FRow := ⟨.line, 0x104, 0, 1, 1, 2, .ro, .k 0⟩
/-- R191. -/
def TX_STATE_SQ_REASON : FRow := ⟨.line, 0x104, 0, 1, 8, 6, .ro, .k 1⟩
/-- R191. -/
def TX_EVT_STARVE_FILL : FRow := ⟨.line, 0x108, 0, 1, 0, 1, .w1c, .k 0⟩
/-- R191. -/
def TX_EVT_CLIP : FRow := ⟨.line, 0x108, 0, 1, 1, 1, .w1c, .k 0⟩
/-- R191. -/
def TX_EVT_HOLDOVER : FRow := ⟨.line, 0x108, 0, 1, 2, 1, .w1c, .k 0⟩
/-- R191. -/
def TX_EVT_COMMIT_DROP : FRow := ⟨.line, 0x108, 0, 1, 3, 1, .w1c, .k 0⟩
/-- R191. -/
def TX_CLIP_CLIP_CNT : FRow := ⟨.line, 0x10C, 0, 1, 0, 32, .ro, .k 0⟩
/-- R191. -/
def TX_LVL_P0 : FRow := ⟨.line, 0x110, 0, 1, 0, 8, .rw, .k 136⟩
/-- R191. -/
def TX_LVL_P1 : FRow := ⟨.line, 0x110, 0, 1, 8, 8, .rw, .k 216⟩
/-- R191. -/
def TX_LVL_P2 : FRow := ⟨.line, 0x110, 0, 1, 16, 8, .rw, .k 40⟩
/-- R191. -/
def TX_LVL_P3 : FRow := ⟨.line, 0x110, 0, 1, 24, 8, .rw, .k 120⟩
/-- R191. -/
def BCN_INJ_BCN_AMP : FRow := ⟨.line, 0x114, 0, 1, 0, 8, .rw, .k 64⟩

/-- The fields of this chapter's register tables. -/
def rows0 : List FRow :=
  [RX_CTL_ACQ_EN, RX_CTL_RESTART, RX_CTL_ADAPT_FREEZE, RX_CTL_TRACK_FREEZE, RX_CTL_WARM_EN, RX_CTL_AGC_TRACK, RX_CTL_PRESET_LOAD, RX_STATE_STATE, RX_STATE_ATTEMPT, RX_STATE_CDR_LOCK, RX_STATE_LIGHT, RX_STATE_TRAINED, RX_STATE_EXT_FFE, RX_STATE_EXT_NP, RX_EVT_TRACK_ENTERED, RX_EVT_ACQ_TIMEOUT, RX_EVT_LOCK_LOST, RX_EVT_WARM_FAIL, RX_EVT_PLACE_CHANGE, AGC_GAIN_CODE, AGC_GAIN_PRESET, AGC_TARGET_RMS, CDR_CFG_KP, CDR_CFG_KI]
def rows1 : List FRow :=
  [CDR_CFG_KP_FAST, CDR_CFG_KI_FAST, CDR_FREQ_FREQ_OFS, CDR_PHASE_PHASE, ADAPT_MU_MU_FFE, ADAPT_MU_MU_DFE, ADAPT_MU_MU_TGT, ADAPT_MU_MU_LVL, ADAPT_MU_MU_NP, ADAPT_MU_ACQ_BOOST, TARGET_A1, TARGET_A2, TARGET_DFE_B, PRESET_A1_PRESET, PRESET_A2_PRESET, PRESET_MAIN_PRESET, DETECT_LEVEL_UNIT, DETECT_REL_SHIFT, DETECT_TGT_ADAPT, TRACK_TRACK_NORM, TRACK_TRACK_HOT, WARM_WARM_TO, PLACE_PLACE_INT, PLACE_PLACE_HYST]
def rows2 : List FRow :=
  [PLACE_SEG_MIN, MEAS_CTL_WIN, MEAS_STAT_SEQ, MEAS_STAT_VALID, SIG_LO, SIG_HI, ERR_LO, ERR_HI, CW, FLIP_LO, FLIP_HI, UNC, CLIP_CLIP_CNT, HIST_CTL_START, HIST_CTL_POINT, HIST_CTL_LEN, HIST_STAT_BUSY, HIST_STAT_DONE, HIST_STAT_VALID, CORR_OFFSET, CORR_GAIN, CORR_SKEW, HIST_COUNT, SYNC_STAT_SYNC_LOCK]
def rows3 : List FRow :=
  [SYNC_STAT_GROUP_LOCK, SYNC_STAT_OFFSET, SYNC_STAT_FORMAT, SYNC_EVT_GROUP_ACQ, SYNC_EVT_GROUP_LOSS, SYNC_EVT_FORMAT_MISMATCH, SYNC_EVT_RX_POISON, SYNC_WIN_LOSS_COUNT, SYNC_WIN_GROUP_MISS, DEC_CTL_CHASE_EN, DEC_CTL_MODE, DEC_CTL_PRECODE, TX_CTL_SQUELCH, TX_CTL_PATTERN, TX_CTL_AMPL, TX_STATE_SQUELCHED, TX_STATE_TIMING, TX_STATE_SQ_REASON, TX_EVT_STARVE_FILL, TX_EVT_CLIP, TX_EVT_HOLDOVER, TX_EVT_COMMIT_DROP, TX_CLIP_CLIP_CNT, TX_LVL_P0]
def rows4 : List FRow :=
  [TX_LVL_P1, TX_LVL_P2, TX_LVL_P3, BCN_INJ_BCN_AMP]
def rows : List FRow :=
  rows0 ++ rows1 ++ rows2 ++ rows3 ++ rows4

end Sys2Proof.Machine.LINE

namespace Sys2Proof.Machine.TILE

/-- R140. -/
def TILE_INFO_FN : FRow := ⟨.tile, 0x0, 0, 1, 0, 3, .ro, .k 0⟩
/-- R140. -/
def TILE_INFO_FAILED : FRow := ⟨.tile, 0x0, 0, 1, 3, 1, .ro, .k 0⟩
/-- R140. -/
def TILE_INFO_STANDS_FOR : FRow := ⟨.tile, 0x0, 0, 1, 4, 4, .ro, .k 15⟩
/-- R140. -/
def TILE_INFO_SERVES : FRow := ⟨.tile, 0x0, 0, 1, 8, 4, .ro, .k 0⟩
/-- R140. -/
def TAP_COEF : FRow := ⟨.tile, 0x10, 4, 12, 0, 12, .ro, .k 0⟩
/-- R140. -/
def TAP_LOAD_INDEX : FRow := ⟨.tile, 0x40, 0, 1, 0, 4, .wo, .k 0⟩
/-- R140. -/
def TAP_LOAD_VALUE : FRow := ⟨.tile, 0x40, 0, 1, 16, 12, .wo, .k 0⟩
/-- R140. -/
def SEG_SEG_START : FRow := ⟨.tile, 0x44, 0, 1, 0, 8, .ro, .k 0⟩
/-- R140. -/
def SEG_ATTACHED : FRow := ⟨.tile, 0x44, 0, 1, 8, 1, .ro, .k 0⟩
/-- R140. -/
def LVL_LEVEL : FRow := ⟨.tile, 0x10, 4, 32, 0, 10, .ro, .k 0⟩
/-- R140. -/
def NP_P1 : FRow := ⟨.tile, 0x10, 0, 1, 0, 8, .ro, .k 0⟩
/-- R140. -/
def NP_P2 : FRow := ⟨.tile, 0x10, 0, 1, 8, 8, .ro, .k 0⟩
/-- R140. -/
def NP_ATTACHED : FRow := ⟨.tile, 0x10, 0, 1, 16, 1, .ro, .k 0⟩
/-- R173. -/
def DEC_STAT_PARITY : FRow := ⟨.tile, 0x10, 0, 1, 0, 1, .ro, .k 0⟩
/-- R173. -/
def DEC_CW_CW : FRow := ⟨.tile, 0x14, 0, 1, 0, 32, .ro, .k 0⟩
/-- R173. -/
def DEC_UNC_UNC : FRow := ⟨.tile, 0x18, 0, 1, 0, 32, .ro, .k 0⟩
/-- R173. -/
def DEC_CORR_CORR : FRow := ⟨.tile, 0x1C, 0, 1, 0, 32, .ro, .k 0⟩
/-- R192. -/
def TXTAP_COEF : FRow := ⟨.tile, 0x10, 4, 7, 0, 10, .ro, .onlyAt 2 256⟩
/-- R192. -/
def TXSHADOW_COEF : FRow := ⟨.tile, 0x30, 4, 7, 0, 10, .rw, .onlyAt 2 256⟩
/-- R192. -/
def TXCOMMIT_COMMIT : FRow := ⟨.tile, 0x50, 0, 1, 0, 1, .wo, .k 0⟩
/-- R192. -/
def TX_CW_CW : FRow := ⟨.tile, 0x54, 0, 1, 0, 32, .ro, .k 0⟩
/-- R192. -/
def TX_POISON_POISON : FRow := ⟨.tile, 0x58, 0, 1, 0, 32, .ro, .k 0⟩
/-- R417. -/
def TILE_TEST_TESTED : FRow := ⟨.tile, 0x4, 0, 1, 0, 1, .ro, .k 1⟩
/-- R417. -/
def TILE_TEST_LAST_PASS : FRow := ⟨.tile, 0x4, 0, 1, 1, 1, .ro, .k 1⟩
/-- R417. -/
def TILE_TEST_FAIL_CAUSE : FRow := ⟨.tile, 0x4, 0, 1, 2, 2, .ro, .k 0⟩
/-- R417. -/
def TILE_TEST_RETIRED : FRow := ⟨.tile, 0x4, 0, 1, 4, 1, .ro, .k 0⟩
/-- R417. -/
def TILE_TEST_READY : FRow := ⟨.tile, 0x4, 0, 1, 5, 1, .ro, .k 0⟩
/-- R417. -/
def TILE_COV_MEM_COV : FRow := ⟨.tile, 0x8, 0, 1, 0, 10, .ro, .k 1000⟩
/-- R417. -/
def TILE_COV_LOGIC_COV : FRow := ⟨.tile, 0x8, 0, 1, 16, 10, .ro, .k 920⟩

/-- The fields of this chapter's register tables. -/
def rows0 : List FRow :=
  [TILE_INFO_FN, TILE_INFO_FAILED, TILE_INFO_STANDS_FOR, TILE_INFO_SERVES, TAP_COEF, TAP_LOAD_INDEX, TAP_LOAD_VALUE, SEG_SEG_START, SEG_ATTACHED, LVL_LEVEL, NP_P1, NP_P2, NP_ATTACHED, DEC_STAT_PARITY, DEC_CW_CW, DEC_UNC_UNC, DEC_CORR_CORR, TXTAP_COEF, TXSHADOW_COEF, TXCOMMIT_COMMIT, TX_CW_CW, TX_POISON_POISON, TILE_TEST_TESTED, TILE_TEST_LAST_PASS]
def rows1 : List FRow :=
  [TILE_TEST_FAIL_CAUSE, TILE_TEST_RETIRED, TILE_TEST_READY, TILE_COV_MEM_COV, TILE_COV_LOGIC_COV]
def rows : List FRow :=
  rows0 ++ rows1

end Sys2Proof.Machine.TILE

namespace Sys2Proof.Machine.HOST

/-- R221. -/
def HCTL_ENABLED : FRow := ⟨.host, 0x0, 0, 1, 0, 1, .ro, .k 0⟩
/-- R221. -/
def HCTL_REACH : FRow := ⟨.host, 0x0, 0, 1, 1, 1, .ro, .k 0⟩
/-- R221. -/
def HCTL_RX_PRECODE : FRow := ⟨.host, 0x0, 0, 1, 2, 1, .rw, .k 0⟩
/-- R221. -/
def HCTL_TX_PRECODE : FRow := ⟨.host, 0x0, 0, 1, 3, 1, .rw, .k 0⟩
/-- R221. -/
def HCTL_RX_INV : FRow := ⟨.host, 0x0, 0, 1, 4, 1, .rw, .k 0⟩
/-- R221. -/
def HCTL_TX_INV : FRow := ⟨.host, 0x0, 0, 1, 5, 1, .rw, .k 0⟩
/-- R221. -/
def HCTL_RX_RESTART : FRow := ⟨.host, 0x0, 0, 1, 6, 1, .wo, .k 0⟩
/-- R221. -/
def HSTATE_RX_STATE : FRow := ⟨.host, 0x4, 0, 1, 0, 2, .ro, .k 0⟩
/-- R221. -/
def HSTATE_SIG_DET : FRow := ⟨.host, 0x4, 0, 1, 2, 1, .ro, .k 0⟩
/-- R221. -/
def HEVT_LOCK_LOST : FRow := ⟨.host, 0x8, 0, 1, 0, 1, .w1c, .k 0⟩
/-- R221. -/
def HEVT_LOCK_ACQ : FRow := ⟨.host, 0x8, 0, 1, 1, 1, .w1c, .k 0⟩
/-- R221. -/
def TX_SHADOW0_CM3 : FRow := ⟨.host, 0x10, 0, 1, 0, 8, .rw, .k 0⟩
/-- R221. -/
def TX_SHADOW0_CM2 : FRow := ⟨.host, 0x10, 0, 1, 8, 8, .rw, .k 0⟩
/-- R221. -/
def TX_SHADOW0_CM1 : FRow := ⟨.host, 0x10, 0, 1, 16, 8, .rw, .k 0⟩
/-- R221. -/
def TX_SHADOW0_C0 : FRow := ⟨.host, 0x10, 0, 1, 24, 8, .rw, .k 127⟩
/-- R221. -/
def TX_SHADOW1_CP1 : FRow := ⟨.host, 0x14, 0, 1, 0, 8, .rw, .k 0⟩
/-- R221. -/
def TX_ACTIVE0_TAPS : FRow := ⟨.host, 0x18, 0, 1, 0, 32, .ro, .k 2130706432⟩
/-- R221. -/
def TX_ACTIVE1_CP1 : FRow := ⟨.host, 0x1C, 0, 1, 0, 8, .ro, .k 0⟩
/-- R221. -/
def TX_CFG_COMMIT : FRow := ⟨.host, 0x20, 0, 1, 0, 1, .wo, .k 0⟩
/-- R221. -/
def TX_CFG_TX_AMPL : FRow := ⟨.host, 0x20, 0, 1, 4, 4, .rw, .k 15⟩

/-- The fields of this chapter's register tables. -/
def rows0 : List FRow :=
  [HCTL_ENABLED, HCTL_REACH, HCTL_RX_PRECODE, HCTL_TX_PRECODE, HCTL_RX_INV, HCTL_TX_INV, HCTL_RX_RESTART, HSTATE_RX_STATE, HSTATE_SIG_DET, HEVT_LOCK_LOST, HEVT_LOCK_ACQ, TX_SHADOW0_CM3, TX_SHADOW0_CM2, TX_SHADOW0_CM1, TX_SHADOW0_C0, TX_SHADOW1_CP1, TX_ACTIVE0_TAPS, TX_ACTIVE1_CP1, TX_CFG_COMMIT, TX_CFG_TX_AMPL]
def rows : List FRow :=
  rows0

end Sys2Proof.Machine.HOST

namespace Sys2Proof.Machine.PORT

/-- R222. -/
def PCFG_MODE : FRow := ⟨.port, 0x0, 0, 1, 0, 1, .ro, .k 0⟩
/-- R222. -/
def PCFG_BREAKOUT : FRow := ⟨.port, 0x0, 0, 1, 1, 1, .ro, .k 0⟩
/-- R222. -/
def PCFG_MAPPED : FRow := ⟨.port, 0x0, 0, 1, 2, 1, .ro, .k 0⟩
/-- R222. -/
def PCFG_HOST_A : FRow := ⟨.port, 0x0, 0, 1, 4, 4, .ro, .k 0⟩
/-- R222. -/
def PCFG_HOST_B : FRow := ⟨.port, 0x0, 0, 1, 8, 4, .ro, .k 0⟩
/-- R222. -/
def PCFG_HOLD_TIME : FRow := ⟨.port, 0x0, 0, 1, 12, 10, .ro, .k 0⟩
/-- R222. -/
def NM_CFG_TARGET_FILL : FRow := ⟨.port, 0x4, 0, 1, 0, 13, .rw, .k 128⟩
/-- R222. -/
def NM_CFG_RESUME_FILL : FRow := ⟨.port, 0x4, 0, 1, 16, 13, .rw, .k 16⟩
/-- R222. -/
def PSTAT_AM_LOCK_A : FRow := ⟨.port, 0x8, 0, 1, 0, 1, .ro, .k 0⟩
/-- R222. -/
def PSTAT_AM_LOCK_B : FRow := ⟨.port, 0x8, 0, 1, 1, 1, .ro, .k 0⟩
/-- R222. -/
def PSTAT_MON_LOCK : FRow := ⟨.port, 0x8, 0, 1, 2, 1, .ro, .k 0⟩
/-- R222. -/
def PSTAT_MON_LOCK_B : FRow := ⟨.port, 0x8, 0, 1, 3, 1, .ro, .k 0⟩
/-- R222. -/
def PSTAT_NM_STATE_A : FRow := ⟨.port, 0x8, 0, 1, 4, 2, .ro, .k 1⟩
/-- R222. -/
def PSTAT_NM_STATE_B : FRow := ⟨.port, 0x8, 0, 1, 6, 2, .ro, .k 1⟩
/-- R222. -/
def PEVT_GAP_START : FRow := ⟨.port, 0xC, 0, 1, 0, 1, .w1c, .k 0⟩
/-- R222. -/
def PEVT_LF_START : FRow := ⟨.port, 0xC, 0, 1, 1, 1, .w1c, .k 0⟩
/-- R222. -/
def PEVT_RESUME : FRow := ⟨.port, 0xC, 0, 1, 2, 1, .w1c, .k 0⟩
/-- R222. -/
def PEVT_OVF : FRow := ⟨.port, 0xC, 0, 1, 3, 1, .w1c, .k 0⟩
/-- R222. -/
def PEVT_UNDERRUN : FRow := ⟨.port, 0xC, 0, 1, 4, 1, .w1c, .k 0⟩
/-- R222. -/
def PEVT_HOST_GAP : FRow := ⟨.port, 0xC, 0, 1, 5, 1, .w1c, .k 0⟩
/-- R222. -/
def NM_FILL_FILL_A : FRow := ⟨.port, 0x10, 0, 1, 0, 13, .ro, .k 0⟩
/-- R222. -/
def NM_FILL_FILL_B : FRow := ⟨.port, 0x10, 0, 1, 16, 13, .ro, .k 0⟩
/-- R222. -/
def NM_HWM_HWM_A : FRow := ⟨.port, 0x14, 0, 1, 0, 13, .ro, .k 0⟩
/-- R222. -/
def NM_HWM_HWM_B : FRow := ⟨.port, 0x14, 0, 1, 16, 13, .ro, .k 0⟩
/-- R222. -/
def NM_HWM_HWM_CLR : FRow := ⟨.port, 0x14, 0, 1, 31, 1, .wo, .k 0⟩
/-- R222. -/
def HOST_CW_A : FRow := ⟨.port, 0x20, 0, 1, 0, 32, .ro, .k 0⟩
/-- R222. -/
def HOST_CORR_A : FRow := ⟨.port, 0x24, 0, 1, 0, 32, .ro, .k 0⟩
/-- R222. -/
def HOST_UNC_A : FRow := ⟨.port, 0x28, 0, 1, 0, 32, .ro, .k 0⟩
/-- R222. -/
def HOST_SYM_A : FRow := ⟨.port, 0x2C, 0, 1, 0, 32, .ro, .k 0⟩
/-- R222. -/
def HOST_CW_B : FRow := ⟨.port, 0x30, 0, 1, 0, 32, .ro, .k 0⟩
/-- R222. -/
def HOST_CORR_B : FRow := ⟨.port, 0x34, 0, 1, 0, 32, .ro, .k 0⟩
/-- R222. -/
def HOST_UNC_B : FRow := ⟨.port, 0x38, 0, 1, 0, 32, .ro, .k 0⟩
/-- R222. -/
def HOST_SYM_B : FRow := ⟨.port, 0x3C, 0, 1, 0, 32, .ro, .k 0⟩
/-- R222. -/
def LINE_CW_A : FRow := ⟨.port, 0x40, 0, 1, 0, 32, .ro, .k 0⟩
/-- R222. -/
def LINE_UNC_A : FRow := ⟨.port, 0x44, 0, 1, 0, 32, .ro, .k 0⟩
/-- R222. -/
def LINE_CW_B : FRow := ⟨.port, 0x48, 0, 1, 0, 32, .ro, .k 0⟩
/-- R222. -/
def LINE_UNC_B : FRow := ⟨.port, 0x4C, 0, 1, 0, 32, .ro, .k 0⟩
/-- R222. -/
def IDLE_INS : FRow := ⟨.port, 0x50, 0, 1, 0, 32, .ro, .k 0⟩
/-- R222. -/
def IDLE_DEL : FRow := ⟨.port, 0x54, 0, 1, 0, 32, .ro, .k 0⟩
/-- R222. -/
def MON_UNLOCKED_ROWS : FRow := ⟨.port, 0x58, 0, 1, 0, 32, .ro, .k 0⟩
/-- R222. -/
def GAP_SEC_A : FRow := ⟨.port, 0x60, 0, 1, 0, 32, .ro, .k 0⟩
/-- R222. -/
def GAP_NS_A : FRow := ⟨.port, 0x64, 0, 1, 0, 30, .ro, .k 0⟩
/-- R222. -/
def GAP_NS_A_SOFT : FRow := ⟨.port, 0x64, 0, 1, 31, 1, .ro, .k 0⟩
/-- R222. -/
def GAP_SEC_B : FRow := ⟨.port, 0x68, 0, 1, 0, 32, .ro, .k 0⟩
/-- R222. -/
def GAP_NS_B : FRow := ⟨.port, 0x6C, 0, 1, 0, 30, .ro, .k 0⟩
/-- R222. -/
def GAP_NS_B_SOFT : FRow := ⟨.port, 0x6C, 0, 1, 31, 1, .ro, .k 0⟩

/-- The fields of this chapter's register tables. -/
def rows0 : List FRow :=
  [PCFG_MODE, PCFG_BREAKOUT, PCFG_MAPPED, PCFG_HOST_A, PCFG_HOST_B, PCFG_HOLD_TIME, NM_CFG_TARGET_FILL, NM_CFG_RESUME_FILL, PSTAT_AM_LOCK_A, PSTAT_AM_LOCK_B, PSTAT_MON_LOCK, PSTAT_MON_LOCK_B, PSTAT_NM_STATE_A, PSTAT_NM_STATE_B, PEVT_GAP_START, PEVT_LF_START, PEVT_RESUME, PEVT_OVF, PEVT_UNDERRUN, PEVT_HOST_GAP, NM_FILL_FILL_A, NM_FILL_FILL_B, NM_HWM_HWM_A, NM_HWM_HWM_B]
def rows1 : List FRow :=
  [NM_HWM_HWM_CLR, HOST_CW_A, HOST_CORR_A, HOST_UNC_A, HOST_SYM_A, HOST_CW_B, HOST_CORR_B, HOST_UNC_B, HOST_SYM_B, LINE_CW_A, LINE_UNC_A, LINE_CW_B, LINE_UNC_B, IDLE_INS, IDLE_DEL, MON_UNLOCKED_ROWS, GAP_SEC_A, GAP_NS_A, GAP_NS_A_SOFT, GAP_SEC_B, GAP_NS_B, GAP_NS_B_SOFT]
def rows : List FRow :=
  rows0 ++ rows1

end Sys2Proof.Machine.PORT

namespace Sys2Proof.Machine.CTX

/-- R258. -/
def CTX_CFG_PLACE_EN : FRow := ⟨.ctx, 0x0, 0, 1, 0, 1, .rw, .k 1⟩
/-- R258. -/
def CTX_CFG_PREFETCH_EN : FRow := ⟨.ctx, 0x0, 0, 1, 1, 1, .rw, .k 1⟩
/-- R258. -/
def CTX_CFG_PREFETCH_LEAD : FRow := ⟨.ctx, 0x0, 0, 1, 8, 16, .rw, .k 200⟩
/-- R258. -/
def GROUP_CFG_J2 : FRow := ⟨.ctx, 0x4, 0, 1, 0, 4, .rw, .k 0⟩
/-- R258. -/
def GROUP_CFG_J4 : FRow := ⟨.ctx, 0x4, 0, 1, 4, 2, .rw, .k 0⟩
/-- R258. -/
def GROUP_CFG_J8 : FRow := ⟨.ctx, 0x4, 0, 1, 6, 1, .rw, .k 0⟩
/-- R258. -/
def UNSCHED_UNSCHED_EN : FRow := ⟨.ctx, 0x8, 0, 1, 0, 8, .rw, .k 0⟩
/-- R258. -/
def UNSCHED_ID_TO : FRow := ⟨.ctx, 0x8, 0, 1, 8, 16, .rw, .k 20⟩
/-- R258. -/
def HASH_SEED : FRow := ⟨.ctx, 0xC, 0, 1, 0, 32, .rw, .k 0⟩
/-- R258. -/
def DIR_STAT_ENTRIES : FRow := ⟨.ctx, 0x10, 0, 1, 0, 17, .ro, .k 0⟩
/-- R258. -/
def DIR_STAT_STASH_USED : FRow := ⟨.ctx, 0x10, 0, 1, 20, 4, .ro, .k 0⟩
/-- R258. -/
def DIR_STAT_BUSY : FRow := ⟨.ctx, 0x10, 0, 1, 24, 1, .ro, .k 0⟩
/-- R258. -/
def SLOT_STAT_FREE : FRow := ⟨.ctx, 0x14, 0, 1, 0, 17, .ro, .k 65536⟩
/-- R258. -/
def CACHE_STAT_RESIDENT : FRow := ⟨.ctx, 0x18, 0, 1, 0, 9, .ro, .k 0⟩
/-- R258. -/
def CACHE_STAT_PINNED : FRow := ⟨.ctx, 0x18, 0, 1, 16, 9, .ro, .k 0⟩
/-- R258. -/
def CTX_EVT_CFG_REFUSED : FRow := ⟨.ctx, 0x1C, 0, 1, 0, 1, .w1c, .k 0⟩
/-- R258. -/
def CTX_EVT_PREFETCH_MISS : FRow := ⟨.ctx, 0x1C, 0, 1, 1, 1, .w1c, .k 0⟩
/-- R258. -/
def CTX_EVT_RELOCATED : FRow := ⟨.ctx, 0x1C, 0, 1, 2, 1, .w1c, .k 0⟩
/-- R258. -/
def CTX_EVT_DIR_FULL : FRow := ⟨.ctx, 0x1C, 0, 1, 3, 1, .w1c, .k 0⟩
/-- R258. -/
def APPLY_STAT_RESULT : FRow := ⟨.ctx, 0x40, 4, 8, 0, 4, .ro, .k 0⟩
/-- R258. -/
def APPLY_STAT_CACHE_HIT : FRow := ⟨.ctx, 0x40, 4, 8, 4, 1, .ro, .k 0⟩
/-- R258. -/
def APPLY_STAT_UNSCHED : FRow := ⟨.ctx, 0x40, 4, 8, 5, 1, .ro, .k 0⟩
/-- R258. -/
def APPLY_STAT_LANES_SKIPPED : FRow := ⟨.ctx, 0x40, 4, 8, 6, 1, .ro, .k 0⟩
/-- R258. -/
def APPLY_STAT_DONE : FRow := ⟨.ctx, 0x40, 4, 8, 16, 1, .w1c, .k 0⟩
/-- R258. -/
def APPLY_STAT_FAIL : FRow := ⟨.ctx, 0x40, 4, 8, 17, 1, .w1c, .k 0⟩
/-- R258. -/
def APPLY_PEER_PEER_ID : FRow := ⟨.ctx, 0x60, 4, 8, 0, 32, .ro, .k 0⟩

/-- The fields of this chapter's register tables. -/
def rows0 : List FRow :=
  [CTX_CFG_PLACE_EN, CTX_CFG_PREFETCH_EN, CTX_CFG_PREFETCH_LEAD, GROUP_CFG_J2, GROUP_CFG_J4, GROUP_CFG_J8, UNSCHED_UNSCHED_EN, UNSCHED_ID_TO, HASH_SEED, DIR_STAT_ENTRIES, DIR_STAT_STASH_USED, DIR_STAT_BUSY, SLOT_STAT_FREE, CACHE_STAT_RESIDENT, CACHE_STAT_PINNED, CTX_EVT_CFG_REFUSED, CTX_EVT_PREFETCH_MISS, CTX_EVT_RELOCATED, CTX_EVT_DIR_FULL, APPLY_STAT_RESULT, APPLY_STAT_CACHE_HIT, APPLY_STAT_UNSCHED, APPLY_STAT_LANES_SKIPPED, APPLY_STAT_DONE]
def rows1 : List FRow :=
  [APPLY_STAT_FAIL, APPLY_PEER_PEER_ID]
def rows : List FRow :=
  rows0 ++ rows1

end Sys2Proof.Machine.CTX

namespace Sys2Proof.Machine.BCN

/-- R287. -/
def TX_CFG_TX_MODE : FRow := ⟨.bcn, 0x0, 0, 1, 0, 2, .rw, .k 1⟩
/-- R287. -/
def TX_CFG_TX_MOD : FRow := ⟨.bcn, 0x0, 0, 1, 2, 1, .rw, .k 0⟩
/-- R287. -/
def TX_PERIOD_PERIOD : FRow := ⟨.bcn, 0x4, 0, 1, 0, 16, .rw, .k 100⟩
/-- R287. -/
def TX_PEER_PEER_ID : FRow := ⟨.bcn, 0x8, 0, 1, 0, 32, .rw, .k 0⟩
/-- R287. -/
def TX_CMD_SEND : FRow := ⟨.bcn, 0xC, 0, 1, 0, 1, .wo, .k 0⟩
/-- R287. -/
def TX_CMD_TYPE : FRow := ⟨.bcn, 0xC, 0, 1, 1, 1, .wo, .k 0⟩
/-- R287. -/
def TX_CH_CH : FRow := ⟨.bcn, 0x10, 0, 1, 0, 4, .ro, .inst⟩
/-- R287. -/
def TX_CH_CH_LOAD : FRow := ⟨.bcn, 0x10, 0, 1, 8, 4, .wo, .k 0⟩
/-- R287. -/
def TX_CH_LOAD : FRow := ⟨.bcn, 0x10, 0, 1, 12, 1, .wo, .k 0⟩
/-- R287. -/
def TX_STAT_SENDING : FRow := ⟨.bcn, 0x14, 0, 1, 0, 1, .ro, .k 0⟩
/-- R287. -/
def TX_STAT_HELD : FRow := ⟨.bcn, 0x14, 0, 1, 1, 1, .ro, .k 0⟩
/-- R287. -/
def TX_STAT_SEQ : FRow := ⟨.bcn, 0x14, 0, 1, 2, 3, .ro, .k 0⟩
/-- R287. -/
def TX_EVT_SENT : FRow := ⟨.bcn, 0x18, 0, 1, 0, 1, .w1c, .k 0⟩
/-- R287. -/
def TX_EVT_SKIPPED : FRow := ⟨.bcn, 0x18, 0, 1, 1, 1, .w1c, .k 0⟩
/-- R287. -/
def TX_EVT_TRUNC : FRow := ⟨.bcn, 0x18, 0, 1, 2, 1, .w1c, .k 0⟩
/-- R287. -/
def DEP_TICK_LO : FRow := ⟨.bcn, 0x20, 0, 1, 0, 32, .ro, .k 0⟩
/-- R287. -/
def DEP_TICK_HI : FRow := ⟨.bcn, 0x24, 0, 1, 0, 32, .ro, .k 0⟩
/-- R287. -/
def TX_SENT_SENT_CNT : FRow := ⟨.bcn, 0x28, 0, 1, 0, 32, .ro, .k 0⟩
/-- R287. -/
def TX_SKIP_SKIP_CNT : FRow := ⟨.bcn, 0x2C, 0, 1, 0, 32, .ro, .k 0⟩
/-- R287. -/
def RX_CFG_ID_CH : FRow := ⟨.bcn, 0x40, 0, 1, 0, 4, .rw, .k 0⟩
/-- R287. -/
def RX_CFG_ID_MOD : FRow := ⟨.bcn, 0x40, 0, 1, 4, 1, .rw, .k 0⟩
/-- R287. -/
def RX_CFG_SYNC_ERR : FRow := ⟨.bcn, 0x40, 0, 1, 8, 2, .rw, .k 1⟩
/-- R287. -/
def RX_CFG_DET_MARGIN : FRow := ⟨.bcn, 0x40, 0, 1, 16, 8, .rw, .k 24⟩
/-- R287. -/
def RX_CH_CH : FRow := ⟨.bcn, 0x44, 0, 1, 0, 4, .ro, .inst⟩
/-- R287. -/
def RX_CH_MOD : FRow := ⟨.bcn, 0x44, 0, 1, 4, 1, .ro, .k 0⟩
/-- R287. -/
def RX_CH_CH_LOAD : FRow := ⟨.bcn, 0x44, 0, 1, 8, 4, .wo, .k 0⟩
/-- R287. -/
def RX_CH_MOD_LOAD : FRow := ⟨.bcn, 0x44, 0, 1, 12, 1, .wo, .k 0⟩
/-- R287. -/
def RX_CH_LOAD : FRow := ⟨.bcn, 0x44, 0, 1, 13, 1, .wo, .k 0⟩
/-- R287. -/
def RX_STAT_RECEIVING : FRow := ⟨.bcn, 0x48, 0, 1, 0, 1, .ro, .k 0⟩
/-- R287. -/
def RX_STAT_REPORT_SEQ : FRow := ⟨.bcn, 0x48, 0, 1, 8, 8, .ro, .k 0⟩
/-- R287. -/
def NOISE : FRow := ⟨.bcn, 0x4C, 0, 1, 0, 10, .ro, .k 512⟩
/-- R287. -/
def NOISE_NOISE_SEQ : FRow := ⟨.bcn, 0x4C, 0, 1, 16, 8, .ro, .k 0⟩
/-- R287. -/
def RX_EVT_FRAME : FRow := ⟨.bcn, 0x50, 0, 1, 0, 1, .w1c, .k 0⟩
/-- R287. -/
def RX_EVT_BAD : FRow := ⟨.bcn, 0x50, 0, 1, 1, 1, .w1c, .k 0⟩
/-- R287. -/
def RX_EVT_RESTART : FRow := ⟨.bcn, 0x50, 0, 1, 2, 1, .w1c, .k 0⟩
/-- R287. -/
def RX_PEER_PEER_ID : FRow := ⟨.bcn, 0x54, 0, 1, 0, 32, .ro, .k 0⟩
/-- R287. -/
def RX_INFO_GS : FRow := ⟨.bcn, 0x58, 0, 1, 0, 8, .ro, .k 0⟩
/-- R287. -/
def RX_INFO_FULL : FRow := ⟨.bcn, 0x58, 0, 1, 8, 1, .ro, .k 0⟩
/-- R287. -/
def RX_INFO_TS_VALID : FRow := ⟨.bcn, 0x58, 0, 1, 9, 1, .ro, .k 0⟩
/-- R287. -/
def RX_INFO_RSSI : FRow := ⟨.bcn, 0x58, 0, 1, 16, 10, .ro, .k 0⟩
/-- R287. -/
def ARR_TICK_LO : FRow := ⟨.bcn, 0x5C, 0, 1, 0, 32, .ro, .k 0⟩
/-- R287. -/
def ARR_TICK_HI : FRow := ⟨.bcn, 0x60, 0, 1, 0, 32, .ro, .k 0⟩
/-- R287. -/
def RX_TS_SEC_TS_SEC : FRow := ⟨.bcn, 0x64, 0, 1, 0, 32, .ro, .k 0⟩
/-- R287. -/
def RX_TS_NS_TS_NS : FRow := ⟨.bcn, 0x68, 0, 1, 0, 32, .ro, .k 0⟩
/-- R287. -/
def RX_TS_FRAC_TS_FRAC : FRow := ⟨.bcn, 0x6C, 0, 1, 0, 16, .ro, .k 0⟩
/-- R287. -/
def RX_VALID_VALID_CNT : FRow := ⟨.bcn, 0x70, 0, 1, 0, 32, .ro, .k 0⟩
/-- R287. -/
def RX_BAD_BAD_CNT : FRow := ⟨.bcn, 0x74, 0, 1, 0, 32, .ro, .k 0⟩
/-- R287. -/
def RX_RESTART_RESTART_CNT : FRow := ⟨.bcn, 0x78, 0, 1, 0, 32, .ro, .k 0⟩
/-- R287. -/
def ENV_TH_TH_ON : FRow := ⟨.bcn, 0x80, 0, 1, 0, 8, .rw, .k 20⟩
/-- R287. -/
def ENV_TH_TH_OFF : FRow := ⟨.bcn, 0x80, 0, 1, 8, 8, .rw, .k 12⟩
/-- R287. -/
def ENV_HOLD_ON_HOLD : FRow := ⟨.bcn, 0x84, 0, 1, 0, 10, .rw, .k 4⟩
/-- R287. -/
def ENV_HOLD_OFF_HOLD : FRow := ⟨.bcn, 0x84, 0, 1, 16, 10, .rw, .k 100⟩
/-- R287. -/
def ENV_STAT_ABOVE : FRow := ⟨.bcn, 0x88, 0, 1, 0, 1, .ro, .k 0⟩
/-- R287. -/
def ENV_STAT_LIGHT : FRow := ⟨.bcn, 0x88, 0, 1, 1, 1, .ro, .k 0⟩
/-- R287. -/
def ENV_EVT_LIGHT_ON : FRow := ⟨.bcn, 0x8C, 0, 1, 0, 1, .w1c, .k 0⟩
/-- R287. -/
def ENV_EVT_LIGHT_OFF : FRow := ⟨.bcn, 0x8C, 0, 1, 1, 1, .w1c, .k 0⟩
/-- R287. -/
def LIGHT_TICK_LO : FRow := ⟨.bcn, 0x90, 0, 1, 0, 32, .ro, .k 0⟩
/-- R287. -/
def LIGHT_TICK_HI : FRow := ⟨.bcn, 0x94, 0, 1, 0, 32, .ro, .k 0⟩

/-- The fields of this chapter's register tables. -/
def rows0 : List FRow :=
  [TX_CFG_TX_MODE, TX_CFG_TX_MOD, TX_PERIOD_PERIOD, TX_PEER_PEER_ID, TX_CMD_SEND, TX_CMD_TYPE, TX_CH_CH, TX_CH_CH_LOAD, TX_CH_LOAD, TX_STAT_SENDING, TX_STAT_HELD, TX_STAT_SEQ, TX_EVT_SENT, TX_EVT_SKIPPED, TX_EVT_TRUNC, DEP_TICK_LO, DEP_TICK_HI, TX_SENT_SENT_CNT, TX_SKIP_SKIP_CNT, RX_CFG_ID_CH, RX_CFG_ID_MOD, RX_CFG_SYNC_ERR, RX_CFG_DET_MARGIN, RX_CH_CH]
def rows1 : List FRow :=
  [RX_CH_MOD, RX_CH_CH_LOAD, RX_CH_MOD_LOAD, RX_CH_LOAD, RX_STAT_RECEIVING, RX_STAT_REPORT_SEQ, NOISE, NOISE_NOISE_SEQ, RX_EVT_FRAME, RX_EVT_BAD, RX_EVT_RESTART, RX_PEER_PEER_ID, RX_INFO_GS, RX_INFO_FULL, RX_INFO_TS_VALID, RX_INFO_RSSI, ARR_TICK_LO, ARR_TICK_HI, RX_TS_SEC_TS_SEC, RX_TS_NS_TS_NS, RX_TS_FRAC_TS_FRAC, RX_VALID_VALID_CNT, RX_BAD_BAD_CNT, RX_RESTART_RESTART_CNT]
def rows2 : List FRow :=
  [ENV_TH_TH_ON, ENV_TH_TH_OFF, ENV_HOLD_ON_HOLD, ENV_HOLD_OFF_HOLD, ENV_STAT_ABOVE, ENV_STAT_LIGHT, ENV_EVT_LIGHT_ON, ENV_EVT_LIGHT_OFF, LIGHT_TICK_LO, LIGHT_TICK_HI]
def rows : List FRow :=
  rows0 ++ rows1 ++ rows2

end Sys2Proof.Machine.BCN

namespace Sys2Proof.Machine.SYN

/-- R288. -/
def SYN_STAT_CH : FRow := ⟨.syn, 0x0, 0, 1, 0, 4, .ro, .k 0⟩
/-- R288. -/
def SYN_STAT_LOCKED : FRow := ⟨.syn, 0x0, 0, 1, 4, 1, .ro, .k 0⟩
/-- R288. -/
def SYN_STAT_SETTLING : FRow := ⟨.syn, 0x0, 0, 1, 5, 1, .ro, .k 0⟩
/-- R288. -/
def SYN_STAT_BG_CAL : FRow := ⟨.syn, 0x0, 0, 1, 6, 1, .ro, .k 0⟩
/-- R288. -/
def SYN_STAT_SERVING : FRow := ⟨.syn, 0x0, 0, 1, 7, 3, .ro, .k 0⟩
/-- R288. -/
def SYN_EVT_NO_LOCK : FRow := ⟨.syn, 0x4, 0, 1, 0, 1, .w1c, .k 0⟩
/-- R288. -/
def SYN_CAL_CAL : FRow := ⟨.syn, 0x40, 4, 16, 0, 32, .ro, .k 0⟩

/-- The fields of this chapter's register tables. -/
def rows0 : List FRow :=
  [SYN_STAT_CH, SYN_STAT_LOCKED, SYN_STAT_SETTLING, SYN_STAT_BG_CAL, SYN_STAT_SERVING, SYN_EVT_NO_LOCK, SYN_CAL_CAL]
def rows : List FRow :=
  rows0

end Sys2Proof.Machine.SYN

namespace Sys2Proof.Machine.TIME

/-- R311. -/
def TIME_CFG_SRC : FRow := ⟨.time, 0x0, 0, 1, 0, 2, .rw, .k 0⟩
/-- R311. -/
def TIME_CFG_ACCEPT_FIRST : FRow := ⟨.time, 0x0, 0, 1, 2, 1, .rw, .k 1⟩
/-- R311. -/
def TIME_CFG_PPS_POL : FRow := ⟨.time, 0x0, 0, 1, 3, 1, .rw, .k 0⟩
/-- R311. -/
def TIME_CFG_SUMAC_ROLE : FRow := ⟨.time, 0x0, 0, 1, 4, 2, .rw, .k 0⟩
/-- R311. -/
def TIME_STAT_TIME_SET : FRow := ⟨.time, 0x4, 0, 1, 0, 1, .ro, .k 0⟩
/-- R311. -/
def TIME_STAT_HOLDOVER : FRow := ⟨.time, 0x4, 0, 1, 1, 1, .ro, .k 0⟩
/-- R311. -/
def TIME_STAT_STEP_PENDING : FRow := ⟨.time, 0x4, 0, 1, 2, 1, .ro, .k 0⟩
/-- R311. -/
def TIME_STAT_SRC_OK : FRow := ⟨.time, 0x4, 0, 1, 3, 1, .ro, .k 0⟩
/-- R311. -/
def TIME_STAT_SUMAC_DRIVING : FRow := ⟨.time, 0x4, 0, 1, 4, 1, .ro, .k 0⟩
/-- R311. -/
def TIME_STAT_EPOCH : FRow := ⟨.time, 0x4, 0, 1, 16, 16, .ro, .k 0⟩
/-- R311. -/
def TIME_EVT_TIME_JUMP_REFUSED : FRow := ⟨.time, 0x8, 0, 1, 0, 1, .w1c, .k 0⟩
/-- R311. -/
def TIME_EVT_STEP_APPLIED : FRow := ⟨.time, 0x8, 0, 1, 1, 1, .w1c, .k 0⟩
/-- R311. -/
def TIME_EVT_HOLDOVER_ENTERED : FRow := ⟨.time, 0x8, 0, 1, 2, 1, .w1c, .k 0⟩
/-- R311. -/
def TIME_EVT_TOD_BAD : FRow := ⟨.time, 0x8, 0, 1, 3, 1, .w1c, .k 0⟩
/-- R311. -/
def TIME_EVT_SUMAC_BAD : FRow := ⟨.time, 0x8, 0, 1, 4, 1, .w1c, .k 0⟩
/-- R311. -/
def TIME_EVT_SUMAC_CONFLICT : FRow := ⟨.time, 0x8, 0, 1, 5, 1, .w1c, .k 0⟩
/-- R311. -/
def TIME_EVT_PPS_IGNORED : FRow := ⟨.time, 0x8, 0, 1, 6, 1, .w1c, .k 0⟩
/-- R311. -/
def JUMP_JUMP_LIMIT : FRow := ⟨.time, 0xC, 0, 1, 0, 32, .rw, .k 1000⟩
/-- R311. -/
def SERVO_KP : FRow := ⟨.time, 0x10, 0, 1, 0, 4, .rw, .k 0⟩
/-- R311. -/
def SERVO_KF : FRow := ⟨.time, 0x10, 0, 1, 4, 4, .rw, .k 3⟩
/-- R311. -/
def SERVO_SLEW_MAX : FRow := ⟨.time, 0x10, 0, 1, 8, 8, .rw, .k 100⟩
/-- R311. -/
def FREQ : FRow := ⟨.time, 0x14, 0, 1, 0, 32, .ro, .k 0⟩
/-- R311. -/
def RATE_RATE_ADJ : FRow := ⟨.time, 0x18, 0, 1, 0, 32, .ro, .k 0⟩
/-- R311. -/
def LAST_ERR : FRow := ⟨.time, 0x1C, 0, 1, 0, 32, .ro, .k 0⟩
/-- R311. -/
def PEND_LO : FRow := ⟨.time, 0x20, 0, 1, 0, 32, .ro, .k 0⟩
/-- R311. -/
def PEND_HI : FRow := ⟨.time, 0x24, 0, 1, 0, 32, .ro, .k 0⟩
/-- R311. -/
def PEND_FRAC : FRow := ⟨.time, 0x28, 0, 1, 0, 16, .ro, .k 0⟩
/-- R311. -/
def SUMAC_DLY_SUMAC_DELAY : FRow := ⟨.time, 0x2C, 0, 1, 0, 20, .rw, .k 0⟩
/-- R311. -/
def SNAP : FRow := ⟨.time, 0x40, 0, 1, 0, 1, .wo, .k 0⟩
/-- R311. -/
def TIME_SEC_LO_SEC_LO : FRow := ⟨.time, 0x44, 0, 1, 0, 32, .ro, .k 0⟩
/-- R311. -/
def TIME_SEC_HI_SEC_HI : FRow := ⟨.time, 0x48, 0, 1, 0, 16, .ro, .k 0⟩
/-- R311. -/
def TIME_NS_NS : FRow := ⟨.time, 0x4C, 0, 1, 0, 32, .ro, .k 0⟩
/-- R311. -/
def TIME_FRAC_FRAC : FRow := ⟨.time, 0x50, 0, 1, 0, 16, .ro, .k 0⟩
/-- R311. -/
def TIME_TICK_LO_TICK_LO : FRow := ⟨.time, 0x54, 0, 1, 0, 32, .ro, .k 0⟩
/-- R311. -/
def TIME_TICK_HI_TICK_HI : FRow := ⟨.time, 0x58, 0, 1, 0, 32, .ro, .k 0⟩
/-- R311. -/
def LOAD_SEC_LO : FRow := ⟨.time, 0x60, 0, 1, 0, 32, .rw, .k 0⟩
/-- R311. -/
def LOAD_SEC_HI : FRow := ⟨.time, 0x64, 0, 1, 0, 16, .rw, .k 0⟩
/-- R311. -/
def LOAD_NS : FRow := ⟨.time, 0x68, 0, 1, 0, 32, .rw, .k 0⟩
/-- R311. -/
def LOAD_FRAC : FRow := ⟨.time, 0x6C, 0, 1, 0, 16, .rw, .k 0⟩
/-- R311. -/
def CONV_TICK_LO : FRow := ⟨.time, 0x70, 0, 1, 0, 32, .rw, .k 0⟩
/-- R311. -/
def CONV_TICK_HI : FRow := ⟨.time, 0x74, 0, 1, 0, 32, .rw, .k 0⟩
/-- R311. -/
def CONV_SEC_LO_SEC_LO : FRow := ⟨.time, 0x78, 0, 1, 0, 32, .ro, .k 0⟩
/-- R311. -/
def CONV_SEC_HI_SEC_HI : FRow := ⟨.time, 0x7C, 0, 1, 0, 16, .ro, .k 0⟩
/-- R311. -/
def CONV_SEC_HI_BUSY : FRow := ⟨.time, 0x7C, 0, 1, 30, 1, .ro, .k 0⟩
/-- R311. -/
def CONV_SEC_HI_CONV_VALID : FRow := ⟨.time, 0x7C, 0, 1, 31, 1, .ro, .k 0⟩
/-- R311. -/
def CONV_NS_NS : FRow := ⟨.time, 0x80, 0, 1, 0, 32, .ro, .k 0⟩
/-- R311. -/
def CONV_FRAC_FRAC : FRow := ⟨.time, 0x84, 0, 1, 0, 16, .ro, .k 0⟩
/-- R311. -/
def SCHED_BUF_ENTRY : FRow := ⟨.time, 0x100, 4, 4, 0, 32, .rw, .k 0⟩
/-- R311. -/
def SCHED_STAT_PENDING : FRow := ⟨.time, 0x110, 0, 1, 0, 13, .ro, .k 0⟩
/-- R311. -/
def SCHED_STAT_USED : FRow := ⟨.time, 0x110, 0, 1, 16, 13, .ro, .k 0⟩
/-- R311. -/
def SCHED_EVT_FIRED : FRow := ⟨.time, 0x114, 0, 1, 0, 1, .w1c, .k 0⟩
/-- R311. -/
def SCHED_EVT_SKIPPED : FRow := ⟨.time, 0x114, 0, 1, 1, 1, .w1c, .k 0⟩
/-- R311. -/
def LAST_TRIG_POS : FRow := ⟨.time, 0x118, 0, 1, 0, 12, .ro, .k 0⟩
/-- R311. -/
def LAST_TRIG_TICK_LO : FRow := ⟨.time, 0x11C, 0, 1, 0, 32, .ro, .k 0⟩
/-- R311. -/
def LAST_TRIG_TICK_HI : FRow := ⟨.time, 0x120, 0, 1, 0, 32, .ro, .k 0⟩
/-- R311. -/
def TRIG_CTL_MODE : FRow := ⟨.time, 0x200, 32, 4, 0, 2, .rw, .k 0⟩
/-- R311. -/
def TRIG_CTL_POL : FRow := ⟨.time, 0x200, 32, 4, 2, 1, .rw, .k 0⟩
/-- R311. -/
def TRIG_CTL_ARM : FRow := ⟨.time, 0x200, 32, 4, 3, 1, .wo, .k 0⟩
/-- R311. -/
def TRIG_CTL_ARMED : FRow := ⟨.time, 0x200, 32, 4, 4, 1, .ro, .k 0⟩
/-- R311. -/
def TRIG_START_SEC_LO : FRow := ⟨.time, 0x204, 32, 4, 0, 32, .rw, .k 0⟩
/-- R311. -/
def TRIG_START_SEC_HI : FRow := ⟨.time, 0x208, 32, 4, 0, 16, .rw, .k 0⟩
/-- R311. -/
def TRIG_START_NS : FRow := ⟨.time, 0x20C, 32, 4, 0, 32, .rw, .k 0⟩
/-- R311. -/
def TRIG_PERIOD_NS : FRow := ⟨.time, 0x210, 32, 4, 0, 32, .rw, .k 0⟩
/-- R311. -/
def TRIG_PERIOD_FRAC : FRow := ⟨.time, 0x214, 32, 4, 0, 16, .rw, .k 0⟩
/-- R311. -/
def TRIG_WIDTH : FRow := ⟨.time, 0x218, 32, 4, 0, 20, .rw, .k 8⟩
/-- R311. -/
def TRIG_COUNT : FRow := ⟨.time, 0x21C, 32, 4, 0, 32, .rw, .k 0⟩
/-- R311. -/
def TRIG_EVT_CFG_ERR : FRow := ⟨.time, 0x280, 0, 1, 0, 4, .w1c, .k 0⟩
/-- R311. -/
def CTXAPP_TICK_LO : FRow := ⟨.time, 0x300, 8, 8, 0, 32, .ro, .k 0⟩
/-- R311. -/
def CTXAPP_TICK_HI : FRow := ⟨.time, 0x304, 8, 8, 0, 32, .ro, .k 0⟩

/-- The fields of this chapter's register tables. -/
def rows0 : List FRow :=
  [TIME_CFG_SRC, TIME_CFG_ACCEPT_FIRST, TIME_CFG_PPS_POL, TIME_CFG_SUMAC_ROLE, TIME_STAT_TIME_SET, TIME_STAT_HOLDOVER, TIME_STAT_STEP_PENDING, TIME_STAT_SRC_OK, TIME_STAT_SUMAC_DRIVING, TIME_STAT_EPOCH, TIME_EVT_TIME_JUMP_REFUSED, TIME_EVT_STEP_APPLIED, TIME_EVT_HOLDOVER_ENTERED, TIME_EVT_TOD_BAD, TIME_EVT_SUMAC_BAD, TIME_EVT_SUMAC_CONFLICT, TIME_EVT_PPS_IGNORED, JUMP_JUMP_LIMIT, SERVO_KP, SERVO_KF, SERVO_SLEW_MAX, FREQ, RATE_RATE_ADJ, LAST_ERR]
def rows1 : List FRow :=
  [PEND_LO, PEND_HI, PEND_FRAC, SUMAC_DLY_SUMAC_DELAY, SNAP, TIME_SEC_LO_SEC_LO, TIME_SEC_HI_SEC_HI, TIME_NS_NS, TIME_FRAC_FRAC, TIME_TICK_LO_TICK_LO, TIME_TICK_HI_TICK_HI, LOAD_SEC_LO, LOAD_SEC_HI, LOAD_NS, LOAD_FRAC, CONV_TICK_LO, CONV_TICK_HI, CONV_SEC_LO_SEC_LO, CONV_SEC_HI_SEC_HI, CONV_SEC_HI_BUSY, CONV_SEC_HI_CONV_VALID, CONV_NS_NS, CONV_FRAC_FRAC, SCHED_BUF_ENTRY]
def rows2 : List FRow :=
  [SCHED_STAT_PENDING, SCHED_STAT_USED, SCHED_EVT_FIRED, SCHED_EVT_SKIPPED, LAST_TRIG_POS, LAST_TRIG_TICK_LO, LAST_TRIG_TICK_HI, TRIG_CTL_MODE, TRIG_CTL_POL, TRIG_CTL_ARM, TRIG_CTL_ARMED, TRIG_START_SEC_LO, TRIG_START_SEC_HI, TRIG_START_NS, TRIG_PERIOD_NS, TRIG_PERIOD_FRAC, TRIG_WIDTH, TRIG_COUNT, TRIG_EVT_CFG_ERR, CTXAPP_TICK_LO, CTXAPP_TICK_HI]
def rows : List FRow :=
  rows0 ++ rows1 ++ rows2

end Sys2Proof.Machine.TIME

namespace Sys2Proof.Machine.HKD

/-- R336. -/
def HKD_CFG_CODE : FRow := ⟨.hkd, 0x0, 8, 16, 0, 12, .rw, .k 0⟩
/-- R336. -/
def HKD_CFG_SPAN : FRow := ⟨.hkd, 0x0, 8, 16, 12, 2, .rw, .k 0⟩
/-- R336. -/
def HKD_CFG_GROUP : FRow := ⟨.hkd, 0x0, 8, 16, 14, 2, .rw, .k 0⟩
/-- R336. -/
def HKD_CFG_ENABLE : FRow := ⟨.hkd, 0x0, 8, 16, 16, 1, .rw, .k 0⟩
/-- R336. -/
def HKD_STAT_ACTIVE : FRow := ⟨.hkd, 0x4, 8, 16, 0, 12, .ro, .k 0⟩
/-- R336. -/
def HKD_STAT_CLAMPED : FRow := ⟨.hkd, 0x4, 8, 16, 12, 1, .ro, .k 1⟩
/-- R336. -/
def HKD_STAT_SPAN_HOLD : FRow := ⟨.hkd, 0x4, 8, 16, 13, 1, .ro, .k 0⟩
/-- R336. -/
def HKD_STAT_OUT : FRow := ⟨.hkd, 0x4, 8, 16, 16, 12, .ro, .k 0⟩
/-- R336. -/
def HKD_STROBE_STROBE : FRow := ⟨.hkd, 0x80, 0, 1, 0, 4, .wo, .k 0⟩
/-- R336. -/
def HKD_SRC_TRIG_LINE0 : FRow := ⟨.hkd, 0x84, 0, 1, 0, 2, .rw, .k 0⟩
/-- R336. -/
def HKD_SRC_TRIG_LINE1 : FRow := ⟨.hkd, 0x84, 0, 1, 4, 2, .rw, .k 0⟩
/-- R336. -/
def HKD_SRC_TRIG_LINE2 : FRow := ⟨.hkd, 0x84, 0, 1, 8, 2, .rw, .k 0⟩
/-- R336. -/
def HKD_SRC_TRIG_LINE3 : FRow := ⟨.hkd, 0x84, 0, 1, 12, 2, .rw, .k 0⟩
/-- R336. -/
def HKD_SRC_TRIG_EN0 : FRow := ⟨.hkd, 0x84, 0, 1, 2, 1, .rw, .k 0⟩
/-- R336. -/
def HKD_SRC_TRIG_EN1 : FRow := ⟨.hkd, 0x84, 0, 1, 6, 1, .rw, .k 0⟩
/-- R336. -/
def HKD_SRC_TRIG_EN2 : FRow := ⟨.hkd, 0x84, 0, 1, 10, 1, .rw, .k 0⟩
/-- R336. -/
def HKD_SRC_TRIG_EN3 : FRow := ⟨.hkd, 0x84, 0, 1, 14, 1, .rw, .k 0⟩
/-- R336. -/
def HKD_EVT_STROBE_IN_HOLD : FRow := ⟨.hkd, 0x88, 0, 1, 0, 1, .w1c, .k 0⟩
/-- R336. -/
def HKD_EVT_RAIL_CLAMP : FRow := ⟨.hkd, 0x88, 0, 1, 1, 1, .w1c, .k 0⟩
/-- R336. -/
def SINE_INC_PHASE_INC : FRow := ⟨.hkd, 0xC0, 16, 4, 0, 24, .rw, .k 0⟩
/-- R336. -/
def SINE_AMP_AMPLITUDE : FRow := ⟨.hkd, 0xC4, 16, 4, 0, 16, .rw, .k 0⟩
/-- R336. -/
def SINE_AMP_OFFSET : FRow := ⟨.hkd, 0xC4, 16, 4, 16, 16, .rw, .k 0⟩
/-- R336. -/
def SINE_TGT_TARGET : FRow := ⟨.hkd, 0xC8, 16, 4, 0, 8, .rw, .k 255⟩
/-- R336. -/
def SINE_CTL_SYNC : FRow := ⟨.hkd, 0x100, 0, 1, 0, 4, .wo, .k 0⟩

/-- The fields of this chapter's register tables. -/
def rows0 : List FRow :=
  [HKD_CFG_CODE, HKD_CFG_SPAN, HKD_CFG_GROUP, HKD_CFG_ENABLE, HKD_STAT_ACTIVE, HKD_STAT_CLAMPED, HKD_STAT_SPAN_HOLD, HKD_STAT_OUT, HKD_STROBE_STROBE, HKD_SRC_TRIG_LINE0, HKD_SRC_TRIG_LINE1, HKD_SRC_TRIG_LINE2, HKD_SRC_TRIG_LINE3, HKD_SRC_TRIG_EN0, HKD_SRC_TRIG_EN1, HKD_SRC_TRIG_EN2, HKD_SRC_TRIG_EN3, HKD_EVT_STROBE_IN_HOLD, HKD_EVT_RAIL_CLAMP, SINE_INC_PHASE_INC, SINE_AMP_AMPLITUDE, SINE_AMP_OFFSET, SINE_TGT_TARGET, SINE_CTL_SYNC]
def rows : List FRow :=
  rows0

end Sys2Proof.Machine.HKD

namespace Sys2Proof.Machine.HKA

/-- R336. -/
def HKA_CTL_RUN : FRow := ⟨.hkac, 0x0, 0, 1, 0, 1, .rw, .k 0⟩
/-- R336. -/
def HKA_CTL_LP : FRow := ⟨.hkac, 0x0, 0, 1, 1, 1, .rw, .k 0⟩
/-- R336. -/
def HKA_CTL_RING_EN : FRow := ⟨.hkac, 0x0, 0, 1, 2, 1, .rw, .k 0⟩
/-- R336. -/
def HKA_STAT_ENTRY : FRow := ⟨.hkac, 0x4, 0, 1, 0, 6, .ro, .k 0⟩
/-- R336. -/
def HKA_STAT_RUNNING : FRow := ⟨.hkac, 0x4, 0, 1, 6, 1, .ro, .k 0⟩
/-- R336. -/
def HKA_STAT_LP_ACTIVE : FRow := ⟨.hkac, 0x4, 0, 1, 7, 1, .ro, .k 0⟩
/-- R336. -/
def HKA_STAT_LEFT : FRow := ⟨.hkac, 0x4, 0, 1, 8, 9, .ro, .k 0⟩
/-- R336. -/
def HKA_LAST_CODE : FRow := ⟨.hkac, 0x8, 0, 1, 0, 12, .ro, .k 0⟩
/-- R336. -/
def HKA_LAST_INPUT : FRow := ⟨.hkac, 0x8, 0, 1, 12, 5, .ro, .k 0⟩
/-- R336. -/
def SEQ_ENTRY : FRow := ⟨.hkac, 0x100, 4, 64, 0, 32, .rw, .k 0⟩
/-- R336. -/
def URG_CFG_INPUT : FRow := ⟨.hka, 0x800, 4, 4, 0, 5, .rw, .k 0⟩
/-- R336. -/
def URG_CFG_HKA : FRow := ⟨.hka, 0x800, 4, 4, 5, 1, .rw, .k 0⟩
/-- R336. -/
def URG_CFG_GO : FRow := ⟨.hka, 0x800, 4, 4, 8, 1, .wo, .k 0⟩
/-- R336. -/
def URG_CFG_TRIG_LINE : FRow := ⟨.hka, 0x800, 4, 4, 9, 2, .rw, .k 0⟩
/-- R336. -/
def URG_CFG_TRIG_EN : FRow := ⟨.hka, 0x800, 4, 4, 11, 1, .rw, .k 0⟩
/-- R336. -/
def URG_CFG_PENDING : FRow := ⟨.hka, 0x800, 4, 4, 12, 1, .ro, .k 0⟩
/-- R336. -/
def URG_RES_CODE : FRow := ⟨.hka, 0x810, 4, 4, 0, 12, .ro, .k 0⟩
/-- R336. -/
def REF_CFG_REF_TOL : FRow := ⟨.hka, 0x820, 0, 1, 0, 8, .rw, .k 8⟩
/-- R336. -/
def REF_STAT_REF0 : FRow := ⟨.hka, 0x824, 0, 1, 0, 12, .ro, .k 0⟩
/-- R336. -/
def REF_STAT_REF0_VALID : FRow := ⟨.hka, 0x824, 0, 1, 12, 1, .ro, .k 0⟩
/-- R336. -/
def REF_STAT_REF1 : FRow := ⟨.hka, 0x824, 0, 1, 16, 12, .ro, .k 0⟩
/-- R336. -/
def REF_STAT_REF1_VALID : FRow := ⟨.hka, 0x824, 0, 1, 28, 1, .ro, .k 0⟩
/-- R336. -/
def HKA_EVT_URG_DONE : FRow := ⟨.hka, 0x828, 0, 1, 0, 4, .w1c, .k 0⟩
/-- R336. -/
def HKA_EVT_URG_BUSY : FRow := ⟨.hka, 0x828, 0, 1, 4, 1, .w1c, .k 0⟩
/-- R336. -/
def HKA_EVT_REF_MISMATCH : FRow := ⟨.hka, 0x828, 0, 1, 5, 1, .w1c, .k 0⟩
/-- R336. -/
def HKA_EVT_RING_OVR : FRow := ⟨.hka, 0x828, 0, 1, 6, 1, .w1c, .k 0⟩
/-- R336. -/
def HKA_EVT_RING_WM : FRow := ⟨.hka, 0x828, 0, 1, 7, 1, .w1c, .k 0⟩
/-- R336. -/
def RING_WR_WR_IDX : FRow := ⟨.hka, 0x830, 0, 1, 0, 12, .ro, .k 0⟩
/-- R336. -/
def RING_RD_RD_IDX : FRow := ⟨.hka, 0x834, 0, 1, 0, 12, .rw, .k 0⟩
/-- R336. -/
def RING_WM_WM : FRow := ⟨.hka, 0x838, 0, 1, 0, 12, .rw, .k 2048⟩

/-- The fields of this chapter's register tables. -/
def rows0 : List FRow :=
  [HKA_CTL_RUN, HKA_CTL_LP, HKA_CTL_RING_EN, HKA_STAT_ENTRY, HKA_STAT_RUNNING, HKA_STAT_LP_ACTIVE, HKA_STAT_LEFT, HKA_LAST_CODE, HKA_LAST_INPUT, SEQ_ENTRY, URG_CFG_INPUT, URG_CFG_HKA, URG_CFG_GO, URG_CFG_TRIG_LINE, URG_CFG_TRIG_EN, URG_CFG_PENDING, URG_RES_CODE, REF_CFG_REF_TOL, REF_STAT_REF0, REF_STAT_REF0_VALID, REF_STAT_REF1, REF_STAT_REF1_VALID, HKA_EVT_URG_DONE, HKA_EVT_URG_BUSY]
def rows1 : List FRow :=
  [HKA_EVT_REF_MISMATCH, HKA_EVT_RING_OVR, HKA_EVT_RING_WM, RING_WR_WR_IDX, RING_RD_RD_IDX, RING_WM_WM]
def rows : List FRow :=
  rows0 ++ rows1

end Sys2Proof.Machine.HKA

namespace Sys2Proof.Machine.FILT

/-- R336. -/
def FILT_CTL_RUN : FRow := ⟨.filt, 0x0, 0, 1, 0, 1, .rw, .k 0⟩
/-- R336. -/
def FILT_CTL_LATCH : FRow := ⟨.filt, 0x0, 0, 1, 1, 1, .wo, .k 0⟩
/-- R336. -/
def FILT_EVT_CFG_REFUSED : FRow := ⟨.filt, 0x4, 0, 1, 0, 1, .w1c, .k 0⟩
/-- R336. -/
def FILT_OVF_LO_OVF : FRow := ⟨.filt, 0x8, 0, 1, 0, 32, .w1c, .k 0⟩
/-- R336. -/
def FILT_OVF_HI_OVF : FRow := ⟨.filt, 0xC, 0, 1, 0, 16, .w1c, .k 0⟩
/-- R336. -/
def FILT_CFG_LEN : FRow := ⟨.filt, 0x100, 4, 48, 0, 11, .rw, .k 16⟩
/-- R336. -/
def FILT_CFG_INPUT : FRow := ⟨.filt, 0x100, 4, 48, 16, 5, .rw, .idxMod 32⟩
/-- R336. -/
def FILT_CFG_CONV : FRow := ⟨.filt, 0x100, 4, 48, 21, 2, .rw, .k 0⟩
/-- R336. -/
def FILT_OUT_VALUE : FRow := ⟨.filt, 0x200, 4, 48, 0, 16, .ro, .k 0⟩
/-- R336. -/
def FILT_OUT_FULL : FRow := ⟨.filt, 0x200, 4, 48, 16, 1, .ro, .k 0⟩
/-- R336. -/
def FILT_LATCHED_VALUE : FRow := ⟨.filt, 0x300, 4, 48, 0, 16, .ro, .k 0⟩
/-- R336. -/
def FILT_LATCHED_FULL : FRow := ⟨.filt, 0x300, 4, 48, 16, 1, .ro, .k 0⟩

/-- The fields of this chapter's register tables. -/
def rows0 : List FRow :=
  [FILT_CTL_RUN, FILT_CTL_LATCH, FILT_EVT_CFG_REFUSED, FILT_OVF_LO_OVF, FILT_OVF_HI_OVF, FILT_CFG_LEN, FILT_CFG_INPUT, FILT_CFG_CONV, FILT_OUT_VALUE, FILT_OUT_FULL, FILT_LATCHED_VALUE, FILT_LATCHED_FULL]
def rows : List FRow :=
  rows0

end Sys2Proof.Machine.FILT

namespace Sys2Proof.Machine.OE

/-- R336. -/
def OE_CTL_EN_3V3 : FRow := ⟨.oe, 0x0, 0, 1, 0, 1, .rw, .k 0⟩
/-- R336. -/
def OE_CTL_EN_1V8 : FRow := ⟨.oe, 0x0, 0, 1, 1, 1, .rw, .k 0⟩
/-- R336. -/
def OE_STAT_PG_3V3 : FRow := ⟨.oe, 0x4, 0, 1, 0, 1, .ro, .k 0⟩
/-- R336. -/
def OE_STAT_PG_1V8 : FRow := ⟨.oe, 0x4, 0, 1, 1, 1, .ro, .k 0⟩
/-- R336. -/
def OE_STAT_XBUSY : FRow := ⟨.oe, 0x4, 0, 1, 2, 1, .ro, .k 0⟩
/-- R336. -/
def OE_EVT_RAIL_LOSS : FRow := ⟨.oe, 0x8, 0, 1, 0, 1, .w1c, .k 0⟩
/-- R336. -/
def OE_EVT_XFER_DONE : FRow := ⟨.oe, 0x8, 0, 1, 1, 1, .w1c, .k 0⟩
/-- R336. -/
def OE_EVT_XFER_ERR : FRow := ⟨.oe, 0x8, 0, 1, 2, 1, .w1c, .k 0⟩
/-- R336. -/
def OE_EVT_XFER_REFUSED : FRow := ⟨.oe, 0x8, 0, 1, 3, 1, .w1c, .k 0⟩
/-- R336. -/
def OE_BUS_CFG_SPEED : FRow := ⟨.oe, 0xC, 0, 1, 0, 2, .rw, .k 1⟩
/-- R336. -/
def OE_BUS_CFG_ID_ADDR : FRow := ⟨.oe, 0xC, 0, 1, 8, 7, .rw, .k 0⟩
/-- R336. -/
def OE_XFER_ADDR : FRow := ⟨.oe, 0x10, 0, 1, 0, 7, .rw, .k 0⟩
/-- R336. -/
def OE_XFER_OFFSET : FRow := ⟨.oe, 0x10, 0, 1, 8, 8, .rw, .k 0⟩
/-- R336. -/
def OE_XFER_LEN : FRow := ⟨.oe, 0x10, 0, 1, 16, 5, .rw, .k 1⟩
/-- R336. -/
def OE_XFER_DIR : FRow := ⟨.oe, 0x10, 0, 1, 24, 1, .rw, .k 0⟩
/-- R336. -/
def OE_XFER_GO : FRow := ⟨.oe, 0x10, 0, 1, 25, 1, .wo, .k 0⟩
/-- R336. -/
def OE_XSTAT_RESULT : FRow := ⟨.oe, 0x14, 0, 1, 0, 2, .ro, .k 0⟩
/-- R336. -/
def OE_DATA_DATA : FRow := ⟨.oe, 0x20, 4, 4, 0, 32, .rw, .k 0⟩
/-- R336. -/
def ID_CTL_READ : FRow := ⟨.oe, 0x30, 0, 1, 0, 1, .wo, .k 0⟩
/-- R336. -/
def ID_STAT_RESULT : FRow := ⟨.oe, 0x34, 0, 1, 0, 4, .ro, .k 7⟩
/-- R336. -/
def ID_PAGE_PAGE : FRow := ⟨.oe, 0x100, 4, 32, 0, 32, .ro, .k 0⟩

/-- The fields of this chapter's register tables. -/
def rows0 : List FRow :=
  [OE_CTL_EN_3V3, OE_CTL_EN_1V8, OE_STAT_PG_3V3, OE_STAT_PG_1V8, OE_STAT_XBUSY, OE_EVT_RAIL_LOSS, OE_EVT_XFER_DONE, OE_EVT_XFER_ERR, OE_EVT_XFER_REFUSED, OE_BUS_CFG_SPEED, OE_BUS_CFG_ID_ADDR, OE_XFER_ADDR, OE_XFER_OFFSET, OE_XFER_LEN, OE_XFER_DIR, OE_XFER_GO, OE_XSTAT_RESULT, OE_DATA_DATA, ID_CTL_READ, ID_STAT_RESULT, ID_PAGE_PAGE]
def rows : List FRow :=
  rows0

end Sys2Proof.Machine.OE

namespace Sys2Proof.Machine.MEM

/-- R360. -/
def MEM_STAT_READY : FRow := ⟨.mem, 0x0, 0, 1, 0, 1, .ro, .k 0⟩
/-- R360. -/
def MEM_STAT_SELF_REFRESH : FRow := ⟨.mem, 0x0, 0, 1, 1, 1, .ro, .k 0⟩
/-- R360. -/
def MEM_STAT_RETRAINING : FRow := ⟨.mem, 0x0, 0, 1, 2, 1, .ro, .k 0⟩
/-- R360. -/
def MEM_STAT_BAND : FRow := ⟨.mem, 0x0, 0, 1, 4, 2, .ro, .k 0⟩
/-- R360. -/
def MEM_STAT_D3_TEMP : FRow := ⟨.mem, 0x0, 0, 1, 8, 8, .ro, .k 0⟩
/-- R360. -/
def MEM_CTL_RETRAIN : FRow := ⟨.mem, 0x4, 0, 1, 0, 1, .wo, .k 0⟩
/-- R360. -/
def MEM_EVT_CE : FRow := ⟨.mem, 0x8, 0, 1, 0, 1, .w1c, .k 0⟩
/-- R360. -/
def MEM_EVT_UE : FRow := ⟨.mem, 0x8, 0, 1, 1, 1, .w1c, .k 0⟩
/-- R360. -/
def MEM_EVT_POISON_RD : FRow := ⟨.mem, 0x8, 0, 1, 2, 1, .w1c, .k 0⟩
/-- R360. -/
def MEM_EVT_CRC_FAIL : FRow := ⟨.mem, 0x8, 0, 1, 3, 1, .w1c, .k 0⟩
/-- R360. -/
def MEM_EVT_RETRAINED : FRow := ⟨.mem, 0x8, 0, 1, 4, 1, .w1c, .k 0⟩
/-- R360. -/
def CE_CNT : FRow := ⟨.mem, 0xC, 0, 1, 0, 32, .ro, .k 0⟩
/-- R360. -/
def UE_CNT : FRow := ⟨.mem, 0x10, 0, 1, 0, 32, .ro, .k 0⟩
/-- R360. -/
def CRC_RETRY_CNT : FRow := ⟨.mem, 0x14, 0, 1, 0, 32, .ro, .k 0⟩
/-- R360. -/
def CE_ADDR : FRow := ⟨.mem, 0x18, 0, 1, 0, 32, .ro, .k 0⟩
/-- R360. -/
def UE_ADDR : FRow := ⟨.mem, 0x1C, 0, 1, 0, 32, .ro, .k 0⟩
/-- R360. -/
def LAST_SRC_CE_CLASS : FRow := ⟨.mem, 0x20, 0, 1, 0, 3, .ro, .k 0⟩
/-- R360. -/
def LAST_SRC_UE_CLASS : FRow := ⟨.mem, 0x20, 0, 1, 4, 3, .ro, .k 0⟩
/-- R360. -/
def SCRUB_CFG_SCRUB_EN : FRow := ⟨.mem, 0x24, 0, 1, 0, 1, .rw, .k 0⟩
/-- R360. -/
def SCRUB_CFG_RATE : FRow := ⟨.mem, 0x24, 0, 1, 8, 8, .rw, .k 1⟩
/-- R360. -/
def SCRUB_POS_POS : FRow := ⟨.mem, 0x28, 0, 1, 0, 32, .ro, .k 1073741824⟩
/-- R360. -/
def SCRUB_PASS_PASS : FRow := ⟨.mem, 0x2C, 0, 1, 0, 32, .ro, .k 0⟩
/-- R360. -/
def INTEG_EVT_PARITY : FRow := ⟨.mem, 0x100, 0, 1, 0, 1, .w1c, .k 0⟩
/-- R360. -/
def INTEG_EVT_POISON_USE : FRow := ⟨.mem, 0x100, 0, 1, 1, 1, .w1c, .k 0⟩
/-- R360. -/
def INTEG_LAST_SRAM : FRow := ⟨.mem, 0x104, 0, 1, 0, 8, .ro, .k 0⟩
/-- R360. -/
def INTEG_LAST_CONSUMER : FRow := ⟨.mem, 0x104, 0, 1, 8, 4, .ro, .k 0⟩
/-- R360. -/
def INTEG_ADDR_ADDR : FRow := ⟨.mem, 0x108, 0, 1, 0, 32, .ro, .k 0⟩

/-- The fields of this chapter's register tables. -/
def rows0 : List FRow :=
  [MEM_STAT_READY, MEM_STAT_SELF_REFRESH, MEM_STAT_RETRAINING, MEM_STAT_BAND, MEM_STAT_D3_TEMP, MEM_CTL_RETRAIN, MEM_EVT_CE, MEM_EVT_UE, MEM_EVT_POISON_RD, MEM_EVT_CRC_FAIL, MEM_EVT_RETRAINED, CE_CNT, UE_CNT, CRC_RETRY_CNT, CE_ADDR, UE_ADDR, LAST_SRC_CE_CLASS, LAST_SRC_UE_CLASS, SCRUB_CFG_SCRUB_EN, SCRUB_CFG_RATE, SCRUB_POS_POS, SCRUB_PASS_PASS, INTEG_EVT_PARITY, INTEG_EVT_POISON_USE]
def rows1 : List FRow :=
  [INTEG_LAST_SRAM, INTEG_LAST_CONSUMER, INTEG_ADDR_ADDR]
def rows : List FRow :=
  rows0 ++ rows1

end Sys2Proof.Machine.MEM

namespace Sys2Proof.Machine.PWR

/-- R384. -/
def PWR_MODE_STATE : FRow := ⟨.pwr, 0x0, 0, 1, 0, 2, .rw, .k 0⟩
/-- R384. -/
def PWR_MODE_PARK : FRow := ⟨.pwr, 0x0, 0, 1, 8, 8, .rw, .k 0⟩
/-- R384. -/
def PWR_MODE_GATE : FRow := ⟨.pwr, 0x0, 0, 1, 16, 4, .rw, .k 0⟩
/-- R384. -/
def PWR_MODE_WAKE_LIGHT : FRow := ⟨.pwr, 0x0, 0, 1, 20, 8, .rw, .k 255⟩
/-- R384. -/
def PWR_MODE_KEEP_OE : FRow := ⟨.pwr, 0x0, 0, 1, 28, 1, .rw, .k 0⟩
/-- R384. -/
def PWR_STAT_STATE : FRow := ⟨.pwr, 0x4, 0, 1, 0, 2, .ro, .k 0⟩
/-- R384. -/
def PWR_STAT_CHANGING : FRow := ⟨.pwr, 0x4, 0, 1, 2, 1, .ro, .k 0⟩
/-- R384. -/
def PWR_STAT_PARKED : FRow := ⟨.pwr, 0x4, 0, 1, 8, 8, .ro, .k 0⟩
/-- R384. -/
def PWR_STAT_GATED : FRow := ⟨.pwr, 0x4, 0, 1, 16, 4, .ro, .k 0⟩
/-- R384. -/
def PWR_STAT_CORE_CLK : FRow := ⟨.pwr, 0x4, 0, 1, 20, 1, .ro, .k 0⟩
/-- R384. -/
def PWR_STAT_REFCLK_OK : FRow := ⟨.pwr, 0x4, 0, 1, 21, 1, .ro, .k 0⟩
/-- R384. -/
def PWR_EVT_PARK_WAKE : FRow := ⟨.pwr, 0x8, 0, 1, 0, 1, .w1c, .k 0⟩
/-- R384. -/
def PWR_EVT_DRAIN_DISCARD : FRow := ⟨.pwr, 0x8, 0, 1, 1, 1, .w1c, .k 0⟩
/-- R384. -/
def PWR_EVT_SAVE_POISON : FRow := ⟨.pwr, 0x8, 0, 1, 2, 1, .w1c, .k 0⟩
/-- R384. -/
def PWR_EVT_REFCLK_LOST : FRow := ⟨.pwr, 0x8, 0, 1, 3, 1, .w1c, .k 0⟩
/-- R384. -/
def AON_STAT_FCODE : FRow := ⟨.pwr, 0x10, 0, 1, 0, 3, .ro, .k 7⟩
/-- R384. -/
def AON_STAT_FAULT : FRow := ⟨.pwr, 0x10, 0, 1, 3, 1, .ro, .k 0⟩
/-- R384. -/
def AON_STAT_WAKE_CAUSE : FRow := ⟨.pwr, 0x10, 0, 1, 4, 2, .ro, .k 0⟩
/-- R384. -/
def AON_STAT_HELD_CAUSE : FRow := ⟨.pwr, 0x10, 0, 1, 8, 2, .ro, .k 0⟩
/-- R384. -/
def AON_STAT_STAGE : FRow := ⟨.pwr, 0x10, 0, 1, 12, 4, .ro, .k 0⟩
/-- R384. -/
def AON_VIN_VIN : FRow := ⟨.pwr, 0x14, 0, 1, 0, 12, .ro, .k 0⟩
/-- R384. -/
def SAVE_CFG_USER_COUNT : FRow := ⟨.pwr, 0x18, 0, 1, 0, 8, .rw, .k 0⟩
/-- R384. -/
def SAVE_ADDR_ADDR : FRow := ⟨.pwr, 0x200, 4, 128, 0, 32, .rw, .k 0⟩

/-- The fields of this chapter's register tables. -/
def rows0 : List FRow :=
  [PWR_MODE_STATE, PWR_MODE_PARK, PWR_MODE_GATE, PWR_MODE_WAKE_LIGHT, PWR_MODE_KEEP_OE, PWR_STAT_STATE, PWR_STAT_CHANGING, PWR_STAT_PARKED, PWR_STAT_GATED, PWR_STAT_CORE_CLK, PWR_STAT_REFCLK_OK, PWR_EVT_PARK_WAKE, PWR_EVT_DRAIN_DISCARD, PWR_EVT_SAVE_POISON, PWR_EVT_REFCLK_LOST, AON_STAT_FCODE, AON_STAT_FAULT, AON_STAT_WAKE_CAUSE, AON_STAT_HELD_CAUSE, AON_STAT_STAGE, AON_VIN_VIN, SAVE_CFG_USER_COUNT, SAVE_ADDR_ADDR]
def rows : List FRow :=
  rows0

end Sys2Proof.Machine.PWR

namespace Sys2Proof.Machine.THERM

/-- R397. -/
def THERM_CFG_WARN_TH : FRow := ⟨.therm, 0x0, 0, 1, 0, 8, .rw, .k 100⟩
/-- R397. -/
def THERM_CFG_THROT_TH : FRow := ⟨.therm, 0x0, 0, 1, 8, 8, .rw, .k 105⟩
/-- R397. -/
def THERM_CFG_SHUT_TH : FRow := ⟨.therm, 0x0, 0, 1, 16, 8, .rwl, .k 115⟩
/-- R397. -/
def THERM_CFG_TRACK_TH : FRow := ⟨.therm, 0x0, 0, 1, 24, 8, .rw, .k 85⟩
/-- R397. -/
def THERM_RATE_RISE_LIMIT : FRow := ⟨.therm, 0x4, 0, 1, 0, 8, .rw, .k 40⟩
/-- R397. -/
def THERM_RATE_PAUSE : FRow := ⟨.therm, 0x4, 0, 1, 16, 16, .rw, .k 50⟩
/-- R397. -/
def THERM_STAT_BAND : FRow := ⟨.therm, 0x8, 0, 1, 0, 2, .ro, .k 0⟩
/-- R397. -/
def THERM_STAT_RATE_ACTIVE : FRow := ⟨.therm, 0x8, 0, 1, 2, 1, .ro, .k 0⟩
/-- R397. -/
def THERM_STAT_MRAM_WRITE_OK : FRow := ⟨.therm, 0x8, 0, 1, 3, 1, .ro, .k 0⟩
/-- R397. -/
def THERM_STAT_HOT_TRACK : FRow := ⟨.therm, 0x8, 0, 1, 4, 2, .ro, .k 0⟩
/-- R397. -/
def THERM_STAT_MAX_SENSOR : FRow := ⟨.therm, 0x8, 0, 1, 8, 5, .ro, .k 0⟩
/-- R397. -/
def THERM_STAT_MAX_TEMP : FRow := ⟨.therm, 0x8, 0, 1, 16, 12, .ro, .k 0⟩
/-- R397. -/
def THERM_EVT_WARN : FRow := ⟨.therm, 0xC, 0, 1, 0, 1, .w1c, .k 0⟩
/-- R397. -/
def THERM_EVT_THROTTLE : FRow := ⟨.therm, 0xC, 0, 1, 1, 1, .w1c, .k 0⟩
/-- R397. -/
def THERM_EVT_RATE : FRow := ⟨.therm, 0xC, 0, 1, 2, 1, .w1c, .k 0⟩
/-- R397. -/
def THERM_EVT_SENSOR_FAULT : FRow := ⟨.therm, 0xC, 0, 1, 3, 1, .w1c, .k 0⟩
/-- R397. -/
def THERM_EVT_CFG_REFUSED : FRow := ⟨.therm, 0xC, 0, 1, 4, 1, .w1c, .k 0⟩
/-- R397. -/
def SENS_FAULT_FAULTY : FRow := ⟨.therm, 0x10, 0, 1, 0, 24, .ro, .k 0⟩
/-- R397. -/
def SENS_TEMP : FRow := ⟨.therm, 0x40, 4, 24, 0, 12, .ro, .k 0⟩
/-- R397. -/
def SENS_RAW : FRow := ⟨.therm, 0x40, 4, 24, 16, 12, .ro, .k 0⟩
/-- R397. -/
def SENS_EXCLUDED : FRow := ⟨.therm, 0x40, 4, 24, 28, 1, .ro, .k 0⟩

/-- The fields of this chapter's register tables. -/
def rows0 : List FRow :=
  [THERM_CFG_WARN_TH, THERM_CFG_THROT_TH, THERM_CFG_SHUT_TH, THERM_CFG_TRACK_TH, THERM_RATE_RISE_LIMIT, THERM_RATE_PAUSE, THERM_STAT_BAND, THERM_STAT_RATE_ACTIVE, THERM_STAT_MRAM_WRITE_OK, THERM_STAT_HOT_TRACK, THERM_STAT_MAX_SENSOR, THERM_STAT_MAX_TEMP, THERM_EVT_WARN, THERM_EVT_THROTTLE, THERM_EVT_RATE, THERM_EVT_SENSOR_FAULT, THERM_EVT_CFG_REFUSED, SENS_FAULT_FAULTY, SENS_TEMP, SENS_RAW, SENS_EXCLUDED]
def rows : List FRow :=
  rows0

end Sys2Proof.Machine.THERM

namespace Sys2Proof.Machine.BIST

/-- R418. -/
def BIST_STAT_SLICES_RUN : FRow := ⟨.bist, 0x100, 32, 3, 0, 16, .ro, .byIdx 38 59⟩
/-- R418. -/
def BIST_STAT_SLICES_FAILED : FRow := ⟨.bist, 0x100, 32, 3, 16, 8, .ro, .k 0⟩
/-- R418. -/
def BIST_TIME_DURATION : FRow := ⟨.bist, 0x104, 32, 3, 0, 32, .ro, .k 0⟩
/-- R418. -/
def BIST_COV_MEM_COV : FRow := ⟨.bist, 0x108, 32, 3, 0, 10, .ro, .k 1000⟩
/-- R418. -/
def BIST_COV_LOGIC_COV : FRow := ⟨.bist, 0x108, 32, 3, 16, 10, .ro, .k 920⟩
/-- R418. -/
def BIST_REP_SOFT_ROWS : FRow := ⟨.bist, 0x10C, 32, 3, 0, 16, .ro, .k 0⟩
/-- R418. -/
def BIST_REP_FUSE_ROWS : FRow := ⟨.bist, 0x10C, 32, 3, 16, 16, .ro, .k 0⟩
/-- R418. -/
def FAULT_EVT_TILE_FAILED : FRow := ⟨.bist, 0x200, 0, 1, 0, 1, .w1c, .k 0⟩
/-- R418. -/
def FAULT_EVT_SWAP_DONE : FRow := ⟨.bist, 0x200, 0, 1, 1, 1, .w1c, .k 0⟩
/-- R418. -/
def FAULT_EVT_REPLACED : FRow := ⟨.bist, 0x200, 0, 1, 2, 1, .w1c, .k 0⟩
/-- R418. -/
def FAULT_EVT_NO_SPARE : FRow := ⟨.bist, 0x200, 0, 1, 3, 1, .w1c, .k 0⟩
/-- R418. -/
def FAULT_EVT_SPARE_FAIL : FRow := ⟨.bist, 0x200, 0, 1, 4, 1, .w1c, .k 0⟩
/-- R418. -/
def FAULT_EVT_LANE_HELD : FRow := ⟨.bist, 0x200, 0, 1, 5, 1, .w1c, .k 0⟩
/-- R418. -/
def FAULT_EVT_MAP_BAD : FRow := ⟨.bist, 0x200, 0, 1, 6, 1, .w1c, .k 0⟩
/-- R418. -/
def FAULT_EVT_CKPT_BAD : FRow := ⟨.bist, 0x200, 0, 1, 7, 1, .w1c, .k 0⟩
/-- R418. -/
def BG_CFG_BG_EN : FRow := ⟨.bist, 0x204, 0, 1, 0, 1, .rw, .k 1⟩
/-- R418. -/
def HELD_STAT_LANE_HELD : FRow := ⟨.bist, 0x210, 0, 1, 0, 8, .ro, .k 0⟩
/-- R418. -/
def HELD_STAT_REGION_HELD : FRow := ⟨.bist, 0x210, 0, 1, 8, 4, .ro, .k 0⟩
/-- R418. -/
def SPARE_STAT_T11_LO : FRow := ⟨.bist, 0x220, 4, 4, 0, 1, .ro, .k 1⟩
/-- R418. -/
def SPARE_STAT_T11_HI : FRow := ⟨.bist, 0x220, 4, 4, 1, 1, .ro, .k 1⟩
/-- R418. -/
def SPARE_STAT_P0 : FRow := ⟨.bist, 0x220, 4, 4, 2, 1, .ro, .k 1⟩
/-- R418. -/
def SPARE_STAT_P1 : FRow := ⟨.bist, 0x220, 4, 4, 3, 1, .ro, .k 1⟩
/-- R418. -/
def SPARE_STAT_BG_ACTIVE : FRow := ⟨.bist, 0x220, 4, 4, 8, 1, .ro, .k 0⟩

/-- The fields of this chapter's register tables. -/
def rows0 : List FRow :=
  [BIST_STAT_SLICES_RUN, BIST_STAT_SLICES_FAILED, BIST_TIME_DURATION, BIST_COV_MEM_COV, BIST_COV_LOGIC_COV, BIST_REP_SOFT_ROWS, BIST_REP_FUSE_ROWS, FAULT_EVT_TILE_FAILED, FAULT_EVT_SWAP_DONE, FAULT_EVT_REPLACED, FAULT_EVT_NO_SPARE, FAULT_EVT_SPARE_FAIL, FAULT_EVT_LANE_HELD, FAULT_EVT_MAP_BAD, FAULT_EVT_CKPT_BAD, BG_CFG_BG_EN, HELD_STAT_LANE_HELD, HELD_STAT_REGION_HELD, SPARE_STAT_T11_LO, SPARE_STAT_T11_HI, SPARE_STAT_P0, SPARE_STAT_P1, SPARE_STAT_BG_ACTIVE]
def rows : List FRow :=
  rows0

end Sys2Proof.Machine.BIST

namespace Sys2Proof.Machine.GLOBAL

/-- R432. -/
def CMD_IN_WORD : FRow := ⟨.global, 0x400, 4, 8, 0, 32, .rw, .k 0⟩
/-- R432. -/
def CMD_PUSH_PUSH : FRow := ⟨.global, 0x420, 0, 1, 0, 1, .wo, .k 0⟩
/-- R432. -/
def CPL_WORD : FRow := ⟨.global, 0x440, 4, 4, 0, 32, .ro, .k 0⟩
/-- R432. -/
def CPL_POP_POP : FRow := ⟨.global, 0x450, 0, 1, 0, 1, .wo, .k 0⟩
/-- R432. -/
def CPL_STAT_COUNT : FRow := ⟨.global, 0x454, 0, 1, 0, 8, .ro, .k 0⟩
/-- R432. -/
def CPL_STAT_RESERVED_CPL : FRow := ⟨.global, 0x454, 0, 1, 8, 8, .ro, .k 0⟩
/-- R432. -/
def MGMT_STAT_I3C : FRow := ⟨.global, 0x480, 0, 1, 0, 1, .ro, .k 0⟩
/-- R432. -/
def MGMT_STAT_DYN_ADDR : FRow := ⟨.global, 0x480, 0, 1, 1, 7, .ro, .k 0⟩
/-- R432. -/
def BULK_CFG_DUMMY : FRow := ⟨.global, 0x484, 0, 1, 0, 6, .rw, .k 32⟩
/-- R453. -/
def CHIP_ID : FRow := ⟨.global, 0x0, 0, 1, 0, 32, .ro, .k 22578⟩
/-- R453. -/
def REV : FRow := ⟨.global, 0x4, 0, 1, 0, 8, .ro, .k 176⟩
/-- R453. -/
def REV_FAMILY : FRow := ⟨.global, 0x4, 0, 1, 16, 16, .ro, .k 81⟩
/-- R453. -/
def SERIAL_SERIAL_LO : FRow := ⟨.global, 0x8, 0, 1, 0, 32, .ro, .k 0⟩
/-- R453. -/
def SERIAL_SERIAL_HI : FRow := ⟨.global, 0xC, 0, 1, 0, 32, .ro, .k 0⟩
/-- R454. -/
def CAP_LINE_LANES : FRow := ⟨.global, 0x10, 0, 1, 0, 4, .ro, .k 8⟩
/-- R454. -/
def CAP_LINE_REGIONS : FRow := ⟨.global, 0x10, 0, 1, 4, 3, .ro, .k 4⟩
/-- R454. -/
def CAP_LINE_CLUSTER_TILES : FRow := ⟨.global, 0x10, 0, 1, 8, 4, .ro, .k 12⟩
/-- R454. -/
def CAP_LINE_POOL_TILES : FRow := ⟨.global, 0x10, 0, 1, 12, 2, .ro, .k 2⟩
/-- R454. -/
def CAP_LINE_MAX_FFE_TAPS : FRow := ⟨.global, 0x10, 0, 1, 16, 7, .ro, .k 72⟩
/-- R454. -/
def CAP_LINE_MLSE_STATES : FRow := ⟨.global, 0x10, 0, 1, 24, 5, .ro, .k 16⟩
/-- R454. -/
def CAP_LINE_HI_BAUD_MULT : FRow := ⟨.global, 0x14, 0, 1, 0, 12, .ro, .k 1445⟩
/-- R454. -/
def CAP_HOST_LANES : FRow := ⟨.global, 0x18, 0, 1, 0, 5, .ro, .k 16⟩
/-- R454. -/
def CAP_HOST_BAUD_MULT : FRow := ⟨.global, 0x18, 0, 1, 8, 10, .ro, .k 680⟩
/-- R454. -/
def CAP_CTX_MEM_MIB : FRow := ⟨.global, 0x20, 0, 1, 0, 13, .ro, .k 2048⟩
/-- R454. -/
def CAP_CTX_DIR_ENTRIES : FRow := ⟨.global, 0x20, 0, 1, 14, 18, .ro, .k 131072⟩
/-- R454. -/
def CAP_CTX_HI_SLOTS : FRow := ⟨.global, 0x24, 0, 1, 0, 17, .ro, .k 65536⟩
/-- R454. -/
def CAP_CTX_HI_CACHE : FRow := ⟨.global, 0x24, 0, 1, 17, 9, .ro, .k 256⟩
/-- R454. -/
def CAP_CTX_HI_STASH : FRow := ⟨.global, 0x24, 0, 1, 26, 4, .ro, .k 8⟩
/-- R454. -/
def CAP_MISC_SCHED_ENTRIES : FRow := ⟨.global, 0x28, 0, 1, 0, 13, .ro, .k 4096⟩
/-- R454. -/
def CAP_MISC_BEACON_CH : FRow := ⟨.global, 0x28, 0, 1, 16, 5, .ro, .k 16⟩
/-- R454. -/
def CAP_MISC_HKD_CH : FRow := ⟨.global, 0x28, 0, 1, 21, 5, .ro, .k 16⟩
/-- R454. -/
def CAP_MISC_HKA_IN : FRow := ⟨.global, 0x28, 0, 1, 26, 6, .ro, .k 32⟩
/-- R454. -/
def CAP_MISC_HI_IRQ_SOURCES : FRow := ⟨.global, 0x2C, 0, 1, 0, 9, .ro, .k 384⟩
/-- R454. -/
def CAP_MISC_HI_SUMAC_MAX : FRow := ⟨.global, 0x2C, 0, 1, 16, 6, .ro, .k 32⟩
/-- R459. -/
def RST_CTL_D1_RESET : FRow := ⟨.global, 0x100, 0, 1, 0, 1, .wo, .k 0⟩
/-- R459. -/
def RST_CTL_D2_RESET : FRow := ⟨.global, 0x100, 0, 1, 1, 1, .wo, .k 0⟩
/-- R459. -/
def RST_CTL_PKG_KEY : FRow := ⟨.global, 0x100, 0, 1, 8, 8, .wo, .k 0⟩
/-- R459. -/
def RST_CTL_PKG_RESET : FRow := ⟨.global, 0x100, 0, 1, 16, 1, .wo, .k 0⟩
/-- R459. -/
def RST_STAT_D1_BUSY : FRow := ⟨.global, 0x104, 0, 1, 0, 1, .ro, .k 0⟩
/-- R459. -/
def RST_STAT_D2_BUSY : FRow := ⟨.global, 0x104, 0, 1, 1, 1, .ro, .k 0⟩
/-- R459. -/
def MODE_MODE_R : FRow := ⟨.global, 0x108, 0, 1, 0, 8, .ro, .k 0⟩
/-- R459. -/
def MODE_LANE_EN : FRow := ⟨.global, 0x108, 0, 1, 8, 8, .ro, .k 0⟩
/-- R459. -/
def MODE_BREAKOUT : FRow := ⟨.global, 0x108, 0, 1, 16, 8, .ro, .k 0⟩
/-- R459. -/
def MODE_PLACEMENT : FRow := ⟨.global, 0x108, 0, 1, 24, 4, .ro, .k 0⟩
/-- R459. -/
def G_EVT_UNMAPPED : FRow := ⟨.global, 0x10C, 0, 1, 0, 1, .w1c, .k 0⟩
/-- R459. -/
def G_EVT_LOCKED_WRITE : FRow := ⟨.global, 0x10C, 0, 1, 1, 1, .w1c, .k 0⟩
/-- R459. -/
def G_EVT_IMAGE_NONE : FRow := ⟨.global, 0x10C, 0, 1, 2, 1, .w1c, .k 0⟩
/-- R459. -/
def G_EVT_ENGINE_ID : FRow := ⟨.global, 0x10C, 0, 1, 3, 1, .w1c, .k 0⟩
/-- R459. -/
def G_EVT_MACE_POISON : FRow := ⟨.global, 0x10C, 0, 1, 4, 1, .w1c, .k 0⟩
/-- R459. -/
def G_EVT_MEM_FAIL : FRow := ⟨.global, 0x10C, 0, 1, 5, 1, .w1c, .k 0⟩
/-- R459. -/
def G_EVT_CAL_NONE : FRow := ⟨.global, 0x10C, 0, 1, 6, 1, .w1c, .k 0⟩
/-- R459. -/
def G_EVT_RESET_REFUSED : FRow := ⟨.global, 0x10C, 0, 1, 7, 1, .w1c, .k 0⟩
/-- R459. -/
def UNMAPPED_ADDR_ADDR : FRow := ⟨.global, 0x110, 0, 1, 0, 32, .ro, .k 0⟩
/-- R459. -/
def UNMAPPED_INFO_WRITE : FRow := ⟨.global, 0x114, 0, 1, 0, 1, .ro, .k 0⟩
/-- R459. -/
def UNMAPPED_INFO_ORIGIN : FRow := ⟨.global, 0x114, 0, 1, 1, 2, .ro, .k 0⟩
/-- R459. -/
def LOCKED_ADDR_ADDR : FRow := ⟨.global, 0x118, 0, 1, 0, 32, .ro, .k 0⟩
/-- R459. -/
def LOCKED_INFO_ORIGIN : FRow := ⟨.global, 0x11C, 0, 1, 1, 2, .ro, .k 0⟩

/-- The fields of this chapter's register tables. -/
def rows0 : List FRow :=
  [CMD_IN_WORD, CMD_PUSH_PUSH, CPL_WORD, CPL_POP_POP, CPL_STAT_COUNT, CPL_STAT_RESERVED_CPL, MGMT_STAT_I3C, MGMT_STAT_DYN_ADDR, BULK_CFG_DUMMY, CHIP_ID, REV, REV_FAMILY, SERIAL_SERIAL_LO, SERIAL_SERIAL_HI, CAP_LINE_LANES, CAP_LINE_REGIONS, CAP_LINE_CLUSTER_TILES, CAP_LINE_POOL_TILES, CAP_LINE_MAX_FFE_TAPS, CAP_LINE_MLSE_STATES, CAP_LINE_HI_BAUD_MULT, CAP_HOST_LANES, CAP_HOST_BAUD_MULT, CAP_CTX_MEM_MIB]
def rows1 : List FRow :=
  [CAP_CTX_DIR_ENTRIES, CAP_CTX_HI_SLOTS, CAP_CTX_HI_CACHE, CAP_CTX_HI_STASH, CAP_MISC_SCHED_ENTRIES, CAP_MISC_BEACON_CH, CAP_MISC_HKD_CH, CAP_MISC_HKA_IN, CAP_MISC_HI_IRQ_SOURCES, CAP_MISC_HI_SUMAC_MAX, RST_CTL_D1_RESET, RST_CTL_D2_RESET, RST_CTL_PKG_KEY, RST_CTL_PKG_RESET, RST_STAT_D1_BUSY, RST_STAT_D2_BUSY, MODE_MODE_R, MODE_LANE_EN, MODE_BREAKOUT, MODE_PLACEMENT, G_EVT_UNMAPPED, G_EVT_LOCKED_WRITE, G_EVT_IMAGE_NONE, G_EVT_ENGINE_ID]
def rows2 : List FRow :=
  [G_EVT_MACE_POISON, G_EVT_MEM_FAIL, G_EVT_CAL_NONE, G_EVT_RESET_REFUSED, UNMAPPED_ADDR_ADDR, UNMAPPED_INFO_WRITE, UNMAPPED_INFO_ORIGIN, LOCKED_ADDR_ADDR, LOCKED_INFO_ORIGIN]
def rows : List FRow :=
  rows0 ++ rows1 ++ rows2

end Sys2Proof.Machine.GLOBAL

namespace Sys2Proof.Machine.INTC

/-- R440. -/
def CLAIM_SOURCE : FRow := ⟨.intc, 0x0, 0, 1, 0, 9, .ro, .k 0⟩
/-- R440. -/
def CLAIM_VALID : FRow := ⟨.intc, 0x0, 0, 1, 31, 1, .ro, .k 0⟩
/-- R440. -/
def COMPLETE_SOURCE : FRow := ⟨.intc, 0x4, 0, 1, 0, 9, .wo, .k 0⟩
/-- R440. -/
def THRESH_THRESHOLD0 : FRow := ⟨.intc, 0x8, 0, 1, 0, 4, .rw, .k 0⟩
/-- R440. -/
def THRESH_THRESHOLD1 : FRow := ⟨.intc, 0x8, 0, 1, 4, 4, .rw, .k 0⟩
/-- R440. -/
def HOLDOFF_HOLDOFF0 : FRow := ⟨.intc, 0xC, 0, 1, 0, 16, .rw, .k 0⟩
/-- R440. -/
def HOLDOFF_HOLDOFF1 : FRow := ⟨.intc, 0xC, 0, 1, 16, 16, .rw, .k 0⟩
/-- R440. -/
def IC_STAT_IRQ_LOW : FRow := ⟨.intc, 0x10, 0, 1, 0, 1, .ro, .k 0⟩
/-- R440. -/
def IC_STAT_CORE_WAIT : FRow := ⟨.intc, 0x10, 0, 1, 1, 1, .ro, .k 0⟩
/-- R440. -/
def IC_STAT_CLAIMED : FRow := ⟨.intc, 0x10, 0, 1, 16, 16, .ro, .k 0⟩
/-- R440. -/
def SW_SET_SET : FRow := ⟨.intc, 0x20, 0, 1, 0, 8, .wo, .k 0⟩
/-- R440. -/
def SW_STAT_SW : FRow := ⟨.intc, 0x24, 0, 1, 0, 8, .w1c, .k 0⟩
/-- R440. -/
def PENDING_LEVEL : FRow := ⟨.intc, 0x100, 4, 12, 0, 32, .ro, .k 0⟩
/-- R440. -/
def SRC_PRIORITY : FRow := ⟨.intc, 0x1000, 4, 384, 0, 4, .rw, .faultOnly 15⟩
/-- R440. -/
def SRC_ENABLE : FRow := ⟨.intc, 0x1000, 4, 384, 4, 1, .rw, .faultOnly 1⟩
/-- R440. -/
def SRC_TARGET : FRow := ⟨.intc, 0x1000, 4, 384, 5, 1, .rw, .k 0⟩
/-- R440. -/
def SRC_FAULT_CLASS : FRow := ⟨.intc, 0x1000, 4, 384, 6, 1, .ro, .faultOnly 1⟩
/-- R440. -/
def SRC_LEVEL : FRow := ⟨.intc, 0x1000, 4, 384, 7, 1, .ro, .k 0⟩
/-- R440. -/
def SRC_CLAIMED : FRow := ⟨.intc, 0x1000, 4, 384, 8, 1, .ro, .k 0⟩
/-- R440. -/
def SRC_COUNT : FRow := ⟨.intc, 0x1000, 4, 384, 16, 8, .ro, .k 0⟩
/-- R440. -/
def SRC_COUNT_CLR : FRow := ⟨.intc, 0x1000, 4, 384, 24, 1, .wo, .k 0⟩

/-- The fields of this chapter's register tables. -/
def rows0 : List FRow :=
  [CLAIM_SOURCE, CLAIM_VALID, COMPLETE_SOURCE, THRESH_THRESHOLD0, THRESH_THRESHOLD1, HOLDOFF_HOLDOFF0, HOLDOFF_HOLDOFF1, IC_STAT_IRQ_LOW, IC_STAT_CORE_WAIT, IC_STAT_CLAIMED, SW_SET_SET, SW_STAT_SW, PENDING_LEVEL, SRC_PRIORITY, SRC_ENABLE, SRC_TARGET, SRC_FAULT_CLASS, SRC_LEVEL, SRC_CLAIMED, SRC_COUNT, SRC_COUNT_CLR]
def rows : List FRow :=
  rows0

end Sys2Proof.Machine.INTC

namespace Sys2Proof.Machine.PERF

/-- R443. -/
def CTR_CFG_EVENT : FRow := ⟨.perf, 0x0, 16, 64, 0, 10, .rw, .k 0⟩
/-- R443. -/
def CTR_CFG_EN : FRow := ⟨.perf, 0x0, 16, 64, 16, 1, .rw, .k 0⟩
/-- R443. -/
def CTR_CFG_CHAIN : FRow := ⟨.perf, 0x0, 16, 64, 17, 1, .rw, .k 0⟩
/-- R443. -/
def CTR_CFG_CLEAR : FRow := ⟨.perf, 0x0, 16, 64, 18, 1, .wo, .k 0⟩
/-- R443. -/
def CNT_LO : FRow := ⟨.perf, 0x4, 16, 64, 0, 32, .ro, .k 0⟩
/-- R443. -/
def CNT_HI : FRow := ⟨.perf, 0x8, 16, 64, 0, 16, .ro, .k 0⟩
/-- R443. -/
def BANK_CTL_FREEZE : FRow := ⟨.perf, 0x800, 0, 1, 0, 1, .rw, .k 0⟩
/-- R443. -/
def BANK_CTL_CLEAR_ALL : FRow := ⟨.perf, 0x800, 0, 1, 1, 1, .wo, .k 0⟩
/-- R443. -/
def OVF_LO_OVF : FRow := ⟨.perf, 0x810, 0, 1, 0, 32, .w1c, .k 0⟩
/-- R443. -/
def OVF_HI_OVF : FRow := ⟨.perf, 0x814, 0, 1, 0, 32, .w1c, .k 0⟩

/-- The fields of this chapter's register tables. -/
def rows0 : List FRow :=
  [CTR_CFG_EVENT, CTR_CFG_EN, CTR_CFG_CHAIN, CTR_CFG_CLEAR, CNT_LO, CNT_HI, BANK_CTL_FREEZE, BANK_CTL_CLEAR_ALL, OVF_LO_OVF, OVF_HI_OVF]
def rows : List FRow :=
  rows0

end Sys2Proof.Machine.PERF

namespace Sys2Proof.Machine.DBG

/-- R444. -/
def DBG_CTL_DEN : FRow := ⟨.dbg, 0x0, 0, 1, 0, 1, .rw, .k 0⟩
/-- R444. -/
def DBG_CTL_LANE : FRow := ⟨.dbg, 0x0, 0, 1, 1, 3, .rw, .k 0⟩
/-- R444. -/
def DBG_CTL_GROUP : FRow := ⟨.dbg, 0x0, 0, 1, 4, 4, .rw, .k 0⟩
/-- R444. -/
def DBG_CTL_AEN : FRow := ⟨.dbg, 0x0, 0, 1, 8, 1, .rw, .k 0⟩
/-- R444. -/
def DBG_CTL_ANODE : FRow := ⟨.dbg, 0x0, 0, 1, 9, 3, .rw, .k 0⟩

/-- The fields of this chapter's register tables. -/
def rows0 : List FRow :=
  [DBG_CTL_DEN, DBG_CTL_LANE, DBG_CTL_GROUP, DBG_CTL_AEN, DBG_CTL_ANODE]
def rows : List FRow :=
  rows0

end Sys2Proof.Machine.DBG

namespace Sys2Proof.Machine.XBAR

/-- R223. -/
def CROSSBAR_HOSTS : FRow := ⟨.xbar, 0x0, 0, 1, 0, 16, .ro, .k 0⟩

/-- The fields of this chapter's register tables. -/
def rows0 : List FRow :=
  [CROSSBAR_HOSTS]
def rows : List FRow :=
  rows0

end Sys2Proof.Machine.XBAR
end

