-- ==== Sys2Proof/Machine/Crc.lean ====
section
/-!
DEFINITION. The CRC-32C of the containers (02_bitstream.md R58), the factory peer ID (R93) and the key of a stored
register field.
-/

namespace Sys2Proof.Machine

/-- One byte into the CRC-32C of R58, reflected form. -/
def crc32cByte (c b : Nat) : Nat :=
  (List.range 8).foldl (fun c _ => if c % 2 = 1 then (c / 2) ^^^ 0x82F63B78 else c / 2) (c ^^^ b)

/-- The CRC-32C of R58 over bytes in ascending order. -/
def crc32c (bs : List Nat) : Nat := (bs.foldl crc32cByte 0xFFFFFFFF) ^^^ 0xFFFFFFFF

/-- The factory peer ID (R93) of serial number `n`: bit 31 set, bits 30 to 0 of the CRC-32C of its eight bytes. -/
def factoryPeer (n : Nat) : Nat :=
  2 ^ 31 + crc32c ((List.range 8).map (fun i => n / 256 ^ i % 256)) % 2 ^ 31

/-- The key of a stored register field in the bank. -/
def Fld.key (f : Fld) : Nat := f.addr * 32 + f.lsb

end Sys2Proof.Machine
end

