-- ==== Sys2Proof/Machine/SMap.lean ====
section
/-!
DEFINITION. The keyed tables of the state: reading a key, writing a key in canonical form, dropping keys, and the Boolean
that says the form holds.
-/

namespace Sys2Proof.Machine

/-- The value of key `k`; `d` where it is unlisted. -/
def SMap.get {α : Type} (m : SMap α) (d : α) (k : Nat) : α :=
  match m with
  | [] => d
  | (j, v) :: r => if j = k then v else SMap.get r d k

/-- `m` without key `k`. -/
def SMap.erase {α : Type} (m : SMap α) (k : Nat) : SMap α := m.filter (fun p => decide (p.1 ≠ k))

/-- The pair (`k`, `v`) put in front of the first greater key. -/
def SMap.insert {α : Type} (m : SMap α) (k : Nat) (v : α) : SMap α :=
  match m with
  | [] => [(k, v)]
  | (j, w) :: r => if k < j then (k, v) :: (j, w) :: r else (j, w) :: SMap.insert r k v

/-- `m` with key `k` reading `v`, where unlisted keys read `d`: writing `d` removes the key. -/
def SMap.set {α : Type} [DecidableEq α] (m : SMap α) (d : α) (k : Nat) (v : α) : SMap α :=
  if v = d then m.erase k else (m.erase k).insert k v

/-- `m` without the keys that satisfy `p`. -/
def SMap.drop {α : Type} (m : SMap α) (p : Nat → Bool) : SMap α := m.filter (fun e => !p e.1)

/-- Consecutive keys from `k` written with the values `vs`. -/
def SMap.setRun {α : Type} [DecidableEq α] (m : SMap α) (d : α) (k : Nat) (vs : List α) : SMap α :=
  match vs with
  | [] => m
  | v :: r => SMap.setRun (m.set d k v) d (k + 1) r

/-- The values of `n` consecutive keys from `k`. -/
def SMap.getRun {α : Type} (m : SMap α) (d : α) (k n : Nat) : List α :=
  (List.range n).map (fun i => m.get d (k + i))

/-- Every key from `k` to `k + n - 1` set to `v`, where `v` differs from the unlisted value only if `v ≠ d`. -/
def SMap.fillRun {α : Type} [DecidableEq α] (m : SMap α) (d : α) (k n : Nat) (v : α) : SMap α :=
  if v = d then m.drop (fun j => decide (k ≤ j) && decide (j < k + n))
  else (m.drop (fun j => decide (k ≤ j) && decide (j < k + n))).setRun d k (List.replicate n v)

/-- The keys of `m` strictly rise, each greater than every key before it. -/
def SMap.rising {α : Type} (m : SMap α) : Bool :=
  match m with
  | [] => true
  | (j, _) :: r => r.all (fun e => decide (j < e.1)) && SMap.rising r

/-- The canonical form: keys strictly rising and no pair that holds the unlisted value `d`. -/
def SMap.wf {α : Type} [DecidableEq α] (m : SMap α) (d : α) : Bool :=
  SMap.rising m && m.all (fun e => decide (e.2 ≠ d))

end Sys2Proof.Machine
end

