-- ==== Sys2Proof/Machine/State.lean ====
section
/-!
DEFINITION. The state of the block as plain data: the register bank, and typed state for every memory, queue, table and
sequencer the spec gives the device; the outcomes; the state right after reset.
-/

namespace Sys2Proof.Machine

/-- Why a step faults.  No meaning of this model faults: every command has an effect (NOTES.md, 'Stops'). -/
inductive Fault where
  /-- Raised by no command; kept so that the outcome type has a fault.  Safe. -/
  | none
  deriving DecidableEq, Repr

/-- Why a command is refused. -/
inductive Refusal where
  /-- A command of the table that has no meaning yet, by its mnemonic.  Safe: the model stops. -/
  | notModelled (mnemonic : String)
  deriving DecidableEq, Repr

/-- The two orderable variants (00_scope.md R1 to R3). -/
inductive Variant where
  | m2 | m0
  deriving DecidableEq, Repr

/-- A byte of an SRAM or of D3: its value and its poison mark (11_memory.md R348, R349). -/
structure MByte where
  val : Byte
  poison : Bool
  deriving DecidableEq, Repr

/-- An unwritten byte: it carries the poison mark (R349); its value 0 is a DESIGN CHOICE (log 10). -/
def MByte.unwritten : MByte := ⟨0, true⟩

/-- A clean zero byte, the content of the memories that a reset fills with zeros. -/
def MByte.zero : MByte := ⟨0, false⟩

/-! ### Management -/

/-- Completion status codes (15_management.md R431), in order of code. -/
inductive Status where
  | ok | badOpcode | badArgument | busy | abortedFault | abortedPower | poison | noMemory | loaderError | notFound
  | noSlot | dirFull | content | badGroup | notGroup | notTrained | cacheFull | applyFailed | badEntry | full
  | tooSoon | due | empty | nothingPending | badState | testFailed | inService | retired | notAvailable
  deriving DecidableEq, Repr

/-- The command engines of R428. -/
inductive Engine where
  | loader | context | schedule | capture (die : Nat) | memory | test | time | core
  deriving DecidableEq, Repr

/-- A command taken by the Mace core and not complete: its engine and its eight words (R427, R428). -/
structure Taken where
  engine : Engine
  words : List Nat
  deriving DecidableEq, Repr

/-- One completion entry (R429). -/
structure Completion where
  tag : Nat
  opcode : Nat
  status : Status
  detail : Nat
  result0 : Nat
  result1 : Nat
  deriving DecidableEq, Repr

/-- What the ports last returned (R419 to R425): data words with the bytes returned of the last, acknowledge, status. -/
structure PortOut where
  ack : Bool
  words : List Nat
  bytes : Nat
  status : Nat
  ident : Nat
  deriving DecidableEq, Repr

/-- The ports, the command ring, the engines and the completion queue. -/
structure Mgmt where
  /-- Current address of the MGMT port (R420). -/
  addr : Nat
  /-- The last transfer's answer. -/
  out : PortOut
  /-- Commands taken and not complete, oldest first. -/
  taken : List Taken
  /-- The completion queue, head first. -/
  cpls : List Completion
  /-- DATA_OK of the last BULK read (R424, R425). -/
  dataOk : Bool
  deriving DecidableEq, Repr

/-- The interrupt controller's own state (R435 to R438); priorities, enables, targets and counts are registers. -/
structure Intc where
  /-- Outstanding claims of target 0, newest first: source and the priority it was claimed at. -/
  claims : List (Nat × Nat)
  /-- IRQ_N is driven low. -/
  irqLow : Bool
  /-- The tick of the last delivery to target 0 and to target 1. -/
  last0 : Option Nat
  last1 : Option Nat
  deriving DecidableEq, Repr

/-! ### Credit queues -/

/-- One credit queue with its monitor (01_architecture.md R39 to R44). -/
structure QueueSt where
  credits : Nat
  entries : List QEntry
  transit : Nat
  hwm : Nat
  starveLimit : Nat
  starveEn : Bool
  ovf : Bool
  starve : Bool
  creditErr : Bool
  /-- Consecutive cycles its active consumer has found it empty. -/
  waited : Nat
  deriving DecidableEq, Repr

/-! ### Line lanes -/

/-- The receive states of 03_line_receive.md R115. -/
inductive RxState where
  | off | dark | gain | cal | cdr | blind | dd | train | search | track | warm | idwait
  deriving DecidableEq, Repr

/-- The adaptive quantities with their accumulators: every value is held in units of 2^-12 of its field's least
significant bit (R106 to R111). -/
structure Equaliser where
  /-- 72 tap accumulators, by chain tap. -/
  taps : List Int
  /-- 64 level accumulators, index `4 * state + q(d)`. -/
  levels : List Int
  a1 : Int
  a2 : Int
  b : Int
  deriving DecidableEq, Repr

/-- One survivor path of the detector: metric, symbols newest first, reliabilities per symbol (first and second bit), and
the last noise errors (R107, R109, R110). -/
structure Path where
  metric : Int
  syms : List Int
  rel : List (Int × Int)
  eps : List Int
  deriving DecidableEq, Repr

/-- The trained receive and transmit state that a context carries (R123, 05_line_transmit.md R189): field values. -/
structure Trained where
  taps : List Int
  levels : List Int
  a1 : Nat
  a2 : Nat
  b : Int
  freqI : Int
  phase : Nat
  corr : List Nat
  gain : Nat
  txTaps : List Int
  bcnCh : Nat
  calWord : Nat
  deriving DecidableEq, Repr

/-- One run counter of the lock unit (04_inner_code.md R157), with the position in the run of a group-cover match. -/
structure Run where
  count : Nat
  streamB : Bool
  /-- Candidates since the last group-cover match of the run, and that candidate's stream. -/
  group : Option (Nat × Bool)
  deriving DecidableEq, Repr

/-- The hold-off timer of the light detector (08_beacon.md R284): the new level and the tick of the crossing. -/
structure LightTimer where
  rise : Bool
  tick : Nat
  deriving DecidableEq, Repr

/-- The running sums of a measurement window (R125 to R127). -/
structure Meas where
  sig : Nat
  err : Nat
  cw : Nat
  flip : Nat
  unc : Nat
  clip : Nat
  /-- The lane was in TRACK in every cycle so far. -/
  allTrack : Bool
  deriving DecidableEq, Repr

/-- A swap or re-placement under way in a lane: the failed tiles whose roles it fills, and the candidates being loaded for
them, in order (14_selftest_faults.md R409 to R411, R416). -/
structure Swap where
  failed : List Nat
  cands : List Nat
  deriving DecidableEq, Repr

/-- What a tracking interval has gathered of one sub-ADC (R98): its samples, and the sums of the raw samples, of the magnitudes
of the corrected samples and of the products (x_(s+1) - x_(s-1)) x_s. -/
structure SubAcc where
  n : Nat
  raw : Int
  mag : Nat
  cor : Int
  deriving DecidableEq, Repr

/-- A 272-bit word of decisions with its reliabilities and its local poison mark. -/
structure SoftWord where
  bits : Nat
  rel : List Nat
  poison : Bool
  deriving DecidableEq, Repr

/-- The receive datapath's histories, newest first, and counters (R96, R106, R107). -/
structure RxPath where
  /-- Words sampled since the lane's enable, those lost to an overflow included (R96). -/
  sampled : Nat
  /-- Words the FFE has taken since the lane's enable, and words the detector has taken. -/
  cycles : Nat
  detWords : Nat
  xs : List Int
  ys : List Int
  ds : List Int
  paths : List Path
  /-- The last equalised sample that the slicer has decided. -/
  yLast : Int
  /-- The word of decisions before the head of the MLSE to DEC queue (04_inner_code.md R157). -/
  prev : Option SoftWord
  /-- The 64 sub-ADCs over the tracking interval so far (R98). -/
  subs : List SubAcc
  /-- Cycles of the AGC measurement so far and the sum of the squares of its corrected samples (R100). -/
  agcN : Nat
  agcSum : Nat
  /-- Cycles of the window of votes so far and the sum of their votes (R104). -/
  voteN : Nat
  voteSum : Int
  /-- Cycles for which CDR_LOCK has been held in the state CDR (R115). -/
  lockHeld : Nat
  /-- Used positions of the exit measure of BLIND or DD so far, and what it sums: positions near a level in BLIND, squared
  errors in units of 2^-16 in DD (R115). -/
  exitN : Nat
  exitSum : Nat
  /-- The candidate start being measured for a segment, the cycles so far and the twelve sums G(s) to G(s + 11) (R130). -/
  segS : Nat
  segN : Nat
  segG : List Int
  deriving DecidableEq, Repr

/-- The transmit half's own state (05_line_transmit.md R175 to R188). -/
structure TxHalf where
  /-- Precoder state v. -/
  v : Nat
  /-- The last codeword formed was of stream b. -/
  lastB : Bool
  /-- The last six level values, newest first. -/
  lvls : List Int
  /-- The DAC codes last sent. -/
  dac : List Int
  commitPending : Bool
  patternNext : Option Nat
  patternNow : Nat
  patternPos : Nat
  /-- The last codeword formed. -/
  codeword : Nat
  /-- Symbols of the codeword under way that still wait for their DAC codes: 0 after a release, 2 between codewords. -/
  sent : Nat
  /-- Active taps, beacon amplitude and full-scale swing of the codeword under way (R188). -/
  nowTaps : List Int
  nowAmp : Nat
  nowFs : Nat
  /-- The differential output at the symbols last sent, in units of 1/510 mV (R180). -/
  out : List Int
  /-- The transmit state of an applied context that waits for the next codeword boundary (R189), with the beacon's part on the
  lowest lane. -/
  txLoad : Option (Trained × Bool)
  deriving DecidableEq, Repr

/-- A line lane. -/
structure LaneSt where
  eq : Equaliser
  freqI : Int
  phase : Nat
  /-- CDR_LOCK has been set since entry to WARM (R102). -/
  warmLocked : Bool
  rxp : RxPath
  /-- Consecutive measurements, intervals or windows that met an exit condition (R100, R104, R115). -/
  hold : Nat
  quiet : Nat
  lightTimer : Option LightTimer
  runs : SMap Run
  cwNum : Nat
  lockB : Bool
  /-- The last 32 counted codewords, newest first; true is a non-zero syndrome (R161). -/
  window : List Bool
  /-- Codewords until the next group start, and its stream (R165 to R167). -/
  cadence : Option (Nat × Bool)
  noGroup : Nat
  /-- The codeword last delivered: message bits, status (R155). -/
  delivered : Option (Nat × Nat)
  /-- The last three codewords of stream a and b, newest first, with their forced marks (R145, R169). -/
  rxRowsA : List (Nat × Bool)
  rxRowsB : List (Nat × Bool)
  /-- The rows last completed of each stream, with the row flag. -/
  rowA : Option (Nat × Bool)
  rowB : Option (Nat × Bool)
  /-- The next codeword that D0 receives is expected to be of stream b. -/
  d0NextB : Bool
  tx : TxHalf
  /-- The last four rows of each stream of the transmit interleave, newest first (R145). -/
  txRowsA : List Nat
  txRowsB : List Nat
  /-- A first half of a row waiting for its second 128 bits, with its poison (06_host_side.md R201). -/
  halfA : Option (Nat × Bool)
  halfB : Option (Nat × Bool)
  /-- Position in the group cadence of the codewords D0 forms (R164, R165). -/
  txCount : Nat
  meas : Meas
  histoLeft : Nat
  histoTrack : Bool
  ckpt : Option Trained
  captured : Option Trained
  /-- The lane was in syndrome lock when the partial-reload outage started (02_bitstream.md R87). -/
  capLocked : Bool
  swap : Option Swap
  /-- Failed tiles that wait for the swap of the region to end (14_selftest_faults.md R416). -/
  waiting : List Nat
  capWin : SMap Byte
  /-- Codewords in the pipeline that are forced uncorrectable when they are delivered (R51, R48). -/
  forced : Nat
  /-- A lane record is being loaded (R124), and a RESTART or PRESET_LOAD that waits for it: its own entry is no stop point
  if true. -/
  loading : Bool
  restartDue : Option Bool
  /-- The lane is held disabled and its retest is due: its die was reset or its region reloaded since (R405). -/
  retestDue : Bool
  deriving DecidableEq, Repr

/-- One pool extension (R106, R110, R129): FFE segment or noise predictor. -/
structure PoolExt where
  ffe : Bool
  start : Nat
  g : List Int
  p1 : Int
  p2 : Int
  deriving DecidableEq, Repr

/-- The pool of a region: attached extensions of P0 and P1, the lane that holds them, and the placement engine's own
state (R129 to R131). -/
structure Pool where
  holder : Option Nat
  ext0 : Option PoolExt
  ext1 : Option PoolExt
  streak : Nat
  /-- Halvings left of a withdrawal, and the lane that takes the extensions afterwards. -/
  withdraw : Option (Nat × Nat)
  /-- Candidate starts measured for the segment search: lane, start and measure m. -/
  segs : List (Nat × Nat × Nat)
  deriving DecidableEq, Repr


/-! ### Host side -/

/-- What a host transmitter sends (06_host_side.md R196, R203, R204, R212). -/
inductive HostOut where
  /-- Differential zero. -/
  | zero
  /-- The fault stream: continuous Local Fault in a valid stream of the port type. -/
  | faultStream
  /-- The line's bits (mode T). -/
  | lineBits
  /-- The stream of the Nutmeg read side (mode R). -/
  | readSide
  deriving DecidableEq, Repr

/-- Why a Nutmeg gap is under way (R211, R213). -/
inductive GapCause where
  | lockLoss | starvation
  deriving DecidableEq, Repr

/-- One transmit stream of a mode-R lane (06_host_side.md R208): blocks of the eighty not yet complete, the scrambler, coded bits not
yet sent, first bit first, and whether its row 0 has been sent. -/
structure StreamEnc where
  blocks : List Block66
  scr : Nat
  bits : List Bool
  started : Bool
  deriving DecidableEq, Repr

/-- One received stream of a mode-R lane (R164, R210): codewords since one that began a group, the bits of the RS codeword under way,
each with its row flag, the RS codewords complete, each with whether a flagged row supplied it and whether it begins a group, and
the descrambler. -/
structure StreamDec where
  since : Option Nat
  bits : List (Bool × Bool)
  cws : List (List Bool × Bool × Bool)
  scr : Nat
  deriving DecidableEq, Repr

/-- A clause 119 stream toward the host lanes of a port (R204, R209): blocks of the codeword under way, its block slots used, the
scrambler, codewords since the last alignment markers, the first codeword of a pair, and coded bits not yet sent on each physical
lane. -/
structure HostEnc where
  blocks : List Block66
  slot : Nat
  scr : Nat
  num : Nat
  first : Option (List Nat)
  bitsA : List Bool
  bitsB : List Bool
  deriving DecidableEq, Repr

/-- A clause 119 receive under alignment-marker lock (R202, R205): bits before the first pair of codewords and bits of the pair under
way on each physical lane, codewords complete, the number of the next one since the last markers, and the descrambler. -/
structure HostDec where
  skipA : Nat
  skipB : Nat
  bitsA : List Bool
  bitsB : List Bool
  num : Nat
  cws : List (List Nat)
  scr : Nat
  deriving DecidableEq, Repr

/-- A line-to-host monitoring engine (R202, R203): as HostDec, each bit with its row flag, and for each codeword complete whether it was
marked. -/
structure Monitor where
  skipA : Nat
  skipB : Nat
  bitsA : List (Bool × Bool)
  bitsB : List (Bool × Bool)
  cws : List Bool
  deriving DecidableEq, Repr

/-- One port of a line lane, in both directions. -/
structure PortSide where
  /-- The transmit adaptation FIFO, oldest first (R206). -/
  txFifo : List Block66
  txWriteOpen : Bool
  txReadOpen : Bool
  /-- The write side discards up to the next clean point (R206, R207). -/
  txDiscard : Bool
  /-- The transmit direction is in a gap (R207). -/
  hostGap : Bool
  /-- The causes of the gap have cleared, and it ends at the next clean point (R207). -/
  txResume : Bool
  /-- A host receive queue of the port overflowed or starved and no row has followed yet (R207). -/
  hostFault : Bool
  /-- The host-to-line receive of the port, the stream of its read side, its fault stream, and its line-to-host monitor. -/
  dec : HostDec
  enc : HostEnc
  fault : HostEnc
  mon : Monitor
  /-- The Nutmeg buffer, oldest first, each entry with its poison mark (R209). -/
  nm : List (Block66 × Bool)
  nmWriteOpen : Bool
  nmReadOpen : Bool
  nmDiscard : Bool
  /-- The read side reads from the buffer (R213). -/
  reading : Bool
  gapCause : Option GapCause
  /-- The rest of the current RS codeword is a gap (R216). -/
  ovfSkip : Bool
  /-- HOLD_TIME has elapsed and reads have not begun again: Local Fault in place of idle (R212, R213). -/
  lf : Bool
  /-- Fractions of a block slot carried over, in units of 1/17 (R208, R214). -/
  txAcc : Nat
  rxAcc : Nat
  /-- The block last sent in each direction. -/
  lastTx : Option Block66
  lastRx : Option Block66
  deriving DecidableEq, Repr

/-- The two ports of a line lane; under BREAKOUT 0 the 400G port is port A (R198, R222). -/
structure Port where
  a : PortSide
  b : PortSide
  /-- The stream whose set is due next under BREAKOUT 0 (R208, R217). -/
  setTurnB : Bool
  /-- Sets of stream b that arrived before their turn. -/
  setsB : List (List (Block66 × Bool))
  setsA : List (List (Block66 × Bool))
  /-- After a gap, each stream waits for an RS codeword that begins a group (R213). -/
  awaitA : Bool
  awaitB : Bool
  /-- The streams of a mode-R lane, each way, and the stream that takes the next eighty blocks under BREAKOUT 0 (R208). -/
  encA : StreamEnc
  encB : StreamEnc
  encTurnB : Bool
  decA : StreamDec
  decB : StreamDec
  /-- Mode T: entries of each stream toward the line that wait for their turn, and whose turn it is (R162). -/
  rowsA : List QEntry
  rowsB : List QEntry
  rowTurnB : Bool
  /-- Mode T: bits of each stream toward its host lane that no entry carries yet (R203). -/
  outA : List Bool
  outB : List Bool
  deriving DecidableEq, Repr

/-- A host lane: what its transmitter sends; the receiver's state is registers (R196). -/
structure HostSt where
  out : HostOut
  /-- The 64 symbols last sent, as level indices, the first one in the top two bits (R195). -/
  sent : Nat
  /-- The precoder's last index, and the last index received (R195). -/
  txPrev : Nat
  rxPrev : Nat
  deriving DecidableEq, Repr

/-! ### Line dies and captures -/

/-- The word of one cycle in the capture buffer (R133): the tick at which it passed the capture point, the sub-ADC of its
position 0, its poison mark and its bytes. -/
structure CapWord where
  tick : Nat
  subadc : Nat
  poison : Bool
  bytes : List Nat
  deriving DecidableEq, Repr

/-- A capture under way on a line die (03_line_receive.md R132 to R135). -/
structure CaptureSt where
  lane : Nat
  point : Nat
  dest : Nat
  trigger : Nat
  pre : Nat
  len : Nat
  timeout : Nat
  startTick : Nat
  /-- The stamp of the trigger event, once it has occurred on the lane. -/
  event : Option Nat
  triggered : Bool
  /-- The trigger or the timeout has come, in the receive state `stateAt`. -/
  ended : Bool
  stateAt : Nat
  trigTick : Nat
  preActual : Nat
  /-- The receive state changed during the capture. -/
  changed : Bool
  /-- The words kept, newest first. -/
  words : List CapWord
  deriving DecidableEq, Repr

/-- A line die (01_architecture.md R23; 16_register_map.md R455). -/
structure DieSt where
  inReset : Bool
  powered : Bool
  /-- Re-application by the loader is due (02_bitstream.md R81). -/
  reapply : Bool
  capture : Option CaptureSt
  deriving DecidableEq, Repr


/-! ### Loader -/

/-- One section of an image (02_bitstream.md R59, R60). -/
structure Section where
  typ : Nat
  region : Nat
  bytes : List Nat
  deriving DecidableEq, Repr

/-- An image that has passed every check of R75, or the factory image (R92). -/
structure Image where
  /-- 1 slot A, 2 slot B, 3 factory slot 0. -/
  slot : Nat
  serial : Nat
  lock : Bool
  debug : Bool
  key : Nat
  sections : List Section
  deriving DecidableEq, Repr

/-- A slot write under way (R82): the slot, the bytes appended so far and the 64 header bytes held in D0. -/
structure SlotWrite where
  slot : Nat
  offset : Nat
  header : List Nat
  deriving DecidableEq, Repr

/-- The configuration that D0 retains (R81), and the flags of the running full image. -/
structure Retained where
  tilemaps : List (List Nat)
  lanemap : List Nat
  datapath : List Nat
  reginit : List (Nat × Nat × Nat)
  engine : List Nat
  lock : Bool
  debug : Bool
  deriving DecidableEq, Repr

/-- A partial reload whose outage is under way (R86). -/
structure Partial where
  region : Nat
  tilemap : List Nat
  datapath : Option (List Nat)
  reginit : List (Nat × Nat × Nat)
  deriving DecidableEq, Repr

/-- The loader (R76 to R90). -/
structure LoaderSt where
  staging : SMap MByte
  /-- A LOAD_IMAGE operation runs; the code it will report when it completes (R84). -/
  run : Option Nat
  write : Option SlotWrite
  /-- Slots still to be tried at this boot (R76). -/
  toTry : List Nat
  /-- The slot that a BOOT operation named for the next boot. -/
  named : Option Nat
  accepted : Option Image
  retained : Option Retained
  part : Option Partial
  /-- RWL locks of D0, D1 and D2 (R13, R78, R81). -/
  locks : List Bool
  /-- The Mace code RAM and the address at which the core was released (R68, R78). -/
  codeRam : SMap MByte
  coreEntry : Option Nat
  /-- The boot load ended in the no-image state (R80). -/
  noImage : Bool
  /-- A set of calibration values whose line items wait for the end of an outage on their die (11_memory.md R358, R359). -/
  calDue : Option (SMap Int)
  deriving DecidableEq, Repr

/-- The states of a public-key hash slot (R73). -/
inductive KeyState where
  | empty | valid | revoked
  deriving DecidableEq, Repr

/-- A public-key hash slot. -/
structure KeySlot where
  state : KeyState
  hash : List Nat
  deriving DecidableEq, Repr

def LoaderSt.fresh (order : List Nat) : LoaderSt :=
  { staging := [], run := none, write := none, toTry := order, named := none, accepted := none, retained := none,
    part := none, locks := [false, false, false], codeRam := [], coreEntry := none, noImage := false,
    calDue := none }


/-! ### Power -/

/-- The VIN entry (12_power.md R363, R364). -/
inductive VinSt where
  | off | debounce | softstart | up | ovStop | ocStop
  deriving DecidableEq, Repr

/-- A WAIT under way (R373): whether the changes of groups and regions have been started, and the target STATE. -/
structure WaitSt where
  words : List Nat
  target : Nat
  /-- The change of STATE has been started. -/
  stateBegun : Bool
  deriving DecidableEq, Repr

/-- Power entry, start-up, power states and the resets (12_power.md). -/
structure PowerSt where
  vin : VinSt
  /-- Stages 1 to 6 whose rails are up: bit k is stage k. -/
  railsUp : Nat
  /-- Stage 6 has started at the ENGINE step and not passed (R367). -/
  stage6 : Bool
  /-- The failed stage that waits for its retry (R369). -/
  retry : Option Nat
  /-- The failed stage that FAULT_N still shows (R369). -/
  shown : Option Nat
  /-- D0 is held in reset. -/
  d0Reset : Bool
  bistRunning : Bool
  /-- The start-up sequence under way ends with power-up BIST (R366, R378). -/
  bistDue : Bool
  /-- Power-up BIST found the repair map bad: MAP_BAD is due once D0 leaves reset (14_selftest_faults.md R403). -/
  mapBad : Bool
  refclk : Bool
  /-- RESET_N is asserted. -/
  resetN : Bool
  /-- A wake from DEEP_STANDBY is under way, with the slot that was running (R378). -/
  wake : Option Nat
  /-- Domains that are draining (R381), and domains that are being powered or released again (R374, R375). -/
  drains : List Domain
  returns : List (Domain × Bool)
  wait : Option WaitSt
  /-- The package is leaving IDLE (R376). -/
  leavingIdle : Bool
  save : SMap MByte
  deriving DecidableEq, Repr

/-! ### Time -/



/-- One kept segment (09_time.md R291): its first tick, its time in units of 2^-48 ns, its RATE_ADJ. -/
structure Seg where
  tick : Nat
  time : Nat
  rate : Int
  deriving DecidableEq, Repr

/-- A step that waits for the segment boundary (R298, R300). -/
inductive StepReq where
  /-- By PEND of the moment. -/
  | accept
  /-- To the time loaded. -/
  | load
  /-- The first step of the servo: by `-e`, in units of 2^-48 ns, with the frame's EPOCH under Sumac. -/
  | first (e : Int) (epoch : Option Nat)
  deriving DecidableEq, Repr

/-- A used edge of TIME_PPS (R294): its tick, the package time and the local time at it, and whether it has given a
measurement. -/
structure PpsEdge where
  tick : Nat
  time : Nat
  locl : Int
  measured : Bool
  deriving DecidableEq, Repr

/-- The time base. -/
structure TimeSt where
  /-- D0's tick counter, which every line die's counter equals (01_architecture.md R52). -/
  tick : Nat
  /-- The kept segments, newest first, at most 256 (R291). -/
  segs : List Seg
  /-- The acting source: SRC as of the last boundary (R293). -/
  src : Nat
  /-- The servo's phase term, and the one in force in the present segment (R298). -/
  q : Int
  qNow : Int
  /-- PEND in units of 2^-48 ns as of tick `pendTick` (R299). -/
  pend : Int
  pendTick : Nat
  step : Option StepReq
  /-- A TIME_ACCEPT has been accepted and waits for the boundary (R300). -/
  waiting : Bool
  /-- The next edge is used whatever its spacing (R294). -/
  firstEdge : Bool
  /-- The tick at which the acting source was last heard: its last used edge or good frame, or else its start (R298). -/
  heard : Nat
  /-- Used edges, newest first (R294). -/
  edges : List PpsEdge
  /-- The sum of every step so far, in units of 2^-48 ns: local time is package time less this sum (R294). -/
  stepSum : Int
  /-- A measurement has been taken since reset, or since CCLK last stopped (R292, R298). -/
  measured : Bool
  /-- The EPOCH of the last good Sumac frame (R300). -/
  epochIn : Nat
  /-- An ordinary measurement has been taken since reset (R276). -/
  disciplined : Bool
  /-- The next frame of the master carries STEP, and the last frame sent (R296). -/
  stepFlag : Bool
  frame : List Nat
  deriving DecidableEq, Repr

/-- The states of a schedule position (R304, R312), by their codes: 0 EMPTY, 1 PENDING, 2 FIRED, 3 SKIPPED; the reason,
the 16 entry bytes, and the poison mark of the position. -/
structure SchedPos where
  st : Nat
  reason : Nat
  bytes : List Nat
  poison : Bool
  deriving DecidableEq, Repr

/-- The schedule table and what triggered in the present CCLK (R302 to R306). -/
structure SchedSt where
  pos : SMap SchedPos
  /-- The due queue (R305): positions drawn, oldest first. -/
  dueQ : List Nat
  trigTick : Nat
  trigCount : Nat
  /-- Lanes that a SQUELCH entry of this CCLK named (R305). -/
  squelched : List Nat
  deriving DecidableEq, Repr

/-- A trigger line (R307, R308): the armed configuration, the index of the next pulse, and the widths of the pulses under
way, in ns. -/
structure TrigLine where
  mode : Nat
  start : Nat
  period : Nat
  width : Nat
  count : Nat
  /-- POL as the last ARM took it (R308). -/
  pol : Bool
  next : Nat
  pulses : List Nat
  deriving DecidableEq, Repr

/-- An EMPTY position. -/
def SchedPos.empty : SchedPos := { st := 0, reason := 0, bytes := List.replicate 16 0, poison := false }

def TrigLine.fresh : TrigLine := { mode := 0, start := 0, period := 0, width := 8, count := 0, pol := false, next := 0, pulses := [] }

/-- The time base at the end of D0 reset (R289; log 7). -/
def TimeSt.fresh : TimeSt :=
  { tick := 0, segs := [⟨0, 0, 0⟩], src := 0, q := 0, qNow := 0, pend := 0, pendTick := 0, step := none, waiting := false,
    firstEdge := true, heard := 0, edges := [], stepSum := 0, measured := false, epochIn := 0, disciplined := false, stepFlag := false, frame := [] }



/-! ### Beacon -/

/-- A beacon frame that waits for its start (08_beacon.md R269): its type and the tick at which it fell due. -/
structure HeldFrame where
  full : Bool
  due : Nat
  deriving DecidableEq, Repr

/-- A frame being sent: type, modulation, channel, payload bytes as far as they are fixed, and the departure tick of its
reference symbol (R265, R275, R276). -/
structure TxFrame where
  full : Bool
  fsk4 : Bool
  ch : Nat
  body : List Nat
  departed : Option Nat
  /-- Eighths of a DAC symbol since its first symbol began (R179, R262). -/
  pos : Nat
  deriving DecidableEq, Repr

/-- A frame being received: its type, arrival tick and RSSI (R280). -/
structure RxFrame where
  full : Bool
  arrived : Nat
  rssi : Int
  deriving DecidableEq, Repr

/-- The beacon of a line lane. -/
structure BcnLane where
  held : Option HeldFrame
  frame : Option TxFrame
  /-- A transmit channel that takes effect at the end of the frame under way (R270). -/
  chNext : Option Nat
  /-- The tick at which the PERIOD grid started (R268). -/
  grid : Nat
  /-- The payload of the last frame sent whole. -/
  lastSent : List Nat
  rx : Option RxFrame
  /-- The noise window under way has not been idle throughout (R278). -/
  noiseDirty : Bool
  /-- The phase of the subcarrier, continuous across symbols and frames (R262); a turn is `beaconTurn`. -/
  phase : Nat
  deriving DecidableEq, Repr

/-- A beacon synthesiser (R271 to R273); its words and status are registers. -/
structure SynSt where
  /-- The channel a hop under way goes to. -/
  hop : Option Nat
  /-- The next channel of the background calibration; 16 when it is complete. -/
  bg : Nat
  deriving DecidableEq, Repr

def BcnLane.fresh : BcnLane :=
  { held := none, frame := none, chNext := none, grid := 0, lastSent := [], rx := none, noiseDirty := false, phase := 0 }

def SynSt.fresh : SynSt := { hop := none, bg := 16 }

/-! ### Memory -/

/-- A 64-bit word of D3: its value, the poison encoding, and whether anything has written it (11_memory.md R339, R342). -/
structure D3Word where
  val : Nat
  poison : Bool
  written : Bool
  /-- What the cells of the word have lost since its last write (R341, R343). -/
  err : WordErr
  deriving DecidableEq, Repr

/-- A word of D3 that nothing has written: delivered poisoned (R339; log 10). -/
def D3Word.unwritten : D3Word := ⟨0, true, false, .clean⟩

/-- The memory controller (R337 to R347). -/
structure MemSt where
  /-- D3 by word number, from window address 0x4000_0000. -/
  d3 : SMap D3Word
  /-- The retraining under way is the second one of a pair. -/
  second : Bool
  /-- Both retrainings of a pair failed: MEM_FAIL (R345). -/
  failed : Bool
  /-- The refresh band that the good readings select, and the last ten good readings, newest first (R346). -/
  base : Nat
  temps : List Int
  /-- A higher band that waits for an apply read to end (R359). -/
  bandDue : Option Nat
  /-- Banks whose refresh an apply read defers, and the tick of each bank's last refresh (07_peer_contexts.md R251). -/
  deferred : List Nat
  refreshed : SMap Nat
  /-- Bursts that wait for the controller, in order of arrival (R340). -/
  reqs : List MemReq
  /-- For each class that waits, the background bursts of higher classes served since it was last (R340). -/
  behind : SMap Nat
  /-- How many transfers of the next host window access fail their link CRC (R344). -/
  crcNext : Nat
  /-- Host window writes that wait for a retraining to end: address and value (R345). -/
  hostWrites : List (Nat × Nat)
  /-- A write that failed its link CRC four times and waits for the retraining: address and bytes (R344). -/
  heldWrite : Option (Nat × List MByte)
  /-- The scrubbed block that waits to be rewritten (R347). -/
  rewrite : Option Nat
  /-- The last read burst delivered. -/
  lastRead : List MByte
  /-- The write offset of the capture ring (03_line_receive.md R136). -/
  ringOff : Nat
  deriving DecidableEq, Repr

def MemSt.fresh : MemSt :=
  { d3 := [], second := false, failed := false, base := 0, temps := [], bandDue := none, deferred := [], refreshed := [], reqs := [], behind := [], crcNext := 0, hostWrites := [], heldWrite := none,
    rewrite := none, lastRead := [], ringOff := 0 }

/-! ### Contexts -/

/-- A directory entry (07_peer_contexts.md R233), with the poison mark of its storage. -/
structure DirEntry where
  peer : Nat
  group : Nat
  slot : Nat
  valid : Bool
  pin : Bool
  poison : Bool
  deriving DecidableEq, Repr

/-- An entry of zeros. -/
def DirEntry.zero : DirEntry := { peer := 0, group := 0, slot := 0, valid := false, pin := false, poison := false }

/-- The states of a cache line (R246). -/
inductive LineState where
  | free | filling | valid | inUse
  deriving DecidableEq, Repr

/-- A cache line (R246, R247): `due` is the latest entry time it is held for, in the units of the time base. -/
structure CacheLine where
  slot : Nat
  st : LineState
  pin : Bool
  due : Nat
  lastUse : Nat
  /-- A burst of the fill under way was delivered poisoned. -/
  bad : Bool
  /-- Blocks of the fill under way that a burst has read. -/
  seen : List Nat
  /-- The slot whose content replaces that of the line once no apply reads it (R242). -/
  next : Option Nat
  deriving DecidableEq, Repr

def CacheLine.fresh : CacheLine :=
  { slot := 0, st := .free, pin := false, due := 0, lastUse := 0, bad := false, seen := [], next := none }

/-- Where an apply stands (R237). -/
inductive ApplyPhase where
  /-- Queued behind an apply of the same group whose transfer has started. -/
  | queued
  /-- Its records are being read into the apply buffers. -/
  | reading
  /-- Its records are being transferred over the context ports. -/
  | transfer
  /-- Each lane takes its state at its next codeword boundary. -/
  | taking
  deriving DecidableEq, Repr

/-- An apply (R237 to R240). -/
structure Apply where
  peer : Nat
  desc : Nat
  slot : Nat
  /-- The cache line it reads, if its slot was resident at lookup. -/
  line : Option Nat
  unsched : Bool
  /-- The command of an APPLY_NOW. -/
  cmd : Option (List Nat)
  phase : ApplyPhase
  /-- Lanes not yet stamped. -/
  left : List Nat
  stamped : Bool
  skipped : Bool
  /-- Blocks of the slot whose burst was delivered poisoned, those that a burst has read, and whether a word was corrected. -/
  bad : List Nat
  seen : List Nat
  corrected : Bool
  /-- The tick of its trigger (R252). -/
  trig : Nat
  /-- The slot that it looked up has been freed or rewritten since (R242). -/
  stale : Bool
  /-- It is the repeat after a tile swap (R56). -/
  repeated : Bool
  /-- It waits for a swap to be repeated (R56). -/
  waitSwap : Bool
  deriving DecidableEq, Repr

/-- An identification of a group (R254): the earliest light-on stamp, and whether its apply has started. -/
structure Ident where
  light : Nat
  applying : Bool
  deriving DecidableEq, Repr

/-- The context engine. -/
structure CtxSt where
  /-- The directory ways by bucket, and the stash (R233). -/
  w0 : SMap DirEntry
  w1 : SMap DirEntry
  stash : SMap DirEntry
  /-- Allocated slots (R242). -/
  used : SMap Bool
  /-- Slots freed while a fetch was reading them (R242). -/
  freeLater : List Nat
  lines : SMap CacheLine
  /-- The cache's bytes, at `16384 * line`. -/
  lineMem : SMap MByte
  /-- The context buffer (R258). -/
  buf : SMap MByte
  /-- The apply buffers, at `2048 * lane` (R237). -/
  applyBuf : SMap MByte
  applies : List Apply
  idents : SMap Ident
  /-- Lanes to which a context has been applied since the last light-off of their group (R227). -/
  applied : List Nat
  /-- Slots whose last fetch needed a correction and that wait for their relocation: slot and key (R248). -/
  reloc : List (Nat × Nat × Nat)
  /-- Schedule positions the placement engine has marked (R247). -/
  marked : List Nat
  /-- A burst of the context command under way was delivered poisoned, and the blocks that its bursts have read. -/
  cmdBad : Bool
  cmdSeen : List Nat
  /-- Directory, stash and cache tags have been filled with zeros after D0 reset (R236). -/
  ready : Bool
  deriving DecidableEq, Repr

def CtxSt.fresh : CtxSt :=
  { w0 := [], w1 := [], stash := [], used := [], freeLater := [], lines := [], lineMem := [], buf := [], applyBuf := [], applies := [],
    idents := [], applied := [], reloc := [], marked := [], cmdBad := false, cmdSeen := [], ready := false }

def Ident.fresh : Ident := { light := 0, applying := false }



/-! ### Temperature and faults -/

/-- A thermal sensor (13_thermal.md R386, R387, R390), newest first, in units of 0.125 degrees: its last four samples, how
many consecutive samples were identical, and the filtered temperatures of the last 10 ms. -/
structure Sensor where
  last4 : List Int
  same : Nat
  hist : List Int
  deriving DecidableEq, Repr

/-- The thermal supervisor. -/
structure ThermSt where
  sensors : SMap Sensor
  /-- Consecutive samples at which every sensor was at least 3 degrees below WARN_TH, below THROT_TH (R389). -/
  belowWarn : Nat
  belowThrot : Nat
  /-- Samples until RATE_ACTIVE clears (R390). -/
  rateLeft : Nat
  /-- Consecutive samples at which every sensor of D1, of D2, was at least 3 degrees below TRACK_TH (R391). -/
  cool1 : Nat
  cool2 : Nat
  /-- SHUTDOWN has been reached, and the dies are held in reset (R393). -/
  shutdown : Bool
  held : Bool
  /-- Consecutive samples that a shutdown's end counts (R394). -/
  calm : Nat
  /-- The tick after the last unit of background work of each requester (R392). -/
  lastUnit : SMap Nat
  deriving DecidableEq, Repr

def Sensor.fresh : Sensor := { last4 := [], same := 0, hist := [] }

def ThermSt.fresh : ThermSt :=
  { sensors := [], belowWarn := 0, belowThrot := 0, rateLeft := 0, cool1 := 0, cool2 := 0, shutdown := false, held := false, calm := 0, lastUnit := [] }

/-- Self-test under way (14_selftest_faults.md R412, R413). -/
structure TestSt where
  /-- Spares that the background round still has to test, and the one whose slice runs in each region. -/
  bgLeft : List Nat
  bgNow : SMap Nat
  /-- The tile of a BIST_RUN. -/
  run : Option Nat
  deriving DecidableEq, Repr



/-! ### Housekeeping -/

/-- A conversion under way on a converter (10_engine_housekeeping.md R322, R323). -/
inductive HkaConv where
  | seq | ref | urg (i : Nat)
  deriving DecidableEq, Repr

/-- Where the sequence of a converter stands: in an entry's conversions, in its delay, or due for the reference. -/
inductive HkaPhase where
  | conv | delay | ref
  deriving DecidableEq, Repr

/-- A converter's sequencer (R322, R326); ENTRY, LEFT, RUNNING and LP_ACTIVE are registers. -/
structure HkaSt where
  conv : Option HkaConv
  phase : HkaPhase
  /-- The entry under way, as it was read. -/
  word : Nat
  /-- RUN was cleared, and set again, while a conversion was under way. -/
  stop : Bool
  again : Bool
  /-- The 250 ns unit in which the conversion under way began (R335). -/
  began : Nat
  deriving DecidableEq, Repr

/-- A general transfer on the OE bus (R333): direction (true is a write), length, the address, OFFSET and the bytes that it sends as GO
found them, and whether a rail was lost meanwhile. -/
structure OeXfer where
  write : Bool
  len : Nat
  addr : Nat
  offset : Nat
  sent : List Nat
  aborted : Bool
  deriving DecidableEq, Repr

/-- Housekeeping (R313 to R336). -/
structure HkSt where
  hka : SMap HkaSt
  /-- The phase accumulators of the dither generators (R319), and what they contribute to each channel since the last update, in units
  of 1/16 code (R320). -/
  acc : SMap Nat
  dith : SMap Int
  /-- The strobe groups that the schedule and the trigger lines have strobed in CCLK `strobeTick` (R316). -/
  strobed : Nat
  strobeTick : Nat
  /-- OE rails lost while enabled and not good again (R317): 0 OE_3V3, 1 OE_1V8. -/
  lost : List Nat
  ring : SMap Nat
  /-- The ring entry last dropped, and the 250 ns unit of it (R335). -/
  dropped : Option (Nat × Nat)
  /-- Input queues of the telemetry channels, oldest first, and samples absorbed, newest first (R328, R329). -/
  fq : SMap (List Nat)
  fh : SMap (List Nat)
  filtOn : Bool
  latchDue : Bool
  xfer : Option OeXfer
  /-- A page read is under way; true is the one that writes the HKD fields (R332). -/
  page : Option Bool
  /-- The page read of R332 has started or failed since the last release at ENTRY. -/
  pageDone : Bool
  /-- Strobes that the device owes (R318), and the channels whose span change was the device's own. -/
  bias : Nat
  ownHold : List Nat
  deriving DecidableEq, Repr

def HkaSt.fresh : HkaSt := { conv := none, phase := .conv, word := 0, stop := false, again := false, began := 0 }

def HkSt.fresh : HkSt :=
  { hka := [], acc := [], dith := [], strobed := 0, strobeTick := 0, lost := [], ring := [], dropped := none, fq := [], fh := [], filtOn := false, latchDue := false, xfer := none,
    page := none, pageDone := false, bias := 0, ownHold := [] }

/-- The MRAM (11_memory.md R353, R354): its bytes, those not listed 0, and what the cells of a word have lost, by word number; the words not
listed read clean. -/
structure MramSt where
  bytes : SMap Byte
  err : SMap WordErr
  deriving DecidableEq, Repr

/-! ### Values at reset -/

/-- The key slots at shipment (02_bitstream.md, 'Keys and authentication'): slot 0 VALID, its hash a DESIGN CHOICE of
zeros (log 11), slots 1 to 3 EMPTY. -/
def factoryKeys : List KeySlot :=
  [⟨.valid, List.replicate 48 0⟩, ⟨.empty, List.replicate 48 0⟩, ⟨.empty, List.replicate 48 0⟩, ⟨.empty, List.replicate 48 0⟩]

/-- The bank right after reset: the factory peer ID in TX_PEER of every beacon lane (R287, R93), every other field at the
reset value of its row. -/
def factoryPeers (serial : Nat) : SMap Nat :=
  (List.range 8).map (fun n => ((BCN.TX_PEER_PEER_ID.f n).key, factoryPeer serial))

/-! ### The state -/

/-- The machine. -/
structure State where
  /-- Commands waiting, first in, first out (log 1). -/
  pending : List Instr
  /-- The number of the next free value (log 2). -/
  freeCtr : Nat
  /-- SKM-832-M2 or SKM-832-M0 (R2; log 3). -/
  variant : Variant
  /-- The factory serial number (R453; log 4). -/
  serial : BitVec 64
  /-- ADDR[2:0] (R467; log 4). -/
  strap : BitVec 3
  /-- The register bank: every field of Machine/Regs.lean that is stored, by `Fld.key`. -/
  regs : SMap Nat
  /-- The ports, engines and completion queue (R419 to R431). -/
  mgmt : Mgmt
  /-- The interrupt controller (R433 to R440). -/
  intc : Intc
  /-- Performance counts, key `64 * bank + counter` (R441). -/
  counts : SMap Nat
  /-- The credit queues, by `QueueId.key` (R39). -/
  queues : SMap QueueSt
  /-- The line lanes. -/
  lanes : SMap LaneSt
  /-- The pool of each region (R129). -/
  pools : SMap Pool
  /-- The ports of each line lane (R198). -/
  ports : SMap Port
  /-- The host lanes. -/
  hosts : SMap HostSt
  /-- D1 (0) and D2 (1). -/
  dies : SMap DieSt
  /-- The loader (R76 to R90). -/
  loader : LoaderSt
  /-- The public-key hash slots 0 to 3 (R73). -/
  keys : List KeySlot
  /-- The MRAM, 8 MiB (R353); an unlisted byte is a clean 0 (log 11). -/
  mram : MramSt
  /-- Power entry, start-up, power states and resets (R362 to R384). -/
  power : PowerSt
  /-- The time base (R289 to R301). -/
  time : TimeSt
  /-- The schedule (R302 to R306). -/
  sched : SchedSt
  /-- The trigger lines (R307, R308). -/
  trig : SMap TrigLine
  /-- The beacon of each line lane (R261 to R288). -/
  bcn : SMap BcnLane
  /-- The beacon synthesiser of each region (R271 to R273). -/
  syn : SMap SynSt
  /-- The memory controller and D3 (R337 to R347). -/
  mem : MemSt
  /-- The context engine (R224 to R260). -/
  ctx : CtxSt
  /-- The thermal supervisor (R385 to R397). -/
  therm : ThermSt
  /-- Self-test under way (R412, R413). -/
  test : TestSt
  /-- The calibration values in use, key `65536 * item + index` (R356 to R358). -/
  cal : SMap Int
  /-- Housekeeping (R313 to R336). -/
  hk : HkSt
  /-- The instruction register of the TAP (R445; log 14). -/
  tap : TapInstr
  deriving DecidableEq, Repr

/-- The machine right after D0 leaves reset, before D0_RESET_END: every register at its reset value, the tables empty,
the rails of stages 1 to 5 up and REFCLK present (logs 3, 4, 12). -/
def State.reset : State where
  pending := []
  freeCtr := 0
  variant := .m2
  serial := 0
  strap := 0
  regs := factoryPeers 0
  mgmt := { addr := 0, out := { ack := false, words := [], bytes := 0, status := 0, ident := 0 }, taken := [], cpls := [],
            dataOk := false }
  intc := { claims := [], irqLow := false, last0 := none, last1 := none }
  counts := []
  queues := []
  lanes := []
  pools := []
  ports := []
  hosts := []
  dies := []
  loader := LoaderSt.fresh [1, 2, 3]
  keys := factoryKeys
  mram := { bytes := [], err := [] }
  power := { vin := .up, railsUp := 62, stage6 := false, retry := none, shown := none, d0Reset := false,
             bistRunning := false, bistDue := false, mapBad := false, refclk := true, resetN := false, wake := none, drains := [], returns := [],
             wait := none, leavingIdle := false, save := [] }
  time := TimeSt.fresh
  sched := { pos := [], dueQ := [], trigTick := 0, trigCount := 0, squelched := [] }
  trig := []
  bcn := []
  syn := []
  mem := MemSt.fresh
  ctx := CtxSt.fresh
  therm := ThermSt.fresh
  test := { bgLeft := [], bgNow := [], run := none }
  cal := []
  hk := HkSt.fresh
  tap := .idcode

end Sys2Proof.Machine
end

