-- ==== Sys2Proof/Machine/Fresh.lean ====
section
/-!
DEFINITION. Depths of the credit queues and the values that typed parts of the state take at their reset
(01_architecture.md R42, R43, R47; 03_line_receive.md R108, R114; 06_host_side.md R218).
-/

namespace Sys2Proof

/-- DEPTH of a queue (table of R42). -/
def QueueKind.depth (k : QueueKind) : Nat :=
  match k with
  | .adcFfe => 16 | .ffeMlse => 8 | .mlseDec => 8 | .decLink => 32 | .linkTxp => 64 | .linkD0 => 64 | .d0Link => 32
  | .hostRx => 32 | .hostTx => 32 | .ctxReq => 16 | .memRet => 64 | .ctxPort => 32 | .cmdRing => 64

/-- The reset value of STARVE_LIMIT (table of R42). -/
def QueueKind.starveReset (k : QueueKind) : Nat :=
  match k with
  | .ctxReq => 64 | .memRet => 64 | .ctxPort => 8 | .cmdRing => 0 | _ => 2

/-- How many instances of a queue there are. -/
def QueueKind.instances (k : QueueKind) : Nat :=
  match k with
  | .hostRx => 16 | .hostTx => 16 | .ctxPort => 2 | .ctxReq => 1 | .memRet => 1 | .cmdRing => 1 | _ => 8

/-- A number for each kind, the high part of a queue's key. -/
def QueueKind.code (k : QueueKind) : Nat :=
  match k with
  | .adcFfe => 0 | .ffeMlse => 1 | .mlseDec => 2 | .decLink => 3 | .linkTxp => 4 | .linkD0 => 5 | .d0Link => 6
  | .hostRx => 7 | .hostTx => 8 | .ctxReq => 9 | .memRet => 10 | .ctxPort => 11 | .cmdRing => 12

/-- The key of a queue in the queue table. -/
def QueueId.key (q : QueueId) : Nat := q.kind.code * 16 + q.inst

end Sys2Proof

namespace Sys2Proof.Machine

/-- A queue right after reset: empty, every credit held (R43, R47). -/
def QueueSt.fresh (k : QueueKind) : QueueSt :=
  { credits := k.depth, entries := [], transit := 0, hwm := 0, starveLimit := k.starveReset,
    starveEn := decide (k ≠ .cmdRing), ovf := false, starve := false, creditErr := false, waited := 0 }

/-- The scrambler starts from all ones (DESIGN CHOICE, log 97). -/
def scrStart : Nat := 2 ^ 58 - 1

def StreamEnc.fresh : StreamEnc := { blocks := [], scr := scrStart, bits := [], started := false }

def StreamDec.fresh : StreamDec := { since := none, bits := [], cws := [], scr := scrStart }

def HostEnc.fresh : HostEnc := { blocks := [], slot := 0, scr := scrStart, num := 0, first := none, bitsA := [], bitsB := [] }

def HostDec.fresh : HostDec := { skipA := 0, skipB := 0, bitsA := [], bitsB := [], num := 0, cws := [], scr := scrStart }

def Monitor.fresh : Monitor := { skipA := 0, skipB := 0, bitsA := [], bitsB := [], cws := [] }

/-- A port right after it starts: its transmit direction is in a gap until its receive is locked (R207). -/
def PortSide.fresh : PortSide :=
  { txFifo := [], txWriteOpen := false, txReadOpen := false, txDiscard := false, hostGap := true, txResume := false,
    hostFault := false, dec := .fresh, enc := .fresh, fault := .fresh, mon := .fresh,
    nm := [], nmWriteOpen := false, nmReadOpen := false, nmDiscard := true, reading := false,
    gapCause := some .lockLoss, ovfSkip := false, lf := false,
    txAcc := 0, rxAcc := 0, lastTx := none, lastRx := none }

def Port.fresh : Port :=
  { a := .fresh, b := .fresh, setTurnB := false, setsB := [], setsA := [], awaitA := true, awaitB := true,
    encA := .fresh, encB := .fresh, encTurnB := false, decA := .fresh, decB := .fresh, rowsA := [], rowsB := [],
    rowTurnB := false, outA := [], outB := [] }

def HostSt.fresh : HostSt := { out := .zero, sent := 0, txPrev := 0, rxPrev := 0 }

def DieSt.fresh : DieSt := { inReset := false, powered := true, reapply := false, capture := none }

def Pool.fresh : Pool := { holder := none, ext0 := none, ext1 := none, streak := 0, withdraw := none, segs := [] }

/-! ### Line lane reset values -/

/-- The transmitted symbol value of Gray index `q`. -/
def symOf (q : Nat) : Int := 2 * (q : Int) - 3

/-- A level of R108 in field units: U (d + A1/256 d1 + A2/256 d2), rounded half away from zero and saturated to 511. -/
def levelOf (u a1 a2 : Nat) (d d1 d2 : Int) : Int :=
  let z : Int := (u : Int) * (256 * d + (a1 : Int) * d1 + (a2 : Int) * d2)
  let r : Int := if 0 ≤ z then (2 * z + 256) / 512 else -((2 * (-z) + 256) / 512)
  if r < -511 then -511 else if 511 < r then 511 else r

/-- The level table of R108: index `4 * state + q(d)`, with state `4 q(d1) + q(d2)`. -/
def levelTable (u a1 a2 : Nat) : List Int :=
  (List.range 64).map (fun i => levelOf u a1 a2 (symOf (i % 4)) (symOf (i / 16)) (symOf (i / 4 % 4)))

/-- An equaliser at its presets (R114), with main-cursor tap `c` and preset `m`. -/
def Equaliser.preset (c : Nat) (m : Int) (u a1 a2 : Nat) : Equaliser :=
  { taps := (List.range 72).map (fun i => if i = c then 4096 * m else 0)
    levels := (levelTable u a1 a2).map (4096 * ·)
    a1 := 4096 * (a1 : Int), a2 := 4096 * (a2 : Int), b := 0 }

/-- The detector before the first sample (DESIGN CHOICE, log 6): zero metrics, every past symbol -3. -/
def Path.fresh : Path := { metric := 0, syms := List.replicate 36 (-3), rel := List.replicate 36 (2 ^ 60, 2 ^ 60), eps := List.replicate 36 0 }

def SubAcc.fresh : SubAcc := { n := 0, raw := 0, mag := 0, cor := 0 }

def RxPath.fresh : RxPath :=
  { sampled := 0, cycles := 0, detWords := 0, xs := [], ys := [], ds := [], paths := List.replicate 16 Path.fresh, yLast := 0,
    prev := none, subs := List.replicate 64 .fresh, agcN := 0, agcSum := 0, voteN := 0, voteSum := 0, lockHeld := 0,
    exitN := 0, exitSum := 0, segS := 0, segN := 0, segG := List.replicate 12 0 }

def TxHalf.fresh : TxHalf :=
  { v := 0, lastB := true, lvls := List.replicate 6 0, dac := [], commitPending := false, patternNext := none,
    patternNow := 0, patternPos := 0, codeword := 0, sent := 0, nowTaps := [0, 0, 256, 0, 0, 0, 0], nowAmp := 0, nowFs := 900,
    out := [0], txLoad := none }

def Meas.fresh : Meas := { sig := 0, err := 0, cw := 0, flip := 0, unc := 0, clip := 0, allTrack := true }

def Run.empty : Run := { count := 0, streamB := false, group := none }

/-- A line lane right after its die's reset: equaliser at the reset presets (U 96, A1 128, A2 0). -/
def LaneSt.fresh : LaneSt :=
  { eq := Equaliser.preset 0 0 96 128 0, freqI := 0, phase := 0, warmLocked := false, rxp := .fresh, hold := 0, quiet := 0,
    lightTimer := none, runs := [], cwNum := 0, lockB := false, window := [], cadence := none, noGroup := 0,
    delivered := none, rxRowsA := [], rxRowsB := [], rowA := none, rowB := none, d0NextB := false, tx := .fresh, txRowsA := [],
    txRowsB := [], halfA := none, halfB := none, txCount := 0, meas := .fresh, histoLeft := 0, histoTrack := false,
    ckpt := none, captured := none, capLocked := false, swap := none, waiting := [], capWin := [], forced := 0,
    loading := false, restartDue := none, retestDue := false }

end Sys2Proof.Machine
end

