-- ==== Sys2Proof/Machine/Ops.lean ====
section
/-!
DEFINITION. The named operations over the state: register fields, free values, and the typed parts by their index.
-/

namespace Sys2Proof.Machine

/-- The value of a stored register field. -/
def State.get (s : State) (f : Fld) : Nat := s.regs.get f.reset f.key

/-- A stored register field written with the low bits of `v`. -/
def State.put (s : State) (f : Fld) (v : Nat) : State :=
  { s with regs := s.regs.set f.reset f.key (v % 2 ^ f.width) }

/-- A one-bit field as a Boolean. -/
def State.getB (s : State) (f : Fld) : Bool := s.get f % 2 == 1

/-- A one-bit field written from a Boolean. -/
def State.putB (s : State) (f : Fld) (b : Bool) : State := s.put f (natOf b)

/-- A field read as two's complement. -/
def State.getZ (s : State) (f : Fld) : Int := signedOf f.width (s.get f)

/-- A field written with the two's-complement word of `z`. -/
def State.putZ (s : State) (f : Fld) (z : Int) : State := s.put f (wordOf f.width z)

/-- A counter register field advanced by `n`, wrapping at its width. -/
def State.addTo (s : State) (f : Fld) (n : Nat) : State := s.put f (s.get f + n)

/-- A counter register field advanced by `n`, saturating at its width. -/
def State.addSat (s : State) (f : Fld) (n : Nat) : State := s.put f (min (s.get f + n) (2 ^ f.width - 1))

/-- Consecutive fields written from a list: element `i` of the row in instance `n`. -/
def State.putRow (s : State) (r : FRow) (n i : Nat) (vs : List Nat) : State :=
  match vs with
  | [] => s
  | v :: rest => State.putRow (s.put (r.f n i) v) r n (i + 1) rest

/-- The `w`-bit free value that comes next (log 2). -/
def State.free (s : State) (w : Nat) : Nat := Config.freeValue s.freeCtr % 2 ^ w

/-- The free-value counter advanced. -/
def State.freed (s : State) : State := { s with freeCtr := s.freeCtr + 1 }

/-- Every stored field of the register words from `lo` to `hi` back at its reset value. -/
def State.clearRange (s : State) (lo hi : Nat) : State :=
  { s with regs := s.regs.drop (fun k => decide (lo * 32 ≤ k) && decide (k < (hi + 1) * 32)) }

/-! ### Typed parts by index -/

def State.lane (s : State) (n : Nat) : LaneSt := s.lanes.get .fresh n
def State.setLane (s : State) (n : Nat) (l : LaneSt) : State := { s with lanes := s.lanes.set .fresh n l }
/-- Lane `n` changed by `f`. -/
def State.onLane (s : State) (n : Nat) (f : LaneSt → LaneSt) : State := s.setLane n (f (s.lane n))

def State.pool (s : State) (r : Nat) : Pool := s.pools.get .fresh r
def State.setPool (s : State) (r : Nat) (p : Pool) : State := { s with pools := s.pools.set .fresh r p }

def State.port (s : State) (n : Nat) : Port := s.ports.get .fresh n
def State.setPort (s : State) (n : Nat) (p : Port) : State := { s with ports := s.ports.set .fresh n p }

def State.host (s : State) (h : Nat) : HostSt := s.hosts.get .fresh h
def State.setHost (s : State) (h : Nat) (x : HostSt) : State := { s with hosts := s.hosts.set .fresh h x }

def State.die (s : State) (d : Nat) : DieSt := s.dies.get .fresh d
def State.setDie (s : State) (d : Nat) (x : DieSt) : State := { s with dies := s.dies.set .fresh d x }

def State.queue (s : State) (q : QueueId) : QueueSt := s.queues.get (.fresh q.kind) q.key
def State.setQueue (s : State) (q : QueueId) (x : QueueSt) : State :=
  { s with queues := s.queues.set (.fresh q.kind) q.key x }

/-- One side of a port: `b` picks the stream b port. -/
def State.side (s : State) (n : Nat) (b : Bool) : PortSide := if b then (s.port n).b else (s.port n).a
def State.setSide (s : State) (n : Nat) (b : Bool) (x : PortSide) : State :=
  s.setPort n (if b then { s.port n with b := x } else { s.port n with a := x })

/-- `f` applied for each element of a list, in order. -/
def State.each {α : Type} (s : State) (xs : List α) (f : State → α → State) : State :=
  match xs with
  | [] => s
  | x :: r => State.each (f s x) r f

/-- `f` applied if `c` holds. -/
def State.onlyIf (s : State) (c : Bool) (f : State → State) : State := if c then f s else s

end Sys2Proof.Machine
end

