-- ==== Sys2Proof/Machine/Flags.lean ====
section
/-!
DEFINITION. Event flags: the interrupt sources and the register bits that assert them (15_management.md R433, R434),
the event counters, and the performance counters (R441, R442).
-/

namespace Sys2Proof.Machine

/-- A one-bit field by its address and bit. -/
def bitFld (addr lsb : Nat) : Fld := ⟨addr, lsb, 1, 0⟩

/-- The seven queues of a line lane, whose faults are its source 13 (R434). -/
def laneQueues (n : Nat) : List QueueId :=
  [⟨.adcFfe, n⟩, ⟨.ffeMlse, n⟩, ⟨.mlseDec, n⟩, ⟨.decLink, n⟩, ⟨.linkTxp, n⟩, ⟨.linkD0, n⟩, ⟨.d0Link, n⟩]

/-- A queue has a QEVT bit set (01_architecture.md R45). -/
def QueueSt.faulty (q : QueueSt) : Bool := q.ovf || q.starve || q.creditErr

/-- The interrupt source of a queue's faults (R45, R434). -/
def QueueId.source (q : QueueId) : Nat :=
  match q.kind with
  | .hostRx => 240 + 3 * q.inst + 2
  | .hostTx => 240 + 3 * q.inst + 2
  | .ctxReq => 300
  | .memRet => 300
  | .ctxPort => 300
  | .cmdRing => 293
  | _ => 30 * q.inst + 13

/-- A source that a one-bit field drives. -/
def oneBit (f : Fld) : Option (Fld × Nat) := some (f, 0)

/-- The event bit that drives a line lane's source `k` (R434, first table), where one bit does. -/
def laneSrcFld (n k : Nat) : Option (Fld × Nat) :=
  let line := 0x00080000 + n * 0x4000
  let bcn := 0x000A0000 + n * 0x200
  if k ≤ 4 then oneBit (bitFld (line + 0x008) k)
  else if k ≤ 8 then oneBit (bitFld (line + 0x284) (k - 5))
  else if k ≤ 12 then oneBit (bitFld (line + 0x108) (k - 9))
  else if k = 13 then none
  else if k ≤ 16 then oneBit (bitFld (bcn + 0x018) (k - 14))
  else if k ≤ 19 then oneBit (bitFld (bcn + 0x050) (k - 17))
  else if k ≤ 21 then oneBit (bitFld (bcn + 0x08C) (k - 20))
  else if k ≤ 23 then oneBit (bitFld (0x00030040 + 4 * n) (k - 22 + 16))
  else oneBit (bitFld (0x0005100C + 0x100 * n) (k - 24))

/-- The event bit that drives a global source (R434, second table), where one bit does. -/
def globalSrcFld (i : Nat) : Option (Fld × Nat) :=
  if i = 288 then oneBit (bitFld 0x10C 0)
  else if i ≤ 292 then oneBit (bitFld 0x10C (i - 288))
  else if i ≤ 295 then none
  else if i ≤ 299 then oneBit (bitFld 0x0003001C (i - 296))
  else if i = 300 then none
  else if i ≤ 307 then oneBit (bitFld 0x00020008 (i - 301))
  else if i ≤ 309 then oneBit (bitFld 0x00020114 (i - 308))
  else if i ≤ 313 then some (TIME.TRIG_EVT_CFG_ERR.f, i - 310)
  else if i ≤ 317 then oneBit (bitFld (0x000A1004 + 0x100 * (i - 314)) 0)
  else if i ≤ 319 then oneBit (bitFld 0x000B0088 (i - 318))
  else if i ≤ 323 then some (HKA.HKA_EVT_URG_DONE.f, i - 320)
  else if i ≤ 327 then oneBit (bitFld 0x000B1828 (i - 320))
  else if i = 328 then oneBit (bitFld 0x000B2004 0)
  else if i = 329 then none
  else if i ≤ 333 then oneBit (bitFld 0x000B3008 (i - 330))
  else if i ≤ 338 then oneBit (bitFld 0x000C0008 (i - 334))
  else if i = 339 then oneBit (bitFld 0x10C 5)
  else if i ≤ 341 then oneBit (bitFld 0x000C0100 (i - 340))
  else if i ≤ 344 then oneBit (bitFld 0x000E0108 (i - 342))
  else if i = 345 then oneBit (bitFld 0x10C 6)
  else if i ≤ 349 then oneBit (bitFld 0x00000808 (i - 346))
  else if i ≤ 354 then oneBit (bitFld 0x000D000C (i - 350))
  else if i ≤ 362 then oneBit (bitFld 0x000D0200 (i - 355))
  else if i ≤ 365 then none
  else if i ≤ 373 then some (INTC.SW_STAT_SW.f, i - 366)
  else none

/-- The event bit that drives source `i`, where one bit does (R434). -/
def srcFld (i : Nat) : Option (Fld × Nat) :=
  if i < 240 then laneSrcFld (i / 30) (i % 30)
  else if i < 288 then
    if i % 3 = 2 then none else oneBit (bitFld (0x00040008 + 0x400 * ((i - 240) / 3)) (i % 3))
  else globalSrcFld i

/-- Source `i` is asserted (R433, R434): the level of its event bit, or of the condition that several bits drive. -/
def State.srcLevel (s : State) (i : Nat) : Bool :=
  match srcFld i with
  | some (f, b) => bitAt (s.get f) b
  | none =>
    if i < 240 then (laneQueues (i / 30)).any (fun q => (s.queue q).faulty)
    else if i < 288 then
      (s.queue ⟨.hostRx, (i - 240) / 3⟩).faulty || (s.queue ⟨.hostTx, (i - 240) / 3⟩).faulty
    else if i = 293 then (s.queue ⟨.cmdRing, 0⟩).faulty
    else if i = 294 then !s.mgmt.cpls.isEmpty
    else if i = 300 then
      [⟨.ctxReq, 0⟩, ⟨.memRet, 0⟩, ⟨.ctxPort, 0⟩, ⟨.ctxPort, 1⟩].any (fun q => (s.queue q).faulty)
    else if i = 329 then
      decide (s.get FILT.FILT_OVF_LO_OVF.f ≠ 0) || decide (s.get FILT.FILT_OVF_HI_OVF.f ≠ 0)
    else if 363 ≤ i ∧ i ≤ 365 then
      decide (s.get (PERF.OVF_LO_OVF.f (i - 363)) ≠ 0) || decide (s.get (PERF.OVF_HI_OVF.f (i - 363)) ≠ 0)
    else false

/-- An event on source `i`: its COUNT goes up, to 255 at most, if the source is already asserted (R433). -/
def State.noteEvent (s : State) (i : Nat) : State :=
  s.onlyIf (s.srcLevel i) (fun s => s.addSat (INTC.SRC_COUNT.f 0 i) 1)

/-- The event of source `i` occurs: the event is counted if the source is already asserted, and its bit is set. -/
def State.raise (s : State) (i : Nat) : State :=
  match srcFld i with
  | some (f, b) => (s.noteEvent i).put f (putBit (s.get f) b true)
  | none => s.noteEvent i

/-- An event of line lane `n`, source `k` of the lane (R434). -/
def State.raiseLane (s : State) (n k : Nat) : State := s.raise (30 * n + k)

/-! ### What is deliverable (R435) -/

/-- The floor of target 0: one more than the highest priority among its outstanding claims, 0 where it has none (−1 in the
spec's count). -/
def State.floor0 (s : State) : Nat := s.intc.claims.foldl (fun m c => max m (c.2 + 1)) 0

/-- Source `i` is claimed. -/
def State.claimed (s : State) (i : Nat) : Bool := s.intc.claims.any (fun c => decide (c.1 = i))

/-- Source `i` is deliverable to target `t`: asserted, enabled, not claimed, above the threshold and above the floor. -/
def State.deliverable (s : State) (t i : Nat) : Bool :=
  let p := s.get (INTC.SRC_PRIORITY.f 0 i)
  s.getB (INTC.SRC_ENABLE.f 0 i) && decide (s.get (INTC.SRC_TARGET.f 0 i) = t) && s.srcLevel i &&
    decide (s.get (if t = 0 then INTC.THRESH_THRESHOLD0.f else INTC.THRESH_THRESHOLD1.f) < p) &&
    (t != 0 || (!s.claimed i && decide (s.floor0 ≤ p)))

/-- The deliverable source of target `t` that has the highest priority, the lowest number winning a tie (R437). -/
def State.bestSource (s : State) (t : Nat) : Option Nat :=
  (List.range 384).foldl (fun b i =>
    if s.deliverable t i then
      match b with
      | some j => if s.get (INTC.SRC_PRIORITY.f 0 j) < s.get (INTC.SRC_PRIORITY.f 0 i) then some i else some j
      | none => some i
    else b) none

/-- IRQ_N is released when target 0 has no deliverable source (R435, R439). -/
def State.releaseIrq (s : State) : State :=
  if s.intc.irqLow = true ∧ s.bestSource 0 = none then { s with intc := { s.intc with irqLow := false } } else s

/-! ### Performance counters -/

/-- Adds `n` events to the counters of a bank from counter `i` on (R441): enabled, not frozen, EVENT in `evs`; a counter
with CHAIN counts the overflows of the one below.  `carry` is that number; `fuel` counters are left. -/
def State.bumpFrom (s : State) (bank : Nat) (evs : List Nat) (n carry i fuel : Nat) : State :=
  match fuel with
  | 0 => s
  | k + 1 =>
    let chain := decide (0 < i) && s.getB (PERF.CTR_CFG_CHAIN.f bank i)
    let inc :=
      if s.getB (PERF.CTR_CFG_EN.f bank i) then
        (if chain then carry else if evs.contains (s.get (PERF.CTR_CFG_EVENT.f bank i)) then n else 0)
      else 0
    let c := s.counts.get 0 (64 * bank + i) + inc
    let out := c / 2 ^ 48
    let s1 := if inc = 0 then s else { s with counts := s.counts.set 0 (64 * bank + i) (c % 2 ^ 48) }
    let nextChains := decide (1 < fuel) && s.getB (PERF.CTR_CFG_CHAIN.f bank (i + 1))
    let s2 :=
      if 0 < out ∧ nextChains = false then
        let f := if i < 32 then PERF.OVF_LO_OVF.f bank else PERF.OVF_HI_OVF.f bank
        (s1.noteEvent (363 + bank)).put f (putBit (s1.get f) (i % 32) true)
      else s1
    State.bumpFrom s2 bank evs n out (i + 1) k

/-- The counters of a bank: 64 on D0 and 32 on a line die (01_architecture.md R25). -/
def bankSize (bank : Nat) : Nat := if bank = 0 then 64 else 32

/-- `n` events with the EVENT numbers `evs` in a bank (R441, R442). -/
def State.bump (s : State) (bank : Nat) (evs : List Nat) (n : Nat) : State :=
  if s.getB (PERF.BANK_CTL_FREEZE.f bank) ∨ n = 0 then s else s.bumpFrom bank evs n 0 0 (bankSize bank)

/-- `k` events of KIND `kind` on line lane `n`, in its line die's bank: INSTANCE of the lane in the die, and 15 for the
sum of the four lanes (R442). -/
def State.countLane (s : State) (n kind k : Nat) : State :=
  s.bump (1 + n / 4) [16 * kind + n % 4, 16 * kind + 15] k

/-- `k` events of KIND `kind`, INSTANCE `inst`, in the bank of D0. -/
def State.countD0 (s : State) (kind inst k : Nat) : State := s.bump 0 [16 * kind + inst] k

end Sys2Proof.Machine
end

