-- ==== Sys2Proof/Machine/Operands.lean ====
section
/-!
DEFINITION. The forms operands take: receive states and their codes, lane modes, tiles and the lanes they belong to, lane
groups, which parts are served, command words, completion statuses.
-/

namespace Sys2Proof.Machine

/-! ### Lanes, dies and what is served -/

/-- The code of a receive state (03_line_receive.md R115). -/
def RxState.code (r : RxState) : Nat :=
  match r with
  | .off => 0 | .dark => 1 | .gain => 2 | .cal => 3 | .cdr => 4 | .blind => 5 | .dd => 6 | .train => 7 | .search => 8
  | .track => 9 | .warm => 10 | .idwait => 11

/-- The receive state of a code; a code the table does not list is OFF. -/
def RxState.ofCode (c : Nat) : RxState :=
  match c with
  | 1 => .dark | 2 => .gain | 3 => .cal | 4 => .cdr | 5 => .blind | 6 => .dd | 7 => .train | 8 => .search | 9 => .track
  | 10 => .warm | 11 => .idwait | _ => .off

/-- The receive state of lane `n`, as RX_STATE.STATE shows it. -/
def State.rx (s : State) (n : Nat) : RxState := .ofCode (s.get (LINE.RX_STATE_STATE.f n))
/-- The capture of line die `d` notes that the receive state of its lane changed (R135, STATE_CHANGED). -/
def State.noteCapture (s : State) (n : Nat) : State :=
  let d := s.die (n / 4)
  match d.capture with
  | some c => if c.lane = n then s.setDie (n / 4) { d with capture := some { c with changed := true } } else s
  | none => s

/-- The trigger event `k` of the CAPTURE arguments occurs on lane `n`, stamped `tick` (R132, R134, R135): the first one since the
start of a capture of the lane is kept, unless the capture has timed out, with the words stored before it and the receive state. -/
def State.capEvent (s : State) (n k tick : Nat) : State :=
  let d := s.die (n / 4)
  match d.capture with
  | some c =>
    if c.lane = n ∧ c.trigger = k ∧ c.event = none ∧ c.ended = false then
      s.setDie (n / 4) { d with capture := some { c with event := some tick, preActual := c.words.length
                                                         stateAt := (s.rx n).code } }
    else s
  | none => s

/-- A word passes capture point `point` of lane `n` in this cycle (R133, R134): before the trigger the newest PRE words are
kept, after it words are kept until LEN are stored. -/
def State.capWord (s : State) (n point subadc : Nat) (poison : Bool) (bytes : List Nat) : State :=
  let d := s.die (n / 4)
  match d.capture with
  | some c =>
    if c.lane = n ∧ c.point = point then
      let w : CapWord := ⟨s.time.tick, subadc, poison, bytes⟩
      if c.ended || c.event.isSome then
        if c.words.length < c.preActual + (c.len - c.pre) then
          s.setDie (n / 4) { d with capture := some { c with words := w :: c.words } }
        else s
      else s.setDie (n / 4) { d with capture := some { c with words := (w :: c.words).take c.pre } }
    else s
  | none => s

/-- RX_STATE.STATE written: a window or histogram under way is no longer all in TRACK (R125, R128), a histogram stops in
OFF (R128), and a capture notes the change (R135) (log 56). -/
def State.setRx (s : State) (n : Nat) (r : RxState) : State :=
  let t := decide (r = .track)
  let s := (s.onlyIf (decide (s.rx n ≠ r)) (fun s => s.noteCapture n)).put (LINE.RX_STATE_STATE.f n) r.code
  let s := s.onLane n (fun l => { l with meas := { l.meas with allTrack := l.meas.allTrack && t }
                                         histoTrack := l.histoTrack && t })
  s.onlyIf (decide (r = .off)) (fun s => s.put (LINE.HIST_STAT_BUSY.f n) 0)

/-- Region `r` is in the outage of a partial reload (02_bitstream.md R86). -/
def State.reloading (s : State) (r : Nat) : Bool := s.loader.part.any (fun p => decide (p.region = r))

/-- Lane `n` runs in mode R, as D0's MODE_R holds it (16_register_map.md R457, 02_bitstream.md R66). -/
def State.modeR (s : State) (n : Nat) : Bool := bitAt (s.get GLOBAL.MODE_MODE_R.f) n
/-- Lane `n` has BREAKOUT 1 (06_host_side.md R198). -/
def State.breakout (s : State) (n : Nat) : Bool := s.getB (PORT.PCFG_BREAKOUT.f n)
/-- Syndrome lock of lane `n`. -/
def State.syncLock (s : State) (n : Nat) : Bool := s.getB (LINE.SYNC_STAT_SYNC_LOCK.f n)
/-- Group lock of lane `n`. -/
def State.groupLock (s : State) (n : Nat) : Bool := s.getB (LINE.SYNC_STAT_GROUP_LOCK.f n)
/-- LIGHT of lane `n`. -/
def State.light (s : State) (n : Nat) : Bool := s.getB (LINE.RX_STATE_LIGHT.f n)

/-- Lane `n` is held disabled (01_architecture.md R19; HELD_STAT). -/
def State.laneHeld (s : State) (n : Nat) : Bool :=
  bitAt (s.get BIST.HELD_STAT_LANE_HELD.f) n || bitAt (s.get BIST.HELD_STAT_REGION_HELD.f) (n / 2)

/-- Lane `n` is enabled by the running image and not held disabled (R17, R19). -/
def State.laneOn (s : State) (n : Nat) : Bool := bitAt (s.get GLOBAL.MODE_LANE_EN.f) n && !s.laneHeld n

/-- The static address of the MGMT port (15_management.md R419; 01_architecture.md R27). -/
def State.staticAddr (s : State) : Nat := 0x50 + s.strap.toNat

/-- D0 is out of reset and the package is not in DEEP_STANDBY. -/
def State.d0Up (s : State) : Bool := !s.power.d0Reset

/-- A line die is powered and out of reset (16_register_map.md R450). -/
def State.dieUp (s : State) (d : Nat) : Bool := (s.die d).powered && !(s.die d).inReset && s.d0Up

/-- Region `r` is gated (12_power.md R375). -/
def State.gated (s : State) (r : Nat) : Bool := bitAt (s.get PWR.PWR_STAT_GATED.f) r

/-- Lane `n` is parked (R374). -/
def State.parked (s : State) (n : Nat) : Bool := bitAt (s.get PWR.PWR_STAT_PARKED.f) n

/-- The registers of line lane `n` are served (R450). -/
def State.laneServed (s : State) (n : Nat) : Bool := s.dieUp (n / 4) && !s.gated (n / 2)

/-- Lane `n` has power and clocks: its die is up, its region not gated, and it is not parked. -/
def State.laneRuns (s : State) (n : Nat) : Bool := s.laneServed n && !s.parked n

/-- Region `r` runs under the placement policy (01_architecture.md R49, R50). -/
def State.placement (s : State) (r : Nat) : Bool := bitAt (s.get GLOBAL.MODE_PLACEMENT.f) r

/-- A failed tile of lane `n` is being replaced, or waits for the swap of its region to end (14_selftest_faults.md R409 to R411,
01_architecture.md R56). -/
def LaneSt.faulted (l : LaneSt) : Bool := l.swap.isSome || !l.waiting.isEmpty

/-- A re-placement of a failed tile of lane `n` is under way or due (R411): no timeout of its state runs and the lock unit does
not search. -/
def State.replacing (s : State) (n : Nat) : Bool := (s.lane n).faulted && s.placement (n / 2)

/-- A group that is being parked and whose drain has not ended contains lane `n` (12_power.md R383). -/
def State.parking (s : State) (n : Nat) (groupLanes : Nat → List Nat) : Bool :=
  s.power.drains.any (fun d =>
    match d with
    | .group g => (groupLanes g).contains n
    | _ => false)

/-! ### Lane groups (07_peer_contexts.md R225) -/


/-- The lowest lane of the group of lane `n`. -/
def State.groupOf (s : State) (n : Nat) : Nat :=
  if s.getB CTX.GROUP_CFG_J8.f then 0
  else if bitAt (s.get CTX.GROUP_CFG_J4.f) (n / 4) then n / 4 * 4
  else if bitAt (s.get CTX.GROUP_CFG_J2.f) (n / 2) then n / 2 * 2
  else n

/-- The number of lanes of the group of lane `n`. -/
def State.groupSize (s : State) (n : Nat) : Nat :=
  if s.getB CTX.GROUP_CFG_J8.f then 8
  else if bitAt (s.get CTX.GROUP_CFG_J4.f) (n / 4) then 4
  else if bitAt (s.get CTX.GROUP_CFG_J2.f) (n / 2) then 2
  else 1

/-- The lanes of the group whose lowest lane is `g`. -/
def State.groupLanes (s : State) (g : Nat) : List Nat := (List.range (s.groupSize g)).map (g + ·)

/-- Lane `n` belongs to a domain that is draining (12_power.md R381). -/
def State.draining (s : State) (n : Nat) : Bool :=
  s.power.drains.any (fun d =>
    match d with
    | .group g => (s.groupLanes g).contains n
    | .region r => decide (r = n / 2)
    | .package => true)

/-! ### Tiles (00_scope.md R5, 16_register_map.md R448) -/

/-- The region of a tile. -/
def tileRegion (t : Nat) : Nat := if t < 96 then t / 24 else (t - 96) / 2

/-- The lane whose cluster a tile belongs to; for a pool tile the lower lane of its region. -/
def tileLane (t : Nat) : Nat := if t < 96 then t / 12 else (t - 96) / 2 * 2

/-- A sequence-table word without its reserved bits [7:5] and [30:28], which hold 0 (10_engine_housekeeping.md R322, R9). -/
def seqWord (w : Nat) : Nat := w &&& 0x8FFFFF1F

/-- The tile of lane `n` with number `t`. -/
def clusterTile (n t : Nat) : Nat := 12 * n + t

/-- Pool tile `p` of region `r`. -/
def poolTile (r p : Nat) : Nat := 96 + 2 * r + p

/-- A tile is a universal tile: T11 or a pool tile (R5). -/
def isUt (t : Nat) : Bool := decide (96 ≤ t) || t % 12 == 11

def State.tileFailed (s : State) (t : Nat) : Bool := s.getB (TILE.TILE_INFO_FAILED.f t)

/-- The function that tile `t` shows in FN: a healthy T10 always shows 4 (05_line_transmit.md R192). -/
def State.tileFn (s : State) (t : Nat) : Nat :=
  if t < 96 ∧ t % 12 = 10 ∧ s.tileFailed t = false then 4 else s.get (TILE.TILE_INFO_FN.f t)

/-- The chain tiles of lane `n` in chain order: the FFE_ORDER of the applied TILEMAP (02_bitstream.md R62). -/
def State.clusterRecord (s : State) (n : Nat) : List Nat :=
  match s.loader.retained with
  | some c => ((c.tilemaps.getD (n / 2) []).drop (if n % 2 = 0 then 0x10 else 0x28)).take 24
  | none => []

/-- FFE_COUNT of lane `n`; 4 where no TILEMAP is applied. -/
def State.ffeCount (s : State) (n : Nat) : Nat := (s.clusterRecord n).getD 1 4

/-- FFE_ORDER of lane `n`. -/
def State.ffeOrder (s : State) (n : Nat) : List Nat := ((s.clusterRecord n).drop 2).take (s.ffeCount n)

/-- CURSOR of lane `n`; 12 where no TILEMAP is applied. -/
def State.cursor (s : State) (n : Nat) : Nat := (s.clusterRecord n).getD 8 12

/-- T11_ROLE of lane `n`. -/
def State.t11Chain (s : State) (n : Nat) : Bool := (s.clusterRecord n).getD 9 0 == 1

/-! ### Completion statuses and command words (15_management.md R427 to R431) -/

/-- The code of a completion status (R431). -/
def Status.code (x : Status) : Nat :=
  match x with
  | .ok => 0 | .badOpcode => 1 | .badArgument => 2 | .busy => 3 | .abortedFault => 4 | .abortedPower => 5 | .poison => 6
  | .noMemory => 7 | .loaderError => 8 | .notFound => 9 | .noSlot => 10 | .dirFull => 11 | .content => 12
  | .badGroup => 13 | .notGroup => 14 | .notTrained => 15 | .cacheFull => 16 | .applyFailed => 17 | .badEntry => 18
  | .full => 19 | .tooSoon => 20 | .due => 21 | .empty => 22 | .nothingPending => 23 | .badState => 24
  | .testFailed => 25 | .inService => 26 | .retired => 27 | .notAvailable => 28

/-- Word `i` of a command. -/
def cmdWord (w : List Nat) (i : Nat) : Nat := w.getD i 0
def cmdOpcode (w : List Nat) : Nat := bitField (cmdWord w 0) 0 8
def cmdOp (w : List Nat) : Nat := bitField (cmdWord w 0) 8 4
def cmdTag (w : List Nat) : Nat := bitField (cmdWord w 0) 16 16

end Sys2Proof.Machine
end

