-- ==== Sys2Proof/Machine/Queues.lean ====
section
/-!
DEFINITION. Operations on credit queues, and the parity and poison reports (01_architecture.md R39 to R48; 11_memory.md
R348, R352).
-/

namespace Sys2Proof.Machine

open Sys2Proof

/-- A parity error found in the D0 SRAM numbered `m` of INTEG_LAST (R348). -/
def State.parity (s : State) (m : Nat) : State := (s.raise 340).put MEM.INTEG_LAST_SRAM.f m

/-- Poisoned data consumed by the consumer of row `c` of R352's table, at address `a`, 0 where it has none (log 58). -/
def State.poisonUse (s : State) (c a : Nat) : State :=
  ((s.raise 341).put MEM.INTEG_LAST_CONSUMER.f c).put MEM.INTEG_ADDR_ADDR.f a

/-- The producer of `q` holds a credit. -/
def State.canPush (s : State) (q : QueueId) : Bool := decide (0 < (s.queue q).credits)

/-- An entry sent on a credit (R39); HWM follows the occupancy (R43). -/
def QueueSt.push (x : QueueSt) (e : QEntry) : QueueSt :=
  { x with credits := x.credits - 1, entries := x.entries ++ [e], hwm := max x.hwm (x.entries.length + 1) }

/-- The head entry taken and its credit returned (R39); the consumer's wait ends. -/
def QueueSt.pop (x : QueueSt) : QueueSt :=
  { x with credits := x.credits + 1, entries := x.entries.drop 1, waited := 0 }

/-- A producer that can stall sends an entry if it holds a credit. -/
def State.pushQ (s : State) (q : QueueId) (e : QEntry) : State :=
  if s.canPush q then s.setQueue q ((s.queue q).push e) else s

/-- The head entry of a queue taken, if it has one. -/
def State.popQ (s : State) (q : QueueId) : State :=
  if (s.queue q).entries.isEmpty then s else s.setQueue q (s.queue q).pop

/-- A queue emptied with its credits restored and no event bit set (R47). -/
def QueueSt.emptied (x : QueueSt) (k : QueueKind) : QueueSt :=
  { x with credits := k.depth, entries := [], transit := 0, waited := 0 }

def State.emptyQ (s : State) (q : QueueId) : State := s.setQueue q ((s.queue q).emptied q.kind)

/-- The queues of line lane `n` emptied, on its line die (R47); `both` adds those of D0. -/
def State.emptyLane (s : State) (n : Nat) (both : Bool) : State :=
  let die : List QueueId := [⟨.adcFfe, n⟩, ⟨.ffeMlse, n⟩, ⟨.mlseDec, n⟩, ⟨.decLink, n⟩, ⟨.linkTxp, n⟩]
  let d0 : List QueueId := [⟨.linkD0, n⟩, ⟨.d0Link, n⟩]
  s.each (if both then die ++ d0 else die) (fun s q => s.emptyQ q)

/-- A line receive queue's consumer is active (R41): lane enabled, syndrome lock held. -/
def State.rxActive (s : State) (n : Nat) : Bool := s.laneOn n && s.laneRuns n && s.syncLock n

/-- Host lane `h` is enabled. -/
def State.hostOn (s : State) (h : Nat) : Bool := s.getB (HOST.HCTL_ENABLED.f h)

/-- The receiver of host lane `h` is LOCKED (06_host_side.md R196). -/
def State.hostLocked (s : State) (h : Nat) : Bool := decide (s.get (HOST.HSTATE_RX_STATE.f h) = 2)

end Sys2Proof.Machine
end

