-- ==== Sys2Proof/Machine/TimeBase.lean ====
section
/-!
DEFINITION. The time base: ticks, package time, conversion of a tick, software stamps (09_time.md R289 to R291;
01_architecture.md R52, R55).
-/

namespace Sys2Proof.Machine

/-- One nanosecond in the units of the time base, 2^-48 ns (R290). -/
def nsUnits : Nat := 2 ^ 48

/-- One second. -/
def secUnits : Nat := 1000000000 * nsUnits

/-- Package time is modulo 2^48 seconds (R289). -/
def timeModulus : Nat := 2 ^ 48 * secUnits

/-- The time `n` ticks after a segment's start: `n` times 256/425 ns times 1 + RATE_ADJ 2^-40, rounded down to 2^-48 ns
(R290; log 7). -/
def Seg.timeAfter (g : Seg) (n : Nat) : Nat :=
  (g.time + n * (2 ^ 40 + g.rate).toNat * 65536 / 425) % timeModulus

/-- The segment under way. -/
def TimeSt.seg (t : TimeSt) : Seg := t.segs.headD ⟨0, 0, 0⟩

/-- The package time now, in units of 2^-48 ns. -/
def State.now (s : State) : Nat := s.time.seg.timeAfter (s.time.tick - s.time.seg.tick)

/-- SEC, NS and FRAC of a time (R289). -/
def timeSec (t : Nat) : Nat := t / secUnits
def timeNs (t : Nat) : Nat := t / nsUnits % 1000000000
def timeFrac (t : Nat) : Nat := t / 2 ^ 32 % 65536

/-- A time from its fields. -/
def timeOf (sec ns frac : Nat) : Nat := sec * secUnits + ns * nsUnits + frac * 2 ^ 32

/-- The kept segment a tick lies in (R291). -/
def TimeSt.segOf (t : TimeSt) (tick : Nat) : Option Seg := t.segs.find? (fun g => decide (g.tick ≤ tick))

/-- The conversion of a tick: the time the time base showed at it, or none outside the kept segments or later than the
present tick (R291). -/
def State.convert (s : State) (tick : Nat) : Option Nat :=
  if s.time.tick < tick then none
  else (s.time.segOf tick).map (fun g => g.timeAfter (tick - g.tick))

/-- A software stamp of an event that occurs now: the time base at interrupt service, whose delay the spec does not state
(R55; a free value, log 20), and the state with that free value used. -/
def State.softStamp (s : State) : Nat × State :=
  ((s.now + s.free 32 * nsUnits) % timeModulus, s.freed)

/-- `us` microseconds in units of 1/32 tick: one microsecond is 53125/32 ticks (R290). -/
def usTicks32 (us : Nat) : Nat := us * 53125

/-- The package is in the THROTTLE band, or treated so (13_thermal.md R389, R390). -/
def State.throttled (s : State) : Bool := decide (2 ≤ s.get THERM.THERM_STAT_BAND.f)

/-- Background requester `k` pauses (R392): while throttled, for PAUSE after its last unit. -/
def State.bgPaused (s : State) (k : Nat) : Bool :=
  let last := s.therm.lastUnit.get 0 k
  s.throttled && decide (0 < last) && decide (32 * (s.time.tick + 1 - last) < usTicks32 (s.get THERM.THERM_RATE_PAUSE.f))

/-- One unit of background work of requester `k` (R392), unless it pauses. -/
def State.bgUnit (s : State) (k : Nat) (f : State → State) : State :=
  if s.bgPaused k then s
  else f { s with therm := { s.therm with lastUnit := s.therm.lastUnit.set 0 k (s.time.tick + 1) } }

end Sys2Proof.Machine
end

