-- ==== Sys2Proof/Machine/D3.lean ====
section
/-!
DEFINITION. The GDDR7 die as the memory controller reads and writes it: 64-bit words with the poison encoding, and the
reports of a read (11_memory.md R337 to R345).
-/

namespace Sys2Proof.Machine

open Sys2Proof

/-- The class number of a requester (R340). -/
def memClassCode (c : MemClass) : Nat :=
  match c with
  | .apply => 1 | .refresh => 2 | .context => 3 | .fill => 4 | .host => 5 | .capture => 6 | .scrub => 7

/-- Addresses of the window that D3 backs: context slots and capture ring (R338). -/
def d3Backed (a : Nat) : Bool := decide (0x40000000 ≤ a) && decide (a < 0xA0000000)

/-- The window address of slot `j` (07_peer_contexts.md R228). -/
def slotAddr (j : Nat) : Nat := 0x40000000 + 16384 * j

/-- D3 is present (00_scope.md R3). -/
def State.hasD3 (s : State) : Bool := decide (s.variant = .m2)

/-- Requests are served: trained, or failed for good (R345). -/
def State.memServes (s : State) : Bool := s.hasD3 && s.d0Up && (s.getB MEM.MEM_STAT_READY.f || s.mem.failed)

/-- The word of D3 that holds window address `a`. -/
def State.d3Word (s : State) (a : Nat) : D3Word := s.mem.d3.get .unwritten ((a - 0x40000000) / 8)

/-- A word written (R342): it holds no error then; a write of its block cancels a pending scrub rewrite (R347), and after MEM_FAIL
every write is discarded (R345) (log 68). -/
def State.d3Put (s : State) (a val : Nat) (poison : Bool) : State :=
  if s.mem.failed then s
  else
    { s with mem := { s.mem with
        d3 := s.mem.d3.set .unwritten ((a - 0x40000000) / 8) ⟨val % 2 ^ 64, poison, true, .clean⟩
        rewrite := if s.mem.rewrite = some (a / 64 * 64) then none else s.mem.rewrite } }

/-- Bytes written to D3 from the 8-aligned address `a` on, a word poisoned if any of its bytes is (R342). -/
def State.d3Write (s : State) (a : Nat) (bs : List MByte) : State :=
  s.each (List.range ((bs.length + 7) / 8)) (fun s i =>
    let w := (bs.drop (8 * i)).take 8
    s.d3Put (a + 8 * i) (leNat (w.map (·.val.toNat))) (w.any (·.poison)))

/-- The eight bytes of a word as delivered. -/
def wordBytes (val : Nat) (poison : Bool) : List MByte :=
  (leBytes 8 val).map (fun b => ⟨BitVec.ofNat 8 b, poison⟩)

/-- The worse of two findings. -/
def worseErr (a b : WordErr) : WordErr :=
  match a, b with
  | .multi, _ => .multi
  | _, .multi => .multi
  | .single, _ => .single
  | .clean, x => x

/-- The cells of the word at `a` lose what `e` says: it stays so until the word is written (R343). -/
def State.upset (s : State) (a : Nat) (e : WordErr) : State :=
  let w := s.d3Word a
  if w.written then { s with mem := { s.mem with d3 := s.mem.d3.set .unwritten ((a - 0x40000000) / 8) { w with err := worseErr e w.err } } }
  else s

/-- The words from `a` on lose what `es` says of each. -/
def State.upsets (s : State) (a : Nat) (es : List WordErr) : State := s.each es.zipIdx (fun s p => s.upset (a + 8 * p.2) p.1)

/-- The word is delivered with the poison mark (R341, R342). -/
def D3Word.bad (w : D3Word) : Bool := !w.written || w.poison || decide (w.err = .multi)

/-- The word is delivered corrected (R341). -/
def D3Word.fixed (w : D3Word) : Bool := !w.bad && decide (w.err = .single)

/-- An uncorrectable word reported (R341). -/
def State.reportUe (s : State) (a cls : Nat) : State :=
  (((s.raise 335).addTo MEM.UE_CNT.f 1).put MEM.UE_ADDR.f a).put MEM.LAST_SRC_UE_CLASS.f cls

/-- A corrected word reported (R341). -/
def State.reportCe (s : State) (a cls : Nat) : State :=
  ((((s.raise 334).addTo MEM.CE_CNT.f 1).put MEM.CE_ADDR.f a).put MEM.LAST_SRC_CE_CLASS.f cls).countD0 0x30 11 1

/-- The eight bytes of the word at `a` as a read delivers them. -/
def State.d3Bytes (s : State) (a : Nat) : List MByte :=
  let w := s.d3Word a
  wordBytes w.val (w.bad || s.mem.failed)

/-- One word read (R341, R342): reported, and the eight bytes delivered (log 62). -/
def State.d3ReadWord (s : State) (a cls : Nat) : State × List MByte :=
  let w := s.d3Word a
  let bs := s.d3Bytes a
  if s.mem.failed then (s, bs)
  else if !w.written then (s.reportUe a cls, bs)
  else if w.poison && decide (w.err = .clean) then (s.raise 336, bs)
  else if w.bad then (s.reportUe a cls, bs)
  else if w.fixed then (s.reportCe a cls, bs)
  else (s, bs)

/-- `n` words read from `a` on; those of the blocks in `seen` have been read and reported before. -/
def State.d3Read (s : State) (a cls n : Nat) (seen : List Nat) : State × List MByte :=
  match n with
  | 0 => (s, [])
  | k + 1 =>
    let r := if seen.contains (a / 64 * 64) then (s, s.d3Bytes a) else s.d3ReadWord a cls
    let q := r.1.d3Read (a + 8) cls k seen
    (q.1, r.2 ++ q.2)

/-- A word of the `n` words from `a` on is delivered corrected. -/
def State.d3Fixed (s : State) (a n : Nat) : Bool := (List.range n).any (fun k => (s.d3Word (a + 8 * k)).fixed)

/-- A retraining starts (R345): READY 0 until one ends successfully (log 62). -/
def State.startRetrain (s : State) : State :=
  if s.hasD3 = true ∧ s.getB MEM.MEM_STAT_RETRAINING.f = false ∧ s.mem.failed = false then
    { (s.put MEM.MEM_STAT_RETRAINING.f 1).put MEM.MEM_STAT_READY.f 0 with mem := { s.mem with second := false } }
  else s

/-- An apply is reading GDDR7, or its read is queued (07_peer_contexts.md R251). -/
def State.applyReading (s : State) : Bool :=
  s.ctx.applies.any (fun x => decide (x.phase = .reading) && x.line.isNone)

/-- A bank refreshed now. -/
def State.refreshBank (s : State) (b : Nat) : State :=
  let s := s.countD0 0x30 10 1
  { s with mem := { s.mem with refreshed := s.mem.refreshed.set 0 b s.time.tick, deferred := s.mem.deferred.erase b } }

/-- The refresh band takes effect; a higher one waits for an apply read that is queued or under way (R359). -/
def State.setBand (s : State) (b : Nat) : State :=
  if s.applyReading = true ∧ s.get MEM.MEM_STAT_BAND.f < b then { s with mem := { s.mem with bandDue := some b } }
  else ({ s with mem := { s.mem with bandDue := none } }).put MEM.MEM_STAT_BAND.f b

/-- After an apply read, a band that waited takes effect and the refreshes that were deferred are caught up (R251, R359). -/
def State.catchUp (s : State) : State :=
  if s.applyReading then s
  else
    let s := match s.mem.bandDue with
      | some b => s.setBand b
      | none => s
    s.each s.mem.deferred (fun s b => s.refreshBank b)

end Sys2Proof.Machine
end

