-- ==== Sys2Proof/Machine/Mgmt.lean ====
section
/-!
DEFINITION. The command ring, the Mace core's taking of commands, the completion queue (15_management.md R427 to R431),
and the commands of the Core engine that need no other unit: NOP and CLOCK_SWITCH.
-/

namespace Sys2Proof.Machine

open Sys2Proof

/-- The command-ring queue (monitor at 0x0000_0300). -/
def ringId : QueueId := ⟨.cmdRing, 0⟩

/-- The command of a ring entry. -/
def entryWords (e : QEntry) : List Nat :=
  match e.data with
  | .command ws => ws.map (·.toNat)
  | _ => []

/-! ### Completing and aborting -/

/-- The first taken command of an engine (R428: each engine runs its commands one at a time, in order). -/
def State.headOf (s : State) (e : Engine) : Option (List Nat) :=
  (s.mgmt.taken.find? (fun t => decide (t.engine = e))).map (·.words)

/-- A completion queued with no change to the engines. -/
def State.queueCompletion (s : State) (w : List Nat) (st : Status) (detail r0 r1 : Nat) : State :=
  let s := s.noteEvent 294
  { s with mgmt := { s.mgmt with cpls := s.mgmt.cpls ++ [⟨cmdTag w, cmdOpcode w, st, detail, r0, r1⟩] } }

/-- A taken command completes: it leaves its engine and its completion joins the queue (R429). -/
def State.complete (s : State) (e : Engine) (w : List Nat) (st : Status) (detail r0 r1 : Nat) : State :=
  let s := { s with mgmt := { s.mgmt with taken := s.mgmt.taken.erase ⟨e, w⟩ } }
  s.queueCompletion w st detail r0 r1

/-- Every taken command that satisfies `p` completes with `st` (R51, R381, R88). -/
def State.abortWhere (s : State) (p : Engine → List Nat → Bool) (st : Status) : State :=
  s.each (s.mgmt.taken.filter (fun t => p t.engine t.words)) (fun s t => s.complete t.engine t.words st 0 0 0)

/-- The head command of engine `e`, if it is `opcode` with operation `op`. -/
def State.headIs (s : State) (e : Engine) (opcode op : Nat) : Option (List Nat) :=
  match s.headOf e with
  | some w => if cmdOpcode w = opcode ∧ cmdOp w = op then some w else none
  | none => none

/-- `f` on the head command of engine `e` if it is `opcode`, `op`; otherwise nothing happens (log 16). -/
def State.withHead (s : State) (e : Engine) (opcode op : Nat) (f : List Nat → State) : State :=
  match s.headIs e opcode op with
  | some w => f w
  | none => s

/-! ### The checks of R430 -/

/-- The engine of an opcode (R428). -/
def engineOf (w : List Nat) : Engine :=
  match cmdOpcode w with
  | 1 => .loader
  | 2 => .memory
  | 3 => .context
  | 4 => .context
  | 5 => .schedule
  | 6 => .capture (bitField (cmdWord w 1) 0 3 / 4)
  | 7 => .test
  | 10 => .time
  | _ => .core

/-- NOP, WAIT and CLOCK_SWITCH are fences (R428). -/
def isFence (w : List Nat) : Bool := cmdOpcode w == 0 || cmdOpcode w == 8 || cmdOpcode w == 9

/-- Words `i` and above are zero. -/
def restZero (w : List Nat) (i : Nat) : Bool := (w.drop i).all (· == 0)

/-- The capture-size limit on LEN (03_line_receive.md R133). -/
def captureLimit (point dest : Nat) : Nat :=
  match point, dest with
  | 0, 0 => 1927 | 0, _ => 59
  | 1, 0 => 1489 | 1, _ => 46
  | 2, 0 => 1489 | 2, _ => 46
  | _, 0 => 6553 | _, _ => 203

/-- FILL's range is one that R350 allows. -/
def fillRangeOk (addr len : Nat) : Bool :=
  decide (addr % 64 = 0) && decide (len % 64 = 0) && decide (64 ≤ len) &&
    ((decide (0x000E8000 ≤ addr) && decide (addr + len ≤ 0x000F0000)) ||
     (decide (0x00034000 ≤ addr) && decide (addr + len ≤ 0x00038000)) ||
     (decide (0x80000000 ≤ addr) && decide (addr + len ≤ 0xA0000000)))

/-- Reserved fields are zero and every argument is in the range of the command table (R430), for an opcode of the
table.  LOAD_IMAGE KEY_WRITE and KEY_REVOKE admit key slot 0, whose refusal is R73's error KEY (log 17). -/
def argsOk (w : List Nat) : Bool :=
  let op := cmdOp w
  let w1 := cmdWord w 1
  let w2 := cmdWord w 2
  decide (bitField (cmdWord w 0) 12 4 = 0) &&
  match cmdOpcode w with
  | 0 => op == 0 && restZero w 1
  | 1 =>
    restZero w 2 &&
    match op with
    | 0 => decide (w1 ≤ 32768)
    | 1 => w1 == 1 || w1 == 2
    | 2 => decide (1 ≤ w1) && decide (w1 ≤ 32768)
    | 3 => w1 == 0
    | 4 => w1 == 1 || w1 == 2 || w1 == 3
    | 5 => decide (w1 ≤ 3)
    | 6 => decide (w1 ≤ 3)
    | _ => false
  | 2 => op == 0 && restZero w 3 && fillRangeOk w1 w2
  | 3 => decide (op ≤ 6) && restZero w 3 && decide (w2 < 256)
  | 4 => decide (op ≤ 2) && restZero w 3 && decide (w2 < 256)
  | 5 =>
    restZero w 2 &&
    match op with
    | 0 => decide (w1 ≤ 4095) || w1 == 0xFFFF
    | 1 => decide (w1 ≤ 4095)
    | 2 => decide (w1 ≤ 4095)
    | 3 => w1 == 0
    | _ => false
  | 6 =>
    op == 0 && restZero w 3 && bitField w1 3 1 == 0 && bitField w1 6 2 == 0 && bitField w1 9 3 == 0 &&
    bitField w1 15 1 == 0 && decide (bitField w1 12 3 ≤ 5) && decide (1 ≤ bitField w2 16 16) &&
    decide (bitField w2 16 16 ≤ captureLimit (bitField w1 4 2) (bitField w1 8 1)) &&
    decide (bitField w2 0 16 ≤ bitField w2 16 16)
  | 7 =>
    op == 0 && restZero w 2 && bitField w1 3 5 == 0 && decide (w1 < 4096) &&
    (decide (bitField w1 8 4 ≤ 11) ||
      (decide (bitField w1 8 4 ≤ 13) && bitField w1 0 1 == 0))
  | 8 => op == 0 && restZero w 1
  | 9 => decide (op ≤ 1) && restZero w 1
  | _ => decide (op ≤ 1) && restZero w 1

/-- The status that R430's order of checks gives at once, if any. -/
def State.takeStatus (s : State) (w : List Nat) : Option Status :=
  if 10 < cmdOpcode w then some .badOpcode
  else if s.loader.noImage = true ∧ ¬ (cmdOpcode w = 1 ∧ 1 ≤ cmdOp w ∧ cmdOp w ≤ 6) then some .notAvailable
  else if argsOk w then none
  else some .badArgument

/-- The Mace core serves the ring: it has been released at ENTRY, or runs its boot ROM in the no-image state
(02_bitstream.md R77, R80); the ring behind a WAIT that enters DEEP_STANDBY is not served (12_power.md R377). -/
def State.coreServes (s : State) : Bool :=
  s.d0Up && (s.loader.coreEntry.isSome || s.loader.noImage) && !s.power.drains.contains .package

/-- A completion entry can be reserved for one more command (R429). -/
def State.canReserve (s : State) : Bool := decide (s.mgmt.cpls.length + s.mgmt.taken.length < 128)

/-- The fences let the core take `w` now (R428). -/
def State.fenceAllows (s : State) (w : List Nat) : Bool :=
  (!isFence w || s.mgmt.taken.isEmpty) && s.mgmt.taken.all (fun t => !isFence t.words)

/-- The head of the ring can be taken now. -/
def State.takeable (s : State) : Option (List Nat) :=
  match (s.queue ringId).entries with
  | [] => none
  | e :: _ => if s.coreServes && s.canReserve && s.fenceAllows (entryWords e) then some (entryWords e) else none

/-- The ring's head leaves, and its credit returns (R428). -/
def State.popRing (s : State) : State :=
  let q := s.queue ringId
  s.setQueue ringId { q with entries := q.entries.drop 1, credits := q.credits + 1 }

/-- What CLOCK_SWITCH does when its checks pass: the core, the loader and the thermal timer move to the target clock
(01_architecture.md R36). -/
def State.switchClock (s : State) (w : List Nat) (mclk : Bool) : State :=
  if mclk = true ∧ s.getB PWR.PWR_STAT_REFCLK_OK.f = false then s.complete .core w .badState 0 0 0
  else (s.putB PWR.PWR_STAT_CORE_CLK.f mclk).complete .core w .ok 0 0 0

/-- The head of the ring is taken: it completes at once with the first status of R430, or passes to its engine.  A NOP
completes OK when it is taken (R428).  An operation of the loader makes BUSY read 1 (R84).  A core halted in WAIT wakes (12_power.md
R376). -/
def State.take (s : State) : State :=
  match s.takeable with
  | none => s
  | some w =>
    let s := ((s.popRing).countD0 0x30 14 1).put INTC.IC_STAT_CORE_WAIT.f 0
    match s.takeStatus w with
    | some st => s.queueCompletion w st 0 0 0
    | none =>
      if cmdOpcode w = 0 then s.queueCompletion w .ok 0 0 0
      else
        let s := { s with mgmt := { s.mgmt with taken := s.mgmt.taken ++ [⟨engineOf w, w⟩] } }
        let s := if cmdOpcode w = 1 then s.put LOADER.STATUS_BUSY.f 1 else s
        if cmdOpcode w = 8 then s.put PWR.PWR_STAT_CHANGING.f 1 else s

/-- CMD_PUSH (R427): with D0 out of reset, the eight words of CMD_IN join the ring, spending a credit; with no credit the
push is discarded and sets OVF (01_architecture.md R40, R48). -/
def cmdPushEffect (s : State) : State :=
  if s.d0Up then
    let q := s.queue ringId
    if q.credits = 0 then (s.noteEvent 293).setQueue ringId { q with ovf := true }
    else
      let ws := (List.range 8).map (fun i => BitVec.ofNat 32 (s.get (GLOBAL.CMD_IN_WORD.f 0 i)))
      s.setQueue ringId { q with credits := q.credits - 1, entries := q.entries ++ [⟨.command ws, false⟩],
                                 hwm := max q.hwm (q.entries.length + 1) }
  else s

def execCmdPush (s : State) : Host.Outcome State Fault Refusal := .next (cmdPushEffect s)

def execCommandTake (s : State) : Host.Outcome State Fault Refusal := .next s.take

/-- CPL_POP (R429): the head completion is removed; with the queue empty nothing happens. -/
def cplPopEffect (s : State) : State :=
  if s.d0Up then ({ s with mgmt := { s.mgmt with cpls := s.mgmt.cpls.drop 1 } } : State).releaseIrq else s

def execCplPop (s : State) : Host.Outcome State Fault Refusal := .next (cplPopEffect s)

/-- NOP (R428): the NOP at the head of the ring is taken and completes OK, once every earlier command has completed. -/
def nopEffect (s : State) : State :=
  match s.takeable with
  | some w => if cmdOpcode w = 0 then s.take else s
  | none => s

def execNop (s : State) : Host.Outcome State Fault Refusal := .next (nopEffect s)

def execClockSwitchInternal (s : State) : Host.Outcome State Fault Refusal :=
  .next (s.withHead .core 9 0 (fun w => s.switchClock w false))

def execClockSwitchMclk (s : State) : Host.Outcome State Fault Refusal :=
  .next (s.withHead .core 9 1 (fun w => s.switchClock w true))

end Sys2Proof.Machine
end

