-- ==== Sys2Proof/Machine/BeaconTx.lean ====
section
/-!
DEFINITION. The transmit side of the Cardamom beacon and its synthesiser: due, held and sent frames, hops and
calibration (08_beacon.md R264 to R276, R286).
-/

namespace Sys2Proof.Machine

open Sys2Proof

def State.bcnL (s : State) (n : Nat) : BcnLane := s.bcn.get .fresh n
def State.setBcn (s : State) (n : Nat) (b : BcnLane) : State := { s with bcn := s.bcn.set .fresh n b }
def State.synR (s : State) (r : Nat) : SynSt := s.syn.get .fresh r
def State.setSyn (s : State) (r : Nat) (x : SynSt) : State := { s with syn := s.syn.set .fresh r x }

/-- The CRC-16 of R266 over bytes in sent order. -/
def crc16 (bs : List Nat) : Nat :=
  bs.foldl (fun c b => (List.range 8).foldl (fun c i =>
    let x := 2 * c + (if Nat.testBit c 15 ≠ Nat.testBit b (7 - i) then 1 else 0)
    if Nat.testBit c 15 ≠ Nat.testBit b (7 - i) then (x - 1) % 65536 ^^^ 0x1021 else x % 65536) c) 0xFFFF

/-- `n` bytes of `v`, most significant first (R265). -/
def beBytes (n v : Nat) : List Nat := (leBytes n v).reverse

/-! ### The frame on the line (R261 to R265) -/

/-- The centre frequency of channel `k` in MHz (R261). -/
def beaconMHz (k : Nat) : Nat := 250 + 30 * k

/-- The bits of bytes in sent order, each byte most significant bit first (R265). -/
def byteBits (bs : List Nat) : List Bool := bs.flatMap (fun b => (List.range 8).map (fun i => Nat.testBit b (7 - i)))

/-- The level of a bit of the preamble, the sync word and 2-FSK (R263). -/
def fsk2 (b : Bool) : Int := if b then 3 else -3

/-- The level of a pair of bits of 4-FSK, the first one more significant (R263). -/
def fsk4Level (a b : Bool) : Int :=
  match a, b with
  | false, false => -3
  | false, true => -1
  | true, true => 1
  | true, false => 3

/-- The levels of payload bits under 4-FSK. -/
def fsk4Levels (bs : List Bool) : List Int :=
  match bs with
  | a :: b :: r => fsk4Level a b :: fsk4Levels r
  | _ => []

/-- The levels of payload bits under the modulation of the frame (R263). -/
def payloadLevels (fsk4 : Bool) (bs : List Bool) : List Int := if fsk4 then fsk4Levels bs else bs.map fsk2

/-- The sync word of a frame type (R264). -/
def syncWord (full : Bool) : Nat := if full then 0xA35C else 0x5CA3

/-- The 32 levels of the preamble (R264). -/
def preambleLevels : List Int := (List.range 32).map (fun i => fsk2 (i % 2 == 0))

/-- The 16 levels of a sync word, most significant bit first (R264). -/
def syncLevels (full : Bool) : List Int := (List.range 16).map (fun i => fsk2 (Nat.testBit (syncWord full) (15 - i)))

/-- The payload with its check: one CHECK byte after an ID burst's five, the CRC after a full frame's eighteen (R265). -/
def sealBody (full : Bool) (body : List Nat) : List Nat :=
  body ++ (if full then beBytes 2 (crc16 body) else [crc16 body / 256])

/-- The levels of a frame's symbols: preamble, sync word and payload (R264). -/
def TxFrame.levels (f : TxFrame) : List Int :=
  preambleLevels ++ syncLevels f.full ++ payloadLevels f.fsk4 (byteBits (sealBody f.full f.body))

/-- A turn of the subcarrier's phase, in units in which the centre frequency of a channel is a whole number per DAC symbol
(225,781.25 MHz) and the deviation of a level a whole number of units of 2^-16 of the pulse (R261, R262). -/
def beaconTurn : Nat := 541875 * 2 ^ 16

/-- One beacon symbol of 20 ns in eighths of a DAC symbol: 225,781.25 / 50 times 8 (R261). -/
def beaconSymbol : Nat := 36125

/-- The phase that the subcarrier gains in one DAC symbol at position `pos` of a frame (R262): centre frequency and the three
symbols whose pulses reach the position. -/
def TxFrame.phaseStep (f : TxFrame) (pos : Nat) : Int :=
  let ls := f.levels
  let n := pos / beaconSymbol
  let u := pos % beaconSymbol
  let g (k : Nat) : Int := (Config.gaussPulse (u + k * beaconSymbol) : Int)
  let before : Int := if n = 0 then 0 else ls.getD (n - 1) 0
  ((600 + 72 * f.ch) * 2 ^ 16 : Nat) + 10 * (before * g 2 + ls.getD n 0 * g 1 + ls.getD (n + 1) 0 * g 0)

/-- The beacon over `k` DAC symbols (R179, R262): its samples in units of 1/4096 of the peak, and frame and phase afterwards.  A
frame gives samples until its last symbol is over. -/
def beaconSamples (k : Nat) (f : TxFrame) (phase : Nat) : List Int × TxFrame × Nat :=
  match k with
  | 0 => ([], f, phase)
  | k + 1 =>
    if f.pos < f.levels.length * beaconSymbol then
      let ph := ((phase + f.phaseStep f.pos) % (beaconTurn : Int)).toNat
      let r := beaconSamples k { f with pos := f.pos + 8 } ph
      (clampInt (-4096) 4096 (Config.cosine ph beaconTurn) :: r.1, r.2)
    else
      let r := beaconSamples k f phase
      (0 :: r.1, r.2)

/-- The descriptor of the current group of lane `n` (07_peer_contexts.md R224). -/
def State.descOf (s : State) (n : Nat) : Nat :=
  s.groupOf n + 8 * (match s.groupSize n with | 1 => 0 | 2 => 1 | 4 => 2 | _ => 3)

/-- Lane `n` is the lowest lane of its current group. -/
def State.lowest (s : State) (n : Nat) : Bool := decide (s.groupOf n = n)

/-- The output of lane `n` is squelched (05_line_transmit.md R182). -/
def State.squelched (s : State) (n : Nat) : Bool := s.getB (LINE.TX_STATE_SQUELCHED.f n)

/-- A frame of lane `n` is discarded and counted as skipped (R269) (log 60). -/
def State.skipFrame (s : State) (n : Nat) : State := (s.raiseLane n 15).addTo (BCN.TX_SKIP_SKIP_CNT.f n) 1

/-- The lane's code in SYN_STAT.SERVING. -/
def servingCode (n : Nat) : Nat := 1 + n % 2

/-- The synthesiser of region `r` tunes to channel `ch` for lane `n`: at once if it is locked there, else by a hop
(R272). -/
def State.tune (s : State) (r ch : Nat) : State :=
  if s.getB (SYN.SYN_STAT_LOCKED.f r) = true ∧ s.get (SYN.SYN_STAT_CH.f r) = ch then
    (s.setSyn r { s.synR r with hop := none }).put (SYN.SYN_STAT_SETTLING.f r) 0
  else
    (((s.setSyn r { s.synR r with hop := some ch }).put (SYN.SYN_STAT_SETTLING.f r) 1).put (SYN.SYN_STAT_LOCKED.f r) 0).put
      (SYN.SYN_STAT_CH.f r) ch

/-- SETTLING (R288): a hop is under way, or the background calibration, which waits while the synthesiser serves a frame. -/
def State.showSettling (s : State) (r : Nat) : State :=
  s.putB (SYN.SYN_STAT_SETTLING.f r)
    ((s.synR r).hop.isSome || (decide ((s.synR r).bg < 16) && decide (s.get (SYN.SYN_STAT_SERVING.f r) = 0)))

/-- The lane of region `r` whose held frame is served next: due time, then ascending lane (R273). -/
def State.nextHeld (s : State) (r : Nat) : Option Nat :=
  match (s.bcnL (2 * r)).held, (s.bcnL (2 * r + 1)).held with
  | some a, some b => if b.due < a.due then some (2 * r + 1) else some (2 * r)
  | some _, none => some (2 * r)
  | none, some _ => some (2 * r + 1)
  | none, none => none

/-- The synthesiser of region `r`, if it serves nobody, begins to serve the next held frame. -/
def State.serveNext (s : State) (r : Nat) : State :=
  if s.get (SYN.SYN_STAT_SERVING.f r) = 0 then
    match s.nextHeld r with
    | some n => (s.put (SYN.SYN_STAT_SERVING.f r) (servingCode n)).tune r (s.get (BCN.TX_CH_CH.f n))
    | none => s.showSettling r
  else s

/-- Lane `n`'s frame fell due in the same cycle as that of the upper lane, which the synthesiser had begun to serve: the lower lane
comes first (R273). -/
def State.lowerFirst (s : State) (n : Nat) : State :=
  let r := n / 2
  let up := s.bcnL (n + 1)
  if n % 2 = 0 ∧ s.get (SYN.SYN_STAT_SERVING.f r) = servingCode (n + 1) ∧ up.frame = none ∧
      up.held.any (fun h => decide (h.due = s.time.tick)) = true then
    (s.put (SYN.SYN_STAT_SERVING.f r) (servingCode n)).tune r (s.get (BCN.TX_CH_CH.f n))
  else s.serveNext r

/-- The held frame of lane `n` is discarded and counted as skipped; the synthesiser stops serving it (log 60). -/
def State.dropHeld (s : State) (n : Nat) : State :=
  if (s.bcnL n).held.isSome then
    let s := ((s.setBcn n { s.bcnL n with held := none }).put (BCN.TX_STAT_HELD.f n) 0).skipFrame n
    let r := n / 2
    if s.get (SYN.SYN_STAT_SERVING.f r) = servingCode n ∧ (s.bcnL n).frame = none then
      ((s.put (SYN.SYN_STAT_SERVING.f r) 0)).serveNext r
    else s
  else s

/-- A frame of lane `n` falls due (R268, R269): skipped while the output is squelched, has no power, or another frame is
held; otherwise held until the synthesiser serves it (log 78). -/
def State.frameDue (s : State) (n : Nat) (full : Bool) : State :=
  if s.lowest n then
    if s.squelched n || !s.laneRuns n || (s.bcnL n).held.isSome then s.skipFrame n
    else
      let s := s.setBcn n { s.bcnL n with held := some ⟨full, s.time.tick⟩ }
      (s.put (BCN.TX_STAT_HELD.f n) 1).lowerFirst n
  else s

/-- A new transmit channel of lane `n` (R270): at the end of a frame under way, otherwise at once; a held frame goes to
the new channel. -/
def State.txChannel (s : State) (n ch : Nat) : State :=
  let b := s.bcnL n
  if b.frame.isSome then s.setBcn n { b with chNext := some ch }
  else
    let s := s.put (BCN.TX_CH_CH.f n) ch
    if b.held.isSome ∧ s.get (SYN.SYN_STAT_SERVING.f (n / 2)) = servingCode n then s.tune (n / 2) ch else s

/-- The frame of lane `n` is no longer being sent: a pending channel takes effect and the synthesiser serves the next. -/
def State.frameEnd (s : State) (n : Nat) : State :=
  let b := s.bcnL n
  let s := (s.setBcn n { b with frame := none, chNext := none }).put (BCN.TX_STAT_SENDING.f n) 0
  let s := match b.chNext with
    | some ch => s.put (BCN.TX_CH_CH.f n) ch
    | none => s
  (s.put (SYN.SYN_STAT_SERVING.f (n / 2)) 0).serveNext (n / 2)

/-- Squelch entry at lane `n` (R269, R286): the frame being sent ends with TRUNC and a held frame is skipped (log 60). -/
def State.truncFrame (s : State) (n : Nat) : State :=
  let s := s.dropHeld n
  if (s.bcnL n).frame.isSome then (s.raiseLane n 16).frameEnd n else s

/-- The beacon of lane `n` is lost with its die or region (R286): frames sent and received, stamps and status. -/
def State.bcnLost (s : State) (n : Nat) : State :=
  let s := s.setBcn n { s.bcnL n with held := none, frame := none, chNext := none, rx := none, noiseDirty := true }
  let s := ((s.put (BCN.TX_STAT_SENDING.f n) 0).put (BCN.TX_STAT_HELD.f n) 0).put (BCN.RX_STAT_RECEIVING.f n) 0
  s.onlyIf (decide (s.get (SYN.SYN_STAT_SERVING.f (n / 2)) = servingCode n))
    (fun s => (s.put (SYN.SYN_STAT_SERVING.f (n / 2)) 0).showSettling (n / 2))

/-! ### Commands -/

/-- A write of 1 to SEND (R268), in any TX_MODE other than 0. -/
def sendEffect (n : Lane) (full : Bool) (s : State) : State :=
  if s.d0Up = true ∧ s.get (BCN.TX_CFG_TX_MODE.f n) ≠ 0 then s.frameDue n full else s

def execSend (lane : Lane) (full : Bool) (s : State) : Host.Outcome State Fault Refusal := .next (sendEffect lane full s)

/-- A write of TX_MODE (R268): the period grid starts (log 78). -/
def txModeWriteEffect (n : Lane) (mode : BitVec 2) (s : State) : State :=
  if s.d0Up then (s.put (BCN.TX_CFG_TX_MODE.f n) mode.toNat).setBcn n { s.bcnL n with grid := s.time.tick } else s

def execTxModeWrite (lane : Lane) (mode : BitVec 2) (s : State) : Host.Outcome State Fault Refusal :=
  .next (txModeWriteEffect lane mode s)

/-- A periodic frame falls due (R268): an ID burst in TX_MODE 1, a full frame in 2. -/
def beaconFrameDueEffect (n : Lane) (s : State) : State :=
  match s.d0Up, s.get (BCN.TX_CFG_TX_MODE.f n) with
  | true, 1 => s.frameDue n false
  | true, 2 => s.frameDue n true
  | _, _ => s

def execBeaconFrameDue (lane : Lane) (s : State) : Host.Outcome State Fault Refusal := .next (beaconFrameDueEffect lane s)

/-- The held frame of lane `n` can start (R269, R273). -/
def State.canStart (s : State) (n : Nat) : Bool :=
  let r := n / 2
  s.getB (SYN.SYN_STAT_LOCKED.f r) && decide (s.get (SYN.SYN_STAT_CH.f r) = s.get (BCN.TX_CH_CH.f n)) &&
    decide (s.get (SYN.SYN_STAT_SERVING.f r) = servingCode n) && decide ((s.synR r).hop = none) && !s.squelched n &&
    decide ((s.bcnL n).frame = none)

/-- A held frame starts: its payload begins with PEER_ID and GS, and SEQ advances (R265, R269). -/
def beaconFrameStartEffect (n : Lane) (s : State) : State :=
  match (s.bcnL n).held, s.canStart n with
  | some h, true =>
    let seq := s.get (BCN.TX_STAT_SEQ.f n)
    let body := beBytes 4 (s.get (BCN.TX_PEER_PEER_ID.f n)) ++ [32 * seq + s.descOf n] ++
      (if h.full then List.replicate 13 0 else [])
    let f : TxFrame := { full := h.full, fsk4 := s.getB (BCN.TX_CFG_TX_MOD.f n), ch := s.get (BCN.TX_CH_CH.f n)
                         body := body, departed := none, pos := 0 }
    let s := s.setBcn n { s.bcnL n with held := none, frame := some f }
    ((s.put (BCN.TX_STAT_HELD.f n) 0).put (BCN.TX_STAT_SENDING.f n) 1).addTo (BCN.TX_STAT_SEQ.f n) 1
  | _, _ => s

def execBeaconFrameStart (lane : Lane) (s : State) : Host.Outcome State Fault Refusal :=
  .next (beaconFrameStartEffect lane s)

/-- The reference symbol departs (R275, R276): the departure tick is latched. -/
def beaconDepartureEffect (n : Lane) (s : State) : State :=
  match (s.bcnL n).frame with
  | some f =>
    if f.departed = none then
      let t := s.time.tick
      let s := s.setBcn n { s.bcnL n with frame := some { f with departed := some t } }
      (s.put (BCN.DEP_TICK_LO.f n) t).put (BCN.DEP_TICK_HI.f n) (t / 2 ^ 32)
    else s
  | none => s

def execBeaconDeparture (lane : Lane) (s : State) : Host.Outcome State Fault Refusal :=
  .next (beaconDepartureEffect lane s)

/-- The bound of 600 ns on the return of a converted departure time, in ticks of 136/225.78125 ns (R276). -/
def returnBound : Nat := 996

/-- The time base has been set or disciplined since reset (R276). -/
def State.timeGood (s : State) : Bool := s.getB TIME.TIME_STAT_TIME_SET.f || s.time.disciplined

/-- D0 returns the converted departure time, and the modulator writes it into the full frame (R276); a return more than 600 ns after
the departure is too late. -/
def beaconTimestampReturnEffect (n : Lane) (s : State) : State :=
  match (s.bcnL n).frame with
  | some f =>
    match f.departed.bind s.convert with
    | some t =>
      if f.full = true ∧ s.timeGood = true ∧ s.time.tick ≤ f.departed.getD 0 + returnBound then
        let body := f.body.take 5 ++ [1] ++ beBytes 4 (timeSec t) ++ beBytes 4 (timeNs t) ++ beBytes 2 (timeFrac t) ++ [0, 0]
        s.setBcn n { s.bcnL n with frame := some { f with body := body } }
      else s
    | none => s
  | none => s

def execBeaconTimestampReturn (lane : Lane) (s : State) : Host.Outcome State Fault Refusal :=
  .next (beaconTimestampReturnEffect lane s)

/-- The last symbol of a frame is sent (R269, R287). -/
def sentEffect (n : Lane) (s : State) : State :=
  match (s.bcnL n).frame with
  | some f =>
    if f.departed.isSome then
      let s := s.setBcn n { s.bcnL n with lastSent := sealBody f.full f.body }
      (((s.raiseLane n 14).addTo (BCN.TX_SENT_SENT_CNT.f n) 1).countLane n 0x10 1).frameEnd n
    else s
  | none => s

def execSent (lane : Lane) (s : State) : Host.Outcome State Fault Refusal := .next (sentEffect lane s)

/-- A write of TX_CH.LOAD (R270). -/
def txChLoadEffect (n : Lane) (ch : BitVec 4) (s : State) : State := if s.d0Up then s.txChannel n ch.toNat else s

def execTxChLoad (lane : Lane) (ch : BitVec 4) (s : State) : Host.Outcome State Fault Refusal :=
  .next (txChLoadEffect lane ch s)

/-- The calibration word of a channel with VALID set or clear, its reserved bits 0 (R271). -/
def calWord (w : Nat) (valid : Bool) : Nat := w % 2 ^ 28 + (if valid then 2 ^ 31 else 0)

/-- The synthesiser locks (R272): the settled values go into the channel's word with VALID. -/
def synthLockEffect (r : Region) (cal : Word) (s : State) : State :=
  match (s.synR r).hop with
  | some ch =>
    let s := (s.setSyn r { s.synR r with hop := none }).showSettling r
    let s := (s.put (SYN.SYN_STAT_LOCKED.f r) 1).put (SYN.SYN_STAT_CH.f r) ch
    s.put (SYN.SYN_CAL_CAL.f r ch) (calWord cal.toNat true)
  | none => s

def execSynthLock (r : Region) (cal : Word) (s : State) : Host.Outcome State Fault Refusal :=
  .next (synthLockEffect r cal s)

/-- A hop fails to lock (R272): NO_LOCK, VALID cleared, and every frame held for the channel skipped. -/
def noLockEffect (r : Region) (s : State) : State :=
  match (s.synR r).hop with
  | some ch =>
    let s := ((s.setSyn r { s.synR r with hop := none }).put (SYN.SYN_STAT_SETTLING.f r) 0).raise (314 + r)
    let s := s.put (SYN.SYN_CAL_CAL.f r ch) (calWord (s.get (SYN.SYN_CAL_CAL.f r ch)) false)
    let s := s.put (SYN.SYN_STAT_SERVING.f r) 0
    let drop (s : State) (n : Nat) : State :=
      if (s.bcnL n).held.isSome ∧ s.get (BCN.TX_CH_CH.f n) = ch then
        ((s.setBcn n { s.bcnL n with held := none }).put (BCN.TX_STAT_HELD.f n) 0).skipFrame n
      else s
    (drop (drop s (2 * r)) (2 * r + 1)).serveNext r
  | none => s

def execNoLock (r : Region) (s : State) : Host.Outcome State Fault Refusal := .next (noLockEffect r s)

/-- One channel of the background calibration, while no frame needs the synthesiser (R272), paused by
throttling (R392) (log 85). -/
def synthBgCalEffect (r : Region) (cal : Word) (s : State) : State :=
  let x := s.synR r
  if x.bg < 16 ∧ s.get (SYN.SYN_STAT_SERVING.f r) = 0 ∧ x.hop = none then
    s.bgUnit (16 + r) (fun s =>
      let s := s.setSyn r { x with bg := x.bg + 1 }
      let s := (s.put (SYN.SYN_CAL_CAL.f r x.bg) (calWord cal.toNat true)).put (SYN.SYN_STAT_CH.f r) x.bg
      ((s.put (SYN.SYN_STAT_LOCKED.f r) 1).putB (SYN.SYN_STAT_BG_CAL.f r) (decide (x.bg + 1 < 16))).showSettling r)
  else s

def execSynthBgCal (r : Region) (cal : Word) (s : State) : Host.Outcome State Fault Refusal :=
  .next (synthBgCalEffect r cal s)

end Sys2Proof.Machine
end

