-- ==== Sys2Proof/Machine/Detect.lean ====
section
/-!
DEFINITION. The receive datapath of a line lane: interleave correction, FFE, DFE and 16-state detector with
reliabilities, the votes of the phase detector, the adaptation loops and what is measured (03_line_receive.md R96 to R98, R100,
R103, R106 to R112, R115, R126, R130).
-/

namespace Sys2Proof.Machine

open Sys2Proof

/-- The sign of `z`, 0 at 0 (log 18). -/
def sgn (z : Int) : Int := if 0 < z then 1 else if z < 0 then -1 else 0

/-- The field value of an accumulator: its integer part, rounded down (R111). -/
def accVal (a : Int) : Int := a / 4096

/-- An accumulator advanced by `d` and kept inside the range of a field of `lo` to `hi` (log 18). -/
def accAdd (lo hi : Int) (a d : Int) : Int := clampInt (4096 * lo) (4096 * hi + 4095) (a + d)

/-- A raw sample corrected (R97): (v - O/16)(1 + G/4096), rounded half away from zero, saturated to 8 bits. -/
def correctSample (off gain v : Int) : Int := satSigned 8 (roundDiv ((16 * v - off) * (4096 + gain)) 65536)

/-- The 136 corrected samples of word `c` of lane `n`: position `j` is of sub-ADC (8c + j) mod 64 (R96). -/
def State.correctWord (s : State) (n c : Nat) (raw : List Int) : List Int :=
  raw.zipIdx.map (fun p =>
    let k := (8 * c + p.2) % 64
    correctSample (s.getZ (LINE.CORR_OFFSET.f n k)) (s.getZ (LINE.CORR_GAIN.f n k)) p.1)

/-- A corrected sample at an end of its range counts as clipped (R97). -/
def clippedCount (xs : List Int) : Nat := (xs.filter (fun x => x == -128 || x == 127)).length

/-- The extensions attached to lane `n`. -/
def State.extsOf (s : State) (n : Nat) : List PoolExt :=
  let p := s.pool (n / 2)
  if p.holder = some n then [p.ext0, p.ext1].filterMap id else []

/-- The sum of products of two lists. -/
def dot (a b : List Int) : Int :=
  match a, b with
  | x :: r, y :: q => x * y + dot r q
  | _, _ => 0

/-- One equalised sample (R106): `xs` is the sample history from x_(k+C) backwards. -/
def ffeSample (taps : List Int) (cursor : Nat) (exts : List PoolExt) (xs : List Int) : Int :=
  let base := dot taps xs
  let seg := exts.foldl (fun a e => if e.ffe then a + dot (e.g.map accVal) (xs.drop (cursor + e.start)) else a) 0
  satSigned 10 (roundDiv (base + seg) 64)

/-- The taps in use: 12 for each FFE tile of the chain (R106). -/
def State.chainTaps (s : State) (n : Nat) : List Int :=
  ((s.lane n).eq.taps.take (12 * s.ffeCount n)).map accVal

/-- The 136 equalised samples, earliest first, from a history whose newest sample is x of the word's last position: position `j`
holds y of the symbol that lies CURSOR symbols before sample `j`, the newest one whose samples are all in (DESIGN CHOICE, log 95). -/
def ffeWord (taps : List Int) (cursor : Nat) (exts : List PoolExt) (xs : List Int) : List Int :=
  (List.range 136).map (fun j => ffeSample taps cursor exts (xs.drop (135 - j)))

/-! ### The detector -/

/-- The Gray index of a symbol value (R107, 04_inner_code.md R148). -/
def symIdx (d : Int) : Nat := ((d + 3) / 2).toNat

/-- The two bits of Gray index `u` (04_inner_code.md R148), the first one first. -/
def grayBits (u : Nat) : Bool × Bool :=
  match u with
  | 0 => (false, false) | 1 => (false, true) | 2 => (true, true) | _ => (true, false)

/-- The bits of the symbol at the head of `syms` (newest first), after the recovery of R149 when PRECODE is 1 (R150). -/
def symBits (precode : Bool) (syms : List Int) : Bool × Bool :=
  let v := symIdx (syms.getD 0 (-3))
  if precode then grayBits ((v + symIdx (syms.getD 1 (-3))) % 4) else grayBits v

/-- The error of a branch in units of 1/256: 256 (y - L) - B U d3, with d3 three symbols back on the survivor (R107). -/
def branchErr (u : Nat) (b lvl y : Int) (d3 : Int) : Int := 256 * (y - lvl) - b * (u : Int) * d3

/-- A branch metric in units of 2^-30: R107, or R110 while a noise predictor (P1, P2) is attached. -/
def branchMetric (np : Option (Int × Int)) (e : Int) (eps : List Int) : Int :=
  match np with
  | none => e * e * 16384
  | some (p1, p2) =>
    let n := 128 * e - p1 * eps.getD 0 0 - p2 * eps.getD 1 0
    n * n

/-- The reliabilities of the winner after it meets a loser `delta` worse: a bit that differs can be wrong at `delta`, one
that agrees at `delta` plus the loser's own reliability (R109; log 19). -/
def meetRel (precode : Bool) (delta : Int) (wSyms lSyms : List Int) (w l : List (Int × Int)) : List (Int × Int) :=
  match w, l with
  | (a, b) :: wr, (c, d) :: lr =>
    let x := symBits precode wSyms
    let y := symBits precode lSyms
    (min a (if x.1 = y.1 then delta + c else delta), min b (if x.2 = y.2 then delta + d else delta)) ::
      meetRel precode delta (wSyms.drop 1) (lSyms.drop 1) wr lr
  | _, _ => w

/-- What a detector step needs of the lane: U, B, levels, predictor and precoder. -/
structure DetCfg where
  u : Nat
  b : Int
  levels : List Int
  np : Option (Int × Int)
  precode : Bool
  deriving DecidableEq, Repr

/-- The survivor of state `st` extended by symbol `d` with sample `y`. -/
def extendPath (c : DetCfg) (y : Int) (st : Nat) (p : Path) (d : Int) : Path :=
  let e := branchErr c.u c.b (c.levels.getD (4 * st + symIdx d) 0) y (p.syms.getD 2 (-3))
  { metric := p.metric + branchMetric c.np e p.eps, syms := (d :: p.syms).take 36,
    rel := ((2 ^ 60, 2 ^ 60) :: p.rel).take 34, eps := (e :: p.eps).take 36 }

/-- The path of least metric, the first on equal metrics (log 19). -/
def bestPath (ps : List Path) : Path :=
  match ps with
  | [] => .fresh
  | p :: r => r.foldl (fun a q => if q.metric < a.metric then q else a) p

/-- Add-compare-select at new state (d, d1): the best of its four predecessors, with its reliabilities updated. -/
def acs (c : DetCfg) (y : Int) (paths : List Path) (d d1 : Nat) : Path :=
  let cands := (List.range 4).map (fun d2 => extendPath c y (4 * d1 + d2) (paths.getD (4 * d1 + d2) .fresh) (symOf d))
  let w := bestPath cands
  let i := cands.findIdx (fun p => decide (p = w))
  let rel := (cands.eraseIdx i).foldl
    (fun r l => meetRel c.precode (l.metric - w.metric) w.syms l.syms r l.rel) w.rel
  { w with rel := rel }

/-- One symbol through the detector: the sixteen new survivors. -/
def detStep (c : DetCfg) (y : Int) (paths : List Path) : List Path :=
  (List.range 16).map (fun st => acs c y paths (st / 4) (st % 4))

/-- The decision 32 symbols back on the best path with the symbols before it, its bits' reliabilities, and its error with the
errors before it. -/
structure Decision where
  syms : List Int
  rel : Int × Int
  eps : List Int
  deriving DecidableEq, Repr

def decide32 (c : DetCfg) (paths : List Path) : Decision :=
  let w := bestPath paths
  let i := paths.findIdx (fun p => decide (p = w))
  let rel := (paths.eraseIdx i).foldl
    (fun r l => meetRel c.precode (l.metric - w.metric) w.syms l.syms r l.rel) w.rel
  { syms := w.syms.drop 32, rel := rel.getD 32 (2 ^ 60, 2 ^ 60), eps := w.eps.drop 32 }

/-- The detector over a word: survivors afterwards and 136 decisions, earliest first. -/
def detWord (c : DetCfg) (paths : List Path) (ys : List Int) : List Path × List Decision :=
  match ys with
  | [] => (paths, [])
  | y :: r =>
    let p := detStep c y paths
    let q := detWord c p r
    (q.1, decide32 c p :: q.2)

/-- A reliability of 4 bits: min(15, Δ >> REL_SHIFT) (R109). -/
def relOf (shift : Nat) (delta : Int) : Nat := min 15 ((delta / 2 ^ 30).toNat >>> shift)

/-- The 272 decisions as a number, the first decision in its top bit, and their reliabilities in order. -/
def softWord (precode : Bool) (shift : Nat) (ds : List Decision) : Nat × List Nat :=
  (ds.foldl (fun a d => let b := symBits precode d.syms; 4 * a + 2 * natOf b.1 + natOf b.2) 0,
   ds.flatMap (fun d => [relOf shift d.rel.1, relOf shift d.rel.2]))

/-! ### Adaptation -/

/-- MU_eff of a loop (R111), or none for a stopped loop. -/
def muEff (mu boost : Nat) (acq : Bool) : Option Nat :=
  if mu = 15 then none else some (min 12 (min mu 12 + (if acq then boost else 0)))

/-- One step of a loop with sign term `t`. -/
def loopStep (mu : Option Nat) (lo hi : Int) (t a : Int) : Int :=
  match mu with
  | none => a
  | some m => accAdd lo hi a (t * 2 ^ m)

/-- The used positions of a cycle (R111): r + 17 m.  They are applied one after another, so that a later position meets what an
earlier one of the same cycle has changed (DESIGN CHOICE, log 95). -/
def usedPositions (cycle : Nat) : List Nat := (List.range 8).map (fun m => cycle % 17 + 17 * m)

/-- Every loop is frozen (R112); `loading` is a context load under way. -/
def State.adaptFrozen (s : State) (n : Nat) (loading : Bool) : Bool :=
  s.getB (LINE.RX_CTL_ADAPT_FREEZE.f n) || loading ||
    [RxState.search, .dark, .idwait, .warm].contains (s.rx n)

/-- The FFE loop at one used position: error `e`, history from x_(k+C) backwards. -/
def Equaliser.stepFfe (q : Equaliser) (mu : Option Nat) (count : Nat) (e : Int) (xs : List Int) : Equaliser :=
  { q with taps := q.taps.zipIdx.map (fun p =>
      if p.2 < 12 * count then loopStep mu (-2048) 2047 (-(sgn e) * sgn (xs.getD p.2 0)) p.1 else p.1) }

/-- The loop of an attached segment's coefficients (R111). -/
def PoolExt.stepFfe (x : PoolExt) (mu : Option Nat) (cursor : Nat) (e : Int) (xs : List Int) : PoolExt :=
  if x.ffe then
    { x with g := x.g.zipIdx.map (fun p =>
        loopStep mu (-2048) 2047 (-(sgn e) * sgn (xs.getD (cursor + x.start + p.2) 0)) p.1) }
  else x

/-- The level entry of a decision: index 4 σ + q(d), with σ from the two symbols before (R107). -/
def levelIdx (syms : List Int) : Nat :=
  4 * (4 * symIdx (syms.getD 1 (-3)) + symIdx (syms.getD 2 (-3))) + symIdx (syms.getD 0 (-3))

/-- A one-position update of DFE, target and level loops in TRAIN and TRACK (R111), with error `e`. -/
def Equaliser.stepRest (q : Equaliser) (muDfe muTgt muLvl : Option Nat) (e : Int) (syms : List Int) : Equaliser :=
  let i := levelIdx syms
  { q with
    b := loopStep muDfe (-128) 127 (-(sgn e) * sgn (syms.getD 3 (-3))) q.b
    a1 := loopStep muTgt 0 255 (sgn e * sgn (syms.getD 1 (-3))) q.a1
    a2 := loopStep muTgt 0 255 (sgn e * sgn (syms.getD 2 (-3))) q.a2
    levels := q.levels.zipIdx.map (fun p => if p.2 = i then loopStep muLvl (-511) 511 (sgn e) p.1 else p.1) }

/-- Everything the loops change at a detector word: equaliser, pool, measurement sums, segment sums. -/
structure WordOut where
  eq : Equaliser
  pool : Pool
  meas : Meas
  segG : List Int
  deriving DecidableEq, Repr

/-- The pool's extensions changed by `f` where they serve lane `n`, outside a withdrawal (R131). -/
def Pool.adapt (p : Pool) (n : Nat) (f : PoolExt → PoolExt) : Pool :=
  if p.holder = some n ∧ p.withdraw = none then { p with ext0 := p.ext0.map f, ext1 := p.ext1.map f } else p

/-- The noise-predictor loop at one position (R111): its error `e`, and the errors of the decided path, `eps[1]` and `eps[2]`
those one and two symbols before it. -/
def PoolExt.stepNp (x : PoolExt) (mu : Option Nat) (e : Int) (eps : List Int) : PoolExt :=
  if x.ffe then x
  else
    let n := 128 * e - accVal x.p1 * eps.getD 1 0 - accVal x.p2 * eps.getD 2 0
    { x with p1 := loopStep mu (-128) 127 (sgn n * sgn (eps.getD 1 0)) x.p1,
             p2 := loopStep mu (-128) 127 (sgn n * sgn (eps.getD 2 0)) x.p2 }

/-- The TRAIN or TRACK loops, the window sums and the segment sums of candidate `start` at used position `j` of a word of
decisions (R111, R126, R130).  `ys` and `xs` are newest first. -/
def State.trackPosition (s : State) (n : Nat) (ds : List Decision) (ys xs : List Int) (frozen : Bool) (start : Nat)
    (o : WordOut) (j : Nat) : WordOut :=
  match ds[j]? with
  | none => o
  | some d =>
    let u := s.get (LINE.DETECT_LEVEL_UNIT.f n)
    let y := ys.getD (135 - j + 32) 0
    let lvl := accVal (o.eq.levels.getD (levelIdx d.syms) 0)
    let d3 := d.syms.getD 3 (-3)
    let b := accVal o.eq.b
    let e := branchErr u b lvl y d3
    let sk := 256 * lvl + b * (u : Int) * d3
    let train := decide (s.rx n = .train)
    let track := decide (s.rx n = .track)
    let mu (f : FRow) := muEff (s.get (f.f n)) 0 false
    let hist := xs.drop (135 - j + 32)
    let o1 : WordOut :=
      if frozen ∨ ¬(train ∨ track) then o
      else
        { o with
          eq := (o.eq.stepFfe (mu LINE.ADAPT_MU_MU_FFE) (s.ffeCount n) e hist).stepRest (mu LINE.ADAPT_MU_MU_DFE)
            (if train && s.getB (LINE.DETECT_TGT_ADAPT.f n) then mu LINE.ADAPT_MU_MU_TGT else none)
            (mu LINE.ADAPT_MU_MU_LVL) e d.syms
          pool := (o.pool.adapt n (·.stepFfe (mu LINE.ADAPT_MU_MU_FFE) (s.cursor n) e hist)).adapt n
            (fun x => if track then x.stepNp (mu LINE.ADAPT_MU_MU_NP) e d.eps else x) }
    { o1 with
      meas := { o1.meas with sig := o1.meas.sig + (sk * sk).toNat, err := o1.meas.err + (e * e).toNat }
      segG := o1.segG.zipIdx.map (fun p => p.1 + sgn e * sgn ((xs.drop (135 - j + 32 + s.cursor n)).getD (start + p.2) 0)) }

/-- In TRAIN with TGT_ADAPT 1 the levels are recomputed from A1 and A2 at the end of each cycle (R111, R108). -/
def State.retarget (s : State) (n : Nat) (q : Equaliser) : Equaliser :=
  if s.rx n = .train ∧ s.getB (LINE.DETECT_TGT_ADAPT.f n) then
    { q with levels := (levelTable (s.get (LINE.DETECT_LEVEL_UNIT.f n)) (accVal q.a1).toNat (accVal q.a2).toNat).map (4096 * ·) }
  else q

/-- The decision-feedback slicer (R111, DD): input in units of 1/256 after its subtractions, and the nearest symbol. -/
def ddSlice (u : Nat) (a1 a2 b y : Int) (ds : List Int) : Int × Int :=
  let z := 256 * y - (u : Int) * (a1 * ds.getD 0 (-3) + a2 * ds.getD 1 (-3) + b * ds.getD 2 (-3))
  let w := 256 * (u : Int)
  (z, if z < -2 * w then -3 else if z < 0 then -1 else if z < 2 * w then 1 else 3)

/-- `y` lies within U/2 of U, -U, 3U or -3U (R115). -/
def nearLevel (u : Nat) (y : Int) : Bool :=
  decide (2 * ((y.natAbs : Int) - u).natAbs ≤ u) || decide (2 * ((y.natAbs : Int) - 3 * u).natAbs ≤ u)

/-- The states whose decisions are the slicer's (R103, R111): those of the acquisition before TRAIN (log 94). -/
def RxState.slices (r : RxState) : Bool := [RxState.gain, .cal, .cdr, .blind, .dd].contains r

/-- What the slicer carries from symbol to symbol: equaliser and extensions, decisions (newest first), the last sample, the exit
measure of BLIND or DD, and the sum of the votes. -/
structure SliceOut where
  eq : Equaliser
  pool : Pool
  ds : List Int
  yLast : Int
  exitN : Nat
  exitSum : Nat
  votes : Int
  deriving DecidableEq, Repr

/-- The error of BLIND or DD at a sample `y` that the slicer decided as `d` with input `z` (R111), in units of 1/256. -/
def sliceErr (blind : Bool) (u : Nat) (y z d : Int) : Int :=
  if blind then 256 * (y - 2 * (u : Int) * sgn y) else z - 256 * (u : Int) * d

/-- One symbol through the slicer (R103, R111, R115): the decision and its vote; at a used position of BLIND or DD the loops,
unless they are frozen, and the exit measure.  `ys` and `xs` are newest first. -/
def State.slicePosition (s : State) (n cycle : Nat) (ys xs : List Int) (frozen : Bool) (o : SliceOut) (j : Nat) : SliceOut :=
  let u := s.get (LINE.DETECT_LEVEL_UNIT.f n)
  let blind := decide (s.rx n = .blind)
  let dd := decide (s.rx n = .dd)
  let y := ys.getD (135 - j) 0
  let r := ddSlice u (accVal o.eq.a1) (accVal o.eq.a2) (accVal o.eq.b) y o.ds
  let e := sliceErr blind u y r.1 r.2
  let used := decide (j % 17 = cycle % 17) && (blind || dd)
  let mu (f : FRow) := muEff (s.get (f.f n)) (s.get (LINE.ADAPT_MU_ACQ_BOOST.f n)) true
  let hist := xs.drop (135 - j)
  let q :=
    if used && !frozen then
      let q := o.eq.stepFfe (mu LINE.ADAPT_MU_MU_FFE) (s.ffeCount n) e hist
      if dd then { q with b := loopStep (mu LINE.ADAPT_MU_MU_DFE) (-128) 127 (-(sgn e) * sgn (o.ds.getD 2 (-3))) q.b } else q
    else o.eq
  let p := if used && !frozen then o.pool.adapt n (·.stepFfe (mu LINE.ADAPT_MU_MU_FFE) (s.cursor n) e hist) else o.pool
  { eq := q, pool := p, ds := (r.2 :: o.ds).take 36, yLast := y
    exitN := o.exitN + natOf used
    exitSum := o.exitSum + (if used then (if blind then natOf (nearLevel u y) else (e * e).toNat) else 0)
    votes := o.votes + sgn (Config.symbolVote y o.yLast r.2 (o.ds.getD 0 (-3))) }

/-- The used positions of the exit measure of a state (R115). -/
def RxState.exitLimit (r : RxState) : Nat := if r = .blind then 4096 else 16384

/-- The slicer over the 136 samples of a word; an exit measure that is full starts again (log 94). -/
def State.sliceWord (s : State) (n cycle : Nat) (ys xs : List Int) : SliceOut :=
  let l := s.lane n
  let full := decide ((s.rx n).exitLimit ≤ l.rxp.exitN)
  (List.range 136).foldl (fun o j => s.slicePosition n cycle ys xs (s.adaptFrozen n l.loading) o j)
    { eq := l.eq, pool := s.pool (n / 2), ds := l.rxp.ds, yLast := l.rxp.yLast
      exitN := if full then 0 else l.rxp.exitN, exitSum := if full then 0 else l.rxp.exitSum, votes := 0 }

/-- The sum of the votes of the spectral-line detector over a word, from a history of corrected samples, newest first (R103). -/
def spectralSum (hist : List Int) : Int :=
  (List.range 136).foldl (fun a j => a + sgn (Config.spectralVote (hist.drop (135 - j)))) 0

/-- The sum of the votes at the decisions of a detector word (R103): `ys` is the history of equalised samples, newest first. -/
def detectorSum (ds : List Decision) (ys : List Int) : Int :=
  ds.zipIdx.foldl (fun a p =>
    let i := 135 - p.2 + 32
    a + sgn (Config.symbolVote (ys.getD i 0) (ys.getD (i + 1) 0) (p.1.syms.getD 0 (-3)) (p.1.syms.getD 1 (-3)))) 0

/-! ### Interleave tracking and the converter gain measured (R98, R100) -/

/-- A word of raw samples into the sums of the tracking interval: `hist` is the history of corrected samples, newest first, with
the word in front.  A product (x_(s+1) - x_(s-1)) x_s is taken once x_(s+1) is in. -/
def subWord (word : Nat) (raw hist : List Int) (subs : List SubAcc) : List SubAcc :=
  let a := raw.zipIdx.foldl (fun (r : List SubAcc) p =>
    r.modify ((8 * word + p.2) % 64) (fun x =>
      { x with n := x.n + 1, raw := x.raw + p.1, mag := x.mag + (hist.getD (135 - p.2) 0).natAbs })) subs
  (List.range 136).foldl (fun (r : List SubAcc) i =>
    r.modify ((8 * word + 198 - i) % 64) (fun x =>
      { x with cor := x.cor + (hist.getD i 0 - hist.getD (i + 2) 0) * hist.getD (i + 1) 0 })) a

/-- The AGC measurement over one more cycle (R100): 256 cycles make a measurement, and the next word starts a new one. -/
def RxPath.agcWord (x : RxPath) (xs : List Int) : RxPath :=
  let q := (xs.foldl (fun a v => a + v * v) 0).toNat
  if x.agcN < 256 then { x with agcN := x.agcN + 1, agcSum := x.agcSum + q } else { x with agcN := 1, agcSum := q }

/-- A word sampled: it counts, and a cycle of the lane's clock with it (R96). -/
def State.sampled (s : State) (n : Nat) : State :=
  let s := s.onLane n (fun l => { l with rxp := { l.rxp with sampled := l.rxp.sampled + 1 } })
  (s.countLane n 0x01 1).countLane n 0x08 (natOf (decide (s.rx n = .track)))

/-- The candidate starts of R130 for lane `n`: from the end of its chain up to 244 in steps of 4, clear of attached
segments. -/
def State.segStarts (s : State) (n : Nat) : List Nat :=
  let s0 := (12 * s.ffeCount n - s.cursor n + 3) / 4 * 4
  let busy := (s.extsOf n).filter (·.ffe)
  ((List.range 62).map (fun i => s0 + 4 * i)).filter (fun x =>
    decide (x ≤ 244) && busy.all (fun e => decide (x + 12 ≤ e.start) || decide (e.start + 12 ≤ x)))

/-- The candidate start that lane `n` measures next: the one after the last that it measured, and the first again after the
last one (R130; log 38). -/
def State.segNext (s : State) (n : Nat) : Nat :=
  let starts := s.segStarts n
  let next := match (s.pool (n / 2)).segs.find? (fun e => decide (e.1 = n)) with
    | some e => (starts.find? (fun y => decide (e.2.1 < y))).orElse (fun _ => starts.head?)
    | none => starts.head?
  next.getD 0

/-- The segment measure before one more word (R130): it starts where none runs, outside TRACK and once one is complete. -/
def State.segStart (s : State) (n : Nat) : RxPath :=
  let x := (s.lane n).rxp
  if s.rx n = .track ∧ 0 < x.segN ∧ x.segN < 65536 then x
  else { x with segS := s.segNext n, segN := 0, segG := List.replicate 12 0 }

/-- The exit measure of the state that lane `n` enters starts (R100, R115). -/
def State.startExit (s : State) (n : Nat) : State :=
  s.onLane n (fun l =>
    let x := { l.rxp with agcN := 0, agcSum := 0, exitN := 0, exitSum := 0, lockHeld := 0, subs := List.replicate 64 .fresh }
    { l with hold := 0, rxp := x })

end Sys2Proof.Machine
end

