-- ==== Sys2Proof/Machine/Fec.lean ====
section
/-!
DEFINITION. The outer code and the PCS coding around it, which 06_host_side.md R205, R208 and R210 take from IEEE 802.3 clause 119:
RS(544,514) over GF(2^10) with bounded-distance decoding, transcoding of 66-bit blocks to 257-bit blocks and back, and the
self-synchronous scrambler.  The spec names these and does not write them out: PRESUMED (log 97).
-/

namespace Sys2Proof.Machine

open Sys2Proof

/-! ### GF(2^10), modulo x^10 + x^3 + 1 -/

/-- A field element times x. -/
def gfTimesX (a : Nat) : Nat := if 512 ≤ a then (2 * a) ^^^ 0x409 else 2 * a

/-- The product of two field elements, by the low `n` bits of the second. -/
def gfMulBits (n a b : Nat) : Nat :=
  match n with
  | 0 => 0
  | k + 1 => (if b % 2 = 1 then a else 0) ^^^ gfMulBits k (gfTimesX a) (b / 2)

def gfMul (a b : Nat) : Nat := gfMulBits 10 a b

/-- `a` to the power `n`. -/
def gfPow (a n : Nat) : Nat :=
  match n with
  | 0 => 1
  | k + 1 => gfMul a (gfPow a k)

/-- The inverse, as the power 1022; 0 for 0. -/
def gfInv (a : Nat) : Nat := gfPow a 1022

/-- The powers of α = x from exponent 0 on, `n` of them, starting from `p`. -/
def gfPowers (n p : Nat) : List Nat :=
  match n with
  | 0 => []
  | k + 1 => p :: gfPowers k (gfTimesX p)

/-- A polynomial, coefficients from the highest degree down, evaluated at `x`. -/
def gfEval (cs : List Nat) (x : Nat) : Nat := cs.foldl (fun a c => gfMul a x ^^^ c) 0

/-! ### RS(544,514) -/

/-- A polynomial times (x + r), coefficients from the highest degree down. -/
def timesRoot (r : Nat) (cs : List Nat) : List Nat :=
  List.zipWith (fun a b => a ^^^ gfMul r b) (cs ++ [0]) (0 :: cs)

/-- The generator polynomial: the product of (x + α^j) for j = 0 to 29, coefficients from x^30 down. -/
def rsGenerator : List Nat := (gfPowers 30 1).foldl (fun g r => timesRoot r g) [1]

/-- One message symbol into the remainder of 30 symbols. -/
def rsShift (gen : List Nat) (rem : List Nat) (m : Nat) : List Nat :=
  let f := rem.headD 0 ^^^ m
  List.zipWith (fun a g => a ^^^ gfMul f g) (rem.drop 1 ++ [0]) (gen.drop 1)

/-- A codeword of 544 symbols, the first one sent first: 514 message symbols and 30 parity symbols. -/
def rsEncode (msg : List Nat) : List Nat := msg ++ msg.foldl (rsShift rsGenerator) (List.replicate 30 0)

/-- The 30 syndromes of a received word. -/
def rsSyndromes (cw : List Nat) : List Nat := (gfPowers 30 1).map (gfEval cw)

/-- The state of the Berlekamp-Massey recursion: locator and the one before its last change, from degree 0 up, its length, the
steps since the change and the discrepancy at it. -/
structure BmState where
  loc : List Nat
  old : List Nat
  len : Nat
  gap : Nat
  disc : Nat
  deriving DecidableEq, Repr

/-- Coefficients added, the shorter list continued with zeros. -/
def polyAdd (a b : List Nat) : List Nat := (List.range (max a.length b.length)).map (fun i => a.getD i 0 ^^^ b.getD i 0)

/-- One step of the recursion at syndrome `k`. -/
def bmStep (syn : List Nat) (x : BmState) (k : Nat) : BmState :=
  let d := (List.range (x.len + 1)).foldl (fun a i => a ^^^ gfMul (x.loc.getD i 0) (syn.getD (k - i) 0)) 0
  if d = 0 then { x with gap := x.gap + 1 }
  else
    let f := gfMul d (gfInv x.disc)
    let loc := polyAdd x.loc (List.replicate x.gap 0 ++ x.old.map (gfMul f))
    if 2 * x.len ≤ k then { loc := loc, old := x.loc, len := k + 1 - x.len, gap := 1, disc := d }
    else { x with loc := loc, gap := x.gap + 1 }

/-- A polynomial with coefficients from degree 0 up, evaluated at `x`. -/
def polyEval (cs : List Nat) (x : Nat) : Nat := gfEval cs.reverse x

/-- The error value at locator `x` (Forney): x Ω(1/x) / Λ'(1/x), for syndromes from α^0 on. -/
def rsErrorValue (syn loc : List Nat) (x : Nat) : Nat :=
  let inv := gfInv x
  let omega := (List.range 30).map (fun i => (List.range (i + 1)).foldl (fun a j => a ^^^ gfMul (loc.getD j 0) (syn.getD (i - j) 0)) 0)
  let deriv := loc.zipIdx.map (fun p => if p.2 % 2 = 1 then p.1 else 0)
  gfMul (gfMul x (polyEval omega inv)) (gfInv (polyEval (deriv.drop 1) inv))

/-- Decoding of a received word of 544 symbols: the corrected word and the number of symbols corrected, or none where it is not
within 15 symbols of a codeword. -/
def rsDecode (cw : List Nat) : Option (List Nat × Nat) :=
  let syn := rsSyndromes cw
  if syn.all (fun x => decide (x = 0)) then some (cw, 0)
  else
    let x := (List.range 30).foldl (bmStep syn) { loc := [1], old := [1], len := 0, gap := 1, disc := 1 }
    let pts := (gfPowers 544 1).reverse
    let fixed := List.zipWith (fun c p =>
      if polyEval x.loc (gfInv p) = 0 then (c ^^^ rsErrorValue syn x.loc p, 1) else (c, 0)) cw pts
    let n := (fixed.map (·.2)).foldl (· + ·) 0
    let out := fixed.map (·.1)
    if x.len ≤ 15 ∧ n = x.len ∧ (rsSyndromes out).all (fun y => decide (y = 0)) = true then some (out, n) else none

/-- Ten bits of each symbol, the least significant one first, in the order of the line. -/
def symbolsToBits (ss : List Nat) : List Bool := ss.flatMap (fun m => (List.range 10).map (fun k => Nat.testBit m k))

/-- `n` symbols of ten bits. -/
def bitsToSymbols (n : Nat) (bs : List Bool) : List Nat :=
  match n with
  | 0 => []
  | k + 1 => (bs.take 10).foldr (fun b a => 2 * a + natOf b) 0 :: bitsToSymbols k (bs.drop 10)

/-! ### 66-bit blocks and transcoding -/

/-- The payload of EBLOCK_R: block type 0x1E and eight error characters 0x1E of 7 bits. -/
def eblockPayload : Nat := 0x1E + (List.range 8).foldl (fun a i => a + 0x1E * 2 ^ (8 + 7 * i)) 0

/-- The payload of a block of a fixed type: the type in its low byte. -/
def typedPayload (t p : Nat) : Nat := p / 256 * 256 + t

/-- A block as its sync header (data or control) and its 64 payload bits, bit 0 first on the line. -/
def Block66.payload (b : Block66) : Bool × Nat :=
  match b with
  | .idle => (false, 0x1E)
  | .ordered p => (false, typedPayload 0x4B p.toNat)
  | .localFault => (false, 0x0100004B)
  | .start p => (false, typedPayload 0x78 p.toNat)
  | .data p => (true, p.toNat)
  | .term p => (false, p.toNat)
  | .control p => (false, typedPayload 0x1E p.toNat)
  | .eblock => (false, eblockPayload)

/-- The block types with a terminate character. -/
def termTypes : List Nat := [0x87, 0x99, 0xAA, 0xB4, 0xCC, 0xD2, 0xE1, 0xFF]

/-- The block of a sync header and payload; a control block of no known type is EBLOCK_R. -/
def blockOf (data : Bool) (p : Nat) : Block66 :=
  let v := BitVec.ofNat 64 p
  if data then .data v
  else if p = 0x1E then .idle
  else if p = eblockPayload then .eblock
  else if p = 0x0100004B then .localFault
  else if p % 256 = 0x1E then .control v
  else if p % 256 = 0x4B then .ordered v
  else if p % 256 = 0x78 then .start v
  else if termTypes.contains (p % 256) then .term v
  else .eblock

/-- Bits of `v` from bit 0 on. -/
def lowBits (n v : Nat) : List Bool := (List.range n).map (fun i => Nat.testBit v i)

/-- Bits from the least significant on as a number. -/
def ofLowBits (bs : List Bool) : Nat := bs.foldr (fun b a => 2 * a + natOf b) 0

/-- Four blocks as 257 bits: 1 and the payloads where all are data blocks; otherwise 0, which of the four are data, and the payloads
without the second nibble of the first control block's type. -/
def transcode (bs : List Block66) : List Bool :=
  let ps := bs.map Block66.payload
  let bits := ps.flatMap (fun p => lowBits 64 p.2)
  match ps.findIdx? (fun p => !p.1) with
  | none => true :: bits
  | some c => false :: (ps.map (·.1) ++ bits.take (64 * c + 4) ++ bits.drop (64 * c + 8))

/-- The block types by their first nibble, which is unique. -/
def typeOfNibble (k : Nat) : Option Nat := ([0x1E, 0x4B, 0x78] ++ termTypes).find? (fun t => decide (t % 16 = k))

/-- 257 bits as four blocks; four EBLOCK_R where the header or the type is none that `transcode` forms. -/
def untranscode (bs : List Bool) : List Block66 :=
  let four (hs : List Bool) (bits : List Bool) : List Block66 :=
    hs.zipIdx.map (fun p => blockOf p.1 (ofLowBits ((bits.drop (64 * p.2)).take 64)))
  if bs.headD true then four [true, true, true, true] (bs.drop 1)
  else
    let hs := (bs.drop 1).take 4
    let rest := bs.drop 5
    match hs.findIdx? (fun h => !h) with
    | none => List.replicate 4 .eblock
    | some c =>
      match typeOfNibble (ofLowBits ((rest.drop (64 * c)).take 4)) with
      | none => List.replicate 4 .eblock
      | some t => four hs (rest.take (64 * c + 4) ++ lowBits 4 (t / 16) ++ rest.drop (64 * c + 4))

/-! ### The scrambler x^58 + x^39 + 1 -/

/-- Bits scrambled from a state of the last 58 bits sent, the newest in bit 0; the state afterwards. -/
def scramble (st : Nat) (bs : List Bool) : List Bool × Nat :=
  match bs with
  | [] => ([], st)
  | b :: r =>
    let o := xor b (xor (Nat.testBit st 38) (Nat.testBit st 57))
    let q := scramble ((2 * st + natOf o) % 2 ^ 58) r
    (o :: q.1, q.2)

/-- Bits descrambled from a state of the last 58 bits received; the state afterwards. -/
def descramble (st : Nat) (bs : List Bool) : List Bool × Nat :=
  match bs with
  | [] => ([], st)
  | b :: r =>
    let q := descramble ((2 * st + natOf b) % 2 ^ 58) r
    (xor b (xor (Nat.testBit st 38) (Nat.testBit st 57)) :: q.1, q.2)

/-! ### Eighty blocks and one codeword -/

/-- Blocks in fours, transcoded. -/
def transcodeAll (n : Nat) (bs : List Block66) : List Bool :=
  match n with
  | 0 => []
  | k + 1 => transcode (bs.take 4) ++ transcodeAll k (bs.drop 4)

/-- 257-bit blocks in order, as 66-bit blocks. -/
def untranscodeAll (n : Nat) (bs : List Bool) : List Block66 :=
  match n with
  | 0 => []
  | k + 1 => untranscode (bs.take 257) ++ untranscodeAll k (bs.drop 257)

/-- An RS codeword of 544 symbols and the scrambler's state afterwards (R204, R208): `am` alignment-marker bits, a multiple of 257, which
are not scrambled, then blocks for the rest of twenty 257-bit blocks. -/
def encodeSet (am : List Bool) (scr : Nat) (bs : List Block66) : List Nat × Nat :=
  let q := scramble scr (transcodeAll (20 - am.length / 257) bs)
  (rsEncode (bitsToSymbols 514 (am ++ q.1)), q.2)

/-- What an RS codeword of 544 symbols gives (R205, R210), of which `am` 257-bit blocks are alignment markers: its blocks, 80 EBLOCK_R
where it is uncorrectable, the symbols corrected, or none, and the descrambler's state afterwards. -/
def decodeSet (am scr : Nat) (cw : List Nat) : List Block66 × Option Nat × Nat :=
  let bits (ss : List Nat) : List Bool := (symbolsToBits (ss.take 514)).drop (257 * am)
  match rsDecode cw with
  | some (out, n) =>
    let q := descramble scr (bits out)
    (untranscodeAll (20 - am) q.1, some n, q.2)
  | none => (List.replicate 80 .eblock, none, (descramble scr (bits cw)).2)

end Sys2Proof.Machine
end

