-- ==== Sys2Proof/Machine/Pcs.lean ====
section
/-!
DEFINITION. The clause 119 streams of a port (06_host_side.md R202 to R205, R208, R210): forming one from blocks with alignment markers,
receiving one under alignment-marker lock, marking codewords on one, and the streams of a mode-R line.  How the symbols of two
codewords alternate over the physical lanes, and the cadence of the markers, are PRESUMED of clause 119 (log 97).
-/

namespace Sys2Proof.Machine

open Sys2Proof

/-! ### Two codewords over the physical lanes of a port -/

/-- Symbols of two lists in turn. -/
def alternate {α : Type} (a b : List α) : List α :=
  match a, b with
  | x :: r, y :: t => x :: y :: alternate r t
  | _, _ => []

/-- The symbols at even and at odd places. -/
def unalternate {α : Type} (xs : List α) : List α × List α :=
  match xs with
  | x :: y :: r =>
    let p := unalternate r
    (x :: p.1, y :: p.2)
  | _ => ([], [])

/-- `k` rounds of `g` symbols of two codewords in turn, the codeword that comes first changing each round. -/
def spread {α : Type} (g k : Nat) (swap : Bool) (a b : List α) : List α :=
  match k with
  | 0 => []
  | j + 1 =>
    let x := a.take g
    let y := b.take g
    (if swap then alternate y x else alternate x y) ++ spread g j (!swap) (a.drop g) (b.drop g)

/-- The two codewords of `k` rounds. -/
def gather {α : Type} (g k : Nat) (swap : Bool) (xs : List α) : List α × List α :=
  match k with
  | 0 => ([], [])
  | j + 1 =>
    let p := unalternate (xs.take (2 * g))
    let q := gather g j (!swap) (xs.drop (2 * g))
    if swap then (p.2 ++ q.1, p.1 ++ q.2) else (p.1 ++ q.1, p.2 ++ q.2)

/-- Chunks of eight symbols to two lanes in turn, `k` rounds. -/
def toLanes {α : Type} (k : Nat) (xs : List α) : List α × List α :=
  match k with
  | 0 => ([], [])
  | j + 1 =>
    let q := toLanes j (xs.drop 16)
    (xs.take 8 ++ q.1, (xs.drop 8).take 8 ++ q.2)

/-- The symbols of two lanes in turn, eight at a time, `k` rounds. -/
def fromLanes {α : Type} (k : Nat) (a b : List α) : List α :=
  match k with
  | 0 => []
  | j + 1 => a.take 8 ++ b.take 8 ++ fromLanes j (a.drop 8) (b.drop 8)

/-- The symbols of two codewords on the physical lanes of a port of two lanes (`two`) or one. -/
def pairToLanes {α : Type} (two : Bool) (a b : List α) : List α × List α :=
  if two then toLanes 68 (spread 8 68 false a b) else (spread 4 136 false a b, [])

/-- The two codewords of the symbols on the lanes. -/
def lanesToPair {α : Type} (two : Bool) (a b : List α) : List α × List α :=
  if two then gather 8 68 false (fromLanes 68 a b) else gather 4 136 false a

/-- The bits that two codewords take on a physical lane. -/
def pairBits (two : Bool) : Nat := if two then 5440 else 10880

/-- 257-bit blocks of alignment markers, and the codewords from one set of markers to the next. -/
def amBlocks (two : Bool) : Nat := if two then 8 else 4
def amCadence (two : Bool) : Nat := if two then 8192 else 4096

/-- The alignment markers that codeword `num` of the cadence begins with, in 257-bit blocks. -/
def amOf (two : Bool) (num : Nat) : Nat := if num = 0 then amBlocks two else 0

/-! ### Forming a stream (R204, R209) -/

/-- The stream's next block slot carries a block: the others belong to alignment markers. -/
def HostEnc.wantsBlock (two : Bool) (e : HostEnc) : Bool := decide (4 * amOf two e.num ≤ e.slot)

/-- A codeword of the stream complete: the first of a pair waits, the second one puts both on the lanes. -/
def HostEnc.close (two : Bool) (e : HostEnc) : HostEnc :=
  let am := (List.range (257 * amOf two e.num)).map (Config.amBit two)
  let q := encodeSet am e.scr e.blocks
  let e := { e with blocks := [], slot := 0, scr := q.2, num := (e.num + 1) % amCadence two }
  match e.first with
  | none => { e with first := some q.1 }
  | some c =>
    let p := pairToLanes two c q.1
    { e with first := none, bitsA := e.bitsA ++ symbolsToBits p.1, bitsB := e.bitsB ++ symbolsToBits p.2 }

/-- One block slot of the stream. -/
def HostEnc.feed (two : Bool) (e : HostEnc) (blk : Block66) : HostEnc :=
  let e := { e with slot := e.slot + 1, blocks := if e.wantsBlock two then e.blocks ++ [blk] else e.blocks }
  if 80 ≤ e.slot then e.close two else e

/-- Bits as a number, the first one in the top place. -/
def topBits (bs : List Bool) : Nat := bs.foldl (fun a b => 2 * a + natOf b) 0

/-- The `n` bits of a number, the top one first. -/
def bitsOf (n w : Nat) : List Bool := (List.range n).map (fun i => Nat.testBit w (n - 1 - i))

/-- The next 128 bits of a physical lane, once they are there. -/
def HostEnc.take (e : HostEnc) (second : Bool) : Option (Nat × HostEnc) :=
  if second then
    if 128 ≤ e.bitsB.length then some (topBits (e.bitsB.take 128), { e with bitsB := e.bitsB.drop 128 }) else none
  else if 128 ≤ e.bitsA.length then some (topBits (e.bitsA.take 128), { e with bitsA := e.bitsA.drop 128 }) else none

/-- A fault stream's next 128 bits of a lane (R204): Local Fault in every block slot. -/
def HostEnc.faultTake (two : Bool) (e : HostEnc) (second : Bool) : Nat × HostEnc :=
  match e.take second with
  | some p => p
  | none =>
    let e := (List.range 160).foldl (fun e _ => e.feed two .localFault) e
    (e.take second).getD (0, e)

/-! ### Receiving a stream under alignment-marker lock (R202, R205) -/

/-- Bits of a lane after those that precede its first pair of codewords, and how many of these are still to come. -/
def skipBits {α : Type} (k : Nat) (bs : List α) : List α × Nat := (bs.drop k, k - bs.length)

/-- The codewords of a pair of which every bit is there. -/
def HostDec.close (two : Bool) (d : HostDec) : HostDec :=
  let n := pairBits two
  if n ≤ d.bitsA.length ∧ (two = false ∨ n ≤ d.bitsB.length) then
    let p := lanesToPair two (bitsToSymbols (n / 10) d.bitsA) (bitsToSymbols (n / 10) d.bitsB)
    { d with bitsA := d.bitsA.drop n, bitsB := d.bitsB.drop n, cws := d.cws ++ [p.1, p.2] }
  else d

/-- 128 bits of a physical lane received. -/
def HostDec.feed (two second : Bool) (d : HostDec) (bs : List Bool) : HostDec :=
  let d :=
    if second then
      let p := skipBits d.skipB bs
      { d with bitsB := d.bitsB ++ p.1, skipB := p.2 }
    else
      let p := skipBits d.skipA bs
      { d with bitsA := d.bitsA ++ p.1, skipA := p.2 }
  d.close two

/-- The oldest codeword decoded: its blocks, and the symbols corrected, or none where it is uncorrectable. -/
def HostDec.next (two : Bool) (d : HostDec) : Option ((List Block66 × Option Nat) × HostDec) :=
  match d.cws with
  | [] => none
  | cw :: r =>
    let q := decodeSet (amOf two d.num) d.scr cw
    some ((q.1, q.2.1), { d with cws := r, num := (d.num + 1) % amCadence two, scr := q.2.2 })

/-! ### Marking codewords on a stream (R203) -/

/-- The codeword of each bit of a pair on the lanes: true is the second one. -/
def pairIds (two : Bool) : List Bool × List Bool :=
  let p := pairToLanes two (List.replicate 544 false) (List.replicate 544 true)
  (p.1.flatMap (List.replicate 10), p.2.flatMap (List.replicate 10))

/-- A flagged bit belongs to codeword `second`. -/
def marked (second : Bool) (ids : List Bool) (bs : List (Bool × Bool)) : Bool :=
  (List.zipWith (fun i b => b.2 && (i == second)) ids bs).any id

/-- The bits with those of marked codewords inverted. -/
def invertMarked (mA mB : Bool) (ids : List Bool) (bs : List (Bool × Bool)) : List Bool :=
  List.zipWith (fun i b => xor b.1 (if i then mB else mA)) ids bs

/-- A pair of codewords of which every bit is there: its bits on each lane, marked codewords inverted. -/
def Monitor.close (two : Bool) (m : Monitor) : Monitor × List Bool × List Bool :=
  let n := pairBits two
  if n ≤ m.bitsA.length ∧ (two = false ∨ n ≤ m.bitsB.length) then
    let ids := pairIds two
    let a := m.bitsA.take n
    let b := m.bitsB.take n
    let mA := marked false ids.1 a || marked false ids.2 b
    let mB := marked true ids.1 a || marked true ids.2 b
    ({ m with bitsA := m.bitsA.drop n, bitsB := m.bitsB.drop n, cws := m.cws ++ [mA, mB] },
      invertMarked mA mB ids.1 a, invertMarked mA mB ids.2 b)
  else (m, [], [])

/-- Bits with the flagged ones inverted. -/
def invertFlagged (bs : List (Bool × Bool)) : List Bool := bs.map (fun b => xor b.1 b.2)

/-- A row of a physical lane at the engine: the engine, and the bits that leave on each lane.  Flagged bits before the first pair of
codewords are inverted. -/
def Monitor.feed (two second : Bool) (m : Monitor) (bs : List (Bool × Bool)) : Monitor × List Bool × List Bool :=
  let k := if second then m.skipB else m.skipA
  let early := invertFlagged (bs.take k)
  let p := skipBits k bs
  let m := if second then { m with bitsB := m.bitsB ++ p.1, skipB := p.2 } else { m with bitsA := m.bitsA ++ p.1, skipA := p.2 }
  let q := m.close two
  if second then (q.1, q.2.1, early ++ q.2.2) else (q.1, early ++ q.2.1, q.2.2)

/-! ### The streams of a mode-R line (R164, R208, R210) -/

/-- One block into a transmit stream; the eightieth completes an RS codeword. -/
def StreamEnc.feed (e : StreamEnc) (blk : Block66) : StreamEnc :=
  let bs := e.blocks ++ [blk]
  if 80 ≤ bs.length then
    let q := encodeSet [] e.scr bs
    { e with blocks := [], scr := q.2, bits := e.bits ++ symbolsToBits q.1 }
  else { e with blocks := bs }

/-- A codeword of a received stream, with GROUP_VALID and whether its cover begins a group: rows are numbered from the first such one. -/
def StreamDec.count (d : StreamDec) (valid start : Bool) : StreamDec :=
  if !valid then { d with since := none, bits := [] }
  else
    match d.since with
    | some k => { d with since := some (k + 1) }
    | none => if start then { d with since := some 0, bits := [] } else d

/-- A row complete with its flag (R145, R169): row k is complete with codeword k + 3. -/
def StreamDec.row (d : StreamDec) (row : Nat) (flag : Bool) : StreamDec :=
  match d.since with
  | some (k + 3) =>
    let bs := d.bits ++ (bitsOf 256 row).map (fun b => (b, flag))
    if 5440 ≤ bs.length then
      let c := bs.take 5440
      { d with bits := bs.drop 5440, cws := d.cws ++ [(c.map (·.1), c.any (·.2), decide (((k + 1) * 256 / 5440 - 1) % 4 = 0))] }
    else { d with bits := bs }
  | _ => d

/-- The oldest RS codeword decoded (R210): whether it gives EBLOCK_R, its blocks, and whether it begins a group. -/
def StreamDec.next (d : StreamDec) : Option ((Bool × List Block66 × Bool) × StreamDec) :=
  match d.cws with
  | [] => none
  | c :: r =>
    let q := decodeSet 0 d.scr (bitsToSymbols 544 c.1)
    let bad := c.2.1 || q.2.1.isNone
    some ((bad, if bad then List.replicate 80 .eblock else q.1, c.2.2), { d with cws := r, scr := q.2.2 })

end Sys2Proof.Machine
end

