-- ==== Sys2Proof/Machine/Ports.lean ====
section
/-!
DEFINITION. The ports of a line lane: 66-bit blocks, the Nutmeg buffer and its gaps, the transmit adaptation FIFO, the
fault stream (06_host_side.md R204, R206 to R217).
-/

namespace Sys2Proof.Machine

open Sys2Proof

/-! ### Blocks (R206) -/

/-- The position just before this block is a clean point. -/
def isClean (b : Block66) : Bool :=
  match b with
  | .idle => true | .ordered _ => true | .localFault => true | .start _ => true | _ => false

/-- A packet is open after this block, given that one was open before it (`o`). -/
def openAfter (o : Bool) (b : Block66) : Bool :=
  match b with
  | .start _ => true | .term _ => false | .eblock => false | _ => o

/-! ### Port fields by side -/

def nmState (b : Bool) : FRow := if b then PORT.PSTAT_NM_STATE_B else PORT.PSTAT_NM_STATE_A

/-- The side of the port that stream `b` of lane `n` belongs to: under BREAKOUT 0 the 400G port is side a (R222). -/
def State.sideOf (s : State) (n : Nat) (b : Bool) : Bool := b && s.breakout n

/-- The sides of the ports of lane `n`. -/
def State.sides (s : State) (n : Nat) : List Bool := if s.breakout n then [false, true] else [false]

/-- The write-side state code of a port (R211): 0 OPEN, 1 GAP_IDLE, 2 GAP_LF. -/
def State.nmSt (s : State) (n : Nat) (b : Bool) : Nat := s.get ((nmState b).f n)

/-- The entries a port may hold (R209). -/
def State.nmCap (s : State) (n : Nat) : Nat := if s.breakout n then 3640 else 7280

/-- The Nutmeg buffer of a side replaced; the high-water mark follows the fill (R222). -/
def State.setNm (s : State) (n : Nat) (b : Bool) (x : PortSide) : State :=
  let h := if b then PORT.NM_HWM_HWM_B else PORT.NM_HWM_HWM_A
  (s.setSide n b x).onlyIf (decide (s.get (h.f n) < x.nm.length)) (fun s => s.put (h.f n) x.nm.length)

/-- One block appended to a Nutmeg buffer with a free entry; the packet state of the write side follows. -/
def PortSide.nmAppend (x : PortSide) (blk : Block66) (poison : Bool) : PortSide :=
  { x with nm := x.nm ++ [(blk, poison)], nmWriteOpen := openAfter x.nmWriteOpen blk }

/-- EBLOCK_R appended if a packet is open and an entry is free (log 61). -/
def PortSide.nmBreak (x : PortSide) (cap : Nat) : PortSide :=
  if x.nmWriteOpen ∧ x.nm.length < cap then x.nmAppend .eblock false else { x with nmWriteOpen := false }

/-- The software stamp of a gap start latched (R211, R222) (log 81). -/
def State.stampGap (s : State) (n : Nat) (b : Bool) : State :=
  let p := s.softStamp
  let s := p.2
  if b then
    ((s.put (PORT.GAP_SEC_B.f n) (timeSec p.1)).put (PORT.GAP_NS_B.f n) (timeNs p.1)).put (PORT.GAP_NS_B_SOFT.f n) 1
  else
    ((s.put (PORT.GAP_SEC_A.f n) (timeSec p.1)).put (PORT.GAP_NS_A.f n) (timeNs p.1)).put (PORT.GAP_NS_A_SOFT.f n) 1

/-- The received streams of the port on side `b` of lane `n` lose the place of their rows: they find it again at a group start under
group lock (R213). -/
def State.dropRows (s : State) (n : Nat) (b : Bool) : State :=
  let p := s.port n
  let lost (d : StreamDec) : StreamDec := { d with since := none, bits := [] }
  s.setPort n { p with
    decA := if b then p.decA else lost p.decA
    decB := if b || !s.breakout n then lost p.decB else p.decB }

/-- A gap cause meets a Nutmeg port (R211, R217): in OPEN the gap starts; in a gap under way a loss of lock replaces
starvation as what its end waits for (R213) (log 61, 81).  The entries written are drained even where reads had not begun (R212). -/
def State.gapStart (s : State) (n : Nat) (b : Bool) (c : GapCause) : State :=
  let b := s.sideOf n b
  let s := s.onlyIf (decide (c = .lockLoss)) (fun s => s.dropRows n b)
  let x := s.side n b
  if s.nmSt n b = 0 then
    let x := { x.nmBreak (s.nmCap n) with gapCause := some c, nmDiscard := true, ovfSkip := false, lf := false }
    let x := { x with reading := x.reading || !x.nm.isEmpty }
    let s := s.setNm n b x
    let p := s.port n
    let p := if s.breakout n then (if b then { p with awaitB := true } else { p with awaitA := true })
      else { p with awaitA := true, awaitB := true, setTurnB := false, setsA := [], setsB := [] }
    (((s.setPort n p).stampGap n b).raiseLane n 24).put ((nmState b).f n) 1
  else if c = .lockLoss then s.setSide n b { x with gapCause := some .lockLoss }
  else s

/-- The host lanes of lane `n`, stream a first, where the lane is mapped. -/
def State.portHosts (s : State) (n : Nat) : List Nat :=
  if s.getB (PORT.PCFG_MAPPED.f n) then [s.get (PORT.PCFG_HOST_A.f n), s.get (PORT.PCFG_HOST_B.f n)] else []

/-- What the host transmitters of lane `n` send (R204, R218): a host lane that no LANEMAP entry names sends zero. -/
def State.sendHosts (s : State) (n : Nat) (o : HostOut) : State :=
  s.each (s.portHosts n) (fun s h => s.setHost h { s.host h with out := o })

/-- The line direction of lane `n` has no valid data: fault streams in mode T (R204), a gap of every port in mode R
(R211) (log 61). -/
def State.lineDown (s : State) (n : Nat) : State :=
  if s.modeR n then s.each (s.sides n) (fun s b => s.gapStart n b .lockLoss)
  else
    let cut (m : Monitor) : Monitor := { m with bitsA := [], bitsB := [], skipA := 0, skipB := 0 }
    let p := s.port n
    let p := { p with outA := [], outB := [], a := { p.a with mon := cut p.a.mon }, b := { p.b with mon := cut p.b.mon } }
    (s.setPort n p).sendHosts n .faultStream

/-- A cause of a transmit-direction gap (R207): a gap starts, with EBLOCK_R if a packet is open, in the place of the last block where
the FIFO is full (log 59); a gap under way goes on. -/
def State.hostGapStart (s : State) (n : Nat) (b : Bool) : State :=
  let b := s.sideOf n b
  let x := s.side n b
  if x.hostGap then s.setSide n b { x with txResume := false }
  else
    let fifo := if x.txWriteOpen then x.txFifo.take 511 ++ [Block66.eblock] else x.txFifo
    (s.setSide n b { x with txFifo := fifo, txWriteOpen := false, txDiscard := true, hostGap := true, txResume := false }).raiseLane n 29

end Sys2Proof.Machine
end

