-- ==== Sys2Proof/Machine/LineRx.lean ====
section
/-!
DEFINITION. The receive half of a line lane: presets, the acquisition states and their exits, converter gain and
interleave tracking, clock-recovery lock, tap loads, measurement windows and histograms (03_line_receive.md R97 to R104,
R113 to R128).
-/

namespace Sys2Proof.Machine

open Sys2Proof

/-! ### Presets and entries to states -/

/-- The extensions that lane `n` holds get zero coefficients (R114, R123). -/
def State.zeroExts (s : State) (n : Nat) : State :=
  let p := s.pool (n / 2)
  let z (x : PoolExt) : PoolExt := { x with g := List.replicate 12 0, p1 := 0, p2 := 0 }
  if p.holder = some n then s.setPool (n / 2) { p with ext0 := p.ext0.map z, ext1 := p.ext1.map z } else s

/-- The presets of R114. -/
def State.presets (s : State) (n : Nat) : State :=
  let eq := Equaliser.preset (s.cursor n) (s.getZ (LINE.PRESET_MAIN_PRESET.f n)) (s.get (LINE.DETECT_LEVEL_UNIT.f n))
    (s.get (LINE.PRESET_A1_PRESET.f n)) (s.get (LINE.PRESET_A2_PRESET.f n))
  let s := s.onLane n (fun l => { l with eq := eq, freqI := 0, phase := 0, hold := 0, quiet := 0 })
  let s := s.each (List.range 64) (fun s k =>
    ((s.put (LINE.CORR_OFFSET.f n k) 0).put (LINE.CORR_GAIN.f n k) 0).put (LINE.CORR_SKEW.f n k) 0)
  (s.put (LINE.AGC_GAIN_CODE.f n) (s.get (LINE.AGC_GAIN_PRESET.f n))).zeroExts n

/-- Every run counter of the lock search is cleared (04_inner_code.md R156). -/
def State.clearRuns (s : State) (n : Nat) : State := s.onLane n (fun l => { l with runs := [] })

/-- Lock and group lock of lane `n` end, if it held lock, and its line direction goes down (R161, R204, R211) (log 63). -/
def State.lockGone (s : State) (n : Nat) : State :=
  if s.syncLock n then
    let s := (s.put (LINE.SYNC_STAT_SYNC_LOCK.f n) 0).put (LINE.SYNC_STAT_GROUP_LOCK.f n) 0
    ((s.onLane n (fun l => { l with cadence := none, runs := [] })).lineDown n).capEvent n 4 s.time.tick
  else s.clearRuns n

/-- Entry to GAIN (R114, R119): presets, TRAINED clear.  With ACQ_EN 0 it is a stop point and the lane is in OFF, unless
it is RESTART's own entry (`own`). -/
def State.enterGain (s : State) (n : Nat) (own : Bool) : State :=
  let s := ((s.presets n).put (LINE.RX_STATE_TRAINED.f n) 0).startExit n
  s.setRx n (if own || s.getB (LINE.RX_CTL_ACQ_EN.f n) then .gain else .off)

/-- Entry to DARK (R118, R120): ATTEMPT clear, with the stop point of R124. -/
def State.enterDark (s : State) (n : Nat) (own : Bool) : State :=
  let s := s.put (LINE.RX_STATE_ATTEMPT.f n) 0
  s.setRx n (if own || s.getB (LINE.RX_CTL_ACQ_EN.f n) then .dark else .off)

/-- A lane starts from presets, at GAIN with light and at DARK without (R116). -/
def State.startLane (s : State) (n : Nat) (own : Bool) : State :=
  let s := s.lockGone n
  if s.light n then s.enterGain n own
  else ((s.presets n).put (LINE.RX_STATE_TRAINED.f n) 0).enterDark n own

/-- Entry to SEARCH (R156): the run counters are cleared. -/
def State.enterSearch (s : State) (n : Nat) : State := (s.clearRuns n).setRx n .search

/-- Entry to CAL, CDR, BLIND or DD: what its exit measures starts (R98, R115). -/
def State.enterAcq (s : State) (n : Nat) (r : RxState) : State := (s.startExit n).setRx n r

/-- Entry to WARM (R102, R121): the fast gains hold until CDR_LOCK is first set. -/
def State.enterWarm (s : State) (n : Nat) : State :=
  (s.onLane n (fun l => { l with warmLocked := false, quiet := 0, runs := [] })).setRx n .warm

/-- Entry to TRACK (R118, R119). -/
def State.enterTrack (s : State) (n : Nat) : State :=
  let s := ((s.put (LINE.RX_STATE_TRAINED.f n) 1).put (LINE.RX_STATE_ATTEMPT.f n) 0)
  ((s.setRx n .track).raiseLane n 0).capEvent n 5 s.time.tick

/-- Lane `n` waits with a restart: a context load is under way, or the outage of a partial reload (R124, 02_bitstream.md R86). -/
def State.restartWaits (s : State) (n : Nat) : Bool := (s.lane n).loading || s.reloading (n / 2)

/-! ### Tap loads -/

/-- The cluster tile number that a tile acts as: the one it stands for, or its own. -/
def State.actsAs (s : State) (t : Nat) : Option Nat :=
  let f := s.get (TILE.TILE_INFO_STANDS_FOR.f t)
  if f < 12 then some f else if t < 96 then some (t % 12) else none

/-- The lane a tile serves, where it serves one. -/
def State.serves (s : State) (t : Nat) : Option Nat :=
  let l := s.get (TILE.TILE_INFO_SERVES.f t)
  if l < 8 then some l else none

/-- The position of an FFE tile in the chain of the lane it serves (R106, R140). -/
def State.chainPos (s : State) (t : Nat) : Option (Nat × Nat) :=
  match s.serves t, s.actsAs t with
  | some n, some k =>
    let o := s.ffeOrder n
    if o.contains k then some (n, o.findIdx (· == k)) else none
  | _, _ => none

/-- TAP_LOAD (R113): one coefficient set and its fraction cleared, in a chain tile or in an attached pool segment; any
other write is discarded, and so is one during a context load (R124) or to a failed tile (14_selftest_faults.md R414). -/
def tapLoadEffect (t : TileId) (i : Fin 16) (v : BitVec 12) (s : State) : State :=
  let a : Int := 4096 * v.toInt
  if s.laneRuns (tileLane t) ∧ s.tileFailed t = false ∧ s.get (TILE.TILE_INFO_FN.f t) = 1 ∧ i.val < 12 then
    match s.chainPos t with
    | some (n, p) =>
      if (s.lane n).loading then s
      else s.onLane n (fun l => { l with eq := { l.eq with taps := l.eq.taps.set (12 * p + i) a } })
    | none =>
      if 96 ≤ t.val then
        let r := tileRegion t
        let p := s.pool r
        let f (x : PoolExt) : PoolExt := if x.ffe then { x with g := x.g.set i a } else x
        if (s.lane (p.holder.getD 8)).loading then s
        else if t.val % 2 = 0 then s.setPool r { p with ext0 := p.ext0.map f }
        else s.setPool r { p with ext1 := p.ext1.map f }
      else s
  else s

def execTapLoad (tile : TileId) (index : Fin 16) (value : BitVec 12) (s : State) : Host.Outcome State Fault Refusal :=
  .next (tapLoadEffect tile index value s)

/-! ### Measurements -/

/-- A window begins: empty sums, in TRACK so far if the lane is in TRACK (R125). -/
def State.newWindow (s : State) (n : Nat) : State :=
  s.onLane n (fun l => { l with meas := { Meas.fresh with allTrack := decide (s.rx n = .track) } })

/-- A write of WIN (R125): stored as the nearer limit, and the window under way ends without latching (log 35). -/
def winWriteEffect (n : Lane) (w : BitVec 5) (s : State) : State :=
  if s.laneServed n then (s.put (LINE.MEAS_CTL_WIN.f n) (clampNat 8 30 w.toNat)).newWindow n else s

def execWinWrite (n : Lane) (win : BitVec 5) (s : State) : Host.Outcome State Fault Refusal :=
  .next (winWriteEffect n win s)

/-- START of a histogram (R128): bins and status clear, and collection begins unless the lane is in OFF.  On a parked lane
the write of START is discarded and the other fields are stored (16_register_map.md R450). -/
def startEffect (n : Lane) (point : Bool) (len : BitVec 5) (s : State) : State :=
  if s.laneServed n then
    let k := clampNat 10 30 len.toNat
    let s := (s.putB (LINE.HIST_CTL_POINT.f n) point).put (LINE.HIST_CTL_LEN.f n) k
    if s.parked n then s
    else
    let s := s.each (List.range 128) (fun s b => s.put (LINE.HIST_COUNT.f n b) 0)
    let s := ((s.put (LINE.HIST_STAT_DONE.f n) 0).put (LINE.HIST_STAT_VALID.f n) 0)
    let s := s.putB (LINE.HIST_STAT_BUSY.f n) (decide (s.rx n ≠ .off))
    s.onLane n (fun l => { l with histoLeft := 2 ^ k, histoTrack := decide (s.rx n = .track) })
  else s

def execStart (n : Lane) (point : Bool) (len : BitVec 5) (s : State) : Host.Outcome State Fault Refusal :=
  .next (startEffect n point len s)

/-- The end of a histogram (R128), once 2^LEN samples have been collected (log 56). -/
def histogramDoneEffect (n : Lane) (s : State) : State :=
  if s.getB (LINE.HIST_STAT_BUSY.f n) && decide ((s.lane n).histoLeft = 0) then
    let s := (s.put (LINE.HIST_STAT_BUSY.f n) 0).put (LINE.HIST_STAT_DONE.f n) 1
    (s.putB (LINE.HIST_STAT_VALID.f n) (s.lane n).histoTrack)
  else s

def execHistogramDone (n : Lane) (s : State) : Host.Outcome State Fault Refusal := .next (histogramDoneEffect n s)

/-- The end of a measurement window (R125 to R127): sums and counts latched, SEQ advanced, VALID as the window was (log 57). -/
def measWindowEndEffect (n : Lane) (s : State) : State :=
  if s.laneRuns n then
    let m := (s.lane n).meas
    let sig := m.sig / 65536
    let err := m.err / 65536
    let s := (s.put (LINE.SIG_LO.f n) sig).put (LINE.SIG_HI.f n) (sig / 2 ^ 32)
    let s := (s.put (LINE.ERR_LO.f n) err).put (LINE.ERR_HI.f n) (err / 2 ^ 32)
    let s := (s.put (LINE.CW.f n) m.cw).put (LINE.UNC.f n) m.unc
    let s := (s.put (LINE.FLIP_LO.f n) m.flip).put (LINE.FLIP_HI.f n) (m.flip / 2 ^ 32)
    let s := s.put (LINE.CLIP_CLIP_CNT.f n) (min m.clip (2 ^ 32 - 1))
    let s := (s.addTo (LINE.MEAS_STAT_SEQ.f n) 1).putB (LINE.MEAS_STAT_VALID.f n) m.allTrack
    s.newWindow n
  else s

def execMeasWindowEnd (n : Lane) (s : State) : Host.Outcome State Fault Refusal := .next (measWindowEndEffect n s)

/-! ### Converter gain and interleave tracking -/

/-- The number of corrected samples of one AGC measurement: 136 in each of 256 cycles (R100). -/
def agcSamples : Nat := 256 * 136

/-- The RMS of a measurement is within 10 % of the target (R115). -/
def agcWithin (target sumSq : Nat) : Bool :=
  decide (81 * target ^ 2 * agcSamples ≤ 100 * sumSq) && decide (100 * sumSq ≤ 121 * target ^ 2 * agcSamples)

/-- GAIN_CODE one code toward the target (R100; log 21). -/
def agcStep (target sumSq code : Nat) : Nat :=
  if sumSq < target ^ 2 * agcSamples then min 63 (code + 1)
  else if target ^ 2 * agcSamples < sumSq then code - 1
  else code

/-- The end of an AGC measurement of 256 cycles (R100, R115), from the corrected samples that the lane has summed. -/
def agcMeasurementEffect (n : Lane) (s : State) : State :=
  let x := (s.lane n).rxp
  let target := s.get (LINE.AGC_TARGET_RMS.f n)
  let step (s : State) : State :=
    s.put (LINE.AGC_GAIN_CODE.f n) (agcStep target x.agcSum (s.get (LINE.AGC_GAIN_CODE.f n)))
  if x.agcN = 256 then
    let s := s.onLane n (fun l => { l with rxp := { l.rxp with agcN := 0, agcSum := 0 } })
    if s.rx n = .gain then
      let s := step s
      let h := if agcWithin target x.agcSum then (s.lane n).hold + 1 else 0
      if 4 ≤ h then s.enterAcq n .cal else s.onLane n (fun l => { l with hold := h })
    else if s.rx n = .track ∧ s.getB (LINE.RX_CTL_AGC_TRACK.f n) then step s
    else s
  else s

def execAgcMeasurement (n : Lane) (s : State) : Host.Outcome State Fault Refusal := .next (agcMeasurementEffect n s)

/-- The estimates of one sub-ADC at the end of a tracking interval (R98), in units of its fields. -/
structure CorrEst where
  offset : Int
  gain : Int
  skew : Int
  deriving DecidableEq, Repr

/-- `a / b` to the nearest integer, halves away from zero; 0 where `b` is 0. -/
def ratioZ (a b : Int) : Int := if b = 0 then 0 else roundDiv (if b < 0 then -a else a) b.natAbs

/-- The estimates of sub-ADC `k` from the sums of an interval over the 64 sub-ADCs, with its present GAIN and SKEW (R98).  OFFSET:
its mean raw sample above the mean of all.  GAIN: the gain at which its mean magnitude would be that of all.  SKEW: at a free
distance `dist` from the field, earlier for a positive correlation and later for a negative one (log 94). -/
def estimateOf (subs : List SubAcc) (k : Nat) (gain skew : Int) (dist : Nat) : CorrEst :=
  let a := subs.getD k .fresh
  let n : Int := (subs.foldl (fun t x => t + x.n) 0 : Nat)
  let raw := subs.foldl (fun t x => t + x.raw) 0
  let mag : Int := (subs.foldl (fun t x => t + x.mag) 0 : Nat)
  { offset := ratioZ (16 * (a.raw * n - raw * a.n)) (a.n * n)
    gain := if a.mag = 0 then 511 else ratioZ ((4096 + gain) * mag * a.n) (n * a.mag) - 4096
    skew := skew - sgn a.cor * (dist : Int) }

/-- One correction field after an interval: the estimate in CAL, else one unit toward an estimate that differs by more
than one unit (R98); an estimate outside the field's range counts as its nearer end (log 18). -/
def trackField (cal : Bool) (width : Nat) (est v : Int) : Int :=
  let e := satSigned width est
  if cal then e
  else if v + 1 < e then v + 1 else if e < v - 1 then v - 1 else v

/-- The correction word of sub-ADC `k` after an interval. -/
def State.trackSub (s : State) (n : Nat) (cal : Bool) (k : Nat) (e : CorrEst) : State :=
  let upd (s : State) (f : FRow) (w : Nat) (x : Int) : State :=
    s.putZ (f.f n k) (trackField cal w x (s.getZ (f.f n k)))
  upd (upd (upd s LINE.CORR_OFFSET 8 e.offset) LINE.CORR_GAIN 10 e.gain) LINE.CORR_SKEW 10 e.skew

/-- Every estimate is within one unit of its field (R115). -/
def State.corrHeld (s : State) (n : Nat) (es : List (CorrEst × Nat)) : Bool :=
  es.all (fun p =>
    decide ((satSigned 8 p.1.offset - s.getZ (LINE.CORR_OFFSET.f n p.2)).natAbs ≤ 1) &&
    decide ((satSigned 10 p.1.gain - s.getZ (LINE.CORR_GAIN.f n p.2)).natAbs ≤ 1) &&
    decide ((satSigned 10 p.1.skew - s.getZ (LINE.CORR_SKEW.f n p.2)).natAbs ≤ 1))

/-- The estimates of the 64 sub-ADCs of lane `n` at the end of an interval (R98). -/
def State.estimates (s : State) (n : Nat) : List (CorrEst × Nat) :=
  (List.range 64).map (fun k =>
    (estimateOf (s.lane n).rxp.subs k (s.getZ (LINE.CORR_GAIN.f n k)) (s.getZ (LINE.CORR_SKEW.f n k))
      (Config.freeValue (s.freeCtr + k) % 1024), k))

/-- The end of a tracking interval (R98, R115) in which every sub-ADC has given a sample; the next interval starts. -/
def trackingIntervalEffect (n : Lane) (s : State) : State :=
  let r := s.rx n
  let es := s.estimates n
  let sampled := (s.lane n).rxp.subs.all (fun x => decide (0 < x.n))
  let runs := [RxState.cal, .track, .warm, .search].contains r && !s.getB (LINE.RX_CTL_TRACK_FREEZE.f n) && sampled
  let s := s.onLane n (fun l => { l with rxp := { l.rxp with subs := List.replicate 64 .fresh } })
  if runs then
    let cal := decide (r = .cal)
    let h := if s.corrHeld n es then (s.lane n).hold + 1 else 0
    let s := { s with freeCtr := s.freeCtr + 64 }
    let s := s.each es (fun s p => s.trackSub n cal p.2 p.1)
    if cal then
      if 2 ≤ h then s.enterAcq n .cdr else s.onLane n (fun l => { l with hold := h })
    else s
  else s

def execTrackingInterval (n : Lane) (s : State) : Host.Outcome State Fault Refusal := .next (trackingIntervalEffect n s)

/-! ### Clock recovery -/

/-- One 16-cycle window of votes (R104): CDR_LOCK is set after four quiet windows and cleared by a loud one.  In WARM the
first setting ends the fast gains, and with it the search begins with its run counters cleared (R102, R121, R156). -/
def cdrWindowEffect (n : Lane) (s : State) : State :=
  let x := (s.lane n).rxp
  if x.voteN = 16 then
    let q := if x.voteSum.natAbs ≤ 4 then (s.lane n).quiet + 1 else 0
    let s := s.onLane n (fun l => { l with quiet := min q 4, rxp := { l.rxp with voteN := 0, voteSum := 0 } })
    if 12 ≤ x.voteSum.natAbs then s.put (LINE.RX_STATE_CDR_LOCK.f n) 0
    else if 4 ≤ q then
      let s := s.put (LINE.RX_STATE_CDR_LOCK.f n) 1
      if s.rx n = .warm ∧ (s.lane n).warmLocked = false then s.onLane n (fun l => { l with warmLocked := true, runs := [] })
      else s
    else s
  else s

def execCdrWindow (n : Lane) (s : State) : Host.Outcome State Fault Refusal := .next (cdrWindowEffect n s)

/-- The parameters of one vote's update: KP_eff and KI_eff (R102). -/
def State.cdrGains (s : State) (n : Nat) : Nat × Nat :=
  if s.rx n = .warm ∧ (s.lane n).warmLocked = false then
    (s.get (LINE.CDR_CFG_KP_FAST.f n), s.get (LINE.CDR_CFG_KI_FAST.f n))
  else (s.get (LINE.CDR_CFG_KP.f n), s.get (LINE.CDR_CFG_KI.f n))

/-- One more vote into the window of 16 cycles (R104), and a cycle of CDR_LOCK held in the state CDR (R115). -/
def RxPath.vote (x : RxPath) (p : Int) (held : Bool) : RxPath :=
  { x with voteN := if x.voteN < 16 then x.voteN + 1 else 1
           voteSum := if x.voteN < 16 then x.voteSum + p else p
           lockHeld := if held then min 256 (x.lockHeld + 1) else 0 }

/-- One cycle's vote (R102): I and Φ advance; in DARK and IDWAIT I is held and Φ changes only by I.  I wraps at 32 bits: the spec
does not say what an overflow of I does (DESIGN CHOICE, log 95). -/
def State.cdrVote (s : State) (n : Nat) (p : Int) : State :=
  let g := s.cdrGains n
  let still := decide (s.rx n = .dark ∨ s.rx n = .idwait)
  let held := decide (s.rx n = .cdr) && s.getB (LINE.RX_STATE_CDR_LOCK.f n)
  s.onLane n (fun l =>
    let i := if still then l.freqI else signedOf 32 (wordOf 32 (l.freqI + p * 2 ^ g.2))
    let d := if still then i else p * 2 ^ (g.1 + 16) + i
    { l with freqI := i, phase := wordOf 32 (l.phase + d), rxp := l.rxp.vote p held })

/-! ### Exits by result or by time (R115, R118, R121) -/

/-- CDR_LOCK has been held for 256 cycles in CDR. -/
def cdrDoneEffect (n : Lane) (s : State) : State :=
  if s.rx n = .cdr ∧ 256 ≤ (s.lane n).rxp.lockHeld then s.enterAcq n .blind else s

def execCdrDone (n : Lane) (s : State) : Host.Outcome State Fault Refusal := .next (cdrDoneEffect n s)

/-- 4,096 consecutive used positions of BLIND have been seen, and at least 90 % of them lay near a level (log 94). -/
def blindDoneEffect (n : Lane) (s : State) : State :=
  let x := (s.lane n).rxp
  if s.rx n = .blind ∧ 4096 ≤ x.exitN ∧ 9 * 4096 ≤ 10 * x.exitSum then s.enterAcq n .dd else s

def execBlindDone (n : Lane) (s : State) : Host.Outcome State Fault Refusal := .next (blindDoneEffect n s)

/-- 16,384 used positions of DD have been seen, and their mean e_k squared is at most U^2/16; errors are in units of 1/256. -/
def ddDoneEffect (n : Lane) (s : State) : State :=
  let x := (s.lane n).rxp
  if s.rx n = .dd ∧ 16384 ≤ x.exitN ∧ 16 * x.exitSum ≤ 16384 * (256 * s.get (LINE.DETECT_LEVEL_UNIT.f n)) ^ 2 then s.setRx n .train
  else s

def execDdDone (n : Lane) (s : State) : Host.Outcome State Fault Refusal := .next (ddDoneEffect n s)

/-- 1.0 ms in TRAIN has elapsed. -/
def trainDoneEffect (n : Lane) (s : State) : State := if s.rx n = .train then s.enterSearch n else s

def execTrainDone (n : Lane) (s : State) : Host.Outcome State Fault Refusal := .next (trainDoneEffect n s)

/-- The states of R115 that have a timeout under R118. -/
def RxState.timed (r : RxState) : Bool := [RxState.gain, .cal, .cdr, .blind, .dd, .search].contains r

/-- A timeout of R118; none runs during a re-placement (14_selftest_faults.md R411). -/
def acqTimeoutEffect (n : Lane) (s : State) : State :=
  if (s.rx n).timed && !s.replacing n && !s.reloading (n.val / 2) then ((s.raiseLane n 1).addSat (LINE.RX_STATE_ATTEMPT.f n) 1).enterGain n false else s

def execAcqTimeout (n : Lane) (s : State) : Host.Outcome State Fault Refusal := .next (acqTimeoutEffect n s)

/-- WARM_TO has elapsed in WARM without syndrome lock (R121). -/
def warmFailEffect (n : Lane) (s : State) : State :=
  if s.rx n = .warm ∧ s.replacing n = false then (s.raiseLane n 3).enterGain n false else s

def execWarmFail (n : Lane) (s : State) : Host.Outcome State Fault Refusal := .next (warmFailEffect n s)

end Sys2Proof.Machine
end

