-- ==== Sys2Proof/Machine/Host.lean ====
section
/-!
DEFINITION. Host lanes, ports, the transmit adaptation FIFO and the Nutmeg buffer (06_host_side.md R193 to R222).
-/

namespace Sys2Proof.Machine

open Sys2Proof

/-! ### Host receivers (R196, R181, R207) -/

/-- The line lane and stream (true is b) that host lane `h` serves. -/
def State.hostRole (s : State) (h : Nat) : Option (Nat × Bool) :=
  (List.range 8).findSome? (fun n =>
    if s.getB (PORT.PCFG_MAPPED.f n) then
      if s.get (PORT.PCFG_HOST_A.f n) = h then some (n, false)
      else if s.get (PORT.PCFG_HOST_B.f n) = h then some (n, true) else none
    else none)

/-- Host lane `h` times the transmit half of lane `n`: mode T, the lower-numbered of its two host lanes (R181) (log 83). -/
def State.timesLane (s : State) (h n : Nat) : Bool :=
  !s.modeR n && decide (min (s.get (PORT.PCFG_HOST_A.f n)) (s.get (PORT.PCFG_HOST_B.f n)) = h)

/-- A counter of a port, by side. -/
def sideRow (b : Bool) (x y : FRow) : FRow := if b then y else x

def State.amLock (s : State) (n : Nat) (b : Bool) : Bool :=
  s.getB ((sideRow b PORT.PSTAT_AM_LOCK_A PORT.PSTAT_AM_LOCK_B).f n)

/-- The host lanes of one port of lane `n`: both under BREAKOUT 0. -/
def State.sideHosts (s : State) (n : Nat) (b : Bool) : List Nat :=
  if s.breakout n then (if b then (s.portHosts n).drop 1 else (s.portHosts n).take 1) else s.portHosts n

/-- One host block at the write side of the adaptation FIFO (R206, R207): the first clean one after the causes of a gap have cleared
ends the gap; in a gap no block is written, and after an underrun none up to the next clean point; the FIFO holds 512 entries. -/
def PortSide.txWrite (x : PortSide) (blk : Block66) : PortSide :=
  let x := if x.hostGap && x.txResume && isClean blk then { x with hostGap := false, txResume := false, txDiscard := false } else x
  if x.hostGap || (x.txDiscard && !isClean blk) then x
  else if x.txFifo.length < 512 then
    { x with txFifo := x.txFifo ++ [blk], txWriteOpen := openAfter x.txWriteOpen blk, txDiscard := false }
  else x

/-- The oldest complete codeword of a port (R202, R205): counted in either mode; in mode R its blocks reach the write side of the
FIFO, 80 EBLOCK_R of an uncorrectable one. -/
def State.hostCw (s : State) (n : Nat) (b : Bool) : State :=
  let x := s.side n b
  match x.dec.next (!s.breakout n) with
  | none => s
  | some (q, d) =>
    let h := (s.sideHosts n b).headD 0
    let s := s.setSide n b { x with dec := d }
    let s := (s.addTo ((sideRow b PORT.HOST_CW_A PORT.HOST_CW_B).f n) 1).countD0 0x21 h 1
    let s := match q.2 with
      | none => (s.addTo ((sideRow b PORT.HOST_UNC_A PORT.HOST_UNC_B).f n) 1).countD0 0x22 h 1
      | some k =>
        ((s.addTo ((sideRow b PORT.HOST_CORR_A PORT.HOST_CORR_B).f n) (natOf (decide (0 < k)))).addTo
          ((sideRow b PORT.HOST_SYM_A PORT.HOST_SYM_B).f n) k).countD0 0x23 h k
    if s.modeR n then s.setSide n b (q.1.foldl (fun x blk => x.txWrite blk) (s.side n b)) else s

/-- The codewords of a port that are complete reach the write side before a gap starts (R220). -/
def State.hostFlush (s : State) (n : Nat) (b : Bool) : State :=
  (s.each (s.side n (s.sideOf n b)).dec.cws (fun s _ => s.hostCw n (s.sideOf n b))).hostGapStart n b

/-- A receiver of a port is no longer LOCKED: holdover of a mode-T transmitter that follows it (R181), and in mode R a
transmit-direction gap after the codewords in flight (R207, R220). -/
def State.hostDown (s : State) (h : Nat) : State :=
  match s.hostRole h with
  | none => s
  | some (n, b) =>
    let s := s.onlyIf (s.timesLane h n && decide (s.get (LINE.TX_STATE_TIMING.f n) = 1))
      (fun s => (s.put (LINE.TX_STATE_TIMING.f n) 2).raiseLane n 11)
    s.onlyIf (s.modeR n) (fun s => s.hostFlush n b)

/-- Line lane `n` is enabled, and its transmit half runs (R181). -/
def State.txEnabled (s : State) (n : Nat) : Bool := s.laneRuns n && !bitAt (s.get (LINE.TX_STATE_SQ_REASON.f n)) 0

/-- A host receiver reaches LOCKED (R196): LOCK_ACQ; a mode-T transmitter that it times and that runs follows it (R181). -/
def hostLockAcqEffect (h : HostLane) (s : State) : State :=
  if s.d0Up = true ∧ s.get (HOST.HSTATE_RX_STATE.f h) = 1 then
    let s := ((s.put (HOST.HSTATE_RX_STATE.f h) 2).put (HOST.HSTATE_SIG_DET.f h) 1).raise (240 + 3 * h + 1)
    match s.hostRole h with
    | some (n, _) => s.onlyIf (s.timesLane h n && s.txEnabled n) (fun s => s.put (LINE.TX_STATE_TIMING.f n) 1)
    | none => s
  else s

def execHostLockAcq (h : HostLane) (s : State) : Host.Outcome State Fault Refusal := .next (hostLockAcqEffect h s)

/-- A host receiver leaves LOCKED by itself (R196). -/
def hostLockLostEffect (h : HostLane) (signal : Bool) (s : State) : State :=
  if s.d0Up = true ∧ s.get (HOST.HSTATE_RX_STATE.f h) = 2 then
    (((s.put (HOST.HSTATE_RX_STATE.f h) 1).putB (HOST.HSTATE_SIG_DET.f h) signal).raise (240 + 3 * h)).hostDown h
  else s

def execHostLockLost (h : HostLane) (signal : Bool) (s : State) : Host.Outcome State Fault Refusal :=
  .next (hostLockLostEffect h signal s)

/-- RX_RESTART (R196): ACQ from any state other than OFF, without LOCK_LOST. -/
def rxRestartEffect (h : HostLane) (s : State) : State :=
  if s.d0Up = true ∧ s.get (HOST.HSTATE_RX_STATE.f h) ≠ 0 then
    let was := s.hostLocked h
    (s.put (HOST.HSTATE_RX_STATE.f h) 1).onlyIf was (fun s => s.hostDown h)
  else s

def execRxRestart (h : HostLane) (s : State) : Host.Outcome State Fault Refusal := .next (rxRestartEffect h s)

/-- The host transmitter's COMMIT (R197): the five taps change together at a 128-bit cycle boundary.  On a lane that an image reload
disables the output is at differential zero whatever the taps are (R220) (log 59). -/
def hostTxCommitEffect (h : HostLane) (s : State) : State :=
  if s.d0Up then
    let w := s.get (HOST.TX_SHADOW0_CM3.f h) + 2 ^ 8 * s.get (HOST.TX_SHADOW0_CM2.f h) +
      2 ^ 16 * s.get (HOST.TX_SHADOW0_CM1.f h) + 2 ^ 24 * s.get (HOST.TX_SHADOW0_C0.f h)
    (s.put (HOST.TX_ACTIVE0_TAPS.f h) w).put (HOST.TX_ACTIVE1_CP1.f h) (s.get (HOST.TX_SHADOW1_CP1.f h))
  else s

def execHostTxCommit (h : HostLane) (s : State) : Host.Outcome State Fault Refusal := .next (hostTxCommitEffect h s)

/-! ### Host to line in mode R (R205 to R207) -/

/-- HOST_CODEWORD: the receive of a port that holds alignment-marker lock takes its oldest codeword (R202, R205). -/
def hostCodewordEffect (n : Lane) (portB : Bool) (s : State) : State :=
  let b := s.sideOf n portB
  if s.d0Up && s.amLock n b then s.hostCw n b else s

def execHostCodeword (lane : Lane) (portB : Bool) (s : State) : Host.Outcome State Fault Refusal :=
  .next (hostCodewordEffect lane portB s)

/-- The clause 119 receive of a port gains alignment-marker lock, with the place of its codewords, or loses it (R207, R222). -/
def amLockEffect (n : Lane) (portB on : Bool) (offA offB : Nat) (s : State) : State :=
  if s.d0Up && s.getB (PORT.PCFG_MAPPED.f n) then
    let b := s.sideOf n portB
    let s := s.putB ((sideRow b PORT.PSTAT_AM_LOCK_A PORT.PSTAT_AM_LOCK_B).f n) on
    let s := s.onlyIf (!on && s.modeR n) (fun s => s.hostFlush n b)
    let x := s.side n b
    s.setSide n b { x with dec := { HostDec.fresh with skipA := offA, skipB := offB, scr := x.dec.scr } }
  else s

def execAmLock (lane : Lane) (portB : Bool) (on : Bool) (offA offB : Nat) (s : State) : Host.Outcome State Fault Refusal :=
  .next (amLockEffect lane portB on offA offB s)

/-- The conditions of R207 are clear: every receiver of the port LOCKED, AM lock held, no queue fault outstanding. -/
def State.hostClear (s : State) (n : Nat) (b : Bool) : Bool :=
  (s.sideHosts n b).all (fun h => s.hostLocked h) && s.amLock n b && !(s.side n b).hostFault

/-- The causes of a transmit-direction gap have cleared (R207): it ends at the first clean point, and host blocks are written again
from there. -/
def hostGapEndEffect (n : Lane) (portB : Bool) (s : State) : State :=
  let b := s.sideOf n portB
  let s := s.setSide n b { s.side n b with hostFault := false }
  if (s.side n b).hostGap && s.hostClear n b then
    s.setSide n b { s.side n b with txResume := true }
  else s

def execHostGapEnd (lane : Lane) (portB : Bool) (s : State) : Host.Outcome State Fault Refusal :=
  .next (hostGapEndEffect lane portB s)

/-- A counted idle insertion or deletion on lane `n` (R222, 15_management.md R442). -/
def State.idleIns (s : State) (n : Nat) : State := (s.addTo (PORT.IDLE_INS.f n) 1).countD0 0x26 n 1
def State.idleDel (s : State) (n : Nat) : State := (s.addTo (PORT.IDLE_DEL.f n) 1).countD0 0x27 n 1

/-- In a gap the write side writes Local Fault in place of host blocks (R207): one for each block slot that is read (log 59). -/
def PortSide.gapFill (x : PortSide) : PortSide :=
  if x.hostGap ∧ x.txFifo.length < 512 then { x with txFifo := x.txFifo ++ [.localFault] } else x

/-- One block slot read from the adaptation FIFO (R206): the fill is held at 64 by deleting an idle block that another
follows above 72, and by inserting one at a clean point below 56; an empty FIFO ends an open packet with EBLOCK_R and
UNDERRUN. -/
def State.txSlot (s : State) (n : Nat) (b : Bool) : State :=
  let x := (s.side n b).gapFill
  let send (s : State) (x : PortSide) (blk : Block66) (rest : List Block66) : State :=
    s.setSide n b { x with txFifo := rest, txReadOpen := openAfter x.txReadOpen blk, lastTx := some blk }
  match x.txFifo with
  | [] =>
    if x.txReadOpen then (send s { x with txDiscard := true, txWriteOpen := false } .eblock []).raiseLane n 28
    else (send s x .idle []).idleIns n
  | h :: r =>
    if 72 < x.txFifo.length ∧ h = .idle ∧ r.head? = some .idle then (send s x .idle (r.drop 1)).idleDel n
    else if x.txFifo.length < 56 ∧ isClean h = true then (send s x .idle x.txFifo).idleIns n
    else send s x h r

/-- The block of a slot into its transmit stream (R208): that of its port under BREAKOUT 1; under BREAKOUT 0 eighty blocks in turn to
stream a and stream b. -/
def Port.feed (p : Port) (breakout b : Bool) (blk : Block66) : Port :=
  if breakout then (if b then { p with encB := p.encB.feed blk } else { p with encA := p.encA.feed blk })
  else if p.encTurnB then
    let e := p.encB.feed blk
    { p with encB := e, encTurnB := !e.blocks.isEmpty }
  else
    let e := p.encA.feed blk
    { p with encA := e, encTurnB := e.blocks.isEmpty }

/-- `k` block slots read from the adaptation FIFO into the streams of the lane. -/
def State.txSlots (s : State) (n : Nat) (b : Bool) (k : Nat) : State :=
  s.each (List.range k) (fun s _ =>
    let s := s.txSlot n b
    s.setPort n ((s.port n).feed (s.breakout n) b (((s.side n b).lastTx).getD .idle)))

/-! ### The Nutmeg buffer (R209 to R217) -/

/-- Every stream of the port holds syndrome lock and group lock (R213). -/
def State.locksHeld (s : State) (n : Nat) : Bool :=
  s.syncLock n && s.groupLock n && decide (s.get (LINE.SYNC_WIN_GROUP_MISS.f n) < 3)

/-- One block, with its poison mark, at the write side in OPEN: discarded up to the first clean point after a gap; with no free entry
OVF is set and the rest of the codeword is a gap, whose EBLOCK_R for an open packet takes the next entry that is free (R216). -/
def State.nmWrite (s : State) (n : Nat) (b : Bool) (blk : Block66 × Bool) : State :=
  let x := s.side n b
  let due := x.nmDiscard && x.nmWriteOpen && decide (x.nm.length < s.nmCap n)
  let s := s.onlyIf due (fun s => s.setNm n b (x.nmAppend .eblock false))
  let x := s.side n b
  if x.ovfSkip || (x.nmDiscard && !isClean blk.1) then s
  else if x.nm.length < s.nmCap n then s.setNm n b ({ x with nmDiscard := false }.nmAppend blk.1 blk.2)
  else (s.setSide n b { x with ovfSkip := true, nmDiscard := true }).raiseLane n 27

/-- The blocks of one RS codeword written (R210); an overflow skips no further than its end (R216). -/
def State.nmCodeword (s : State) (n : Nat) (b : Bool) (bs : List (Block66 × Bool)) : State :=
  let s := s.each bs (fun s blk => s.nmWrite n b blk)
  let x := s.side n b
  s.setSide n b { x with ovfSkip := false }

/-- The sets of both streams of a 400G port taken in their order (R208, R217), `k` of them at most. -/
def State.mergeSets (s : State) (n k : Nat) : State :=
  match k with
  | 0 => s
  | j + 1 =>
    let p := s.port n
    if p.setTurnB then
      match p.setsB with
      | x :: r => ((s.setPort n { p with setsB := r, setTurnB := false }).nmCodeword n false x).mergeSets n j
      | [] => s
    else
      match p.setsA with
      | x :: r => ((s.setPort n { p with setsA := r, setTurnB := true }).nmCodeword n false x).mergeSets n j
      | [] => s

/-- The monitoring engine of a port holds AM lock (R202). -/
def State.monLock (s : State) (n : Nat) (b : Bool) : Bool :=
  s.getB ((sideRow b PORT.PSTAT_MON_LOCK PORT.PSTAT_MON_LOCK_B).f n)

/-- The write side of stream `streamB` waits for a codeword that begins a group; the sets of stream b of a 400G port do so
after stream a (R208, R213). -/
def State.awaiting (s : State) (n : Nat) (streamB : Bool) : Bool :=
  let p := s.port n
  if streamB then p.awaitB || (!s.breakout n && p.awaitA) else p.awaitA

/-- A line RS codeword counted once, and once as uncorrectable or marked (R203, R210, R222). -/
def State.countLineCw (s : State) (n : Nat) (b bad : Bool) : State :=
  let s := (s.addTo ((sideRow b PORT.LINE_CW_A PORT.LINE_CW_B).f n) 1).countD0 0x24 n 1
  s.onlyIf bad (fun s => (s.addTo ((sideRow b PORT.LINE_UNC_A PORT.LINE_UNC_B).f n) 1).countD0 0x25 n 1)

/-- The blocks of a decoded line RS codeword at the write side of its port (R210, R213, R217): written in OPEN, after a gap from one that
begins a group on. -/
def State.lineBlocks (s : State) (n : Nat) (streamB groupStart : Bool) (bs : List (Block66 × Bool)) : State :=
  let b := s.sideOf n streamB
  if s.nmSt n b ≠ 0 then s
  else if s.awaiting n streamB && !(groupStart && !(streamB && !s.breakout n && (s.port n).awaitA)) then s
  else
    let p := s.port n
    let p := if streamB then { p with awaitB := false } else { p with awaitA := false }
    if s.breakout n then (s.setPort n p).nmCodeword n b bs
    else
      let p := if streamB then { p with setsB := p.setsB ++ [bs] } else { p with setsA := p.setsA ++ [bs] }
      (s.setPort n p).mergeSets n (p.setsA.length + p.setsB.length)

/-- LINE_RS_CODEWORD: the oldest codeword of a stream, in mode R decoded and written, in mode T monitored (R203, R210). -/
def lineRsCodewordEffect (n : Lane) (streamB : Bool) (upsets : List Nat) (s : State) : State :=
  let b := s.sideOf n streamB
  let p := s.port n
  if !s.d0Up then s
  else if s.modeR n then
    match (if streamB then p.decB else p.decA).next with
    | none => s
    | some (c, d) =>
      let s := s.setPort n (if streamB then { p with decB := d } else { p with decA := d })
      (s.countLineCw n b c.1).lineBlocks n streamB c.2.2 (c.2.1.zipIdx.map (fun q => (q.1, upsets.contains q.2)))
  else
    let x := s.side n b
    match x.mon.cws with
    | [] => s
    | bad :: r => (s.setSide n b { x with mon := { x.mon with cws := r } }).countLineCw n b bad

def execLineRsCodeword (lane : Lane) (streamB : Bool) (upsets : List Nat) (s : State) : Host.Outcome State Fault Refusal :=
  .next (lineRsCodewordEffect lane streamB upsets s)

/-- HOLD_TIME has elapsed in GAP_IDLE (R212); not if the gap ends in the same interval: the locks that it waits for are held
(R220). -/
def lfStartEffect (n : Lane) (portB : Bool) (s : State) : State :=
  let b := s.sideOf n portB
  if s.modeR n = true ∧ s.nmSt n b = 1 ∧ ¬((s.side n b).gapCause = some .lockLoss ∧ s.locksHeld n = true) then
    ((s.put ((nmState b).f n) 2).raiseLane n 25).setSide n b { s.side n b with lf := true }
  else s

def execLfStart (lane : Lane) (portB : Bool) (s : State) : Host.Outcome State Fault Refusal :=
  .next (lfStartEffect lane portB s)

/-- A Nutmeg gap ends at a group start (R213): both locks held, OPEN, RESUME. -/
def resumeEffect (n : Lane) (portB : Bool) (s : State) : State :=
  let b := s.sideOf n portB
  if s.modeR n = true ∧ s.nmSt n b ≠ 0 ∧ s.locksHeld n = true then
    let x := s.side n b
    ((s.put ((nmState b).f n) 0).raiseLane n 26).setSide n b { x with gapCause := none, nmDiscard := true, ovfSkip := false }
  else s

def execResume (lane : Lane) (portB : Bool) (s : State) : Host.Outcome State Fault Refusal :=
  .next (resumeEffect lane portB s)

/-- The fill has reached RESUME_FILL in OPEN: the read side reads from the buffer (R213). -/
def nutmegReadResumeEffect (n : Lane) (portB : Bool) (s : State) : State :=
  let b := s.sideOf n portB
  let x := s.side n b
  if s.modeR n = true ∧ s.nmSt n b = 0 ∧ s.get (PORT.NM_CFG_RESUME_FILL.f n) ≤ x.nm.length then
    s.setSide n b { x with reading := true, lf := false }
  else s

def execNutmegReadResume (lane : Lane) (portB : Bool) (s : State) : Host.Outcome State Fault Refusal :=
  .next (nutmegReadResumeEffect lane portB s)

/-- The target fill of a port (R214). -/
def State.nmTarget (s : State) (n : Nat) : Nat :=
  let t := s.get (PORT.NM_CFG_TARGET_FILL.f n)
  if s.breakout n then t / 2 else t

/-- A block sent to the host by the read side of a port: EBLOCK_R blocks are counted (15_management.md R442). -/
def State.rxSend (s : State) (n : Nat) (b : Bool) (x : PortSide) (blk : Block66) (rest : List (Block66 × Bool)) : State :=
  (s.setSide n b { x with nm := rest, nmReadOpen := openAfter x.nmReadOpen blk, lastRx := some blk }).countD0 0x29 n
    (natOf (decide (blk = .eblock)))

/-- One block slot of the Nutmeg read side (R212 to R214). -/
def State.rxSlot (s : State) (n : Nat) (b : Bool) : State :=
  let x := s.side n b
  let opened := decide (s.nmSt n b = 0)
  let fillBlk : Block66 := if x.lf then .localFault else .idle
  if !x.reading then s.rxSend n b x fillBlk x.nm
  else
    match x.nm with
    | [] =>
      if opened then
        if x.nmReadOpen then (s.rxSend n b { x with nmDiscard := true, nmWriteOpen := false } .eblock []).raiseLane n 28
        else (s.rxSend n b x .idle []).idleIns n
      else s.rxSend n b { x with reading := false } fillBlk []
    | h :: r =>
      let t := s.nmTarget n
      if opened = true ∧ t + 8 < x.nm.length ∧ h.1 = .idle ∧ (r.head?.map (·.1)) = some .idle then
        (s.rxSend n b x .idle (r.drop 1)).idleDel n
      else if opened = true ∧ x.nm.length + 8 < t ∧ isClean h.1 = true then (s.rxSend n b x .idle x.nm).idleIns n
      else if h.2 then (s.poisonUse 5 0).rxSend n b x .eblock r
      else s.rxSend n b x h.1 r

/-- `k` block slots of the Nutmeg read side. -/
def State.rxSlots (s : State) (n : Nat) (b : Bool) (k : Nat) : State := s.each (List.range k) (fun s _ => s.rxSlot n b)

/-- A write of 1 to NM_HWM bit 31 (R222). -/
def nmHwmClrEffect (n : Lane) (s : State) : State :=
  if s.d0Up then
    (s.put (PORT.NM_HWM_HWM_A.f n) (s.port n).a.nm.length).put (PORT.NM_HWM_HWM_B.f n) (s.port n).b.nm.length
  else s

def execNmHwmClr (lane : Lane) (s : State) : Host.Outcome State Fault Refusal := .next (nmHwmClrEffect lane s)

/-- The bits of the codewords under way at the monitoring engine of a port leave it: those of flagged rows inverted, and these rows
counted, as without AM lock (R203). -/
def State.monFlush (s : State) (n : Nat) (b : Bool) : State :=
  let x := s.side n b
  let m := x.mon
  let rows := (((m.bitsA ++ m.bitsB).filter (·.2)).length + 255) / 256
  let s := s.setSide n b { x with mon := { m with bitsA := [], bitsB := [], skipA := 0, skipB := 0 } }
  let p := s.port n
  let s := s.setPort n (if b then { p with outB := p.outB ++ invertFlagged m.bitsA }
    else if s.breakout n then { p with outA := p.outA ++ invertFlagged m.bitsA }
    else { p with outA := p.outA ++ invertFlagged m.bitsA, outB := p.outB ++ invertFlagged m.bitsB })
  s.addTo (PORT.MON_UNLOCKED_ROWS.f n) rows

/-- A monitoring engine gains AM lock, with the place of its codewords, or loses it (R202), in mode T. -/
def monAmLockEffect (n : Lane) (portB on : Bool) (offA offB : Nat) (s : State) : State :=
  if s.d0Up && !s.modeR n && s.getB (PORT.PCFG_MAPPED.f n) then
    let b := s.sideOf n portB
    let s := (s.monFlush n b).putB ((sideRow b PORT.PSTAT_MON_LOCK PORT.PSTAT_MON_LOCK_B).f n) on
    let x := s.side n b
    s.setSide n b { x with mon := { x.mon with skipA := offA, skipB := offB } }
  else s

def execMonAmLock (lane : Lane) (portB : Bool) (on : Bool) (offA offB : Nat) (s : State) : Host.Outcome State Fault Refusal :=
  .next (monAmLockEffect lane portB on offA offB s)

end Sys2Proof.Machine
end

