-- ==== Sys2Proof/Machine/RxLink.lean ====
section
/-!
DEFINITION. The line data link toward the host and what D0 does with a decoded codeword: rows, row flags, the mode-T marking
of uncorrectable codewords, and the host transmitters (01_architecture.md R38, R48; 04_inner_code.md R145, R155, R169, R170;
06_host_side.md R203, R204).
-/

namespace Sys2Proof.Machine

open Sys2Proof

/-- The message positions `p` with `p mod 4 = r`, as a mask over 256 bits whose first position is the top bit. -/
def laneMask (r : Nat) : Nat := 2 ^ (3 - r) * ((2 ^ 256 - 1) / 15)

/-- Four 256-bit words merged by position: `ws[r]` at the positions `p` with `p mod 4 = r` (R145). -/
def mergeRows (ws : List Nat) : Nat :=
  (List.range 4).foldl (fun a r => a ||| (ws.getD r 0 &&& laneMask r)) 0

/-- All 256 bits inverted. -/
def invert256 (w : Nat) : Nat := w ^^^ (2 ^ 256 - 1)

/-- The bits of a stream that wait for its host lane. -/
def State.outBits (s : State) (n : Nat) (b : Bool) : List Bool := if b then (s.port n).outB else (s.port n).outA

/-- The host lane of a stream of lane `n`, where the lane is mapped. -/
def State.streamHost (s : State) (n : Nat) (b : Bool) : Option Nat := (s.portHosts n)[natOf b]?

/-- The bits of a stream that wait enter the queue of its host lane, 128 at a time, as long as it holds credits (R39, R203). -/
def State.sendOut (s : State) (n : Nat) (b : Bool) (k : Nat) : State :=
  match k with
  | 0 => s
  | j + 1 =>
    match s.streamHost n b with
    | none => s
    | some h =>
      let bs := s.outBits n b
      if 128 ≤ bs.length ∧ s.canPush ⟨.hostTx, h⟩ = true then
        let p := s.port n
        let s := s.setPort n (if b then { p with outB := bs.drop 128 } else { p with outA := bs.drop 128 })
        (s.pushQ ⟨.hostTx, h⟩ ⟨.host (BitVec.ofNat 128 (topBits (bs.take 128))) false, false⟩).sendOut n b j
      else s

/-- Every entry that a stream's waiting bits fill, as far as credits go. -/
def State.drainOut (s : State) (n : Nat) (b : Bool) : State := s.sendOut n b ((s.outBits n b).length / 128)

/-- A row of a stream toward its host lane in mode T (R203): without AM lock a flagged row is inverted and counted; with it the
monitoring engine inverts every bit of each codeword that a flagged row touches, once every bit of it is there. -/
def State.sendRow (s : State) (n : Nat) (b : Bool) (row : Nat) (flag : Bool) : State :=
  let sd := s.sideOf n b
  if (s.portHosts n).isEmpty then s
  else if s.monLock n sd then
    let x := s.side n sd
    let r := x.mon.feed (!s.breakout n) (b && !s.breakout n) ((bitsOf 256 row).map (fun w => (w, flag)))
    let s := s.setSide n sd { x with mon := r.1 }
    let p := s.port n
    let s := s.setPort n (if sd then { p with outB := p.outB ++ r.2.1 } else { p with outA := p.outA ++ r.2.1, outB := p.outB ++ r.2.2 })
    (s.drainOut n false).drainOut n true
  else
    let s := s.onlyIf flag (fun s => s.addTo (PORT.MON_UNLOCKED_ROWS.f n) 1)
    let bits := bitsOf 256 (if flag then invert256 row else row)
    let p := s.port n
    (s.setPort n (if b then { p with outB := p.outB ++ bits } else { p with outA := p.outA ++ bits })).drainOut n b

/-- The words of a stream received before the present one, newest first, made up to three with free values that count as not
delivered (R169) (log 70). -/
def State.pastWords (s : State) (h : List (Nat × Bool)) : List (Nat × Bool) :=
  h ++ (List.range (3 - h.length)).map (fun i => (Config.freeValue (s.freeCtr + i) % 2 ^ 256, true))

/-- A codeword of a mode-R stream, and the row that it completes, at the RS decoder of the stream (R164, R210). -/
def State.decodeRow (s : State) (n : Nat) (b valid start : Bool) (row : Nat) (flag : Bool) : State :=
  let p := s.port n
  let step (d : StreamDec) : StreamDec := (d.count valid start).row row flag
  s.setPort n (if b then { p with decB := step p.decB } else { p with decA := step p.decA })

/-- D0 takes a codeword of stream `b` of lane `n`: the row that it completes, with its flag (R145, R169), toward the host in
mode T and to the RS decoder in mode R, with the status' GROUP_VALID and whether its cover begins a group (log 31). -/
def State.d0Take (s : State) (n msg : Nat) (forced b valid start : Bool) : State :=
  let l := s.lane n
  let h := if b then l.rxRowsB else l.rxRowsA
  let ws := (msg, forced) :: s.pastWords h
  let row := mergeRows ((ws.take 4).reverse.map (·.1))
  let flag := (ws.take 4).any (·.2)
  let s := { s with freeCtr := s.freeCtr + (3 - h.length) }
  let h2 := ((msg, forced) :: h).take 3
  let s := s.onLane n (fun l =>
    if b then { l with rxRowsB := h2, rowB := some (row, flag), d0NextB := false }
    else { l with rxRowsA := h2, rowA := some (row, flag), d0NextB := true })
  if s.modeR n then s.decodeRow n b valid start row flag else s.sendRow n b row flag

/-- The bits of an entry of the decoded path: message, and its status with the parity mark in UNC (R155). -/
def decodedEntry (e : QEntry) : Option (Nat × Nat) :=
  match e.data with
  | .decoded m st => some (m.toNat, if e.poison then putBit st.toNat 2 true else st.toNat)
  | _ => none

/-- D0 takes a codeword with status `st`: forced with UNC or POISON, its stream and group start by COVER, GROUP_VALID (R155, R169). -/
def State.d0Status (s : State) (n msg st : Nat) : State :=
  s.d0Take n msg (bitAt st 2 || bitAt st 3) (bitAt st 0) (bitAt st 5) (bitAt st 1)

/-- A stream has room toward its host lane: a credit of the host transmit queue, or in AM lock less than a pair of codewords that
waits for one (log 31). -/
def State.roomOut (s : State) (n : Nat) (b : Bool) : Bool :=
  match s.streamHost n b with
  | none => true
  | some h => s.canPush ⟨.hostTx, h⟩ || (s.monLock n (s.sideOf n b) && decide ((s.outBits n b).length < 10880))

/-- The head of the link to D0 queue is taken, unless a host transmit queue that it needs holds no credit (R95) (log 31). -/
def State.d0Consume (s : State) (n : Nat) : State :=
  let q : QueueId := ⟨.linkD0, n⟩
  let ready := s.modeR n || (s.roomOut n false && s.roomOut n true)
  match (s.queue q).entries with
  | [] => s
  | e :: _ =>
    if ready then
      let s := (s.popQ q).onlyIf e.poison (fun s => s.poisonUse 3 0)
      match decodedEntry e with
      | some (m, st) => s.d0Status n m st
      | none => s
    else s

/-- The link carries the head of the DEC to link queue to D0 while it holds a credit, and D0 takes it (R39; log 31). -/
def State.rxForward (s : State) (n : Nat) : State :=
  let q : QueueId := ⟨.decLink, n⟩
  match (s.queue q).entries with
  | [] => s
  | e :: _ => if s.canPush ⟨.linkD0, n⟩ then ((s.popQ q).pushQ ⟨.linkD0, n⟩ e).d0Consume n else s

/-- A cycle without a codeword at D0 (R48): one codeword of the stream that is due, forced uncorrectable, in the place that it has in
its group; in mode R a gap (log 70). -/
def State.d0Forced (s : State) (n : Nat) : State :=
  let b := (s.lane n).d0NextB
  let d := if b then (s.port n).decB else (s.port n).decA
  let s := (s.freed).d0Take n (s.free 256) true b d.since.isSome false
  s.onlyIf (s.modeR n) (fun s => s.gapStart n b .starvation)

end Sys2Proof.Machine
end

