-- ==== Sys2Proof/Machine/Lock.lean ====
section
/-!
DEFINITION. The inner code, Chase decoding, syndrome lock and group lock (04_inner_code.md R141 to R173).
-/

namespace Sys2Proof.Machine

open Sys2Proof

/-! ### The code (R141 to R144) -/

/-- One more coefficient into a remainder modulo g(x) = x^16 + x^15 + x^2 + 1. -/
def remBit (r : Nat) (b : Bool) : Nat :=
  let x := 2 * r + natOf b
  if 2 ^ 16 ≤ x then x ^^^ 0x18005 else x

/-- The remainder modulo g(x) of the polynomial of degree below `n` that `w` spells, most significant bit first,
continued from remainder `r`. -/
def remG (n w r : Nat) : Nat :=
  match n with
  | 0 => r
  | k + 1 => remG k w (remBit r (Nat.testBit w k))

/-- The parity value F(m) of a 256-bit message (R142). -/
def parityOf (m : Nat) : Nat := remG 272 (m * 2 ^ 16) 0

/-- The syndrome of a 272-bit word (R144). -/
def syndromeOf (w : Nat) : Nat := remG 272 w 0

/-- The covers of R143 by index. -/
def coverOf (i : Nat) : Nat :=
  match i with
  | 0 => 0x6D2B | 1 => 0x92F5 | 2 => 0xB4C6 | _ => 0x4B1A

/-- The powers x^e mod g for e = 0 to n - 1, from the value at 0. -/
def powersG (n p : Nat) : List Nat :=
  match n with
  | 0 => []
  | k + 1 => p :: powersG k (remBit p false)

/-- Hard decoding of a 272-bit word with deviation `d` (R151): the word accepted, or none. -/
def hardDecode (w d : Nat) : Option Nat :=
  if d = 0 then some w
  else if oddParity 16 d = true ∧ d ≠ 0x8003 then
    let e := (powersG 272 1).findIdx (fun p => decide (p = d))
    if e < 272 then some (w ^^^ 2 ^ e) else none
  else none

/-! ### Chase decoding (R152 to R154) -/

/-- The codeword position of the lowest reliability among the positions not in `used`, the lower position on equal
reliability. -/
def lowestRel (rel : List Nat) (used : List Nat) : Nat :=
  ((List.range 272).filter (fun i => !used.contains i)).foldl
    (fun b i => if b = 272 then i else if rel.getD i 0 < rel.getD b 0 then i else b) 272

/-- The four positions of lowest reliability, in order. -/
def fourLowest (rel : List Nat) : List Nat :=
  let a := lowestRel rel []
  let b := lowestRel rel [a]
  let c := lowestRel rel [a, b]
  [a, b, c, lowestRel rel [a, b, c]]

/-- The trial word of pattern `t`: position `lr[j]` inverted for each bit `j` of `t`. -/
def trialWord (w : Nat) (lr : List Nat) (t : Nat) : Nat :=
  lr.zipIdx.foldl (fun x p => if bitAt t p.2 then x ^^^ 2 ^ (271 - p.1) else x) w

/-- The metric of a candidate: the sum of the reliabilities of the positions where it differs. -/
def chaseMetric (w cand : Nat) (rel : List Nat) : Nat :=
  (List.range 272).foldl (fun a i => if bitAt (w ^^^ cand) (271 - i) then a + rel.getD i 0 else a) 0

/-- The outcome of decoding one codeword. -/
structure Decoded where
  out : Nat
  unc : Bool
  rxPoison : Bool
  flips : Nat
  cover : Nat
  deriving DecidableEq, Repr

/-- Chase decoding under the cover of index `c` (R152). -/
def chaseDecode (chase : Bool) (c w : Nat) (rel : List Nat) : Decoded :=
  let cover := coverOf c
  if syndromeOf w ^^^ cover = 0xFFFF then { out := w, unc := true, rxPoison := true, flips := 0, cover := c }
  else
    let lr := fourLowest rel
    let try1 (best : Option (Nat × Nat)) (t : Nat) : Option (Nat × Nat) :=
      let tw := trialWord w lr t
      match hardDecode tw (syndromeOf tw ^^^ cover) with
      | none => best
      | some cand =>
        let m := chaseMetric w cand rel
        match best with
        | none => some (cand, m)
        | some b => if m < b.2 then some (cand, m) else best
    match (List.range (if chase then 16 else 1)).foldl try1 none with
    | none => { out := w, unc := true, rxPoison := false, flips := 0, cover := c }
    | some b => { out := b.1, unc := false, rxPoison := false, flips := popCount 272 (w ^^^ b.1), cover := c }

/-- Decoding under expected cover `c`, or exactly under the other cover of its stream (R153). -/
def decodeExpect (chase : Bool) (c w : Nat) (rel : List Nat) : Decoded :=
  let other := (c + 2) % 4
  if syndromeOf w = coverOf other then { out := w, unc := false, rxPoison := false, flips := 0, cover := other }
  else chaseDecode chase c w rel

/-! ### The search (R156 to R159) -/

/-- The unit searches: in SEARCH, and in WARM from the cycle in which CDR_LOCK is first set there (R121, R156). -/
def State.searching (s : State) (n : Nat) : Bool :=
  !s.replacing n && !s.reloading (n / 2) && (decide (s.rx n = .search) || (decide (s.rx n = .warm) && (s.lane n).warmLocked))

/-- A candidate meets a run (R157) (log 55). -/
def Run.step (r : Run) (accA accB grpA grpB poison : Bool) : Run :=
  if poison then Run.empty
  else
    let acc (b : Bool) : Bool := if b then accB else accA
    let grp (b : Bool) : Bool := if b then grpB else grpA
    let ext := decide (0 < r.count) && acc (!r.streamB)
    if ext then
      let g := match r.group with
        | some (k, b) => some (k + 1, b)
        | none => if grp (!r.streamB) then some (0, !r.streamB) else none
      { count := r.count + 1, streamB := !r.streamB, group := g }
    else if accA || accB then
      let b := !accA
      { count := 1, streamB := b, group := if grp b then some (0, b) else none }
    else Run.empty

/-- The 272-bit word that begins at symbol offset `o` of the word before `w` and continues into `w` (R157); at offset 0 it is `w`,
and it is there whatever was before. -/
def SoftWord.cut (o : Nat) (prev : Option SoftWord) (w : SoftWord) : Option SoftWord :=
  if o = 0 then some w
  else
    prev.map (fun p =>
      { bits := (p.bits * 2 ^ 272 + w.bits) / 2 ^ (272 - 2 * o) % 2 ^ 272
        rel := (p.rel.drop (2 * o) ++ w.rel).take 272, poison := p.poison || w.poison })

/-- The run counters after the candidate at offset `o` that ends in word `w` (R157) (log 55). -/
def candidateRun (chase : Bool) (prev : Option SoftWord) (w : SoftWord) (runs : SMap Run) (o : Nat) : SMap Run :=
  match SoftWord.cut o prev w with
  | none => runs
  | some x =>
    let acc (c : Nat) : Bool := let d := decodeExpect chase c x.bits x.rel; !d.unc || d.rxPoison
    let r := (runs.get Run.empty o).step (acc 0) (acc 1) (decide (syndromeOf x.bits = coverOf 2))
      (decide (syndromeOf x.bits = coverOf 3)) x.poison
    runs.set Run.empty o r

/-- One word of the search: a candidate at each of the 136 offsets (R157). -/
def State.searchWord (s : State) (n : Nat) (w : SoftWord) : State :=
  let ch := s.getB (LINE.DEC_CTL_CHASE_EN.f n)
  s.onLane n (fun l => { l with runs := (List.range 136).foldl (candidateRun ch l.rxp.prev w) l.runs })

/-- The first offset whose run has reached 64, the lowest one (R158). -/
def State.lockOffset (s : State) (n : Nat) : Option Nat :=
  (List.range 136).find? (fun o => decide (64 ≤ ((s.lane n).runs.get Run.empty o).count))

/-- Group lock declared, with the next group start `k` codewords ahead on stream `b` (R166). -/
def State.groupAcq (s : State) (n k : Nat) (b : Bool) : State :=
  let s := (s.put (LINE.SYNC_STAT_GROUP_LOCK.f n) 1).put (LINE.SYNC_WIN_GROUP_MISS.f n) 0
  (s.onLane n (fun l => { l with cadence := some (k, b), noGroup := 0 })).raiseLane n 5

/-- Lane `n` in syndrome lock at offset `o` (R158, R166): codeword 0 next, of stream b if `b`; TRACK; group lock where `g` gives the
codewords to the next group start and its stream (log 55). -/
def State.lockAt (s : State) (n o : Nat) (b : Bool) (g : Option (Nat × Bool)) : State :=
  let s := (s.put (LINE.SYNC_STAT_SYNC_LOCK.f n) 1).put (LINE.SYNC_STAT_OFFSET.f n) o
  let s := (s.put (LINE.SYNC_STAT_FORMAT.f n) 0).put (LINE.SYNC_WIN_LOSS_COUNT.f n) 0
  let s := s.put (LINE.SYNC_WIN_GROUP_MISS.f n) 0
  let s := s.onLane n (fun l => { l with cwNum := 0, lockB := b, window := [], cadence := none, noGroup := 0
                                         rxRowsA := [], rxRowsB := [], forced := 0, runs := [] })
  let s := match s.modeR n, g with
    | true, some (k, x) => s.groupAcq n k x
    | _, _ => s
  (s.countLane n 0x09 1).enterTrack n

/-- Syndrome lock (R158, R166): the lane locks at the first offset whose run is long enough. -/
def syndromeLockEffect (n : Lane) (s : State) : State :=
  match s.searching n && s.light n, s.lockOffset n with
  | true, some o =>
    let r := (s.lane n).runs.get Run.empty o
    s.lockAt n o (!r.streamB) (r.group.map (fun g => (84 - g.1, !g.2)))
  | _, _ => s

def execSyndromeLock (lane : Lane) (s : State) : Host.Outcome State Fault Refusal := .next (syndromeLockEffect lane s)

/-! ### Delivered codewords (R153, R155, R160 to R168, R173) -/

/-- The tile that acts as tile `k` of lane `n` (R14, R140). -/
def State.roleTile (s : State) (n k : Nat) : Nat :=
  let subs := [clusterTile n 11, poolTile (n / 2) 0, poolTile (n / 2) 1]
  (subs.find? (fun t => decide (s.actsAs t = some k) && decide (s.serves t = some n) && decide (t ≠ clusterTile n k))).getD
    (clusterTile n k)

/-- The stream of the next codeword to be delivered (R158, R160). -/
def LaneSt.nextB (l : LaneSt) : Bool := xor l.lockB (l.cwNum % 2 == 1)

/-- The receive status word (R155). -/
def rxStatus (d : Decoded) (poison valid : Bool) : Nat :=
  d.cover + 4 * natOf d.unc + 8 * natOf poison + 16 * natOf (decide (0 < d.flips)) + 32 * natOf valid +
    64 * natOf d.rxPoison + 128 * d.flips

/-- The 40 bytes of a decoded word in a capture (03_line_receive.md R133): 256 bits in codeword order, the first bit least
significant, then the status. -/
def decodedBytes (msg st : Nat) : List Nat :=
  leBytes 32 ((List.range 256).foldl (fun a i => a + (if Nat.testBit msg (255 - i) then 2 ^ i else 0)) 0) ++ leBytes 8 st

/-- Group lock at one delivered codeword in mode R (R166 to R168): `atStart` tells a group-start position of the cadence;
`b` is the codeword's stream, `sy` its syndrome. -/
def State.groupStep (s : State) (n : Nat) (b : Bool) (sy : Nat) (d : Decoded) (poison : Bool) : State :=
  let grp := !poison && decide (sy = coverOf (if b then 3 else 2))
  if s.groupLock n then
    match (s.lane n).cadence with
    | none => s
    | some (k, x) =>
      let s := s.onLane n (fun l => { l with cadence := some (if k = 0 then (84, !b) else (k - 1, x)) })
      let ord := decide (sy = coverOf (if b then 1 else 0))
      let misses := s.get (LINE.SYNC_WIN_GROUP_MISS.f n)
      if k = 0 then
        if poison || d.unc then s
        else if ord then s.put (LINE.SYNC_WIN_GROUP_MISS.f n) (min 3 (misses + 1))
        else if misses < 3 then s.put (LINE.SYNC_WIN_GROUP_MISS.f n) 0 else s
      else if grp then s.put (LINE.SYNC_WIN_GROUP_MISS.f n) (min 3 (misses + 1))
      else s
  else if grp then s.groupAcq n 84 (!b)
  else s.onLane n (fun l => { l with noGroup := l.noGroup + 1 })

/-- Counts of a delivered codeword: window sums (R127), the decoding tile's counters (R173), performance counters. -/
def State.countCodeword (s : State) (n k : Nat) (d : Decoded) (poison : Bool) : State :=
  let s := s.onLane n (fun l => { l with meas := { l.meas with
      cw := l.meas.cw + 1
      flip := l.meas.flip + (if poison || d.unc then 0 else d.flips)
      unc := l.meas.unc + natOf (d.unc && !poison) } })
  let t := s.roleTile n (if k % 2 = 0 then 8 else 9)
  let s := s.addTo (TILE.DEC_CW_CW.f t) 1
  let s := s.addTo (TILE.DEC_UNC_UNC.f t) (natOf d.unc)
  let s := s.addTo (TILE.DEC_CORR_CORR.f t) (natOf (decide (0 < d.flips)))
  let s := ((s.countLane n 0x02 1).countLane n 0x03 (natOf d.unc)).countLane n 0x04 (natOf (decide (0 < d.flips)))
  (s.countLane n 0x05 d.flips).countLane n 0x06 (natOf d.rxPoison)

/-- A codeword of a lane in syndrome lock decoded and delivered (log 31).  FORMAT becomes 1 at a codeword decoded under any cover
without an exact group-cover match (DESIGN CHOICE, log 95). -/
def State.deliver (s : State) (n w : Nat) (rel : List Nat) (poisoned : Bool) : State :=
  let l := s.lane n
  let b := l.nextB
  let poison := poisoned
  let atStart := s.modeR n && s.groupLock n && decide ((l.cadence.map (·.1)) = some 0)
  let exp := (if b then 1 else 0) + (if atStart then 2 else 0)
  let d := decodeExpect (s.getB (LINE.DEC_CTL_CHASE_EN.f n)) exp w rel
  let sy := syndromeOf w
  let grp := decide (sy = coverOf (if b then 3 else 2))
  let s := if s.modeR n then s.groupStep n b sy d poison
    else s.onlyIf (grp && !poison) (fun s => s.raiseLane n 7)
  let f := s.get (LINE.SYNC_STAT_FORMAT.f n)
  let s := s.put (LINE.SYNC_STAT_FORMAT.f n) (if grp && !poison then 2 else if f = 0 ∧ d.unc = false then 1 else f)
  let s := s.onlyIf d.rxPoison (fun s => s.raiseLane n 8)
  let s := s.onlyIf poison (fun s => s.poisonUse 3 0)
  let valid := s.modeR n && s.groupLock n && decide (s.get (LINE.SYNC_WIN_GROUP_MISS.f n) < 3)
  let st := rxStatus d poison valid
  let msg := d.out / 2 ^ 16
  let win := (decide (d.unc = true ∧ d.rxPoison = false) && !poison) :: l.window.take 31
  let s := s.put (LINE.SYNC_WIN_LOSS_COUNT.f n) (win.filter id).length
  let s := s.onLane n (fun l => { l with window := win, cwNum := l.cwNum + 1, delivered := some (msg, st) })
  let s := (s.countCodeword n l.cwNum d poison).capWord n 3 0 poison (decodedBytes msg st)
  let s := s.onlyIf (s.modeR n && !valid) (fun s => s.gapStart n b .lockLoss)
  (s.pushQ ⟨.decLink, n⟩ ⟨.decoded (BitVec.ofNat 256 msg) (BitVec.ofNat 16 st), false⟩).rxForward n

/-- The decoders deliver: syndrome lock is held, and no loss of it is due (R161). -/
def State.delivers (s : State) (n : Nat) : Bool := s.syncLock n && decide (s.get (LINE.SYNC_WIN_LOSS_COUNT.f n) < 8)

/-- A codeword delivered without decoding, forced uncorrectable by the POISON status (R48, R51, 14_selftest_faults.md
R410): numbering, cadence and window continue; its bits are a free value (log 70).  Its status shows UNC, and the ordinary cover of
its stream (DESIGN CHOICE, log 95).  In the search it sets every run to 0 (R157). -/
def State.deliverForced (s : State) (n : Nat) : State :=
  if s.delivers n = true ∧ s.canPush ⟨.decLink, n⟩ = true then
    let l := s.lane n
    let b := l.nextB
    let c := if b then 1 else 0
    let m := s.free 256
    let s := s.freed
    let d : Decoded := { out := m * 2 ^ 16, unc := true, rxPoison := false, flips := 0, cover := c }
    let s := s.onlyIf (s.modeR n) (fun s => s.groupStep n b 0 d true)
    let st := rxStatus d true (s.modeR n && s.groupLock n)
    let win := false :: l.window.take 31
    let s := s.put (LINE.SYNC_WIN_LOSS_COUNT.f n) (win.filter id).length
    let s := s.onLane n (fun l => { l with window := win, cwNum := l.cwNum + 1, delivered := some (m, st)
                                           meas := { l.meas with cw := l.meas.cw + 1 } })
    let s := (s.countLane n 0x02 1).capWord n 3 0 true (decodedBytes m st)
    (s.pushQ ⟨.decLink, n⟩ ⟨.decoded (BitVec.ofNat 256 m) (BitVec.ofNat 16 st), false⟩).rxForward n
  else if s.syncLock n then s
  else s.clearRuns n

/-- The head of the MLSE to DEC queue as a word of decisions. -/
def State.softHead (s : State) (n : Nat) : Option SoftWord :=
  match (s.queue ⟨.mlseDec, n⟩).entries with
  | e :: _ =>
    match e.data with
    | .soft w rel => some { bits := w.toNat, rel := rel, poison := e.poison || decide (0 < (s.lane n).forced) }
    | _ => none
  | [] => none

/-- The decoders take word `w`, the head of their queue (R95, R152, R157, R160): in syndrome lock the codeword at the held offset
that ends in it is decoded and delivered, in the search it ends a candidate at every offset, and otherwise it is discarded. -/
def State.takeSoft (s : State) (n : Nat) (w : SoftWord) : State :=
  let prev := (s.lane n).rxp.prev
  let s := s.popQ ⟨.mlseDec, n⟩
  let s :=
    if s.delivers n then
      match SoftWord.cut (s.get (LINE.SYNC_STAT_OFFSET.f n)) prev w with
      | some x => s.deliver n x.bits x.rel x.poison
      | none => s
    else if s.searching n then s.searchWord n w
    else s
  s.onLane n (fun l => { l with forced := l.forced - 1, rxp := { l.rxp with prev := some w } })

/-- CODEWORD_DECODE (R152): the syndrome-lock unit and the decoders take one word.  They stall while their queue is empty, while the
queue after them holds no credit for a codeword to be delivered, and during a swap (R95, 14_selftest_faults.md R410); after the
codeword that completes the count of R161 none is delivered (log 31). -/
def codewordDecodeEffect (n : Lane) (s : State) : State :=
  if s.laneRuns n && !s.reloading (n.val / 2) && !(s.lane n).faulted then
    match s.softHead n with
    | some w =>
      if s.delivers n = true ∧ s.canPush ⟨.decLink, n⟩ = false then s.countLane n 0x12 1 else s.takeSoft n w
    | none => s
  else s

def execCodewordDecode (lane : Lane) (s : State) : Host.Outcome State Fault Refusal :=
  .next (codewordDecodeEffect lane s)

/-- Loss of syndrome lock in TRACK (R122, R161): LOCK_LOST, group lock cleared, SEARCH (log 80). -/
def State.loseLock (s : State) (n : Nat) : State :=
  if s.rx n = .track then (((s.raiseLane n 2).countLane n 0x0A 1).lockGone n).enterSearch n else s.clearRuns n

/-- LOCK_LOST: 8 of the last 32 delivered codewords have a non-zero syndrome. -/
def lockLostEffect (n : Lane) (s : State) : State :=
  if s.syncLock n = true ∧ 8 ≤ s.get (LINE.SYNC_WIN_LOSS_COUNT.f n) then s.loseLock n else s

def execLockLost (lane : Lane) (s : State) : Host.Outcome State Fault Refusal := .next (lockLostEffect lane s)

/-- GROUP_LOSS (R167): three misses; not when syndrome lock is lost at the same codeword (R171).  GROUP_MISS keeps 3 until group
lock is declared again, and LOSS_COUNT its value until the next lock (DESIGN CHOICE, log 95). -/
def groupLossEffect (n : Lane) (s : State) : State :=
  if s.groupLock n = true ∧ 3 ≤ s.get (LINE.SYNC_WIN_GROUP_MISS.f n) ∧ s.get (LINE.SYNC_WIN_LOSS_COUNT.f n) < 8 then
    let s := (s.put (LINE.SYNC_STAT_GROUP_LOCK.f n) 0).onLane n (fun l => { l with cadence := none, noGroup := 0 })
    (s.raiseLane n 6).each (s.sides n) (fun s b => s.gapStart n b .lockLoss)
  else s

def execGroupLoss (lane : Lane) (s : State) : Host.Outcome State Fault Refusal := .next (groupLossEffect lane s)

/-- FORMAT_MISMATCH (R168): 340 delivered codewords in mode R without group lock and without a match. -/
def formatMismatchEffect (n : Lane) (s : State) : State :=
  if s.modeR n && s.syncLock n && !s.groupLock n && decide (340 ≤ (s.lane n).noGroup) then
    (s.onLane n (fun l => { l with noGroup := l.noGroup - 340 })).raiseLane n 7
  else s

def execFormatMismatch (lane : Lane) (s : State) : Host.Outcome State Fault Refusal := .next (formatMismatchEffect lane s)

end Sys2Proof.Machine
end

