-- ==== Sys2Proof/Machine/LineTx.lean ====
section
/-!
DEFINITION. Line transmit: codewords, precoder, level table, transmit FFE, clipping, squelch, test patterns and tap
commits (05_line_transmit.md R174 to R192).
-/

namespace Sys2Proof.Machine

open Sys2Proof

/-! ### Squelch reasons (R182) -/

/-- A squelch reason of lane `n`, by its bit, set or cleared. -/
def State.setReason (s : State) (n bit : Nat) (on : Bool) : State :=
  s.put (LINE.TX_STATE_SQ_REASON.f n) (putBit (s.get (LINE.TX_STATE_SQ_REASON.f n)) bit on)

/-- The squelch reasons of lane `n`. -/
def State.reasons (s : State) (n : Nat) : Nat := s.get (LINE.TX_STATE_SQ_REASON.f n)

/-- T10 of lane `n` forms codewords: no DISABLED, no POWER, power and clocks (R183).  The tile load of a partial reload takes no
time in the model, and T10 forms codewords through the rest of its outage (log 89). -/
def State.txRuns (s : State) (n : Nat) : Bool :=
  s.laneRuns n && !bitAt (s.reasons n) 0 && !bitAt (s.reasons n) 4 && !s.tileFailed (clusterTile n 10)

/-- A write of TX_CTL.SQUELCH: the HOST reason (R182). -/
def squelchEffect (n : Lane) (on : Bool) (s : State) : State :=
  if s.laneServed n then (s.putB (LINE.TX_CTL_SQUELCH.f n) on).setReason n 1 on else s

def execSquelch (lane : Lane) (on : Bool) (s : State) : Host.Outcome State Fault Refusal := .next (squelchEffect lane on s)

/-- The active transmit taps take the shadow taps (R188). -/
def State.commitTaps (s : State) (n : Nat) : State :=
  let t := clusterTile n 10
  let s := s.each (List.range 7) (fun s i => s.put (TILE.TXTAP_COEF.f t i) (s.get (TILE.TXSHADOW_COEF.f t i)))
  s.onLane n (fun l => { l with tx := { l.tx with commitPending := false } })

/-- The seven active transmit taps loaded (R189); a pending commit is dropped (R190). -/
def State.loadTx (s : State) (n : Nat) (t : Trained) : State :=
  let s := s.onlyIf (s.lane n).tx.commitPending (fun s => s.raiseLane n 12)
  let s := s.onLane n (fun l => { l with tx := { l.tx with commitPending := false } })
  s.each t.txTaps.zipIdx (fun s p => s.putZ (TILE.TXTAP_COEF.f (clusterTile n 10) p.2) p.1)

/-- The beacon's part of an applied transmit state on the lowest lane (08_beacon.md R270, R274): the transmit channel, and its
calibration word where that is valid. -/
def State.loadTxBcn (s : State) (n : Nat) (t : Trained) : State :=
  (s.onlyIf (bitAt t.calWord 31) (fun s => s.put (SYN.SYN_CAL_CAL.f (n / 2) t.bcnCh) t.calWord)).txChannel n t.bcnCh

/-- What waits for a transmit codeword boundary takes effect (R188 to R190): an applied transmit state, or else a commit. -/
def State.txBoundary (s : State) (n : Nat) : State :=
  match (s.lane n).tx.txLoad with
  | some (t, first) =>
    let s := s.onLane n (fun l => { l with tx := { l.tx with txLoad := none } })
    (s.loadTx n t).onlyIf first (fun s => s.loadTxBcn n t)
  | none => s.onlyIf (s.lane n).tx.commitPending (fun s => s.commitTaps n)

/-- The next transmit codeword is of stream b: the cover of the queue's head, or for a fill codeword the stream opposite
to the last one (R175). -/
def State.nextTxB (s : State) (n : Nat) : Bool :=
  match (s.queue ⟨.linkTxp, n⟩).entries with
  | e :: _ =>
    match e.data with
    | .toSend _ st => st.toNat % 2 == 1
    | _ => !(s.lane n).tx.lastB
  | [] => !(s.lane n).tx.lastB

/-- Release (R183): every reason clear, at a stream-a boundary; the precoder starts from 0 and no earlier symbol
contributes to the FFE.  A pattern change of the interval takes effect with it (R190). -/
def squelchReleaseEffect (n : Lane) (s : State) : State :=
  if s.reasons n = 0 ∧ s.squelched n = true ∧ s.txRuns n = true ∧ s.nextTxB n = false then
    (s.put (LINE.TX_STATE_SQUELCHED.f n) 0).onLane n (fun l =>
      { l with tx := { l.tx with
          v := 0, lvls := List.replicate 6 0, sent := 0
          patternNow := l.tx.patternNext.getD l.tx.patternNow
          patternPos := if l.tx.patternNext.isSome then 0 else l.tx.patternPos
          patternNext := none } })
  else s

def execSquelchRelease (lane : Lane) (s : State) : Host.Outcome State Fault Refusal :=
  .next (squelchReleaseEffect lane s)

/-- A write of PATTERN (R187): 5 to 7 are stored as 0; a change takes effect at a codeword boundary. -/
def patternEffect (n : Lane) (value : BitVec 3) (s : State) : State :=
  if s.laneServed n then
    let v := if value.toNat ≤ 4 then value.toNat else 0
    if s.get (LINE.TX_CTL_PATTERN.f n) = v then s
    else (s.put (LINE.TX_CTL_PATTERN.f n) v).onLane n (fun l => { l with tx := { l.tx with patternNext := some v } })
  else s

def execPattern (lane : Lane) (value : BitVec 3) (s : State) : Host.Outcome State Fault Refusal :=
  .next (patternEffect lane value s)

/-- COMMIT (R188, R190): dropped from the transfer of a context apply until its transmit state takes effect, at once while squelched,
else at the next codeword boundary. -/
def commitEffect (n : Lane) (s : State) : State :=
  if s.laneRuns n && !s.tileFailed (clusterTile n 10) then
    if (s.lane n).loading || (s.lane n).tx.txLoad.isSome then s.raiseLane n 12
    else if s.squelched n then s.commitTaps n
    else s.onLane n (fun l => { l with tx := { l.tx with commitPending := true } })
  else s

def execCommit (lane : Lane) (s : State) : Host.Outcome State Fault Refusal := .next (commitEffect lane s)

/-! ### One codeword -/

/-- The Gray index of two bits, the first one more significant (04_inner_code.md R148). -/
def grayIndex (b : Nat) : Nat :=
  match b % 4 with
  | 0 => 0 | 1 => 1 | 3 => 2 | _ => 3

/-- The 136 Gray indices of a codeword, symbol 0 first. -/
def codewordIndices (w : Nat) : List Nat := (List.range 136).map (fun t => grayIndex (w >>> (270 - 2 * t)))

/-- The precoder over consecutive indices (04_inner_code.md R149): the indices sent and the last state. -/
def precodeFrom (v : Nat) (us : List Nat) : List Nat × Nat :=
  match us with
  | [] => ([], v)
  | u :: r =>
    let x := (u + 4 - v) % 4
    let q := precodeFrom x r
    (x :: q.1, q.2)

/-- The bit of a generator of `w` stages whose taps are the stages of `taps`: the sum modulo 2 of those stages, stage 1 being bit
0 of its state. -/
def prbsBit (taps : List Nat) (x : Nat) : Bool := taps.foldl (fun a k => xor a (Nat.testBit x (k - 1))) false

/-- A generator after `n` bits: its state, and the `n` bits as a number, the first one in its top bit. -/
def prbsRun (w : Nat) (taps : List Nat) (n x acc : Nat) : Nat × Nat :=
  match n with
  | 0 => (x, acc)
  | k + 1 =>
    let b := natOf (prbsBit taps x)
    prbsRun w taps k ((2 * x + b) % 2 ^ w) (2 * acc + b)

/-- The Gray index of symbol `pos` of PRBS13Q (`w` 13) or PRBS31Q (`w` 31): two bits of the generator, whose start state is not
given (R187; log 22). -/
def prbsIndex (w : Nat) (taps : List Nat) (inverted : Bool) (pos : Nat) : Nat :=
  let start := Config.prbsSeed w % (2 ^ w - 1) + 1
  let x := (prbsRun w taps (2 * (pos % (2 ^ w - 1))) start 0).1
  let b := (prbsRun w taps 2 x 0).2
  grayIndex (if inverted then 3 - b else b)

/-- The index of symbol `pos` of test pattern `p` (R187): PRBS13Q by 1 + x + x^2 + x^12 + x^13, PRBS31Q by 1 + x^28 + x^31 with its
bits inverted (PRESUMED, log 22), SSPRQ, or the square wave. -/
def patternIndex (p pos : Nat) : Nat :=
  match p with
  | 1 => prbsIndex 13 [1, 2, 12, 13] false pos
  | 2 => prbsIndex 31 [28, 31] true pos
  | 3 => Config.ssprq pos % 4
  | _ => if pos % 32 < 16 then 3 else 0

/-- The unrounded DAC sum in units of 1/65536 code (R177, R178): taps in 1/256, levels in codes, and the beacon sample
`b`, in units of 1/4096 of its peak, scaled by BCN_AMP/16. -/
def dacSum (taps lvls : List Int) (amp : Nat) (b : Int) : Int := 256 * dot taps lvls + amp * b

/-- The DAC code of a sum (R178). -/
def dacCode (x : Int) : Int := satSigned 8 (roundDiv x 65536)

/-- The sum lies outside -128.5 to +127.5 (R178). -/
def dacClips (x : Int) : Bool := decide (2 * x < -257 * 65536) || decide (255 * 65536 < 2 * x)

/-- What the FFE of a lane needs: taps, level table and beacon amplitude. -/
structure TxCfg where
  taps : List Int
  lvl : List Int
  amp : Nat
  deriving DecidableEq, Repr

/-- Symbols through the level table and the FFE: the last six levels (newest first), and per symbol the sum of the symbol
two before it, which has all its postcursors and precursors then. -/
def ffeOut (c : TxCfg) (hist : List Int) (idx : List Nat) (beacon : List Int) : List Int × List Int :=
  match idx with
  | [] => (hist, [])
  | a :: r =>
    let h := c.lvl.getD a 0 :: hist
    let x := dacSum c.taps h c.amp (clampInt (-4096) 4096 (beacon.headD 0))
    let q := ffeOut c (h.take 6) r (beacon.drop 1)
    (q.1, x :: q.2)

/-- The full-scale swing in mVppd (R180). -/
def fullScale (ampl : Nat) : Nat := 600 + 20 * ampl

/-- The differential output that a DAC code drives at a full-scale swing, in units of 1/510 mV: (D + 0.5) FS/255 (R180). -/
def dacOut (fs : Nat) (d : Int) : Int := (2 * d + 1) * (fs : Int)

/-- The beacon samples of `k` DAC symbols of lane `n`, which sends a frame as the lowest lane of a group, or zeros (R179). -/
def State.takeBeacon (s : State) (n k : Nat) : List Int × State :=
  let b := s.bcnL n
  match b.frame with
  | some f =>
    let r := beaconSamples k f b.phase
    (r.1, s.setBcn n { b with frame := some r.2.1, phase := r.2.2 })
  | none => (List.replicate k 0, s)

/-- The transmit configuration of lane `n`; the beacon is added on the lowest lane of a group while it sends (R179). -/
def State.txCfg (s : State) (n : Nat) : TxCfg :=
  let t := clusterTile n 10
  { taps := (List.range 7).map (fun i => s.getZ (TILE.TXTAP_COEF.f t i))
    lvl := [s.getZ (LINE.TX_LVL_P0.f n), s.getZ (LINE.TX_LVL_P1.f n), s.getZ (LINE.TX_LVL_P2.f n), s.getZ (LINE.TX_LVL_P3.f n)]
    amp := s.get (LINE.BCN_INJ_BCN_AMP.f n) }

/-- The 272-bit codeword of a message, cover and poison (R174). -/
def encodeWord (msg cover : Nat) (poison : Bool) : Nat :=
  (msg % 2 ^ 256) * 2 ^ 16 + (parityOf (msg % 2 ^ 256) ^^^ coverOf cover ^^^ (if poison then 0xFFFF else 0))

/-- A pending pattern takes effect at this boundary (R187): a return to data only where a stream-a codeword begins. -/
def TxHalf.boundary (t : TxHalf) (streamB : Bool) : TxHalf :=
  match t.patternNext with
  | none => t
  | some p =>
    if p = 0 then
      if streamB then t else { t with patternNow := 0, patternNext := none, v := if t.patternNow = 0 then t.v else 0 }
    else { t with patternNow := p, patternPos := 0, patternNext := none }

/-- DAC sums sent: codes, clip counts and the differential output, at the full-scale swings given with them (R178, R180). -/
def State.sendSums (s : State) (n : Nat) (sums : List (Int × Nat)) : State :=
  let clips := (sums.filter (fun p => dacClips p.1)).length
  let s := s.onLane n (fun l => { l with tx := { l.tx with
    dac := sums.map (fun p => dacCode p.1), out := sums.map (fun p => dacOut p.2 (dacCode p.1)) } })
  let s := (s.addSat (LINE.TX_CLIP_CLIP_CNT.f n) clips).countLane n 0x0E clips
  s.each (List.range clips) (fun s _ => s.raiseLane n 10)

/-- The symbols of one codeword slot sent: data or pattern, FFE, clip counts, DAC codes.  The last two symbols of the codeword before
get their codes with this one's first levels as precursors, and under the taps, amplitude and swing of their own codeword
(R188). -/
def State.sendSymbols (s : State) (n w : Nat) : State :=
  let t := (s.lane n).tx
  let us := codewordIndices w
  let pre := if s.getB (LINE.DEC_CTL_PRECODE.f n) then precodeFrom t.v us else (us, t.v)
  let idx := if t.patternNow = 0 then pre.1 else (List.range 136).map (fun i => patternIndex t.patternNow (t.patternPos + i))
  let c := s.txCfg n
  let fs := fullScale (s.get (LINE.TX_CTL_AMPL.f n))
  let skip := 2 - t.sent
  let bc := s.takeBeacon n (136 - skip)
  let beacon := List.replicate skip 0 ++ bc.1
  let o1 := ffeOut { c with taps := t.nowTaps, amp := t.nowAmp } t.lvls (idx.take 2) beacon
  let o2 := ffeOut c o1.1 (idx.drop 2) (beacon.drop 2)
  let s := bc.2.onLane n (fun l => { l with tx := { l.tx with
    v := if t.patternNow = 0 then pre.2 else t.v
    lvls := o2.1
    sent := 2
    patternPos := t.patternPos + 136
    nowTaps := c.taps
    nowAmp := c.amp
    nowFs := fs } })
  s.sendSums n ((o1.2.map (fun x => (x, t.nowFs))).drop skip ++ o2.2.map (fun x => (x, fs)))

/-- The last two symbols of the codeword under way sent at a boundary after which the output is at differential zero, so that no
later level contributes to them (R183). -/
def State.sendTail (s : State) (n : Nat) : State :=
  let t := (s.lane n).tx
  if t.sent = 2 then
    let bc := s.takeBeacon n 2
    let c : TxCfg := { taps := t.nowTaps, lvl := [0], amp := t.nowAmp }
    let o := ffeOut c t.lvls [0, 0] bc.1
    let s := bc.2.sendSums n (o.2.map (fun x => (x, t.nowFs)))
    s.onLane n (fun l => { l with tx := { l.tx with sent := 0, lvls := List.replicate 6 0, out := l.tx.out ++ [0] } })
  else s

/-- Squelch entry at a codeword boundary with a reason set (R183): the codeword under way is sent whole, then the output is at
differential zero, and the beacon frame ends (R286).  What waits for the boundary takes effect there (log 60). -/
def squelchEntryEffect (n : Lane) (s : State) : State :=
  if s.reasons n ≠ 0 ∧ s.squelched n = false then
    (((s.sendTail n).put (LINE.TX_STATE_SQUELCHED.f n) 1).truncFrame n).txBoundary n
  else s

def execSquelchEntry (lane : Lane) (s : State) : Host.Outcome State Fault Refusal := .next (squelchEntryEffect lane s)

/-- T10 forms one codeword (R174, R175): the queue's head, or a fill codeword (log 58). -/
def State.formCodeword (s : State) (n : Nat) : State :=
  let streamB := s.nextTxB n
  let s := (s.txBoundary n).onLane n (fun l => { l with tx := l.tx.boundary streamB })
  let q := s.queue ⟨.linkTxp, n⟩
  let head := match q.entries with
    | e :: _ =>
      match e.data with
      | .toSend m st => some (m.toNat, st.toNat, e.poison)
      | _ => none
    | [] => none
  let s := if q.entries.isEmpty then s else s.setQueue ⟨.linkTxp, n⟩ q.pop
  let ordinary := if (s.lane n).tx.lastB then 0 else 1
  let f := head.getD (0, 8 + ordinary, false)
  let cover := f.2.1 % 4
  let poison := bitAt f.2.1 3 || f.2.2
  let w := encodeWord f.1 cover poison
  let s := s.onlyIf head.isNone (fun s => (s.raiseLane n 9).countLane n 0x0D 1)
  let s := s.onlyIf f.2.2 (fun s => s.poisonUse 4 0)
  let t10 := clusterTile n 10
  let s := ((s.addTo (TILE.TX_CW_CW.f t10) 1).addTo (TILE.TX_POISON_POISON.f t10) (natOf poison)).countLane n 0x0C 1
  let s := s.onLane n (fun l => { l with tx := { l.tx with lastB := cover % 2 == 1, codeword := w } })
  if s.squelched n then s else s.sendSymbols n w

/-- CODEWORD_ENCODE: a codeword boundary of lane `n`. -/
def codewordEncodeEffect (n : Lane) (s : State) : State :=
  if s.txRuns n then s.formCodeword n else s

def execCodewordEncode (lane : Lane) (s : State) : Host.Outcome State Fault Refusal := .next (codewordEncodeEffect lane s)

end Sys2Proof.Machine
end

