-- ==== Sys2Proof/Machine/Trained.lean ====
section
/-!
DEFINITION. The trained state of a lane: taking it from the lane, laying it out as a lane record, checking a record, and
loading it into a lane (03_line_receive.md R123; 05_line_transmit.md R189; 07_peer_contexts.md R229 to R231, R238, R243;
02_bitstream.md R87).
-/

namespace Sys2Proof.Machine

open Sys2Proof

/-! ### Descriptors (07_peer_contexts.md R224) -/

/-- The number of lanes of a descriptor. -/
def descSize (d : Nat) : Nat := 2 ^ bitField d 3 2

/-- The lowest lane of a descriptor. -/
def descStart (d : Nat) : Nat := d % 8

/-- A descriptor is valid. -/
def descOk (d : Nat) : Bool := decide (d < 32) && decide (descStart d % descSize d = 0)

/-- The lanes of a descriptor. -/
def descLanes (d : Nat) : List Nat := (List.range (descSize d)).map (descStart d + ·)

/-- A descriptor is a current group (R225). -/
def State.isGroup (s : State) (d : Nat) : Bool :=
  descOk d && decide (s.groupOf (descStart d) = descStart d) && decide (s.groupSize (descStart d) = descSize d)

/-! ### Taking it -/

/-- The correction word of sub-ADC `k`, as its register shows it. -/
def State.corrWord (s : State) (n k : Nat) : Nat :=
  s.get (LINE.CORR_OFFSET.f n k) + 2 ^ 8 * s.get (LINE.CORR_GAIN.f n k) + 2 ^ 18 * s.get (LINE.CORR_SKEW.f n k)

/-- The trained receive and transmit state of lane `n` (R123, R189), its taps beyond the chain 0. -/
def State.trainedOf (s : State) (n : Nat) : Trained :=
  let l := s.lane n
  let taps := s.chainTaps n
  let ch := s.get (BCN.TX_CH_CH.f n)
  { taps := taps ++ List.replicate (72 - taps.length) 0
    levels := l.eq.levels.map accVal
    a1 := (accVal l.eq.a1).toNat, a2 := (accVal l.eq.a2).toNat, b := accVal l.eq.b
    freqI := l.freqI, phase := l.phase
    corr := (List.range 64).map (fun k => s.corrWord n k)
    gain := s.get (LINE.AGC_GAIN_CODE.f n)
    txTaps := (List.range 7).map (fun i => s.getZ (TILE.TXTAP_COEF.f (clusterTile n 10) i))
    bcnCh := ch, calWord := s.get (SYN.SYN_CAL_CAL.f (n / 2) ch) }

/-! ### Loading it -/

/-- Taps by index (R87, R238): new tap i takes old tap i - new cursor + old cursor where that tap exists, else 0. -/
def mapTaps (old : List Int) (oldCount oldCursor newCursor : Nat) : List Int :=
  (List.range 72).map (fun i =>
    if newCursor ≤ i + oldCursor ∧ i + oldCursor - newCursor < 12 * oldCount then old.getD (i + oldCursor - newCursor) 0 else 0)

/-- The trained receive state loaded into lane `n` (R123): fractions cleared, extensions' coefficients 0. -/
def State.loadRx (s : State) (n : Nat) (t : Trained) (count cursor : Nat) : State :=
  let taps := mapTaps t.taps count cursor (s.cursor n)
  let s := s.onLane n (fun l => { l with
    eq := { taps := taps.map (4096 * ·), levels := t.levels.map (4096 * ·), a1 := 4096 * (t.a1 : Int)
            a2 := 4096 * (t.a2 : Int), b := 4096 * t.b }
    freqI := t.freqI, phase := t.phase })
  let s := s.each t.corr.zipIdx (fun s p =>
    ((s.put (LINE.CORR_OFFSET.f n p.2) p.1).put (LINE.CORR_GAIN.f n p.2) (p.1 / 2 ^ 8)).put (LINE.CORR_SKEW.f n p.2)
      (p.1 / 2 ^ 18))
  (s.put (LINE.AGC_GAIN_CODE.f n) t.gain).zeroExts n

/-! ### Lane records (R229 to R231) -/

/-- Two-byte items of `w` bits each. -/
def items16 (w : Nat) (zs : List Int) : List Nat := zs.flatMap (fun z => leBytes 2 (wordOf w z))

/-- RX_BCN of a lane (R229): receive channel and modulation. -/
def State.rxBcn (s : State) (n : Nat) : Nat := s.get (BCN.RX_CH_CH.f n) + 16 * s.get (BCN.RX_CH_MOD.f n)

/-- A record with its CRC put in (R229). -/
def sealRecord (body : List Nat) : List Nat :=
  let b := (body ++ List.replicate 2048 0).take 2048
  b.take 0x3C ++ leBytes 4 (crc32c (b.take 0x3C ++ b.drop 0x40)) ++ b.drop 0x40

/-- The header bytes 0x00 to 0x3F of a record, its CRC 0. -/
def recordHeader (peer desc idx count cursor : Nat) : List Nat :=
  leBytes 4 peer ++ [desc, idx, 1, count, cursor] ++ List.replicate 55 0

/-- The lane record of a trained state; `bcn` gives the beacon's three fields in record 0 (R230). -/
def recordOf (peer desc idx count cursor rxBcn : Nat) (t : Trained) : List Nat :=
  let first := idx == 0
  sealRecord (recordHeader peer desc idx count cursor ++
    items16 12 t.taps ++ [t.a1 % 256, t.a2 % 256, wordOf 8 t.b, t.gain % 64] ++ leBytes 4 (wordOf 32 t.freqI) ++
    leBytes 4 (t.phase % 2 ^ 32) ++ [if first then rxBcn else 0, 0, 0, 0] ++ items16 10 t.levels ++
    t.corr.flatMap (leBytes 4) ++ List.replicate 928 0 ++ items16 10 t.txTaps ++ [0, 0] ++
    [if first then t.bcnCh else 0, 0, 0, 0] ++ leBytes 4 (if first then t.calWord else 0))

/-- The record of a disabled lane (R243): zero apart from header and CRC. -/
def emptyRecord (peer desc idx count cursor : Nat) : List Nat := sealRecord (recordHeader peer desc idx count cursor)

/-- Bytes `lo` to `hi` of `b`. -/
def span (b : List Nat) (lo hi : Nat) : List Nat := (b.drop lo).take (hi + 1 - lo)

def allZero (b : List Nat) : Bool := b.all (fun x => decide (x % 256 = 0))

/-- Every second byte from the second on is below `m`: the unused bits of two-byte items. -/
def highBelow (m : Nat) (b : List Nat) : Bool :=
  match b with
  | _ :: h :: r => decide (h < m) && highBelow m r
  | _ => true

/-- The reserved bytes and unused bits of a record are zero (R230, R231). -/
def reservedOk (b : List Nat) (idx : Nat) : Bool :=
  let count := b.getD 7 0
  allZero (span b 0x009 0x03B) && allZero (span b 0x0DD 0x0DF) && allZero (span b 0x260 0x5FF) &&
    allZero (span b 0x60E 0x60F) && allZero (span b 0x611 0x613) && allZero (span b 0x618 0x7FF) &&
    highBelow 16 (span b 0x040 0x0CF) && allZero (span b (0x040 + 24 * count) 0x0CF) && decide (b.getD 0xD3 0 < 64) &&
    decide (b.getD 0xDC 0 < 32) && highBelow 4 (span b 0x0E0 0x15F) &&
    (List.range 64).all (fun k => decide (b.getD (0x163 + 4 * k) 0 < 16)) && highBelow 4 (span b 0x600 0x60D) &&
    decide (b.getD 0x610 0 < 16) && decide (bitField (leNat (span b 0x614 0x617)) 28 3 = 0) &&
    (idx == 0 || (b.getD 0xDC 0 == 0 && b.getD 0x610 0 == 0 && allZero (span b 0x614 0x617)))

/-- A lane record is well formed under its key at its position (R231). -/
def recordOk (b : List Nat) (peer desc idx : Nat) : Bool :=
  decide (b.length = 2048) && b.getD 6 0 == 1 && leNat (span b 0 3) == peer && b.getD 4 0 == desc && b.getD 5 0 == idx &&
    decide (1 ≤ b.getD 7 0) && decide (b.getD 7 0 ≤ 6) && decide (b.getD 8 0 < 12 * b.getD 7 0) && reservedOk b idx &&
    leNat (span b 0x3C 0x3F) == crc32c (b.take 0x3C ++ b.drop 0x40)

/-- Two-byte items of `w` bits as signed values. -/
def signed16 (w : Nat) (b : List Nat) : List Int :=
  match b with
  | l :: h :: r => signedOf w (l + 256 * h) :: signed16 w r
  | _ => []

/-- Four-byte words. -/
def words32 (b : List Nat) : List Nat :=
  match b with
  | p :: q :: r :: t :: rest => leNat [p, q, r, t] :: words32 rest
  | _ => []

/-- The trained state that a record holds. -/
def trainedFrom (b : List Nat) : Trained :=
  { taps := signed16 12 (span b 0x040 0x0CF), levels := signed16 10 (span b 0x0E0 0x15F), a1 := b.getD 0xD0 0
    a2 := b.getD 0xD1 0, b := signedOf 8 (b.getD 0xD2 0), freqI := signedOf 32 (leNat (span b 0xD4 0xD7))
    phase := leNat (span b 0xD8 0xDB), corr := words32 (span b 0x160 0x25F), gain := b.getD 0xD3 0
    txTaps := signed16 10 (span b 0x600 0x60D), bcnCh := b.getD 0x610 0, calWord := leNat (span b 0x614 0x617) }

/-- The record of lane `n` as record `idx` of a slot stored live (R243): of the trained state, or empty if the lane is
disabled. -/
def State.liveRecord (s : State) (peer desc idx n : Nat) : List Nat :=
  if s.laneOn n then recordOf peer desc idx (s.ffeCount n) (s.cursor n) (s.rxBcn n) (s.trainedOf n)
  else emptyRecord peer desc idx (s.ffeCount n) (s.cursor n)

end Sys2Proof.Machine
end

