-- ==== Sys2Proof/Machine/Directory.lean ====
section
/-!
DEFINITION. The peer directory, the context slots and the cache lines (07_peer_contexts.md R228, R232 to R236, R242, R246
to R249).
-/

namespace Sys2Proof.Machine

open Sys2Proof

/-! ### Entries -/

/-- The hash of a key (R232). -/
def hashKey (seed peer desc : Nat) : Nat := crc32c (leBytes 4 seed ++ leBytes 4 peer ++ [desc % 256])

/-- The bucket of a key in way 0 or way 1. -/
def bucketOf (seed peer desc way : Nat) : Nat := bitField (hashKey seed peer desc) (16 * (way % 2)) 16

/-- Entry `i` of way 0, way 1 or the stash (2). -/
def CtxSt.entry (c : CtxSt) (way i : Nat) : DirEntry :=
  match way with
  | 0 => c.w0.get .zero i
  | 1 => c.w1.get .zero i
  | _ => c.stash.get .zero i

def CtxSt.setEntry (c : CtxSt) (way i : Nat) (e : DirEntry) : CtxSt :=
  match way with
  | 0 => { c with w0 := c.w0.set .zero i e }
  | 1 => { c with w1 := c.w1.set .zero i e }
  | _ => { c with stash := c.stash.set .zero i e }

/-- The eight bytes of an entry (R233). -/
def DirEntry.bytes (e : DirEntry) : List Nat :=
  leBytes 4 e.peer ++ [e.group] ++ leBytes 2 e.slot ++ [natOf e.valid + 2 * natOf e.pin]

/-- The places a lookup of a key reads: W0[h0], W1[h1] and the stash (R234). -/
def placesOf (seed peer desc : Nat) : List (Nat × Nat) :=
  (0, bucketOf seed peer desc 0) :: (1, bucketOf seed peer desc 1) :: (List.range 8).map (fun j => (2, j))

/-- What a lookup answers (R234). -/
inductive Lookup where
  | miss
  | poison
  | hit (way i : Nat) (e : DirEntry)
  deriving DecidableEq, Repr

/-- The lookup of a key (R234): a valid unmarked entry that holds it; else poison if an entry read carries the mark; else
a miss. -/
def CtxSt.lookup (c : CtxSt) (seed peer desc : Nat) : Lookup :=
  let ps := placesOf seed peer desc
  let here (p : Nat × Nat) : Bool :=
    let e := c.entry p.1 p.2
    e.valid && !e.poison && decide (e.peer = peer) && decide (e.group = desc)
  match ps.find? here with
  | some p => .hit p.1 p.2 (c.entry p.1 p.2)
  | none => if ps.any (fun p => (c.entry p.1 p.2).poison) then .poison else .miss

def State.seed (s : State) : Nat := s.get CTX.HASH_SEED.f

def State.lookupKey (s : State) (peer desc : Nat) : Lookup := s.ctx.lookup s.seed peer desc

/-- A directory lookup counted (15_management.md R442). -/
def State.looked (s : State) : State := s.countD0 0x30 4 1

/-- Valid entries of the directory, and of the stash alone (DIR_STAT). -/
def CtxSt.stashUsed (c : CtxSt) : Nat := (c.stash.filter (fun p => p.2.valid)).length
def CtxSt.entries (c : CtxSt) : Nat :=
  (c.w0.filter (fun p => p.2.valid)).length + (c.w1.filter (fun p => p.2.valid)).length + c.stashUsed

/-- The number of slots: 65,536, or the 256 cache lines on SKM-832-M0 (R249). -/
def State.slotCount (s : State) : Nat := if s.hasD3 then 65536 else 256

/-- The outcomes of an insertion (R235). -/
inductive Inserted where
  | ok (c : CtxSt)
  | noSlot | dirFull | poison
  deriving DecidableEq, Repr

/-- The displacement loop of R235, at most 64 places; the directory is only answered if a place is found. -/
def insertLoop (seed n : Nat) (c : CtxSt) (e : DirEntry) (way : Nat) : Inserted :=
  match n with
  | 0 =>
    match (List.range 8).find? (fun j => !(c.entry 2 j).valid && !(c.entry 2 j).poison) with
    | some j => .ok (c.setEntry 2 j e)
    | none => .dirFull
  | k + 1 =>
    let b := bucketOf seed e.peer e.group way
    let x := c.entry way b
    if x.poison then .poison
    else if x.valid then insertLoop seed k (c.setEntry way b e) x (1 - way)
    else .ok (c.setEntry way b e)

/-- The insertion of a key for a slot (R235). -/
def CtxSt.insert (c : CtxSt) (seed slots : Nat) (e : DirEntry) : Inserted :=
  match c.lookup seed e.peer e.group with
  | .poison => .poison
  | .hit way i x => .ok (c.setEntry way i { x with slot := e.slot })
  | .miss => if slots ≤ c.entries then .noSlot else insertLoop seed 64 c e 0

/-- After a removal, stash entry `j` moves to its free place in W0 or else W1 (R236). -/
def CtxSt.rehome (c : CtxSt) (seed j : Nat) : CtxSt :=
  let e := c.entry 2 j
  let free (w : Nat) : Bool :=
    let x := c.entry w (bucketOf seed e.peer e.group w)
    !x.valid && !x.poison
  if e.valid && !e.poison then
    if free 0 then (c.setEntry 0 (bucketOf seed e.peer e.group 0) e).setEntry 2 j .zero
    else if free 1 then (c.setEntry 1 (bucketOf seed e.peer e.group 1) e).setEntry 2 j .zero
    else c
  else c

/-- The entry at a place removed, and the stash gone through in order (R236). -/
def CtxSt.removeAt (c : CtxSt) (seed way i : Nat) : CtxSt :=
  (List.range 8).foldl (fun c j => c.rehome seed j) (c.setEntry way i .zero)

/-! ### Slots -/

/-- The lowest key from `i` on that a table with rising keys does not list. -/
def lowestGap {α : Type} (m : SMap α) (i : Nat) : Nat :=
  match m with
  | [] => i
  | (k, _) :: r => if k = i then lowestGap r (i + 1) else i

/-- The lowest free slot. -/
def State.freeSlot (s : State) : Option Nat :=
  let j := lowestGap s.ctx.used 0
  if j < s.slotCount then some j else none

/-- A fetch is reading slot `j` (R242): an apply that looked it up and reads its records, or a fill. -/
def State.fetching (s : State) (j : Nat) : Bool :=
  s.ctx.applies.any (fun x => decide (x.phase = .reading) && decide (x.slot = j)) ||
    s.ctx.lines.any (fun p => decide (p.2.st = .filling) && decide (p.2.slot = j))

/-- Line `l` of the cache. -/
def State.line (s : State) (l : Nat) : CacheLine := s.ctx.lines.get .fresh l
def State.setLine (s : State) (l : Nat) (x : CacheLine) : State :=
  { s with ctx := { s.ctx with lines := s.ctx.lines.set .fresh l x } }

/-- The line that holds slot `j`, VALID or IN_USE (resident, R246). -/
def State.lineOf (s : State) (j : Nat) : Option Nat :=
  (s.ctx.lines.find? (fun p => decide (p.2.slot = j) && (decide (p.2.st = .valid) || decide (p.2.st = .inUse)))).map (·.1)

/-- The lines that held slot `j` are freed; one that an apply reads is freed when the apply ends (R247). -/
def State.dropLines (s : State) (j : Nat) : State :=
  { s with ctx := { s.ctx with lines := (s.ctx.lines.filter (fun p => decide (p.2.slot ≠ j) || decide (p.2.st = .inUse) ||
      decide (p.2.st = .filling))) } }

/-- The applies that looked up slot `j` hold an old context from now on: what they read is not copied into the cache under it. -/
def State.staleSlot (s : State) (j : Nat) : State :=
  { s with ctx := { s.ctx with applies := s.ctx.applies.map (fun x => if x.slot = j ∧ x.phase ≠ .queued then { x with stale := true } else x) } }

/-- Slot `j` freed, after every fetch that looked it up (R242). -/
def State.freeSlotAt (s : State) (j : Nat) : State :=
  let s := (s.dropLines j).staleSlot j
  if s.fetching j || (s.lineOf j).isSome then { s with ctx := { s.ctx with freeLater := s.ctx.freeLater ++ [j] } }
  else { s with ctx := { s.ctx with used := s.ctx.used.set false j false } }

/-- The slots whose fetches have finished are freed now, with the lines that held them. -/
def State.settleSlots (s : State) : State :=
  s.each s.ctx.freeLater (fun s j =>
    if s.fetching j || s.ctx.lines.any (fun p => decide (p.2.slot = j) && decide (p.2.st = .inUse)) then s
    else
      let s := s.dropLines j
      { s with ctx := { s.ctx with freeLater := s.ctx.freeLater.erase j, used := s.ctx.used.set false j false } })

/-- The bytes of a slot image written to slot `j`: in GDDR7, or in cache line `j` on SKM-832-M0 (R228, R249). -/
def State.writeSlot (s : State) (j : Nat) (img : List Nat) : State :=
  let bs : List MByte := img.map (fun b => ⟨BitVec.ofNat 8 b, false⟩)
  if s.hasD3 then s.d3Write (slotAddr j) bs
  else
    let s := { s with ctx := { s.ctx with lineMem := s.ctx.lineMem.setRun .unwritten (16384 * j) bs } }
    s.setLine j { s.line j with slot := j, st := .valid, lastUse := s.time.tick }

/-- `len` bytes of slot `j` as the class `cls` reads them; the blocks in `seen` have been read by bursts of the same transfer. -/
def State.readSlot (s : State) (j cls len : Nat) (seen : List Nat) : State × List MByte :=
  if s.hasD3 then s.d3Read (slotAddr j) cls (len / 8) seen
  else (s, s.ctx.lineMem.getRun .unwritten (16384 * j) len)

/-- A word of the first `len` bytes of slot `j` is delivered corrected (R248). -/
def State.slotFixed (s : State) (j len : Nat) : Bool := s.hasD3 && s.d3Fixed (slotAddr j) (len / 8)

/-- The key whose entry holds slot `j` (R231, R246). -/
def CtxSt.keyOf (c : CtxSt) (j : Nat) : Option (Nat × Nat) :=
  ((c.w0 ++ c.w1 ++ c.stash).find? (fun p => p.2.valid && !p.2.poison && decide (p.2.slot = j))).map (fun p => (p.2.peer, p.2.group))

/-- The bytes of cache line `l`. -/
def State.readLine (s : State) (l len : Nat) : List MByte := s.ctx.lineMem.getRun .unwritten (16384 * l) len

/-! ### Victims and fills (R247) -/

/-- The placement engine runs (R247, R249). -/
def State.placeEn (s : State) : Bool := s.hasD3 && s.getB CTX.CTX_CFG_PLACE_EN.f

/-- The victim line: the lowest FREE one, else the VALID one, not pinned and not due, with the oldest last use. -/
def State.victim (s : State) : Option Nat :=
  match (List.range 256).find? (fun l => decide ((s.line l).st = .free)) with
  | some l => some l
  | none =>
    let c := (List.range 256).filter (fun l =>
      decide ((s.line l).st = .valid) && !(s.line l).pin && decide ((s.line l).due < s.now))
    c.foldl (fun b l =>
      match b with
      | none => some l
      | some m => if (s.line l).lastUse < (s.line m).lastUse then some l else some m) none

/-- A fill of line `l` from slot `j` begins. -/
def State.beginFill (s : State) (l j : Nat) (due : Nat) (pin : Bool) : State :=
  s.setLine l { slot := j, st := .filling, pin := pin, due := due, lastUse := s.time.tick, bad := false, seen := [], next := none }

end Sys2Proof.Machine
end

