-- ==== Sys2Proof/Machine/Apply.lean ====
section
/-!
DEFINITION. Applying a context: from the lookup to the context-applied stamp of each lane, identifications and their
timeout, aborts (07_peer_contexts.md R237 to R240, R247, R252 to R258; 03_line_receive.md R123, R124).
-/

namespace Sys2Proof.Machine

open Sys2Proof

/-! ### Results (R240, R258) -/

/-- The first apply that satisfies `p`. -/
def State.findApply (s : State) (p : Apply → Bool) : Option Apply := s.ctx.applies.find? p

/-- Apply `x` replaced by `y`. -/
def State.replaceApply (s : State) (x y : Apply) : State :=
  { s with ctx := { s.ctx with applies := s.ctx.applies.map (fun z => if z = x then y else z) } }

/-- The active apply of the group whose lowest lane is `g`: its oldest one that is not queued. -/
def State.activeApply (s : State) (g : Nat) : Option Apply :=
  s.findApply (fun x => decide (descStart x.desc = g) && decide (x.phase ≠ .queued))

/-- The group registers that a result for descriptor `d` goes to (R258): the current group that contains its START lane. -/
def State.resultGroup (s : State) (d : Nat) : Nat := s.groupOf (descStart d)

/-- The result of an apply or identification written (R240): result 0 sets DONE and every other one FAIL. -/
def State.writeResult (s : State) (g peer r : Nat) (hit unsched skipped : Bool) : State :=
  let s := (s.put (CTX.APPLY_STAT_RESULT.f 0 g) r).putB (CTX.APPLY_STAT_CACHE_HIT.f 0 g) hit
  let s := (s.putB (CTX.APPLY_STAT_UNSCHED.f 0 g) unsched).putB (CTX.APPLY_STAT_LANES_SKIPPED.f 0 g) skipped
  (s.put (CTX.APPLY_PEER_PEER_ID.f 0 g) peer).raiseLane g (if r = 0 then 22 else 23)

def State.ident (s : State) (g : Nat) : Option Ident :=
  (s.ctx.idents.find? (fun p => decide (p.1 = g))).map (·.2)

/-- The identification of group `g` ended. -/
def State.dropIdent (s : State) (g : Nat) : State :=
  { s with ctx := { s.ctx with idents := s.ctx.idents.erase g } }

/-- A lane leaves IDWAIT after a failed apply or identification: to GAIN (R254). -/
def State.idFail (s : State) (n : Nat) : State := if s.rx n = .idwait then s.enterGain n false else s

/-- A lane still in IDWAIT after an apply that ended OK: to WARM, or DARK without light (R254, R257). -/
def State.idDone (s : State) (n : Nat) : State :=
  if s.rx n = .idwait then (if s.light n then s.enterWarm n else s.enterDark n false) else s

/-- The lanes of a descriptor's group leave IDWAIT by the result. -/
def State.settleIdent (s : State) (d r : Nat) : State :=
  let s := s.dropIdent (descStart d)
  s.each (descLanes d) (fun s n => if r = 0 then s.idDone n else s.idFail n)

/-- The command of an APPLY_NOW completes with its apply (R241, 15_management.md R431). -/
def State.completeApply (s : State) (x : Apply) (r : Nat) : State :=
  match x.cmd with
  | some w =>
    if r = 0 then s.complete .context w .ok 0 0 0
    else s.complete .context w .applyFailed r 0 0
  | none => s

/-- The line that an apply read is VALID again, last used now, unless another apply reads it; a new copy that was stored meanwhile
replaces what it holds (R242, R246, R247). -/
def State.releaseLine (s : State) (l : Nat) : State :=
  if s.ctx.applies.any (fun z => decide (z.line = some l)) then s
  else
    let x := s.line l
    match x.next with
    | some j =>
      let bs := (List.range 2048).flatMap (fun k => s.d3Bytes (slotAddr j + 8 * k))
      let s := { s with ctx := { s.ctx with lineMem := s.ctx.lineMem.setRun .unwritten (16384 * l) bs } }
      s.setLine l { x with slot := j, st := .valid, lastUse := s.time.tick, next := none }
    | none => s.setLine l { x with st := .valid, lastUse := s.time.tick }

/-- The apply buffers copied into a victim line after an apply that read GDDR7 (R247), unless its slot has been freed or rewritten
since (R242). -/
def State.cacheApply (s : State) (x : Apply) : State :=
  if s.placeEn && !x.stale then
    match s.victim with
    | some l =>
      let bs := (descLanes x.desc).flatMap (fun n => s.ctx.applyBuf.getRun .unwritten (2048 * n) 2048)
      let bs := bs ++ List.replicate (16384 - bs.length) MByte.zero
      let s := { s with ctx := { s.ctx with lineMem := s.ctx.lineMem.setRun .unwritten (16384 * l) bs } }
      s.setLine l { slot := x.slot, st := .valid, pin := false, due := 0, lastUse := s.time.tick, bad := false, seen := [], next := none }
    | none => s
  else s

/-- A lane is skipped by an apply (R239): disabled, held, in OFF, or its part without power. -/
def State.skippedLane (s : State) (n : Nat) : Bool := !s.laneOn n || !s.laneRuns n || decide (s.rx n = .off)

/-- A RESTART or PRESET_LOAD that waited for a context load takes effect (03_line_receive.md R124). -/
def State.dueRestart (s : State) (n : Nat) : State :=
  match (s.lane n).restartDue with
  | some own => (s.onLane n (fun l => { l with restartDue := none })).startLane n own
  | none => s

/-- The context load of lane `n` ends: what waited for it takes effect (03_line_receive.md R124). -/
def State.loadEnds (s : State) (n : Nat) : State :=
  let s := s.onLane n (fun l => { l with loading := false })
  s.onlyIf (s.laneOn n && s.laneRuns n && !s.reloading (n / 2)) (fun s => s.dueRestart n)

/-- Apply `x` leaves the engine: its line is released, slots that waited for it are freed, its context loads end, and refreshes that its
read deferred are issued (R242, R246, R251). -/
def State.dropApply (s : State) (x : Apply) : State :=
  let s := { s with ctx := { s.ctx with applies := s.ctx.applies.erase x } }
  let s := match x.line with
    | some l => s.releaseLine l
    | none => s
  s.settleSlots.catchUp.each (descLanes x.desc) (fun s n => s.loadEnds n)

/-- Apply `x` ends with result `r` (R240): registers, line, cache copy, IDWAIT lanes, command. -/
def State.finishApply (s : State) (x : Apply) (r : Nat) : State :=
  let s := (s.dropApply x).onlyIf (decide (r = 0) && x.line.isNone) (fun s => s.cacheApply x)
  let s := s.writeResult (s.resultGroup x.desc) x.peer r x.line.isSome x.unsched x.skipped
  ((s.settleIdent x.desc r).countD0 0x30 (if r = 0 then 1 else 3) 1).completeApply x r

/-! ### Starting -/

/-- The whole apply is skipped (R239, 01_architecture.md R56): parked, gated,
draining (12_power.md R383), or in a region under reconfiguration. -/
def State.skippedGroup (s : State) (d : Nat) : Bool :=
  (descLanes d).any (fun n => s.parked n || s.gated (n / 2) || s.draining n ||
    (match s.loader.part with
     | some p => decide (p.region = n / 2)
     | none => false))

/-- Lookup and start of apply `x`, already in the list as queued (R237, R246): an apply of a resident slot reads its
line. -/
def State.activate (s : State) (x : Apply) : State :=
  if s.skippedGroup x.desc then s.finishApply x 6
  else if (descLanes x.desc).any (fun n => !s.dieUp (n / 4)) then s.finishApply x 5
  else
    match s.lookupKey x.peer x.desc with
    | .miss => s.looked.finishApply x 1
    | .poison => (s.looked.poisonUse 1 0).finishApply x 4
    | .hit _ _ e =>
      let line := s.lineOf e.slot
      let s := s.looked.countD0 0x30 2 (natOf line.isSome)
      let s := s.replaceApply x { x with slot := e.slot, line := line, phase := .reading }
      match line with
      | some l => s.setLine l { s.line l with st := .inUse }
      | none => s

/-- The oldest queued apply of group `g` follows when no other is under way (R257). -/
def State.nextApply (s : State) (g : Nat) : State :=
  match s.activeApply g, s.findApply (fun x => decide (descStart x.desc = g) && decide (x.phase = .queued)) with
  | none, some x => s.activate x
  | _, _ => s

/-- Apply `x` ends with result `r`, and the one queued behind it follows (log 54). -/
def State.endApply (s : State) (x : Apply) (r : Nat) : State := (s.finishApply x r).nextApply (descStart x.desc)

/-- A superseded apply ends with its result; the lanes in IDWAIT wait for the apply that replaces it (R257). -/
def State.finishSuperseded (s : State) (z : Apply) : State :=
  let s := s.dropApply z
  (s.writeResult (s.resultGroup z.desc) z.peer 7 z.line.isSome z.unsched z.skipped).countD0 0x30 3 1 |>.completeApply z 7

/-- Apply `x` is served after `z` (R252): in order of trigger, those of one CCLK in order of lowest lane. -/
def Apply.after (x z : Apply) : Bool := decide (z.trig < x.trig) || (decide (z.trig = x.trig) && decide (descStart z.desc ≤ descStart x.desc))

/-- An apply of `peer` to descriptor `d` starts (R237, R257): one before its transfer is superseded; behind one whose
transfer has started it waits; an identification of the group is abandoned. -/
def State.startApply (s : State) (peer d : Nat) (unsched : Bool) (cmd : Option (List Nat)) : State :=
  let x : Apply := { peer := peer, desc := d, slot := 0, line := none, unsched := unsched, cmd := cmd, phase := .queued,
                     left := [], stamped := false, skipped := false, bad := [], seen := [], corrected := false, trig := s.time.tick,
                     stale := false, repeated := false, waitSwap := false }
  if s.isGroup d then
    let g := descStart d
    let old := s.ctx.applies.filter (fun z => decide (descStart z.desc = g) &&
      (decide (z.phase = .queued) || decide (z.phase = .reading)))
    let s := s.each old (fun s z => s.finishSuperseded z)
    let s := if unsched then s else s.dropIdent g
    let s := { s with ctx := { s.ctx with applies := s.ctx.applies.filter (x.after ·) ++ x :: s.ctx.applies.filter (!x.after ·) } }
    (s.countD0 0x30 0 1).nextApply g
  else
    (((s.writeResult (s.resultGroup d) peer 2 false unsched false).countD0 0x30 0 1).countD0 0x30 3 1).completeApply x 2

/-- Every apply that satisfies `p` ends with result `r` (R48, R56, R226): those that queue first, so that none of them follows one that
ends (log 54). -/
def State.abortApplies (s : State) (p : Apply → Bool) (r : Nat) : State :=
  let hit := s.ctx.applies.filter p
  s.each (hit.filter (fun x => decide (x.phase = .queued)) ++ hit.filter (fun x => decide (x.phase ≠ .queued)))
    (fun s x => s.onlyIf (s.ctx.applies.contains x) (fun s => s.endApply x r))

/-! ### Reading, transferring, taking -/

/-- The records of apply `x` read and put into the apply buffers (R237): the reports of the read, and the bytes. -/
def State.readRecords (s : State) (x : Apply) : State × List MByte :=
  let len := 2048 * descSize x.desc
  let r := match x.line with
    | some l => (s, s.readLine l len)
    | none => s.readSlot x.slot 1 len x.seen
  ({ r.1 with ctx := { r.1.ctx with
      applyBuf := r.1.ctx.applyBuf.setRun .unwritten (2048 * descStart x.desc) r.2 } }, r.2)

/-- The records of a slot image pass R231 under a key. -/
def recordsOk (bs : List Nat) (peer desc : Nat) : Bool :=
  (List.range (descSize desc)).all (fun i => recordOk (span bs (2048 * i) (2048 * i + 2047)) peer desc i)

/-- Apply `x` may read now: a resident slot at once; GDDR7 while it serves, one apply at a time in the order of the list (R252, 11_memory.md
R340). -/
def State.mayRead (s : State) (x : Apply) : Bool :=
  decide (x.phase = .reading) && !x.waitSwap && (x.line.isSome ||
    (s.memServes && decide (s.ctx.applies.find? (fun z => decide (z.phase = .reading) && z.line.isNone) = some x)))

/-- A fetch of a slot in which a word was corrected, and whose records passed their checks, is to be rewritten (R248). -/
def State.noteReloc (s : State) (fixed : Bool) (slot peer desc : Nat) : State :=
  s.onlyIf (fixed && s.placeEn) (fun s => { s with ctx := { s.ctx with reloc := s.ctx.reloc ++ [(slot, peer, desc)] } })

/-- APPLY_RECORDS_READ (R237): the records are in the apply buffers; they are checked, and their transfer starts.  Lanes
that the apply skips receive nothing (R239). -/
def applyRecordsReadEffect (g : Fin 8) (s : State) : State :=
  match s.activeApply g with
  | some x =>
    if s.mayRead x then
      let fixed := x.line.isNone && s.slotFixed x.slot (2048 * descSize x.desc)
      let r := s.readRecords x
      let s := r.1
      if x.bad ≠ [] ∨ r.2.any (·.poison) = true then (s.poisonUse 1 (x.bad.headD 0)).endApply x 4
      else if recordsOk (r.2.map (·.val.toNat)) x.peer x.desc then
        let lanes := (descLanes x.desc).filter (fun n => !s.skippedLane n)
        let y := { x with phase := .transfer, left := lanes, skipped := decide (lanes.length < descSize x.desc), corrected := fixed }
        (((s.replaceApply x y).noteReloc fixed x.slot x.peer x.desc).catchUp).each lanes (fun s n => s.onLane n (fun l => { l with loading := true }))
      else s.endApply x 3
    else s
  | none => s

def execApplyRecordsRead (group : Fin 8) (s : State) : Host.Outcome State Fault Refusal :=
  .next (applyRecordsReadEffect group s)

/-- APPLY_TRANSFER_DONE (R237): both transfers are whole, and each lane is due to take its state. -/
def applyTransferDoneEffect (g : Fin 8) (s : State) : State :=
  match s.activeApply g with
  | some x =>
    if x.phase = .transfer ∧ x.waitSwap = false then
      if x.left = [] then s.endApply x 0 else s.replaceApply x { x with phase := .taking }
    else s
  | none => s

def execApplyTransferDone (group : Fin 8) (s : State) : Host.Outcome State Fault Refusal :=
  .next (applyTransferDoneEffect group s)

/-- The active receive channel and modulation loaded (08_beacon.md R282): a frame being received is abandoned. -/
def State.loadRxCh (s : State) (n ch : Nat) (fsk4 : Bool) : State :=
  let s := (s.put (BCN.RX_CH_CH.f n) ch).putB (BCN.RX_CH_MOD.f n) fsk4
  (s.setBcn n { s.bcnL n with rx := none, noiseDirty := true }).put (BCN.RX_STAT_RECEIVING.f n) 0

/-- The receive part of record 0's beacon fields on the lowest lane (R230; 08_beacon.md R282): channel and modulation; a frame being
received is abandoned. -/
def State.loadBeacon (s : State) (n : Nat) (b : List Nat) : State := s.loadRxCh n (b.getD 0xDC 0 % 16) (bitAt (b.getD 0xDC 0) 4)

/-- Lane `n` takes the state of record `b` and is stamped (R123, R237): the transmit state at its first transmit codeword boundary after
the stamp, with the beacon's transmit channel on the lowest lane (R189; 08_beacon.md R270, R274). -/
def State.takeContext (s : State) (n : Nat) (b : List Nat) (first : Bool) : State :=
  let t := trainedFrom b
  let s := (s.lockGone n).loadRx n t (b.getD 7 0) (b.getD 8 0)
  let s := (s.put (LINE.RX_STATE_TRAINED.f n) 1).put (LINE.RX_STATE_ATTEMPT.f n) 0
  let s := s.countLane n 0x0B 1
  let s := (s.put (TIME.CTXAPP_TICK_LO.f 0 n) s.time.tick).put (TIME.CTXAPP_TICK_HI.f 0 n) (s.time.tick / 2 ^ 32)
  let s := if s.light n then s.enterWarm n else s.enterDark n false
  let s := s.onLane n (fun l => { l with tx := { l.tx with txLoad := some (t, first) } })
  let s := s.onlyIf first (fun s => s.loadBeacon n b)
  let s := s.capEvent n 3 s.time.tick
  s.loadEnds n

/-- CONTEXT_APPLIED (R237): lane `n` takes its state at its codeword boundary, unless it has become a lane that an apply
skips (R239); the apply ends when every lane has. -/
def contextAppliedEffect (n : Lane) (s : State) : State :=
  match s.findApply (fun x => decide (x.phase = .taking) && x.left.contains n.val) with
  | some x =>
    let b := (s.ctx.applyBuf.getRun .unwritten (2048 * n) 2048).map (·.val.toNat)
    let off := s.skippedLane n
    let y := { x with left := x.left.erase n, stamped := x.stamped || !off, skipped := x.skipped || off }
    let s := (s.replaceApply x y).onlyIf (!off) (fun s =>
      let s := s.takeContext n b (decide (descStart x.desc = n))
      { s with ctx := { s.ctx with applied := n.val :: s.ctx.applied.erase n } })
    if y.left = [] then s.endApply y 0 else s
  | none => s

def execContextApplied (lane : Lane) (s : State) : Host.Outcome State Fault Refusal := .next (contextAppliedEffect lane s)

/-! ### Identifications (R254, R255) -/

/-- A lane of group `g` is in IDWAIT. -/
def State.waiting (s : State) (g : Nat) : Bool := (s.groupLanes g).any (fun n => decide (s.rx n = .idwait))

/-- A lane enters IDWAIT, lit at `tick`: the identification of its group starts, or the lane joins it (R254); its start
loads the receive channel and modulation of identifications on the lowest lane (08_beacon.md R282). -/
def State.joinIdent (s : State) (n tick : Nat) : State :=
  let g := s.groupOf n
  let fresh := !(s.waiting g) || (s.ident g).isNone
  let i : Ident := if fresh then { light := tick, applying := false }
    else { (s.ident g).getD .fresh with light := min ((s.ident g).getD .fresh).light tick }
  let s := (s.setRx n .idwait)
  let s := { s with ctx := { s.ctx with idents := (s.ctx.idents.erase g).insert g i } }
  s.onlyIf fresh (fun s =>
    (s.countD0 0x31 2 1).loadRxCh g (s.get (BCN.RX_CFG_ID_CH.f g)) (s.getB (BCN.RX_CFG_ID_MOD.f g)))

/-- A valid frame on the lowest lane of group `g`, arrived at `tick`, identifies the peer (R254). -/
def State.identify (s : State) (g peer tick : Nat) : State :=
  match s.ident g with
  | some i =>
    if s.waiting g then
      if i.applying = false ∧ i.light ≤ tick then
        let s := { s with ctx := { s.ctx with idents := (s.ctx.idents.erase g).insert g { i with applying := true } } }
        s.startApply peer (s.descOf g) true none
      else s
    else s.dropIdent g
  | none => s

/-- A lane of group `g` has left IDWAIT through light-off or RESTART (R255): with none left there the identification is abandoned
without a result, and so is its apply, unless that has stamped a lane. -/
def State.leftIdwait (s : State) (g : Nat) : State :=
  match s.ident g with
  | none => s
  | some i =>
    if s.waiting g then s
    else if i.applying then
      match s.ctx.applies.find? (fun x => decide (descStart x.desc = g) && x.unsched) with
      | some x => if x.stamped then s else ((s.dropIdent g).dropApply x).nextApply g
      | none => s.dropIdent g
    else s.dropIdent g

/-- A lane starts again by RESTART or PRESET_LOAD; an identification that it leaves may be abandoned (R255). -/
def State.restartLane (s : State) (n : Nat) (own : Bool) : State :=
  let was := decide (s.rx n = .idwait)
  (s.startLane n own).onlyIf was (fun s => s.leftIdwait (s.groupOf n))

/-- RESTART (R114, R116, R124) of an enabled lane that has power: at once, or after a context load or an outage under way. -/
def restartEffect (n : Lane) (s : State) : State :=
  if s.laneOn n && s.laneRuns n then
    if s.restartWaits n then s.onLane n (fun l => { l with restartDue := some true })
    else s.restartLane n true
  else s

def execRestart (n : Lane) (s : State) : Host.Outcome State Fault Refusal := .next (restartEffect n s)

/-- PRESET_LOAD (R114) in any state other than OFF. -/
def presetLoadEffect (n : Lane) (s : State) : State :=
  if s.laneOn n && s.laneRuns n && decide (s.rx n ≠ .off) then
    if s.restartWaits n then s.onLane n (fun l => { l with restartDue := some false })
    else s.restartLane n false
  else s

def execPresetLoad (n : Lane) (s : State) : Host.Outcome State Fault Refusal := .next (presetLoadEffect n s)

/-- ID_TIMEOUT (R255): no frame has identified a peer; an identification whose lanes have all left IDWAIT is abandoned. -/
def idTimeoutEffect (g : Fin 8) (s : State) : State :=
  match s.ident g with
  | some i =>
    if i.applying then s
    else if s.waiting g then
      ((s.writeResult g 0 8 false true false).countD0 0x31 3 1).settleIdent (s.descOf g) 8
    else s.dropIdent g
  | none => s

def execIdTimeout (group : Fin 8) (s : State) : Host.Outcome State Fault Refusal := .next (idTimeoutEffect group s)

end Sys2Proof.Machine
end

