-- ==== Sys2Proof/Machine/BeaconRx.lean ====
section
/-!
DEFINITION. The receive side of the Cardamom beacon and the light detector (08_beacon.md R266, R267, R277 to R286;
03_line_receive.md R120; 12_power.md R374).
-/

namespace Sys2Proof.Machine

open Sys2Proof

/-! ### Beacon reception -/

/-- The beacon receiver of lane `n` runs (R277). -/
def State.bcnRuns (s : State) (n : Nat) : Bool :=
  s.d0Up && s.laneOn n && s.laneRuns n && s.lowest n && decide (s.rx n ≠ .off)

/-- A write of RX_CH.LOAD (R282). -/
def rxChLoadEffect (n : Lane) (ch : BitVec 4) (fsk4 : Bool) (s : State) : State :=
  if s.d0Up then s.loadRxCh n ch.toNat fsk4 else s

def execRxChLoad (lane : Lane) (ch : BitVec 4) (fsk4 : Bool) (s : State) : Host.Outcome State Fault Refusal :=
  .next (rxChLoadEffect lane ch fsk4 s)

/-- `m / 2^16` is at least `k` quarters of a decibel: 10^(k/40). -/
def atLeastDb (m : Nat) (k : Int) : Bool := decide (2 ^ 640 * 10 ^ k.toNat ≤ m ^ 40 * 10 ^ (-k).toNat)

/-- 10 log10 of `m / 2^16` in whole units of 0.25 dB, from -1,024 on (R277) (log 96). -/
def quarterDb (m : Nat) : Int :=
  ([1024, 512, 256, 128, 64, 32, 16, 8, 4, 2, 1] : List Int).foldl (fun k b => if atLeastDb m (k + b) then k + b else k) (-1024)

/-- P_dB of lane `n` in units of 0.25 dB, from the mean |z|^2 of its decimated samples in units of 2^-16 of one LSB of x squared:
referred to the ADC input at 0 dB VGA gain (R277) (log 96). -/
def State.beaconPower (s : State) (n meanSq : Nat) : Int := quarterDb meanSq + 24 - (s.get (LINE.AGC_GAIN_CODE.f n) : Int)

/-- The end of a noise window (R278), with the mean |z|^2 of its 4,096 samples: P_dB is latched if the window was idle throughout. -/
def noiseWindowEndEffect (n : Lane) (meanSq : Nat) (s : State) : State :=
  if s.bcnRuns n then
    let b := s.bcnL n
    let power := s.beaconPower n meanSq
    let s := s.onlyIf (!b.noiseDirty && b.rx.isNone) (fun s =>
      (s.putZ (BCN.NOISE.f n) (satSigned 10 power)).addTo (BCN.NOISE_NOISE_SEQ.f n) 1)
    s.setBcn n { b with noiseDirty := b.rx.isSome }
  else s

def execNoiseWindowEnd (lane : Lane) (meanSq : Nat) (s : State) : Host.Outcome State Fault Refusal :=
  .next (noiseWindowEndEffect lane meanSq s)

/-- The arrival stamp of a frame that is detected now, at the end of its sync word: the tick at which the first of those sixteen symbols of
20 ns arrived (R275) (log 96). -/
def State.arrivalNow (s : State) : Nat := s.time.tick - 531

/-- Reception of a frame begins, with the detection's type and arrival stamp (R280). -/
def State.beginFrame (s : State) (n : Nat) (full : Bool) (rssi : Int) : State :=
  (s.setBcn n { s.bcnL n with rx := some ⟨full, s.arrivalNow, rssi⟩, noiseDirty := true }).put (BCN.RX_STAT_RECEIVING.f n) 1

/-- The ones of the low 16 bits. -/
def ones16 (w : Nat) : Nat := ((List.range 16).filter (fun i => Nat.testBit w i)).length

/-- The frame type that the correlator finds in the hard decisions of the last 32 symbols, the oldest one in the top bit: at most 2 of the
last 16 preamble symbols and at most `bound` sync bits are wrong (R279). -/
def correlate (bound hard : Nat) : Option Bool :=
  if 2 < ones16 (hard / 2 ^ 16 ^^^ 0xAAAA) then none
  else if ones16 (hard ^^^ syncWord false) ≤ bound then some false
  else if ones16 (hard ^^^ syncWord true) ≤ bound then some true
  else none

/-- A detection now lies within 2 symbols of that of frame `f`, and belongs to it (R279). -/
def State.sameFrame (s : State) (f : RxFrame) : Bool := decide (s.arrivalNow ≤ f.arrived + 66) && decide (f.arrived ≤ s.arrivalNow + 66)

/-- BEACON_DETECTION (R279, R280): the hard decisions of the last 32 symbols, and the mean |z|^2 over the sync word. -/
def beaconDetectionEffect (n : Lane) (meanSq : Nat) (hard : BitVec 32) (s : State) : State :=
  let power := s.beaconPower n meanSq
  match s.bcnRuns n && decide (s.getZ (BCN.NOISE.f n) + (s.get (BCN.RX_CFG_DET_MARGIN.f n) : Int) ≤ power),
      correlate (s.get (BCN.RX_CFG_SYNC_ERR.f n)) hard.toNat with
  | true, some full =>
    match (s.bcnL n).rx with
    | none => s.beginFrame n full power
    | some f =>
      if s.sameFrame f = false ∧ f.rssi + 24 ≤ power then
        ((s.raiseLane n 19).addTo (BCN.RX_RESTART_RESTART_CNT.f n) 1).beginFrame n full power
      else s
  | _, _ => s

def execBeaconDetection (lane : Lane) (meanSq : Nat) (hard : BitVec 32) (s : State) : Host.Outcome State Fault Refusal :=
  .next (beaconDetectionEffect lane meanSq hard s)

/-- The bits of a symbol with Gray index `u` (R263): its sign in 2-FSK, the pair of R148 in 4-FSK. -/
def symbolBits (fsk4 : Bool) (u : Nat) : List Bool := if fsk4 then [decide (2 ≤ u), u == 1 || u == 2] else [decide (2 ≤ u)]

/-- The payload bytes of a frame, each most significant bit first (R265), from the Gray indices of its symbols; short where symbols are
missing. -/
def demodulate (full fsk4 : Bool) (us : List Nat) : List Nat :=
  let bits := us.flatMap (symbolBits fsk4)
  let bytes := min (if full then 20 else 6) (bits.length / 8)
  (List.range bytes).map (fun i => ((bits.drop (8 * i)).take 8).foldl (fun a b => 2 * a + natOf b) 0)

/-- The payload of a frame of its type is valid (R267). -/
def payloadOk (full : Bool) (b : List Nat) : Bool :=
  let gs := descOk (b.getD 4 0 % 32)
  if full then
    decide (b.length = 20) && gs && decide (b.getD 5 0 < 2) && b.getD 16 0 == 0 && b.getD 17 0 == 0 &&
      decide (crc16 (b.take 18) = beNat (span b 18 19))
  else decide (b.length = 6) && gs && decide (crc16 (b.take 5) / 256 = b.getD 5 0)

/-- A valid frame latched into the report registers (R281). -/
def State.latchFrame (s : State) (n : Nat) (f : RxFrame) (b : List Nat) : State :=
  let s := (s.put (BCN.RX_PEER_PEER_ID.f n) (beNat (b.take 4))).put (BCN.RX_INFO_GS.f n) (b.getD 4 0)
  let s := (s.putB (BCN.RX_INFO_FULL.f n) f.full).put (BCN.RX_INFO_TS_VALID.f n) (if f.full then b.getD 5 0 else 0)
  let s := s.putZ (BCN.RX_INFO_RSSI.f n) (satSigned 10 f.rssi)
  let s := (s.put (BCN.ARR_TICK_LO.f n) f.arrived).put (BCN.ARR_TICK_HI.f n) (f.arrived / 2 ^ 32)
  let s := s.onlyIf f.full (fun s =>
    ((s.put (BCN.RX_TS_SEC_TS_SEC.f n) (beNat (span b 6 9))).put (BCN.RX_TS_NS_TS_NS.f n) (beNat (span b 10 13))).put
      (BCN.RX_TS_FRAC_TS_FRAC.f n) (beNat (span b 14 15)))
  let s := (s.addTo (BCN.RX_STAT_REPORT_SEQ.f n) 1).addTo (BCN.RX_VALID_VALID_CNT.f n) 1
  (s.raiseLane n 17).countLane n 0x0F 1

/-- BEACON_REPORT (R281): the last symbol of the frame under way has arrived; `symbols` are the levels of its payload as the receiver
decides them, and the active modulation says what bits they are. -/
def beaconReportEffect (n : Lane) (symbols : List (BitVec 2)) (s : State) : State :=
  match s.bcnRuns n, (s.bcnL n).rx with
  | true, some f =>
    let b := demodulate f.full (s.getB (BCN.RX_CH_MOD.f n)) (symbols.map (·.toNat))
    let s := (s.setBcn n { s.bcnL n with rx := none }).put (BCN.RX_STAT_RECEIVING.f n) 0
    if payloadOk f.full b then (s.latchFrame n f b).identify n (beNat (b.take 4)) f.arrived
    else (s.raiseLane n 18).addTo (BCN.RX_BAD_BAD_CNT.f n) 1
  | _, _ => s

def execBeaconReport (lane : Lane) (symbols : List (BitVec 2)) (s : State) : Host.Outcome State Fault Refusal :=
  .next (beaconReportEffect lane symbols s)

/-! ### Light (R283 to R285) -/

/-- The envelope detector of lane `n` has power: its line die is powered and out of reset, its region not gated (R285). -/
def State.envRuns (s : State) (n : Nat) : Bool := s.laneServed n

/-- ENV_CROSSING (R283, R284): the monitor current, in units of 0.5 µA, after a crossing; ABOVE follows, and a change of
ABOVE starts the hold-off timer, or drops the change under way if it reverts it. -/
def envCrossingEffect (n : Lane) (current : Nat) (s : State) : State :=
  if s.envRuns n then
    let on := s.get (BCN.ENV_TH_TH_ON.f n)
    let off := if s.get (BCN.ENV_TH_TH_OFF.f n) < on then s.get (BCN.ENV_TH_TH_OFF.f n) else on - 1
    let was := s.getB (BCN.ENV_STAT_ABOVE.f n)
    let now := if was then !decide (current < off) else decide (on < current)
    if now = was then s
    else
      let t := if now = s.light n then none else some (⟨now, s.time.tick⟩ : LightTimer)
      (s.putB (BCN.ENV_STAT_ABOVE.f n) now).onLane n (fun l => { l with lightTimer := t })
  else s

def execEnvCrossing (lane : Lane) (current : Nat) (s : State) : Host.Outcome State Fault Refusal :=
  .next (envCrossingEffect lane current s)

/-- LIGHT written, with the stamp of the crossing that the filter accepted (R284). -/
def State.setLight (s : State) (n : Nat) (on : Bool) (tick : Nat) : State :=
  let s := (s.putB (LINE.RX_STATE_LIGHT.f n) on).putB (BCN.ENV_STAT_LIGHT.f n) on
  let s := (s.put (BCN.LIGHT_TICK_LO.f n) tick).put (BCN.LIGHT_TICK_HI.f n) (tick / 2 ^ 32)
  (s.onLane n (fun l => { l with lightTimer := none })).raiseLane n (if on then 20 else 21)

/-- Unscheduled relock is enabled for the group of lane `n` (07_peer_contexts.md R227). -/
def State.unsched (s : State) (n : Nat) : Bool :=
  let g := s.groupOf n
  bitAt (s.get CTX.UNSCHED_UNSCHED_EN.f) g && !(s.groupLanes g).any (fun k => s.ctx.applied.contains k)

/-- What light-on does to lane `n` in DARK (03_line_receive.md R120). -/
def State.lightUp (s : State) (n tick : Nat) : State :=
  if s.laneOn n = true ∧ s.rx n = .dark then
    if s.unsched n then s.joinIdent n tick
    else if s.getB (LINE.RX_STATE_TRAINED.f n) && s.getB (LINE.RX_CTL_WARM_EN.f n) then s.enterWarm n
    else s.enterGain n false
  else s

/-- A light-on accepted on a parked lane, or one being parked (R383), whose group has its WAKE_LIGHT bit starts the group's return (12_power.md R374,
R285). -/
def State.parkWake (s : State) (n : Nat) : State :=
  let g := s.groupOf n
  if bitAt (s.get PWR.PWR_MODE_WAKE_LIGHT.f) g ∧ s.power.returns.all (fun r => decide (r.1 ≠ .group g)) then
    { s with power := { s.power with returns := s.power.returns ++ [(.group g, true)] } }
  else s

/-- LIGHT_ON (R284): a rise held for ON_HOLD is accepted. -/
def lightOnEffect (n : Lane) (s : State) : State :=
  match s.envRuns n, (s.lane n).lightTimer with
  | true, some t =>
    if t.rise then
      let s := ((s.setLight n true t.tick).countLane n 0x11 1)
      let s := if s.parked n || s.parking n s.groupLanes then s.parkWake n else s.lightUp n t.tick
      s.capEvent n 1 t.tick
    else s
  | _, _ => s

def execLightOn (lane : Lane) (s : State) : Host.Outcome State Fault Refusal := .next (lightOnEffect lane s)

/-- What light-off does to the receive half of lane `n` (03_line_receive.md R120, R124): DARK from any state other than OFF;
a context under way completes; the relock condition of its group starts again (07_peer_contexts.md R227). -/
def State.lightDown (s : State) (n : Nat) : State :=
  let s := { s with ctx := { s.ctx with applied := s.ctx.applied.filter (fun k => !(s.groupLanes (s.groupOf n)).contains k) } }
  let s := (s.setBcn n { s.bcnL n with rx := none }).put (BCN.RX_STAT_RECEIVING.f n) 0
  let was := decide (s.rx n = .idwait)
  let s := if s.rx n = .off then s else (s.lockGone n).enterDark n false
  s.onlyIf was (fun s => s.leftIdwait (s.groupOf n))

/-- LIGHT_OFF (R284): a fall held for OFF_HOLD is accepted. -/
def lightOffEffect (n : Lane) (s : State) : State :=
  match s.envRuns n, (s.lane n).lightTimer with
  | true, some t =>
    if t.rise then s
    else ((s.setLight n false t.tick).lightDown n).capEvent n 2 t.tick
  | _, _ => s

def execLightOff (lane : Lane) (s : State) : Host.Outcome State Fault Refusal := .next (lightOffEffect lane s)

end Sys2Proof.Machine
end

