-- ==== Sys2Proof/Machine/Mem.lean ====
section
/-!
DEFINITION. The memory controller's commands: bursts, retraining, refresh and temperature, scrubbing (11_memory.md R340 to
R347, R359).
-/

namespace Sys2Proof.Machine

open Sys2Proof

/-- The slot that a window address lies in. -/
def slotOf (a : Nat) : Nat := (a - 0x40000000) / 16384

/-- A burst of a slot has been read, for the transfer that reads it: an apply (R237), a fill (R246) or a context command (R245).  `bad`
tells of data delivered poisoned by a failed link CRC. -/
def State.noteRead (s : State) (cls : MemClass) (a : Nat) (bad : Bool) : State :=
  match cls with
  | .apply =>
    { s with ctx := { s.ctx with applies := s.ctx.applies.map (fun x =>
        if x.phase = .reading ∧ x.slot = slotOf a ∧ x.line = none then
          { x with bad := if bad then x.bad ++ [a] else x.bad, seen := a :: x.seen }
        else x) } }
  | .fill =>
    { s with ctx := { s.ctx with lines := s.ctx.lines.map (fun p =>
        if p.2.st = .filling ∧ p.2.slot = slotOf a then (p.1, { p.2 with bad := p.2.bad || bad, seen := a :: p.2.seen })
        else p) } }
  | .context => { s with ctx := { s.ctx with cmdBad := s.ctx.cmdBad || bad, cmdSeen := a :: s.ctx.cmdSeen } }
  | _ => s

/-- The eight words of a burst as bytes. -/
def burstBytes (data : List Byte) : List MByte := (data ++ List.replicate 64 0).take 64 |>.map (⟨·, false⟩)

/-- The transfers of a burst that failed their link CRC counted (R344): `k` of them, of which at most three are retried.  A failure of
the third retry starts a retraining. -/
def State.crcRetries (s : State) (k : Nat) : State :=
  if s.mem.failed then s else (s.addTo MEM.CRC_RETRY_CNT.f (min k 3)).onlyIf (decide (4 ≤ k)) (fun s => (s.raise 337).startRetrain)

/-- The burst of a request completes, `crcFails` of whose transfers failed their CRC (R341 to R344): a read that still fails delivers
poison, and such a write is held. -/
def State.burst (s : State) (req : MemReq) (errs : List WordErr) (crcFails : Nat) : State :=
  let a := req.addr.toNat / 64 * 64
  let lost := decide (4 ≤ crcFails) && !s.mem.failed
  let s := (s.countD0 0x30 8 1).countD0 0x30 9 (natOf (decide (req.cls = .apply)))
  let s := s.crcRetries crcFails
  if req.write then
    if lost then { s with mem := { s.mem with heldWrite := some (a, burstBytes req.data) } } else s.d3Write a (burstBytes req.data)
  else if lost then
    let s := s.noteRead req.cls a true
    { s with mem := { s.mem with lastRead := ((List.range 8).map (fun i => wordBytes (s.d3Word (a + 8 * i)).val true)).flatten } }
  else
    let r := (s.upsets a (errs.take 8)).d3Read a (memClassCode req.cls) 8 []
    let s := r.1.noteRead req.cls a false
    { s with mem := { s.mem with lastRead := r.2 } }

/-! ### The order of requests (R340) -/

/-- The background requester of a class that throttling pauses (13_thermal.md R392). -/
def throttleKey (c : MemClass) : Option Nat :=
  match c with
  | .fill => some 8
  | .capture => some 6
  | .scrub => some 3
  | _ => none

/-- Requests of class `c` wait and are not paused. -/
def State.classWaits (s : State) (c : MemClass) : Bool :=
  s.mem.reqs.any (fun r => decide (r.cls = c)) && !((throttleKey c).any s.bgPaused)

/-- The class served next: apply reads and refresh before any other; then a class that has waited behind 64 bursts of higher background
classes; else the highest that waits. -/
def State.nextClass (s : State) : Option MemClass :=
  let cs := [MemClass.context, .fill, .host, .capture, .scrub].filter s.classWaits
  if s.classWaits .apply then some .apply
  else if s.classWaits .refresh then some .refresh
  else
    match cs.find? (fun c => decide (64 ≤ s.mem.behind.get 0 (memClassCode c))) with
    | some c => some c
    | none => cs.head?

/-- The counts of classes that wait behind a burst of class `c`: a background burst counts for every lower class that waits. -/
def State.countBehind (s : State) (c : MemClass) : State :=
  let k := memClassCode c
  let low := [MemClass.fill, .host, .capture, .scrub].filter (fun d => decide (k < memClassCode d) && s.mem.reqs.any (fun r => decide (r.cls = d)))
  let b := if k < 3 then s.mem.behind else low.foldl (fun m d => m.set 0 (memClassCode d) (m.get 0 (memClassCode d) + 1)) s.mem.behind
  { s with mem := { s.mem with behind := b.set 0 k 0 } }

/-- The scrubbed block whose rewrite is due is rewritten with its corrected words; other words are left as they are (R347). -/
def State.settleRewrite (s : State) : State :=
  match s.mem.rewrite with
  | some a =>
    let s := s.each (List.range 8) (fun s i =>
      let w := s.d3Word (a + 8 * i)
      s.onlyIf w.fixed (fun s => s.d3Put (a + 8 * i) w.val false))
    { s with mem := { s.mem with rewrite := none } }
  | none => s

/-- The burst of the request that is next by class, oldest first (R340).  With none waiting a due scrub rewrite is written, and the link
CRC failures are those of the next host window access (log 68). -/
def State.serveBurst (s : State) (errs : List WordErr) (crcFails : Nat) : State :=
  match s.nextClass with
  | some c =>
    match s.mem.reqs.find? (fun r => decide (r.cls = c)) with
    | some r =>
      let s := { s with mem := { s.mem with reqs := s.mem.reqs.erase r } }
      let s := s.countBehind c
      match throttleKey c with
      | some k => s.bgUnit k (fun s => s.burst r errs crcFails)
      | none => s.burst r errs crcFails
    | none => s
  | none =>
    let s := s.settleRewrite
    { s with mem := { s.mem with crcNext := crcFails } }

/-- MEM_BURST (R340 to R345): a request arrives, if one is given, and the controller completes the burst of the next request; `errs` is
what the words that it reads have lost since they were last read.  While the memory is not served every request waits. -/
def memBurstEffect (req : Option MemReq) (errs : List WordErr) (crcFails : Nat) (s : State) : State :=
  if s.hasD3 && s.d0Up then
    let s := match req with
      | some r => if d3Backed r.addr.toNat then { s with mem := { s.mem with reqs := s.mem.reqs ++ [r] } } else s
      | none => s
    if s.memServes && !s.getB MEM.MEM_STAT_SELF_REFRESH.f then s.serveBurst errs crcFails else s
  else s

def execMemBurst (req : Option MemReq) (errs : List WordErr) (crcFails : Nat) (s : State) : Host.Outcome State Fault Refusal :=
  .next (memBurstEffect req errs crcFails s)

/-- A word of the GDDR7 window as a host access reads it (R338, R344): class 5, poisoned where its link CRC still fails after the third
retry; the flag tells that case. -/
def State.hostWord (s : State) (a : Nat) : State × List MByte × Bool :=
  let k := s.mem.crcNext
  let lost := decide (4 ≤ k) && !s.mem.failed
  let s := ({ s with mem := { s.mem with crcNext := 0 } }).crcRetries k
  if lost then (s, wordBytes (s.d3Word a).val true, true)
  else
    let r := s.d3ReadWord a 5
    (r.1, r.2, false)

/-- A 32-bit host write into the capture ring (R338): a read-modify-write of its word, which keeps its poison; held for the retraining
where the link CRC fails (R344). -/
def State.windowWrite (s : State) (a v : Nat) : State :=
  let b := a / 8 * 8
  let r := s.hostWord b
  let w := s.d3Word b
  let val := putField w.val (8 * (a % 8)) 32 v
  if r.2.2 then { r.1 with mem := { r.1.mem with heldWrite := some (b, wordBytes val w.bad) } }
  else r.1.d3Put b val (r.2.1.any (·.poison))

/-- A host write of RETRAIN (R345) (log 62). -/
def retrainEffect (s : State) : State := if s.d0Up then s.startRetrain else s

def execRetrain (s : State) : Host.Outcome State Fault Refusal := .next (retrainEffect s)

/-- The held write issued again after the retraining, then the host writes that waited for it (R344, R345). -/
def State.reissue (s : State) : State :=
  let s := match s.mem.heldWrite with
    | some (a, bs) =>
      let s := s.d3Write a bs
      { s with mem := { s.mem with heldWrite := none } }
    | none => s
  let s := s.each s.mem.hostWrites (fun s w => s.windowWrite w.1 w.2)
  { s with mem := { s.mem with hostWrites := [] } }

/-- A retraining ends (R345): READY and RETRAINED, or the second of the pair, or MEM_FAIL. -/
def retrainingDoneEffect (ok : Bool) (s : State) : State :=
  if s.getB MEM.MEM_STAT_RETRAINING.f then
    if ok then (((s.put MEM.MEM_STAT_RETRAINING.f 0).put MEM.MEM_STAT_READY.f 1).raise 338).reissue
    else if s.mem.second then
      let s := (s.put MEM.MEM_STAT_RETRAINING.f 0).raise 339
      { s with mem := { s.mem with failed := true, heldWrite := none, hostWrites := [] } }
    else { s with mem := { s.mem with second := true } }
  else s

def execRetrainingDone (ok : Bool) (s : State) : Host.Outcome State Fault Refusal := .next (retrainingDoneEffect ok s)

/-- The refresh band of a temperature (table of R346). -/
def bandOf (t : Int) : Nat := if 95 < t then 2 else if 85 ≤ t then 1 else 0

/-- The band after a good reading (R346): at once to a higher band; one band down once ten readings lie at least 3 degrees
below the threshold between the two. -/
def bandNext (base : Nat) (temps : List Int) : Nat :=
  let up := bandOf (temps.headD 0)
  let under (x : Int) : Bool := decide (10 ≤ temps.length) && temps.all (fun t => decide (t ≤ x))
  if base ≤ up then up
  else if base = 2 then (if under 82 then 0 else if under 92 then 1 else 2)
  else if under 82 then 0 else base

/-- The controller's temperature reading (R346), each millisecond; a bad reading selects 4x until the next good one. -/
def d3TempReadEffect (temp : BitVec 8) (good : Bool) (s : State) : State :=
  if s.memServes && !s.getB MEM.MEM_STAT_SELF_REFRESH.f then
    if good then
      let ts := (temp.toInt :: s.mem.temps).take 10
      let b := bandNext s.mem.base ts
      let s := { s with mem := { s.mem with base := b, temps := ts } }
      (s.put MEM.MEM_STAT_D3_TEMP.f temp.toNat).setBand b
    else ({ s with mem := { s.mem with temps := [] } }).setBand 2
  else s

def execD3TempRead (temp : BitVec 8) (good : Bool) (s : State) : Host.Outcome State Fault Refusal :=
  .next (d3TempReadEffect temp good s)

/-- A per-bank refresh falls due (R346, R251): deferred while an apply read is queued or under way. -/
def refreshEffect (bank : Nat) (s : State) : State :=
  if s.memServes && !s.getB MEM.MEM_STAT_SELF_REFRESH.f then
    if s.applyReading then { s with mem := { s.mem with deferred := s.mem.deferred ++ [bank] } } else s.refreshBank bank
  else s

def execRefresh (bank : Nat) (s : State) : Host.Outcome State Fault Refusal := .next (refreshEffect bank s)

/-- The next block of the scrubber: wrapping at the end of the ring increments PASS (R347). -/
def State.scrubNext (s : State) : State :=
  let p := s.get MEM.SCRUB_POS_POS.f + 64
  if 0xA0000000 ≤ p then (s.put MEM.SCRUB_POS_POS.f 0x40000000).addTo MEM.SCRUB_PASS_PASS.f 1
  else s.put MEM.SCRUB_POS_POS.f p

/-- One block scrubbed (R347): the rewrite of the block before it, if one is due; the read, reported, and noted for its rewrite if a word
was corrected; a unit of background work (R392).  A block whose link CRC still fails is delivered poisoned, and the scrubber resumes at
it after the retraining (R344) (log 68). -/
def scrubBlockEffect (errs : List WordErr) (crcFails : Nat) (s : State) : State :=
  if s.memServes && !s.mem.failed && s.getB MEM.SCRUB_CFG_SCRUB_EN.f && !s.getB MEM.MEM_STAT_SELF_REFRESH.f then
    s.bgUnit 3 (fun s =>
      let s := s.settleRewrite.crcRetries crcFails
      if 4 ≤ crcFails then s
      else
        let a := s.get MEM.SCRUB_POS_POS.f
        let s := s.upsets a (errs.take 8)
        let r := s.d3Read a 7 8 []
        ({ r.1 with mem := { r.1.mem with rewrite := if s.d3Fixed a 8 then some a else none } }).scrubNext)
  else s

def execScrubBlock (errs : List WordErr) (crcFails : Nat) (s : State) : Host.Outcome State Fault Refusal :=
  .next (scrubBlockEffect errs crcFails s)

/-- A write of SCRUB_EN (R347); the scrubber resumes at the block it had reached (log 35). -/
def scrubEnWriteEffect (on : Bool) (s : State) : State :=
  if s.hasD3 && s.d0Up then s.putB MEM.SCRUB_CFG_SCRUB_EN.f on else s

def execScrubEnWrite (on : Bool) (s : State) : Host.Outcome State Fault Refusal := .next (scrubEnWriteEffect on s)

end Sys2Proof.Machine
end

