-- ==== Sys2Proof/Machine/Queue.lean ====
section
/-!
DEFINITION. The credit queues at work: an entry sent and taken, what each consumer does with it, overflow, starvation and
credit errors with their consequences, and the queue monitors (01_architecture.md R38 to R48; 03_line_receive.md R95 to
R112, R128; 06_host_side.md R201, R206, R208, R214).
-/

namespace Sys2Proof.Machine

open Sys2Proof

/-! ### The receive path -/

/-- Items of `w` bits packed as a little-endian bit stream of `n` bytes (03_line_receive.md R133). -/
def packBits (w n : Nat) (xs : List Nat) : List Nat :=
  leBytes n ((xs.foldr (fun x a => x % 2 ^ w + 2 ^ w * a) 0))

/-- A sample of capture point `point` into its histogram bin (R128): one per cycle while samples are left. -/
def State.histoSample (s : State) (n c : Nat) (point : Bool) (xs : List Int) : State :=
  if s.getB (LINE.HIST_STAT_BUSY.f n) = true ∧ 0 < (s.lane n).histoLeft ∧ s.getB (LINE.HIST_CTL_POINT.f n) = point then
    let x := xs.getD (c % 136) 0
    let bin : Nat := if point then ((x + 512) / 8).toNat else ((x + 128) / 2).toNat
    (s.addSat (LINE.HIST_COUNT.f n (bin % 128)) 1).onLane n (fun l => { l with histoLeft := l.histoLeft - 1 })
  else s

/-- Word `c` of raw samples enters the lane (R96 to R98, R100, R127, R128): correction, clip count, the sums of interleave tracking
and of the converter gain, histogram and capture at point 0. -/
def State.takeRaw (s : State) (n c : Nat) (raw : List Int) (poison : Bool) : State :=
  let xs := s.correctWord n c raw
  let hist := (xs.reverse ++ (s.lane n).rxp.xs).take 1800
  let clip := clippedCount xs
  let s := s.onLane n (fun l => { l with
    rxp := RxPath.agcWord { l.rxp with cycles := l.rxp.cycles + 1, xs := hist, subs := subWord c raw hist l.rxp.subs } xs
    meas := { l.meas with clip := l.meas.clip + clip } })
  ((s.countLane n 0x07 clip).histoSample n c false xs).capWord n 0 (8 * c % 64) poison (xs.map (fun x => wordOf 8 x))

/-- The FFE takes word `c` of raw samples (R97, R102, R103, R106): corrected and equalised samples; the slicer's decisions and the
vote in the states that use it; histogram and capture at point 1. -/
def State.ffeTake (s : State) (n c : Nat) (raw : List Int) (poison : Bool) : State :=
  let s := s.takeRaw n c raw poison
  let hist := (s.lane n).rxp.xs
  let ys := ffeWord (s.chainTaps n) (s.cursor n) (s.extsOf n) hist
  let s :=
    if (s.rx n).slices then
      let o := s.sliceWord n c ys.reverse hist
      let p := if s.rx n = .cdr then spectralSum hist else o.votes
      ((s.setPool (n / 2) o.pool).onLane n (fun l => { l with
        eq := o.eq, rxp := { l.rxp with ds := o.ds, yLast := o.yLast, exitN := o.exitN, exitSum := o.exitSum } })).cdrVote n (sgn p)
    else s
  let s := (s.histoSample n c true ys).capWord n 1 0 poison (packBits 10 176 (ys.map (fun y => wordOf 10 y)))
  s.pushQ ⟨.ffeMlse, n⟩ ⟨.equalised ys c, poison⟩

/-- The noise predictor in use. -/
def npOf (es : List PoolExt) : Option (Int × Int) :=
  (es.find? (fun e => !e.ffe)).map (fun e => (accVal e.p1, accVal e.p2))

/-- T6 and T7 take word `c` of equalised samples (R103, R107 to R112, R126, R130): decisions with reliabilities, the vote in the
states that use the detector, the TRAIN and TRACK loops, the window sums, the segment measure, capture point 2.  The corrected
samples of words that the FFE has equalised since lie before those of the word in the history. -/
def State.mlseTake (s : State) (n c : Nat) (ys : List Int) (poison : Bool) : State :=
  let l := s.lane n
  let pre := s.getB (LINE.DEC_CTL_PRECODE.f n)
  let cfg : DetCfg := { u := s.get (LINE.DETECT_LEVEL_UNIT.f n), b := accVal l.eq.b, levels := l.eq.levels.map accVal,
                        np := npOf (s.extsOf n), precode := pre }
  let r := detWord cfg l.rxp.paths ys
  let yh := (ys.reverse ++ l.rxp.ys).take 200
  let xh := l.rxp.xs.drop (136 * (s.queue ⟨.ffeMlse, n⟩).entries.length)
  let fz := s.adaptFrozen n l.loading
  let sg := s.segStart n
  let o := (usedPositions c).foldl (fun o j => s.trackPosition n r.2 yh xh fz sg.segS o j)
    { eq := l.eq, pool := s.pool (n / 2), meas := l.meas, segG := sg.segG }
  let s := (s.setPool (n / 2) o.pool).onLane n (fun l => { l with
    eq := if fz then o.eq else s.retarget n o.eq, meas := o.meas
    rxp := { l.rxp with paths := r.1, ys := yh, detWords := l.rxp.detWords + 1, segS := sg.segS, segG := o.segG
                        segN := if s.rx n = .track then sg.segN + 1 else 0 } })
  let s := if (s.rx n).slices then s else s.cdrVote n (sgn (detectorSum r.2 yh))
  let w := softWord pre (s.get (LINE.DETECT_REL_SHIFT.f n)) r.2
  let items := (List.range 272).map (fun i => natOf (bitAt w.1 (271 - i)) + 2 * w.2.getD i 0)
  let s := s.capWord n 2 0 poison (packBits 5 176 items)
  s.pushQ ⟨.mlseDec, n⟩ ⟨.soft (BitVec.ofNat 272 w.1) w.2, poison⟩

/-- The detector takes the head of its queue unless the queue after it is full (R95) or a swap stalls it. -/
def State.mlseStep (s : State) (n : Nat) : State :=
  match (s.queue ⟨.ffeMlse, n⟩).entries with
  | [] => s
  | e :: _ =>
    if s.canPush ⟨.mlseDec, n⟩ = true ∧ (s.lane n).faulted = false then
      let s := s.popQ ⟨.ffeMlse, n⟩
      match e.data with
      | .equalised ys c => s.mlseTake n c ys e.poison
      | _ => s
    else s.countLane n 0x12 1

/-- A word of a lane under a swap or a re-placement (14_selftest_faults.md R410, R411): its samples are corrected and tracked, the
phase detector votes 0, and a poisoned codeword leaves; while the queue after the decoders holds no credit for that codeword the
word waits.  The words inside the stalled groups leave poisoned after the swap, and so does a codeword that begins in the last of
them. -/
def State.swapWord (s : State) (n : Nat) (e : QEntry) : State :=
  if s.delivers n = true ∧ s.canPush ⟨.decLink, n⟩ = false then s.countLane n 0x12 1
  else
    let k := (s.queue ⟨.ffeMlse, n⟩).entries.length + (s.queue ⟨.mlseDec, n⟩).entries.length
    let s := (((s.popQ ⟨.adcFfe, n⟩).cdrVote n 0).countLane n 0x12 1).onLane n (fun l =>
      { l with forced := k, rxp := { l.rxp with prev := l.rxp.prev.map (fun p => { p with poison := true }) } })
    let s := match e.data with
      | .samples raw c => s.takeRaw n c raw e.poison
      | _ => s
    s.deliverForced n

/-- The FFE group takes the head of its queue (R95); a full queue after it stalls it. -/
def State.ffeStep (s : State) (n : Nat) : State :=
  match (s.queue ⟨.adcFfe, n⟩).entries with
  | [] => s
  | e :: _ =>
    if (s.lane n).faulted then s.swapWord n e
    else if s.canPush ⟨.ffeMlse, n⟩ then
      let s := s.popQ ⟨.adcFfe, n⟩
      match e.data with
      | .samples raw c => (s.ffeTake n c raw e.poison).mlseStep n
      | _ => s
    else s.countLane n 0x12 1

/-! ### The transmit path -/

/-- The link carries the head of the D0 to link queue to the line die while it holds a credit. -/
def State.txForward (s : State) (n : Nat) : State :=
  match (s.queue ⟨.d0Link, n⟩).entries with
  | [] => s
  | e :: _ => if s.canPush ⟨.linkTxp, n⟩ then (s.popQ ⟨.d0Link, n⟩).pushQ ⟨.linkTxp, n⟩ e else s

/-- A stream's data of the present cycle is to be forced uncorrectable (R48): in mode T the half row waiting, or the next
one, is poisoned (R201); in mode R the port's transmit direction is in a gap (R207). -/
def State.hostSpoil (s : State) (h : Nat) : State :=
  match s.hostRole h with
  | none => s
  | some (n, b) =>
    let sd := if s.modeR n then s.sideOf n b else b
    let s := s.setSide n sd { s.side n sd with hostFault := true }
    if s.modeR n then s.hostGapStart n b
    else
      s.onLane n (fun l =>
        if b then { l with halfB := l.halfB.map (fun p => (p.1, true)) } else { l with halfA := l.halfA.map (fun p => (p.1, true)) })

/-- The entries of a mode-T lane toward the line that wait, those of stream a and stream b in turn, stream a first (R162): as many of
`k` as are due and as find a credit. -/
def State.sendRows (s : State) (n k : Nat) : State :=
  match k with
  | 0 => s
  | j + 1 =>
    let p := s.port n
    match (if p.rowTurnB then p.rowsB else p.rowsA) with
    | [] => s
    | e :: r =>
      if s.canPush ⟨.d0Link, n⟩ then
        let p := if p.rowTurnB then { p with rowsB := r, rowTurnB := false } else { p with rowsA := r, rowTurnB := true }
        (((s.setPort n p).pushQ ⟨.d0Link, n⟩ e).txForward n).sendRows n j
      else s

/-- Every entry toward the line that is due. -/
def State.drainRows (s : State) (n : Nat) : State := s.sendRows n ((s.port n).rowsA.length + (s.port n).rowsB.length)

/-- 128 bits of stream `b` of a mode-T lane join a row (R201); `bad` forces it uncorrectable, `mark` is the parity mark of the entry.  A
row is interleaved with the three before it (R145), and goes to the line in its turn. -/
def State.hostHalf (s : State) (n : Nat) (b : Bool) (bits : Nat) (bad mark : Bool) : State :=
  let l := s.lane n
  let x := s.side n b
  let bad := bad || x.hostFault
  let s := s.setSide n b { x with hostFault := false }
  match (if b then l.halfB else l.halfA) with
  | none => s.onLane n (fun l => if b then { l with halfB := some (bits, bad) } else { l with halfA := some (bits, bad) })
  | some (hi, p) =>
    let rows := ((hi * 2 ^ 128 + bits) :: (if b then l.txRowsB else l.txRowsA)).take 4
    let s := s.onLane n (fun l =>
      if b then { l with halfB := none, txRowsB := rows } else { l with halfA := none, txRowsA := rows })
    let e : QEntry := ⟨.toSend (BitVec.ofNat 256 (mergeRows rows)) (BitVec.ofNat 16 (natOf b + 8 * natOf (p || bad))), mark⟩
    let p := s.port n
    (s.setPort n (if b then { p with rowsB := p.rowsB ++ [e] } else { p with rowsA := p.rowsA ++ [e] })).drainRows n

/-- 128 bits of host lane `h` reach the clause 119 receive of its port, where that holds alignment-marker lock (R202, R205). -/
def State.hostBits (s : State) (n : Nat) (b : Bool) (bits : Nat) : State :=
  let sd := s.sideOf n b
  let x := s.side n sd
  if s.amLock n sd then
    s.setSide n sd { x with dec := x.dec.feed (!s.breakout n) (b && !s.breakout n) (bitsOf 128 bits) }
  else s

/-- The consumer of host lane `h`'s receive queue takes its head (R201, R205): in mode R the KP4 decoder, whose codewords are
HOST_CODEWORD; in mode T the rows and the monitoring engine, unless a row of the stream still waits for its turn. -/
def State.hostRxStep (s : State) (h : Nat) : State :=
  match (s.queue ⟨.hostRx, h⟩).entries with
  | [] => s
  | e :: _ =>
    match s.hostRole h, e.data with
    | some (n, b), .host bits bad =>
      if s.modeR n then (s.popQ ⟨.hostRx, h⟩).hostBits n b bits.toNat
      else
        let s := s.drainRows n
        if (if b then (s.port n).rowsB else (s.port n).rowsA).isEmpty then
          ((s.popQ ⟨.hostRx, h⟩).hostBits n b bits.toNat).hostHalf n b bits.toNat (bad || e.poison) e.poison
        else s
    | _, _ => s.popQ ⟨.hostRx, h⟩

/-- The next row of stream `b` of a mode-R lane (R164): 256 bits of its RS codewords, once they are there. -/
def State.takeRow (s : State) (n : Nat) (b : Bool) : Option (Nat × State) :=
  let p := s.port n
  let e := if b then p.encB else p.encA
  if 256 ≤ e.bits.length then
    let e' := { e with bits := e.bits.drop 256, started := true }
    some (topBits (e.bits.take 256), s.setPort n (if b then { p with encB := e' } else { p with encA := e' }))
  else none

/-- A row of a mode-R stream interleaved with the three before it (R145, R147). -/
def State.joinRow (s : State) (n : Nat) (b : Bool) (row : Nat) : Nat × State :=
  let l := s.lane n
  let rows := (row :: (if b then l.txRowsB else l.txRowsA)).take 4
  (mergeRows rows, s.onLane n (fun l => if b then { l with txRowsB := rows } else { l with txRowsA := rows }))

/-- The codeword of place `k` in the cadence of a mode-R lane (R164, R165): stream a's groups begin at place 0, stream b's at place 85,
and before its first group stream b carries zeros.  It goes out with the cover of its place; nothing, where its row is not there. -/
def State.encodeAt (s : State) (n k : Nat) (poison : Bool) : State :=
  let b := k % 2 == 1
  let cover := if k = 0 then 2 else if k = 85 then 3 else k % 2
  let st : BitVec 16 := BitVec.ofNat 16 cover
  let idle := b && !(s.port n).encB.started && decide (k ≠ 85)
  let r := if idle then some (0, s) else (s.takeRow n b).map (fun p => p.2.joinRow n b p.1)
  match r with
  | none => s
  | some (m, s) =>
    (s.onLane n (fun l => { l with txCount := (k + 1) % 170 })).pushQ ⟨.d0Link, n⟩ ⟨.toSend (BitVec.ofNat 256 m) st, poison⟩

/-- One codeword slot of the RS encoders of a mode-R lane (R206, R208): 64/17 block slots are read, and a codeword goes to the line.
Until the first RS codeword of stream a is complete none does; its row 0 is place 0 of the cadence (log 59). -/
def State.encodeSlot (s : State) (n : Nat) (poison : Bool) : State :=
  let k := (s.lane n).txCount % 170
  let sd := s.sideOf n (k % 2 == 1)
  let acc := (s.side n sd).txAcc + 64
  let s := (s.setSide n sd { s.side n sd with txAcc := acc % 17 }).txSlots n sd (acc / 17)
  let a := (s.port n).encA
  if a.started then s.encodeAt n k poison
  else if k % 2 = 0 ∧ 256 ≤ a.bits.length then s.encodeAt n 0 poison
  else s.onLane n (fun l => { l with txCount := (k + 1) % 170 })

/-! ### Host transmitters (R195, R204, R214) -/

/-- The 64 level indices of 128 bits, or of 64 pairs. -/
def pairsOf (w : Nat) : List Nat := (List.range 64).map (fun i => w / 4 ^ (63 - i) % 4)

/-- Pairs as one number, the first one in the top place. -/
def ofPairs (us : List Nat) : Nat := us.foldl (fun a u => 4 * a + u) 0

/-- The two bits of a Gray index (04_inner_code.md R148). -/
def grayPair (u : Nat) : Nat :=
  match u % 4 with
  | 0 => 0 | 1 => 1 | 2 => 3 | _ => 2

/-- Gray indices recovered from precoded ones (04_inner_code.md R149). -/
def recoverFrom (v : Nat) (xs : List Nat) : List Nat :=
  match xs with
  | [] => []
  | x :: r => ((x + v) % 4) :: recoverFrom x r

/-- 128 bits of a host lane sent: Gray mapping, the precoder under TX_PRECODE, the two legs exchanged under TX_INV (R195). -/
def State.hostPut (s : State) (h bits : Nat) (o : HostOut) : State :=
  let us := (pairsOf bits).map grayIndex
  let p := if s.getB (HOST.HCTL_TX_PRECODE.f h) then precodeFrom (s.host h).txPrev us else (us, (s.host h).txPrev)
  let vs := if s.getB (HOST.HCTL_TX_INV.f h) then p.1.map (3 - ·) else p.1
  s.setHost h { s.host h with out := o, sent := ofPairs vs, txPrev := p.2 }

/-- 64 symbols of a host lane received, as bits: the two legs exchanged under RX_INV, the precoder undone under RX_PRECODE, Gray demapping
(R195). -/
def State.hostGet (s : State) (h symbols : Nat) : Nat × State :=
  let vs := if s.getB (HOST.HCTL_RX_INV.f h) then (pairsOf symbols).map (3 - ·) else pairsOf symbols
  let us := if s.getB (HOST.HCTL_RX_PRECODE.f h) then recoverFrom (s.host h).rxPrev vs else vs
  (ofPairs (us.map grayPair), s.setHost h { s.host h with rxPrev := vs.getLastD 0 })

/-- Host lane `h` of stream `b` of lane `n` sends 128 bits of its port's fault stream (R204). -/
def State.faultCycle (s : State) (h n : Nat) (b : Bool) : State :=
  let sd := s.sideOf n b
  let x := s.side n sd
  let p := x.fault.faultTake (!s.breakout n) (b && !s.breakout n)
  (s.setSide n sd { x with fault := p.2 }).hostPut h p.1 .faultStream

/-- The read side of a mode-R port makes the next 128 bits of stream `b`'s host lane (R209, R214): 32/17 block slots to 128 bits, read in
the cycles of the port's first lane; an entry goes out once its bits are there (log 59). -/
def State.makeBits (s : State) (n h : Nat) (b poison : Bool) : State :=
  let sd := s.sideOf n b
  let two := !s.breakout n
  let second := b && two
  let acc := (s.side n sd).rxAcc + (if second then 0 else if two then 64 else 32)
  let s := (s.setSide n sd { s.side n sd with rxAcc := acc % 17 }).each (List.range (acc / 17)) (fun s _ =>
    let s := s.onlyIf ((s.side n sd).enc.wantsBlock two) (fun s => s.rxSlot n sd)
    let x := s.side n sd
    s.setSide n sd { x with enc := x.enc.feed two (x.lastRx.getD .idle) })
  let x := s.side n sd
  match x.enc.take second with
  | some (w, e) => (s.setSide n sd { x with enc := e }).pushQ ⟨.hostTx, h⟩ ⟨.host (BitVec.ofNat 128 w) false, poison⟩
  | none => s

/-- The line direction of lane `n` carries data: it is in TRACK and in syndrome lock (R204). -/
def State.lineValid (s : State) (n : Nat) : Bool := decide (s.rx n = .track) && s.syncLock n

/-- The transmitter of host lane `h` takes its queue's head (R204, R214): in mode T the line's bits, or the fault stream in their place
while the line carries no data. -/
def State.hostTxStep (s : State) (h : Nat) : State :=
  match (s.queue ⟨.hostTx, h⟩).entries with
  | [] => s
  | e :: _ =>
    let s := s.popQ ⟨.hostTx, h⟩
    match s.hostRole h, e.data with
    | some (n, b), .host bits _ =>
      if s.modeR n then s.hostPut h bits.toNat .readSide
      else if s.lineValid n then (s.hostPut h bits.toNat .lineBits).drainOut n b
      else s.faultCycle h n b
    | _, _ => s

/-! ### Sending and taking -/

/-- The entry is one that the queue carries (table of R42). -/
def QueueKind.carries (k : QueueKind) (d : QData) : Bool :=
  match k, d with
  | .adcFfe, .samples raw _ => raw.length == 136
  | .ffeMlse, .equalised ys _ => ys.length == 136
  | .mlseDec, .soft _ rel => rel.length == 272
  | .decLink, .decoded _ _ => true
  | .linkD0, .decoded _ _ => true
  | .d0Link, .toSend _ _ => true
  | .linkTxp, .toSend _ _ => true
  | .hostRx, .host _ _ => true
  | .hostTx, .host _ _ => true
  | .ctxReq, .request _ _ => true
  | .memRet, .burst bs => bs.length == 64
  | .ctxPort, .record _ => true
  | .cmdRing, .command ws => ws.length == 8
  | _, _ => false

/-- The parts on both sides of queue `q` have power and clocks. -/
def State.queueRuns (s : State) (q : QueueId) : Bool :=
  decide (q.inst < q.kind.instances) && s.d0Up &&
  match q.kind with
  | .hostRx => true | .hostTx => true | .ctxReq => true | .memRet => true | .cmdRing => true
  | .ctxPort => s.dieUp q.inst
  | .d0Link => s.laneOn q.inst && s.laneRuns q.inst
  | .linkTxp => s.laneOn q.inst && s.laneRuns q.inst
  | _ => s.laneOn q.inst && s.laneRuns q.inst && !s.reloading (q.inst / 2)

/-- The memory controller takes the head of the context request queue (R39, R42): a read only with a credit of the memory return queue,
which carries its 64 bytes. -/
def State.serveRequest (s : State) : State :=
  match (s.queue ⟨.ctxReq, 0⟩).entries with
  | [] => s
  | e :: _ =>
    match e.data with
    | .request a false =>
      if s.canPush ⟨.memRet, 0⟩ then
        let bs := (List.range 8).flatMap (fun i => s.d3Bytes (a.toNat / 64 * 64 + 8 * i))
        (s.popQ ⟨.ctxReq, 0⟩).pushQ ⟨.memRet, 0⟩ ⟨.burst (bs.map (·.val)), bs.any (·.poison)⟩
      else s
    | _ => s.popQ ⟨.ctxReq, 0⟩

/-- The consumer of queue `q` takes its head and works on it.  The decoders, T10 and the Mace core take theirs by
CODEWORD_DECODE, CODEWORD_ENCODE and COMMAND_TAKE. -/
def State.takeHead (s : State) (q : QueueId) : State :=
  match q.kind with
  | .adcFfe => s.ffeStep q.inst
  | .ffeMlse => s.mlseStep q.inst
  | .decLink => s.rxForward q.inst
  | .linkD0 => s.d0Consume q.inst
  | .d0Link => s.txForward q.inst
  | .hostRx => s.hostRxStep q.inst
  | .hostTx => s.hostTxStep q.inst
  | .ctxReq => s.serveRequest
  | .memRet => s.popQ q
  | .ctxPort => s.popQ q
  | _ => s

/-- The consequence of an overflow (R48). -/
def State.overflowed (s : State) (q : QueueId) : State :=
  match q.kind with
  | .adcFfe => s.loseLock q.inst
  | .hostRx => s.hostSpoil q.inst
  | _ => s

/-- The producer of `q` has stopped sending into a domain that drains (12_power.md R381). -/
def State.drainStops (s : State) (q : QueueId) : Bool :=
  match q.kind with
  | .adcFfe => s.draining q.inst
  | .d0Link => s.draining q.inst
  | .hostRx => s.power.drains.contains .package
  | _ => false

/-- A cycle arrives from host lane `h`: a mode-T transmitter that it times and that still runs on CCLK follows it once it is LOCKED
(05_line_transmit.md R181) (log 83). -/
def State.followHost (s : State) (h : Nat) : State :=
  match s.hostRole h with
  | some (n, _) =>
    s.onlyIf (s.hostLocked h && s.timesLane h n && s.txEnabled n && decide (s.get (LINE.TX_STATE_TIMING.f n) = 0))
      (fun s => s.put (LINE.TX_STATE_TIMING.f n) 1)
  | none => s

/-- What a producer makes of what it receives: the lane numbers the words that its retimer sends, the lost ones too
(03_line_receive.md R96); a host receiver demaps its symbols and tells whether it is LOCKED (R195, R201).  A signal that is found in ACQ
shows in SIG_DET (R221). -/
def State.numbered (s : State) (q : QueueId) (e : QEntry) : State × QEntry :=
  match q.kind, e.data with
  | .adcFfe, .samples raw _ => (s.sampled q.inst, { e with data := .samples raw (s.lane q.inst).rxp.sampled })
  | .hostRx, .host sy bad =>
    let p := s.hostGet q.inst sy.toNat
    let s := p.2.onlyIf (decide (s.get (HOST.HSTATE_RX_STATE.f q.inst) = 1)) (fun s => s.putB (HOST.HSTATE_SIG_DET.f q.inst) (!bad))
    (s.followHost q.inst, { e with data := .host (BitVec.ofNat 128 p.1) (!s.hostLocked q.inst) })
  | _, _ => (s, e)

/-- A producer on D0 that makes its entries itself sends the next one: a row toward the line in mode T or a codeword of the RS encoders
in mode R, bits toward a host lane; the data of the command are not used, and its parity mark is the entry's (R162, R203, R208,
R214). -/
def State.makeEntry (s : State) (q : QueueId) (poison : Bool) : State :=
  match q.kind with
  | .d0Link =>
    let n := q.inst
    if s.modeR n then s.encodeSlot n poison
    else
      let p := s.port n
      let mark (es : List QEntry) : List QEntry :=
        match es with
        | e :: r => { e with poison := e.poison || poison } :: r
        | [] => []
      (s.setPort n (if p.rowTurnB then { p with rowsB := mark p.rowsB } else { p with rowsA := mark p.rowsA })).sendRows n 1
  | .hostTx =>
    match s.hostRole q.inst with
    | some (n, b) => if s.modeR n then s.makeBits n q.inst b poison else s.sendOut n b 1
    | none => s
  | _ => s

/-- A producer sends `e` (R39, R40): on a credit; without one, a producer that cannot stall loses the entry to an overflow
and any other waits. -/
def State.produce (s : State) (q : QueueId) (e : QEntry) : State :=
  if s.drainStops q then s
  else
  let p := s.numbered q e
  let s := p.1
  let e := p.2
  if s.canPush q then
    if q.kind = .d0Link ∨ q.kind = .hostTx then s.makeEntry q e.poison else s.pushQ q e
  else if q.kind = .adcFfe ∨ q.kind = .hostRx ∨ q.kind = .cmdRing then
    ((s.noteEvent (QueueId.source q)).setQueue q { s.queue q with ovf := true }).overflowed q
  else s

/-! ### Credit errors (R42, R48) -/

/-- Credit conservation holds. -/
def QueueSt.conserved (x : QueueSt) (k : QueueKind) : Bool := decide (x.credits + x.entries.length + x.transit = k.depth)

/-- An apply reads its slot from GDDR7. -/
def Apply.fetching (x : Apply) : Bool := decide (x.phase = .reading) && x.line.isNone

/-- An apply transfers to lanes of die `d`. -/
def Apply.portUse (x : Apply) (d : Nat) : Bool := decide (x.phase = .transfer) && x.left.any (fun n => decide (n / 4 = d))

/-- The fills under way end: their lines return to FREE. -/
def State.abortFills (s : State) : State :=
  s.each (s.ctx.lines.filter (fun p => decide (p.2.st = .filling))) (fun s p => s.setLine p.1 .fresh)

/-- The context command under way ends with a status, unless an apply carries it. -/
def State.abortContextCmd (s : State) (st : Status) : State :=
  match s.headOf .context with
  | some w => if s.ctx.applies.any (fun x => decide (x.cmd = some w)) then s else s.complete .context w st 0 0 0
  | none => s

/-- The codewords or cycles of `m` entries lost from queue `q`, or not found in it (R48). -/
def State.lostCycle (s : State) (q : QueueId) : State :=
  let n := q.inst
  match q.kind with
  | .ffeMlse => (s.deliverForced n).onlyIf (s.modeR n) (fun x => x.gapStart n (s.lane n).nextB .starvation)
  | .mlseDec => (s.deliverForced n).onlyIf (s.modeR n) (fun x => x.gapStart n (s.lane n).nextB .starvation)
  | .decLink => s.d0Forced n
  | .linkD0 => s.d0Forced n
  | .hostRx =>
    match s.hostRole n with
    | some (l, b) =>
      let s := s.hostSpoil n
      let bits := s.free 128
      let s := (s.freed).hostBits l b bits
      if s.modeR l then s else s.hostHalf l b bits true false
    | none => s
  | .hostTx =>
    match s.hostRole n with
    | some (l, b) => s.faultCycle n l b
    | none => s
  | _ => s

/-- The consequence of CREDIT_ERR on queue `q`, which held `m` entries. -/
def State.creditErr (s : State) (q : QueueId) (m : Nat) : State :=
  match q.kind with
  | .adcFfe => s.loseLock q.inst
  | .ctxReq => (((s.abortApplies Apply.fetching 5).abortFills).abortContextCmd .abortedFault)
  | .memRet => (((s.abortApplies Apply.fetching 5).abortFills).abortContextCmd .abortedFault)
  | .ctxPort => s.abortApplies (fun x => x.portUse q.inst) 5
  | .hostTx => s.lostCycle q
  | _ => s.each (List.range m) (fun s _ => s.lostCycle q)

/-- Queue `q` checked: a mismatch sets CREDIT_ERR and reinitialises it (R42, R47).  `lost` tells of a credit that went missing on
its way back to the producer, so that the sum falls short. -/
def State.checkCredits (s : State) (q : QueueId) (lost : Bool) : State :=
  let x := s.queue q
  if x.conserved q.kind && !lost then s
  else ((s.noteEvent (QueueId.source q)).setQueue q { x.emptied q.kind with creditErr := true }).creditErr q x.entries.length

/-- QUEUE_ENTRY: a producer sends an entry; with `takes`, the consumer takes the head; with `creditLost`, a credit is lost
on the way.  The conservation check follows. -/
def queueEntryEffect (q : QueueId) (entry : QEntry) (takes creditLost : Bool) (s : State) : State :=
  if s.queueRuns q && QueueKind.carries q.kind entry.data then
    let s := s.produce q entry
    (s.onlyIf takes (fun s => s.takeHead q)).checkCredits q creditLost
  else s

def execQueueEntry (q : QueueId) (entry : QEntry) (takes : Bool) (creditLost : Bool) (s : State) :
    Host.Outcome State Fault Refusal :=
  .next (queueEntryEffect q entry takes creditLost s)

/-! ### Starvation (R41, R48) -/

/-- The consumer of `q` is active (R41).  The list of R41 names neither the D0 to link and link to TXP queues, whose consumer counts
as active while T10 forms codewords, nor the context request queue, whose consumer, the memory controller, waits for no particular
request and never counts as active (DESIGN CHOICE, log 95). -/
def State.consumerActive (s : State) (q : QueueId) : Bool :=
  match q.kind with
  | .adcFfe => s.rxActive q.inst
  | .ffeMlse => s.rxActive q.inst
  | .mlseDec => s.rxActive q.inst
  | .decLink => s.rxActive q.inst
  | .linkD0 => s.rxActive q.inst
  | .d0Link => s.txRuns q.inst
  | .linkTxp => s.txRuns q.inst
  | .hostRx => s.hostOn q.inst && s.hostLocked q.inst
  | .hostTx => s.hostOn q.inst && s.hostLocked q.inst
  | .ctxReq => false
  | .memRet => s.ctx.applies.any Apply.fetching || s.ctx.lines.any (fun p => decide (p.2.st = .filling))
  | .ctxPort => s.ctx.applies.any (fun x => x.portUse q.inst)
  | .cmdRing => false

/-- STARVE: the active consumer finds the queue empty for `cycles` more cycles. -/
def starveEffect (q : QueueId) (cycles : Nat) (s : State) : State :=
  let x := s.queue q
  if s.queueRuns q && s.consumerActive q && x.entries.isEmpty then
    let w := x.waited + cycles
    let set := x.starveEn && decide (x.waited ≤ x.starveLimit) && decide (x.starveLimit < w)
    let s := s.onlyIf set (fun s => s.noteEvent (QueueId.source q))
    let s := s.setQueue q { x with waited := w, starve := x.starve || set }
    s.each (List.range cycles) (fun s _ => s.lostCycle q)
  else s

def execStarve (q : QueueId) (cycles : Nat) (s : State) : Host.Outcome State Fault Refusal := .next (starveEffect q cycles s)

/-! ### The monitor (R43, R44) -/

/-- The registers of queue `q`'s monitor are served (16_register_map.md R450). -/
def State.monitorServed (s : State) (q : QueueId) : Bool :=
  decide (q.inst < q.kind.instances) && s.d0Up &&
  match q.kind with
  | .adcFfe => s.laneRuns q.inst
  | .ffeMlse => s.laneRuns q.inst
  | .mlseDec => s.laneRuns q.inst
  | .decLink => s.laneRuns q.inst
  | .linkTxp => s.laneRuns q.inst
  | _ => true

/-- HWM_CLR: HWM takes the present OCC, or the new one where it rises in the same cycle. -/
def hwmClrEffect (q : QueueId) (occRises : Bool) (s : State) : State :=
  if s.monitorServed q then
    let x := s.queue q
    s.setQueue q { x with hwm := x.entries.length + natOf occRises }
  else s

def execHwmClr (q : QueueId) (occRises : Bool) (s : State) : Host.Outcome State Fault Refusal :=
  .next (hwmClrEffect q occRises s)

end Sys2Proof.Machine
end

