-- ==== Sys2Proof/Machine/Capture.lean ====
section
/-!
DEFINITION. Captures of a lane's datapath into the capture ring or the lane's capture window (03_line_receive.md R132 to
R138).
-/

namespace Sys2Proof.Machine

open Sys2Proof

/-- Bytes stored for one cycle at a capture point (R133). -/
def cycleBytes (point : Nat) : Nat :=
  match point with
  | 0 => 136 | 1 => 176 | 2 => 176 | _ => 40

/-- The capture of a command (R132) that starts now on its die; with TRIGGER 0 the trigger is the first cycle, and TRIG_TICK is the
tick at which the capture starts (DESIGN CHOICE, log 95: R135 names no stamp for TRIGGER 0). -/
def captureOf (w : List Nat) (tick rx : Nat) : CaptureSt :=
  let w1 := cmdWord w 1
  let w2 := cmdWord w 2
  { lane := bitField w1 0 3, point := bitField w1 4 2, dest := bitField w1 8 1, trigger := bitField w1 12 3
    pre := bitField w2 0 16, len := bitField w2 16 16, timeout := bitField w1 16 16, startTick := tick
    event := if bitField w1 12 3 = 0 then some tick else none, triggered := false, ended := false, stateAt := rx
    trigTick := 0, preActual := 0, changed := false, words := [] }

/-- The status with which a CAPTURE of lane `n` to `dest` cannot run (R136, R138): no memory, region gated, line die in
reset or lane disabled. -/
def State.captureStop (s : State) (n dest : Nat) : Option Status :=
  if dest = 0 ∧ s.hasD3 = false then some .noMemory
  else if s.gated (n / 2) then some .abortedPower
  else if !s.dieUp (n / 4) || !s.laneOn n then some .abortedFault
  else none

/-- The head CAPTURE of line die `d` starts, or completes at once with the status that stops it (R134). -/
def State.beginCapture (s : State) (d : Nat) : State :=
  match s.headOf (.capture d), (s.die d).capture with
  | some w, none =>
    let n := bitField (cmdWord w 1) 0 3
    match s.captureStop n (bitField (cmdWord w 1) 8 1) with
    | some st => s.complete (.capture d) w st 0 0 0
    | none => s.setDie d { s.die d with capture := some (captureOf w s.time.tick (s.rx n).code) }
  | _, _ => s

/-- The trigger, at the stamp of its event, or the timeout in its place (R134): LEN - PRE further cycles are stored. -/
def State.endWait (s : State) (d : Nat) (c : CaptureSt) (event : Option Nat) : State :=
  let c :=
    match event with
    | some t => { c with ended := true, triggered := true, trigTick := t }
    | none => { c with ended := true, triggered := false, trigTick := 0, preActual := c.words.length,
                       stateAt := (s.rx c.lane).code }
  s.setDie d { s.die d with capture := some c }

/-- The capture under way on die `d` ends without a record (R138, R51). -/
def State.abortCapture (s : State) (d : Nat) (st : Status) : State :=
  match (s.die d).capture with
  | some _ =>
    let s := s.setDie d { s.die d with capture := none }
    match s.headOf (.capture d) with
    | some w => s.complete (.capture d) w st 0 0 0
    | none => s
  | none => s

/-- The 64 header bytes of a record (R135). -/
def captureHeader (c : CaptureSt) (size : Nat) : List Nat :=
  let ws := c.words.reverse
  let first := ws.headD ⟨0, 0, false, []⟩
  let flags := natOf c.triggered + 2 * natOf (ws.any (·.poison)) + 4 * natOf (decide (c.preActual < c.pre)) + 8 * natOf c.changed
  let h := leBytes 4 size ++ [c.lane, c.point, c.trigger, flags] ++ leBytes 2 c.len ++ leBytes 2 c.preActual ++
    leBytes 2 (cycleBytes c.point) ++ [0, 0] ++ leBytes 8 first.tick ++ leBytes 8 c.trigTick ++
    [if c.point = 0 then first.subadc else 0, c.stateAt] ++ List.replicate 26 0
  h ++ leBytes 4 (crc32c h)

/-- The data bytes of a record (R135): the words stored, then one free byte for each byte of the cycles that a short PRE or
a capture without samples left unstored (log 25), and the state with those free values used. -/
def State.captureData (s : State) (c : CaptureSt) : State × List Nat :=
  let ds := c.words.reverse.flatMap (·.bytes)
  let miss := c.len * cycleBytes c.point - ds.length
  ({ s with freeCtr := s.freeCtr + miss }, ds ++ (List.range miss).map (fun i => Config.freeValue (s.freeCtr + i) % 256))

/-- Record length: header and data, rounded up to a multiple of 64 (R135). -/
def recordSize (c : CaptureSt) : Nat := 64 + (c.len * cycleBytes c.point + 63) / 64 * 64

/-- The ring offset at which a record of `size` bytes is written (R136). -/
def ringPlace (off size : Nat) : Nat := if 0x20000000 < off + size then 0 else off

/-- A captured byte as memory holds it. -/
def plainByte (b : Nat) : MByte := ⟨BitVec.ofNat 8 b, false⟩

/-! ### Commands -/

/-- CAPTURE (R132, R134): with no capture under way on the die it starts; otherwise it waits. -/
def captureEffect (die : LineDie) (s : State) : State := s.beginCapture die

def execCapture (die : LineDie) (s : State) : Host.Outcome State Fault Refusal := .next (captureEffect die s)

/-- CAPTURE_START (R134): the capture that waited behind an earlier one starts. -/
def captureStartEffect (die : LineDie) (s : State) : State := s.beginCapture die

def execCaptureStart (die : LineDie) (s : State) : Host.Outcome State Fault Refusal := .next (captureStartEffect die s)

/-- CAPTURE_TRIGGER (R134): the trigger event has occurred on the lane (log 63). -/
def captureTriggerEffect (die : LineDie) (s : State) : State :=
  match (s.die die).capture with
  | some c =>
    match c.ended, c.event with
    | false, some t => s.endWait die c (some t)
    | _, _ => s
  | none => s

def execCaptureTrigger (die : LineDie) (s : State) : Host.Outcome State Fault Refusal := .next (captureTriggerEffect die s)

/-- CAPTURE_TIMEOUT (R134): a TIMEOUT other than 0 expires before the trigger event. -/
def captureTimeoutEffect (die : LineDie) (s : State) : State :=
  match (s.die die).capture with
  | some c => if c.ended = false ∧ c.timeout ≠ 0 ∧ c.event = none then s.endWait die c none else s
  | none => s

def execCaptureTimeout (die : LineDie) (s : State) : Host.Outcome State Fault Refusal := .next (captureTimeoutEffect die s)

/-- The drain of a capture's buffer to the ring waits (R136): while memory serves no request, and while an apply reads it. -/
def State.drainWaits (s : State) (c : CaptureSt) : Bool := decide (c.dest = 0) && (!s.memServes || s.applyReading)

/-- Every word of a capture has been stored (R134). -/
def CaptureSt.full (c : CaptureSt) : Bool := c.ended && decide (c.preActual + (c.len - c.pre) ≤ c.words.length)

/-- The record of capture `c`, the head command `w` of its die, is written to the ring or the lane's window, and the command
completes with its offset and size (R135 to R137, 11_memory.md R352). -/
def State.putRecord (s : State) (die : Nat) (c : CaptureSt) (w : List Nat) : State :=
  let size := recordSize c
  let p := s.captureData c
  let data := p.2
  let rec0 := captureHeader c size ++ data
  let poisons := (c.words.reverse.flatMap (fun x => List.replicate x.bytes.length x.poison))
  let bytes := rec0 ++ List.replicate (size - rec0.length) 0
  let s := p.1.setDie die { p.1.die die with capture := none }
  let s := s.onlyIf (c.words.any (·.poison)) (fun s => s.poisonUse 6 0)
  if c.dest = 0 then
    let off := ringPlace s.mem.ringOff size
    let marked := bytes.zipIdx.map (fun q =>
      (⟨BitVec.ofNat 8 q.1, decide (64 ≤ q.2) && poisons.getD (q.2 - 64) false⟩ : MByte))
    let s := s.d3Write (0x80000000 + off) marked
    let s := { s with mem := { s.mem with ringOff := off + size } }
    s.complete (.capture die) w .ok 0 off size
  else
    let s := s.onLane c.lane (fun l =>
      { l with capWin := l.capWin.setRun 0 0 (bytes.map (BitVec.ofNat 8)) })
    s.complete (.capture die) w .ok 0 0 size

/-- CAPTURE_COMPLETE: the record of a capture whose words are all stored is wholly written.  Throttling pauses the drain to the ring
(R136, 13_thermal.md R392). -/
def captureCompleteEffect (die : LineDie) (s : State) : State :=
  match (s.die die).capture, s.headOf (.capture die) with
  | some c, some w =>
    if c.full && !s.drainWaits c then
      if c.dest = 0 then s.bgUnit 6 (fun s => s.putRecord die c w) else s.putRecord die c w
    else s
  | _, _ => s

def execCaptureComplete (die : LineDie) (s : State) : Host.Outcome State Fault Refusal := .next (captureCompleteEffect die s)

end Sys2Proof.Machine
end

