-- ==== Sys2Proof/Machine/AddrMap.lean ====
section
/-!
DEFINITION. The address map: what lies at an address of the 32-bit space (16_register_map.md R447, R448; 01_architecture.md
R46; 07_peer_contexts.md R259, R260; 09_time.md R312; 10_engine_housekeeping.md R325; 11_memory.md R338).
-/

namespace Sys2Proof.Machine

open Sys2Proof

/-- A register field found at an address: its row, the instance of its block and the element of its array. -/
structure RegHit where
  row : FRow
  inst : Nat
  idx : Nat
  deriving DecidableEq, Repr

def RegHit.fld (h : RegHit) : Fld := h.row.f h.inst h.idx

/-- What lies at a word address. -/
inductive Target where
  /-- A register with its fields. -/
  | reg (hits : List RegHit)
  /-- Word `w` (0 to 3) of a queue monitor (R43). -/
  | monitor (q : QueueId) (w : Nat)
  | cacheTag (c : Nat)
  /-- A word of the context buffer, by its byte offset. -/
  | ctxBuf (off : Nat)
  | entryStat (p : Nat)
  /-- A word of the staging buffer. -/
  | staging (off : Nat)
  /-- A word of the capture window of a lane. -/
  | capWin (n off : Nat)
  /-- A word of the HKA result ring. -/
  | hkRing (i : Nat)
  /-- A word of the directory window: way (2 is the stash), entry, upper word. -/
  | dir (way i : Nat) (hi : Bool)
  /-- A word of the GDDR7 window that D3 backs. -/
  | mem (a : Nat)
  /-- An assigned address that reads 0 and ignores writes in this instance (R448). -/
  | quiet
  /-- An unassigned address (R12). -/
  | unassigned
  deriving DecidableEq, Repr

/-- The element of a row's array that lies at `a`, for instance `n` of its block. -/
def FRow.at (r : FRow) (n a : Nat) : Option Nat :=
  let b := r.blk.base n + r.off
  if a < b then none
  else if a = b then some 0
  else if 0 < r.stride ∧ (a - b) % r.stride = 0 ∧ (a - b) / r.stride < r.count then some ((a - b) / r.stride)
  else none

/-- The fields of `rows` at `a`, for instance `n`. -/
def hitsOf (rows : List FRow) (n a : Nat) : List RegHit :=
  rows.filterMap (fun r => (r.at n a).map (fun i => ⟨r, n, i⟩))

/-- A register target, or an unassigned address where no field lies. -/
def regOr (hits : List RegHit) : Target := if hits.isEmpty then .unassigned else .reg hits

/-- Words `w` of monitor `q`. -/
def monitorAt (q : QueueId) (off : Nat) : Target := .monitor q (off % 16 / 4)

/-- The rows of a tile's space (R140, R173, R192, R417): the common and test words, and the layout of the function that the
tile holds now; the MLSE layout of a pool tile that holds no cluster role is the noise predictor's. -/
def State.tileRows (s : State) (t : Nat) : List FRow :=
  let fn := s.tileFn t
  let common := TILE.rows.filter (fun r => decide (r.off < 0x10))
  if fn = 1 then common ++ [TILE.TAP_COEF, TILE.TAP_LOAD_INDEX, TILE.TAP_LOAD_VALUE, TILE.SEG_SEG_START, TILE.SEG_ATTACHED]
  else if fn = 2 then
    (match s.actsAs t with
     | some _ => common ++ [TILE.LVL_LEVEL]
     | none => common ++ [TILE.NP_P1, TILE.NP_P2, TILE.NP_ATTACHED])
  else if fn = 3 then common ++ [TILE.DEC_STAT_PARITY, TILE.DEC_CW_CW, TILE.DEC_UNC_UNC, TILE.DEC_CORR_CORR]
  else if fn = 4 then
    common ++ [TILE.TXTAP_COEF, TILE.TXSHADOW_COEF, TILE.TXCOMMIT_COMMIT, TILE.TX_CW_CW, TILE.TX_POISON_POISON]
  else common

/-- What lies at offset `o` of the block of line lane `n` (R139, R448). -/
def State.lineTarget (s : State) (n o : Nat) : Target :=
  let a := 0x80000 + 0x4000 * n + o
  if o = 0x38 ∧ n % 2 = 1 then .quiet
  else if 0x200 ≤ o ∧ o < 0x250 then
    monitorAt ⟨([.adcFfe, .ffeMlse, .mlseDec, .decLink, .linkTxp] : List QueueKind).getD ((o - 0x200) / 16) .adcFfe, n⟩ o
  else if o < 0x800 then regOr (hitsOf LINE.rows n a)
  else if o < 0x1400 then
    let t := clusterTile n ((o - 0x800) / 0x100)
    regOr (hitsOf (s.tileRows t) t a)
  else if o < 0x1600 ∧ n % 2 = 0 then
    let t := poolTile (n / 2) ((o - 0x1400) / 0x100)
    regOr (hitsOf (s.tileRows t) t a)
  else if 0x2000 ≤ o then .capWin n (o - 0x2000)
  else .unassigned

/-- What lies at offset `o` of the NUTMEG block (R46, R222, R223). -/
def nutmegTarget (o : Nat) : Target :=
  let a := 0x50000 + o
  if 0x100 ≤ o ∧ o < 0x200 then
    monitorAt ⟨if (o - 0x100) / 16 % 2 = 0 then .linkD0 else .d0Link, (o - 0x100) / 0x20⟩ o
  else if 0x1000 ≤ o ∧ o < 0x1800 then regOr (hitsOf PORT.rows ((o - 0x1000) / 0x100) a)
  else regOr (hitsOf XBAR.rows 0 a)

/-- What lies at offset `o` of the CTX block (R46, R258, R259). -/
def ctxTarget (o : Nat) : Target :=
  if 0x200 ≤ o ∧ o < 0x240 then
    monitorAt (match (o - 0x200) / 16 with
      | 0 => ⟨.ctxReq, 0⟩
      | 1 => ⟨.memRet, 0⟩
      | 2 => ⟨.ctxPort, 0⟩
      | _ => ⟨.ctxPort, 1⟩) o
  else if 0x1000 ≤ o ∧ o < 0x1400 then .cacheTag ((o - 0x1000) / 4)
  else if 0x4000 ≤ o ∧ o < 0x8000 then .ctxBuf (o - 0x4000)
  else regOr (hitsOf CTX.rows 0 (0x30000 + o))

/-- What lies at offset `o` of the HOST block (R221, R46). -/
def hostTarget (o : Nat) : Target :=
  let h := o / 0x400
  let p := o % 0x400
  if 16 ≤ h then .unassigned
  else if 0x200 ≤ p ∧ p < 0x220 then monitorAt ⟨if p < 0x210 then .hostRx else .hostTx, h⟩ p
  else regOr (hitsOf HOST.rows h (0x40000 + o))

/-- What lies at offset `o` of the HK block (R336, R325). -/
def hkTarget (o : Nat) : Target :=
  let a := 0xB0000 + o
  if o < 0x1000 then regOr (hitsOf HKD.rows 0 a)
  else if o < 0x2000 then
    regOr (hitsOf (HKA.rows.filter (fun r => decide (r.blk = .hka))) 0 a ++
      (if o < 0x1800 then hitsOf (HKA.rows.filter (fun r => decide (r.blk = .hkac))) ((o - 0x1000) / 0x400) a else []))
  else if o < 0x3000 then regOr (hitsOf FILT.rows 0 a)
  else if o < 0x4000 then regOr (hitsOf OE.rows 0 a)
  else if o < 0x8000 then .hkRing ((o - 0x4000) / 4)
  else .unassigned

/-- What lies at offset `o` of the PERF block (R443): counters 32 to 63 of a line-die bank are unassigned, and its OVF_HI is
quiet. -/
def perfTarget (o : Nat) : Target :=
  let d := o / 0x1000
  let p := o % 0x1000
  if 3 ≤ d then .unassigned
  else if 0 < d ∧ p = 0x814 then .quiet
  else if 0 < d ∧ 0x200 ≤ p ∧ p < 0x400 then .unassigned
  else regOr (hitsOf PERF.rows d (0xF0000 + o))

/-- What lies in the two memory windows (R260, R338). -/
def windowTarget (a : Nat) : Target :=
  if 0x10000000 ≤ a ∧ a < 0x10080000 then .dir 0 ((a - 0x10000000) / 8) (decide (a % 8 = 4))
  else if 0x10080000 ≤ a ∧ a < 0x10100000 then .dir 1 ((a - 0x10080000) / 8) (decide (a % 8 = 4))
  else if 0x10100000 ≤ a ∧ a < 0x10100040 then .dir 2 ((a - 0x10100000) / 8) (decide (a % 8 = 4))
  else if d3Backed a then .mem a
  else .unassigned

/-- What lies at the word address `a` (R447). -/
def State.target (s : State) (a : Nat) : Target :=
  if a < 0x10000 then
    if 0x800 ≤ a ∧ a < 0xC00 then regOr (hitsOf PWR.rows 0 a)
    else if 0x300 ≤ a ∧ a < 0x310 then monitorAt ⟨.cmdRing, 0⟩ a
    else regOr (hitsOf GLOBAL.rows 0 a)
  else if a < 0x20000 then regOr (hitsOf INTC.rows 0 a)
  else if a < 0x30000 then
    if 0x24000 ≤ a ∧ a < 0x28000 then .entryStat ((a - 0x24000) / 4) else regOr (hitsOf TIME.rows 0 a)
  else if a < 0x40000 then ctxTarget (a - 0x30000)
  else if a < 0x50000 then hostTarget (a - 0x40000)
  else if a < 0x60000 then nutmegTarget (a - 0x50000)
  else if a < 0x80000 then .unassigned
  else if a < 0xA0000 then s.lineTarget ((a - 0x80000) / 0x4000) ((a - 0x80000) % 0x4000)
  else if a < 0xB0000 then
    if a < 0xA1000 then regOr (hitsOf BCN.rows ((a - 0xA0000) / 0x200) a)
    else if a < 0xA1400 then regOr (hitsOf SYN.rows ((a - 0xA1000) / 0x100) a)
    else .unassigned
  else if a < 0xC0000 then hkTarget (a - 0xB0000)
  else if a < 0xD0000 then regOr (hitsOf MEM.rows 0 a)
  else if a < 0xD0100 then regOr (hitsOf THERM.rows 0 a)
  else if a < 0xE0000 then regOr (hitsOf BIST.rows 0 a)
  else if a < 0xF0000 then
    if 0xE8000 ≤ a then .staging (a - 0xE8000) else regOr (hitsOf LOADER.rows 0 a)
  else if a < 0xF8000 then perfTarget (a - 0xF0000)
  else if a < 0x100000 then regOr (hitsOf DBG.rows 0 a)
  else windowTarget a

/-- The register at `a` has a field of access code `c`. -/
def State.hasAcc (s : State) (a : Nat) (c : Acc) : Bool :=
  match s.target a with
  | .reg hits => hits.any (fun h => decide (h.row.acc = c))
  | _ => false

/-- The register at `a` holds a W1C or WO field (the device has no W1S field), so that a REGINIT entry needs a full mask
(R67): queue monitors have both. -/
def State.needsFullMask (s : State) (a : Nat) : Bool :=
  match s.target a with
  | .monitor _ w => w == 2 || w == 3
  | _ => s.hasAcc a .w1c || s.hasAcc a .wo

/-- The die that serves a register address: 0 is D0, 1 and 2 the line dies (R447). -/
def dieOf (a : Nat) : Nat :=
  if 0x80000 ≤ a ∧ a < 0xA0000 then 1 + (a - 0x80000) / 0x10000
  else if 0xF1000 ≤ a ∧ a < 0xF3000 then (a - 0xF0000) / 0x1000
  else 0

/-- The RWL fields of the die are locked (R13, R78). -/
def State.dieLocked (s : State) (d : Nat) : Bool := s.loader.locks.getD d false

/-- The register at `a` holds a locked RWL field. -/
def State.lockedAt (s : State) (a : Nat) : Bool := s.dieLocked (dieOf a) && s.hasAcc a .rwl

/-- The code of an access's origin (R459). -/
def originCode (o : Origin) : Nat :=
  match o with
  | .mgmt => 0 | .bulk => 1 | .core => 2 | .loader => 3

/-- The locked-write source (R13, R458): the address and origin are latched unless the bit is already set. -/
def State.lockedWrite (s : State) (a : Nat) (o : Origin) : State :=
  let s1 := s.raise 289
  if s.getB GLOBAL.G_EVT_LOCKED_WRITE.f then s1
  else (s1.put GLOBAL.LOCKED_ADDR_ADDR.f a).put GLOBAL.LOCKED_INFO_ORIGIN.f (originCode o)

/-- The unmapped-access source (R12, R458), latched in the same way. -/
def State.unmapped (s : State) (a : Nat) (o : Origin) (write : Bool) : State :=
  let s1 := s.raise 288
  if s.getB GLOBAL.G_EVT_UNMAPPED.f then s1
  else ((s1.put GLOBAL.UNMAPPED_ADDR_ADDR.f a).put GLOBAL.UNMAPPED_INFO_ORIGIN.f (originCode o)).putB
    GLOBAL.UNMAPPED_INFO_WRITE.f write

/-- The region that a register address belongs to, where it belongs to one: line lanes with their tiles, ports, beacon lanes
and beacon synthesisers. -/
def regionOfAddr (a : Nat) : Option Nat :=
  if 0x80000 ≤ a ∧ a < 0xA0000 then some ((a - 0x80000) / 0x8000)
  else if 0x51000 ≤ a ∧ a < 0x51800 then some ((a - 0x51000) / 0x200)
  else if 0xA0000 ≤ a ∧ a < 0xA1000 then some ((a - 0xA0000) / 0x400)
  else if 0xA1000 ≤ a ∧ a < 0xA1400 then some ((a - 0xA1000) / 0x100)
  else none

end Sys2Proof.Machine
end

