-- ==== Sys2Proof/Machine/Cal.lean ====
section
/-!
DEFINITION. Reads of the MRAM and the calibration record: its check, the two copies, the values in use, RELOAD
(11_memory.md R353 to R359).
-/

namespace Sys2Proof.Machine

open Sys2Proof

/-- A byte of the MRAM (R353); an unlisted byte is 0 (log 11). -/
def State.mramByte (s : State) (a : Nat) : Byte := s.mram.bytes.get 0 a

/-- `n` bytes of the MRAM from offset `a` (log 74). -/
def State.mramRun (s : State) (a n : Nat) : List Nat := (List.range n).map (fun i => (s.mramByte (a + i)).toNat)

/-- The state lists no byte of the MRAM area of `n` bytes at `a`. -/
def State.mramBlank (s : State) (a n : Nat) : Bool := !s.mram.bytes.any (fun e => decide (a ≤ e.1) && decide (e.1 < a + n))

/-- The words of the area of `n` bytes at `a` that show the error `e`. -/
def State.mramFaults (s : State) (a n : Nat) (e : WordErr) : Nat :=
  (s.mram.err.filter (fun p => decide (a / 8 ≤ p.1) && decide (8 * p.1 < a + n) && decide (p.2 = e))).length

/-- A word of the area is delivered poisoned (R354) (log 74). -/
def State.mramPoison (s : State) (a n : Nat) : Bool := decide (0 < s.mramFaults a n .multi)

/-- A byte of the MRAM is delivered poisoned (R354). -/
def State.mramBad (s : State) (a : Nat) : Bool := decide (s.mram.err.get .clean (a / 8) = .multi)

/-- The area of `n` bytes at `a` is read (R354): each corrected word counts, and is not rewritten; an uncorrectable one sets MRAM_UE. -/
def State.mramScan (s : State) (a n : Nat) : State :=
  (s.addTo LOADER.MRAM_CE_CNT.f (s.mramFaults a n .single)).onlyIf (s.mramPoison a n) (fun s => s.raise 344)

/-- Words of the area at `a` lose what `es` says of each, by number: it stays so until the word is written (log 74). -/
def State.mramUpsets (s : State) (a : Nat) (es : List (Nat × WordErr)) : State :=
  { s with mram := { s.mram with
      err := es.foldl (fun m e => m.set .clean (a / 8 + e.1) (worseErr e.2 (m.get .clean (a / 8 + e.1)))) s.mram.err } }

/-- Bytes written to the MRAM: the words written hold no error then. -/
def State.mramWrite (s : State) (a : Nat) (bs : List Nat) : State :=
  { s with mram := {
      bytes := s.mram.bytes.setRun 0 a (bs.map (BitVec.ofNat 8))
      err := s.mram.err.filter (fun p => !(decide (a / 8 ≤ p.1) && decide (8 * p.1 < a + bs.length))) } }

/-! ### The calibration record -/

/-- An item of the calibration table: number, count of indices, limits (R356). -/
structure CalItem where
  item : Nat
  count : Nat
  lo : Int
  hi : Int
  deriving DecidableEq, Repr

/-- The table of R356. -/
def calItems : List CalItem :=
  [⟨1, 8, -32, 32⟩, ⟨2, 512, -64, 64⟩, ⟨3, 8, -40, 40⟩, ⟨4, 8, -16, 16⟩, ⟨5, 48, -100, 100⟩, ⟨6, 48, -16, 16⟩,
   ⟨7, 2, -100, 100⟩, ⟨8, 2, -16, 16⟩, ⟨9, 24, -40, 40⟩, ⟨10, 1, -32, 32⟩]

/-- The key of an item at an index in the table of values. -/
def calKey (item idx : Nat) : Nat := 65536 * item + idx

/-- Every key of the table, rising. -/
def calKeys : List (CalItem × Nat) := calItems.flatMap (fun c => (List.range c.count).map (fun i => (c, i)))

/-- Entry `i` of a record: key and value (R355). -/
def calEntry (b : List Nat) (i : Nat) : Nat × Int :=
  let e := (b.drop (16 + 8 * i)).take 8
  (calKey (leNat (e.take 2)) (leNat ((e.drop 2).take 2)), signedOf 32 (leNat (e.drop 4)))

/-- A record passes every condition of R357 but the poison mark: CRC, MAGIC, FORMAT, SERIAL, padding, and every item at
every index of its range exactly once, inside its limits (log 75). -/
def calRecordOk (b : List Nat) (serial : Nat) : Bool :=
  let n := leNat ((b.drop 6).take 2)
  let es := (List.range n).map (fun i => calEntry b i)
  decide (leNat (b.take 4) = 0x534B4341) && decide (b.getD 4 0 = 1) && decide (leNat ((b.drop 8).take 8) = serial) &&
    decide (leNat ((b.drop 0xFFFC).take 4) = crc32c (b.take 0xFFFC)) && decide (n = calKeys.length) &&
    ((b.drop (16 + 8 * n)).take (0xFFFC - (16 + 8 * n))).all (· == 0) &&
    calKeys.all (fun c => (es.filter (fun e => decide (e.1 = calKey c.1.item c.2))).length == 1) &&
    es.all (fun e => calKeys.any (fun c => decide (e.1 = calKey c.1.item c.2) && decide (c.1.lo ≤ e.2) && decide (e.2 ≤ c.1.hi)))

/-- The values of a passing record, in canonical form. -/
def calValues (b : List Nat) : SMap Int :=
  ((List.range calKeys.length).map (fun i => calEntry b i)).foldl (fun m e => m.set 0 e.1 e.2) []

/-- The values that the factory wrote, where the state lists no record: free within the limits of R356 (log 11). -/
def factoryValues (copy : Nat) : SMap Int :=
  (calKeys.map (fun c =>
    (calKey c.1.item c.2, c.1.lo + ((Config.factoryCal copy (calKey c.1.item c.2) % ((c.1.hi - c.1.lo).toNat + 1) : Nat) : Int)))).filter
    (fun e => decide (e.2 ≠ 0))

/-- The offset of the primary (0) and of the mirror (1) (R353). -/
def calBase (copy : Nat) : Nat := 0x700000 + 0x10000 * copy

/-- The values of a copy that passes (R357). -/
def State.calCopy (s : State) (copy : Nat) : Option (SMap Int) :=
  if s.mramPoison (calBase copy) 65536 then none
  else if s.mramBlank (calBase copy) 65536 then some (factoryValues copy)
  else if calRecordOk (s.mramRun (calBase copy) 65536) s.serial.toNat then some (calValues (s.mramRun (calBase copy) 65536))
  else none

/-- A copy is read: its reports (R354), and the consumption of poison (R352). -/
def State.calRead (s : State) (copy : Nat) : State :=
  let s := s.mramScan (calBase copy) 65536
  s.onlyIf (s.mramPoison (calBase copy) 65536) (fun s => s.poisonUse 8 0)

/-- An item that a line die of lane `n / 4 = d` takes (R356). -/
def calOfDie (d k : Nat) : Bool :=
  let item := k / 65536
  let idx := k % 65536
  (decide (item = 1 ∨ item = 3 ∨ item = 4) && decide (idx / 4 = d)) || (decide (item = 2) && decide (idx / 256 = d))

/-- A new set of values takes effect (R358); the line items of a die with a partial-reload outage wait for its end
(R359). -/
def State.applyCal (s : State) (m : SMap Int) : State :=
  match s.loader.part with
  | some p =>
    let d := p.region / 2
    let kept := s.cal.filter (fun e => calOfDie d e.1)
    let now := kept.foldl (fun m e => m.set 0 e.1 e.2) (m.drop (fun k => calOfDie d k))
    { s with cal := now, loader := { s.loader with calDue := some m } }
  | none => { s with cal := m }

/-- Line items that waited for the end of an outage take effect (R359). -/
def State.settleCal (s : State) : State :=
  match s.loader.calDue with
  | some m => { s with cal := m, loader := { s.loader with calDue := none } }
  | none => s

/-- The check of the copies in the order of R357: the source of the values, and the values (log 75). -/
def State.calCheck (s : State) : State × Option (Nat × SMap Int) :=
  let s := s.calRead 0
  match s.calCopy 0 with
  | some m => (s, some (1, m))
  | none =>
    let s := s.calRead 1
    match s.calCopy 1 with
    | some m => (s, some (2, m))
    | none => (s, none)

/-- CAL_SRC of a passing copy, with CAL_FALLBACK for the mirror (R357). -/
def State.useCal (s : State) (src : Nat) (m : SMap Int) : State :=
  ((s.put LOADER.CAL_STAT_CAL_SRC.f src).onlyIf (decide (src = 2)) (fun s => s.raise 342)).applyCal m

/-- The check at the end of D0 reset (R357): with no passing copy every item is 0 and CAL_NONE is asserted. -/
def State.calAtReset (s : State) : State :=
  match s.calCheck with
  | (s, some (src, m)) => s.useCal src m
  | (s, none) => (({ s with cal := [] }).put LOADER.CAL_STAT_CAL_SRC.f 0).raise 345

/-- A reload (R358): with no passing copy the present values stand and CAL_RELOAD_FAIL is set (log 75). -/
def State.reloadCal (s : State) : State :=
  match s.calCheck with
  | (s, some (src, m)) => s.useCal src m
  | (s, none) => s.raise 343

/-- The words of the two copies have lost what the lists say since they were last read (R354; log 74). -/
def State.calUpsets (s : State) (primary mirror : List (Nat × WordErr)) : State :=
  (s.mramUpsets (calBase 0) primary).mramUpsets (calBase 1) mirror

/-- RELOAD (R358). -/
def reloadEffect (primary mirror : List (Nat × WordErr)) (s : State) : State :=
  if s.d0Up then (s.calUpsets primary mirror).reloadCal else s

def execReload (primary : List (Nat × WordErr)) (mirror : List (Nat × WordErr)) (s : State) : Host.Outcome State Fault Refusal :=
  .next (reloadEffect primary mirror s)

end Sys2Proof.Machine
end

