-- ==== Sys2Proof/Machine/Digest.lean ====
section
/-!
DEFINITION. The digest and the signature check that an image must pass (02_bitstream.md R74): SHA-384 of FIPS 180-4 and the
ECDSA verification of FIPS 186-5 on curve P-384.  The rule names the two standards; their text is PRESUMED (log 23).
-/

namespace Sys2Proof.Machine

/-! ### SHA-384 -/

/-- The first `n` primes from `k` on. -/
def primesFrom (k n fuel : Nat) : List Nat :=
  match fuel with
  | 0 => []
  | f + 1 =>
    if n = 0 then []
    else if (List.range k).all (fun d => decide (d < 2) || decide (k % d ≠ 0)) then k :: primesFrom (k + 1) (n - 1) f
    else primesFrom (k + 1) n f

/-- The integer cube root of `v`, built from bit `i - 1` down on top of `r`. -/
def cubeRoot (v r i : Nat) : Nat :=
  match i with
  | 0 => r
  | j + 1 => if (r + 2 ^ j) ^ 3 ≤ v then cubeRoot v (r + 2 ^ j) j else cubeRoot v r j

/-- The round constants: 64 bits of the fractional parts of the cube roots of the first 80 primes. -/
def shaConsts : List Nat := (primesFrom 2 80 410).map (fun p => cubeRoot (p * 2 ^ 192) 0 70 % 2 ^ 64)

/-- The initial value: 64 bits of the fractional parts of the square roots of the ninth to sixteenth primes. -/
def shaInit : List Nat := ((primesFrom 2 16 60).drop 8).map (fun p => Nat.sqrt (p * 2 ^ 128) % 2 ^ 64)

/-- A 64-bit word rotated right. -/
def rotr64 (n x : Nat) : Nat := x / 2 ^ n + x % 2 ^ n * 2 ^ (64 - n)

/-- The message schedule continued by `k` words; `w` is newest first. -/
def shaSchedule (w : List Nat) (k : Nat) : List Nat :=
  match k with
  | 0 => w
  | j + 1 =>
    let a := w.getD 14 0
    let b := w.getD 1 0
    let s0 := rotr64 1 a ^^^ rotr64 8 a ^^^ (a / 2 ^ 7)
    let s1 := rotr64 19 b ^^^ rotr64 61 b ^^^ (b / 2 ^ 6)
    shaSchedule ((w.getD 15 0 + s0 + w.getD 6 0 + s1) % 2 ^ 64 :: w) j

/-- One round over the eight working words, with schedule word and constant `x`. -/
def shaRound (v : List Nat) (x : Nat) : List Nat :=
  match v with
  | [a, b, c, d, e, f, g, h] =>
    let t1 := h + (rotr64 14 e ^^^ rotr64 18 e ^^^ rotr64 41 e) + ((e &&& f) ^^^ ((e ^^^ (2 ^ 64 - 1)) &&& g)) + x
    let t2 := (rotr64 28 a ^^^ rotr64 34 a ^^^ rotr64 39 a) + ((a &&& b) ^^^ (a &&& c) ^^^ (b &&& c))
    [(t1 + t2) % 2 ^ 64, a, b, c, (d + t1) % 2 ^ 64, e, f, g]
  | _ => v

/-- One 128-byte block into the chaining value. -/
def shaBlock (h : List Nat) (block : List Nat) : List Nat :=
  let w16 := (List.range 16).map (fun i => beNat ((block.drop (8 * i)).take 8))
  let w := (shaSchedule w16.reverse 64).reverse
  let v := (w.zip shaConsts).foldl (fun v p => shaRound v (p.1 + p.2)) h
  (h.zip v).map (fun p => (p.1 + p.2) % 2 ^ 64)

/-- The message padded to a multiple of 128 bytes. -/
def shaPad (m : List Nat) : List Nat :=
  let z := (239 - m.length % 128) % 128
  m ++ [0x80] ++ List.replicate z 0 ++ (List.range 16).map (fun i => 8 * m.length / 256 ^ (15 - i) % 256)

/-- The blocks of a padded message into the chaining value. -/
def shaBlocks (h m : List Nat) (k : Nat) : List Nat :=
  match k with
  | 0 => h
  | j + 1 => shaBlocks (shaBlock h (m.take 128)) (m.drop 128) j

/-- The SHA-384 digest of bytes, as one number of its 48 bytes. -/
def sha384 (m : List Nat) : Nat :=
  let p := shaPad m
  ((shaBlocks shaInit p (p.length / 128)).take 6).foldl (fun a x => a * 2 ^ 64 + x) 0

/-! ### ECDSA on P-384 -/

/-- The field prime, the group order, the coefficient b and the base point of P-384. -/
def p384 : Nat := 2 ^ 384 - 2 ^ 128 - 2 ^ 96 + 2 ^ 32 - 1
def n384 : Nat := 0xffffffffffffffffffffffffffffffffffffffffffffffffc7634d81f4372ddf581a0db248b0a77aecec196accc52973
def b384 : Nat := 0xb3312fa7e23ee7e4988e056be3f82d19181d9c6efe8141120314088f5013875ac656398d8a2ed19d2a85c8edd3ec2aef
def g384 : Nat × Nat :=
  (0xaa87ca22be8b05378eb1c71ef320ad746e1d3b628ba79b9859f741e082542a385502f25dbf55296c3a545e3872760ab7,
   0x3617de4a96262c6f5d9e98bf9292dc29f8f41dbd289a147ce9da3113b5f0b8c00a60b1ce1d7e819d7a431d7c90ea0e5f)

/-- `a` to the power `e`, of at most `k` bits, modulo `m`. -/
def powMod (m a e k : Nat) : Nat :=
  match k with
  | 0 => 1 % m
  | j + 1 => let h := powMod m (a * a % m) (e / 2) j; if e % 2 = 1 then h * a % m else h

/-- The inverse modulo a prime of 384 bits. -/
def invMod (m a : Nat) : Nat := powMod m (a % m) (m - 2) 384

/-- A difference in the field. -/
def subP (a b : Nat) : Nat := (a + p384 - b) % p384

/-- A point of the curve as (x z^2, y z^3, z); z is 0 at infinity. -/
structure EcPoint where
  x : Nat
  y : Nat
  z : Nat

def EcPoint.infinity : EcPoint := ⟨1, 1, 0⟩

/-- Twice a point. -/
def EcPoint.double (a : EcPoint) : EcPoint :=
  let d := a.z * a.z % p384
  let g := a.y * a.y % p384
  let b := a.x * g % p384
  let m := 3 * subP a.x d * (a.x + d) % p384
  let x := subP (m * m) (8 * b % p384)
  ⟨x, subP (m * subP (4 * b) x) (8 * g * g % p384), 2 * a.y * a.z % p384⟩

/-- The sum of two points. -/
def EcPoint.add (a b : EcPoint) : EcPoint :=
  if a.z = 0 then b
  else if b.z = 0 then a
  else
    let za := a.z * a.z % p384
    let zb := b.z * b.z % p384
    let u := a.x * zb % p384
    let s := a.y * b.z * zb % p384
    let h := subP (b.x * za) u
    let r := subP (b.y * a.z * za) s
    if h = 0 then if r = 0 then a.double else .infinity
    else
      let h2 := h * h % p384
      let h3 := h2 * h % p384
      let v := u * h2 % p384
      let x := subP (subP (r * r) h3) (2 * v % p384)
      ⟨x, subP (r * subP v x) (s * h3 % p384), a.z * b.z * h % p384⟩

/-- The multiple `e`, of at most `k` bits, of a point. -/
def EcPoint.mul (a : EcPoint) (e k : Nat) : EcPoint :=
  match k with
  | 0 => .infinity
  | j + 1 => let h := a.double.mul (e / 2) j; if e % 2 = 1 then a.add h else h

/-- The point of a 97-byte uncompressed public key, given as a number, where it is a point of the curve. -/
def ecPoint (key : Nat) : Option EcPoint :=
  let x := key / 2 ^ 384 % 2 ^ 384
  let y := key % 2 ^ 384
  if key / 2 ^ 768 = 4 ∧ x < p384 ∧ y < p384 ∧ y * y % p384 = (x * x * x + (p384 - 3) * x + b384) % p384 then some ⟨x, y, 1⟩
  else none

/-- The signature (SIG_R, SIG_S), 48 bytes each in one number, verifies over digest `e` under public key `key`. -/
def ecdsaVerify (key e sig : Nat) : Bool :=
  let r := sig / 2 ^ 384
  let t := sig % 2 ^ 384
  match ecPoint key with
  | none => false
  | some q =>
    if 0 < r ∧ r < n384 ∧ 0 < t ∧ t < n384 then
      let w := invMod n384 t
      let v := ((⟨g384.1, g384.2, 1⟩ : EcPoint).mul (e * w % n384) 384).add (q.mul (r * w % n384) 384)
      decide (v.z ≠ 0) && decide (v.x * invMod p384 (v.z * v.z) % p384 % n384 = r)
    else false

end Sys2Proof.Machine
end

