-- ==== Sys2Proof/Machine/Entry.lean ====
section
/-!
DEFINITION. Schedule entries: their fields, validity and times, and the positions of the table (09_time.md R302 to R305).
-/

namespace Sys2Proof.Machine

/-! ### Fields of the 16 bytes of an entry (R302) -/

def entrySec (b : List Nat) : Nat := leNat (b.take 6)
def entryNs (b : List Nat) : Nat := leNat (span b 6 9)
def entryAction (b : List Nat) : Nat := b.getD 10 0 % 8
def entryEnable (b : List Nat) : Bool := bitAt (b.getD 10 0) 3
def entryEpoch (b : List Nat) : Nat := b.getD 10 0 / 16 % 16
def entryGroup (b : List Nat) : Nat := b.getD 11 0
def entryOperand (b : List Nat) : Nat := leNat (span b 12 15)

/-- The time of an entry in the units of the time base. -/
def entryTime (b : List Nat) : Nat := timeOf (entrySec b) (entryNs b) 0

/-- An entry is valid (R303). -/
def entryOk (b : List Nat) : Bool :=
  let op := entryOperand b
  decide (entryNs b ≤ 999999999) &&
  match entryAction b with
  | 1 => descOk (entryGroup b)
  | 2 => descOk (entryGroup b) && op == 0
  | 3 => descOk (entryGroup b) && op == 0
  | 4 => descOk (entryGroup b) && decide (op < 1024)
  | 5 => entryGroup b == 0 && decide (op < 256)
  | _ => false

/-! ### The table -/

def State.pos (s : State) (p : Nat) : SchedPos := s.sched.pos.get .empty p
def State.setPos (s : State) (p : Nat) (x : SchedPos) : State :=
  { s with sched := { s.sched with pos := s.sched.pos.set .empty p x } }

/-- Two microseconds in the units of the time base. -/
def dueUnits : Nat := 2000 * nsUnits

/-- A position is due (R303): its time lies within 2 µs of now, or has passed while it is PENDING. -/
def State.due (s : State) (p : Nat) : Bool :=
  let x := s.pos p
  let t := entryTime x.bytes
  if x.st = 0 then false
  else if s.now < t then decide (t < s.now + dueUnits) else decide (x.st = 1) || decide (s.now < t + dueUnits)

/-- The PENDING positions whose entries satisfy `q`, in ascending order. -/
def State.pendingWhere (s : State) (q : Nat → SchedPos → Bool) : List Nat :=
  (s.sched.pos.filter (fun e => decide (e.2.st = 1) && q e.1 e.2)).map (·.1)

end Sys2Proof.Machine
end

