-- ==== Sys2Proof/Machine/Image.lean ====
section
/-!
DEFINITION. The configuration container: header, section table, section layouts, and the loader's checks in the order of
R75 (02_bitstream.md R57 to R75, R486); the factory image (R92).
-/

namespace Sys2Proof.Machine

open Sys2Proof

/-- The bytes a check reads: a length that bounds them, the byte at an offset, its poison mark. -/
structure ImgSrc where
  bytes : List Nat
  poison : List Nat
  deriving DecidableEq, Repr

/-- What a container is checked as (R61, R75). -/
inductive ImgUse where
  /-- A partial image in staging, with the LENGTH of its command. -/
  | part (len : Nat)
  /-- The image of a slot at boot: 1 slot A, 2 slot B, 3 factory slot 0. -/
  | boot (slot : Nat)
  /-- The content of a slot at SLOT_END: the bytes appended. -/
  | slotEnd (len : Nat)
  deriving DecidableEq, Repr

/-- The bytes a container's header could be read from: fewer than 64 only for a command that supplied fewer. -/
def ImgUse.supplied (u : ImgUse) : Option Nat :=
  match u with
  | .part n => some n
  | .slotEnd n => some n
  | .boot _ => none

def ImgUse.full (u : ImgUse) : Bool :=
  match u with
  | .part _ => false
  | _ => true

/-- The limit on IMAGE_LENGTH (R61). -/
def ImgUse.limit (u : ImgUse) : Nat :=
  match u with
  | .part _ => 32768
  | .boot 3 => 1048576
  | _ => 3145728

/-- A byte read carries the poison mark. -/
def ImgSrc.bad (g : ImgSrc) (lo n : Nat) : Bool := g.poison.any (fun p => decide (lo ≤ p) && decide (p < lo + n))

/-- `n` bytes from offset `lo`. -/
def ImgSrc.run (g : ImgSrc) (lo n : Nat) : List Nat := (g.bytes.drop lo).take n

/-- The little-endian field of `n` bytes at offset `lo` of `b` (R6). -/
def leField (b : List Nat) (lo n : Nat) : Nat := leNat ((b.drop lo).take n)

/-! ### Header and table -/

/-- R57: HDR_CRC, reserved bytes, FLAGS. -/
def headerOk (h : List Nat) : Bool :=
  decide (h.length = 64) && decide (crc32c (h.take 0x3C) = leField h 0x3C 4) && allZero (span h 0x28 0x3B) &&
    decide (leField h 0x0E 2 < 4)

/-- R61: TYPE and REGION. -/
def typeOk (h : List Nat) (full : Bool) : Bool :=
  if full then decide (h.getD 0x0B 0 = 1) && decide (h.getD 0x0C 0 = 0xFF)
  else decide (h.getD 0x0B 0 = 2) && decide (h.getD 0x0C 0 < 4)

/-- One entry of the section table (R59). -/
structure TabEntry where
  typ : Nat
  region : Nat
  off : Nat
  len : Nat
  crc : Nat
  reserved : Nat
  deriving DecidableEq, Repr

/-- Entry `i` of the table, whose bytes are `t`. -/
def tabEntry (t : List Nat) (i : Nat) : TabEntry :=
  let e := (t.drop (16 * i)).take 16
  { typ := leField e 0 2, region := e.getD 2 0, off := leField e 4 4, len := leField e 8 4, crc := leField e 0xC 4,
    reserved := e.getD 3 0 }

/-- LENGTH is one that the TYPE allows; none is required of a type that is not in the table (R59, R60). -/
def lengthOk (typ len : Nat) : Bool :=
  match typ with
  | 1 => len == 64
  | 2 => len == 32
  | 3 => len == 64
  | 4 => len % 12 == 0 && decide (12 ≤ len) && decide (len ≤ 49152)
  | 5 => decide (32 ≤ len)
  | 6 => len == 608
  | 7 => len == 128
  | 8 => len % 16 == 0 && decide (16 ≤ len) && decide (len ≤ 65536)
  | 0xFF => len == 224
  | _ => true

/-- The first multiple of 16 at or after `x`. -/
def up16 (x : Nat) : Nat := (x + 15) / 16 * 16

/-- The table's entries from the place `prev` on (R59), where `lastReg` is the region of the last TILEMAP entry: offsets,
gaps, order, reserved bytes, REGION, LENGTH, bounds.  A TILEMAP region that repeats is left to R60 (log 76). -/
def entriesOk (g : ImgSrc) (ilen prev lastReg : Nat) (es : List TabEntry) : Bool :=
  match es with
  | [] => true
  | e :: r =>
    decide (e.reserved = 0) && decide (e.off = up16 prev) && decide (e.off + e.len ≤ ilen) &&
      allZero (g.run prev (e.off - prev)) && lengthOk e.typ e.len &&
      (if e.typ = 1 then decide (e.region < 4) && decide (lastReg ≤ e.region) else decide (e.region = 0xFF)) &&
      entriesOk g ilen (e.off + e.len) (if e.typ = 1 then e.region else lastReg) r

/-- R59 for a whole table. -/
def tableOk (g : ImgSrc) (ilen count : Nat) (es : List TabEntry) : Bool :=
  decide (2 ≤ count) && decide (count ≤ 32) && decide (0x40 + 16 * count ≤ ilen) &&
    entriesOk g ilen (0x40 + 16 * count) 0 es &&
    (match es.getLast? with
     | some e => decide (e.typ = 0xFF) && decide (ilen = e.off + 224)
     | none => false)

/-! ### Keys and signature -/

/-- The signed message (R72): every byte before SIGNATURE, with the CRC of SIGNATURE's own table entry taken as 0. -/
def signedMessage (g : ImgSrc) (count sigOff : Nat) : List Nat :=
  let z := 0x40 + 16 * count - 4
  g.run 0 z ++ [0, 0, 0, 0] ++ g.run (z + 4) (sigOff - (z + 4))

/-- The key slot of the signature is VALID and holds the hash of PUBKEY (R74); factory slot 0 needs key slot 0. -/
def keyOk (keys : List KeySlot) (u : ImgUse) (sig : List Nat) : Bool :=
  let k := sig.getD 0 0
  (match u with
   | .boot 3 => k == 0
   | _ => true) &&
  (match keys[k]? with
   | some x => decide (x.state = .valid) && decide (sha384 (span sig 0x10 0x70) = beNat x.hash)
   | none => false)

/-- The signature verifies (R74). -/
def signatureOk (g : ImgSrc) (count sigOff : Nat) (sig : List Nat) : Bool :=
  ecdsaVerify (beNat (span sig 0x10 0x70)) (sha384 (signedMessage g count sigOff))
    (beNat (span sig 0x80 0xDF))

/-! ### Composition (R60) -/

def countType (ss : List Section) (t : Nat) : Nat := (ss.filter (fun x => decide (x.typ = t))).length

def compositionOk (full : Bool) (region : Nat) (ss : List Section) : Bool :=
  let once (t : Nat) : Bool := decide (countType ss t = 1)
  let most (t : Nat) : Bool := decide (countType ss t ≤ 1)
  let none' (t : Nat) : Bool := decide (countType ss t = 0)
  let regs : List Nat := (ss.filter (fun x => decide (x.typ = 1))).map (fun x => x.region)
  ss.all (fun x => [1, 2, 3, 4, 5, 6, 7, 8, 0xFF].contains x.typ) && once 0xFF &&
    if full then decide (regs = [0, 1, 2, 3]) && once 2 && once 3 && most 4 && once 5 && most 6 && most 7 && most 8
    else decide (regs = [region]) && none' 2 && most 3 && most 4 && none' 5 && none' 6 && none' 7 && none' 8

/-! ### Section contents -/

/-- No element occurs twice (log 76). -/
def noRepeat (xs : List Nat) : Bool :=
  match xs with
  | [] => true
  | x :: r => !r.contains x && noRepeat r

/-- A cluster record (R62, R63, R486). -/
def clusterOk (b : List Nat) : Bool :=
  let f := b.getD 1 0
  let order := (b.drop 2).take 6
  let named := order.take f
  decide (b.getD 0 0 ≤ 1) && decide (1 ≤ f) && decide (f ≤ 6) && named.all (fun t => decide (t ≤ 5) || t == 11) &&
    (order.drop f).all (· == 0xFF) && noRepeat named && decide (b.getD 8 0 < 12 * f) && decide (b.getD 9 0 ≤ 1) &&
    (named.contains 11 == (b.getD 9 0 == 1)) && allZero (b.drop 10)

/-- A TILEMAP section (R62, R63, R486) under a table entry of `region`. -/
def tilemapOk (b : List Nat) (region : Nat) : Bool :=
  let p := b.getD 1 0
  let fns := decide (b.getD 2 0 ≤ 2) && decide (b.getD 3 0 ≤ 2)
  decide (b.getD 0 0 = region) && decide (p ≤ 1) &&
    (if p = 0 then decide (b.getD 2 0 = 0) && decide (b.getD 3 0 = 0) && decide (b.getD 4 0 = 0)
     else fns && decide (1 ≤ b.getD 4 0) && decide (b.getD 4 0 ≤ 3)) &&
    allZero (span b 5 0xF) && clusterOk ((b.drop 0x10).take 24) && clusterOk ((b.drop 0x28).take 24)

/-- The host lanes of entry `n` of a LANEMAP. -/
def mapHosts (b : List Nat) (n : Nat) : Nat × Nat := (b.getD (4 * n) 0xFF, b.getD (4 * n + 1) 0xFF)

/-- A LANEMAP section (R65), but for its case about ENABLE. -/
def lanemapOk (b : List Nat) : Bool :=
  let hs := (List.range 8).flatMap (fun n => [(mapHosts b n).1, (mapHosts b n).2])
  hs.all (fun h => decide (h < 16) || h == 0xFF) && noRepeat (hs.filter (· != 0xFF)) &&
    (List.range 8).all (fun n =>
      ((mapHosts b n).1 == 0xFF) == ((mapHosts b n).2 == 0xFF) && decide (b.getD (4 * n + 2) 0 ≤ 1) &&
        decide (b.getD (4 * n + 3) 0 ≤ 1))

/-- The cluster record of lane `n` in a TILEMAP of its region. -/
def clusterOf (b : List Nat) (n : Nat) : List Nat := (b.drop (if n % 2 = 0 then 0x10 else 0x28)).take 24

/-- No lane of `lanes` is enabled while the LANEMAP leaves it without host lanes (R65). -/
def enableOk (map : List Nat) (tiles : Nat → List Nat) (lanes : List Nat) : Bool :=
  lanes.all (fun n => (mapHosts map n).1 != 0xFF || (clusterOf (tiles (n / 2)) n).getD 0 0 == 0)

/-- The entry of lane `n` of a DATAPATH (R66) in the image's scope. -/
def pathOk (b : List Nat) (n : Nat) : Bool :=
  let e := (b.drop (8 * n)).take 8
  decide (e.getD 0 0 ≤ 1) && decide (e.getD 1 0 ≤ 1) && decide (1 ≤ leField e 2 2) && decide (leField e 2 2 ≤ 1000) &&
    allZero (e.drop 4)

/-- The entry of a lane outside a partial image's region (R66). -/
def pathOutside (b : List Nat) (n : Nat) : Bool :=
  let e := (b.drop (8 * n)).take 8
  e.getD 0 0 == 0xFF && allZero (e.drop 1)

/-- The entries of a REGINIT section (R67): address, mask, value. -/
def reginitOf (b : List Nat) : List (Nat × Nat × Nat) :=
  (List.range (b.length / 12)).map (fun i => (leField b (12 * i) 4, leField b (12 * i + 4) 4, leField b (12 * i + 8) 4))

/-- R67 for one address: aligned, in a block below 0x10_0000, outside the loader block. -/
def reginitAddrOk (a : Nat) : Bool :=
  decide (a % 4 = 0) && decide (a < 0x100000) && !(decide (0x60000 ≤ a) && decide (a < 0x80000)) &&
    !(decide (0xE0000 ≤ a) && decide (a < 0xF0000))

def State.reginitOk (s : State) (b : List Nat) : Bool :=
  (reginitOf b).all (fun e => reginitAddrOk e.1 && (!s.needsFullMask e.1 || decide (e.2.1 = 0xFFFFFFFF)))

/-- A FIRMWARE section (R68). -/
def firmwareOk (b : List Nat) : Bool :=
  let la := leField b 0 4
  let entry := leField b 4 4
  let cl := leField b 8 4
  let zl := leField b 0xC 4
  decide (la % 16 = 0) && decide (16 ≤ cl) && decide (la ≤ entry) && decide (entry < la + cl) &&
    decide (la + cl + zl ≤ 786432) && decide (b.length = 16 + cl)

/-- An HKSEQ section (R69, R486): filter lengths 1 to 1,024, reserved bits [7:5] and [30:28] of the words zero (R322). -/
def hkseqOk (b : List Nat) : Bool :=
  (List.range 128).all (fun i => decide (bitField (leField b (4 * i) 4) 5 3 = 0) && decide (bitField (leField b (4 * i) 4) 28 3 = 0)) &&
    (List.range 48).all (fun k => decide (1 ≤ leField b (0x200 + 2 * k) 2) && decide (leField b (0x200 + 2 * k) 2 ≤ 1024))

/-- An ENGINE section (R70, R486). -/
def engineOk (b : List Nat) : Bool :=
  let hkd (c : Nat) : Nat := leField b (4 + 4 * c) 4
  decide (b.getD 0 0 ≤ 1) && decide (b.getD 1 0 ≤ 3) && decide (b.getD 2 0 < 128) && decide (b.getD 3 0 = 0) &&
    (List.range 16).all (fun c => decide (hkd c < 2 ^ 17) && decide (bitField (hkd c) 12 2 ≤ 2) &&
      (b.getD 0 0 == 1 || hkd c == 0)) &&
    (List.range 4).all (fun i =>
      let e := (b.drop (0x44 + 12 * i)).take 12
      decide (e.getD 3 0 = 0) && (decide (e.getD 8 0 < 16) || e.getD 8 0 == 0xFF) && allZero (e.drop 9)) &&
    allZero (b.drop 0x74)

/-- A SCHEDULE section (R71): every entry valid under R303; TOO_SOON does not apply. -/
def scheduleOk (b : List Nat) : Bool := (List.range (b.length / 16)).all (fun i => entryOk ((b.drop (16 * i)).take 16))

/-- R62 to R72 and R486 for one section. -/
def State.sectionOk (s : State) (full : Bool) (region : Nat) (x : Section) : Bool :=
  match x.typ with
  | 1 => tilemapOk x.bytes x.region
  | 2 => lanemapOk x.bytes
  | 3 => (List.range 8).all (fun n => (!full && decide (n / 2 ≠ region)) || pathOk x.bytes n)
  | 4 => s.reginitOk x.bytes
  | 5 => firmwareOk x.bytes
  | 6 => hkseqOk x.bytes
  | 7 => engineOk x.bytes
  | 8 => scheduleOk x.bytes
  | _ => allZero (span x.bytes 1 0xF) && allZero (span x.bytes 0x71 0x7F)

/-- The bytes of the first section of a type; none where the image has none. -/
def sectionOf (ss : List Section) (t : Nat) : Option (List Nat) := (ss.find? (fun x => decide (x.typ = t))).map (·.bytes)

/-- The TILEMAP of a region. -/
def tilemapOf (ss : List Section) (r : Nat) : List Nat :=
  ((ss.find? (fun x => decide (x.typ = 1) && decide (x.region = r))).map (·.bytes)).getD []

/-- The running LANEMAP. -/
def State.lanemap (s : State) : List Nat := (s.loader.retained.map (·.lanemap)).getD []

/-- Code 12 (R62 to R71, R65, R486). -/
def State.contentOk (s : State) (full : Bool) (region : Nat) (ss : List Section) : Bool :=
  ss.all (fun x => s.sectionOk full region x) &&
    (if full then enableOk ((sectionOf ss 2).getD []) (tilemapOf ss) (List.range 8)
     else enableOk s.lanemap (tilemapOf ss) [2 * region, 2 * region + 1])

/-- Code 13 (R66, R75): a partial image reaches outside its region, in DATAPATH or with a REGINIT address of another region
(log 32), or an entry addresses a locked RWL field. -/
def State.scopeOk (s : State) (full : Bool) (region : Nat) (ss : List Section) : Bool :=
  let regs := ((sectionOf ss 4).map reginitOf).getD []
  regs.all (fun e => !s.lockedAt e.1) &&
    (full || (regs.all (fun e => decide (regionOfAddr e.1 = none) || decide (regionOfAddr e.1 = some region)) &&
      (match sectionOf ss 3 with
       | some b => (List.range 8).all (fun n => decide (n / 2 = region) || pathOutside b n)
       | none => true)))

/-! ### The checks of R75 -/

/-- Codes 8 to 13, over a table that passed: `count` entries `es` (log 32). -/
def State.checkSections (s : State) (g : ImgSrc) (u : ImgUse) (h : List Nat) (count : Nat) (es : List TabEntry) :
    Nat × List Section :=
  let ilen := leField h 0x10 4
  let ss := es.map (fun e => (⟨e.typ, e.region, g.run e.off e.len⟩ : Section))
  let sigOff := ilen - 224
  let sig := g.run sigOff 224
  let region := h.getD 0x0C 0
  if g.bad 0 ilen then (14, [])
  else if (es.zip ss).any (fun p => decide (p.1.crc ≠ crc32c p.2.bytes)) then (8, [])
  else if keyOk s.keys u sig = false then (9, [])
  else if signatureOk g count sigOff sig = false then (10, [])
  else if compositionOk u.full region ss = false then (11, [])
  else if s.contentOk u.full region ss = false then (12, [])
  else if s.scopeOk u.full region ss = false then (13, [])
  else (0, ss)

/-- The checks of R75 in order: the code of the first that fails, 0 where none does, and the sections.  A poisoned byte
gives code 14 at the check that reads it. -/
def State.checkImage (s : State) (g : ImgSrc) (u : ImgUse) : Nat × List Section :=
  let h := g.run 0 64
  let len := u.supplied.getD u.limit
  let ilen := leField h 0x10 4
  let count := h.getD 0x0D 0
  let es := (List.range count).map (tabEntry (g.run 0x40 (16 * count)))
  if len < 4 then (1, [])
  else if g.bad 0 4 then (14, [])
  else if leField h 0 4 ≠ 0x534B4C4D then (1, [])
  else if len < 64 then (2, [])
  else if g.bad 0 64 then (14, [])
  else if headerOk h = false then (2, [])
  else if h.getD 5 0 ≠ 1 ∨ h.getD 4 0 ≠ 0 then (3, [])
  else if leField h 6 2 ≠ 0x51 ∨ leField h 8 2 ≠ 0x5832 ∨ 0xB0 < h.getD 0x0A 0 then (4, [])
  else if typeOk h u.full = false then (5, [])
  else if u.limit < ilen ∨ (u.supplied.isSome = true ∧ ilen ≠ len) then (6, [])
  else if g.bad 0x40 (16 * count) then (14, [])
  else if tableOk g ilen count es = false then (7, [])
  else s.checkSections g u h count es

/-- The bytes of the staging buffer as a source. -/
def State.stagingSrc (s : State) (n : Nat) : ImgSrc :=
  let bs := s.loader.staging.getRun .unwritten 0 n
  { bytes := bs.map (·.val.toNat), poison := (bs.zipIdx.filter (fun e => e.1.poison)).map (·.2) }

/-- The offset of a slot in the MRAM and its size (R353). -/
def slotBase (slot : Nat) : Nat := if slot = 1 then 0x100000 else if slot = 2 then 0x400000 else 0
def slotSize (slot : Nat) : Nat := if slot = 3 then 0x100000 else 0x300000

/-- `n` bytes of a slot, the first bytes replaced by a held header. -/
def State.slotSrc (s : State) (slot n : Nat) (held : List Nat) : ImgSrc :=
  let bs := (s.mramRun (slotBase slot) n)
  { bytes := held ++ bs.drop held.length
    poison := (List.range n).filter (fun i => decide (held.length ≤ i) && s.mramBad (slotBase slot + i)) }

/-! ### The factory image (R92) -/

/-- A cluster record of the factory image: ENABLE 1, four FFE tiles, CURSOR 12, T11 standby. -/
def factoryCluster : List Nat := [1, 4, 0, 1, 2, 3, 0xFF, 0xFF, 12, 0] ++ List.replicate 14 0

def factoryTilemap (r : Nat) : List Nat := [r, 0, 0, 0, 0] ++ List.replicate 11 0 ++ factoryCluster ++ factoryCluster

def factoryLanemap : List Nat := (List.range 8).flatMap (fun n => [2 * n, 2 * n + 1, 0, 0])

def factoryDatapath : List Nat := (List.range 8).flatMap (fun _ => [0, 0, 20, 0, 0, 0, 0, 0])

/-- OE rails on, bias from the page at 0x50, sine generators off. -/
def factoryEngine : List Nat :=
  [0, 3, 0x50, 0] ++ List.replicate 64 0 ++ ((List.range 4).flatMap (fun _ => List.replicate 8 0 ++ [0xFF, 0, 0, 0])) ++
    List.replicate 12 0

/-- The sequence table that converts inputs `lo` to `lo + 15`, one conversion each and no delay (R322; REPEAT 0, log 33). -/
def factorySeq (lo : Nat) : List Nat :=
  (List.range 64).flatMap (fun i => if i < 16 then leBytes 4 (lo + i + (if i = 15 then 2 ^ 31 else 0)) else [0, 0, 0, 0])

/-- The HKSEQ values of the factory image: inputs 0 to 15 and 16 to 31, every filter length 16 (log 33). -/
def factoryHkseq : List Nat :=
  factorySeq 0 ++ factorySeq 16 ++ (List.range 48).flatMap (fun _ => [16, 0])

/-- The sections of the factory image as far as R92 gives them; its firmware is not given (log 11, 33). -/
def factorySections : List Section :=
  (List.range 4).map (fun r => ⟨1, r, factoryTilemap r⟩) ++
    [⟨2, 0xFF, factoryLanemap⟩, ⟨3, 0xFF, factoryDatapath⟩, ⟨6, 0xFF, factoryHkseq⟩, ⟨7, 0xFF, factoryEngine⟩]

end Sys2Proof.Machine
end

