-- ==== Sys2Proof/Machine/Tiles.lean ====
section
/-!
DEFINITION. Tiles and the lanes they serve: functions from the TILEMAP, readiness of spares, loading a tile with another
one's role, pool extensions, lanes disabled and held disabled (01_architecture.md R14 to R19, R47; 02_bitstream.md R62 to R64;
03_line_receive.md R129 to R131; 14_selftest_faults.md R401, R404, R409 to R417).
-/

namespace Sys2Proof.Machine

open Sys2Proof

/-! ### What a tile is doing -/

/-- The lane that tile `t` serves, where it is loaded for one. -/
def State.servesLane (s : State) (t : Nat) : Option Nat :=
  if s.get (TILE.TILE_INFO_FN.f t) = 0 then none else s.serves t

/-- The cluster tile number whose place tile `t` holds: the one that it stands for, or its own; none for a pool tile that
stands for no tile. -/
def State.roleNumber (s : State) (t : Nat) : Option Nat := s.actsAs t

/-- The tile stands for no other (STANDS_FOR reads 0xF). -/
def State.standsAlone (s : State) (t : Nat) : Bool := decide (s.get (TILE.TILE_INFO_STANDS_FOR.f t) = 15)

/-- A T11 that is a member of its lane's chain (T11_ROLE 1) is no candidate (R64). -/
def State.chainT11 (s : State) (t : Nat) : Bool := decide (t < 96) && s.t11Chain (t / 12)

/-- The background slice of region `r` runs on tile `t`, or a BIST_RUN does. -/
def State.underTest (s : State) (t : Nat) : Bool :=
  s.test.bgNow.any (fun p => decide (p.2 = t)) || decide (s.test.run = some t)

/-- A tile that may stand in for another: not FAILED or RETIRED, standing for none, its last test passed, no chain member
(R409).  A test that runs on it does not keep it from being taken (R416) (log 36). -/
def State.usable (s : State) (t : Nat) : Bool :=
  isUt t && !s.tileFailed t && !s.getB (TILE.TILE_TEST_RETIRED.f t) && s.standsAlone t &&
    s.getB (TILE.TILE_TEST_LAST_PASS.f t) && !s.chainT11 t

/-- READY (R409, R412, R417) (log 36). -/
def State.ready (s : State) (t : Nat) : Bool := s.usable t && !s.underTest t

/-- The candidates that may stand in for a tile of lane `n` in R409's order. -/
def State.spares (s : State) (n : Nat) : List Nat :=
  [clusterTile n 11, poolTile (n / 2) 0, poolTile (n / 2) 1].filter s.usable

/-! ### Extensions (R129, R131) -/

/-- The extension of pool tile `p` (0 or 1) of a pool. -/
def Pool.ext (x : Pool) (p : Nat) : Option PoolExt := if p = 0 then x.ext0 else x.ext1

/-- EXT_FFE and EXT_NP of the lanes of region `r` follow the pool (R139). -/
def State.showExts (s : State) (r : Nat) : State :=
  let p := s.pool r
  let has (n : Nat) (ffe : Bool) : Bool :=
    decide (p.holder = some n) && ([p.ext0, p.ext1].filterMap id).any (fun x => x.ffe == ffe)
  s.each [2 * r, 2 * r + 1] (fun s n =>
    (s.putB (LINE.RX_STATE_EXT_FFE.f n) (has n true)).putB (LINE.RX_STATE_EXT_NP.f n) (has n false))

/-- Tile `t` holds no function and serves no lane (log 48). -/
def State.idleTile (s : State) (t : Nat) : State :=
  ((s.put (TILE.TILE_INFO_FN.f t) 0).put (TILE.TILE_INFO_SERVES.f t) 15).put (TILE.TILE_INFO_STANDS_FOR.f t) 15

/-- The extension of pool tile `p` of region `r` is detached, with PLACE_CHANGE on the lane that held it; a region without
extensions has no holder (log 36, 45). -/
def State.detach (s : State) (r p : Nat) : State :=
  let x := s.pool r
  match x.ext p, x.holder with
  | some _, some n =>
    let y := if p = 0 then { x with ext0 := none } else { x with ext1 := none }
    let y := if y.ext0 = none ∧ y.ext1 = none then { y with holder := none, withdraw := none } else y
    (((((s.setPool r y).idleTile (poolTile r p)).showExts r).raiseLane n 4).countLane n 0x14 1)
  | _, _ => s

/-! ### Loading a tile in another one's place (R409, R411) -/

/-- Signed free values: `k` of them, `w` bits each (log 37). -/
def State.freeInts (s : State) (w k : Nat) : List Int :=
  (List.range k).map (fun i => signedOf w (Config.freeValue (s.freeCtr + i) % 2 ^ w))

/-- A trained state whose equaliser nothing gives: the part of a checkpoint that has never been taken (log 37). -/
def State.freeTrained (s : State) (n : Nat) : Trained × State :=
  let v (w k : Nat) : List Int := s.freeInts w k
  let t := s.trainedOf n
  ({ t with taps := v 12 72, levels := ({ s with freeCtr := s.freeCtr + 72 }).freeInts 10 64
            a1 := Config.freeValue (s.freeCtr + 136) % 256, a2 := Config.freeValue (s.freeCtr + 137) % 256
            b := signedOf 8 (Config.freeValue (s.freeCtr + 138) % 256) },
   { s with freeCtr := s.freeCtr + 139 })

/-- A list with the elements from `i` on replaced by `vs`. -/
def setSpan (xs : List Int) (i : Nat) (vs : List Int) : List Int := xs.take i ++ vs ++ xs.drop (i + vs.length)

/-- The part of checkpoint `t` that the tile in place `k` of lane `n` holds, loaded with cleared fractions (R408, R409): twelve
taps of a chain tile; the target terms, B and the lower levels in T6's place; the upper levels in T7's (log 37). -/
def State.loadPart (s : State) (n k : Nat) (t : Trained) : State :=
  let acc (xs : List Int) : List Int := xs.map (4096 * ·)
  let o := s.ffeOrder n
  if o.contains k then
    let p := o.findIdx (· == k)
    s.onLane n (fun l => { l with eq := { l.eq with
      taps := setSpan l.eq.taps (12 * p) (acc ((t.taps.drop (12 * p)).take 12)) } })
  else if k = 6 then
    s.onLane n (fun l => { l with eq := { l.eq with
      a1 := 4096 * (t.a1 : Int), a2 := 4096 * (t.a2 : Int), b := 4096 * t.b
      levels := setSpan l.eq.levels 0 (acc (t.levels.take 32)) } })
  else if k = 7 then
    s.onLane n (fun l => { l with eq := { l.eq with levels := setSpan l.eq.levels 32 (acc ((t.levels.drop 32).take 32)) } })
  else s

/-- Tile `c` is loaded with function `fn` in place `k` of lane `n` (R140): it stands for that place unless it is its own; a
decoder starts its counters at 0 (04_inner_code.md R173) (log 37). -/
def State.loadTile (s : State) (c n k fn : Nat) : State :=
  let stands := if c = clusterTile n k then 15 else k
  let s := ((s.put (TILE.TILE_INFO_FN.f c) fn).put (TILE.TILE_INFO_SERVES.f c) n).put (TILE.TILE_INFO_STANDS_FOR.f c) stands
  if fn = 3 ∧ stands ≠ 15 then
    ((s.put (TILE.DEC_CW_CW.f c) 0).put (TILE.DEC_UNC_UNC.f c) 0).put (TILE.DEC_CORR_CORR.f c) 0
  else s

/-- Candidate `c` takes the place of failed tile `t` in lane `n`, with its part of the checkpoint (log 48). -/
def State.takePlace (s : State) (n t c : Nat) : State :=
  match s.roleNumber t with
  | some k =>
    let fn := s.get (TILE.TILE_INFO_FN.f t)
    let p := match (s.lane n).ckpt with
      | some x => (x, s)
      | none => s.freeTrained n
    ((p.2.idleTile t).loadTile c n k fn).loadPart n k p.1
  | none => s.idleTile t

/-! ### Lanes disabled and held (R17, R19, R47) -/

/-- A command is a CAPTURE of lane `n` (R132). -/
def capturesLane (n : Nat) (e : Engine) (w : List Nat) : Bool :=
  match e with
  | .capture _ => decide (bitField (cmdWord w 1) 0 3 = n)
  | _ => false

/-- What a disabled lane loses: its lock, its queues, its captures, its repair and a frame being received; its output is
squelched under DISABLED and its receive half is in OFF. -/
def State.disableLane (s : State) (n : Nat) : State :=
  let s := ((s.setReason n 0 true).lockGone n).setRx n .off
  let s := s.onLane n (fun l => { l with swap := none, waiting := [], loading := false, restartDue := none, forced := 0 })
  let s := (s.emptyLane n true).onlyIf ((s.die (n / 4)).capture.any (fun c => decide (c.lane = n)))
    (fun s => s.abortCapture (n / 4) .abortedFault)
  let s := s.abortWhere (capturesLane n) .abortedFault
  (s.setBcn n { s.bcnL n with rx := none, noiseDirty := true }).put (BCN.RX_STAT_RECEIVING.f n) 0

/-- Lane `n` becomes held disabled (R19, R415) (log 52). -/
def State.holdLane (s : State) (n : Nat) : State :=
  let f := BIST.HELD_STAT_LANE_HELD.f
  ((s.raise 360).put f (putBit (s.get f) n true)).disableLane n

/-- The timing source of the transmit half of lane `n` as an outage ends: the host lane that times it, if that is LOCKED; else CCLK
(05_line_transmit.md R181) (log 83). -/
def State.showTiming (s : State) (n : Nat) : State :=
  let h := min (s.get (PORT.PCFG_HOST_A.f n)) (s.get (PORT.PCFG_HOST_B.f n))
  s.putB (LINE.TX_STATE_TIMING.f n) (!s.modeR n && s.getB (PORT.PCFG_MAPPED.f n) && s.hostLocked h)

/-- The receive datapath of lane `n` at its enable: the sample count at 0 and no earlier symbols (R96). -/
def State.freshPath (s : State) (n : Nat) : State := s.onLane n (fun l => { l with rxp := .fresh })

/-- The transmit direction of lane `n` starts: no earlier rows, half rows or blocks under way, and stream a comes first
(04_inner_code.md R145, R162, R164; 06_host_side.md R201). -/
def State.freshSend (s : State) (n : Nat) : State :=
  let s := s.onLane n (fun l => { l with txRowsA := [], txRowsB := [], halfA := none, halfB := none, txCount := 0 })
  s.setPort n { s.port n with
    encA := .fresh
    encB := .fresh
    encTurnB := false
    rowsA := []
    rowsB := []
    rowTurnB := false }

/-- An enabled lane starts: DISABLED is cleared, its transmit half runs on CCLK until its host locks (05_line_transmit.md R181), and it
acquires under ACQ_EN (R116) (log 43, 83). -/
def State.enableLane (s : State) (n : Nat) : State :=
  if s.laneOn n then (((((s.setReason n 0 false).freshPath n).freshSend n).put (LINE.TX_STATE_TIMING.f n) 0).startLane n false) else s

/-! ### The functions of a region's tiles by its TILEMAP (R62, R404, R411) -/

/-- The function of tile `k` of lane `n` by its cluster record: none in a disabled lane, whose tiles are clock-stopped. -/
def State.imageFn (s : State) (n k : Nat) : Nat :=
  if (s.clusterRecord n).getD 0 0 ≠ 1 then 0
  else if (s.ffeOrder n).contains k then 1
  else if k = 6 ∨ k = 7 then 2
  else if k = 8 ∨ k = 9 then 3
  else if k = 10 then 4
  else 0

/-- Every tile of region `r` at the function of the TILEMAP, no spare used. -/
def State.plainTiles (s : State) (r : Nat) : State :=
  let s := s.each [2 * r, 2 * r + 1] (fun s n =>
    s.each (List.range 12) (fun s k =>
      let fn := s.imageFn n k
      if fn = 0 then s.idleTile (clusterTile n k) else s.loadTile (clusterTile n k) n k fn))
  s.each [0, 1] (fun s p => s.idleTile (poolTile r p))

/-- The place `k` of lane `n`, whose own tile has failed, filled from the spares: none where none is left. -/
def State.fillPlace (s : State) (n k : Nat) : Option State :=
  match s.spares n with
  | c :: _ => some ((s.idleTile (clusterTile n k)).loadTile c n k (s.imageFn n k))
  | [] => none

/-- The places of lane `n` with a failed tile filled in order; none if one cannot be (R19, R404, R411). -/
def State.fillPlaces (s : State) (n : Nat) (ks : List Nat) : Option State :=
  match ks with
  | [] => some s
  | k :: r =>
    if s.imageFn n k ≠ 0 ∧ s.tileFailed (clusterTile n k) = true then
      (if k = 10 then none
       else
         match s.fillPlace n k with
         | some s' => s'.fillPlaces n r
         | none => none)
    else s.fillPlaces n r

/-- The roles of lane `n` filled around its failed tiles; a lane that cannot be is held disabled. -/
def State.roleLane (s : State) (n : Nat) : State :=
  match s.fillPlaces n (List.range 12) with
  | some s' => s'
  | none => s.holdLane n

/-- The tiles of region `r` configured by its TILEMAP: functions, spares in the place of failed tiles, no extension, the
region's tests and repairs ended (R405, R411, R416) (log 48). -/
def State.configTiles (s : State) (r : Nat) : State :=
  let s := (s.setPool r .fresh).showExts r
  let s := s.each [2 * r, 2 * r + 1] (fun s n => s.onLane n (fun l => { l with swap := none, waiting := [] }))
  let s := s.plainTiles r
  s.each [2 * r, 2 * r + 1] (fun s n => if s.laneHeld n then s else s.roleLane n)

end Sys2Proof.Machine
end

