-- ==== Sys2Proof/Machine/Fault.lean ====
section
/-!
DEFINITION. Tile faults in service, swaps and re-placements, checkpoints, spare tests, and the placement engine
(01_architecture.md R18, R19, R49 to R51, R56; 03_line_receive.md R129 to R131; 14_selftest_faults.md R405 to R416).
-/

namespace Sys2Proof.Machine

open Sys2Proof

/-! ### Tests that end (R413, R416) -/

/-- Tests of tiles that satisfy `p` end: background slices are abandoned, and a BIST_RUN completes with `st`. -/
def State.endTests (s : State) (p : Nat → Bool) (st : Status) : State :=
  let run := s.test.run
  let s := { s with test := { s.test with bgLeft := s.test.bgLeft.filter (fun t => !p t)
                                          bgNow := s.test.bgNow.filter (fun e => !p e.2) } }
  match run with
  | some t =>
    if p t then
      let s := { s with test := { s.test with run := none } }
      match s.headOf .test with
      | some w => s.complete .test w st 0 0 0
      | none => s
    else s
  | none => s

/-- Tile `t` fails with a cause (R407, R412, R413). -/
def State.markFailed (s : State) (t cause : Nat) : State :=
  (s.put (TILE.TILE_INFO_FAILED.f t) 1).put (TILE.TILE_TEST_FAIL_CAUSE.f t) cause

/-! ### Work in flight (R51, R414) -/

/-- A command in flight involves lane `n`: it captures on it, or it stores or reads the live state of a group that contains
it (R414) (log 47). -/
def involvesLane (n : Nat) (e : Engine) (w : List Nat) : Bool :=
  match e with
  | .capture _ => decide (bitField (cmdWord w 1) 0 3 = n)
  | .context =>
    ((cmdOpcode w == 3 && cmdOp w == 1) || (cmdOpcode w == 4 && cmdOp w == 1)) && (descLanes (cmdWord w 2)).contains n
  | _ => false

/-- What a tile fault of lane `n` does to the commands in flight and to the codewords in the lane's pipeline (R51, R414)
(log 47). -/
def State.dropWork (s : State) (n : Nat) : State :=
  let s := s.onlyIf ((s.die (n / 4)).capture.any (fun c => decide (c.lane = n)))
    (fun s => s.abortCapture (n / 4) .abortedFault)
  let s := s.abortWhere (involvesLane n) .abortedFault
  let k := (s.queue ⟨.ffeMlse, n⟩).entries.length + (s.queue ⟨.mlseDec, n⟩).entries.length
  s.onLane n (fun l => { l with forced := k })

/-- The applies under way on lane `n` meet a tile failure under the resilient policy (01_architecture.md R56): each is aborted and repeats
once after the swap, and a repeat that a failure aborts ends with ABORTED_FAULT.  One that still reads its records goes on reading
them then (log 49). -/
def State.holdApplies (s : State) (n : Nat) : State :=
  s.each (s.ctx.applies.filter (fun x => (descLanes x.desc).contains n && decide (x.phase ≠ .queued))) (fun s x =>
    if x.waitSwap then s
    else if x.repeated then s.endApply x 5
    else if x.phase = .reading then s.replaceApply x { x with waitSwap := true, repeated := true }
    else
      let lanes := (descLanes x.desc).filter (fun m => !s.skippedLane m)
      let s := s.replaceApply x { x with phase := .transfer, waitSwap := true, repeated := true, left := lanes }
      s.each (descLanes x.desc) (fun s m => s.onLane m (fun l => { l with loading := false })))

/-- The applies on lane `n` end with ABORTED_FAULT (log 49). -/
def State.failApplies (s : State) (n : Nat) : State :=
  s.abortApplies (fun x => (descLanes x.desc).contains n && decide (x.phase ≠ .queued)) 5

/-- An apply that waited goes on once no lane of its group has a swap under way (log 49). -/
def State.resumeApplies (s : State) : State :=
  s.each (s.ctx.applies.filter (fun x => x.waitSwap && (descLanes x.desc).all (fun m => !(s.lane m).faulted))) (fun s x =>
    let s := s.replaceApply x { x with waitSwap := false }
    if x.phase = .transfer then s.each x.left (fun s m => s.onLane m (fun l => { l with loading := true })) else s)

/-! ### Swaps and re-placements (R409 to R411, R416) -/

/-- The candidates for a repair of lane `n`: under the placement policy the pool tile that extends the lane comes before the
other one (R411) (log 36). -/
def State.repairCands (s : State) (n : Nat) : List Nat :=
  if s.placement (n / 2) then
    let r := n / 2
    let own (t : Nat) : Bool := decide ((s.pool r).holder = some n) && ((s.pool r).ext (t % 2)).isSome
    let pool := [poolTile r 0, poolTile r 1].filter s.usable
    [clusterTile n 11].filter s.usable ++ pool.filter own ++ pool.filter (fun t => !own t)
  else s.spares n

/-- Lane `n` cannot be repaired: it is held disabled, with NO_SPARE; its failed tiles leave service. -/
def State.noSpare (s : State) (n : Nat) (failed : List Nat) : State :=
  let s := (s.each failed (fun s t => s.idleTile t)).raise 358
  (s.failApplies n).holdLane n

/-- The failed tiles `failed` of lane `n` are replaced by the first candidates that are left; a pool tile is withdrawn from
its extension at once (R131). -/
def State.startRepair (s : State) (n : Nat) (failed : List Nat) : State :=
  let cs := (s.repairCands n).take failed.length
  if cs.length < failed.length then s.noSpare n failed
  else
    let s := s.endTests (fun t => cs.contains t) .abortedFault
    let s := s.each (cs.filter (fun c => decide (96 ≤ c))) (fun s c => s.detach (n / 2) (c % 2))
    s.onLane n (fun l => { l with swap := some ⟨failed, cs⟩ })

/-- A repair is under way in region `r`. -/
def State.repairing (s : State) (r : Nat) : Bool := (s.lane (2 * r)).swap.isSome || (s.lane (2 * r + 1)).swap.isSome

/-- The failures that waited in region `r` are repaired next, lane by lane; under the resilient policy one at a time
(01_architecture.md R56) (log 46). -/
def State.nextRepair (s : State) (r : Nat) : State :=
  s.each [2 * r, 2 * r + 1] (fun s n =>
    if s.repairing r then s
    else
      match (s.lane n).waiting with
      | [] => s
      | t :: rest =>
        if s.placement r then (s.onLane n (fun l => { l with waiting := [] })).startRepair n (t :: rest)
        else (s.onLane n (fun l => { l with waiting := rest })).startRepair n [t])

/-- The lane that lost a tile under the placement policy goes down (R411): TRACK gives LOCK_LOST and SEARCH, any other state
keeps its code (log 45). -/
def State.laneDown (s : State) (n : Nat) : State := s.loseLock n

/-- A tile in service on lane `n` has failed and has place `k` in the chain, or none if it extended the lane (log 45). -/
def State.repairTile (s : State) (n t : Nat) : State :=
  let r := n / 2
  let s := s.dropWork n
  if s.roleNumber t = some 10 then ((s.failApplies n).idleTile t).holdLane n |>.nextRepair r
  else if s.placement r then
    let s := (s.failApplies n).laneDown n
    match s.roleNumber t, (s.lane n).swap with
    | none, none =>
      let s := s.detach r (t % 2)
      if s.repairing r then s else s.startRepair n []
    | none, some _ => s.detach r (t % 2)
    | some _, some w => (s.startRepair n (w.failed ++ [t])).nextRepair r
    | some _, none =>
      if s.repairing r then s.onLane n (fun l => { l with waiting := l.waiting ++ [t] })
      else (s.startRepair n [t]).nextRepair r
  else
    let s := s.holdApplies n
    if s.repairing r then s.onLane n (fun l => { l with waiting := l.waiting ++ [t] })
    else (s.startRepair n [t]).nextRepair r

/-- The lane whose repair loads tile `t` as a candidate. -/
def State.loadingFor (s : State) (t : Nat) : Option Nat :=
  [2 * tileRegion t, 2 * tileRegion t + 1].find? (fun n => (s.lane n).swap.any (fun w => w.cands.contains t))

/-- The parity of tile `t` is swept: its die and region have power, and a cluster tile's lane is not parked (R407). -/
def State.tileSwept (s : State) (t : Nat) : Bool :=
  s.laneServed (tileLane t) && (decide (96 ≤ t) || !s.parked (tileLane t)) && !s.tileFailed t

/-- TILE_FAILED (R407): a byte with even parity.  The candidate of a repair gives way to the next one (R416); a tile of a
region under reload is left out at its end (01_architecture.md R56); a tile in service is replaced; a disabled lane stays
disabled. -/
def tileFailedEffect (t : TileId) (s : State) : State :=
  if s.tileSwept t then
    let s := ((s.markFailed t 1).raise 355).endTests (fun u => decide (u = t.val)) .abortedFault
    match s.loadingFor t, s.servesLane t with
    | some n, _ => (s.startRepair n (((s.lane n).swap.map (·.failed)).getD [])).nextRepair (n / 2)
    | none, some n => if s.reloading (n / 2) || !s.laneOn n then s else s.repairTile n t
    | none, none => s
  else s

def execTileFailed (tile : TileId) (s : State) : Host.Outcome State Fault Refusal := .next (tileFailedEffect tile s)

/-- The candidates of lane `n` take the places of its failed tiles (log 46). -/
def State.finishRepair (s : State) (n : Nat) (w : Swap) : State :=
  let s := s.each (w.failed.zip w.cands) (fun s p => s.takePlace n p.1 p.2)
  s.onLane n (fun l => { l with swap := none })

/-- SWAP_DONE (R409, R410): the candidate is loaded and the groups resume; a lane that was not TRAINED starts again; an apply
that the fault aborted is repeated; the next failure of the region is repaired. -/
def swapDoneEffect (t : TileId) (s : State) : State :=
  let r := tileRegion t
  match [2 * r, 2 * r + 1].find? (fun n => (s.lane n).swap.any (fun w => w.failed.contains t.val)) with
  | some n =>
    match s.placement r, (s.lane n).swap with
    | false, some w =>
      let s := ((s.finishRepair n w).raise 356).countLane n 0x13 1
      let s := s.onlyIf (!s.getB (LINE.RX_STATE_TRAINED.f n) && decide (s.rx n ≠ .off)) (fun s => s.startLane n false)
      (s.nextRepair r).resumeApplies
    | _, _ => s
  | none => s

def execSwapDone (tile : TileId) (s : State) : Host.Outcome State Fault Refusal := .next (swapDoneEffect tile s)

/-- The lane that was down enters WARM, or GAIN if it was not TRAINED, or DARK without light (R411) (log 46). -/
def State.laneBack (s : State) (n : Nat) : State :=
  if s.rx n = .off then s
  else if !s.getB (LINE.RX_STATE_TRAINED.f n) then s.startLane n false
  else if s.light n then s.enterWarm n else s.enterDark n false

/-- REPLACED (R411): the replacement is loaded and cleared and takes its part of the checkpoint. -/
def replacedEffect (n : Lane) (s : State) : State :=
  let r := n.val / 2
  match s.placement r, (s.lane n).swap with
  | true, some w => ((((s.finishRepair n w).raise 357).laneBack n).nextRepair r).resumeApplies
  | _, _ => s

def execReplaced (lane : Lane) (s : State) : Host.Outcome State Fault Refusal := .next (replacedEffect lane s)

/-- CHECKPOINT (R408): the quantities held in tiles are copied; a word that fails its check keeps the earlier checkpoint. -/
def checkpointEffect (n : Lane) (ok : Bool) (s : State) : State :=
  if s.laneOn n && s.laneRuns n && s.getB (LINE.RX_STATE_TRAINED.f n) && !(s.lane n).faulted then
    if ok then
      let t := s.trainedOf n
      s.onLane n (fun l => { l with ckpt := some t })
    else s.raise 362
  else s

def execCheckpoint (lane : Lane) (ok : Bool) (s : State) : Host.Outcome State Fault Refusal :=
  .next (checkpointEffect lane ok s)

/-! ### Spare tests (R412) and BIST_RUN (R413) -/

/-- Tile `t` is tested in the background: ready, in a part with power; under the placement policy only a standby T11 (log 50). -/
def State.bgTestable (s : State) (t : Nat) : Bool :=
  s.ready t && s.laneServed (tileLane t) && (decide (t < 96) || !s.placement (tileRegion t)) && (s.loadingFor t).isNone

/-- Slices of the round start, one in each region at a time; in the THROTTLE band one at a time, each PAUSE after the
last (13_thermal.md R392) (log 50). -/
def State.bgStart (s : State) : State :=
  s.each s.test.bgLeft (fun s t =>
    let r := tileRegion t
    if (s.test.bgNow.any (fun e => decide (e.1 = r))) || (s.throttled && !s.test.bgNow.isEmpty) then s
    else if s.bgTestable t then
      s.bgUnit 5 (fun s => { s with test := { s.test with bgLeft := s.test.bgLeft.erase t
                                                          bgNow := (s.test.bgNow.erase r).insert r t } })
    else { s with test := { s.test with bgLeft := s.test.bgLeft.erase t } })

/-- BG_SPARE_TEST: the 10 s round begins. -/
def bgSpareTestEffect (s : State) : State :=
  if s.d0Up && s.getB BIST.BG_CFG_BG_EN.f then
    let round := (List.range 104).filter (fun t => isUt t && s.bgTestable t)
    { s with test := { s.test with bgLeft := round } }.bgStart
  else s

def execBgSpareTest (s : State) : Host.Outcome State Fault Refusal := .next (bgSpareTestEffect s)

/-- The slice of tile `t` ends with a result, and the round goes on. -/
def State.bgEnd (s : State) (t : Nat) (pass : Bool) : State :=
  if s.test.bgNow.any (fun e => decide (e.2 = t)) then
    let s := { s with test := { s.test with bgNow := s.test.bgNow.filter (fun e => decide (e.2 ≠ t)) } }
    let s := (s.put (TILE.TILE_TEST_TESTED.f t) 1).putB (TILE.TILE_TEST_LAST_PASS.f t) pass
    (if pass then s else (s.markFailed t 3).raise 359).bgStart
  else s

/-- SPARE_FAIL: the slice of a spare fails. -/
def spareFailEffect (t : TileId) (s : State) : State := s.bgEnd t false

def execSpareFail (tile : TileId) (s : State) : Host.Outcome State Fault Refusal := .next (spareFailEffect tile s)

/-- BG_SLICE_PASS: the slice passes and the spare is ready again. -/
def bgSlicePassEffect (t : TileId) (s : State) : State := s.bgEnd t true

def execBgSlicePass (tile : TileId) (s : State) : Host.Outcome State Fault Refusal := .next (bgSlicePassEffect tile s)

/-- The tile that a BIST_RUN names (R413) (log 51). -/
def bistTile (w : List Nat) : Nat :=
  let n := bitField (cmdWord w 1) 0 3
  let t := bitField (cmdWord w 1) 8 4
  if t < 12 then clusterTile n t else poolTile (n / 2) (t - 12)

/-- The status with which a BIST_RUN of tile `t` ends at once (R413) (log 51). -/
def State.bistStop (s : State) (t : Nat) : Option Status :=
  let n := tileLane t
  if s.getB (TILE.TILE_TEST_RETIRED.f t) then some .retired
  else if (s.servesLane t).isSome || !s.standsAlone t || (s.loadingFor t).isSome then some .inService
  else if s.gated (n / 2) || s.parked n then some .abortedPower
  else if !s.dieUp (n / 4) then some .abortedFault
  else none

/-- BIST_RUN (R413): the head command of the test engine starts the slice of its tile, or completes at once. -/
def bistRunEffect (s : State) : State :=
  match s.headOf .test, s.test.run with
  | some w, none =>
    match s.bistStop (bistTile w) with
    | some st => s.complete .test w st 0 0 0
    | none => { s with test := { s.test with run := some (bistTile w) } }
  | _, _ => s

def execBistRun (s : State) : Host.Outcome State Fault Refusal := .next (bistRunEffect s)

/-- BIST_RUN_DONE (R413): the slice passes and clears FAILED, or fails the tile with FAIL_CAUSE 3. -/
def bistRunDoneEffect (pass : Bool) (s : State) : State :=
  match s.headOf .test, s.test.run with
  | some w, some t =>
    let s := { s with test := { s.test with run := none } }
    let s := (s.put (TILE.TILE_TEST_TESTED.f t) 1).putB (TILE.TILE_TEST_LAST_PASS.f t) pass
    if pass then
      ((s.put (TILE.TILE_INFO_FAILED.f t) 0).put (TILE.TILE_TEST_FAIL_CAUSE.f t) 0).complete .test w .ok 0 0 0
    else (s.markFailed t 3).complete .test w .testFailed 0 0 0
  | _, _ => s

def execBistRunDone (pass : Bool) (s : State) : Host.Outcome State Fault Refusal := .next (bistRunDoneEffect pass s)

/-! ### Retest of held parts (R405) -/

/-- A held lane whose slice has passed follows its image: a failed T10 is good again, its roles are filled, and it
starts. -/
def State.freeLane (s : State) (n : Nat) : State :=
  let f := BIST.HELD_STAT_LANE_HELD.f
  let s := s.put f (putBit (s.get f) n false)
  let t := clusterTile n 10
  let s := s.onlyIf (s.tileFailed t && !s.getB (TILE.TILE_TEST_RETIRED.f t)) (fun s =>
    ((s.put (TILE.TILE_INFO_FAILED.f t) 0).put (TILE.TILE_TEST_FAIL_CAUSE.f t) 0).put (TILE.TILE_TEST_LAST_PASS.f t) 1)
  (s.roleLane n).enableLane n

/-- HELD_PART_RETEST: the slice of lane `n`'s held part has run after its die's reset or its region's reload.  For a region held
the part is the region's shared logic, and the lanes that nothing else holds follow; a part that fails stays held. -/
def heldPartRetestEffect (n : Lane) (pass : Bool) (s : State) : State :=
  let r := n.val / 2
  let f := BIST.HELD_STAT_REGION_HELD.f
  if (s.lane n).retestDue && s.laneServed n then
    if bitAt (s.get f) r then
      if pass then
        let s := s.put f (putBit (s.get f) r false)
        s.each [2 * r, 2 * r + 1] (fun s k =>
          if s.laneHeld k then s else (s.onLane k (fun l => { l with retestDue := false })).freeLane k)
      else s.each [2 * r, 2 * r + 1] (fun s k => s.onLane k (fun l => { l with retestDue := false }))
    else
      let s := s.onLane n (fun l => { l with retestDue := false })
      if s.laneHeld n = true ∧ pass = true then s.freeLane n else s
  else s

def execHeldPartRetest (lane : Lane) (pass : Bool) (s : State) : Host.Outcome State Fault Refusal :=
  .next (heldPartRetestEffect lane pass s)

/-! ### The placement engine (03_line_receive.md R129 to R131) -/

/-- The TILEMAP that runs in region `r`. -/
def State.regionMap (s : State) (r : Nat) : List Nat := (s.loader.retained.map (fun c => c.tilemaps.getD r [])).getD []

/-- SIG and ERR of the last window of lane `n`. -/
def State.lastSig (s : State) (n : Nat) : Nat := s.get (LINE.SIG_LO.f n) + 2 ^ 32 * s.get (LINE.SIG_HI.f n)
def State.lastErr (s : State) (n : Nat) : Nat := s.get (LINE.ERR_LO.f n) + 2 ^ 32 * s.get (LINE.ERR_HI.f n)

/-- Lane `a` has a lower signal to error ratio than lane `b`. -/
def State.harder (s : State) (a b : Nat) : Bool := decide (s.lastSig a * s.lastErr b < s.lastSig b * s.lastErr a)

/-- 10 log10 of `a`'s ratio is at least `hyst` tenths of a decibel above that of `b`: the ratios' quotient to the power 100 is
at least 10 to the power `hyst`. -/
def State.aboveBy (s : State) (a b hyst : Nat) : Bool :=
  decide (10 ^ hyst * (s.lastErr a * s.lastSig b) ^ 100 ≤ (s.lastSig a * s.lastErr b) ^ 100)

/-- The measure of start `x` of lane `n`, where it has been taken; 0 where it has not (log 38). -/
def State.segMeasure (s : State) (n x : Nat) : Nat :=
  match (s.pool (n / 2)).segs.find? (fun e => decide (e.1 = n) && decide (e.2.1 = x)) with
  | some e => e.2.2
  | none => 0

/-- best_segment of lane `n`: start and measure, the lower start on a tie (log 38). -/
def State.bestSegment (s : State) (n : Nat) : Nat × Nat :=
  match s.segStarts n with
  | [] => (0, 0)
  | x :: xs =>
    xs.foldl (fun b y => if b.2 < s.segMeasure n y then (y, s.segMeasure n y) else b) (x, s.segMeasure n x)

/-- Pool tile `p` of region `r` is loaded as an extension of lane `n`, unless it cannot be. -/
def State.attachTile (s : State) (r n p : Nat) : State :=
  let t := poolTile r p
  if !s.usable t || decide (s.test.run = some t) || ((s.pool r).ext p).isSome || (s.loadingFor t).isSome then s
  else
    let sel := (s.regionMap r).getD (2 + p) 0
    let best := s.bestSegment n
    let ffe := if sel = 1 then true else if sel = 2 then false else decide (s.get (LINE.PLACE_SEG_MIN.f (2 * r)) ≤ best.2)
    if ffe = false ∧ (s.extsOf n).any (fun e => !e.ffe) = true then s
    else
      let x : PoolExt := { ffe := ffe, start := if ffe then best.1 else 0, g := List.replicate 12 0, p1 := 0, p2 := 0 }
      let y := { s.pool r with holder := some n }
      let s := (s.setPool r (if p = 0 then { y with ext0 := some x } else { y with ext1 := some x }))
      let s := (s.put (TILE.TILE_INFO_FN.f t) (if ffe then 1 else 2)).put (TILE.TILE_INFO_SERVES.f t) n
      ((s.showExts r).raiseLane n 4).countLane n 0x14 1

/-- attach(lane). -/
def State.attach (s : State) (r n : Nat) : State := (s.attachTile r n 0).attachTile r n 1

/-- The placement engine serves region `r`: placement policy, a part with power. -/
def State.placesIn (s : State) (r : Nat) : Bool := s.placement r && s.laneServed (2 * r)

/-- The hardest of the candidate lanes, the lower number on a tie. -/
def State.hardest (s : State) (cand : List Nat) : Option Nat :=
  match cand with
  | [] => none
  | n :: r => some (r.foldl (fun a b => if s.harder b a then b else a) n)

/-- PLACEMENT_EVAL (R129), one unit of the placement engine's work (13_thermal.md R392). -/
def placementEvalEffect (r : Region) (s : State) : State :=
  let cand := [2 * r.val, 2 * r.val + 1].filter (fun n =>
    bitAt ((s.regionMap r).getD 4 0) (n % 2) && s.getB (LINE.MEAS_STAT_VALID.f n))
  match s.placesIn r && (s.pool r).withdraw.isNone, s.hardest cand with
  | true, some h =>
    s.bgUnit 4 (fun s =>
      let p := s.pool r
      match p.holder with
      | none => s.attach r h
      | some k =>
        if k = h then s.setPool r { p with streak := 0 }
        else
          let worse := !cand.contains k || s.aboveBy k h (s.get (LINE.PLACE_PLACE_HYST.f (2 * r.val)))
          let streak := if worse then p.streak + 1 else 0
          if 3 ≤ streak then s.setPool r { p with streak := 0, withdraw := some (16, h) }
          else s.setPool r { p with streak := streak })
  | _, _ => s

def execPlacementEval (r : Region) (s : State) : Host.Outcome State Fault Refusal := .next (placementEvalEffect r s)

/-- SEGMENT_MEASURE (R130): 2^16 cycles of a lane in TRACK have been measured at one candidate start, and its m, between 0 and
96, is kept. -/
def segmentMeasureEffect (n : Lane) (s : State) : State :=
  let r := n.val / 2
  let x := (s.lane n).rxp
  if s.placesIn r && decide (s.rx n = .track) && decide (x.segN = 65536) then
    let p := s.pool r
    let m := (x.segG.foldl (fun a g => a + g.natAbs) 0) >>> 16
    let s := s.onLane n (fun l => { l with rxp := { l.rxp with segN := 0 } })
    s.setPool r
      { p with segs := (n.val, x.segS, m) :: p.segs.filter (fun e => !(decide (e.1 = n.val) && decide (e.2.1 = x.segS))) }
  else s

def execSegmentMeasure (lane : Lane) (s : State) : Host.Outcome State Fault Refusal := .next (segmentMeasureEffect lane s)

/-- An accumulator whose field value is halved toward zero. -/
def halveAcc (a : Int) : Int := 4096 * (accVal a).tdiv 2

/-- The coefficients of an extension halved. -/
def PoolExt.halve (x : PoolExt) : PoolExt := { x with g := x.g.map halveAcc, p1 := halveAcc x.p1, p2 := halveAcc x.p2 }

/-- WITHDRAW_HALVE (R129, R131): one halving; after the sixteenth the extensions are detached and go to the lane that the
engine chose. -/
def withdrawHalveEffect (r : Region) (s : State) : State :=
  let p := s.pool r
  match s.placesIn r, p.withdraw with
  | true, some (k, h) =>
    if 1 < k then
      s.setPool r { p with ext0 := p.ext0.map PoolExt.halve, ext1 := p.ext1.map PoolExt.halve, withdraw := some (k - 1, h) }
    else
      let s := s.setPool r { p with withdraw := none, streak := 0 }
      ((s.detach r 0).detach r 1).attach r h
  | _, _ => s

def execWithdrawHalve (r : Region) (s : State) : Host.Outcome State Fault Refusal := .next (withdrawHalveEffect r s)

end Sys2Proof.Machine
end

