-- ==== Sys2Proof/Machine/Intc.lean ====
section
/-!
DEFINITION. The interrupt controller's claims and deliveries, software sources, event counters, and the performance
counters' commands (15_management.md R433 to R443).
-/

namespace Sys2Proof.Machine

open Sys2Proof

/-- HOLDOFF × 100 ns have passed since tick `last` (R436): one tick is 256/425 ns. -/
def State.heldOff (s : State) (t : Nat) (last : Option Nat) : Bool :=
  let h := s.get (if t = 0 then INTC.HOLDOFF_HOLDOFF0.f else INTC.HOLDOFF_HOLDOFF1.f)
  match last with
  | some k => decide ((s.time.tick - k) * 256 < 42500 * h)
  | none => false

/-- Target `t` is idle (R436). -/
def State.targetIdle (s : State) (t : Nat) : Bool :=
  if t = 0 then s.intc.claims.isEmpty else s.getB INTC.IC_STAT_CORE_WAIT.f

/-- A delivery to target `t` is allowed now: to an idle target at once, to a busy one after the hold-off (R436). -/
def State.mayDeliver (s : State) (t : Nat) : Bool :=
  s.targetIdle t || !s.heldOff t (if t = 0 then s.intc.last0 else s.intc.last1)

/-- IRQ_N evaluated (R435, R437, R438): released with nothing deliverable; a delivery where it was released and one is
allowed. -/
def State.evalIrq (s : State) : State :=
  let s := s.releaseIrq
  if s.intc.irqLow = false ∧ (s.bestSource 0).isSome = true ∧ s.mayDeliver 0 = true then
    ({ s with intc := { s.intc with irqLow := true, last0 := some s.time.tick } }).countD0 0x30 15 1
  else s

/-- A delivery to the Mace core, which leaves WAIT (R436; 12_power.md R373). -/
def State.evalCore (s : State) : State :=
  if (s.bestSource 1).isSome = true ∧ s.mayDeliver 1 = true then
    ({ s with intc := { s.intc with last1 := some s.time.tick } }).put INTC.IC_STAT_CORE_WAIT.f 0
  else s

/-- IRQ_DELIVERY (R436). -/
def irqDeliveryEffect (t : Fin 2) (s : State) : State :=
  if s.d0Up then (if t.val = 0 then s.evalIrq else s.evalCore) else s

def execIrqDelivery (target : Fin 2) (s : State) : Host.Outcome State Fault Refusal := .next (irqDeliveryEffect target s)

/-- A read of CLAIM (R437): the word it returns, and the state with the source claimed. -/
def State.claimRead (s : State) : Nat × State :=
  match s.bestSource 0 with
  | some i =>
    (2 ^ 31 + i, ({ s with intc := { s.intc with claims := (i, s.get (INTC.SRC_PRIORITY.f 0 i)) :: s.intc.claims } } : State).evalIrq)
  | none => (0, s)

/-- The words a read returned, as the port holds them. -/
def State.answer (s : State) (ws : List Nat) : State :=
  { s with mgmt := { s.mgmt with out := { s.mgmt.out with ack := true, words := ws, bytes := 4 * ws.length } } }

/-- CLAIM (R437). -/
def claimEffect (s : State) : State := if s.d0Up then s.claimRead.2.answer [s.claimRead.1] else s

def execClaim (s : State) : Host.Outcome State Fault Refusal := .next (claimEffect s)

/-- COMPLETE of source `i` (R438): a name that is not claimed is ignored. -/
def State.completeClaim (s : State) (i : Nat) : State :=
  if s.claimed i then
    ({ s with intc := { s.intc with claims := s.intc.claims.filter (fun c => decide (c.1 ≠ i)) } } : State).evalIrq
  else s

def completeEffect (value : Word) (s : State) : State := if s.d0Up then s.completeClaim (value.toNat % 512) else s

def execComplete (value : Word) (s : State) : Host.Outcome State Fault Refusal := .next (completeEffect value s)

/-- SW_SET (R440): each 1 sets its bit; a bit already set counts an event (R433). -/
def State.setSw (s : State) (v : Nat) : State :=
  s.each ((List.range 8).filter (fun b => bitAt v b)) (fun s b => s.raise (366 + b))

def swSetEffect (value : Word) (s : State) : State := if s.d0Up then s.setSw value.toNat else s

def execSwSet (value : Word) (s : State) : Host.Outcome State Fault Refusal := .next (swSetEffect value s)

/-- COUNT_CLR of source `i` (R433). -/
def countClrEffect (i : Nat) (s : State) : State := if s.d0Up = true ∧ i < 384 then s.put (INTC.SRC_COUNT.f 0 i) 0 else s

def execCountClr (source : Nat) (s : State) : Host.Outcome State Fault Refusal := .next (countClrEffect source s)

/-! ### Performance counters -/

/-- Bank `d` is served (R450). -/
def State.bankServed (s : State) (d : Nat) : Bool := s.d0Up && (d == 0 || s.dieUp (d - 1))

/-- The count of counter `i` of bank `d`. -/
def State.count (s : State) (d i : Nat) : Nat := s.counts.get 0 (64 * d + i)

def State.setCount (s : State) (d i v : Nat) : State := { s with counts := s.counts.set 0 (64 * d + i) v }

/-- A read of CNT_LO (R441): bits [47:32] are latched into CNT_HI. -/
def State.latchCount (s : State) (d i : Nat) : State := s.put (PERF.CNT_HI.f d i) (s.count d i / 2 ^ 32)

def cntLoReadEffect (d : Fin 3) (i : Nat) (s : State) : State :=
  if s.bankServed d = true ∧ i < bankSize d then (s.latchCount d i).answer [s.count d i % 2 ^ 32] else s

def execCntLoRead (bank : Fin 3) (i : Nat) (s : State) : Host.Outcome State Fault Refusal := .next (cntLoReadEffect bank i s)

/-- CLEAR of one counter (R443). -/
def clearEffect (d : Fin 3) (i : Nat) (s : State) : State :=
  if s.bankServed d = true ∧ i < bankSize d then s.setCount d i 0 else s

def execClear (bank : Fin 3) (i : Nat) (s : State) : Host.Outcome State Fault Refusal := .next (clearEffect bank i s)

/-- Every count of bank `d` set to 0 (R443). -/
def State.clearBank (s : State) (d : Nat) : State :=
  { s with counts := s.counts.drop (fun k => decide (64 * d ≤ k) && decide (k < 64 * (d + 1))) }

def clearAllCountersEffect (d : Fin 3) (s : State) : State := if s.bankServed d then s.clearBank d else s

def execClearAllCounters (bank : Fin 3) (s : State) : Host.Outcome State Fault Refusal :=
  .next (clearAllCountersEffect bank s)

/-- FREEZE (R443). -/
def freezeEffect (d : Fin 3) (on : Bool) (s : State) : State :=
  if s.bankServed d then s.putB (PERF.BANK_CTL_FREEZE.f d) on else s

def execFreeze (bank : Fin 3) (on : Bool) (s : State) : Host.Outcome State Fault Refusal := .next (freezeEffect bank on s)

end Sys2Proof.Machine
end

