-- ==== Sys2Proof/Machine/Context.lean ====
section
/-!
DEFINITION. Context commands, grouping, the hash seed, the placement engine, fills and relocations, and FILL
(07_peer_contexts.md R225, R226, R236, R241 to R249; 11_memory.md R350).
-/

namespace Sys2Proof.Machine

open Sys2Proof

/-! ### Running a context command -/

/-- The part of the device that stops a context command on the lanes of a descriptor (R245): a line die in reset, or a
region or group without power. -/
def State.ctxStop (s : State) (d : Nat) : Option Status :=
  if (descLanes d).any (fun n => s.gated (n / 2) || s.parked n) then some .abortedPower
  else if (descLanes d).any (fun n => !s.dieUp (n / 4)) then some .abortedFault
  else none

/-- The context engine can run a command now: after the fill with zeros (R236); commands that use GDDR7 wait while it is
not serving, and end when it is powered down (R245). -/
def State.ctxReady (s : State) (usesMem : Bool) : Bool :=
  s.ctx.ready && (!usesMem || !s.hasD3 || s.memServes || s.getB MEM.MEM_STAT_SELF_REFRESH.f)

/-- GDDR7 is powered down under a command that uses it. -/
def State.memDown (s : State) : Bool := s.hasD3 && s.getB MEM.MEM_STAT_SELF_REFRESH.f

/-- The command completes, and the note of a bad burst is cleared. -/
def State.endCtx (s : State) (w : List Nat) (st : Status) (r0 : Nat) : State :=
  ({ s with ctx := { s.ctx with cmdBad := false, cmdSeen := [] } }).complete .context w st 0 r0 0

/-- The command completes with POISON: poisoned data is consumed by a context command (11_memory.md R352) (log 65). -/
def State.endPoison (s : State) (w : List Nat) : State := (s.poisonUse 2 0).endCtx w .poison 0

/-- The head command of the context engine, if it is `op` of `opcode` with a valid descriptor: `f` gets the words, the peer
ID and the descriptor.  Otherwise BAD_GROUP, or nothing happens (log 16). -/
def State.ctxCmd (s : State) (opcode op : Nat) (usesMem : Bool) (f : List Nat → Nat → Nat → State) : State :=
  match s.headIs .context opcode op with
  | some w =>
    if s.ctxReady usesMem then
      if !descOk (cmdWord w 2 % 256) then s.endCtx w .badGroup 0
      else if usesMem && s.memDown then s.endCtx w .abortedPower 0
      else f w (cmdWord w 1) (cmdWord w 2 % 256)
    else s
  | none => s

/-- A resident or pinned old copy is replaced in the cache by the new one (R242): a VALID line at once; one that is being filled is
filled from the new slot; one that an apply reads when the apply ends. -/
def State.moveLine (s : State) (a b : Nat) (img : List Nat) : State :=
  match s.hasD3, (s.ctx.lines.find? (fun p => decide (p.2.slot = a) && decide (p.2.st ≠ .free))).map (·.1) with
  | true, some l =>
    let x := s.line l
    match x.st with
    | .filling => s.setLine l { x with slot := b, bad := false, seen := [] }
    | .inUse => s.setLine l { x with next := some b }
    | _ =>
      let s := s.setLine l { x with slot := b, lastUse := s.time.tick }
      let bs : List MByte := img.map (fun x => ⟨BitVec.ofNat 8 x, false⟩)
      { s with ctx := { s.ctx with lineMem := s.ctx.lineMem.setRun .unwritten (16384 * l) bs } }
  | _, _ => s

/-- A checked slot image stored under a key (R242): in the lowest free slot, the entry switched, the old slot freed; in
place where no slot is free. -/
def State.storeImage (s : State) (w : List Nat) (peer d : Nat) (img : List Nat) : State :=
  let s := s.looked
  match s.lookupKey peer d with
  | .poison => s.endPoison w
  | look =>
    match s.freeSlot with
    | some j =>
      let e : DirEntry := { peer := peer, group := d, slot := j, valid := true, pin := false, poison := false }
      match s.ctx.insert s.seed s.slotCount e with
      | .ok c =>
        let s := (s.countD0 0x30 5 1).countD0 0x30 6 (natOf (decide (s.ctx.stashUsed < c.stashUsed)))
        let s := (({ s with ctx := { c with used := c.used.set false j true } }).writeSlot j img)
        let s := match look with
          | .hit _ _ x => s.moveLine x.slot j img |>.freeSlotAt x.slot
          | _ => s
        s.endCtx w .ok j
      | .noSlot => s.endCtx w .noSlot 0
      | .dirFull => (s.raise 299).endCtx w .dirFull 0
      | .poison => s.endPoison w
    | none =>
      match look with
      | .hit _ _ x =>
        if s.fetching x.slot then s
        else (((s.writeSlot x.slot img).moveLine x.slot x.slot img).staleSlot x.slot).endCtx w .ok x.slot
      | _ => s.endCtx w .noSlot 0

/-- CONTEXT_WRITE STORE_BUFFER (R241) (log 69). -/
def storeBufferEffect (s : State) : State :=
  s.ctxCmd 3 0 true (fun w peer d =>
    let len := 2048 * descSize d
    let bs := s.ctx.buf.getRun .unwritten 0 len
    if bs.any (·.poison) then (s.parity 6).endPoison w
    else
      let img := bs.map (·.val.toNat)
      if recordsOk img peer d then s.storeImage w peer d (img ++ List.replicate (16384 - len) 0)
      else s.endCtx w .content 0)

def execStoreBuffer (s : State) : Host.Outcome State Fault Refusal := .next (storeBufferEffect s)

/-- The slot image of the present trained state of a group (R243). -/
def State.liveImage (s : State) (peer d : Nat) : List Nat :=
  let img := (descLanes d).flatMap (fun n => s.liveRecord peer d (n - descStart d) n)
  img ++ List.replicate (16384 - img.length) 0

/-- The statuses that stop taking the live state of a group (R243, R245). -/
def State.liveStop (s : State) (d : Nat) : Option Status :=
  if !s.isGroup d then some .notGroup
  else
    match s.ctxStop d with
    | some st => some st
    | none =>
      if (descLanes d).all (fun n => !s.laneOn n || s.getB (LINE.RX_STATE_TRAINED.f n)) then none else some .notTrained

/-- CONTEXT_WRITE STORE_LIVE (R241, R243) (log 69). -/
def storeLiveEffect (s : State) : State :=
  s.ctxCmd 3 1 true (fun w peer d =>
    match s.liveStop d with
    | some st => s.endCtx w st 0
    | none => s.storeImage w peer d (s.liveImage peer d))

def execStoreLive (s : State) : Host.Outcome State Fault Refusal := .next (storeLiveEffect s)

/-- CONTEXT_WRITE REMOVE (R241, R236) (log 69). -/
def removeEffect (s : State) : State :=
  s.ctxCmd 3 2 false (fun w peer d =>
    let s := s.looked
    match s.lookupKey peer d with
    | .miss => s.endCtx w .notFound 0
    | .poison => s.endPoison w
    | .hit way i e =>
      let s := { s with ctx := s.ctx.removeAt s.seed way i }
      (s.freeSlotAt e.slot).endCtx w .ok 0)

def execRemove (s : State) : Host.Outcome State Fault Refusal := .next (removeEffect s)

/-- The lines that hold slot `j` get PIN `on` (log 64). -/
def State.pinLines (s : State) (j : Nat) (on : Bool) : State :=
  { s with ctx := { s.ctx with lines := s.ctx.lines.map (fun p =>
      if p.2.slot = j ∧ p.2.st ≠ .free then (p.1, { p.2 with pin := on }) else p) } }

/-- A line holds slot `j`, or is being filled with it. -/
def State.holds (s : State) (j : Nat) : Bool :=
  s.ctx.lines.any (fun p => decide (p.2.slot = j) && decide (p.2.st ≠ .free))

/-- CONTEXT_WRITE PIN (R241, R247, R249): without the placement engine only the flag changes (log 64). -/
def pinEffect (s : State) : State :=
  s.ctxCmd 3 3 false (fun w peer d =>
    let s := s.looked
    match s.lookupKey peer d with
    | .miss => s.endCtx w .notFound 0
    | .poison => s.endPoison w
    | .hit way i e =>
      let flagged := { s with ctx := s.ctx.setEntry way i { e with pin := true } }
      if s.placeEn then
        if s.holds e.slot then (flagged.pinLines e.slot true).endCtx w .ok 0
        else
          match s.victim with
          | some l => (flagged.beginFill l e.slot 0 true).endCtx w .ok 0
          | none => s.endCtx w .cacheFull 0
      else flagged.endCtx w .ok 0)

def execPin (s : State) : Host.Outcome State Fault Refusal := .next (pinEffect s)

/-- CONTEXT_WRITE UNPIN (R241). -/
def unpinEffect (s : State) : State :=
  s.ctxCmd 3 4 false (fun w peer d =>
    let s := s.looked
    match s.lookupKey peer d with
    | .miss => s.endCtx w .notFound 0
    | .poison => s.endPoison w
    | .hit way i e =>
      (({ s with ctx := s.ctx.setEntry way i { e with pin := false } }).pinLines e.slot false).endCtx w .ok 0)

def execUnpin (s : State) : Host.Outcome State Fault Refusal := .next (unpinEffect s)

/-- CONTEXT_WRITE APPLY_NOW (R241): the command completes with its apply. -/
def applyNowEffect (s : State) : State :=
  s.ctxCmd 3 5 false (fun w peer d =>
    if s.ctx.applies.any (fun x => decide (x.cmd = some w)) then s else s.startApply peer d false (some w))

def execApplyNow (s : State) : Host.Outcome State Fault Refusal := .next (applyNowEffect s)

/-- CONTEXT_WRITE CLEAR_ALL (R241): every entry, slot, line and PIN; a slot or line in use is freed after its use (log 69). -/
def clearAllEffect (s : State) : State :=
  match s.headIs .context 3 6 with
  | some w =>
    if s.ctxReady false then
      if !descOk (cmdWord w 2 % 256) then s.endCtx w .badGroup 0
      else
        let busy := (s.ctx.used.map (·.1)).filter (fun j => s.fetching j ||
          s.ctx.lines.any (fun p => decide (p.2.slot = j) && decide (p.2.st = .inUse)))
        let keep := s.ctx.lines.filter (fun p => decide (p.2.st = .inUse) || decide (p.2.st = .filling))
        let c := { s.ctx with
          w0 := [], w1 := [], stash := []
          used := s.ctx.used.filter (fun p => busy.contains p.1)
          lines := keep.map (fun p => (p.1, { p.2 with pin := false }))
          freeLater := busy, reloc := [] }
        ({ s with ctx := c }).endCtx w .ok 0
    else s
  | none => s

def execClearAll (s : State) : Host.Outcome State Fault Refusal := .next (clearAllEffect s)

/-- The context buffer filled with a slot image (log 65). -/
def State.fillBuffer (s : State) (bs : List MByte) : State :=
  let img := (bs ++ List.replicate (16384 - bs.length) MByte.zero).take 16384
  { s with ctx := { s.ctx with buf := s.ctx.buf.setRun .unwritten 0 img } }

/-- CONTEXT_READ STORED (R244) (log 65). -/
def contextReadStoredEffect (s : State) : State :=
  s.ctxCmd 4 0 true (fun w peer d =>
    let s := s.looked
    match s.lookupKey peer d with
    | .miss => s.endCtx w .notFound 0
    | .poison => s.endPoison w
    | .hit _ _ e =>
      let r := s.readSlot e.slot 3 (2048 * descSize d) s.ctx.cmdSeen
      let s := r.1.fillBuffer r.2
      if s.ctx.cmdBad || r.2.any (·.poison) then s.endPoison w else s.endCtx w .ok 0)

def execContextReadStored (s : State) : Host.Outcome State Fault Refusal := .next (contextReadStoredEffect s)

/-- CONTEXT_READ LIVE (R244). -/
def contextReadLiveEffect (s : State) : State :=
  s.ctxCmd 4 1 false (fun w peer d =>
    match s.liveStop d with
    | some st => s.endCtx w st 0
    | none => (s.fillBuffer ((s.liveImage peer d).map (fun b => ⟨BitVec.ofNat 8 b, false⟩))).endCtx w .ok 0)

def execContextReadLive (s : State) : Host.Outcome State Fault Refusal := .next (contextReadLiveEffect s)

/-- CONTEXT_READ LOOKUP (R244) (log 69). -/
def lookupEffect (s : State) : State :=
  s.ctxCmd 4 2 false (fun w peer d =>
    let s := s.looked
    match s.lookupKey peer d with
    | .miss => s.endCtx w .notFound 0
    | .poison => s.endPoison w
    | .hit _ _ e => s.endCtx w .ok (e.slot + 2 ^ 16 * natOf e.pin + 2 ^ 17 * natOf (s.lineOf e.slot).isSome))

def execLookup (s : State) : Host.Outcome State Fault Refusal := .next (lookupEffect s)

/-! ### FILL (11_memory.md R350) -/

/-- A context command that uses the buffer has been taken and is not complete (R245). -/
def State.bufferHeld (s : State) : Bool :=
  s.mgmt.taken.any (fun t => decide (t.engine = .context) &&
    ((cmdOpcode t.words == 3 && cmdOp t.words == 0) || (cmdOpcode t.words == 4 && decide (cmdOp t.words ≤ 1))))

/-- FILL: zeros over a range of the staging buffer, the context buffer or the capture ring. -/
def fillEffect (s : State) : State :=
  s.withHead .memory 2 0 (fun w =>
    let a := cmdWord w 1
    let len := cmdWord w 2
    if 0x80000000 ≤ a then
      if s.hasD3 = false then s.complete .memory w .noMemory 0 0 0
      else if s.memDown then s.complete .memory w .abortedPower 0 0 0
      else if s.memServes then (s.d3Write a (List.replicate len MByte.zero)).complete .memory w .ok 0 0 0
      else s
    else if a < 0x000E8000 then
      if s.bufferHeld then s.complete .memory w .busy 0 0 0
      else
        ({ s with ctx := { s.ctx with buf := s.ctx.buf.fillRun .unwritten (a - 0x00034000) len MByte.zero } }).complete .memory w
          .ok 0 0 0
    else if s.getB LOADER.STATUS_BUSY.f then s.complete .memory w .busy 0 0 0
    else
      ({ s with loader := { s.loader with
          staging := s.loader.staging.fillRun .unwritten (a - 0x000E8000) len MByte.zero } }).complete .memory w .ok 0 0 0)

def execFill (s : State) : Host.Outcome State Fault Refusal := .next (fillEffect s)

/-! ### Grouping (R225, R226, R258) -/

/-- A value of GROUP_CFG keeps the nesting of R225. -/
def groupCfgOk (v : Nat) : Bool :=
  let j2 (k : Nat) : Bool := bitAt v k
  let j4 (k : Nat) : Bool := bitAt v (4 + k)
  (!j4 0 || (j2 0 && j2 1)) && (!j4 1 || (j2 2 && j2 3)) && (!bitAt v 6 || (j4 0 && j4 1))

/-- The identification of a dissolved group is abandoned: its lanes in IDWAIT enter GAIN (R226). -/
def State.abandonIdents (s : State) (old : List Nat) : State :=
  s.each old (fun s d =>
    if s.isGroup d then s
    else (s.dropIdent (descStart d)).each (descLanes d) (fun s n => s.idFail n))

/-- The registers of `g` cleared when it is no longer a lowest lane (R258). -/
def State.clearGroupRegs (s : State) (g : Nat) : State :=
  if s.lowest g then s
  else
    let s := ((s.put (CTX.APPLY_STAT_RESULT.f 0 g) 0).put (CTX.APPLY_STAT_CACHE_HIT.f 0 g) 0).put (CTX.APPLY_STAT_UNSCHED.f 0 g) 0
    let s := ((s.put (CTX.APPLY_STAT_LANES_SKIPPED.f 0 g) 0).put (CTX.APPLY_STAT_DONE.f 0 g) 0).put (CTX.APPLY_STAT_FAIL.f 0 g) 0
    s.put (CTX.APPLY_PEER_PEER_ID.f 0 g) 0

/-- The beacon of a lane that is no longer lowest (08_beacon.md R286): a frame being received is abandoned; a held frame is
skipped; a frame being sent completes. -/
def State.beaconRegroup (s : State) (n : Nat) : State :=
  if s.lowest n then s
  else ((s.setBcn n { s.bcnL n with rx := none, noiseDirty := true }).put (BCN.RX_STAT_RECEIVING.f n) 0).dropHeld n

/-- The three fields of GROUP_CFG. -/
def State.setGroups (s : State) (v : Nat) : State :=
  ((s.put CTX.GROUP_CFG_J2.f v).put CTX.GROUP_CFG_J4.f (v / 16)).put CTX.GROUP_CFG_J8.f (v / 64)

/-- Under the grouping of `s` a group holds both parked and unparked lanes (12_power.md R374). -/
def State.mixedParking (s : State) : Bool :=
  (List.range 8).any (fun n => s.parked n != s.parked (s.groupOf n))

/-- A write of GROUP_CFG (R225, R226) (log 35). -/
def groupCfgWriteEffect (value : Word) (s : State) : State :=
  let v := value.toNat % 128
  if s.d0Up then
    if groupCfgOk v && !(s.setGroups v).mixedParking then
      let old := s.ctx.idents.map (fun p => s.descOf p.1)
      let s := s.setGroups v
      let s := s.each (List.range 8) (fun s g => s.clearGroupRegs g)
      let s := s.each (List.range 8) (fun s n => s.beaconRegroup n)
      let s := s.abandonIdents old
      s.abortApplies (fun x => !s.isGroup x.desc && !x.stamped) 2
    else s.raise 296
  else s

def execGroupCfgWrite (value : Word) (s : State) : Host.Outcome State Fault Refusal := .next (groupCfgWriteEffect value s)

/-- A write of HASH_SEED (R236): only with an empty directory (log 35). -/
def hashSeedWriteEffect (value : Word) (s : State) : State :=
  if s.d0Up then
    if s.ctx.entries = 0 then s.put CTX.HASH_SEED.f value.toNat else s.raise 296
  else s

def execHashSeedWrite (value : Word) (s : State) : Host.Outcome State Fault Refusal := .next (hashSeedWriteEffect value s)

/-! ### The placement engine (R247, R248) -/

/-- One schedule entry marked for prefetch (R247). -/
def State.prefetch (s : State) (p : Nat) : State :=
  let b := (s.pos p).bytes
  let s := { s.looked with ctx := { s.looked.ctx with marked := s.ctx.marked ++ [p] } }
  match s.lookupKey (entryOperand b) (entryGroup b) with
  | .hit _ _ e =>
    let due (s : State) (l : Nat) : State := s.setLine l { s.line l with due := max (s.line l).due (entryTime b) }
    match (s.ctx.lines.find? (fun q => decide (q.2.slot = e.slot) && decide (q.2.st ≠ .free))).map (·.1) with
    | some l => due s l
    | none =>
      match s.victim with
      | some l => due ((s.beginFill l e.slot 0 false).countD0 0x30 7 1) l
      | none => s.raise 297
  | _ => s

/-- The entries that a tick marks, in order of time: enabled APPLY_CONTEXT entries within PREFETCH_LEAD. -/
def State.prefetchable (s : State) : List Nat :=
  let lead := s.get CTX.CTX_CFG_PREFETCH_LEAD.f * 1000 * nsUnits
  let ps := s.pendingWhere (fun p x =>
    entryEnable x.bytes && decide (entryAction x.bytes = 1) && decide (entryTime x.bytes ≤ s.now + lead) &&
      !s.ctx.marked.contains p)
  ps.mergeSort (fun a b => decide (entryTime (s.pos a).bytes ≤ entryTime (s.pos b).bytes))

/-- PLACEMENT_TICK (R247): each microsecond; background work, paused by throttling (R392). -/
def placementTickEffect (s : State) : State :=
  if s.placeEn && s.getB CTX.CTX_CFG_PREFETCH_EN.f && s.d0Up then
    s.bgUnit 4 (fun s => s.each s.prefetchable (fun s p => s.prefetch p))
  else s

def execPlacementTick (s : State) : Host.Outcome State Fault Refusal := .next (placementTickEffect s)

/-- CACHE_FILL_DONE (R246, R247): the line is VALID if every record of the key that holds its slot passed R231, else FREE; a corrected fetch
is relocated (R248). -/
def cacheFillDoneEffect (line : Fin 256) (s : State) : State :=
  let x := s.line line
  if x.st = .filling ∧ s.memServes = true then
    let fixed := s.slotFixed x.slot 16384
    let r := s.readSlot x.slot 4 16384 x.seen
    let s := r.1
    let bytes := r.2.map (·.val.toNat)
    let key := s.ctx.keyOf x.slot
    let peer := (key.map (·.1)).getD 0
    let d := (key.map (·.2)).getD 0
    let good := !x.bad && key.isSome && descOk d && !(r.2.take (2048 * descSize d)).any (·.poison) && recordsOk bytes peer d
    let s :=
      if good then
        let s := { s with ctx := { s.ctx with lineMem := s.ctx.lineMem.setRun .unwritten (16384 * line) r.2 } }
        s.setLine line { x with st := .valid, lastUse := s.time.tick }
      else s.setLine line .fresh
    (s.noteReloc (good && fixed) x.slot peer d).settleSlots
  else s

def execCacheFillDone (line : Fin 256) (s : State) : Host.Outcome State Fault Refusal := .next (cacheFillDoneEffect line s)

/-- The lines that hold slot `a` hold slot `b` instead. -/
def State.renameLines (s : State) (a b : Nat) : State :=
  { s with ctx := { s.ctx with lines := s.ctx.lines.map (fun p =>
      if p.2.slot = a ∧ p.2.st = .valid then (p.1, { p.2 with slot := b }) else p) } }

/-- RELOCATED (R248): the context that needed a correction is rewritten, in the lowest free slot or in place (log 69). -/
def relocatedEffect (slot : Nat) (s : State) : State :=
  match s.ctx.reloc.find? (fun r => decide (r.1 = slot)) with
  | some (_, peer, d) =>
    let drop (s : State) : State := { s with ctx := { s.ctx with reloc := s.ctx.reloc.erase (slot, peer, d) } }
    match s.placeEn && s.memServes, s.lookupKey peer d with
    | true, .hit way i e =>
      if e.slot ≠ slot then drop s
      else
        let img := ((List.range 2048).flatMap (fun k => leBytes 8 (s.d3Word (slotAddr slot + 8 * k)).val))
        match s.freeSlot with
        | some j =>
          let s := { s with ctx := { s.ctx with used := s.ctx.used.set false j true } }
          let s := s.writeSlot j img
          let s := { s with ctx := s.ctx.setEntry way i { e with slot := j } }
          drop (((s.renameLines slot j).freeSlotAt slot).raise 298)
        | none => if s.fetching slot then s else drop ((s.writeSlot slot img).raise 298)
    | true, _ => drop s
    | false, _ => s
  | none => s

def execRelocated (slot : Nat) (s : State) : Host.Outcome State Fault Refusal := .next (relocatedEffect slot s)

end Sys2Proof.Machine
end

