-- ==== Sys2Proof/Machine/Time.lean ====
section
/-!
DEFINITION. The time base's sources, servo, steps and readings: PPS with time of day, the Sumac bus, refusal and
acceptance, the segment boundary, SNAP and conversion (09_time.md R289 to R301, R310, R311).
-/

namespace Sys2Proof.Machine

open Sys2Proof

/-- CCLK runs: D0 is out of reset, REFCLK is present and the root RPLL has locked to it (R292, 12_power.md R372). -/
def State.cclkRuns (s : State) : Bool := s.d0Up && s.power.refclk && decide (s.power.vin = .up)

def State.setTime (s : State) (t : TimeSt) : State := { s with time := t }

/-- An event bit of TIME_EVT. -/
def State.timeEvent (s : State) (bit : Nat) : State := s.raise (301 + bit)

/-- The source that acts (R293): SRC 2 acts as 0 unless SUMAC_ROLE is slave. -/
def State.actingSrc (s : State) : Nat :=
  if s.time.src = 2 ∧ s.get TIME.TIME_CFG_SUMAC_ROLE.f ≠ 1 then 0 else s.time.src

/-! ### PEND (R299) -/

/-- What a rate offset `q` of 2^-40 slews in `n` ticks, in units of 2^-48 ns. -/
def slewUnits (q : Int) (n : Nat) : Int := q * (n : Int) * 65536 / 425

/-- PEND of the moment: reduced by the slew applied since the last measurement. -/
def State.pendNow (s : State) : Int :=
  if s.getB TIME.TIME_STAT_STEP_PENDING.f then
    s.time.pend - slewUnits s.time.qNow (s.time.tick - s.time.pendTick)
  else 0

/-- STEP_PENDING cleared and PEND zeroed. -/
def State.pendClear (s : State) : State :=
  (s.setTime { s.time with pend := 0, pendTick := s.time.tick }).put TIME.TIME_STAT_STEP_PENDING.f 0

/-! ### The servo (R298; log 26) -/

/-- JUMP_LIMIT in units of 2^-48 ns. -/
def State.jumpLimit (s : State) : Int := (s.get TIME.JUMP_JUMP_LIMIT.f * nsUnits : Nat)

/-- SLEW_MAX in units of 2^-40. -/
def State.slewMax (s : State) : Int := (s.get TIME.SERVO_SLEW_MAX.f * 2 ^ 40 / 10000000 : Nat)

/-- 200 ppm in units of 2^-40. -/
def freqMax : Int := (2 ^ 40 * 200 / 1000000 : Nat)

/-- `e / tau * 2^-k` as a rate in units of 2^-40, `e` in units of 2^-48 ns and `tau` in ns. -/
def rateOf (e : Int) (tau k : Nat) : Int := roundDiv e ((tau * 2 ^ (8 + k) : Nat) : Int)

/-- E as LAST_ERR shows it: units of 2^-8 ns, saturating. -/
def errField (e : Int) : Int := satSigned 32 (e / 2 ^ 40)

/-- A measurement with error `e` and interval `tau` ns; `epoch` is the frame's EPOCH under Sumac (R298, R299). -/
def State.measure (s : State) (e : Int) (tau : Nat) (epoch : Option Nat) : State :=
  let first := !s.time.measured
  let s := s.setTime { s.time with measured := true, epochIn := epoch.getD s.time.epochIn }
  let s := ((s.putZ TIME.LAST_ERR.f (errField e)).put TIME.TIME_STAT_HOLDOVER.f 0).put TIME.TIME_STAT_SRC_OK.f 1
  let set := s.getB TIME.TIME_STAT_TIME_SET.f
  let accept := s.getB TIME.TIME_CFG_ACCEPT_FIRST.f
  if set = false ∧ accept = true then
    let st := if s.time.step = some .load then s.time.step else some (.first e epoch)
    (s.setTime { s.time with step := st, q := 0, disciplined := true }).put TIME.TIME_STAT_TIME_SET.f 1
  else if s.jumpLimit < e ∨ e < -s.jumpLimit ∨ (set = false ∧ first = true) then
    let q := clampInt (-s.slewMax) s.slewMax (-(rateOf e tau 0))
    ((s.setTime { s.time with q := q, pend := -e, pendTick := s.time.tick }).put TIME.TIME_STAT_STEP_PENDING.f 1).timeEvent 0
  else
    let f := clampInt (-freqMax) freqMax (s.getZ TIME.FREQ.f - rateOf e tau (s.get TIME.SERVO_KF.f))
    let q := clampInt (-s.slewMax) s.slewMax (-(rateOf e tau (s.get TIME.SERVO_KP.f)))
    let s := s.pendClear
    (s.setTime { s.time with q := q, disciplined := true }).putZ TIME.FREQ.f f

/-! ### PPS and time of day (R294, R295) -/

/-- The edge of this tick is used: the first one, or one 1 s ± 100 µs of local time after the last used one (log 66). -/
def State.edgeOk (s : State) (locl : Int) : Bool :=
  s.time.firstEdge ||
  match s.time.edges with
  | [] => true
  | e :: _ =>
    let d := locl - e.locl
    decide ((secUnits - 100000 * nsUnits : Nat) ≤ d) && decide (d ≤ (secUnits + 100000 * nsUnits : Nat))

/-- PPS_EDGE: an edge of TIME_PPS (log 66). -/
def ppsEdgeEffect (rising : Bool) (s : State) : State :=
  if s.cclkRuns = true ∧ s.actingSrc = 1 ∧ rising ≠ s.getB TIME.TIME_CFG_PPS_POL.f then
    let locl : Int := (s.now : Int) - s.time.stepSum
    if s.edgeOk locl then
      let e : PpsEdge := ⟨s.time.tick, s.now, locl, false⟩
      s.setTime { s.time with edges := (e :: s.time.edges).take 4, firstEdge := false, heard := s.time.tick }
    else s.timeEvent 6
  else s

def execPpsEdge (rising : Bool) (s : State) : Host.Outcome State Fault Refusal := .next (ppsEdgeEffect rising s)

/-- At least `n` ns have passed in `d` ticks. -/
def ticksAtLeast (d n : Nat) : Bool := decide (425 * n ≤ d * 256)

/-- The START bit of a message that completes now began after the edge at `t`: its 11 bytes of 10 bits last 110/115200 s. -/
def beganAfter (now t : Nat) : Bool := decide (425 * 110 * 1000000000 ≤ (now - t) * 256 * 115200)

/-- The fields of a time-of-day message are good (R295): its SEC. -/
def todSec (b : List Nat) : Option Nat :=
  if b.length = 11 ∧ b.getD 0 0 = 0xA5 ∧ b.getD 1 0 = 1 ∧ b.getD 8 0 = 1 ∧ crc16 (b.take 9) = beNat (span b 9 10) then
    some (beNat (span b 2 7))
  else none

/-- TOD_MESSAGE: a message completes now; it belongs to the most recent used edge before its START byte. -/
def todMessageEffect (body : List Byte) (s : State) : State :=
  if s.cclkRuns = true ∧ s.actingSrc = 1 then
    match todSec (body.map (·.toNat)), s.time.edges.find? (fun e => beganAfter s.time.tick e.tick) with
    | some sec, some e =>
      if e.measured = true ∨ s.time.tick - e.tick > 990000000 * 425 / 256 then s.timeEvent 3
      else
        let es := s.time.edges.map (fun x => if x.tick = e.tick then { x with measured := true } else x)
        (s.setTime { s.time with edges := es }).measure ((e.time : Int) - (timeOf sec 0 0 : Nat)) 1000000000 none
    | _, _ => s.timeEvent 3
  else s

def execTodMessage (body : List Byte) (s : State) : Host.Outcome State Fault Refusal := .next (todMessageEffect body s)

/-! ### Sumac (R296, R297, R301) -/

/-- The ticks between a marker and the end of its payload: one bit time and 96 bits of 170 CCLK. -/
def payloadTicks : Nat := 97 * 170

/-- SUMAC_DELAY in units of 2^-48 ns. -/
def State.sumacDelay (s : State) : Int := (s.get TIME.SUMAC_DLY_SUMAC_DELAY.f * 2 ^ 40 : Nat)

/-- The time that a frame with payload `v` names: SEC and MS (R296). -/
def frameTime (v : Nat) : Int := (timeOf (v / 2 ^ 32) (v / 2 ^ 22 % 1024 * 1000000) 0 : Nat)

/-- A good frame with payload `v`, whose marker came at time `marker`, measures the acting source: that time, less the bus delay,
against the time that the frame names (R297, R298). -/
def State.takeFrame (s : State) (v : Nat) (marker : Option Nat) : State :=
  let x := s.setTime { s.time with heard := s.time.tick }
  match marker with
  | some t => x.measure ((t : Int) - s.sumacDelay - frameTime v) 1000000 (some (v / 64 % 65536))
  | none => x

/-- SUMAC_FRAME: a slave has received a marker and its payload, whose last bit arrives now; `body` is the 12 payload bytes
as decoded, of another length where its Manchester coding fails (log 67). -/
def sumacFrameEffect (body : List Byte) (s : State) : State :=
  let b := body.map (·.toNat)
  if s.cclkRuns = true ∧ s.get TIME.TIME_CFG_SUMAC_ROLE.f = 1 then
    if b.length = 12 ∧ crc16 (b.take 10) = beNat (span b 10 11) then
      let v := beNat (b.take 10)
      if s.actingSrc = 2 ∧ bitAt v 0 = true then s.takeFrame v (s.convert (s.time.tick - payloadTicks)) else s
    else s.timeEvent 4
  else s

def execSumacFrame (body : List Byte) (s : State) : Host.Outcome State Fault Refusal := .next (sumacFrameEffect body s)

/-- The 12 payload bytes that the master sends in the frame of this moment (log 67). -/
def State.sumacPayload (s : State) : List Nat :=
  let t := s.now + nsUnits
  let v := ((timeSec t * 1024 + timeNs t / 1000000) * 65536 + s.get TIME.TIME_STAT_EPOCH.f) * 64 +
    2 * natOf s.time.stepFlag + s.get TIME.TIME_STAT_TIME_SET.f
  let b := beBytes 10 v
  b ++ beBytes 2 (crc16 b)

/-- SUMAC_FRAME_SEND: the master sends the frame of this millisecond. -/
def sumacFrameSendEffect (s : State) : State :=
  if s.cclkRuns = true ∧ s.get TIME.TIME_CFG_SUMAC_ROLE.f = 2 ∧ s.getB TIME.TIME_STAT_SUMAC_DRIVING.f = true then
    s.setTime { s.time with frame := s.sumacPayload, stepFlag := false }
  else s

def execSumacFrameSend (s : State) : Host.Outcome State Fault Refusal := .next (sumacFrameSendEffect s)

/-- SUMAC_CONFLICT: a transition that the master did not drive. -/
def sumacConflictEffect (s : State) : State :=
  if s.d0Up = true ∧ s.get TIME.TIME_CFG_SUMAC_ROLE.f = 2 ∧ s.getB TIME.TIME_STAT_SUMAC_DRIVING.f = true then
    (s.timeEvent 5).put TIME.TIME_STAT_SUMAC_DRIVING.f 0
  else s

def execSumacConflict (s : State) : Host.Outcome State Fault Refusal := .next (sumacConflictEffect s)

/-- SUMAC_ROLE_WRITE: 3 is stored as 0; a master drives, or drives again. -/
def sumacRoleWriteEffect (role : BitVec 2) (s : State) : State :=
  if s.d0Up then
    let r := if role.toNat = 3 then 0 else role.toNat
    let s := s.onlyIf (decide (s.time.src = 2) && decide (s.actingSrc = 0)) (fun s => s.setTime { s.time with heard := s.time.tick })
    (s.put TIME.TIME_CFG_SUMAC_ROLE.f r).putB TIME.TIME_STAT_SUMAC_DRIVING.f (decide (r = 2))
  else s

def execSumacRoleWrite (role : BitVec 2) (s : State) : Host.Outcome State Fault Refusal :=
  .next (sumacRoleWriteEffect role s)

/-! ### Source and its loss (R293, R298) -/

/-- SRC_WRITE: 3 is stored as 0; the change acts from the next segment boundary (log 35). -/
def srcWriteEffect (src : BitVec 2) (s : State) : State :=
  if s.d0Up then s.put TIME.TIME_CFG_SRC.f (if src.toNat = 3 then 0 else src.toNat) else s

def execSrcWrite (src : BitVec 2) (s : State) : Host.Outcome State Fault Refusal := .next (srcWriteEffect src s)

/-- The last three used edges whose message is overdue have gone without a valid one (R294, R298). -/
def State.edgesUnread (s : State) : Bool :=
  let es := (s.time.edges.filter (fun e => e.measured || ticksAtLeast (s.time.tick - e.tick) 990000000)).take 3
  es.length == 3 && es.all (fun e => !e.measured)

/-- The acting source is lost (R298): no edge has been used for 1.1 s or three in a row have gone without a message, or no good frame has
arrived for 3 ms (log 66). -/
def State.sourceGone (s : State) : Bool :=
  let d := s.time.tick - s.time.heard
  match s.actingSrc with
  | 1 => ticksAtLeast d 1100000000 || s.edgesUnread
  | 2 => ticksAtLeast d 3000000
  | _ => false

/-- SOURCE_LOSS: the acting source, not lost so far, is lost: HOLDOVER, and the time advances at FREQ. -/
def sourceLossEffect (s : State) : State :=
  if s.cclkRuns = true ∧ s.sourceGone = true ∧ s.getB TIME.TIME_STAT_HOLDOVER.f = false then
    ((((s.setTime { s.time with q := 0, firstEdge := true }).put TIME.TIME_STAT_HOLDOVER.f 1).put
      TIME.TIME_STAT_SRC_OK.f 0)).timeEvent 2
  else s

def execSourceLoss (s : State) : Host.Outcome State Fault Refusal := .next (sourceLossEffect s)

/-- CCLK restarts after a stop, and the time base with it (R292): TIME_SET is cleared and the next measurement is as the first after
reset. -/
def State.timeRestarts (s : State) : State :=
  (s.setTime { s.time with measured := false, firstEdge := true, heard := s.time.tick, edges := [] }).put TIME.TIME_STAT_TIME_SET.f 0

/-! ### The segment boundary (R290, R293, R300, R304, R308, R310) -/

/-- A change of SRC takes effect. -/
def State.takeSrc (s : State) : State :=
  let n := s.get TIME.TIME_CFG_SRC.f
  if n = s.time.src then s
  else
    let s := s.pendClear
    (s.setTime { s.time with src := n, edges := [], firstEdge := true, heard := s.time.tick, q := 0 }).put
      TIME.TIME_STAT_SRC_OK.f 0

/-- The step that takes effect at this boundary: the new time and whether EPOCH changes, to what (R298, R300). -/
def State.stepTo (s : State) : Option (Nat × Nat) :=
  let ep := s.get TIME.TIME_STAT_EPOCH.f
  let own := if s.actingSrc = 2 then s.time.epochIn else ep + 1
  match s.time.step with
  | none => none
  | some .accept =>
    if s.getB TIME.TIME_STAT_STEP_PENDING.f then
      some (((s.now : Int) + s.pendNow).toNat % timeModulus, own)
    else none
  | some .load =>
    some (timeOf (s.get TIME.LOAD_SEC_LO.f + 2 ^ 32 * s.get TIME.LOAD_SEC_HI.f) (s.get TIME.LOAD_NS.f) (s.get TIME.LOAD_FRAC.f)
      % timeModulus, own)
  | some (.first e fe) => some (((s.now : Int) - e).toNat % timeModulus, fe.getD ep)

/-- A PENDING position becomes SKIPPED with a reason (R304) (log 73). -/
def State.skipPos (s : State) (p reason : Nat) : State :=
  ((s.setPos p { s.pos p with st := 3, reason := reason }).raise 309).countD0 0x31 1 1

/-- The entries that a forward step from `old` to `new` passes over. -/
def State.skipPassed (s : State) (old new : Nat) : State :=
  s.each (s.pendingWhere (fun _ x => decide (old < entryTime x.bytes) && decide (entryTime x.bytes < new)))
    (fun s p => s.skipPos p 4)

/-- PERIOD of a trigger line is in units of 2^-16 ns: its pulse `i` in units of the time base. -/
def TrigLine.instant (t : TrigLine) (i : Nat) : Nat := t.start + i * t.period * 2 ^ 32

def State.trigLine (s : State) (j : Nat) : TrigLine := s.trig.get .fresh j
def State.setTrig (s : State) (j : Nat) (t : TrigLine) : State := { s with trig := s.trig.set .fresh j t }

/-- Pulses remain to be emitted. -/
def TrigLine.armed (t : TrigLine) : Bool :=
  decide (t.mode = 1 ∧ t.next = 0) || (decide (t.mode = 2) && (decide (t.count = 0) || decide (t.next < t.count)))

/-- Trigger line `j` replaced; ARMED follows. -/
def State.setLineTrig (s : State) (j : Nat) (t : TrigLine) : State :=
  (s.setTrig j t).putB (TIME.TRIG_CTL_ARMED.f 0 j) t.armed

/-- The index of the first pulse not before `t`: pulses before it are passed over. -/
def TrigLine.firstAt (x : TrigLine) (t : Nat) : Nat :=
  if x.mode = 2 then
    if t ≤ x.start ∨ x.period = 0 then x.next
    else max x.next ((t - x.start + x.period * 2 ^ 32 - 1) / (x.period * 2 ^ 32))
  else if x.start < t then max x.next 1 else x.next

/-- Pulses that a forward step to `new` passes over are not emitted (R308). -/
def State.trigPassed (s : State) (new : Nat) : State :=
  s.each (List.range 4) (fun s j =>
    let x := s.trigLine j
    if x.armed then s.setLineTrig j { x with next := x.firstAt new } else s)

/-- The step applied: entries and pulses passed over, EPOCH, STEP_APPLIED, `q` 0; a load sets TIME_SET. -/
def State.applyStep (s : State) (new epoch : Nat) : State :=
  let old := s.now
  let load := decide (s.time.step = some .load)
  let s := (s.put TIME.TIME_STAT_EPOCH.f epoch).onlyIf load (fun s => s.put TIME.TIME_STAT_TIME_SET.f 1)
  let s := if old < new then (s.skipPassed old new).trigPassed new else s
  let t := { s.time with q := 0, stepSum := s.time.stepSum + (new : Int) - old
                         stepFlag := s.time.stepFlag || decide (s.get TIME.TIME_CFG_SUMAC_ROLE.f = 2) }
  let s := ((s.setTime t).pendClear).timeEvent 1
  let g : Seg := { s.time.seg with tick := s.time.tick, time := new }
  s.setTime { s.time with segs := g :: s.time.segs }

/-- A TIME_ACCEPT that waits for its boundary completes OK. -/
def State.completeTime (s : State) : State :=
  if s.time.waiting then
    let s := s.setTime { s.time with waiting := false }
    match s.headOf .time with
    | some w => s.complete .time w .ok 0 0 0
    | none => s
  else s

/-- The boundary at the present tick: PEND, a change of source, a step, the new segment's rate (R290 to R293, R298 to R300). -/
def State.boundary (s : State) : State :=
  let s := (s.setTime { s.time with pend := s.pendNow, pendTick := s.time.tick }).takeSrc
  let before := s.time.segs
  let old := s.now
  let s := match s.stepTo with
    | some (new, ep) => s.applyStep new ep
    | none => s
  let start := if s.time.segs = before then old else s.time.seg.time
  let q := if s.actingSrc = 0 then 0 else s.time.q
  let rate := s.getZ TIME.FREQ.f + q
  let s := s.putZ TIME.RATE_RATE_ADJ.f rate
  let s := s.setTime { s.time with segs := (⟨s.time.tick, start, rate⟩ :: before).take 256, qNow := q, step := none }
  s.completeTime

/-- The first tick of the next segment (R290). -/
def TimeSt.nextBoundary (t : TimeSt) : Nat := (t.tick / 65536 + 1) * 65536

/-- SEGMENT_BOUNDARY: the tick counter reaches the next multiple of 2^16, and the boundary takes effect. -/
def segmentBoundaryEffect (s : State) : State :=
  if s.cclkRuns then (s.setTime { s.time with tick := s.time.nextBoundary }).boundary else s

def execSegmentBoundary (s : State) : Host.Outcome State Fault Refusal := .next (segmentBoundaryEffect s)

/-- One CCLK passes: the tick counts, and a boundary takes effect where one falls. -/
def State.advanceTick (s : State) : State :=
  if s.cclkRuns then
    let s := s.setTime { s.time with tick := s.time.tick + 1 }
    if s.time.tick % 65536 = 0 then s.boundary else s
  else s

/-! ### TIME_ACCEPT (R300) -/

/-- ACCEPT: the time is stepped by PEND at the next boundary; with STEP_PENDING 0 the command completes with
NOTHING_PENDING. -/
def acceptEffect (s : State) : State :=
  s.withHead .time 10 0 (fun w =>
    if s.time.waiting then s
    else if s.getB TIME.TIME_STAT_STEP_PENDING.f then s.setTime { s.time with step := some .accept, waiting := true }
    else s.complete .time w .nothingPending 0 0 0)

def execAccept (s : State) : Host.Outcome State Fault Refusal := .next (acceptEffect s)

/-- SET: the LOAD time is loaded at the next boundary. -/
def setEffect (s : State) : State :=
  s.withHead .time 10 1 (fun _ =>
    if s.time.waiting then s else s.setTime { s.time with step := some .load, waiting := true })

def execSet (s : State) : Host.Outcome State Fault Refusal := .next (setEffect s)

/-! ### SNAP and conversion (R291, R311) -/

/-- A time written into the four words of a reading: SEC_LO, SEC_HI, NS, FRAC. -/
def State.putTime (s : State) (lo hi ns frac : Fld) (t : Nat) : State :=
  (((s.put lo (timeSec t)).put hi (timeSec t / 2 ^ 32)).put ns (timeNs t)).put frac (timeFrac t)

/-- The time that SNAP shows: in the CCLK of a segment boundary, that before the boundary's step or rate change (R310). -/
def State.snapNow (s : State) : Nat :=
  match s.time.segs with
  | g :: h :: _ => if g.tick = s.time.tick then h.timeAfter (s.time.tick - h.tick) else s.now
  | _ => s.now

/-- SNAP: the time and the tick are latched together. -/
def snapEffect (s : State) : State :=
  if s.d0Up then
    ((s.putTime TIME.TIME_SEC_LO_SEC_LO.f TIME.TIME_SEC_HI_SEC_HI.f TIME.TIME_NS_NS.f TIME.TIME_FRAC_FRAC.f s.snapNow).put
      TIME.TIME_TICK_LO_TICK_LO.f s.time.tick).put TIME.TIME_TICK_HI_TICK_HI.f (s.time.tick / 2 ^ 32)
  else s

def execSnap (s : State) : Host.Outcome State Fault Refusal := .next (snapEffect s)

/-- CONV_TICK_HI_WRITE: the tick of CONV_TICK_LO and the value written is converted (log 71). -/
def convTickHiWriteEffect (value : Word) (s : State) : State :=
  if s.d0Up then
    let s := s.put TIME.CONV_TICK_HI.f value.toNat
    match s.convert (s.get TIME.CONV_TICK_LO.f + 2 ^ 32 * s.get TIME.CONV_TICK_HI.f) with
    | some t =>
      (s.putTime TIME.CONV_SEC_LO_SEC_LO.f TIME.CONV_SEC_HI_SEC_HI.f TIME.CONV_NS_NS.f TIME.CONV_FRAC_FRAC.f t).put
        TIME.CONV_SEC_HI_CONV_VALID.f 1
    | none => s.put TIME.CONV_SEC_HI_CONV_VALID.f 0
  else s

def execConvTickHiWrite (value : Word) (s : State) : Host.Outcome State Fault Refusal :=
  .next (convTickHiWriteEffect value s)

end Sys2Proof.Machine
end

