-- ==== Sys2Proof/Machine/Hk.lean ====
section
/-!
DEFINITION. Housekeeping: the bias DACs and their strobes, the dither generators, the monitor converters with urgent slots
and the result ring, the telemetry filters, the engine identification page, the OE bus and the OE rails
(10_engine_housekeeping.md R313 to R336).
-/

namespace Sys2Proof.Machine

open Sys2Proof

def State.setHk (s : State) (h : HkSt) : State := { s with hk := h }

/-! ### Bias outputs (R314 to R318) -/

/-- The strobe group registers of R316: TRIG_LINE and TRIG_EN of group `g`. -/
def State.strobeLine (s : State) (g : Nat) : Nat :=
  match g with
  | 0 => s.get HKD.HKD_SRC_TRIG_LINE0.f
  | 1 => s.get HKD.HKD_SRC_TRIG_LINE1.f
  | 2 => s.get HKD.HKD_SRC_TRIG_LINE2.f
  | _ => s.get HKD.HKD_SRC_TRIG_LINE3.f

def State.strobeTrigEn (s : State) (g : Nat) : Bool :=
  match g with
  | 0 => s.getB HKD.HKD_SRC_TRIG_EN0.f
  | 1 => s.getB HKD.HKD_SRC_TRIG_EN1.f
  | 2 => s.getB HKD.HKD_SRC_TRIG_EN2.f
  | _ => s.getB HKD.HKD_SRC_TRIG_EN3.f

/-- Pi in units of 2^-80. -/
def piFix : Nat := 3797952473636338580787993

/-- The Taylor series of the sine of `x`, in units of 2^-80: `t` is the term of order `2 k - 1`. -/
def sinFix (x2 t acc : Int) (k fuel : Nat) : Int :=
  match fuel with
  | 0 => acc
  | n + 1 => sinFix x2 (-(t * x2) / (2 ^ 80 : Nat) / ((2 * k) * (2 * k + 1) : Nat)) (acc + t) (k + 1) n

/-- Entry `i` of the quarter-wave table (R319): round(65535 sin(pi (2i + 1) / 4096)). -/
def quarterWave (i : Nat) : Int :=
  let x : Int := (piFix * (2 * i + 1) / 4096 : Nat)
  (2 * 65535 * sinFix (x * x / (2 ^ 80 : Nat)) x 0 1 13 + (2 ^ 80 : Nat)) / (2 ^ 81 : Nat)

/-- The sample of a phase accumulator (R319). -/
def sineSample (a : Nat) : Int :=
  let p := a / 4096 % 4096
  let i := p % 1024
  match p / 1024 with
  | 0 => quarterWave i
  | 1 => quarterWave (1023 - i)
  | 2 => -(quarterWave i)
  | _ => -(quarterWave (1023 - i))

/-- The contribution of generator `g`, in units of 1/16 code (R319). -/
def State.dither (s : State) (g : Nat) : Int :=
  s.getZ (HKD.SINE_AMP_OFFSET.f 0 g) +
    Int.tdiv ((s.get (HKD.SINE_AMP_AMPLITUDE.f 0 g) : Int) * sineSample (s.hk.acc.get 0 g)) 65536

/-- What the generators contribute to channel `c` by the registers of this moment (R320, R335). -/
def State.dithers (s : State) (c : Nat) : Int :=
  (List.range 4).foldl (fun (z : Int) g => if s.get (HKD.SINE_TGT_TARGET.f 0 g) = c then z + s.dither g else z) 0

/-- The code that channel `c` drives while it is not clamped: its dither is that of the last update (R320). -/
def State.outCode (s : State) (c : Nat) : Nat :=
  (clampInt 0 4095 (roundDiv (16 * (s.get (HKD.HKD_STAT_ACTIVE.f 0 c) : Int) + s.hk.dith.get 0 c) 16)).toNat

/-- OUT of an unclamped channel follows (R320); a clamp leaves the field. -/
def State.driveOut (s : State) (c : Nat) : State :=
  if s.getB (HKD.HKD_STAT_CLAMPED.f 0 c) then s else s.put (HKD.HKD_STAT_OUT.f 0 c) (s.outCode c)

/-- V_LO and V_HI of a span, in mV (R314). -/
def spanLimits (span : Nat) : Int × Int :=
  match span with
  | 1 => (0, 3600)
  | 2 => (-1800, 1800)
  | _ => (0, 1800)

/-- The voltage of ball HKD_OUT[c] in units of 1/4,096 mV: that of the code driven in the channel's span, and 0 V while the channel is clamped
(R314, R317). -/
def State.hkdOut (s : State) (c : Nat) : Int :=
  let v := spanLimits (s.get (HKD.HKD_CFG_SPAN.f 0 c))
  if s.getB (HKD.HKD_STAT_CLAMPED.f 0 c) then 0
  else 4096 * v.1 + (v.2 - v.1) * (s.get (HKD.HKD_STAT_OUT.f 0 c) : Int)

/-- Every OE rail whose enable bit is 1 shows power-good. -/
def State.oeRailsGood (s : State) : Bool :=
  (!s.getB OE.OE_CTL_EN_3V3.f || s.getB OE.OE_STAT_PG_3V3.f) && (!s.getB OE.OE_CTL_EN_1V8.f || s.getB OE.OE_STAT_PG_1V8.f)

/-- A strobe of channel `c`'s group reaches it: the active code takes the holding code, and the clamp ends if nothing else
holds it (R316, R317): no rail lost and not good since, and every enabled rail good (R318) (DEDUCED, log 40). -/
def State.strobeChannel (s : State) (c : Nat) : State :=
  let s := s.put (HKD.HKD_STAT_ACTIVE.f 0 c) (s.get (HKD.HKD_CFG_CODE.f 0 c))
  if s.getB (HKD.HKD_STAT_SPAN_HOLD.f 0 c) then s.raise 318
  else if s.getB (HKD.HKD_CFG_ENABLE.f 0 c) = true ∧ s.hk.lost = [] ∧ s.oeRailsGood = true then
    (s.put (HKD.HKD_STAT_CLAMPED.f 0 c) 0).driveOut c
  else s

/-- The groups of a mask are strobed. -/
def State.strobeGroups (s : State) (mask : Nat) : State :=
  s.each (List.range 16) (fun s c => if bitAt mask (s.get (HKD.HKD_CFG_GROUP.f 0 c)) then s.strobeChannel c else s)

/-- The groups of a mask are strobed by the schedule or a trigger line in this CCLK: strobes of one group in one CCLK are a single one
(R316). -/
def State.strobeOnce (s : State) (mask : Nat) : State :=
  let done := if s.hk.strobeTick = s.time.tick then s.hk.strobed else 0
  (s.setHk { s.hk with strobed := done ||| mask, strobeTick := s.time.tick }).strobeGroups (mask &&& (15 ^^^ (done &&& 15)))

/-- SPAN of channel `c` written with an allowed value: a change clamps the channel for 8 µs (R317); `own` marks the
device's own writes (R318). -/
def State.setSpan (s : State) (c v : Nat) (own : Bool) : State :=
  let v := if v = 3 then 0 else v
  if s.get (HKD.HKD_CFG_SPAN.f 0 c) = v then s
  else
    let s := ((s.put (HKD.HKD_CFG_SPAN.f 0 c) v).put (HKD.HKD_STAT_CLAMPED.f 0 c) 1).put (HKD.HKD_STAT_SPAN_HOLD.f 0 c) 1
    s.setHk { s.hk with ownHold := if own then c :: s.hk.ownHold.erase c else s.hk.ownHold.erase c }

/-- ENABLE of channel `c` written: 0 clamps it (R317). -/
def State.setHkdEnable (s : State) (c : Nat) (on : Bool) : State :=
  (s.putB (HKD.HKD_CFG_ENABLE.f 0 c) on).onlyIf (!on) (fun s => s.put (HKD.HKD_STAT_CLAMPED.f 0 c) 1)

/-- STROBE: each bit that is 1 strobes its group. -/
def strobeEffect (groups : BitVec 4) (s : State) : State := if s.d0Up then s.strobeGroups groups.toNat else s

def execStrobe (groups : BitVec 4) (s : State) : Host.Outcome State Fault Refusal := .next (strobeEffect groups s)

/-- SPAN_WRITE: a host write of SPAN. -/
def spanWriteEffect (ch : Fin 16) (span : BitVec 2) (s : State) : State :=
  if s.d0Up then s.setSpan ch span.toNat false else s

def execSpanWrite (ch : Fin 16) (span : BitVec 2) (s : State) : Host.Outcome State Fault Refusal :=
  .next (spanWriteEffect ch span s)

/-- The span hold of channel `c` ends. -/
def State.endHold (s : State) (c : Nat) : State :=
  (s.setHk { s.hk with ownHold := s.hk.ownHold.erase c }).put (HKD.HKD_STAT_SPAN_HOLD.f 0 c) 0

/-- SPAN_HOLD_END: 8 µs have passed; the channel stays clamped until its next strobe (R317). -/
def spanHoldEndEffect (ch : Fin 16) (s : State) : State := if s.d0Up then s.endHold ch else s

def execSpanHoldEnd (ch : Fin 16) (s : State) : Host.Outcome State Fault Refusal := .next (spanHoldEndEffect ch s)

/-- BIAS_STROBE: the device's own strobe of every group (R318), 8 µs or more after its own span changes. -/
def biasStrobeEffect (s : State) : State :=
  if s.d0Up = true ∧ s.loader.coreEntry.isSome = true ∧ 0 < s.hk.bias then
    let s := s.setHk { s.hk with bias := s.hk.bias - 1 }
    (s.each s.hk.ownHold (fun s c => s.endHold c)).strobeGroups 15
  else s

def execBiasStrobe (s : State) : Host.Outcome State Fault Refusal := .next (biasStrobeEffect s)

/-! ### Dither (R319, R320) -/

def State.setAcc (s : State) (g a : Nat) : State := s.setHk { s.hk with acc := s.hk.acc.set 0 g (a % 2 ^ 24) }

/-- DITHER_UPDATE: each accumulator advances and each unclamped channel drives its code. -/
def ditherUpdateEffect (s : State) : State :=
  if s.cclkRuns then
    let s := s.each (List.range 4) (fun s g => s.setAcc g (s.hk.acc.get 0 g + s.get (HKD.SINE_INC_PHASE_INC.f 0 g)))
    s.each (List.range 16) (fun s c => (s.setHk { s.hk with dith := s.hk.dith.set 0 c (s.dithers c) }).driveOut c)
  else s

def execDitherUpdate (s : State) : Host.Outcome State Fault Refusal := .next (ditherUpdateEffect s)

/-- The generators of a mask restart. -/
def State.restartSines (s : State) (mask : Nat) : State :=
  s.each (List.range 4) (fun s g => if bitAt mask g then s.setAcc g 0 else s)

def syncEffect (gens : BitVec 4) (s : State) : State := if s.d0Up then s.restartSines gens.toNat else s

def execSync (gens : BitVec 4) (s : State) : Host.Outcome State Fault Refusal := .next (syncEffect gens s)

/-- TARGET of generator `g` written: 16 to 254 are stored as 0xFF, and the accumulator is set to 0. -/
def State.setTarget (s : State) (g v : Nat) : State :=
  (s.put (HKD.SINE_TGT_TARGET.f 0 g) (if v < 16 then v else 0xFF)).setAcc g 0

def targetWriteEffect (gen : Fin 4) (target : Byte) (s : State) : State :=
  if s.d0Up then s.setTarget gen target.toNat else s

def execTargetWrite (gen : Fin 4) (target : Byte) (s : State) : Host.Outcome State Fault Refusal :=
  .next (targetWriteEffect gen target s)

/-! ### Monitor converters (R321 to R326) -/

def State.hka (s : State) (a : Nat) : HkaSt := s.hk.hka.get .fresh a
def State.setHka (s : State) (a : Nat) (x : HkaSt) : State := s.setHk { s.hk with hka := s.hk.hka.set .fresh a x }

def State.hkaRunning (s : State) (a : Nat) : Bool := s.getB (HKA.HKA_STAT_RUNNING.f a)

/-- The lowest pending urgent slot of converter `a` (R323). -/
def State.urgentOf (s : State) (a : Nat) : Option Nat :=
  (List.range 4).find? (fun i => s.getB (HKA.URG_CFG_PENDING.f 0 i) && decide (s.get (HKA.URG_CFG_HKA.f 0 i) = a))

/-- Converter `a` starts entry `e`, which it reads now (R322). -/
def State.startEntry (s : State) (a e : Nat) : State :=
  let w := s.get (HKA.SEQ_ENTRY.f a e)
  let s := (s.put (HKA.HKA_STAT_ENTRY.f a) e).put (HKA.HKA_STAT_LEFT.f a) (bitField w 8 8 + 1)
  s.setHka a { s.hka a with phase := .conv, word := w }

/-- The loop starts at entry 0: a change of LP takes effect (R326). -/
def State.startLoop (s : State) (a : Nat) : State :=
  (s.put (HKA.HKA_STAT_LP_ACTIVE.f a) (s.get (HKA.HKA_CTL_LP.f a))).startEntry a 0

/-- The delay of the entry under way has ended, or it has none: the reference conversion is due after an entry with END or
entry 63, and the next entry starts otherwise (R322). -/
def State.endEntry (s : State) (a : Nat) : State :=
  let x := s.hka a
  let e := s.get (HKA.HKA_STAT_ENTRY.f a)
  if bitAt x.word 31 = true ∨ e = 63 then s.setHka a { x with phase := .ref } else s.startEntry a (e + 1)

/-- The conversion that converter `a` performs next, by precedence: urgent slots, then the sequence; none in a delay or when
stopped (R322, R323, R326). -/
def State.nextConv (s : State) (a : Nat) : Option HkaConv :=
  match s.urgentOf a with
  | some i => some (.urg i)
  | none =>
    if s.hkaRunning a = false ∨ (s.hka a).stop = true then none
    else match (s.hka a).phase with
      | .conv => some .seq
      | .delay => none
      | .ref => some .ref

/-- Converter `a` runs from entry 0 (R326). -/
def State.hkaStart (s : State) (a : Nat) : State := (s.put (HKA.HKA_STAT_RUNNING.f a) 1).startLoop a

/-- Converter `a` stops, and starts again if RUN was set meanwhile (R326). -/
def State.hkaStops (s : State) (a : Nat) : State :=
  let again := (s.hka a).again
  let s := (s.setHka a { s.hka a with stop := false, again := false }).put (HKA.HKA_STAT_RUNNING.f a) 0
  s.onlyIf again (fun s => s.hkaStart a)

/-- The count of 250 ns units at the present tick: 41 + 129/256 CCLK to the 25 ns tick of R313 (log 8). -/
def State.hkUnits (s : State) : Nat := s.time.tick * 128 / 53125

/-- The next conversion of `a` begins; a converter due to stop with no urgent conversion left stops. -/
def State.beginConv (s : State) (a : Nat) : State :=
  let s := s.onlyIf ((s.hka a).stop && (s.urgentOf a).isNone) (fun s => s.hkaStops a)
  s.setHka a { s.hka a with conv := s.nextConv a, began := s.hkUnits }

/-- The units that a conversion of converter `a` lasts (R322). -/
def State.convUnits (s : State) (a : Nat) : Nat := if s.getB (HKA.HKA_STAT_LP_ACTIVE.f a) then 16 else 1

/-- Unread entries of the result ring (R325). -/
def State.ringUnread (s : State) : Nat := (s.get HKA.RING_WR_WR_IDX.f + 4096 - s.get HKA.RING_RD_RD_IDX.f) % 4096

/-- A result written into the ring: the oldest entry is dropped when 4,096 would be unread (R325). -/
def State.ringWrite (s : State) (w : Nat) : State :=
  let before := s.ringUnread
  let i := s.get HKA.RING_WR_WR_IDX.f
  let s := (s.setHk { s.hk with ring := s.hk.ring.set 0 i w }).put HKA.RING_WR_WR_IDX.f ((i + 1) % 4096)
  let s := s.onlyIf (decide (before = 4095)) (fun s =>
    ((s.setHk { s.hk with dropped := some (s.get HKA.RING_RD_RD_IDX.f, s.hkUnits) }).addTo HKA.RING_RD_RD_IDX.f 1).raise 326)
  let wm := s.get HKA.RING_WM_WM.f
  s.onlyIf (decide (before < wm) && decide (wm ≤ s.ringUnread)) (fun s => s.raise 327)

/-- A sample offered to telemetry channel `k` while the engine runs: its queue of 4 takes it or its OVF bit is set
(R327, R328; log 28). -/
def State.offerSample (s : State) (k a input code : Nat) : State :=
  let conv := s.get (FILT.FILT_CFG_CONV.f 0 k)
  if s.hk.filtOn = true ∧ s.get (FILT.FILT_CFG_INPUT.f 0 k) = input ∧ (conv = 0 ∨ conv = a + 1) then
    let q := s.hk.fq.get [] k
    if q.length < 4 then s.setHk { s.hk with fq := s.hk.fq.set [] k (q ++ [code]) }
    else
      let f := if k < 32 then FILT.FILT_OVF_LO_OVF.f else FILT.FILT_OVF_HI_OVF.f
      (s.noteEvent 329).put f (putBit (s.get f) (k % 32) true)
  else s

/-- The other converter is still to deliver a reference result in the unit in which converter `a`'s, begun in unit `began`, ends (R335). -/
def State.refToCome (s : State) (a began : Nat) : Bool :=
  let b := 1 - a
  decide ((s.hka b).conv = some .ref) && decide ((s.hka b).began + s.convUnits b = began + s.convUnits a)

/-- A reference result of converter `a`: kept, marked valid and compared (R324), once after both where the two end in one unit (R335). -/
def State.refResult (s : State) (a code : Nat) : State :=
  let s := if a = 0 then (s.put HKA.REF_STAT_REF0.f code).put HKA.REF_STAT_REF0_VALID.f 1
    else (s.put HKA.REF_STAT_REF1.f code).put HKA.REF_STAT_REF1_VALID.f 1
  let x := s.get HKA.REF_STAT_REF0.f
  let y := s.get HKA.REF_STAT_REF1.f
  s.onlyIf (!s.refToCome a (s.hka a).began && s.getB HKA.REF_STAT_REF0_VALID.f && s.getB HKA.REF_STAT_REF1_VALID.f &&
    decide (s.get HKA.REF_CFG_REF_TOL.f < max x y - min x y)) (fun s => s.raise 325)

/-- A result of converter `a` delivered: HKA_LAST, the ring and the filter queues (R322, R325, R327). -/
def State.deliverResult (s : State) (a input code : Nat) (urgent ref : Bool) : State :=
  let dur := s.convUnits a
  let w := code + input * 2 ^ 12 + a * 2 ^ 17 + natOf urgent * 2 ^ 18 + natOf ref * 2 ^ 19 +
    (s.hkUnits - dur) % 4096 * 2 ^ 20
  let s := (s.put (HKA.HKA_LAST_CODE.f a) code).put (HKA.HKA_LAST_INPUT.f a) input
  let s := s.onlyIf (s.getB (HKA.HKA_CTL_RING_EN.f a)) (fun s => s.ringWrite w)
  s.each (List.range 48) (fun s k => s.offerSample k a input code)

/-- The conversion `c` of converter `a` completes with `code`. -/
def State.finishConv (s : State) (a : Nat) (c : HkaConv) (code : Nat) : State :=
  match c with
  | .seq =>
    let s := s.deliverResult a (bitField (s.hka a).word 0 5) code false false
    let left := s.get (HKA.HKA_STAT_LEFT.f a) - 1
    let s := s.put (HKA.HKA_STAT_LEFT.f a) left
    if left = 0 then
      (if bitField (s.hka a).word 16 12 = 0 then s.endEntry a else s.setHka a { s.hka a with phase := .delay })
    else s
  | .ref => (((s.deliverResult a 31 code false true).refResult a code).startLoop a)
  | .urg i =>
    let s := s.deliverResult a (s.get (HKA.URG_CFG_INPUT.f 0 i)) code true false
    ((s.put (HKA.URG_RES_CODE.f 0 i) code).put (HKA.URG_CFG_PENDING.f 0 i) 0).raise (320 + i)

/-- HKA_CONVERSION: the conversion under way of converter `a` completes; in a delay, the delay has ended and the sequence's
next conversion has been made. -/
def hkaConversionEffect (a : Fin 2) (code : BitVec 12) (s : State) : State :=
  if s.cclkRuns then
    let s := if (s.hka a).conv = none ∧ (s.hka a).phase = .delay ∧ s.hkaRunning a = true then
        (s.endEntry a).beginConv a else s
    match (s.hka a).conv with
    | some c => ((s.setHka a { s.hka a with conv := none }).finishConv a c code.toNat).beginConv a
    | none => s
  else s

def execHkaConversion (a : Fin 2) (code : BitVec 12) (s : State) : Host.Outcome State Fault Refusal :=
  .next (hkaConversionEffect a code s)

/-- A request to urgent slot `i` (R323). -/
def State.urgRequest (s : State) (i : Nat) : State :=
  if s.getB (HKA.URG_CFG_PENDING.f 0 i) then s.raise 324
  else
    let a := s.get (HKA.URG_CFG_HKA.f 0 i)
    let s := s.put (HKA.URG_CFG_PENDING.f 0 i) 1
    if (s.hka a).conv = none then s.setHka a { s.hka a with conv := some (.urg i), began := s.hkUnits } else s

def goEffect (slot : Fin 4) (s : State) : State := if s.d0Up then s.urgRequest slot else s

def execGo (slot : Fin 4) (s : State) : Host.Outcome State Fault Refusal := .next (goEffect slot s)

/-- RUN of converter `a` written (R324, R326). -/
def State.setHkaRun (s : State) (a : Nat) (on : Bool) : State :=
  let s := s.putB (HKA.HKA_CTL_RUN.f a) on
  let x := s.hka a
  if on then
    if s.hkaRunning a then s.setHka a { x with again := x.stop }
    else (s.hkaStart a).onlyIf (decide (x.conv = none)) (fun s => s.beginConv a)
  else
    let s := s.put (if a = 0 then HKA.REF_STAT_REF0_VALID.f else HKA.REF_STAT_REF1_VALID.f) 0
    if s.hkaRunning a = false then s
    else if x.conv = none then s.put (HKA.HKA_STAT_RUNNING.f a) 0
    else s.setHka a { x with stop := true, again := false }

def runWriteEffect (a : Fin 2) (on : Bool) (s : State) : State := if s.d0Up then s.setHkaRun a on else s

def execRunWrite (a : Fin 2) (on : Bool) (s : State) : Host.Outcome State Fault Refusal := .next (runWriteEffect a on s)

/-- RD_IDX_WRITE: a value outside the unread range is stored as WR_IDX (R325); the entry dropped in this same unit is stored as the one after
it (R335). -/
def rdIdxWriteEffect (value : BitVec 12) (s : State) : State :=
  if s.d0Up then
    let off := (value.toNat + 4096 - s.get HKA.RING_RD_RD_IDX.f) % 4096
    if s.hk.dropped = some (value.toNat, s.hkUnits) then s.put HKA.RING_RD_RD_IDX.f ((value.toNat + 1) % 4096)
    else s.put HKA.RING_RD_RD_IDX.f (if off < s.ringUnread then value.toNat else s.get HKA.RING_WR_WR_IDX.f)
  else s

def execRdIdxWrite (value : BitVec 12) (s : State) : Host.Outcome State Fault Refusal := .next (rdIdxWriteEffect value s)

/-! ### Telemetry filters (R327 to R330) -/

/-- VALUE and FULL of every channel copied to the latched registers (R330). -/
def State.takeLatch (s : State) : State :=
  let s := s.each (List.range 48) (fun s k =>
    (s.put (FILT.FILT_LATCHED_VALUE.f 0 k) (s.get (FILT.FILT_OUT_VALUE.f 0 k))).put (FILT.FILT_LATCHED_FULL.f 0 k)
      (s.get (FILT.FILT_OUT_FULL.f 0 k)))
  s.setHk { s.hk with latchDue := false }

/-- A frame starts: a latch that is due is taken, and an engine whose RUN is 0 ends (R330). -/
def State.frameStart (s : State) : State :=
  let s := s.onlyIf s.hk.latchDue (fun s => s.takeLatch)
  s.onlyIf (!s.getB FILT.FILT_CTL_RUN.f) (fun s => s.setHk { s.hk with filtOn := false, fq := [] })

/-- Channel `k` absorbs its queue (R328, R329). -/
def State.absorb (s : State) (k : Nat) : State :=
  let q := s.hk.fq.get [] k
  if q = [] then s
  else
    let len := s.get (FILT.FILT_CFG_LEN.f 0 k)
    let h := (q.reverse ++ s.hk.fh.get [] k).take len
    let s := s.setHk { s.hk with fq := s.hk.fq.set [] k [], fh := s.hk.fh.set [] k h }
    (s.put (FILT.FILT_OUT_VALUE.f 0 k) (16 * h.foldl (· + ·) 0 / h.length)).putB (FILT.FILT_OUT_FULL.f 0 k)
      (decide (h.length = len))

/-- FILTER_SLOT: slot `k` of the frame; slot 0 begins a frame. -/
def filterSlotEffect (k : Nat) (s : State) : State :=
  if s.cclkRuns = true ∧ s.hk.filtOn = true ∧ k < 48 then
    let s := s.onlyIf (decide (k = 0)) (fun s => s.frameStart)
    if s.hk.filtOn then s.absorb k else s
  else s

def execFilterSlot (k : Nat) (s : State) : Host.Outcome State Fault Refusal := .next (filterSlotEffect k s)

/-- RUN of the filter engine written: a start clears every history, sum and FULL bit (R329, R330). -/
def State.setFiltRun (s : State) (on : Bool) : State :=
  let was := s.getB FILT.FILT_CTL_RUN.f
  let s := s.putB FILT.FILT_CTL_RUN.f on
  if on = true ∧ was = false then
    let s := s.setHk { s.hk with filtOn := true, fq := [], fh := [] }
    s.each (List.range 48) (fun s k => s.put (FILT.FILT_OUT_FULL.f 0 k) 0)
  else s

def filtRunWriteEffect (on : Bool) (s : State) : State := if s.d0Up then s.setFiltRun on else s

def execFiltRunWrite (on : Bool) (s : State) : Host.Outcome State Fault Refusal := .next (filtRunWriteEffect on s)

/-- LATCH: the next frame start takes the latch. -/
def latchEffect (s : State) : State := if s.d0Up then s.setHk { s.hk with latchDue := true } else s

def execLatch (s : State) : Host.Outcome State Fault Refusal := .next (latchEffect s)

/-- LEN as it is stored (R330). -/
def filtLen (v : Nat) : Nat := clampNat 1 1024 v

/-- A write of the configuration word of channel `k` (R330). -/
def State.filtCfg (s : State) (k v : Nat) : State :=
  if s.getB FILT.FILT_CTL_RUN.f then s.raise 328
  else
    ((s.put (FILT.FILT_CFG_LEN.f 0 k) (filtLen (bitField v 0 11))).put (FILT.FILT_CFG_INPUT.f 0 k) (bitField v 16 5)).put
      (FILT.FILT_CFG_CONV.f 0 k) (bitField v 21 2)

def filtCfgWriteEffect (k : Nat) (value : Word) (s : State) : State :=
  if s.d0Up = true ∧ k < 48 then s.filtCfg k value.toNat else s

def execFiltCfgWrite (k : Nat) (value : Word) (s : State) : Host.Outcome State Fault Refusal :=
  .next (filtCfgWriteEffect k value s)

/-! ### Engine identification page (R331, R332; 02_bitstream.md R94) -/

/-- BIAS_SOURCE of the running image is the identification page (02_bitstream.md R70). -/
def State.biasFromPage (s : State) : Bool :=
  match s.loader.retained with
  | some c => decide (c.engine.getD 0 1 = 0)
  | none => false

/-- A page read begins, or fails with POWER (R332, R94). -/
def State.beginPage (s : State) (own : Bool) : State :=
  if s.oeRailsGood then (s.setHk { s.hk with page := some own }).put OE.OE_STAT_XBUSY.f 1
  else (s.put OE.ID_STAT_RESULT.f 8).onlyIf own (fun s => s.raise 291)

/-- ENGINE_PAGE_READ: once the core is released, stage 6 has passed and the OE bus is free. -/
def enginePageReadEffect (s : State) : State :=
  if s.cclkRuns = true ∧ s.loader.coreEntry.isSome = true ∧ bitAt s.power.railsUp 6 = true ∧ s.biasFromPage = true ∧
      s.hk.pageDone = false ∧ s.hk.xfer = none ∧ s.hk.page = none then
    (s.setHk { s.hk with pageDone := true }).beginPage true
  else s

def execEnginePageRead (s : State) : Host.Outcome State Fault Refusal := .next (enginePageReadEffect s)

/-- READ: the read and the check repeated, changing no HKD field; while the bus is busy it is refused. -/
def readEffect (s : State) : State :=
  if s.d0Up then
    if s.hk.xfer = none ∧ s.hk.page = none then s.beginPage false else s.raise 333
  else s

def execRead (s : State) : Host.Outcome State Fault Refusal := .next (readEffect s)

/-- An HKD entry of the page or of an ENGINE section. -/
def hkdEntry (b : List Nat) (off c : Nat) : Nat := leNat (span b (off + 4 * c) (off + 4 * c + 3))

/-- An HKD entry has its reserved bits zero and an allowed span. -/
def hkdEntryOk (w : Nat) : Bool := decide (w < 2 ^ 17) && decide (bitField w 12 2 ≤ 2)

/-- The check of the page (R331): ID_STAT.RESULT, in the order of the list. -/
def pageResult (b : List Nat) : Nat :=
  let a := leNat (span b 0x70 0x71)
  let c := leNat (span b 0x72 0x73)
  if leNat (span b 0 1) ≠ 0x4F45 then 3
  else if b.getD 2 0 ≠ 1 then 4
  else if crc32c (b.take 0x7C) ≠ leNat (span b 0x7C 0x7F) then 5
  else if b.getD 3 0 = 0 ∧ leNat (span b 0x1E 0x1F) = 0 ∧ leNat (span b 0x74 0x7B) = 0 ∧
      (List.range 16).all (fun i => hkdEntryOk (hkdEntry b 0x30 i)) = true ∧ a ≤ 2000 ∧ c ≤ 2000 ∧
      33 * a + 18 * c ≤ 80000 then 0
  else 6

/-- One HKD entry written to channel `c` by the device (R318, R332). -/
def State.loadHkd (s : State) (c w : Nat) : State :=
  let s := ((s.put (HKD.HKD_CFG_CODE.f 0 c) (bitField w 0 12)).setSpan c (bitField w 12 2) true)
  (s.put (HKD.HKD_CFG_GROUP.f 0 c) (bitField w 14 2)).setHkdEnable c (bitAt w 16)

/-- Bytes put into the words of a row, byte 0 in the low byte of word 0, from byte `i` on. -/
def State.putBytes (s : State) (r : FRow) (i : Nat) (bs : List Nat) : State :=
  match bs with
  | [] => s
  | b :: rest =>
    State.putBytes (s.put (r.f 0 (i / 4)) (putField (s.get (r.f 0 (i / 4))) (8 * (i % 4)) 8 b)) r (i + 1) rest

/-- ENGINE_PAGE_READ_DONE: the bytes received go to the page window; a page read whole is checked, and the device's own read
writes the HKD fields and owes a strobe (R318, R332), or asserts ENGINE_ID (R94). -/
def enginePageReadDoneEffect (page : List Byte) (nack : Bool) (s : State) : State :=
  match s.hk.page with
  | none => s
  | some own =>
    if s.d0Up then
      let b := (page.map (·.toNat)).take 128
      let r := if nack then 1 else if b.length < 128 then 2 else pageResult b
      let s := (s.setHk { s.hk with page := none }).put OE.OE_STAT_XBUSY.f 0
      let s := (s.putBytes OE.ID_PAGE_PAGE 0 b).put OE.ID_STAT_RESULT.f r
      if own = false then s
      else if r = 0 then
        let s := s.each (List.range 16) (fun s c => s.loadHkd c (hkdEntry b 0x30 c))
        s.setHk { s.hk with bias := s.hk.bias + 1 }
      else s.raise 291
    else s

def execEnginePageReadDone (page : List Byte) (nack : Bool) (s : State) : Host.Outcome State Fault Refusal :=
  .next (enginePageReadDoneEffect page nack s)

/-! ### OE bus transfers (R333) -/

/-- The fields of OE_XFER stored. -/
def State.storeXfer (s : State) (v : Nat) : State :=
  (((s.put OE.OE_XFER_ADDR.f (bitField v 0 7)).put OE.OE_XFER_OFFSET.f (bitField v 8 8)).put OE.OE_XFER_LEN.f
    (clampNat 1 16 (bitField v 16 5))).put OE.OE_XFER_DIR.f (bitField v 24 1)

/-- The bytes of OE_DATA, byte 0 in the low byte of word 0. -/
def State.oeBytes (s : State) (len : Nat) : List Nat :=
  (List.range len).map (fun i => bitField (s.get (OE.OE_DATA_DATA.f 0 (i / 4))) (8 * (i % 4)) 8)

/-- The transfer that GO starts: what it sends is fixed then (log 40). -/
def State.newXfer (s : State) : OeXfer :=
  let write := s.getB OE.OE_XFER_DIR.f
  let len := s.get OE.OE_XFER_LEN.f
  { write := write, len := len, addr := s.get OE.OE_XFER_ADDR.f, offset := s.get OE.OE_XFER_OFFSET.f
    sent := if write then s.oeBytes len else [s.get OE.OE_XFER_OFFSET.f], aborted := false }

/-- OE_XFER_GO: a write of OE_XFER whose GO bit is 1 starts a transfer, or is refused while the bus is busy. -/
def State.xferWrite (s : State) (v : Nat) : State :=
  let s := s.storeXfer v
  if bitAt v 25 then
    if s.hk.xfer = none ∧ s.hk.page = none then
      (s.setHk { s.hk with xfer := some s.newXfer }).put OE.OE_STAT_XBUSY.f 1
    else s.raise 333
  else s

def oeXferGoEffect (value : Word) (s : State) : State := if s.d0Up then s.xferWrite value.toNat else s

def execOeXferGo (value : Word) (s : State) : Host.Outcome State Fault Refusal := .next (oeXferGoEffect value s)

/-- XFER_DONE: the transfer ends; one during which a rail was lost ends ABORTED, and a read that ends OK stores its bytes. -/
def xferDoneEffect (result : BitVec 2) (data : List Byte) (s : State) : State :=
  match s.hk.xfer with
  | none => s
  | some x =>
    if s.d0Up then
      let r := if x.aborted then 3 else result.toNat
      let s := (s.setHk { s.hk with xfer := none }).put OE.OE_STAT_XBUSY.f 0
      let s := if r = 0 ∧ x.write = false then s.putBytes OE.OE_DATA_DATA 0 ((data.map (·.toNat)).take x.len) else s
      ((s.put OE.OE_XSTAT_RESULT.f r).raise 331).onlyIf (decide (r ≠ 0)) (fun s => s.raise 332)
    else s

def execXferDone (result : BitVec 2) (data : List Byte) (s : State) : Host.Outcome State Fault Refusal :=
  .next (xferDoneEffect result data s)

/-! ### OE rails (R317, R334; 12_power.md R367, R372) -/

def oeEn (rail : Nat) : Fld := if rail = 0 then OE.OE_CTL_EN_3V3.f else OE.OE_CTL_EN_1V8.f
def oePg (rail : Nat) : Fld := if rail = 0 then OE.OE_STAT_PG_3V3.f else OE.OE_STAT_PG_1V8.f

/-- A rail is good again: its loss no longer holds the clamp (R317). -/
def State.railFound (s : State) (rail : Nat) : State := s.setHk { s.hk with lost := s.hk.lost.erase rail }

/-- RAIL_LOSS: an enabled rail loses power-good; D4 switches it off, every HKD channel is clamped, and a transfer under way
will end ABORTED. -/
def railLossEffect (rail : Fin 2) (s : State) : State :=
  if s.getB (oeEn rail) = true ∧ s.getB (oePg rail) = true then
    let s := s.put (oePg rail) 0
    let x := s.hk.xfer.map (fun x => { x with aborted := true })
    let s := s.setHk { s.hk with lost := rail.val :: s.hk.lost.erase rail.val, xfer := x }
    if s.d0Up then
      (s.each (List.range 16) (fun s c => s.put (HKD.HKD_STAT_CLAMPED.f 0 c) 1)).raise 319 |>.raise 330
    else s
  else s

def execRailLoss (rail : Fin 2) (s : State) : Host.Outcome State Fault Refusal := .next (railLossEffect rail s)

/-- OE_RAIL_RETRY: D4 tries an enabled rail that is off again (log 40). -/
def oeRailRetryEffect (rail : Fin 2) (good : Bool) (s : State) : State :=
  if s.getB (oeEn rail) = true ∧ s.getB (oePg rail) = false ∧ bitAt s.power.railsUp 6 = true ∧ good = true then
    (s.put (oePg rail) 1).railFound rail
  else s

def execOeRailRetry (rail : Fin 2) (good : Bool) (s : State) : Host.Outcome State Fault Refusal :=
  .next (oeRailRetryEffect rail good s)

/-- EN of a rail written: off, it falls; on, it reaches power-good at once if it is `good`, or with stage 6 while that stage
is under way (R334, 12_power.md R383) (log 40). -/
def State.setOeRail (s : State) (rail : Nat) (on good : Bool) : State :=
  let was := s.getB (oeEn rail)
  let s := s.putB (oeEn rail) on
  if on = was then s
  else if on then s.onlyIf (good && !s.power.stage6) (fun s => (s.put (oePg rail) 1).railFound rail)
  else s.put (oePg rail) 0

def oeCtlWriteEffect (en3v3 en1v8 good : Bool) (s : State) : State :=
  if s.d0Up then (s.setOeRail 0 en3v3 good).setOeRail 1 en1v8 good else s

def execOeCtlWrite (en3v3 : Bool) (en1v8 : Bool) (good : Bool) (s : State) : Host.Outcome State Fault Refusal :=
  .next (oeCtlWriteEffect en3v3 en1v8 good s)

/-! ### What follows a trigger pulse and the release at ENTRY -/

/-- The leading edge of a pulse of trigger line `j`: strobes and urgent requests that subscribe to it (R316, R323). -/
def State.leadEdge (s : State) (j : Nat) : State :=
  let m := (List.range 4).foldl (fun z g => z + (if s.strobeTrigEn g = true ∧ s.strobeLine g = j then 2 ^ g else 0)) 0
  let s := s.strobeOnce m
  s.each (List.range 4) (fun s i =>
    if s.getB (HKA.URG_CFG_TRIG_EN.f 0 i) = true ∧ s.get (HKA.URG_CFG_TRIG_LINE.f 0 i) = j then s.urgRequest i else s)

/-- The Mace core is released at ENTRY: both converters and the filter engine start, the generators restart together, and
the device owes its bias strobe (R318, R320, R326, R330). -/
def State.hkRelease (s : State) : State :=
  let s := ((s.setHkaRun 0 true).setHkaRun 1 true).setFiltRun true
  (s.restartSines 15).setHk { (s.restartSines 15).hk with bias := 1, pageDone := false }

end Sys2Proof.Machine
end

