-- ==== Sys2Proof/Machine/Thermal.lean ====
section
/-!
DEFINITION. The thermal supervisor: samples, filtered temperatures, sensor faults, bands, rate of rise, hot tracking, the
MRAM write range and shutdown (13_thermal.md R385 to R396).  A filtered temperature is held in quarters of its unit of
0.125 degrees, so that the mean of four samples is exact.
-/

namespace Sys2Proof.Machine

open Sys2Proof

/-- The die of a sensor (R385): 0, 1, 2, or 4. -/
def sensorDie (k : Nat) : Nat := if k < 8 then 0 else if k < 15 then 1 else if k < 22 then 2 else 4

/-- The sensors of a die. -/
def dieSensors (d : Nat) : List Nat := (List.range 24).filter (fun k => sensorDie k == d)

/-- The package is in DEEP_STANDBY (12_power.md R377). -/
def State.standby (s : State) : Bool := decide (s.get PWR.PWR_STAT_STATE.f = 2)

/-- The region whose power a line-die sensor needs; `none` for the line-data-link sensor, which needs either (R387). -/
def sensorRegion (k : Nat) : Option Nat :=
  let j := if k < 15 then k - 8 else k - 15
  let base := if k < 15 then 0 else 2
  if j < 4 then some (base + j / 2) else if j < 6 then some (base + j - 4) else none

/-- The part of a sensor is powered (R387). -/
def State.sensorPowered (s : State) (k : Nat) : Bool :=
  match sensorDie k with
  | 4 => true
  | 0 => !s.standby
  | d =>
    !s.standby && (s.die (d - 1)).powered &&
      (match sensorRegion k with
       | some r => !s.gated r
       | none => !(s.gated (2 * (d - 1)) && s.gated (2 * (d - 1) + 1)))

def State.sensor (s : State) (k : Nat) : Sensor := s.therm.sensors.get .fresh k
def State.setSensor (s : State) (k : Nat) (x : Sensor) : State :=
  { s with therm := { s.therm with sensors := s.therm.sensors.set .fresh k x } }

/-- The filtered temperature of a sensor (R386): the mean of its last four samples; of those it has, until it has four
(log 34). -/
def Sensor.temp (x : Sensor) : Int := if x.last4 = [] then 0 else 4 * x.last4.sum / (x.last4.length : Int)

/-- Sensor `k` is faulty. -/
def State.sensorFaulty (s : State) (k : Nat) : Bool := bitAt (s.get THERM.SENS_FAULT_FAULTY.f) k

/-- Sensor `k` takes part in comparisons: powered, not faulty, and it has been sampled. -/
def State.sensorUsed (s : State) (k : Nat) : Bool :=
  s.sensorPowered k && !s.sensorFaulty k && !(s.sensor k).last4.isEmpty

/-- A sample of a sensor (R386): the raw reading plus its TSENS_OFS (log 34). -/
def Sensor.take (x : Sensor) (v : Int) : Sensor :=
  let y := { x with last4 := (v :: x.last4).take 4, same := if x.last4.head? = some v then min 256 (x.same + 1) else 1 }
  { y with hist := (y.temp :: x.hist).take 501 }

/-- The register words of a sensor. -/
def State.showSensor (s : State) (k : Nat) : State :=
  let x := s.sensor k
  ((s.putZ (THERM.SENS_TEMP.f 0 k) (x.temp / 4)).putZ (THERM.SENS_RAW.f 0 k) (x.last4.headD 0)).putB
    (THERM.SENS_EXCLUDED.f 0 k) (s.sensorFaulty k || !s.sensorPowered k)

/-- Sensor `k` sampled with raw reading `raw` (R386, R387): a sample outside -40 to 150 degrees, or the 256th identical one
in a row, makes it faulty.  An unpowered sensor starts again from its first sample. -/
def State.sampleSensor (s : State) (k : Nat) (raw : Int) : State :=
  if s.sensorPowered k then
    let v := raw + s.cal.get 0 (65536 * 9 + k)
    let x := (s.sensor k).take v
    let s := s.setSensor k x
    let bad := decide (v < -320) || decide (1200 < v) || decide (256 ≤ x.same)
    let s :=
      if bad && !s.sensorFaulty k then
        (s.raise 353).put THERM.SENS_FAULT_FAULTY.f (putBit (s.get THERM.SENS_FAULT_FAULTY.f) k true)
      else s
    s.showSensor k
  else (s.setSensor k .fresh).showSensor k

/-- A threshold in degrees, in the units of filtered temperatures. -/
def degrees (d : Int) : Int := 32 * d

/-- Some sensor of `ks` that takes part is at or above `d` degrees. -/
def State.anyAt (s : State) (ks : List Nat) (d : Int) : Bool :=
  ks.any (fun k => s.sensorUsed k && decide (degrees d ≤ (s.sensor k).temp))

/-- Every sensor of `ks` that takes part is at least 3 degrees below `d`. -/
def State.allBelow (s : State) (ks : List Nat) (d : Int) : Bool :=
  ks.all (fun k => !s.sensorUsed k || decide ((s.sensor k).temp ≤ degrees (d - 3)))

/-- Every sensor of a powered die is faulty (R387). -/
def State.dieBlind (s : State) (d : Nat) : Bool :=
  (dieSensors d).any (fun k => s.sensorPowered k) && (dieSensors d).all (fun k => !s.sensorPowered k || s.sensorFaulty k)

/-- A sensor exceeds the rate-of-rise limit (R390). -/
def State.risingFast (s : State) : Bool :=
  (List.range 24).any (fun k =>
    s.sensorUsed k &&
      (match (s.sensor k).hist.getLast? with
       | some t => decide (4 * (s.get THERM.THERM_RATE_RISE_LIMIT.f : Int) < (s.sensor k).temp - t)
       | none => false))

/-- RATE_ACTIVE (R390): set by an exceedance, clear 10 ms after the last one. -/
def State.evalRate (s : State) : State :=
  if s.risingFast then
    let s := s.onlyIf (!s.getB THERM.THERM_STAT_RATE_ACTIVE.f) (fun s => s.raise 352)
    { s.put THERM.THERM_STAT_RATE_ACTIVE.f 1 with therm := { s.therm with rateLeft := 500 } }
  else
    let left := s.therm.rateLeft - 1
    ({ s with therm := { s.therm with rateLeft := left } }).onlyIf (decide (left = 0)) (fun s => s.put THERM.THERM_STAT_RATE_ACTIVE.f 0)

/-- The threshold of a band. -/
def State.bandTh (s : State) (b : Nat) : Int :=
  if b = 1 then (s.get THERM.THERM_CFG_WARN_TH.f : Int) else (s.get THERM.THERM_CFG_THROT_TH.f : Int)

/-- The band that temperatures call for at once (R389, R390, R387), SHUTDOWN apart. -/
def State.bandCalled (s : State) : Nat :=
  let all := List.range 24
  if s.anyAt all (s.bandTh 2) || s.getB THERM.THERM_STAT_RATE_ACTIVE.f || [0, 1, 2, 4].any (fun d => s.dieBlind d) then 2
  else if s.anyAt all (s.bandTh 1) then 1 else 0

/-- For how many samples every sensor has stayed at least 3 degrees below the threshold of band `b`, with this one: 501 samples
span 10 ms. -/
def State.belowCount (s : State) (b : Nat) : Nat :=
  let n := if b = 1 then s.therm.belowWarn else s.therm.belowThrot
  if s.allBelow (List.range 24) (s.bandTh b) then min 501 (n + 1) else 0

/-- The band (R389): up at once, with its events; down by one band after every sensor has stayed 10 ms at least 3 degrees below
its threshold, whichever band the package was in meanwhile (log 34). -/
def State.evalBand (s : State) : State :=
  let b := s.get THERM.THERM_STAT_BAND.f
  let c := s.bandCalled
  let warn := s.belowCount 1
  let throt := s.belowCount 2
  let s := { s with therm := { s.therm with belowWarn := warn, belowThrot := throt } }
  if b < c then
    ((s.raise 350).onlyIf (decide (c = 2)) (fun s => s.raise 351)).put THERM.THERM_STAT_BAND.f c
  else if c < b ∧ 501 ≤ (if b = 1 then warn else throt) then s.put THERM.THERM_STAT_BAND.f (b - 1)
  else s

/-- The hot tracking band of line die `d` (R391), 1 or 2. -/
def State.evalHot (s : State) (d : Nat) : State :=
  let th : Int := s.get THERM.THERM_CFG_TRACK_TH.f
  let hot := bitAt (s.get THERM.THERM_STAT_HOT_TRACK.f) (d - 1)
  let put (s : State) (b : Bool) : State :=
    s.put THERM.THERM_STAT_HOT_TRACK.f (putBit (s.get THERM.THERM_STAT_HOT_TRACK.f) (d - 1) b)
  let count (s : State) (n : Nat) : State :=
    { s with therm := if d = 1 then { s.therm with cool1 := n } else { s.therm with cool2 := n } }
  if s.anyAt (dieSensors d) th then put (count s 0) true
  else if hot then
    let n := if s.allBelow (dieSensors d) th then (if d = 1 then s.therm.cool1 else s.therm.cool2) + 1 else 0
    if 501 ≤ n then put (count s 0) false else count s n
  else s

/-- MRAM_WRITE_OK (R395): sensor 4, or the hottest D0 sensor that is not faulty, lies between 0 and 105 degrees. -/
def State.evalMram (s : State) : State :=
  let ok (t : Int) : Bool := decide (0 ≤ t) && decide (t ≤ degrees 105)
  let d0 := (List.range 8).filter (fun k => s.sensorUsed k)
  let r :=
    if s.sensorUsed 4 then ok (s.sensor 4).temp
    else if s.sensorFaulty 4 then
      match d0 with
      | k :: r => ok (r.foldl (fun m j => max m (s.sensor j).temp) (s.sensor k).temp)
      | [] => false
    else false
  s.putB THERM.THERM_STAT_MRAM_WRITE_OK.f r

/-- MAX_SENSOR and MAX_TEMP: the sensor with the highest temperature, the lowest number among equals. -/
def State.evalMax (s : State) : State :=
  match (List.range 24).filter (fun k => s.sensorUsed k) with
  | k :: r =>
    let m := r.foldl (fun b j => if (s.sensor b).temp < (s.sensor j).temp then j else b) k
    (s.put THERM.THERM_STAT_MAX_SENSOR.f m).putZ THERM.THERM_STAT_MAX_TEMP.f ((s.sensor m).temp / 4)
  | [] => s

/-- SHUTDOWN (R393), step 1: THERMAL on every line lane, host transmitters to differential zero. -/
def State.beginShutdown (s : State) : State :=
  let s := s.each (List.range 8) (fun s n => s.setReason n 5 true)
  let s := s.each (List.range 16) (fun s h => s.setHost h { s.host h with out := .zero })
  { s with therm := { s.therm with shutdown := true, calm := 0 } }

/-- The OE rails switched off by D4, until the wake (R388) (log 77). -/
def State.oeOff (s : State) : State :=
  let s := (s.put OE.OE_STAT_PG_3V3.f 0).put OE.OE_STAT_PG_1V8.f 0
  { s with power := { s.power with railsUp := putBit s.power.railsUp 6 false } }

/-- A shutdown counts its samples (R394): every sensor below 97 degrees for 10 ms ends it; D4 releases FAULT_N, and the
start-up resumes from the BIST step, or goes on to it where its stages still run (log 77). -/
def State.countCalm (s : State) : State :=
  let cool := (List.range 24).all (fun k => !s.sensorUsed k || decide ((s.sensor k).temp < degrees 97))
  let n := if cool then s.therm.calm + 1 else 0
  if 501 ≤ n then
    let s := ((s.put PWR.AON_STAT_FAULT.f 0).put PWR.AON_STAT_FCODE.f 7).put PWR.AON_STAT_HELD_CAUSE.f 0
    let ready := decide (s.get PWR.AON_STAT_STAGE.f = 0)
    { s with therm := { s.therm with shutdown := false, held := false, calm := 0 }
             power := { s.power with bistRunning := ready, bistDue := !ready } }
  else { s with therm := { s.therm with calm := n } }

/-- What the supervisor makes of a round of samples (R389 to R393, R395), SHUTDOWN apart: rate, band, hot tracking bands, the MRAM
range, the hottest sensor. -/
def State.evalSamples (s : State) : State := ((((s.evalRate).evalBand).evalMax).evalHot 1).evalHot 2 |>.evalMram

/-- THERMAL_SAMPLE (R386 to R396): one sample of each powered sensor, in the order of the list; the supervisor runs from the
end of stage 4 on, through every reset (R388) (log 77). -/
def thermalSampleEffect (raws : List Int) (s : State) : State :=
  if bitAt s.power.railsUp 4 || s.standby then
    let s := s.each (raws.take 24).zipIdx (fun s e => s.sampleSensor e.2 e.1)
    if s.standby then
      if s.anyAt [22, 23] 115 && (s.getB OE.OE_STAT_PG_3V3.f || s.getB OE.OE_STAT_PG_1V8.f) then s.oeOff else s
    else if s.therm.shutdown then s.onlyIf s.therm.held (fun s => s.countCalm)
    else
      let s := s.evalSamples
      if s.anyAt (List.range 24) (s.get THERM.THERM_CFG_SHUT_TH.f) then s.beginShutdown else s
  else s

def execThermalSample (raws : List Int) (s : State) : Host.Outcome State Fault Refusal := .next (thermalSampleEffect raws s)

/-- A write of THERM_CFG (R389): SHUT_TH is stored up to 115 until it is locked; a write that would break the order of the
thresholds is discarded and sets CFG_REFUSED. -/
def State.setThresholds (s : State) (v : Nat) (o : Origin) : State :=
  let held := s.get THERM.THERM_CFG_SHUT_TH.f
  let locked := s.dieLocked 0
  let shut := if locked then held else min 115 (bitField v 16 8)
  let s := s.onlyIf (locked && decide (bitField v 16 8 ≠ held)) (fun s => s.lockedWrite 0xD0000 o)
  if bitField v 0 8 ≤ bitField v 8 8 ∧ bitField v 8 8 ≤ shut then
    (((s.put THERM.THERM_CFG_WARN_TH.f (bitField v 0 8)).put THERM.THERM_CFG_THROT_TH.f (bitField v 8 8)).put
      THERM.THERM_CFG_SHUT_TH.f shut).put THERM.THERM_CFG_TRACK_TH.f (bitField v 24 8)
  else s.raise 354

/-- THRESHOLD_WRITE (R389), from the MGMT port (log 35). -/
def thresholdWriteEffect (value : Word) (s : State) : State := if s.d0Up then s.setThresholds value.toNat .mgmt else s

def execThresholdWrite (value : Word) (s : State) : Host.Outcome State Fault Refusal := .next (thresholdWriteEffect value s)

end Sys2Proof.Machine
end

