-- ==== Sys2Proof/Machine/Reset.lean ====
section
/-!
DEFINITION. Resets: what a region or a line die loses, the package reset, and what holds D0 in reset (01_architecture.md R23,
R47, R56; 12_power.md R371, R375; 14_selftest_faults.md R400; 15_management.md R445; 16_register_map.md R451, R455, R456).
-/

namespace Sys2Proof.Machine

open Sys2Proof

/-! ### What a line die or a region loses -/

/-- Key `k` of the bank is tile health, which the always-on island keeps (14_selftest_faults.md R400): FAILED of TILE_INFO, and
the test words. -/
def tileHealthKey (k : Nat) : Bool :=
  let a := k / 32
  let o := (a - 0x80000) % 0x4000
  decide (0x80000 ≤ a) && decide (a < 0xA0000) && decide (0x800 ≤ o) && decide (o < 0x1600) &&
    (decide (o % 0x100 = 4) || decide (o % 0x100 = 8) || (decide (o % 0x100 = 0) && decide (k % 32 = 3)))

/-- The registers of line lane `n`'s block at their reset values, tile health kept. -/
def State.clearLaneBlock (s : State) (n : Nat) : State :=
  let lo := 0x80000 + 0x4000 * n
  { s with regs := s.regs.drop (fun k => decide (lo ≤ k / 32) && decide (k / 32 < lo + 0x4000) && !tileHealthKey k) }

/-- The fields of lane `n`'s beacon block that report line-die state, at their reset values (R451). -/
def State.clearBeacon (s : State) (n : Nat) : State :=
  let b := 0xA0000 + 0x200 * n
  (((((s.bcnLost n).put (BCN.NOISE.f n) 512).clearRange (b + 0x14) (b + 0x14)).clearRange (b + 0x20) (b + 0x24)).clearRange (b + 0x88) (b + 0x94))

/-- Line lane `n` loses its line-die state: datapath, registers, queues on the die; its transmit framing on D0 goes on
(log 79). -/
def State.loseLane (s : State) (n : Nat) : State :=
  let s := (s.lockGone n).clearBeacon n
  let s := s.each [⟨.adcFfe, n⟩, ⟨.ffeMlse, n⟩, ⟨.mlseDec, n⟩, ⟨.decLink, n⟩, ⟨.linkTxp, n⟩] (fun s (q : QueueId) =>
    s.setQueue q (.fresh q.kind))
  let s := ((s.emptyQ ⟨.linkD0, n⟩).emptyQ ⟨.d0Link, n⟩).clearLaneBlock n
  let l := s.lane n
  let s := s.setLane n { LaneSt.fresh with txRowsA := l.txRowsA, txRowsB := l.txRowsB, halfA := l.halfA, halfB := l.halfB
                                           txCount := l.txCount }
  { s with ctx := { s.ctx with applied := s.ctx.applied.filter (fun k => decide (k ≠ n)) } }

/-- Identifications that no lane waits for any more are abandoned (07_peer_contexts.md R255). -/
def State.dropIdents (s : State) : State :=
  s.each (List.range 8) (fun s g =>
    match s.ident g with
    | some i => if i.applying || s.waiting g then s else s.dropIdent g
    | none => s)

/-- Work in flight that involves the lanes of a part ends: applies with ABORTED_FAULT, those that wait too (07_peer_contexts.md R257), tests, and commands with
`st` (01_architecture.md R56, 07_peer_contexts.md R245). -/
def State.endWork (s : State) (lanes : List Nat) (st : Status) : State :=
  let hits (ms : List Nat) : Bool := lanes.any (fun n => ms.contains n)
  let s := s.each [0, 1] (fun s d =>
    s.onlyIf ((s.die d).capture.any (fun c => lanes.contains c.lane)) (fun s => s.abortCapture d st))
  let s := s.each lanes (fun s n => s.abortWhere (involvesLane n) st)
  let s := s.abortApplies (fun x => hits (descLanes x.desc)) 5
  s.endTests (fun t => lanes.contains (tileLane t)) st

/-- Region `r` loses its state: lanes, pool, beacon synthesiser (12_power.md R375). -/
def State.loseRegion (s : State) (r : Nat) : State :=
  let s := (s.loseLane (2 * r)).loseLane (2 * r + 1)
  let b := 0xA1000 + 0x100 * r
  (((s.setPool r .fresh).setSyn r .fresh).clearRange b (b + 0xFF)).dropIdents

/-- The partial reload under way ends with ABORTED_FAULT (02_bitstream.md R88): its region returns on the retained
configuration, and calibration values that waited for its end take effect (log 53). -/
def State.abortPartial (s : State) : State :=
  match s.loader.part with
  | some _ =>
    let s := ({ s with loader := { s.loader with part := none } }).settleCal
    match s.headIs .loader 1 0 with
    | some w => (s.complete .loader w .abortedFault 0 0 0).onlyIf ((s.mgmt.taken.filter (fun t => decide (t.engine = .loader))).length ≤ 1)
        (fun s => s.put LOADER.STATUS_BUSY.f 0)
    | none => s
  | none => s

/-- The faulty sensors of die `d` start again without a fault (13_thermal.md R387); the others go on, since the supervisor runs
through the reset (R388). -/
def State.freshSensors (s : State) (d : Nat) : State :=
  s.each ((dieSensors d).filter (fun k => s.sensorFaulty k)) (fun s k =>
    (s.setSensor k .fresh).put THERM.SENS_FAULT_FAULTY.f (putBit (s.get THERM.SENS_FAULT_FAULTY.f) k false))

/-- Line die `d` (0 or 1) enters reset (R23, R455): its lanes are squelched, its work ends, its registers, counters and queues
are lost (log 79). -/
def State.dieReset (s : State) (d : Nat) : State :=
  let lanes := [4 * d, 4 * d + 1, 4 * d + 2, 4 * d + 3]
  let s := (s.endWork lanes .abortedFault).abortWhere (fun e _ => decide (e = .capture d)) .abortedFault
  let s := s.onlyIf (s.loader.part.any (fun p => decide (p.region / 2 = d))) (fun s => s.abortPartial)
  let s := ((s.loseRegion (2 * d)).loseRegion (2 * d + 1)).emptyQ ⟨.ctxPort, d⟩
  let s := (((s.clearBank (1 + d)).clearRange (0xF1000 + 0x1000 * d) (0xF1FFF + 0x1000 * d))).freshSensors (1 + d)
  let s := { s with loader := { s.loader with locks := s.loader.locks.set (1 + d) false } }
  s.setDie d { s.die d with inReset := true, reapply := true, capture := none }

/-! ### Package reset -/

/-- A JTAG instruction that holds D0, D1 and D2 in reset (R445). -/
def tapHolds (i : TapInstr) : Bool :=
  match i with
  | .extest => true
  | .extestPulse => true
  | .extestTrain => true
  | .clamp => true
  | .highz => true
  | _ => false

/-- Key `k` of the bank belongs to what D4 and the always-on island hold through a reset of D0: AON_STAT, AON_VIN, REFCLK_OK,
BIST results, held parts, tile health, the power-good bits of the OE rails (R370, R400). -/
def islandKey (k : Nat) : Bool :=
  let a := k / 32
  decide (a = 0x810) || decide (a = 0x814) || (decide (a = 0x804) && decide (k % 32 = 21)) ||
    (decide (0xD0100 ≤ a) && decide (a < 0xD0160)) || decide (a = 0xD0210) ||
    (decide (a = 0xB3004) && decide (k % 32 < 2)) || tileHealthKey k

/-- The order in which a boot load tries the slots (02_bitstream.md R76): a named slot first. -/
def bootOrder (named : Nat) : List Nat :=
  if named = 0 then [1, 2, 3] else named :: [1, 2, 3].filter (fun k => decide (k ≠ named))

/-- D0, D1 and D2 enter reset (R23): everything they hold is lost but for what the always-on island and D4 hold; D3 is put
into reset and its content is lost (log 12).  The command queue of the model, the free-value counter and what is fixed at
manufacture or held in MRAM stand. -/
def State.packageReset (s : State) : State :=
  let kept := s.regs.filter (fun e => islandKey e.1)
  let peers := factoryPeers s.serial.toNat
  let bank := peers.foldl (fun m e => SMap.set m 0 e.1 e.2) kept
  let faulty := s.get THERM.SENS_FAULT_FAULTY.f / 2 ^ 22 * 2 ^ 22
  let t : ThermSt := { ThermSt.fresh with
    shutdown := s.therm.shutdown, held := s.therm.held, calm := s.therm.calm
    sensors := s.therm.sensors.filter (fun e => decide (22 ≤ e.1) || !s.sensorFaulty e.1) }
  let p : PowerSt := { s.power with
    stage6 := false, d0Reset := true, drains := [], returns := [], wait := none, leavingIdle := false }
  let x : State := { State.reset with
    pending := s.pending, freeCtr := s.freeCtr, variant := s.variant, serial := s.serial, strap := s.strap, regs := bank
    keys := s.keys, mram := s.mram, tap := s.tap, therm := t, power := p, hk := { HkSt.fresh with lost := s.hk.lost } }
  let x := (x.put THERM.SENS_FAULT_FAULTY.f faulty).onlyIf s.power.stage6 (fun x => x.put PWR.AON_STAT_STAGE.f 0)
  let x := (x.setDie 0 { DieSt.fresh with inReset := true }).setDie 1 { DieSt.fresh with inReset := true }
  if x.hasD3 then x else (x.put CTX.CTX_CFG_PLACE_EN.f 0).put CTX.CTX_CFG_PREFETCH_EN.f 0

/-- A RESET_N that is acted on asserts (R371): the save RAM is discarded, WAKE_CAUSE is 1; a wake from DEEP_STANDBY goes on as a
package reset (R383). -/
def State.resetAsserted (s : State) : State :=
  let s := (s.packageReset).put PWR.AON_STAT_WAKE_CAUSE.f 1
  { s with power := { s.power with save := [], wake := s.power.wake.map (fun _ => 0) } }

/-- D0 is held in reset by something other than the sequence under way: RESET_N, a thermal shutdown, JTAG, a held safe state, a
failure and retry cycle, power-up BIST, DEEP_STANDBY. -/
def State.d0Held (s : State) : Bool :=
  s.power.resetN || s.therm.held || tapHolds s.tap || s.power.retry.isSome || s.power.bistRunning || s.standby ||
    decide (s.get PWR.AON_STAT_HELD_CAUSE.f ≠ 0) || decide (s.power.vin ≠ .up)

/-- The rails of stages `lo` to `hi` are up; stage 5 does not exist on SKM-832-M0 (R365). -/
def State.railsTo (s : State) (lo hi : Nat) : Bool :=
  (List.range 7).all (fun k => decide (k < lo) || decide (hi < k) || bitAt s.power.railsUp k || (decide (k = 5) && !s.hasD3))

/-- The rails that D0 needs to leave reset are up: stages 1 to 3 at a wake that owes no BIST, whose other stages run in parallel
(R378); otherwise stages 1 to 5, with the sequence complete. -/
def State.railsReady (s : State) : Bool :=
  if s.power.wake.isSome && !s.power.bistDue then s.railsTo 1 3
  else s.railsTo 1 5 && decide (s.get PWR.AON_STAT_STAGE.f = 0)

end Sys2Proof.Machine
end

