-- ==== Sys2Proof/Machine/Schedule.lean ====
section
/-!
DEFINITION. The schedule table, its commands, its due queue and its triggers, and the trigger outputs (09_time.md R302 to
R308, R310, R312).
-/

namespace Sys2Proof.Machine

open Sys2Proof

/-! ### SCHEDULE_ADD (R303) -/

/-- Entry bytes `b` written to position `p`, which becomes PENDING. -/
def State.writePos (s : State) (p : Nat) (b : List Nat) : State :=
  let s := s.setPos p { st := 1, reason := 0, bytes := b, poison := false }
  { s with ctx := { s.ctx with marked := s.ctx.marked.erase p }, sched := { s.sched with dueQ := s.sched.dueQ.erase p } }

/-- Position `p` made EMPTY. -/
def State.clearPos (s : State) (p : Nat) : State :=
  let s := s.setPos p .empty
  { s with ctx := { s.ctx with marked := s.ctx.marked.erase p }, sched := { s.sched with dueQ := s.sched.dueQ.erase p } }

/-- The 16 bytes of SCHED_BUF. -/
def State.schedBuf (s : State) : List Nat :=
  (List.range 4).flatMap (fun i => leBytes 4 (s.get (TIME.SCHED_BUF_ENTRY.f 0 i)))

/-- The position an ADD writes: the one named, or the lowest EMPTY one. -/
def State.addPos (s : State) (arg : Nat) : Option Nat :=
  if arg = 0xFFFF then (List.range 4096).find? (fun p => decide ((s.pos p).st = 0)) else some arg

/-- ADD. -/
def addEffect (s : State) : State :=
  s.withHead .schedule 5 0 (fun w =>
    let b := s.schedBuf
    if entryOk b then
      match s.addPos (cmdWord w 1) with
      | none => s.complete .schedule w .full 0 0 0
      | some p =>
        if entryTime b < s.now + dueUnits then s.complete .schedule w .tooSoon 0 0 0
        else if s.due p then s.complete .schedule w .due 0 0 0
        else (s.writePos p b).complete .schedule w .ok 0 p 0
    else s.complete .schedule w .badEntry 0 0 0)

def execAdd (s : State) : Host.Outcome State Fault Refusal := .next (addEffect s)

/-- REMOVE. -/
def scheduleRemoveEffect (s : State) : State :=
  s.withHead .schedule 5 1 (fun w =>
    let p := cmdWord w 1
    if s.due p then s.complete .schedule w .due 0 0 0 else (s.clearPos p).complete .schedule w .ok 0 0 0)

def execScheduleRemove (s : State) : Host.Outcome State Fault Refusal := .next (scheduleRemoveEffect s)

/-- READ: the position's bytes go to SCHED_BUF. -/
def scheduleReadEffect (s : State) : State :=
  s.withHead .schedule 5 2 (fun w =>
    let x := s.pos (cmdWord w 1)
    if x.st = 0 then s.complete .schedule w .empty 0 0 0
    else
      (s.putRow TIME.SCHED_BUF_ENTRY 0 0 ((List.range 4).map (fun i => leNat (span x.bytes (4 * i) (4 * i + 3))))).complete
        .schedule w .ok 0 0 0)

def execScheduleRead (s : State) : Host.Outcome State Fault Refusal := .next (scheduleReadEffect s)

/-- Every FIRED and SKIPPED position made EMPTY. -/
def State.purge (s : State) : State :=
  { s with sched := { s.sched with pos := s.sched.pos.filter (fun e => !decide (2 ≤ e.2.st)) } }

def purgeEffect (s : State) : State := s.withHead .schedule 5 3 (fun w => s.purge.complete .schedule w .ok 0 0 0)

def execPurge (s : State) : Host.Outcome State Fault Refusal := .next (purgeEffect s)

/-! ### Due queue and triggers (R304 to R306) -/

/-- The PENDING position that is due and not yet in the due queue, the earliest one first. -/
def State.nextDue (s : State) : Option Nat :=
  (s.pendingWhere (fun p _ => s.due p && !s.sched.dueQ.contains p)).foldl
    (fun (o : Option Nat) p =>
      match o with
      | none => some p
      | some q => if entryTime (s.pos p).bytes < entryTime (s.pos q).bytes then some p else some q) none

/-- SCHEDULE_DUE: an entry is drawn into the due queue. -/
def scheduleDueEffect (s : State) : State :=
  match s.nextDue with
  | some p => if s.cclkRuns then { s with sched := { s.sched with dueQ := s.sched.dueQ ++ [p] } } else s
  | none => s

def execScheduleDue (s : State) : Host.Outcome State Fault Refusal := .next (scheduleDueEffect s)

/-- Position `p` may be evaluated in this CCLK: PENDING, its time reached, no lower position that also has, and fewer than 16
triggers in the cycle so far (R304, R305). -/
def State.mayTrigger (s : State) (p : Nat) : Bool :=
  s.cclkRuns && decide ((s.pos p).st = 1) && decide (entryTime (s.pos p).bytes ≤ s.now) &&
  (s.pendingWhere (fun q x => decide (q < p) && decide (entryTime x.bytes ≤ s.now))).isEmpty &&
  (decide (s.sched.trigTick ≠ s.time.tick) || decide (s.sched.trigCount < 16))

/-- The cycle's trigger count and squelched lanes, cleared where the cycle is a new one. -/
def State.trigCycle (s : State) : State :=
  if s.sched.trigTick = s.time.tick then { s with sched := { s.sched with trigCount := s.sched.trigCount + 1 } }
  else { s with sched := { s.sched with trigTick := s.time.tick, trigCount := 1, squelched := [] } }

/-- The trigger stamp of position `p` (R306). -/
def State.stampTrigger (s : State) (p : Nat) : State :=
  ((s.put TIME.LAST_TRIG_POS.f p).put TIME.LAST_TRIG_TICK_LO.f s.time.tick).put TIME.LAST_TRIG_TICK_HI.f (s.time.tick / 2 ^ 32)

/-- The action is one for lanes of which one lies in a region gated or under reconfiguration (R56) (log 73). -/
def State.regionBlocks (s : State) (b : List Nat) : Bool :=
  decide (entryAction b ≤ 4) &&
  (descLanes (entryGroup b)).any (fun n => s.gated (n / 2) ||
    (match s.loader.part with
     | some p => decide (p.region = n / 2)
     | none => false))

/-- A pulse of WIDTH begins on trigger line `j` (log 72). -/
def State.addPulse (s : State) (j width : Nat) : State :=
  (s.setTrig j { s.trigLine j with pulses := (s.trigLine j).pulses ++ [width] }).leadEdge j

/-- The action of a triggered entry (table of R302). -/
def State.runAction (s : State) (b : List Nat) : State :=
  let op := entryOperand b
  let lanes := descLanes (entryGroup b)
  match entryAction b with
  | 1 => s.startApply op (entryGroup b) false none
  | 2 =>
    let s := { s with sched := { s.sched with squelched := s.sched.squelched ++ lanes } }
    s.each lanes (fun s n => if s.laneServed n then s.setReason n 2 true else s)
  | 3 => s.each lanes (fun s n =>
      if s.laneServed n = true ∧ s.sched.squelched.contains n = false then s.setReason n 2 false else s)
  | 4 =>
    let n := descStart (entryGroup b)
    (s.txChannel n (bitField op 0 4)).onlyIf (bitAt op 9) (fun s => s.loadRxCh n (bitField op 4 4) (bitAt op 8))
  | _ =>
    let s := s.each (List.range 4) (fun s j => if bitAt op j then s.addPulse j (s.trigLine j).width else s)
    s.strobeOnce (bitField op 4 4)

/-- SCHEDULE_TRIGGER: position `p` is evaluated (log 73). -/
def scheduleTriggerEffect (p : Nat) (s : State) : State :=
  if s.mayTrigger p then
    let x := s.pos p
    let s := { s with sched := { s.sched with dueQ := s.sched.dueQ.erase p } }
    if x.poison then (s.poisonUse 7 0).skipPos p 2
    else if entryEnable x.bytes = false then s.skipPos p 2
    else if entryEpoch x.bytes ≠ s.get TIME.TIME_STAT_EPOCH.f % 16 then s.skipPos p 1
    else if s.regionBlocks x.bytes then
      let s := ((s.trigCycle).stampTrigger p).skipPos p 3
      if entryAction x.bytes = 1 then s.startApply (entryOperand x.bytes) (entryGroup x.bytes) false none else s
    else
      let s := ((s.trigCycle).stampTrigger p).setPos p { x with st := 2 }
      ((s.raise 308).countD0 0x31 0 1).runAction x.bytes
  else s

def execScheduleTrigger (pos : Nat) (s : State) : Host.Outcome State Fault Refusal := .next (scheduleTriggerEffect pos s)

/-! ### Trigger outputs (R307, R308) -/

/-- START of line `j`, in the units of the time base. -/
def State.trigStart (s : State) (j : Nat) : Nat :=
  timeOf (s.get (TIME.TRIG_START_SEC_LO.f 0 j) + 2 ^ 32 * s.get (TIME.TRIG_START_SEC_HI.f 0 j)) (s.get (TIME.TRIG_START_NS.f 0 j)) 0

/-- PERIOD of line `j`, in units of 2^-16 ns. -/
def State.trigPeriod (s : State) (j : Nat) : Nat :=
  s.get (TIME.TRIG_PERIOD_NS.f 0 j) * 65536 + s.get (TIME.TRIG_PERIOD_FRAC.f 0 j)

/-- The configuration of line `j` is one that ARM refuses (R308). -/
def State.armRefused (s : State) (j : Nat) : Bool :=
  let w := s.get (TIME.TRIG_WIDTH.f 0 j)
  let m := s.get (TIME.TRIG_CTL_MODE.f 0 j)
  decide (w < 8) || decide (1000000 < w) || (decide (m = 2) && decide (s.trigPeriod j < (w + 8) * 65536)) ||
    (decide (m = 1) && decide (s.trigStart j < s.now + dueUnits))

/-- The configuration of line `j` takes effect (R308): the first pulse of a grid whose START has passed is the first one at
least 2 µs ahead. -/
def State.armLine (s : State) (j : Nat) : State :=
  let x := s.trigLine j
  let y := { x with mode := s.get (TIME.TRIG_CTL_MODE.f 0 j), start := s.trigStart j, period := s.trigPeriod j
                    width := s.get (TIME.TRIG_WIDTH.f 0 j), count := s.get (TIME.TRIG_COUNT.f 0 j)
                    pol := s.getB (TIME.TRIG_CTL_POL.f 0 j), next := 0 }
  let y := if y.mode = 2 ∧ y.start < s.now then { y with next := y.firstAt (s.now + dueUnits) } else y
  s.setLineTrig j y

/-- A write of 1 to ARM of line `j`. -/
def State.arm (s : State) (j : Nat) : State :=
  let m := s.get (TIME.TRIG_CTL_MODE.f 0 j)
  if (m = 1 ∨ m = 2) ∧ s.armRefused j = true then (s.setLineTrig j { s.trigLine j with mode := 0 }).raise (310 + j)
  else s.armLine j

def armEffect (line : Fin 4) (s : State) : State := if s.d0Up then s.arm line else s

def execArm (line : Fin 4) (s : State) : Host.Outcome State Fault Refusal := .next (armEffect line s)

/-- TRIG_PULSE: the instant of the line's next pulse is reached. -/
def trigPulseEffect (line : Fin 4) (s : State) : State :=
  let x := s.trigLine line
  if s.cclkRuns = true ∧ x.armed = true ∧ x.instant x.next ≤ s.now then
    (s.setLineTrig line { x with next := x.next + 1 }).addPulse line x.width
  else s

def execTrigPulse (line : Fin 4) (s : State) : Host.Outcome State Fault Refusal := .next (trigPulseEffect line s)

/-- TRIG_PULSE_END: the oldest pulse under way on the line ends (log 72). -/
def trigPulseEndEffect (line : Fin 4) (s : State) : State :=
  s.setTrig line { s.trigLine line with pulses := (s.trigLine line).pulses.drop 1 }

def execTrigPulseEnd (line : Fin 4) (s : State) : Host.Outcome State Fault Refusal := .next (trigPulseEndEffect line s)

/-- The level of TRIG_OUT[j]: the OR of every pulse under way, at the level that POL set at the last ARM (R307, R308) (log 72). -/
def State.trigOut (s : State) (j : Nat) : Bool := xor (!(s.trigLine j).pulses.isEmpty) (s.trigLine j).pol

end Sys2Proof.Machine
end

