-- ==== Sys2Proof/Machine/Bus.lean ====
section
/-!
DEFINITION. Register accesses: what a read of any address returns and does, and what a write of any address does
(00_scope.md R8 to R13; 16_register_map.md R447 to R460; the register tables of the chapters).
-/

namespace Sys2Proof.Machine

open Sys2Proof

/-! ### Fields whose value the typed state holds -/

/-- The field's row lies at offset `off` and bit `lsb`. -/
def RegHit.is (h : RegHit) (off lsb : Nat) : Bool := h.row.off == off && h.row.lsb == lsb

/-- A value of the line lane block (R139). -/
def State.lineView (s : State) (h : RegHit) : Nat :=
  let l := s.lane h.inst
  match h.row.off, h.row.lsb with
  | 0x18, 0 => wordOf 32 l.freqI
  | 0x1C, 0 => l.phase / 65536
  | 0x24, 0 => wordOf 8 (accVal l.eq.a1)
  | 0x24, 8 => wordOf 8 (accVal l.eq.a2)
  | 0x24, 16 => wordOf 8 (accVal l.eq.b)
  | _, _ => s.get h.fld

/-- The pool extension of tile `t`. -/
def State.extOf (s : State) (t : Nat) : Option PoolExt := if t < 96 then none else (s.pool (tileRegion t)).ext (t % 2)

/-- Element `i` of a list of accumulators as a field of `w` bits. -/
def accField (w : Nat) (as : List Int) (i : Nat) : Nat := wordOf w (accVal (as.getD i 0))

/-- A value of a tile's space (R140, R173, R417). -/
def State.tileView (s : State) (h : RegHit) : Nat :=
  let t := h.inst
  let seg : Option PoolExt := if s.chainPos t = none then (s.extOf t).filter (·.ffe) else none
  let np : Option PoolExt := (s.extOf t).filter (fun x => !x.ffe)
  if h.row = TILE.TILE_TEST_READY then natOf (s.ready t)
  else if h.row = TILE.TILE_INFO_FN then s.tileFn t
  else if h.row = TILE.TAP_COEF then
    match s.chainPos t with
    | some (n, p) => accField 12 (s.lane n).eq.taps (12 * p + h.idx)
    | none => accField 12 ((seg.map (·.g)).getD []) h.idx
  else if h.row = TILE.SEG_SEG_START then (seg.map (·.start)).getD 0
  else if h.row = TILE.SEG_ATTACHED then natOf seg.isSome
  else if h.row = TILE.LVL_LEVEL then
    match s.serves t with
    | some n => accField 10 (s.lane n).eq.levels ((if s.actsAs t = some 7 then 32 else 0) + h.idx)
    | none => 0
  else if h.row = TILE.NP_P1 then wordOf 8 ((np.map (fun x => accVal x.p1)).getD 0)
  else if h.row = TILE.NP_P2 then wordOf 8 ((np.map (fun x => accVal x.p2)).getD 0)
  else if h.row = TILE.NP_ATTACHED then natOf np.isSome
  else if h.row = TILE.DEC_STAT_PARITY then natOf (decide (s.actsAs t = some 9))
  else s.get h.fld

/-- A value of a port's block (R222). -/
def State.portView (s : State) (h : RegHit) : Nat :=
  match h.row.off, h.row.lsb with
  | 0x10, 0 => (s.port h.inst).a.nm.length
  | 0x10, 16 => (s.port h.inst).b.nm.length
  | _, _ => s.get h.fld

/-- DIR_STAT.BUSY (R235, R258): a store or removal is the command that the context engine works on, or a relocation is under way. -/
def State.dirBusy (s : State) : Bool :=
  !s.ctx.reloc.isEmpty ||
  match s.headOf .context with
  | some w => cmdOpcode w == 3 && [0, 1, 2, 6].contains (cmdOp w)
  | none => false

/-- A value of the context engine block (R258); APPLY_STAT and APPLY_PEER are live in the lowest lane of a group only. -/
def State.ctxView (s : State) (h : RegHit) : Nat :=
  match h.row.off, h.row.lsb with
  | 0x10, 0 => s.ctx.entries
  | 0x10, 20 => s.ctx.stashUsed
  | 0x10, 24 => natOf s.dirBusy
  | 0x14, 0 => s.slotCount - s.ctx.used.length
  | 0x18, 0 => (s.ctx.lines.filter (fun e => decide (e.2.st = .valid) || decide (e.2.st = .inUse))).length
  | 0x18, 16 => (s.ctx.lines.filter (fun e => e.2.pin)).length
  | 0x40, _ => if s.lowest h.idx then s.get h.fld else 0
  | 0x60, _ => if s.lowest h.idx then s.get h.fld else 0
  | _, _ => s.get h.fld

/-- PEND in units of 2^-16 ns, as a 64-bit count of ns and a fraction (R311). -/
def State.pendShown (s : State) : Int := s.pendNow / 2 ^ 32

/-- A value of the time block (R311). -/
def State.timeView (s : State) (h : RegHit) : Nat :=
  match h.row.off, h.row.lsb with
  | 0x20, 0 => wordOf 32 (s.pendShown / 65536)
  | 0x24, 0 => wordOf 32 (s.pendShown / 65536 / 2 ^ 32)
  | 0x28, 0 => wordOf 16 s.pendShown
  | 0x110, 0 => (s.sched.pos.filter (fun e => decide (e.2.st = 1))).length
  | 0x110, 16 => (s.sched.pos.filter (fun e => decide (e.2.st ≠ 0))).length
  | _, _ => s.get h.fld

/-- A value of the self-test block (R418): a lane of a held region is held disabled. -/
def State.bistView (s : State) (h : RegHit) : Nat :=
  let r := h.idx
  match h.row.off, h.row.lsb with
  | 0x210, 0 => (List.range 8).foldl (fun m n => m + natOf (s.laneHeld n) * 2 ^ n) 0
  | 0x220, 0 => natOf (s.ready (clusterTile (2 * r) 11))
  | 0x220, 1 => natOf (s.ready (clusterTile (2 * r + 1) 11))
  | 0x220, 2 => natOf (s.ready (poolTile r 0))
  | 0x220, 3 => natOf (s.ready (poolTile r 1))
  | 0x220, 8 => natOf (s.test.bgNow.any (fun e => decide (e.1 = r)))
  | _, _ => s.get h.fld

/-- Word `i` of the head completion (R429), 0 where the queue is empty. -/
def State.cplWord (s : State) (i : Nat) : Nat :=
  match s.mgmt.cpls with
  | [] => 0
  | c :: _ =>
    match i with
    | 0 => c.tag + 2 ^ 16 * c.opcode + 2 ^ 24 * c.status.code
    | 1 => c.detail
    | 2 => c.result0
    | _ => c.result1

/-- A value of the global block (R432, R453, R454). -/
def State.globalView (s : State) (h : RegHit) : Nat :=
  match h.row.off, h.row.lsb with
  | 0x8, 0 => s.serial.toNat
  | 0xC, 0 => s.serial.toNat / 2 ^ 32
  | 0x20, 0 => if s.hasD3 then 2048 else 0
  | 0x24, 0 => s.slotCount
  | 0x440, 0 => s.cplWord h.idx
  | 0x454, 0 => s.mgmt.cpls.length
  | 0x454, 8 => s.mgmt.taken.length
  | _, _ => s.get h.fld

/-- A value of the interrupt controller (R440). -/
def State.intcView (s : State) (h : RegHit) : Nat :=
  match h.row.off, h.row.lsb with
  | 0x10, 0 => natOf s.intc.irqLow
  | 0x10, 16 => (List.range 16).foldl (fun m p => m + natOf (s.intc.claims.any (fun c => decide (c.2 = p))) * 2 ^ p) 0
  | 0x100, 0 => (List.range 32).foldl (fun m b => m + natOf (s.srcLevel (32 * h.idx + b)) * 2 ^ b) 0
  | 0x1000, 6 => natOf (faultClassSource h.idx)
  | 0x1000, 7 => natOf (s.srcLevel h.idx)
  | 0x1000, 8 => natOf (s.claimed h.idx)
  | _, _ => s.get h.fld

/-- The code of a key slot's state (R90). -/
def keyCode (k : KeySlot) : Nat :=
  match k.state with
  | .empty => 0 | .valid => 1 | .revoked => 2

/-- KEYn_STATE (R90). -/
def State.keyStates (s : State) : Nat := (List.range 4).foldl (fun m n => m + ((s.keys.map keyCode).getD n 0) * 4 ^ n) 0

/-- The value of a register field as a read shows it: WO fields read 0 (R8). -/
def State.fieldView (s : State) (h : RegHit) : Nat :=
  if h.row.acc = .wo then 0
  else
    (match h.row.blk with
    | .line => s.lineView h
    | .tile => s.tileView h
    | .port => s.portView h
    | .ctx => s.ctxView h
    | .time => s.timeView h
    | .bist => s.bistView h
    | .global => s.globalView h
    | .intc => s.intcView h
    | .loader => if h.row.off = 0xC then s.keyStates else s.get h.fld
    | .mem => if s.hasD3 || decide (0x100 ≤ h.row.off) then s.get h.fld else 0
    | .dbg => if s.getB LOADER.STATUS_DEBUG_ALLOWED.f then s.get h.fld else 0
    | .perf => if h.row.off = 4 then s.count h.inst h.idx else s.get h.fld
    | _ => s.get h.fld) % 2 ^ h.row.width

/-- The word of a register: its fields in their places; reserved bits read 0 (R9). -/
def State.wordView (s : State) (hits : List RegHit) : Nat :=
  hits.foldl (fun w h => w + s.fieldView h * 2 ^ h.row.lsb) 0

/-! ### Words that are no registers of the tables -/

/-- Word `w` of the monitor of queue `q` (R43). -/
def State.monitorView (s : State) (q : QueueId) (w : Nat) : Nat :=
  let x := s.queue q
  match w with
  | 0 => q.kind.depth + 2 ^ 8 * x.starveLimit
  | 1 => x.credits + 2 ^ 8 * x.entries.length + 2 ^ 16 * x.hwm
  | 2 => natOf x.ovf + 2 * natOf x.starve + 4 * natOf x.creditErr
  | _ => 2 * natOf x.starveEn

def LineState.code (x : LineState) : Nat :=
  match x with
  | .free => 0 | .filling => 1 | .valid => 2 | .inUse => 3

/-- The tag word of cache line `c` (R259). -/
def State.tagView (s : State) (c : Nat) : Nat :=
  let l := s.line c
  l.slot + 2 ^ 16 * l.st.code + 2 ^ 18 * natOf l.pin + 2 ^ 19 * natOf (decide (s.now < l.due))

/-- Entry status word `p` (R312). -/
def State.entryView (s : State) (p : Nat) : Nat :=
  (s.pos p).st + 4 * (s.pos p).reason + 32 * natOf (s.due p)

/-- The value of bytes, least significant first. -/
def bytesVal (bs : List MByte) : Nat := leNat (bs.map (·.val.toNat))

/-- A word read from the D0 SRAM numbered `m`: the stored bits; a byte that carries the mark is a parity error and a
consumption by the host (R348, R349, R352). -/
def State.sramRead (s : State) (m a : Nat) (bs : List MByte) : Nat × State :=
  (bytesVal bs, s.onlyIf (bs.any (·.poison)) (fun s => (s.parity m).poisonUse 10 a))

/-- A directory entry of the window (R260). -/
def State.dirRead (s : State) (a way i : Nat) (hi : Bool) : Nat × State :=
  let e := s.ctx.entry way i
  let bs := (e.bytes.drop (if hi then 4 else 0)).take 4
  s.sramRead 5 a (bs.map (fun b => ⟨BitVec.ofNat 8 b, e.poison⟩))

/-! ### Availability (R450, R451, 14_selftest_faults.md R414) -/

/-- The tile whose space holds `a`, with the offset in it. -/
def tileOfAddr (a : Nat) : Option (Nat × Nat) :=
  let n := (a - 0x80000) / 0x4000
  let o := (a - 0x80000) % 0x4000
  if a < 0x80000 ∨ 0xA0000 ≤ a then none
  else if 0x800 ≤ o ∧ o < 0x1400 then some (clusterTile n ((o - 0x800) / 0x100), o % 0x100)
  else if 0x1400 ≤ o ∧ o < 0x1600 ∧ n % 2 = 0 then some (poolTile (n / 2) ((o - 0x1400) / 0x100), o % 0x100)
  else none

/-- The line lane whose block holds `a`. -/
def laneOfAddr (a : Nat) : Option Nat := if 0x80000 ≤ a ∧ a < 0xA0000 then some ((a - 0x80000) / 0x4000) else none

/-- The part that serves `a` is there: a read of anything else returns 0 and a write is discarded, with no report. -/
def State.served (s : State) (a : Nat) : Bool :=
  (match laneOfAddr a with
  | some n => s.laneServed n
  | none => if 0xF1000 ≤ a ∧ a < 0xF3000 then s.bankServed ((a - 0xF0000) / 0x1000) else true) &&
  match tileOfAddr a with
  | some (t, o) => !(s.tileFailed t && decide (0x10 ≤ o))
  | none => true

/-- `a` lies in the block of a parked lane: WO fields discard their writes. -/
def State.parkedAt (s : State) (a : Nat) : Bool :=
  match laneOfAddr a with
  | some n => s.parked n
  | none => false

/-- What the always-on island serves while D0 is in reset: AON_STAT, AON_VIN, PWR_STAT (15_management.md R423). -/
def islandServes (a : Nat) : Bool := a == 0x810 || a == 0x814 || a == 0x804

/-! ### A read of any address -/

/-- The word at an address that D0 serves, and the state after the read's own effects. -/
def State.targetRead (s : State) (a : Nat) (o : Origin) : Nat × State :=
  match s.target a with
  | .reg hits =>
    if a = 0x10000 then s.claimRead
    else if a = 0x814 then (s.free 12, s.freed)
    else
      let v := s.wordView hits
      match hits with
      | h :: _ => if h.row = PERF.CNT_LO then (v, s.latchCount h.inst h.idx) else (v, s)
      | [] => (v, s)
  | .monitor q w => (s.monitorView q w, s)
  | .cacheTag c => (s.tagView c, s)
  | .ctxBuf off => s.sramRead 6 a (s.ctx.buf.getRun .unwritten off 4)
  | .entryStat p => (s.entryView p, s)
  | .staging off => s.sramRead 7 a (s.loader.staging.getRun .unwritten off 4)
  | .capWin n off => (leNat (((s.lane n).capWin.getRun 0 off 4).map (·.toNat)), s)
  | .hkRing i => (s.hk.ring.get 0 i, s)
  | .dir way i hi => s.dirRead a way i hi
  | .mem a =>
    if s.hasD3 = false then (0, s.unmapped a o false)
    else if s.memDown then (0, s)
    else
      let r := s.hostWord (a / 8 * 8)
      let bs := (r.2.1.drop (a % 8)).take 4
      (bytesVal bs, r.1.onlyIf (bs.any (·.poison)) (fun s => s.poisonUse 10 a))
  | .quiet => (0, s)
  | .unassigned => (0, s.unmapped a o false)

/-- A GDDR7 window access at `a` waits: a retraining is under way (11_memory.md R345). -/
def State.windowWaits (s : State) (a : Nat) : Bool :=
  match s.target a with
  | .mem _ => s.hasD3 && s.d0Up && !s.memDown && !s.memServes
  | _ => false

/-- How many of the `n` words from `a` on are ready before the first one that waits. -/
def State.readyRun (s : State) (a n : Nat) : Nat :=
  match n with
  | 0 => 0
  | k + 1 => if s.windowWaits a then 0 else s.readyRun ((a + 4) % 2 ^ 32) k + 1

/-- A read of the word at `a` (R450; VIN, which the spec does not bound further, is a free value, log 39). -/
def State.busRead (s : State) (a : Nat) (o : Origin) : Nat × State :=
  if s.d0Up = false then
    if islandServes a && decide (o = .mgmt) && !s.standby then s.targetRead a o else (0, s)
  else if s.served a then s.targetRead a o
  else (0, s)

/-! ### A write of any address -/

/-- The value an RW field stores: values outside its range as its table says. -/
def storedValue (r : FRow) (x : Nat) : Nat :=
  match r.blk, r.off, r.lsb with
  | .line, 0x10, 16 => clampNat 8 100 x
  | .line, 0x2C, 0 => max 16 x
  | .line, 0x30, _ => min 12 x
  | .line, 0x34, 0 => max 1 x
  | .line, 0x38, 0 => max 1 x
  | .line, 0x38, 16 => min 96 x
  | .port, 0x4, 0 => clampNat 16 7168 x
  | .ctx, 0x0, 8 => max 1 x
  | .ctx, 0x8, 8 => max 1 x
  | .bcn, 0x4, 0 => max 10 x
  | .bcn, 0x40, 8 => min 2 x
  | .bcn, 0x84, _ => clampNat 1 1000 x
  | .time, 0x0, 0 => if x = 3 then 0 else x
  | .time, 0x0, 4 => if x = 3 then 0 else x
  | .time, 0xC, 0 => clampNat 10 1000000000 x
  | .time, 0x10, 8 => clampNat 1 100 x
  | .time, 0x200, 0 => if x = 3 then 0 else x
  | .hka, 0x838, 0 => max 1 x
  | .hkac, 0x100, _ => seqWord x
  | .oe, 0xC, 0 => if x = 3 then 1 else x
  | .mem, 0x24, 8 => max 1 x
  | .pwr, 0x0, 0 => if x = 3 then 0 else x
  | .pwr, 0x18, 0 => min 128 x
  | .therm, 0x4, _ => max 1 x
  | .global, 0x484, 0 => clampNat 8 63 x
  | _, _, _ => x

/-- The part of a written word that goes to a field. -/
def RegHit.part (h : RegHit) (v : Nat) : Nat := bitField v h.row.lsb h.row.width

/-- A field stored by its access code (R8): W1C clears where the word has 1. -/
def State.storeField (s : State) (v : Nat) (h : RegHit) : State :=
  match h.row.acc with
  | .rw => s.put h.fld (storedValue h.row (h.part v))
  | .rwl => s.put h.fld (h.part v)
  | .w1c => s.put h.fld (s.get h.fld &&& (2 ^ h.row.width - 1 ^^^ h.part v))
  | _ => s

def State.storeFields (s : State) (v : Nat) (hits : List RegHit) : State := s.each hits (fun s h => s.storeField v h)

/-- The instance `n` as a line lane, a host lane, a region's number and so on. -/
def laneOf (n : Nat) : Lane := Fin.ofNat 8 n

/-- RX_CTL, MEAS_CTL, HIST_CTL and TX_CTL of lane `n` written (R139, R191); `wo` says that WO fields act (R450).
Of RESTART and PRESET_LOAD written 1 together, RESTART alone acts (DESIGN CHOICE, log 95). -/
def State.lineWrite (s : State) (n off v : Nat) (wo : Bool) (hits : List RegHit) : State :=
  let l := laneOf n
  match off with
  | 0x0 =>
    let s := s.storeFields v hits
    let s := s.onlyIf (wo && bitAt v 1) (fun s => restartEffect l s)
    s.onlyIf (wo && bitAt v 6 && !bitAt v 1) (fun s => presetLoadEffect l s)
  | 0x300 => winWriteEffect l (BitVec.ofNat 5 v) s
  | 0x340 =>
    if bitAt v 0 then startEffect l (bitAt v 1) (BitVec.ofNat 5 (bitField v 2 5)) s
    else (s.putB (LINE.HIST_CTL_POINT.f n) (bitAt v 1)).put (LINE.HIST_CTL_LEN.f n) (clampNat 10 30 (bitField v 2 5))
  | 0x100 =>
    (patternEffect l (BitVec.ofNat 3 (bitField v 1 3)) (squelchEffect l (bitAt v 0) s)).put (LINE.TX_CTL_AMPL.f n) (bitField v 8 4)
  | _ => s.storeFields v hits

/-- A tile register written (R140, R192). -/
def State.tileWrite (s : State) (t v : Nat) (wo : Bool) (hits : List RegHit) : State :=
  match hits with
  | [] => s
  | h :: _ =>
    if h.row = TILE.TAP_LOAD_INDEX then
      s.onlyIf wo (fun s => tapLoadEffect (Fin.ofNat 104 t) (Fin.ofNat 16 v) (BitVec.ofNat 12 (bitField v 16 12)) s)
    else if h.row = TILE.TXCOMMIT_COMMIT then
      match s.serves t with
      | some n => s.onlyIf (wo && bitAt v 0) (fun s => commitEffect (laneOf n) s)
      | none => s
    else s.storeFields v hits

/-- A host lane register written (R221). -/
def State.hostWrite (s : State) (h off v : Nat) (hits : List RegHit) : State :=
  let x : HostLane := Fin.ofNat 16 h
  match off with
  | 0x0 => (s.storeFields v hits).onlyIf (bitAt v 6) (fun s => rxRestartEffect x s)
  | 0x20 => (s.storeFields v hits).onlyIf (bitAt v 0) (fun s => hostTxCommitEffect x s)
  | _ => s.storeFields v hits

/-- A port register written (R222): RESUME_FILL is at most TARGET_FILL. -/
def State.portWrite (s : State) (n off v : Nat) (hits : List RegHit) : State :=
  match off with
  | 0x4 =>
    let t := clampNat 16 7168 (bitField v 0 13)
    (s.put (PORT.NM_CFG_TARGET_FILL.f n) t).put (PORT.NM_CFG_RESUME_FILL.f n) (clampNat 1 t (bitField v 16 13))
  | 0x14 => s.onlyIf (bitAt v 31) (fun s => nmHwmClrEffect (laneOf n) s)
  | _ => s.storeFields v hits

/-- A context engine register written (R258). -/
def State.ctxWrite (s : State) (off idx v : Nat) (hits : List RegHit) : State :=
  match off with
  | 0x0 =>
    if s.hasD3 then s.storeFields v hits else s.storeFields v (hits.filter (fun h => decide (h.row.lsb = 8)))
  | 0x4 => groupCfgWriteEffect (BitVec.ofNat 32 v) s
  | 0xC => hashSeedWriteEffect (BitVec.ofNat 32 v) s
  | 0x40 => if s.lowest idx then s.storeFields v hits else s
  | _ => s.storeFields v hits

/-- A beacon register written (R287): a write of TX_CFG starts the frame grid. -/
def State.bcnWrite (s : State) (n off v : Nat) (hits : List RegHit) : State :=
  let l := laneOf n
  match off with
  | 0x0 => txModeWriteEffect l (BitVec.ofNat 2 v) (s.storeFields v hits)
  | 0xC => s.onlyIf (bitAt v 0) (fun s => sendEffect l (bitAt v 1) s)
  | 0x10 => s.onlyIf (bitAt v 12) (fun s => txChLoadEffect l (BitVec.ofNat 4 (bitField v 8 4)) s)
  | 0x44 => s.onlyIf (bitAt v 13) (fun s => rxChLoadEffect l (BitVec.ofNat 4 (bitField v 8 4)) (bitAt v 12) s)
  | _ => s.storeFields v hits

/-- A time register written (R311). -/
def State.timeWrite (s : State) (off idx v : Nat) (hits : List RegHit) : State :=
  match off with
  | 0x0 => sumacRoleWriteEffect (BitVec.ofNat 2 (bitField v 4 2)) (s.storeFields v hits)
  | 0x40 => s.onlyIf (bitAt v 0) (fun s => snapEffect s)
  | 0x74 => convTickHiWriteEffect (BitVec.ofNat 32 v) s
  | 0x200 => (s.storeFields v hits).onlyIf (bitAt v 3) (fun s => s.arm idx)
  | _ => s.storeFields v hits

/-- A register of the housekeeping DACs and the dither generators written (R336): a span change that the loader makes is the device's own
(R318). -/
def State.hkdWrite (s : State) (off idx v : Nat) (o : Origin) (hits : List RegHit) : State :=
  match off with
  | 0x0 =>
    let s := (s.put (HKD.HKD_CFG_CODE.f 0 idx) (bitField v 0 12)).put (HKD.HKD_CFG_GROUP.f 0 idx) (bitField v 14 2)
    (s.setSpan idx (bitField v 12 2) (decide (o = .loader))).setHkdEnable idx (bitAt v 16)
  | 0x80 => s.strobeGroups (bitField v 0 4)
  | 0xC8 => s.setTarget idx (bitField v 0 8)
  | 0x100 => s.restartSines (bitField v 0 4)
  | _ => s.storeFields v hits

/-- A register of a housekeeping ADC written (R336). -/
def State.hkacWrite (s : State) (a off v : Nat) (hits : List RegHit) : State :=
  match off with
  | 0x0 => (s.storeFields v (hits.filter (fun h => decide (h.row.lsb ≠ 0)))).setHkaRun a (bitAt v 0)
  | _ => s.storeFields v hits

/-- A shared register of the housekeeping ADCs written (R336). -/
def State.hkaWrite (s : State) (off idx v : Nat) (hits : List RegHit) : State :=
  match off with
  | 0x800 => (s.storeFields v hits).onlyIf (bitAt v 8) (fun s => s.urgRequest idx)
  | 0x834 => rdIdxWriteEffect (BitVec.ofNat 12 v) s
  | _ => s.storeFields v hits

/-- A filter register written (R336). -/
def State.filtWrite (s : State) (off idx v : Nat) (hits : List RegHit) : State :=
  match off with
  | 0x0 => (s.setFiltRun (bitAt v 0)).onlyIf (bitAt v 1) (fun s => latchEffect s)
  | 0x100 => s.filtCfg idx v
  | _ => s.storeFields v hits

/-- An engine-interface register written (R336); the power-good of a rail enabled here shows at OE_RAIL_RETRY (log 40). -/
def State.oeWrite (s : State) (off v : Nat) (hits : List RegHit) : State :=
  match off with
  | 0x0 => (s.setOeRail 0 (bitAt v 0) false).setOeRail 1 (bitAt v 1) false
  | 0x10 => s.xferWrite v
  | 0x30 => s.onlyIf (bitAt v 0) (fun s => readEffect s)
  | _ => s.storeFields v hits

/-- A write of RST_CTL.Dn_RESET (R455): ignored while the die is busy; refused while it is unpowered or a WAIT is being
carried out; otherwise the die enters reset. -/
def State.resetDie (s : State) (d : Nat) : State :=
  let busy := if d = 0 then GLOBAL.RST_STAT_D1_BUSY.f else GLOBAL.RST_STAT_D2_BUSY.f
  if s.getB busy then s
  else if (s.die d).powered = false ∨ s.getB PWR.PWR_STAT_CHANGING.f = true then s.put GLOBAL.G_EVT_RESET_REFUSED.f 1
  else (s.dieReset d).put busy 1

def d1ResetEffect (d1 d2 : Bool) (s : State) : State :=
  if s.d0Up then (s.onlyIf d1 (fun s => s.resetDie 0)).onlyIf d2 (fun s => s.resetDie 1) else s

def execD1Reset (d1 : Bool) (d2 : Bool) (s : State) : Host.Outcome State Fault Refusal := .next (d1ResetEffect d1 d2 s)

/-- PKG_RESET (R456): with the key 0xA5 it acts as an assertion of RESET_N and its release; D0 leaves reset at
D0_RESET_END. -/
def pkgResetEffect (key : Byte) (s : State) : State :=
  if s.d0Up then (if key = 0xA5 then s.resetAsserted else s.put GLOBAL.G_EVT_RESET_REFUSED.f 1) else s

def execPkgReset (key : Byte) (s : State) : Host.Outcome State Fault Refusal := .next (pkgResetEffect key s)

/-- A global register written (R432, R455, R456). -/
def State.globalWrite (s : State) (off v : Nat) (hits : List RegHit) : State :=
  match off with
  | 0x100 =>
    (d1ResetEffect (bitAt v 0) (bitAt v 1) s).onlyIf (bitAt v 16) (fun s => pkgResetEffect (BitVec.ofNat 8 (bitField v 8 8)) s)
  | 0x420 => s.onlyIf (bitAt v 0) (fun s => cmdPushEffect s)
  | 0x450 => s.onlyIf (bitAt v 0) (fun s => cplPopEffect s)
  | _ => s.storeFields v hits

/-- An interrupt-controller register written (R440). -/
def State.intcWrite (s : State) (off idx v : Nat) (hits : List RegHit) : State :=
  match off with
  | 0x4 => s.completeClaim (bitField v 0 9)
  | 0x20 => s.setSw (bitField v 0 8)
  | 0x1000 => (s.storeFields v hits).onlyIf (bitAt v 24) (fun s => s.put (INTC.SRC_COUNT.f 0 idx) 0)
  | _ => s.storeFields v hits

/-- A counter register written (R443). -/
def State.perfWrite (s : State) (d off idx v : Nat) (hits : List RegHit) : State :=
  match off with
  | 0x0 => (s.storeFields v hits).onlyIf (bitAt v 18) (fun s => s.setCount d idx 0)
  | 0x800 => (s.storeFields v hits).onlyIf (bitAt v 1) (fun s => s.clearBank d)
  | _ => s.storeFields v hits

/-- The fields of a register written with `v`, and what the write does. -/
def State.regWrite (s : State) (a v : Nat) (o : Origin) (hits : List RegHit) : State :=
  match hits with
  | [] => s
  | h :: _ =>
    let wo := !s.parkedAt a
    match h.row.blk with
    | .line => s.lineWrite h.inst h.row.off v wo hits
    | .tile => s.tileWrite h.inst v wo hits
    | .host => s.hostWrite h.inst h.row.off v hits
    | .port => s.portWrite h.inst h.row.off v hits
    | .ctx => s.ctxWrite h.row.off h.idx v hits
    | .bcn => s.bcnWrite h.inst h.row.off v hits
    | .time => s.timeWrite h.row.off h.idx v hits
    | .hkd => s.hkdWrite h.row.off h.idx v o hits
    | .hkac => s.hkacWrite h.inst h.row.off v hits
    | .hka => s.hkaWrite h.row.off h.idx v hits
    | .filt => s.filtWrite h.row.off h.idx v hits
    | .oe => s.oeWrite h.row.off v hits
    | .mem =>
      if s.hasD3 = false ∧ h.row.off < 0x100 then s
      else if h.row.off = 4 then s.onlyIf (bitAt v 0) (fun s => s.startRetrain)
      else s.storeFields v hits
    | .therm => if h.row.off = 0 then s.setThresholds v o else s.storeFields v hits
    | .global => s.globalWrite h.row.off v hits
    | .intc => s.intcWrite h.row.off h.idx v hits
    | .perf => s.perfWrite h.inst h.row.off h.idx v hits
    | .loader => if h.row.off = 0x104 then s.onlyIf (bitAt v 0) (fun s => s.reloadCal) else s.storeFields v hits
    | .dbg => if s.getB LOADER.STATUS_DEBUG_ALLOWED.f then s.storeFields v hits else s
    | _ => s.storeFields v hits

/-- Word `w` of the monitor of queue `q` written (R43). -/
def State.monitorWrite (s : State) (q : QueueId) (w v : Nat) (wo : Bool) : State :=
  let x := s.queue q
  let ring := decide (q.kind = .cmdRing)
  match w with
  | 0 => if ring then s else s.setQueue q { x with starveLimit := max 1 (bitField v 8 8) }
  | 2 => s.setQueue q { x with
      ovf := x.ovf && !bitAt v 0, starve := x.starve && !bitAt v 1, creditErr := x.creditErr && !bitAt v 2 }
  | 3 =>
    let s := s.onlyIf (!ring) (fun s => s.setQueue q { x with starveEn := bitAt v 1 })
    s.onlyIf (wo && bitAt v 0) (fun s => hwmClrEffect q false s)
  | _ => s

/-- The four clean bytes of a written word. -/
def wordMBytes (v : Nat) : List MByte := (leBytes 4 v).map plainByte

/-- A 32-bit write to D3 (R338): into the capture ring, once a retraining under way has ended (R345). -/
def State.memWrite (s : State) (a v : Nat) (o : Origin) : State :=
  if s.hasD3 = false then s.unmapped a o true
  else if s.memDown then s
  else if a < 0x80000000 then s.lockedWrite a o
  else if s.memServes then s.windowWrite a v
  else { s with mem := { s.mem with hostWrites := s.mem.hostWrites ++ [(a, v)] } }

/-- The write at an address that D0 serves. -/
def State.targetWrite (s : State) (a v : Nat) (o : Origin) : State :=
  match s.target a with
  | .reg hits => s.regWrite a v o hits
  | .monitor q w => s.monitorWrite q w v (!s.parkedAt a)
  | .ctxBuf off =>
    if s.bufferHeld then s.lockedWrite a o
    else { s with ctx := { s.ctx with buf := s.ctx.buf.setRun .unwritten off (wordMBytes v) } }
  | .staging off =>
    if s.getB LOADER.STATUS_BUSY.f then s.lockedWrite a o
    else { s with loader := { s.loader with staging := s.loader.staging.setRun .unwritten off (wordMBytes v) } }
  | .mem a => s.memWrite a v o
  | .unassigned => s.unmapped a o true
  | _ => s

/-- A write of the word at `a` (R8, R450); IRQ_N follows (15_management.md R439). -/
def State.busWrite (s : State) (a v : Nat) (o : Origin) : State :=
  if s.d0Up && s.served a then (s.targetWrite a (v % 2 ^ 32) o).releaseIrq else s

/-- REGISTER_WRITE (R8): a word of a port or of the core; registers lie at aligned addresses. -/
def registerWriteEffect (o : Origin) (a v : Word) (s : State) : State :=
  if a.toNat % 4 = 0 then s.busWrite a.toNat v.toNat o else s

def execRegisterWrite (origin : Origin) (addr : Word) (value : Word) (s : State) : Host.Outcome State Fault Refusal :=
  .next (registerWriteEffect origin addr value s)

/-- The address is unassigned in this variant (R12, R3). -/
def State.isUnassigned (s : State) (a : Nat) : Bool :=
  match s.target a with
  | .unassigned => true
  | .mem _ => !s.hasD3
  | _ => false

/-- UNMAPPED_ACCESS (R12). -/
def unmappedAccessEffect (o : Origin) (a : Word) (write : Bool) (s : State) : State :=
  if s.d0Up = true ∧ a.toNat % 4 = 0 ∧ s.served a.toNat = true ∧ s.isUnassigned a.toNat = true then
    s.unmapped a.toNat o write
  else s

def execUnmappedAccess (origin : Origin) (addr : Word) (write : Bool) (s : State) : Host.Outcome State Fault Refusal :=
  .next (unmappedAccessEffect origin addr write s)

end Sys2Proof.Machine
end

