-- ==== Sys2Proof/Machine/Access.lean ====
section
/-!
DEFINITION. The transactions of the MGMT and BULK ports and the I3C common commands (15_management.md R419 to R426).
-/

namespace Sys2Proof.Machine

open Sys2Proof

/-- The address at which the MGMT port answers (R419): the dynamic one in I3C mode. -/
def State.busAddr (s : State) : Nat :=
  if s.getB GLOBAL.MGMT_STAT_I3C.f then s.get GLOBAL.MGMT_STAT_DYN_ADDR.f else s.staticAddr

/-- The MGMT address is acknowledged: AON is good, the package is not in DEEP_STANDBY, and a wake from it has passed VCORE
(12_power.md R370, R378). -/
def State.acknowledges (s : State) : Bool :=
  bitAt s.power.railsUp 1 && !s.standby && (s.power.wake.isNone || s.railsTo 2 3)

/-- `k` words counted as applied by a port: instance 12 of KIND 0x30 is MGMT, 13 is BULK (R442). -/
def State.countWords (s : State) (inst k : Nat) : State := s.onlyIf s.d0Up (fun s => s.countD0 0x30 inst k)

/-- What the last transaction answered. -/
def State.portOut (s : State) (ack : Bool) (words : List Nat) (bytes : Nat) : State :=
  { s with mgmt := { s.mgmt with out := { s.mgmt.out with ack := ack, words := words, bytes := bytes } } }

/-- The complete groups of four bytes of a write, in order; a partial group is discarded (R421, R424). -/
def wholeWords (data : List Byte) : List Nat :=
  (List.range (data.length / 4)).map (fun i => leNat (((data.drop (4 * i)).take 4).map (·.toNat)))

/-- The words `vs` written from address `a` on (R420) (log 82). -/
def State.writeWords (s : State) (a : Nat) (vs : List Nat) (o : Origin) : State :=
  match vs with
  | [] => s
  | v :: r => State.writeWords (s.busWrite a v o) ((a + 4) % 2 ^ 32) r o

/-- `n` words read from address `a` on, each with its read effect (R420, R421). -/
def State.readWords (s : State) (a n : Nat) (o : Origin) : List Nat × State :=
  match n with
  | 0 => ([], s)
  | k + 1 =>
    let r := s.busRead a o
    let q := State.readWords r.2 ((a + 4) % 2 ^ 32) k o
    (r.1 :: q.1, q.2)

/-! ### MGMT -/

/-- MGMT_WRITE (R420, R421), for this device only at its address: a misaligned address is not acknowledged at its fourth byte; fewer than four address bytes
set nothing (log 82). -/
def mgmtWriteEffect (dev : BitVec 7) (addr data : List Byte) (s : State) : State :=
  let a := leNat ((addr.take 4).map (·.toNat))
  if dev.toNat ≠ s.busAddr then s
  else if s.acknowledges = false then s.portOut false [] 0
  else if addr.length < 4 then s.portOut true [] 0
  else if a % 4 ≠ 0 then s.portOut false [] 0
  else
    let vs := wholeWords data
    let s := (s.countWords 12 vs.length).writeWords a vs .mgmt
    ({ s with mgmt := { s.mgmt with addr := (a + 4 * vs.length) % 2 ^ 32 } }).portOut true [] 0

def execMgmtWrite (dev : BitVec 7) (addr : List Byte) (data : List Byte) (s : State) : Host.Outcome State Fault Refusal :=
  .next (mgmtWriteEffect dev addr data s)

/-- MGMT_READ (R420 to R422): a word is read when its first byte is returned; in I3C mode the read ends before the first
word that is not ready.  A window word that waits for a retraining ends it in I2C mode too, where the port holds SCL low until then
and the rest is a further read (log 82). -/
def mgmtReadEffect (dev : BitVec 7) (nbytes readyWords : Nat) (s : State) : State :=
  if dev.toNat ≠ s.busAddr then s
  else if s.acknowledges = false then s.portOut false [] 0
  else
    let want := (nbytes + 3) / 4
    let a := s.mgmt.addr
    let ready := s.readyRun a want
    let n := if s.getB GLOBAL.MGMT_STAT_I3C.f then min ready readyWords else ready
    let r := (s.countWords 12 n).readWords a n .mgmt
    let s := r.2
    ({ s with mgmt := { s.mgmt with addr := (a + 4 * n) % 2 ^ 32 } }).portOut true r.1 (min nbytes (4 * n))

def execMgmtRead (dev : BitVec 7) (nbytes : Nat) (readyWords : Nat) (s : State) : Host.Outcome State Fault Refusal :=
  .next (mgmtReadEffect dev nbytes readyWords s)

/-! ### I3C common commands (R419) -/

/-- The port's mode and dynamic address. -/
def State.setI3c (s : State) (on : Bool) (dyn : Nat) : State :=
  (s.putB GLOBAL.MGMT_STAT_I3C.f on).put GLOBAL.MGMT_STAT_DYN_ADDR.f dyn

def State.i3c (s : State) : Bool := s.d0Up && s.getB GLOBAL.MGMT_STAT_I3C.f

/-- The answer to a common command that returns one value. -/
def State.answerIdent (s : State) (v : Nat) : State :=
  { s with mgmt := { s.mgmt with out := { s.mgmt.out with ack := true, ident := v } } }

def entdaaEffect (d : BitVec 7) (s : State) : State := s.onlyIf s.d0Up (fun s => s.setI3c true d.toNat)
def execEntdaa (dynAddr : BitVec 7) (s : State) : Host.Outcome State Fault Refusal := .next (entdaaEffect dynAddr s)

/-- SETDASA, sent to the static address, assigns the dynamic one. -/
def setdasaEffect (dev d : BitVec 7) (s : State) : State :=
  s.onlyIf (s.d0Up && decide (dev.toNat = s.staticAddr)) (fun s => s.setI3c true d.toNat)
def execSetdasa (dev : BitVec 7) (dynAddr : BitVec 7) (s : State) : Host.Outcome State Fault Refusal :=
  .next (setdasaEffect dev dynAddr s)

/-- SETNEWDA changes the dynamic address of a port in I3C mode. -/
def setnewdaEffect (d : BitVec 7) (s : State) : State := s.onlyIf s.i3c (fun s => s.setI3c true d.toNat)
def execSetnewda (dynAddr : BitVec 7) (s : State) : Host.Outcome State Fault Refusal := .next (setnewdaEffect dynAddr s)

def rstdaaEffect (s : State) : State := s.onlyIf s.d0Up (fun s => s.setI3c false 0)
def execRstdaa (s : State) : Host.Outcome State Fault Refusal := .next (rstdaaEffect s)

/-- The provisional ID 0x74E_5832_X000, X being ADDR[2:0]. -/
def State.provisionalId (s : State) : Nat := 0x74E58320000 + 2 ^ 12 * s.strap.toNat

def getpidEffect (s : State) : State := s.onlyIf s.i3c (fun s => s.answerIdent s.provisionalId)
def execGetpid (s : State) : Host.Outcome State Fault Refusal := .next (getpidEffect s)

def getbcrEffect (s : State) : State := s.onlyIf s.i3c (fun s => s.answerIdent 1)
def execGetbcr (s : State) : Host.Outcome State Fault Refusal := .next (getbcrEffect s)

def getdcrEffect (s : State) : State := s.onlyIf s.i3c (fun s => s.answerIdent 0)
def execGetdcr (s : State) : Host.Outcome State Fault Refusal := .next (getdcrEffect s)

/-- GETSTATUS: the two status bytes, whose value the spec does not state (a free value, log 39). -/
def getstatusEffect (s : State) : State := s.onlyIf s.i3c (fun s => s.freed.answerIdent (s.free 16))
def execGetstatus (s : State) : Host.Outcome State Fault Refusal := .next (getstatusEffect s)

/-! ### BULK -/

/-- The status byte (R424): READY and DATA_OK. -/
def State.bulkByte (s : State) : Nat := natOf s.d0Up + 2 * natOf s.mgmt.dataOk

/-- The status byte and the data of a BULK transaction. -/
def State.bulkOut (s : State) (ok : Bool) (words : List Nat) (bytes : Nat) : State :=
  let s := { s with mgmt := { s.mgmt with dataOk := ok } }
  { s with mgmt := { s.mgmt with out := { s.mgmt.out with words := words, bytes := bytes, status := s.bulkByte } } }

/-- A BULK write (R424): a misaligned address discards the transaction (log 82). -/
def State.bulkWrite (s : State) (a : Nat) (data : List Byte) : State :=
  if a % 4 ≠ 0 then { s with mgmt := { s.mgmt with dataOk := false } }
  else
    let vs := wholeWords data
    (s.countWords 13 vs.length).writeWords a vs .bulk

/-- WORDS of a BULK read: 1 to 64; 0 or more than 64 acts as 64 (R424). -/
def bulkWords (w : Nat) : Nat := if w = 0 ∨ 64 < w then 64 else w

/-- A BULK read (R425): with every word fetched in the dummy clocks the words follow; otherwise no word has been read and
every data byte is 0.  A window word that waits for a retraining is not fetched. -/
def State.bulkRead (s : State) (a words fetched nbytes : Nat) : State :=
  let w := bulkWords words
  let n := min w ((nbytes + 3) / 4)
  let bytes := min nbytes (4 * w)
  if a % 4 ≠ 0 then s.bulkOut false [] 0
  else if s.d0Up && decide (w ≤ fetched) && decide (s.readyRun a w = w) then
    let r := (s.countWords 13 n).readWords a n .bulk
    r.2.bulkOut true r.1 bytes
  else s.bulkOut false (List.replicate n 0) bytes

def quadWriteEffect (a : Word) (data : List Byte) (s : State) : State := s.bulkWrite a.toNat data
def execQuadWrite (addr : Word) (data : List Byte) (s : State) : Host.Outcome State Fault Refusal :=
  .next (quadWriteEffect addr data s)

def quadReadEffect (a : Word) (words : Byte) (fetched nbytes : Nat) (s : State) : State :=
  s.bulkRead a.toNat words.toNat fetched nbytes
def execQuadRead (addr : Word) (words : Byte) (fetched : Nat) (nbytes : Nat) (s : State) :
    Host.Outcome State Fault Refusal := .next (quadReadEffect addr words fetched nbytes s)

def bulkStatusEffect (s : State) : State :=
  { s with mgmt := { s.mgmt with out := { s.mgmt.out with status := s.bulkByte } } }
def execBulkStatus (s : State) : Host.Outcome State Fault Refusal := .next (bulkStatusEffect s)

def singleWriteEffect (a : Word) (data : List Byte) (s : State) : State := s.bulkWrite a.toNat data
def execSingleWrite (addr : Word) (data : List Byte) (s : State) : Host.Outcome State Fault Refusal :=
  .next (singleWriteEffect addr data s)

def singleReadEffect (a : Word) (words : Byte) (fetched nbytes : Nat) (s : State) : State :=
  s.bulkRead a.toNat words.toNat fetched nbytes
def execSingleRead (addr : Word) (words : Byte) (fetched : Nat) (nbytes : Nat) (s : State) :
    Host.Outcome State Fault Refusal := .next (singleReadEffect addr words fetched nbytes s)

end Sys2Proof.Machine
end

