-- ==== Sys2Proof/Machine/Save.lean ====
section
/-!
DEFINITION. The save RAM: the header, the fixed list and the user list, written at entry to DEEP_STANDBY and read back at the
wake (12_power.md R377 to R379).  The spec gives no layout inside the three parts: the fields of the fixed list lie one after
another, each in whole bytes (log 41).
-/

namespace Sys2Proof.Machine

open Sys2Proof

/-! ### The fixed list (R379) -/

/-- The fields of `rows` at the offsets `offs`, for instance `n` of their block: what software may write, and with `all` every
field that is not write-only (log 41). -/
def listFlds (rows : List FRow) (offs : List Nat) (n : Nat) (all : Bool) : List Fld :=
  (rows.filter (fun r => offs.contains r.off && (decide (r.acc = .rw) || decide (r.acc = .rwl) || (all && decide (r.acc = .ro))))).flatMap
    (fun r => (List.range r.count).map (fun i => r.f n i))

/-- RX_CTL, AGC, CDR_CFG, ADAPT_MU, PRESET, DETECT, TRACK, WARM, PLACE, MEAS_CTL, TX_CTL, TX_LVL and BCN_INJ of a line lane,
and the active and shadow taps of its T10. -/
def laneList (n : Nat) : List Fld :=
  (listFlds LINE.rows [0x0, 0x10, 0x14, 0x20, 0x28, 0x2C, 0x30, 0x34, 0x300, 0x100, 0x110, 0x114] n false) ++
    (if n % 2 = 0 then listFlds LINE.rows [0x38] n false else []) ++
    (List.range 7).map (fun i => TILE.TXTAP_COEF.f (clusterTile n 10) i) ++
    (List.range 7).map (fun i => TILE.TXSHADOW_COEF.f (clusterTile n 10) i)

/-- HCTL, the shadow and active taps and TX_CFG of a host lane. -/
def hostList (h : Nat) : List Fld := listFlds HOST.rows [0x0, 0x10, 0x14, 0x20] h false ++ [HOST.TX_ACTIVE0_TAPS.f h, HOST.TX_ACTIVE1_CP1.f h]

/-- TX_CFG, TX_PERIOD, TX_PEER, RX_CFG, ENV_TH and ENV_HOLD of a beacon lane, its active channels and modulation. -/
def bcnList (n : Nat) : List Fld :=
  listFlds BCN.rows [0x0, 0x4, 0x8, 0x40, 0x80, 0x84] n false ++ [BCN.TX_CH_CH.f n, BCN.RX_CH_CH.f n, BCN.RX_CH_MOD.f n]

/-- The housekeeping registers of the list. -/
def hkList : List Fld :=
  listFlds HKD.rows [0x0, 0x84, 0xC0, 0xC4, 0xC8] 0 false ++
    [0, 1].flatMap (fun a => listFlds (HKA.rows.filter (fun r => decide (r.blk = .hkac))) [0x0] a false) ++
    listFlds (HKA.rows.filter (fun r => decide (r.blk = .hka))) [0x800, 0x820, 0x838] 0 false ++
    listFlds FILT.rows [0x100] 0 false ++ listFlds OE.rows [0x0, 0xC] 0 false

/-- The fields of the fixed list, in the order of its table (log 41). -/
def fixedList : List Fld :=
  listFlds PWR.rows [0x0, 0x18, 0x200] 0 false ++ listFlds INTC.rows [0x8, 0xC, 0x1000] 0 false ++
    listFlds TIME.rows [0x0, 0xC, 0x10, 0x2C] 0 false ++ listFlds CTX.rows [0x0, 0x4, 0x8, 0xC] 0 false ++
    (List.range 8).flatMap laneList ++ (List.range 16).flatMap hostList ++ (List.range 8).flatMap (fun n => listFlds PORT.rows [0x4] n false) ++
    (List.range 8).flatMap bcnList ++ hkList

/-- The bytes that a field takes in the list (log 41). -/
def Fld.bytes (f : Fld) : Nat := (f.width + 7) / 8

/-- The value stored for a field: what a read of its register returns, 0 for a part without power (R450). -/
def State.listValue (s : State) (f : Fld) : Nat := if s.served f.addr then s.get f else 0

/-- The bytes of the fixed list at entry. -/
def State.fixedBytes (s : State) : List Nat := fixedList.flatMap (fun f => leBytes f.bytes (s.listValue f))

/-! ### Entry -/

/-- The header: the slot that was running, the time and EPOCH. -/
def State.saveHeader (s : State) : List Nat :=
  [s.get LOADER.STATUS_SOURCE.f] ++ leBytes 6 (timeSec s.now) ++ leBytes 4 (timeNs s.now) ++ leBytes 2 (timeFrac s.now) ++
    [s.get TIME.TIME_STAT_EPOCH.f] ++ List.replicate 18 0

/-- The user entries in use: index and address, those that break the address conditions of R67 left out. -/
def State.userList (s : State) : List (Nat × Nat) :=
  ((List.range (s.get PWR.SAVE_CFG_USER_COUNT.f)).map (fun i => (i, s.get (PWR.SAVE_ADDR_ADDR.f 0 i)))).filter
    (fun e => reginitAddrOk e.2)

/-- Clean bytes written to the save RAM. -/
def State.savePut (s : State) (a : Nat) (bs : List Nat) : State :=
  { s with power := { s.power with save := s.power.save.setRun .unwritten a (bs.map (fun b => ⟨BitVec.ofNat 8 b, false⟩)) } }

/-- The save list written at entry (R377): header at 0, fixed list at 32, user list at 3,072 (log 41). -/
def State.saveAll (s : State) : State :=
  let users := s.userList
  let s := ({ s with power := { s.power with save := [] } }.savePut 0 s.saveHeader).savePut 32 s.fixedBytes
  s.each users (fun s e =>
    let r := s.busRead e.2 .core
    r.2.savePut (3072 + 8 * e.1) (leBytes 4 e.2 ++ leBytes 4 r.1))

/-! ### Restore -/

/-- Fields read back from the save RAM at byte `a` on and stored; a value with the poison mark is not written, and
SAVE_POISON is set (R379). -/
def State.restoreFlds (s : State) (m : SMap MByte) (a : Nat) (fs : List Fld) : State :=
  match fs with
  | [] => s
  | f :: r =>
    let bs := SMap.getRun m .unwritten a f.bytes
    let s := if bs.any (·.poison) then s.raise 348 else s.onlyIf (s.served f.addr) (fun s => s.put f (bytesVal bs))
    State.restoreFlds s m (a + f.bytes) r

/-- What the fields written back stand for outside the register bank: squelch and pattern, beacon grids, the time master's
output, rails that the list switches off. -/
def State.settleRestored (s : State) : State :=
  let s := s.each (List.range 8) (fun s n =>
    let s := s.setBcn n { s.bcnL n with grid := s.time.tick }
    s.onlyIf (s.laneServed n) (fun s =>
      (s.setReason n 1 (s.getB (LINE.TX_CTL_SQUELCH.f n))).onLane n (fun l =>
        { l with tx := { l.tx with patternNext := some (s.get (LINE.TX_CTL_PATTERN.f n)) } })))
  let s := s.putB TIME.TIME_STAT_SUMAC_DRIVING.f (decide (s.get TIME.TIME_CFG_SUMAC_ROLE.f = 2))
  let s := s.each [0, 1] (fun s k => s.onlyIf (!s.getB (oeEn k)) (fun s => s.put (oePg k) 0))
  s.put PWR.PWR_MODE_STATE.f 0

/-- The time resumes from the saved one, with the saved EPOCH and TIME_SET 0 (R378, 09_time.md R292). -/
def State.resumeTime (s : State) (m : SMap MByte) : State :=
  let h := SMap.getRun m .unwritten 0 32
  if h.any (·.poison) then s.raise 348
  else
    let at' (i n : Nat) : Nat := bytesVal ((h.drop i).take n)
    let t := timeOf (at' 1 6) (at' 7 4) (at' 11 2)
    let s := s.setTime { s.time with segs := [⟨s.time.tick, t, 0⟩] }
    (s.put TIME.TIME_STAT_EPOCH.f (at' 13 1)).timeRestarts

/-- The save list written back between steps 8 and 9 of 02_bitstream.md R78: the fixed list, then the user list in index order
(log 41). -/
def State.restoreAll (s : State) : State :=
  let m := s.power.save
  let s := ((s.restoreFlds m 32 fixedList).settleRestored).resumeTime m
  s.each s.userList (fun s e =>
    let bs := SMap.getRun m .unwritten (3072 + 8 * e.1 + 4) 4
    if bs.any (·.poison) then s.raise 348 else s.busWrite e.2 (bytesVal bs) .loader)

/-- The slot that was running at entry; 0 where the header cannot be read. -/
def State.savedSlot (s : State) : Nat :=
  let b := s.power.save.get .unwritten 0
  if b.poison then 0 else b.val.toNat % 4

end Sys2Proof.Machine
end

