-- ==== Sys2Proof/Machine/Loader.lean ====
section
/-!
DEFINITION. The loader: LOAD_IMAGE operations on slots and keys, the boot load, applying a full image, a partial image with its
outage, and the re-application of a part's configuration (02_bitstream.md R73 to R94).
-/

namespace Sys2Proof.Machine

open Sys2Proof

/-! ### Applying parts of a configuration -/

/-- The DATAPATH entry of lane `n` in the retained configuration (R81). -/
def State.pathOf (s : State) (n : Nat) : List Nat := (((s.loader.retained.map (·.datapath)).getD []).drop (8 * n)).take 8

/-- The fields of lane `n` on D0 that DATAPATH and TILEMAP set: mode, hold time, LANE_EN, PLACEMENT (16_register_map.md R457). -/
def State.showPath (s : State) (n : Nat) : State :=
  let p := s.pathOf n
  let bit (s : State) (f : Fld) (i : Nat) (b : Bool) : State := s.put f (putBit (s.get f) i b)
  let s := bit s GLOBAL.MODE_MODE_R.f n (p.getD 0 0 == 1)
  let s := (s.putB (PORT.PCFG_MODE.f n) (p.getD 0 0 == 1)).put (PORT.PCFG_HOLD_TIME.f n) (leField p 2 2)
  let s := bit s GLOBAL.MODE_LANE_EN.f n ((s.clusterRecord n).getD 0 0 == 1)
  bit s GLOBAL.MODE_PLACEMENT.f (n / 2) ((s.regionMap (n / 2)).getD 1 0 == 1)

/-- The fields of lane `n` on its line die that DATAPATH sets. -/
def State.lanePath (s : State) (n : Nat) : State :=
  let p := s.pathOf n
  (s.putB (LINE.DEC_CTL_MODE.f n) (p.getD 0 0 == 1)).putB (LINE.DEC_CTL_PRECODE.f n) (p.getD 1 0 == 1)

/-- The ports of lane `n` restart (06_host_side.md R218): in mode R the write side is in a gap that starts now and the hosts get
the read-side stream, in mode T they get the fault stream (log 81). -/
def State.restartPort (s : State) (n : Nat) : State :=
  let s := s.setPort n .fresh
  let s := (s.put (PORT.PSTAT_NM_STATE_A.f n) 1).put (PORT.PSTAT_NM_STATE_B.f n) (natOf (s.breakout n))
  if s.modeR n then
    let s := (s.put (PORT.PSTAT_MON_LOCK.f n) 0).put (PORT.PSTAT_MON_LOCK_B.f n) 0
    (s.sendHosts n .readSide).each (s.sides n) (fun s b => s.stampGap n b)
  else s.sendHosts n .faultStream

/-- One REGINIT entry written (R67). -/
def State.regEntry (s : State) (e : Nat × Nat × Nat) : State :=
  if e.2.1 = 0xFFFFFFFF then s.busWrite e.1 e.2.2 .loader
  else
    let r := s.busRead e.1 .loader
    r.2.busWrite e.1 ((r.1 &&& (0xFFFFFFFF ^^^ e.2.1)) ||| (e.2.2 &&& e.2.1)) .loader

/-- REGINIT entries written in list order. -/
def State.regEntries (s : State) (es : List (Nat × Nat × Nat)) : State := s.each es (fun s e => s.regEntry e)

/-- The retained REGINIT entries. -/
def State.keptEntries (s : State) : List (Nat × Nat × Nat) := (s.loader.retained.map (·.reginit)).getD []

/-- The beacon synthesiser of region `r` starts to calibrate its channels (08_beacon.md R272) (log 85). -/
def State.startSyn (s : State) (r : Nat) : State :=
  ((s.setSyn r { hop := none, bg := 0 }).put (SYN.SYN_STAT_BG_CAL.f r) 1).showSettling r

/-- TILEMAP and DATAPATH of region `r` applied to a line die with power; held lanes are due for their retest (14_selftest_faults.md
R405). -/
def State.applyRegion (s : State) (r : Nat) : State :=
  let s := ((s.lanePath (2 * r)).lanePath (2 * r + 1)).configTiles r
  s.each [2 * r, 2 * r + 1] (fun s n => s.onLane n (fun l => { l with retestDue := s.laneHeld n }))

/-- The lanes of region `r` start after a re-application: a parked one stays squelched under POWER (12_power.md R374). -/
def State.startRegion (s : State) (r : Nat) : State :=
  s.each [2 * r, 2 * r + 1] (fun s n => (s.onlyIf (s.parked n) (fun s => s.setReason n 4 true)).enableLane n)

/-- Regions `rs`, which have lost their state, get their retained configuration again (R81, 12_power.md R375): TILEMAP and
DATAPATH, the REGINIT entries whose address satisfies `p`, and then their lanes start. -/
def State.reapply (s : State) (rs : List Nat) (p : Nat → Bool) (lock : State → State) : State :=
  let s := s.each rs (fun s r => s.startSyn r)
  if s.loader.retained.isSome then
    let s := s.each rs (fun s r => s.applyRegion r)
    let s := lock (s.regEntries (s.keptEntries.filter (fun e => p e.1)))
    s.each rs (fun s r => s.startRegion r)
  else s

/-- Line die `d` leaves reset and its configuration is applied again (R81). -/
def State.reapplyDie (s : State) (d : Nat) : State :=
  let s := s.setDie d { s.die d with inReset := false, reapply := false }
  let lock (s : State) : State :=
    if s.loader.retained.any (·.lock) then { s with loader := { s.loader with locks := s.loader.locks.set (1 + d) true } } else s
  let s := s.each ([4 * d, 4 * d + 1, 4 * d + 2, 4 * d + 3].filter (fun n => s.gated (n / 2))) (fun s n => s.setReason n 4 true)
  let s := s.reapply ([2 * d, 2 * d + 1].filter (fun r => !s.gated r)) (fun a => decide (dieOf a = 1 + d)) lock
  s.put (if d = 0 then GLOBAL.RST_STAT_D1_BUSY.f else GLOBAL.RST_STAT_D2_BUSY.f) 0

/-! ### LOAD_IMAGE operations: running and completing (R82 to R85) -/

/-- The head operation `op` of the loader, where the loader is free to run it (R84). -/
def State.loaderHead (s : State) (op : Nat) : Option (List Nat) :=
  if s.loader.run = none ∧ s.loader.part = none then s.headIs .loader 1 op else none

def State.setLoader (s : State) (x : LoaderSt) : State := { s with loader := x }

/-- The running operation will complete with `code` (R84). -/
def State.runWith (s : State) (code : Nat) : State := s.setLoader { s.loader with run := some code }

/-- BUSY: a LOAD_IMAGE operation is taken and not complete (R84, R90). -/
def State.showBusy (s : State) : State :=
  s.putB LOADER.STATUS_BUSY.f (s.mgmt.taken.any (fun t => decide (t.engine = .loader)))

/-- Operation `w` completes with `code`: OK, or LOADER_ERROR with the code as DETAIL; ERR_LAST takes it (R75, R90). -/
def State.loaderDone (s : State) (w : List Nat) (code : Nat) : State :=
  let s := (s.setLoader { s.loader with run := none }).put LOADER.ERR_ERR_LAST.f code
  (s.complete .loader w (if code = 0 then .ok else .loaderError) code 0 0).showBusy

/-- LOAD_IMAGE_COMPLETE: the running slot or key operation has finished its writes and checks. -/
def loadImageCompleteEffect (s : State) : State :=
  match s.loader.run, s.headOf .loader with
  | some code, some w => s.loaderDone w code
  | _, _ => s

def execLoadImageComplete (s : State) : Host.Outcome State Fault Refusal := .next (loadImageCompleteEffect s)

/-- Poisoned staging bytes among the first `n`: the report of a read that met one (R84, 11_memory.md R348, R352) (log 53). -/
def State.stagingBad (s : State) (n : Nat) : Option State :=
  match (s.stagingSrc n).poison with
  | i :: _ => some ((s.parity 7).poisonUse 2 (0xE8000 + i / 4 * 4))
  | [] => none

/-- MRAM writes are refused at this temperature (R85, 13_thermal.md R395). -/
def State.mramRefused (s : State) : Bool := !s.getB THERM.THERM_STAT_MRAM_WRITE_OK.f

/-- `n` free bytes: what a failed MRAM write leaves (log 42). -/
def State.freeBytes (s : State) (n : Nat) : List Nat := (List.range n).map (fun i => Config.freeValue (s.freeCtr + i) % 256)

/-- `bs` written to the MRAM at `a`; a write that fails leaves free bytes (log 42). -/
def State.mramStore (s : State) (a : Nat) (bs : List Nat) (ok : Bool) : State :=
  if ok then s.mramWrite a bs
  else { s.mramWrite a (s.freeBytes bs.length) with freeCtr := s.freeCtr + bs.length }

/-- SLOT_BEGIN: the header of the slot erased, and a slot write starts at offset 0.  One that fails with code 15 leaves an earlier slot
write under way, of which the spec says nothing (DESIGN CHOICE, log 95). -/
def slotBeginEffect (mramOk : Bool) (s : State) : State :=
  match s.loaderHead 1 with
  | some w =>
    if s.mramRefused then s.runWith 15
    else
      let slot := cmdWord w 1
      let s := s.mramStore (slotBase slot) (List.replicate 64 0) mramOk
      if mramOk then (s.setLoader { s.loader with write := some ⟨slot, 0, List.replicate 64 0⟩ }).runWith 0 else s.runWith 15
  | none => s

def execSlotBegin (mramOk : Bool) (s : State) : Host.Outcome State Fault Refusal := .next (slotBeginEffect mramOk s)

/-- A SLOT_CHUNK that fails ends the slot write (R82, R85). -/
def State.endWrite (s : State) : State := s.setLoader { s.loader with write := none }

/-- SLOT_CHUNK of `n` bytes in a slot write: the bytes that fall in 0x00 to 0x3F are held in D0, the others are written. -/
def State.slotChunk (s : State) (x : SlotWrite) (n : Nat) (ok : Bool) : State :=
  if 3145728 < x.offset + n then s.endWrite.runWith 6
  else
    match s.stagingBad n with
    | some s => s.endWrite.runWith 14
    | none =>
      if s.mramRefused then s.endWrite.runWith 15
      else
        let bs := (s.stagingSrc n).bytes
        let k := 64 - x.offset
        let header := (x.header.take x.offset ++ bs.take k ++ x.header.drop (x.offset + n)).take 64
        let s := s.mramStore (slotBase x.slot + max 64 x.offset) (bs.drop k) ok
        if ok then (s.setLoader { s.loader with write := some ⟨x.slot, x.offset + n, header⟩ }).runWith 0
        else s.endWrite.runWith 15

/-- BAD_STATE for SLOT_CHUNK and SLOT_END with no slot write under way (R82): nothing changes. -/
def State.noWrite (s : State) (w : List Nat) : State := (s.complete .loader w .badState 0 0 0).showBusy

def slotChunkEffect (mramOk : Bool) (s : State) : State :=
  match s.loaderHead 2, s.loader.write with
  | some w, some x => s.slotChunk x (cmdWord w 1) mramOk
  | some w, none => s.noWrite w
  | none, _ => s

def execSlotChunk (mramOk : Bool) (s : State) : Host.Outcome State Fault Refusal := .next (slotChunkEffect mramOk s)

/-- SLOT_END of a slot write: the slot's content, whose words have lost what `es` says, is read and checked as a full image, and the held
header is written last if it passes. -/
def State.slotEnd (s : State) (x : SlotWrite) (ok : Bool) (es : List (Nat × WordErr)) : State :=
  let s := (s.mramUpsets (slotBase x.slot) es).mramScan (slotBase x.slot) x.offset
  let code := (s.checkImage (s.slotSrc x.slot x.offset (x.header.take x.offset)) (.slotEnd x.offset)).1
  let s := s.endWrite
  if code ≠ 0 then s.runWith code
  else if s.mramRefused || !ok then s.runWith 15
  else (s.mramWrite (slotBase x.slot) x.header).runWith 0

def slotEndEffect (mramOk : Bool) (upsets : List (Nat × WordErr)) (s : State) : State :=
  match s.loaderHead 3, s.loader.write with
  | some _, some x => s.slotEnd x mramOk upsets
  | some w, none => s.noWrite w
  | none, _ => s

def execSlotEnd (mramOk : Bool) (upsets : List (Nat × WordErr)) (s : State) : Host.Outcome State Fault Refusal :=
  .next (slotEndEffect mramOk upsets s)

/-- BOOT: a package reset, after which the named slot is tried first (R76, R82) (log 84). -/
def bootEffect (s : State) : State :=
  match s.loaderHead 4 with
  | some w =>
    let s := s.packageReset
    s.setLoader { s.loader with named := some (cmdWord w 1) }
  | none => s

def execBoot (s : State) : Host.Outcome State Fault Refusal := .next (bootEffect s)

/-- Key slot `k` takes state `st` and hash `h` (log 42). -/
def State.setKey (s : State) (k : Nat) (x : KeySlot) : State := { s with keys := s.keys.set k x }

/-- The state of key slot `k`. -/
def State.keyState (s : State) (k : Nat) : KeyState := (s.keys.map (·.state)).getD k .revoked

/-- KEY_WRITE (R73): EMPTY to VALID, with the hash at the start of staging; a write that fails leaves the slot as it was (log 42). -/
def keyWriteEffect (mramOk : Bool) (s : State) : State :=
  match s.loaderHead 5 with
  | some w =>
    let k := cmdWord w 1
    if k = 0 ∨ s.keyState k ≠ .empty then s.runWith 9
    else
      match s.stagingBad 48 with
      | some s => s.runWith 14
      | none =>
        if s.mramRefused || !mramOk then s.runWith 15 else (s.setKey k ⟨.valid, (s.stagingSrc 48).bytes⟩).runWith 0
  | none => s

def execKeyWrite (mramOk : Bool) (s : State) : Host.Outcome State Fault Refusal := .next (keyWriteEffect mramOk s)

/-- KEY_REVOKE (R73): VALID to REVOKED; any other slot is an error KEY (log 17). -/
def keyRevokeEffect (mramOk : Bool) (s : State) : State :=
  match s.loaderHead 6 with
  | some w =>
    let k := cmdWord w 1
    if k = 0 ∨ s.keyState k ≠ .valid then s.runWith 9
    else if s.mramRefused || !mramOk then s.runWith 15
    else (s.setKey k ⟨.revoked, ((s.keys.map (·.hash)).getD k [])⟩).runWith 0
  | none => s

def execKeyRevoke (mramOk : Bool) (s : State) : Host.Outcome State Fault Refusal := .next (keyRevokeEffect mramOk s)

/-! ### The boot load (R76 to R80) -/

/-- The bytes of a slot that the loader reads at boot: its header, and its image where it holds one (log 74). -/
def State.slotLength (s : State) (slot : Nat) : Nat :=
  if s.mramBlank (slotBase slot) (slotSize slot) then if slot = 3 then max 64 (Config.factoryImageLength % (slotSize 3 + 1)) else 64
  else min (slotSize slot) (max 64 (leNat (s.mramRun (slotBase slot + 0x10) 4)))

/-- The code of slot `slot` and the image it holds if it passes: blank where the MRAM lists nothing, but for factory slot 0, which
then holds the factory image (R92). -/
def State.slotImage (s : State) (slot : Nat) : Nat × Option Image :=
  if s.mramBlank (slotBase slot) (slotSize slot) then
    if slot = 3 then
      if s.mramPoison (slotBase 3) (s.slotLength 3) then (14, none)
      else
        (0, some { slot := 3, serial := Config.factoryImageSerial % 2 ^ 32, lock := false, debug := false, key := 0
                   sections := factorySections })
    else (if s.mramBad (slotBase slot) then 14 else 1, none)
  else
    let g := s.slotSrc slot (slotSize slot) []
    let r := s.checkImage g (.boot slot)
    let h := g.run 0 64
    let flags := leField h 0x0E 2
    let sig := (sectionOf r.2 0xFF).getD []
    if r.1 = 0 then
      (0, some { slot := slot, serial := leField h 0x14 4, lock := bitAt flags 0, debug := bitAt flags 1, key := sig.getD 0 0
                 sections := r.2 })
    else (r.1, none)

/-- ERR_A, ERR_B and ERR_F. -/
def errFld (slot : Nat) : Fld :=
  match slot with
  | 1 => LOADER.ERR_ERR_A.f
  | 2 => LOADER.ERR_ERR_B.f
  | _ => LOADER.ERR_ERR_F.f

/-- The boot load is under way: D0 out of reset, no image accepted yet. -/
def State.booting (s : State) : Bool :=
  s.d0Up && s.ctx.ready && s.loader.accepted.isNone && s.loader.coreEntry.isNone && !s.loader.noImage

/-- BOOT_SLOT_CHECKED: the next slot, whose words have lost what `es` says, is read, and accepted or rejected; with none left the device
enters the no-image state (R80). -/
def bootSlotCheckedEffect (upsets : List (Nat × WordErr)) (s : State) : State :=
  match s.booting, s.loader.toTry with
  | true, slot :: rest =>
    let s := s.mramUpsets (slotBase slot) upsets
    let s := s.mramScan (slotBase slot) (s.slotLength slot)
    let r := s.slotImage slot
    let s := s.put (errFld slot) r.1
    match r.2 with
    | some img => s.setLoader { s.loader with toTry := [], accepted := some img }
    | none =>
      let s := s.setLoader { s.loader with toTry := rest }
      if rest.isEmpty then
        ((s.setLoader { s.loader with noImage := true }).put LOADER.STATUS_SOURCE.f 0).raise 290
      else s
  | _, _ => s

def execBootSlotChecked (upsets : List (Nat × WordErr)) (s : State) : Host.Outcome State Fault Refusal :=
  .next (bootSlotCheckedEffect upsets s)

/-! ### Applying a full image (R78) -/

/-- Step 1: the code and its zeros into the code RAM. -/
def State.loadFirmware (s : State) (b : List Nat) : State :=
  let la := leField b 0 4
  let code := (b.drop 16).take (leField b 8 4)
  let m := s.loader.codeRam.setRun .unwritten la (code.map (fun x => ⟨BitVec.ofNat 8 x, false⟩))
  let m := SMap.setRun m .unwritten (la + code.length) (List.replicate (leField b 0xC 4) MByte.zero)
  s.setLoader { s.loader with codeRam := m }

/-- The address at which the core starts; the factory image's is not given (log 11). -/
def State.entryAddr (s : State) (fw : Option (List Nat)) : Nat × State :=
  match fw with
  | some b => (leField b 4 4, s)
  | none => (s.free 20, s.freed)

/-- The entry of host lane `h` in a LANEMAP: reach. -/
def hostReach (map : List Nat) (h : Nat) : Option Bool :=
  ((List.range 8).find? (fun n => (mapHosts map n).1 == h || (mapHosts map n).2 == h)).map (fun n => map.getD (4 * n + 3) 0 == 1)

/-- Step 2: LANEMAP (R65, 06_host_side.md R196, R198, R221 to R223). -/
def State.applyLanemap (s : State) (map : List Nat) : State :=
  let s := s.each (List.range 8) (fun s n =>
    let on := (mapHosts map n).1 != 0xFF
    let s := (s.putB (PORT.PCFG_MAPPED.f n) on).putB (PORT.PCFG_BREAKOUT.f n) (map.getD (4 * n + 2) 0 == 1)
    let s := (s.put (PORT.PCFG_HOST_A.f n) (if on then (mapHosts map n).1 else 0)).put (PORT.PCFG_HOST_B.f n)
      (if on then (mapHosts map n).2 else 0)
    s.put GLOBAL.MODE_BREAKOUT.f (putBit (s.get GLOBAL.MODE_BREAKOUT.f) n (map.getD (4 * n + 2) 0 == 1)))
  s.each (List.range 16) (fun s h =>
    let on := (hostReach map h).isSome
    let s := (s.putB (HOST.HCTL_ENABLED.f h) on).putB (HOST.HCTL_REACH.f h) ((hostReach map h).getD false)
    let s := s.put XBAR.CROSSBAR_HOSTS.f (putBit (s.get XBAR.CROSSBAR_HOSTS.f) h on)
    s.put (HOST.HSTATE_RX_STATE.f h) (natOf on))

/-- Steps 3 and 4: DATAPATH and TILEMAP, on D0 and on the line dies with power; the ports start. -/
def State.applyPaths (s : State) : State :=
  let s := s.each (List.range 8) (fun s n => (s.showPath n).restartPort n)
  s.each (List.range 4) (fun s r => s.onlyIf (s.laneServed (2 * r)) (fun s => s.applyRegion r))

/-- Step 5: ENGINE (R70, 12_power.md R367): rail enables, the page's address, the entries of this section where they are the
source, the generators.  Stage 6 starts; with no rail enabled it passes at once. -/
def State.applyEngine (s : State) (b : List Nat) : State :=
  let rails := b.getD 1 0
  let s := (s.putB OE.OE_CTL_EN_3V3.f (bitAt rails 0)).putB OE.OE_CTL_EN_1V8.f (bitAt rails 1)
  let s := s.each [0, 1] (fun s k => s.onlyIf (!bitAt rails k) (fun s => s.put (oePg k) 0))
  let s := s.put OE.OE_BUS_CFG_ID_ADDR.f (b.getD 2 0)
  let s := if b.getD 0 0 = 1 then s.each (List.range 16) (fun s c => s.loadHkd c (leField b (4 + 4 * c) 4)) else s
  let s := s.each (List.range 4) (fun s g =>
    let e := (b.drop (0x44 + 12 * g)).take 12
    let s := (s.put (HKD.SINE_INC_PHASE_INC.f 0 g) (leField e 0 3)).put (HKD.SINE_AMP_AMPLITUDE.f 0 g) (leField e 4 2)
    (s.put (HKD.SINE_AMP_OFFSET.f 0 g) (leField e 6 2)).setTarget g (e.getD 8 0xFF))
  let wait := decide (rails ≠ 0)
  ({ s with power := { s.power with stage6 := wait, railsUp := putBit s.power.railsUp 6 (!wait) } }).onlyIf wait
    (fun s => s.put PWR.AON_STAT_STAGE.f 6)

/-- Step 6: HKSEQ (R69). -/
def State.applyHkseq (s : State) (b : List Nat) : State :=
  let s := s.each [0, 1] (fun s a => s.each (List.range 64) (fun s i => s.put (HKA.SEQ_ENTRY.f a i) (seqWord (leField b (256 * a + 4 * i) 4))))
  s.each (List.range 48) (fun s k => s.put (FILT.FILT_CFG_LEN.f 0 k) (leField b (0x200 + 2 * k) 2))

/-- Step 7: SCHEDULE (R71): positions 0 to N - 1 PENDING, every other one cleared. -/
def State.applySchedule (s : State) (b : List Nat) : State :=
  let s := { s with sched := { s.sched with pos := [], dueQ := [] }, ctx := { s.ctx with marked := [] } }
  s.each (List.range (b.length / 16)) (fun s p => s.writePos p ((b.drop (16 * p)).take 16))

/-- The configuration that an image's sections retain (R81), with the factory values of what it leaves out (R60). -/
def retainedOf (img : Image) : Retained :=
  let ss := img.sections
  { tilemaps := (List.range 4).map (tilemapOf ss), lanemap := (sectionOf ss 2).getD [], datapath := (sectionOf ss 3).getD []
    reginit := ((sectionOf ss 4).map reginitOf).getD [], engine := (sectionOf ss 7).getD factoryEngine, lock := img.lock
    debug := img.debug }

/-- Steps 1 to 8 (log 43). -/
def State.applySections (s : State) (img : Image) : State :=
  let c := retainedOf img
  let s := s.setLoader { s.loader with accepted := none, retained := some c }
  let s := match sectionOf img.sections 5 with
    | some b => s.loadFirmware b
    | none => s
  let s := ((s.applyLanemap c.lanemap).applyPaths).applyEngine c.engine
  let s := (s.applyHkseq ((sectionOf img.sections 6).getD factoryHkseq)).applySchedule ((sectionOf img.sections 8).getD [])
  s.regEntries c.reginit

/-- Steps 9 and 10: the lock, the loader's registers, the core released at ENTRY; the housekeeping starts, and the enabled lanes
leave DISABLED and start (05_line_transmit.md R185; log 43). -/
def State.releaseCore (s : State) (img : Image) : State :=
  let s := (s.setLoader { s.loader with locks := [img.lock, img.lock, img.lock] }).putB LOADER.STATUS_LOCKED.f img.lock
  let s := (s.put LOADER.STATUS_SOURCE.f img.slot).putB LOADER.STATUS_DEBUG_ALLOWED.f img.debug
  let s := (s.put LOADER.STATUS_KEY_USED.f img.key).put LOADER.SERIAL_IMAGE_SERIAL.f img.serial
  let e := s.entryAddr (sectionOf img.sections 5)
  let s := (e.2.setLoader { e.2.loader with coreEntry := some e.1 }).hkRelease
  s.each (List.range 8) (fun s n => s.onlyIf (s.laneServed n) (fun s => s.enableLane n))

/-- IMAGE_APPLY: the accepted image takes effect; at a wake once stage 8 has passed, with the save list written back before the
lock (12_power.md R378).  A REGINIT entry that resets the package ends the load. -/
def imageApplyEffect (s : State) : State :=
  match s.loader.accepted with
  | some img =>
    if s.d0Up = true ∧ (s.power.wake = none ∨ s.get PWR.AON_STAT_STAGE.f = 0) then
      let s := s.applySections img
      if s.d0Up then
        let s := s.onlyIf (s.power.wake.isSome && !s.power.save.isEmpty) (fun s => s.restoreAll)
        ({ s with power := { s.power with wake := none } }).releaseCore img
      else s
    else s
  | none => s

def execImageApply (s : State) : Host.Outcome State Fault Refusal := .next (imageApplyEffect s)

/-! ### Partial reload (R86 to R88) -/

/-- The retained configuration with the part of a region replaced (R88).  An image without REGINIT leaves the region no entries, and one
without DATAPATH keeps the earlier DATAPATH (DESIGN CHOICE, log 95). -/
def Retained.replacePart (c : Retained) (x : Partial) : Retained :=
  let r := x.region
  { c with
    tilemaps := c.tilemaps.set r x.tilemap
    datapath := match x.datapath with
      | some b => c.datapath.take (16 * r) ++ (b.drop (16 * r)).take 16 ++ c.datapath.drop (16 * r + 16)
      | none => c.datapath
    reginit := c.reginit.filter (fun e => decide (regionOfAddr e.1 ≠ some r)) ++ x.reginit }

/-- The commit of a partial image on D0 (R88, 16_register_map.md R449, R457): the retained configuration, MODE, REGION_SRC; a port
whose mode changes restarts (06_host_side.md R218) (log 53). -/
def State.commitPart (s : State) (x : Partial) : State :=
  let r := x.region
  let s := s.setLoader { s.loader with retained := s.loader.retained.map (fun c => c.replacePart x) }
  let s := s.each [2 * r, 2 * r + 1] (fun s n =>
    let was := s.modeR n
    let s := s.showPath n
    s.onlyIf (s.modeR n != was) (fun s => s.restartPort n))
  s.put LOADER.STATUS_REGION_SRC.f (putBit (s.get LOADER.STATUS_REGION_SRC.f) r true)

/-- The outage of lane `n` starts (R86): its trained state is captured, RELOAD is set, it leaves lock, its queues are emptied
(01_architecture.md R47) (log 80). -/
def State.outageStart (s : State) (n : Nat) : State :=
  let t := s.trainedOf n
  let locked := s.syncLock n
  let s := (s.onLane n (fun l => { l with captured := some t, capLocked := locked })).setReason n 3 true
  (s.onlyIf locked (fun s => s.loseLock n)).emptyLane n true

/-- A partial image that passed its checks, as its command will apply it. -/
def partOf (ss : List Section) (region : Nat) : Partial :=
  { region := region, tilemap := tilemapOf ss region, datapath := sectionOf ss 3
    reginit := ((sectionOf ss 4).map reginitOf).getD [] }

/-- PARTIAL with a partial image that passed: without an outage in a gated region (R88); ABORTED_FAULT if the line die is not up
(log 53). -/
def State.startPart (s : State) (w : List Nat) (x : Partial) : State :=
  let n := 2 * x.region
  if s.gated x.region then
    ((s.commitPart x).regEntries (x.reginit.filter (fun e => decide (regionOfAddr e.1 = none)))).loaderDone w 0
  else if !s.dieUp (n / 4) then (s.complete .loader w .abortedFault 0 0 0).showBusy
  else
    let s := (s.outageStart n).outageStart (n + 1)
    s.setLoader { s.loader with part := some x }

/-- PARTIAL: the checks of R75, and the outage of the region starts; a failure completes the command at once (log 53). -/
def partialLoadEffect (s : State) : State :=
  match s.loaderHead 0 with
  | some w =>
    let len := cmdWord w 1
    let g := s.stagingSrc len
    let r := s.checkImage g (.part len)
    if r.1 = 0 then s.startPart w (partOf r.2 ((g.run 0 64).getD 0x0C 0))
    else if r.1 = 14 then ((s.stagingBad len).getD s).loaderDone w 14
    else s.loaderDone w r.1
  | none => s

def execPartialLoad (s : State) : Host.Outcome State Fault Refusal := .next (partialLoadEffect s)

/-- How lane `n` comes out of an outage: it was enabled, and its chain had `count` tiles with cursor `cursor` (R87).  A lane that held
lock takes its captured state and is in lock again (offset and stream are free values, log 44), or in DARK without light; any
other one starts cold; a parked one waits in DARK. -/
def State.outageEndLane (s : State) (n : Nat) (was : Bool) (count cursor : Nat) : State :=
  let l := s.lane n
  let s := (s.onLane n (fun l => { l with captured := none, capLocked := false, restartDue := none })).setReason n 3 false
  if !s.laneOn n then s.onlyIf was (fun s => s.disableLane n)
  else if !was then s.enableLane n
  else
    let s := s.showTiming n
    match l.captured, l.restartDue with
    | some t, none =>
      if l.capLocked then
        let s := (s.loadRx n t count cursor).loadTx n t
        if s.light n then
          let b := s.free 1 == 1
          let s := s.freed
          (s.freed).lockAt n (s.free 8 % 136) b none
        else s.enterDark n false
      else if s.parked n then ((s.presets n).put (LINE.RX_STATE_TRAINED.f n) 0).enterDark n false
      else s.startLane n false
    | _, own => s.startLane n (own.getD false)

/-- The outage of region `x.region` ends and the partial image is committed (R86 to R88): TILEMAP with failed tiles left out, its
REGINIT entries, the lanes, calibration values that waited (11_memory.md R359); the command completes OK. -/
def State.endPart (s : State) (x : Partial) : State :=
  let r := x.region
  let old := [2 * r, 2 * r + 1].map (fun n => (n, bitAt (s.get GLOBAL.MODE_LANE_EN.f) n && !s.laneHeld n, s.ffeCount n, s.cursor n))
  let s := s.setLoader { s.loader with part := none }
  let s := ((s.commitPart x).applyRegion r).regEntries x.reginit
  let s := (s.each old (fun s e => s.outageEndLane e.1 e.2.1 e.2.2.1 e.2.2.2)).settleCal
  match s.headIs .loader 1 0 with
  | some w => s.loaderDone w 0
  | none => s

/-- PARTIAL_OUTAGE_END of region `r` (log 44). -/
def State.partialEnd (s : State) (r : Nat) : State :=
  match s.loader.part with
  | some x => if x.region = r then s.endPart x else s
  | none => s

end Sys2Proof.Machine
end

