-- ==== Sys2Proof/Machine/Start.lean ====
section
/-!
DEFINITION. Power entry, the start-up stages, their failures and retries, power-up BIST, RESET_N, JTAG, the end of D0 reset,
and the loss and return of REFCLK (12_power.md R362 to R372, R380; 14_selftest_faults.md R398 to R406; 13_thermal.md R393;
15_management.md R445; 02_bitstream.md R76).
-/

namespace Sys2Proof.Machine

open Sys2Proof

def State.setPower (s : State) (p : PowerSt) : State := { s with power := p }

/-! ### FAULT_N and FCODE (R369) -/

/-- FAULT_N driven low with a code. -/
def State.faultLow (s : State) (code : Nat) : State := (s.put PWR.AON_STAT_FAULT.f 1).put PWR.AON_STAT_FCODE.f code

/-- FAULT_N released; a held package keeps it low with code 0 (R369). -/
def State.faultHigh (s : State) : State :=
  if s.get PWR.AON_STAT_HELD_CAUSE.f = 0 then (s.put PWR.AON_STAT_FAULT.f 0).put PWR.AON_STAT_FCODE.f 7 else s.faultLow 0

/-- The stage that FAULT_N shows as failed has passed (R369, step 4). -/
def State.stagePassed (s : State) (k : Nat) : State :=
  if s.power.shown = some k then (s.setPower { s.power with shown := none }).faultHigh else s

/-- The code of a failed stage (R365). -/
def stageCode (k : Nat) : Nat :=
  match k with
  | 1 => 7 | 2 => 1 | 3 => 2 | 4 => 3 | 5 => 4 | 6 => 5 | _ => 6

/-! ### Rails -/

/-- The rails of stage `k` and of every later stage go off; the TAP loses its supply with VDDIO (log 86). -/
def State.railsOff (s : State) (k : Nat) : State :=
  let s := s.setPower { s.power with railsUp := s.power.railsUp % 2 ^ k }
  let s := s.onlyIf (decide (k ≤ 6)) (fun s => (s.put OE.OE_STAT_PG_3V3.f 0).put OE.OE_STAT_PG_1V8.f 0)
  if k ≤ 2 then { s with tap := .idcode } else s

/-- AON is lost: the save RAM, the BIST results, the health map and the always-on registers (R379; 14_selftest_faults.md R400). -/
def State.aonLost (s : State) : State :=
  let s := (s.packageReset).railsOff 1
  let s := { s with regs := s.regs.drop islandKey }
  let s := s.setHk .fresh
  s.setPower { s.power with save := [], wake := none, refclk := false, bistRunning := false, bistDue := true, mapBad := false }

/-- D4 stops (R363, R364): every rail goes off, FAULT_N is low through the clamp with the code of a VIN entry fault. -/
def State.powerStop (s : State) (v : VinSt) : State :=
  let s := { s.aonLost with therm := .fresh }
  (s.setPower { s.power with vin := v, retry := none, shown := some 1 }).faultLow 7

/-! ### The VIN entry (R363, R364) -/

/-- VIN_GOOD: VIN rises through the UVLO threshold; FAULT_N is low (R367, step 1). -/
def vinGoodEffect (s : State) : State :=
  if s.power.vin = .off then (s.setPower { s.power with vin := .debounce, shown := some 1 }).faultLow 7 else s

def execVinGood (s : State) : Host.Outcome State Fault Refusal := .next (vinGoodEffect s)

def debounceDoneEffect (s : State) : State :=
  if s.power.vin = .debounce then s.setPower { s.power with vin := .softstart } else s

def execDebounceDone (s : State) : Host.Outcome State Fault Refusal := .next (debounceDoneEffect s)

/-- SOFTSTART_DONE: the sequence begins at stage 1. -/
def softstartDoneEffect (s : State) : State :=
  if s.power.vin = .softstart then
    ((s.setPower { s.power with vin := .up, bistDue := true }).put PWR.AON_STAT_STAGE.f 1).put PWR.AON_STAT_WAKE_CAUSE.f 0
  else s

def execSoftstartDone (s : State) : Host.Outcome State Fault Refusal := .next (softstartDoneEffect s)

/-- VIN_OVERVOLTAGE: the front end stops. -/
def vinOvervoltageEffect (s : State) : State :=
  if s.power.vin = .off ∨ s.power.vin = .ovStop then s else s.powerStop .ovStop

def execVinOvervoltage (s : State) : Host.Outcome State Fault Refusal := .next (vinOvervoltageEffect s)

def vinOvClearEffect (s : State) : State :=
  if s.power.vin = .ovStop then s.setPower { s.power with vin := .debounce } else s

def execVinOvClear (s : State) : Host.Outcome State Fault Refusal := .next (vinOvClearEffect s)

/-- VIN_OVERCURRENT: the front end stops for 500 ms. -/
def vinOvercurrentEffect (s : State) : State :=
  if s.power.vin = .softstart ∨ s.power.vin = .up then s.powerStop .ocStop else s

def execVinOvercurrent (s : State) : Host.Outcome State Fault Refusal := .next (vinOvercurrentEffect s)

def overcurrentRestartEffect (s : State) : State :=
  if s.power.vin = .ocStop then s.setPower { s.power with vin := .debounce } else s

def execOvercurrentRestart (s : State) : Host.Outcome State Fault Refusal := .next (overcurrentRestartEffect s)

/-- VIN_LOSS (R364). -/
def vinLossEffect (s : State) : State := if s.power.vin = .off then s else s.powerStop .off

def execVinLoss (s : State) : Host.Outcome State Fault Refusal := .next (vinLossEffect s)

/-! ### The stages (R365 to R367) -/

/-- The stage that runs now; 0 where none does. -/
def State.stage (s : State) : Nat := s.get PWR.AON_STAT_STAGE.f

/-- D4's sequence runs: VIN is up and no retry is waited for. -/
def State.sequencing (s : State) : Bool := decide (s.power.vin = .up) && s.power.retry.isNone && !s.standby

/-- The stage after rail stage `k` (R366): stage 5 does not exist on SKM-832-M0. -/
def State.stageAfter (s : State) (k : Nat) : Nat :=
  if k < 4 then k + 1 else if k = 4 ∧ s.hasD3 = true then 5 else 7

/-- Stage 6 passes (R367): the enabled OE rails are good. -/
def State.stage6Pass (s : State) : State :=
  let s := s.each [0, 1] (fun s k => s.onlyIf (s.getB (oeEn k)) (fun s => (s.put (oePg k) 1).railFound k))
  let s := s.setPower { s.power with stage6 := false, railsUp := putBit s.power.railsUp 6 true }
  (s.put PWR.AON_STAT_STAGE.f 0).stagePassed 6

/-- STAGE_PASS: the rails of the running rail stage are good, and the next stage starts. -/
def stagePassEffect (s : State) : State :=
  let k := s.stage
  if s.sequencing = true ∧ 1 ≤ k ∧ k ≤ 5 then
    let s := s.setPower { s.power with railsUp := putBit s.power.railsUp k true }
    (s.put PWR.AON_STAT_STAGE.f (s.stageAfter k)).stagePassed k
  else if s.sequencing = true ∧ k = 6 ∧ s.power.stage6 = true then s.stage6Pass
  else s

def execStagePass (s : State) : Host.Outcome State Fault Refusal := .next (stagePassEffect s)

/-- Stage `k` fails (R369): the dies are held in reset, FAULT_N shows its code, its rails and the later ones go off; STAGE stays at
the failed stage until the retry (log 86). -/
def State.failStage (s : State) (k : Nat) : State :=
  let s := if k = 1 then s.aonLost else (s.packageReset).railsOff (min k 7)
  let s := s.setPower { s.power with retry := some k, shown := some k, bistRunning := false, bistDue := true
                                     refclk := s.power.refclk && decide (k = 5 ∨ k = 6) }
  let s := (s.putB PWR.PWR_STAT_REFCLK_OK.f s.power.refclk).put PWR.AON_STAT_STAGE.f k
  s.faultLow (stageCode k)

/-- STAGE_FAIL: the running stage times out, or an earlier rail is lost meanwhile. -/
def stageFailEffect (k : Nat) (s : State) : State :=
  if s.sequencing = true ∧ k ≠ 0 ∧ s.stage = k ∧ s.power.bistRunning = false then s.failStage k else s

def execStageFail (stage : Nat) (s : State) : Host.Outcome State Fault Refusal := .next (stageFailEffect stage s)

/-- The first rail stage whose rails are not up; 7 where stages 1 to 5 are (R369) (log 86). -/
def State.firstDown (s : State) : Nat := ((List.range' 1 5).find? (fun k => !s.railsTo k k)).getD 7

/-- STAGE_RETRY: 500 ms after the failure the sequence starts again (log 86). -/
def stageRetryEffect (s : State) : State :=
  match s.power.retry with
  | some _ =>
    let k := s.firstDown
    let s := (s.setPower { s.power with retry := none }).put PWR.AON_STAT_STAGE.f k
    s.onlyIf (decide (k = 1)) (fun s => s.put PWR.AON_STAT_WAKE_CAUSE.f 0)
  | none => s

def execStageRetry (s : State) : Host.Outcome State Fault Refusal := .next (stageRetryEffect s)

/-- REFCLK_PRESENT: stage 7 passes. -/
def refclkPresentEffect (s : State) : State :=
  if s.sequencing = true ∧ s.stage = 7 then (s.put PWR.AON_STAT_STAGE.f 8).stagePassed 7 else s

def execRefclkPresent (s : State) : Host.Outcome State Fault Refusal := .next (refclkPresentEffect s)

/-- The line dies leave reset together (R366, R378): their synthesisers start to calibrate. -/
def State.diesUp (s : State) : State :=
  let s := s.each [0, 1] (fun s d => s.setDie d { s.die d with inReset := false, powered := true, reapply := false })
  s.each (List.range 4) (fun s r => s.startSyn r)

/-- RPLL_LOCK: stage 8 passes; power-up BIST starts, or at a wake without one the line dies leave reset if D0 has (R378), and D3 is
trained. -/
def rpllLockEffect (s : State) : State :=
  if s.sequencing = true ∧ s.stage = 8 ∧ s.power.bistRunning = false then
    let s := ((s.setPower { s.power with refclk := true }).put PWR.PWR_STAT_REFCLK_OK.f 1).stagePassed 8
    if s.therm.held then s.put PWR.AON_STAT_STAGE.f 0
    else if s.power.bistDue then s.setPower { s.power with bistRunning := true, bistDue := false }
    else (s.put PWR.AON_STAT_STAGE.f 0).onlyIf s.d0Up (fun s => s.diesUp.startRetrain)
  else s

def execRpllLock (s : State) : Host.Outcome State Fault Refusal := .next (rpllLockEffect s)

/-! ### Power-up BIST (14_selftest_faults.md R398 to R404) -/

/-- The entries of a repair map (R402). -/
def mapEntry (b : List Nat) (i : Nat) : List Nat := (b.drop (8 + 8 * i)).take 8

/-- The fields of an entry are in range (R402, R403): a tile by lane and number, the pool tiles under the lower lane of their
region; a row of either spare. -/
def mapEntryOk (e : List Nat) : Bool :=
  let die := e.getD 1 0
  let unit := leField e 2 2
  decide (die < 3) && e.getD 7 0 == 0 &&
    (if e.getD 0 0 = 1 then decide (e.getD 6 0 < 2)
     else
       e.getD 0 0 == 2 && decide (unit < 128) && decide (unit % 16 < 14) && (decide (unit % 16 < 12) || decide (unit / 16 % 2 = 0)) &&
         decide (1 + unit / 64 = die) && decide (leField e 4 2 = 0) && e.getD 6 0 == 0)

/-- The spare row that a row entry names: die, instance, group of 256 rows, spare. -/
def spareRow (e : List Nat) : Nat × Nat × Nat × Nat := (e.getD 1 0, leField e 2 2, leField e 4 2 / 256, e.getD 6 0)

/-- No two of the rows are equal. -/
def distinctRows (xs : List (Nat × Nat × Nat × Nat)) : Bool :=
  match xs with
  | [] => true
  | x :: r => !r.contains x && distinctRows r

/-- A repair map's content passes R403. -/
def repairMapOk (b : List Nat) : Bool :=
  let n := leField b 6 2
  let es := (List.range n).map (mapEntry b)
  decide (leField b 0xFFFC 4 = crc32c (b.take 0xFFFC)) && decide (leField b 0 4 = 0x534B5250) && b.getD 4 0 == 1 && b.getD 5 0 == 0 &&
    decide (n ≤ 8190) && es.all mapEntryOk && distinctRows ((es.filter (fun e => e.getD 0 0 == 1)).map spareRow) &&
    ((b.drop (8 + 8 * n)).take (0xFFFC - (8 + 8 * n))).all (· == 0)

/-- The entries of the repair map in the MRAM, if it passes; a state that lists no map holds an empty one (log 11). -/
def State.repairMap (s : State) : Option (List (List Nat)) :=
  let a := 0x720000
  if s.mramBlank a 65536 then some []
  else
    let b := s.mramRun a 65536
    if s.mramPoison a 65536 = false ∧ repairMapOk b = true then some ((List.range (leField b 6 2)).map (mapEntry b)) else none

/-- The tile that a retirement entry names. -/
def retiredTile (e : List Nat) : Nat :=
  let u := leField e 2 2
  if u % 16 < 12 then clusterTile (u / 16) (u % 16) else poolTile (u / 32) (u % 16 - 12)

/-- The die of a slice number: 0 to 103 tiles, 104 to 111 fixed lane logic, 112 to 115 region-shared logic, 116 and 117 the
die-shared logic of D1 and D2, 118 to 155 the slices of D0 in the order of R399 (log 91). -/
def sliceDie (k : Nat) : Nat :=
  if k < 104 then 1 + tileRegion k / 2
  else if k < 112 then 1 + (k - 104) / 4
  else if k < 116 then 1 + (k - 112) / 2
  else if k < 118 then k - 115
  else 0

/-- Slice `k` is die-critical: die-shared logic of a line die, or any slice of D0 (R404) (log 91). -/
def sliceCritical (k : Nat) : Bool := decide (116 ≤ k) && decide (k < 156)

/-- The tile health of a tile after BIST (R400, R401, R404) (log 91). -/
def State.tileResult (s : State) (t : Nat) (retired failed : Bool) : State :=
  let s := (s.putB (TILE.TILE_INFO_FAILED.f t) (retired || failed)).putB (TILE.TILE_TEST_RETIRED.f t) retired
  let s := (s.putB (TILE.TILE_TEST_TESTED.f t) (!retired)).putB (TILE.TILE_TEST_LAST_PASS.f t) (!retired && !failed)
  s.put (TILE.TILE_TEST_FAIL_CAUSE.f t) (if failed && !retired then 2 else 0)

/-- The results of die `d` in the island (R400): the duration, the rows of soft repair and the logic coverage, from 920 on, are the
run's own (free values) (log 91). -/
def State.dieResult (s : State) (d failed retired fuse : Nat) : State :=
  let s := (s.put (BIST.BIST_STAT_SLICES_RUN.f 0 d) ((if d = 0 then 38 else 59) - retired)).put (BIST.BIST_STAT_SLICES_FAILED.f 0 d) failed
  let s := (s.freed).put (BIST.BIST_TIME_DURATION.f 0 d) (s.free 32)
  let s := (s.freed).put (BIST.BIST_REP_SOFT_ROWS.f 0 d) (s.free 16)
  let s := (s.freed).put (BIST.BIST_COV_LOGIC_COV.f 0 d) (920 + s.free 16 % 81)
  s.put (BIST.BIST_REP_FUSE_ROWS.f 0 d) fuse

/-- A bit per element of `xs` in the list. -/
def maskOf (xs ks : List Nat) : Nat := (xs.zipIdx).foldl (fun a p => if ks.contains p.1 then a + 2 ^ p.2 else a) 0

/-- The results of a BIST whose slices `failed` have failed, with the entries of the repair map applied (log 52, 91). -/
def State.bistResults (s : State) (failed : List Nat) (es : List (List Nat)) : State :=
  let gone := (es.filter (fun e => e.getD 0 0 == 2)).map retiredTile
  let failed := (List.range 156).filter (fun k => failed.contains k && !gone.contains k)
  let s := s.each (List.range 104) (fun s t => s.tileResult t (gone.contains t) (failed.contains t))
  let s := s.each [0, 1, 2] (fun s d =>
    s.dieResult d (failed.filter (fun k => sliceDie k == d)).length
      ((List.range 104).filter (fun t => gone.contains t && sliceDie t == d)).length
      (es.filter (fun e => e.getD 0 0 == 1 && e.getD 1 0 == d)).length)
  let lanes := (List.range 8).filter (fun n => failed.contains (104 + n) || failed.contains (clusterTile n 10) || gone.contains (clusterTile n 10))
  let regions := (List.range 4).filter (fun r => failed.contains (112 + r))
  (s.put BIST.HELD_STAT_LANE_HELD.f (maskOf (List.range 8) lanes)).put BIST.HELD_STAT_REGION_HELD.f (maskOf (List.range 4) regions)

/-- BIST_COMPLETE: the results are kept; a die-critical failure enters the held safe state (R406), otherwise D0 may leave reset
(log 52, 91). -/
def bistCompleteEffect (failed : List Nat) (s : State) : State :=
  if s.power.bistRunning = true ∧ s.sequencing = true then
    let m := s.repairMap
    let s := (s.bistResults failed (m.getD [])).put PWR.AON_STAT_STAGE.f 0
    let s := s.setPower { s.power with bistRunning := false, mapBad := m.isNone }
    if failed.any sliceCritical then (s.put PWR.AON_STAT_HELD_CAUSE.f 1).faultLow 0
    else (s.onlyIf (decide (s.get PWR.AON_STAT_HELD_CAUSE.f = 1)) (fun s => (s.put PWR.AON_STAT_HELD_CAUSE.f 0).faultHigh))
  else s

def execBistComplete (failed : List Nat) (s : State) : Host.Outcome State Fault Refusal := .next (bistCompleteEffect failed s)

/-! ### RESET_N, JTAG and the shutdown hold -/

/-- RESET_N reaches a package that it can act on: VIN and AON up, no thermal shutdown hold, no failure and retry cycle (R371,
R383) (log 87). -/
def State.resetActs (s : State) : Bool :=
  decide (s.power.vin = .up) && bitAt s.power.railsUp 1 && !s.therm.held && s.power.retry.isNone

/-- The stages run again from stage 2 after DEEP_STANDBY (R378), without BIST. -/
def State.wakeFrom (s : State) (slot : Nat) : State :=
  let s := (s.put PWR.PWR_STAT_STATE.f 0).put PWR.AON_STAT_STAGE.f 2
  s.setPower { s.power with wake := some slot, bistDue := false }

/-- RESET_N_ASSERT (R371): a package reset from any state but a thermal shutdown and a failure and retry cycle; in DEEP_STANDBY it
is a wake that ends as a package reset (R378) (log 87). -/
def resetNAssertEffect (s : State) : State :=
  let was := s.power.resetN
  let s := s.setPower { s.power with resetN := true }
  if was = false ∧ s.resetActs = true then
    if s.standby then (s.wakeFrom 0).resetAsserted else s.resetAsserted
  else s

def execResetNAssert (s : State) : Host.Outcome State Fault Refusal := .next (resetNAssertEffect s)

/-- A reset ends as a release of RESET_N (R371): from the held safe state start-up resumes at BIST; otherwise D0 leaves reset. -/
def State.resetReleased (s : State) : State :=
  if s.resetActs = true ∧ s.get PWR.AON_STAT_HELD_CAUSE.f = 1 then
    let s := s.put PWR.AON_STAT_HELD_CAUSE.f 0
    (s.setPower { s.power with bistRunning := true }).faultHigh
  else s

/-- RESET_N_RELEASE. -/
def resetNReleaseEffect (s : State) : State :=
  if s.power.resetN then (s.setPower { s.power with resetN := false }).resetReleased else s

def execResetNRelease (s : State) : Host.Outcome State Fault Refusal := .next (resetNReleaseEffect s)

/-- The TAP leaves an instruction that held the dies in reset: as a release of RESET_N, with WAKE_CAUSE 1 (R445; 12_power.md
R384) (log 87). -/
def State.tapLeaves (s : State) : State :=
  (s.onlyIf s.resetActs (fun s => s.put PWR.AON_STAT_WAKE_CAUSE.f 1)).resetReleased

/-- JTAG_INSTRUCTION (R445): the TAP has power with VDDIO (log 87). -/
def jtagInstructionEffect (ir : TapInstr) (s : State) : State :=
  if bitAt s.power.railsUp 2 then
    let was := tapHolds s.tap
    let s := { s with tap := ir }
    if tapHolds ir then (if was then s else s.packageReset) else (if was then s.tapLeaves else s)
  else s

def execJtagInstruction (ir : TapInstr) (s : State) : Host.Outcome State Fault Refusal := .next (jtagInstructionEffect ir s)

/-- JTAG_INSTRUCTION_EXIT: the TAP goes to Test-Logic-Reset, which selects IDCODE (log 87). -/
def jtagInstructionExitEffect (s : State) : State :=
  if tapHolds s.tap then ({ s with tap := .idcode } : State).tapLeaves else s

def execJtagInstructionExit (s : State) : Host.Outcome State Fault Refusal := .next (jtagInstructionExitEffect s)

/-- SHUTDOWN_HOLD (13_thermal.md R393): 10 µs after the shutdown the dies are held in reset. -/
def shutdownHoldEffect (s : State) : State :=
  if s.therm.shutdown = true ∧ s.therm.held = false then
    let s := (s.packageReset).onlyIf s.power.bistRunning (fun s => s.put PWR.AON_STAT_STAGE.f 0)
    let s := { s with therm := { s.therm with held := true }, power := { s.power with bistRunning := false, wake := none } }
    (s.put PWR.AON_STAT_HELD_CAUSE.f 2).faultLow 0
  else s

def execShutdownHold (s : State) : Host.Outcome State Fault Refusal := .next (shutdownHoldEffect s)

/-- RAIL_FAILURE (R366, R372): a rail of stages 1 to 5 is lost.  While a rail stage runs, that stage fails; otherwise the rail's own
stage does (log 86). -/
def railFailureEffect (k : Nat) (s : State) : State :=
  if s.sequencing = true ∧ 1 ≤ k ∧ k ≤ 5 ∧ bitAt s.power.railsUp k = true then
    let j := if k < s.stage ∧ s.stage ≤ 5 then s.stage else k
    let lost (s : State) : State := s.setPower { s.power with railsUp := putBit s.power.railsUp k false }
    if k = 1 then s.failStage 1 else (lost (s.failStage j)).onlyIf (decide (k = 2)) (fun s => { s with tap := .idcode })
  else s

def execRailFailure (stage : Nat) (s : State) : Host.Outcome State Fault Refusal := .next (railFailureEffect stage s)

/-! ### The end of D0 reset (02_bitstream.md R76) -/

/-- D0 can leave reset now: held by nothing, its rails up; or the first start, which State.reset precedes. -/
def State.canStartD0 (s : State) : Bool :=
  if s.power.d0Reset then !s.d0Held && s.railsReady else !s.ctx.ready

/-- The directory, stash and cache tags are filled with zeros (07_peer_contexts.md R236), the tick counter starts (R52), the
calibration copies are checked (11_memory.md R357), MAP_BAD follows a bad map, and the boot load starts: at the slot that BOOT
named, or that ran at entry to DEEP_STANDBY (R76, R378). -/
def State.startD0 (s : State) (primary mirror : List (Nat × WordErr)) : State :=
  let order := bootOrder (s.loader.named.getD (s.power.wake.getD 0))
  let s := s.setPower { s.power with d0Reset := false }
  let s := { s with time := .fresh, ctx := { s.ctx with ready := true }
                    loader := { s.loader with named := none, toTry := order } }
  let s := s.putB PWR.PWR_STAT_REFCLK_OK.f (s.power.refclk && decide (s.stage = 0))
  let s := (s.calUpsets primary mirror).calAtReset
  let s := s.onlyIf s.power.mapBad (fun s => s.raise 361)
  s.setPower { s.power with mapBad := false }

/-- D0_RESET_END: with REFCLK the line dies leave reset with D0, and D3 is trained (11_memory.md R345); at a wake they follow once
stage 8 has passed. -/
def d0ResetEndEffect (primary mirror : List (Nat × WordErr)) (s : State) : State :=
  if s.canStartD0 then
    let s := s.startD0 primary mirror
    if s.power.refclk && decide (s.stage = 0) then s.diesUp.startRetrain else s
  else s

def execD0ResetEnd (primary : List (Nat × WordErr)) (mirror : List (Nat × WordErr)) (s : State) :
    Host.Outcome State Fault Refusal :=
  .next (d0ResetEndEffect primary mirror s)

/-! ### REFCLK in service (R372) -/

/-- D3 enters self-refresh: it serves nothing until a retraining has ended. -/
def State.selfRefresh (s : State) : State :=
  if s.hasD3 then ((s.put MEM.MEM_STAT_SELF_REFRESH.f 1).put MEM.MEM_STAT_READY.f 0).put MEM.MEM_STAT_RETRAINING.f 0 else s

/-- D3 leaves self-refresh and is retrained (11_memory.md R345). -/
def State.wakeD3 (s : State) : State := if s.hasD3 then (s.put MEM.MEM_STAT_SELF_REFRESH.f 0).startRetrain else s

/-- A context command that uses GDDR7: STORE_BUFFER, STORE_LIVE and CONTEXT_READ of a stored context (log 90). -/
def ctxUsesMem (w : List Nat) : Bool :=
  (cmdOpcode w == 3 && decide (cmdOp w ≤ 1)) || (cmdOpcode w == 4 && cmdOp w == 0)

/-- A command in flight needs a part that stops with REFCLK: D3, the line dies, or the time base (log 90). -/
def needsRefclk (e : Engine) (w : List Nat) : Bool :=
  match e with
  | .memory => true
  | .context => ctxUsesMem w
  | .capture _ => true
  | .time => true
  | .test => true
  | _ => false

/-- The line dies that have power enter reset. -/
def State.diesDown (s : State) : State := s.each [0, 1] (fun s d => s.onlyIf (s.die d).powered (fun s => s.dieReset d))

/-- REFCLK_LOST (R372) (log 90). -/
def refclkLostEffect (s : State) : State :=
  if s.power.refclk = true ∧ s.sequencing = true then
    let s := (s.setPower { s.power with refclk := false }).put PWR.PWR_STAT_REFCLK_OK.f 0
    if s.d0Up then
      let s := (s.raise 349).diesDown.abortFills
      let s := s.abortWhere needsRefclk .abortedFault
      let s := s.onlyIf s.time.waiting (fun s => { s with time := { s.time with waiting := false, step := none } })
      let s := s.each (List.range 16) (fun s h => s.setHost h { s.host h with out := .zero })
      (s.selfRefresh).put PWR.PWR_STAT_CORE_CLK.f 0
    else s
  else s

def execRefclkLost (s : State) : Host.Outcome State Fault Refusal := .next (refclkLostEffect s)

/-- The package is in IDLE (R376). -/
def State.idle (s : State) : Bool := decide (s.get PWR.PWR_STAT_STATE.f = 1)

/-- The host lanes restart as after a D0 reset (R372): receivers in use acquire again, ports restart (06_host_side.md R218) (log 90). -/
def State.restartHosts (s : State) : State :=
  let s := s.each (List.range 16) (fun s h =>
    s.onlyIf (decide (s.get (HOST.HSTATE_RX_STATE.f h) ≠ 0))
      (fun s => (s.put (HOST.HSTATE_RX_STATE.f h) 1).put (HOST.HSTATE_SIG_DET.f h) 0))
  s.each (List.range 8) (fun s n => s.restartPort n)

/-- REFCLK_RETURN (R372): stages 7 and 8 have passed again; in IDLE the line dies stay off and D3 stays in self-refresh (R383). -/
def refclkReturnEffect (s : State) : State :=
  if s.power.refclk = false ∧ s.sequencing = true ∧ s.stage ≤ 6 ∧ s.railsTo 1 5 = true then
    let s := (s.setPower { s.power with refclk := true }).put PWR.PWR_STAT_REFCLK_OK.f 1
    if s.d0Up then
      let s := s.timeRestarts.onlyIf s.loader.retained.isSome (fun s => s.restartHosts)
      if s.idle && !s.power.leavingIdle then s
      else s.wakeD3.each [0, 1] (fun s d => s.onlyIf ((s.die d).powered && (s.die d).inReset) (fun s => s.reapplyDie d))
    else s
  else s

def execRefclkReturn (s : State) : Host.Outcome State Fault Refusal := .next (refclkReturnEffect s)

end Sys2Proof.Machine
end

