-- ==== Sys2Proof/Machine/Power.lean ====
section
/-!
DEFINITION. Power states: WAIT, the drains of parking, gating and power-down, the returns, IDLE, DEEP_STANDBY and its wake, the
re-application of a line die, and the end of a partial reload (12_power.md R373 to R383; 02_bitstream.md R81, R86).
-/

namespace Sys2Proof.Machine

open Sys2Proof

/-! ### Domains and their drains (R381) -/

/-- The line lanes of a domain. -/
def State.domainLanes (s : State) (d : Domain) : List Nat :=
  match d with
  | .group g => s.groupLanes g
  | .region r => [2 * r, 2 * r + 1]
  | .package => List.range 8

/-- A domain starts to drain: the POWER reason on its lanes, and its producers stop. -/
def State.startDrain (s : State) (d : Domain) : State :=
  let s := s.each (s.domainLanes d) (fun s n => s.setReason n 4 true)
  s.setPower { s.power with drains := s.power.drains ++ [d] }

/-- A region of the domain is in the outage of a partial reload: its drain waits (R383). -/
def State.reloadIn (s : State) (d : Domain) : Bool := (s.domainLanes d).any (fun n => s.reloading (n / 2))

/-- A queue holds nothing and its producer holds every credit (log 89). -/
def State.queueIdle (s : State) (q : QueueId) : Bool :=
  let x := s.queue q
  x.entries.isEmpty && decide (x.transit = 0) && decide (x.credits = q.kind.depth)

/-- Work in flight involves lane `n`: an apply, a capture, a command, a test. -/
def State.laneBusy (s : State) (n : Nat) : Bool :=
  s.ctx.applies.any (fun x => (descLanes x.desc).contains n && decide (x.phase ≠ .queued)) ||
    s.mgmt.taken.any (fun t => involvesLane n t.engine t.words) || s.test.run.any (fun t => decide (tileLane t / 2 = n / 2))

/-- Nothing is in flight in a draining domain (log 89). -/
def State.drained (s : State) (d : Domain) : Bool :=
  (s.domainLanes d).all (fun n => (laneQueues n).all s.queueIdle && !s.laneBusy n)

/-! ### The end of a drain -/

/-- The queues of parked lane `n` are emptied, and it waits in DARK with its trained state (R374). -/
def State.parkLane (s : State) (n : Nat) : State :=
  let s := (s.emptyLane n true).truncFrame n
  let s := (s.setBcn n { s.bcnL n with rx := none, noiseDirty := true }).put (BCN.RX_STAT_RECEIVING.f n) 0
  let s := (s.lockGone n).onlyIf (decide (s.rx n ≠ .off)) (fun s => s.enterDark n false)
  let s := s.put (LINE.TX_STATE_SQUELCHED.f n) 1
  s.put PWR.PWR_STAT_PARKED.f (putBit (s.get PWR.PWR_STAT_PARKED.f) n true)

/-- A region both of whose lanes are parked stops its synthesisers: a hop under way is dropped. -/
def State.stopSyn (s : State) (r : Nat) : State :=
  if s.parked (2 * r) && s.parked (2 * r + 1) then
    ((s.setSyn r { s.synR r with hop := none }).put (SYN.SYN_STAT_SERVING.f r) 0).put (SYN.SYN_STAT_SETTLING.f r) 0
  else s

/-- A group is parked. -/
def State.parkGroup (s : State) (g : Nat) : State :=
  let s := s.each (s.groupLanes g) (fun s n => s.parkLane n)
  s.each (List.range 4) (fun s r => s.stopSyn r)

/-- Region `r` loses its power (R375): its state is lost, it is gated and no longer parked, and its lanes carry POWER. -/
def State.gateRegion (s : State) (r : Nat) : State :=
  let s := (s.loseRegion r).put PWR.PWR_STAT_GATED.f (putBit (s.get PWR.PWR_STAT_GATED.f) r true)
  s.each [2 * r, 2 * r + 1] (fun s n =>
    (s.put PWR.PWR_STAT_PARKED.f (putBit (s.get PWR.PWR_STAT_PARKED.f) n false)).setReason n 4 true)

/-- DEEP_STANDBY is entered (R377): D0 to D3 lose their power, every rail but AON goes off, the OE rails by KEEP_OE. -/
def State.enterStandby (s : State) : State :=
  let keep := s.getB PWR.PWR_MODE_KEEP_OE.f
  let oe (s : State) (k : Nat) : Nat := if keep then s.get (oePg k) else 0
  let a := oe s 0
  let b := oe s 1
  let up := 2 + (if keep && bitAt s.power.railsUp 6 then 64 else 0)
  let s := ((s.packageReset).put PWR.PWR_STAT_STATE.f 2).put PWR.PWR_STAT_REFCLK_OK.f 0
  let s := ((s.put (oePg 0) a).put (oePg 1) b).put PWR.AON_STAT_STAGE.f 0
  { s.setPower { s.power with railsUp := up, refclk := false } with tap := .idcode }

/-- A domain whose drain has ended. -/
def State.endDrain (s : State) (d : Domain) : State :=
  let s := s.setPower { s.power with drains := s.power.drains.erase d }
  match d with
  | .group g => s.parkGroup g
  | .region r => s.gateRegion r
  | .package => s.enterStandby

/-! ### WAIT (R373) -/

/-- WAIT completes: CHANGING clears and the core halts until its next interrupt (log 88). -/
def State.endWaitCmd (s : State) (w : List Nat) (st : Status) : State :=
  let s := s.setPower { s.power with wait := none, leavingIdle := false }
  (s.put PWR.PWR_STAT_CHANGING.f 0).complete .core w st 0 0 0

def State.finishWait (s : State) (w : List Nat) : State := (s.endWaitCmd w .ok).put INTC.IC_STAT_CORE_WAIT.f 1

/-- The lowest lanes of the current groups. -/
def State.groups (s : State) : List Nat := (List.range 8).filter (fun n => s.lowest n)

/-- Group `g` is to be parked: its PARK bit is set, no lane of it is gated, and not every lane is parked (R374, R375). -/
def State.wantsPark (s : State) (g : Nat) : Bool :=
  bitAt (s.get PWR.PWR_MODE_PARK.f) g && (s.groupLanes g).all (fun n => !s.gated (n / 2)) && !(s.groupLanes g).all s.parked

/-- Group `g` is to return: its PARK bit is clear and a lane of it is parked. -/
def State.wantsUnpark (s : State) (g : Nat) : Bool :=
  !bitAt (s.get PWR.PWR_MODE_PARK.f) g && (s.groupLanes g).any s.parked

/-- Region `r` is to be gated, or to be powered again. -/
def State.wantsGate (s : State) (r : Nat) : Bool := bitAt (s.get PWR.PWR_MODE_GATE.f) r && !s.gated r
def State.wantsUngate (s : State) (r : Nat) : Bool := !bitAt (s.get PWR.PWR_MODE_GATE.f) r && s.gated r

/-- The drain of a domain starts, unless it runs or a partial reload has to end first. -/
def State.beginDrain (s : State) (d : Domain) : State :=
  if s.power.drains.contains d || s.reloadIn d then s else s.startDrain d

/-- The return of a domain starts, unless it is under way. -/
def State.beginReturn (s : State) (d : Domain) : State :=
  if s.power.returns.any (fun r => decide (r.1 = d)) then s
  else s.setPower { s.power with returns := s.power.returns ++ [(d, false)] }

/-- The first phase: parking and unparking; its end. -/
def State.parkPhase (s : State) : State :=
  let s := s.each (s.groups.filter s.wantsPark) (fun s g => s.beginDrain (.group g))
  s.each (s.groups.filter s.wantsUnpark) (fun s g => s.beginReturn (.group g))
def State.parkDone (s : State) : Bool := s.groups.all (fun g => !s.wantsPark g && !s.wantsUnpark g)

/-- The second phase: gating and ungating; its end. -/
def State.gatePhase (s : State) : State :=
  let s := s.each ((List.range 4).filter s.wantsGate) (fun s r => s.beginDrain (.region r))
  s.each ((List.range 4).filter s.wantsUngate) (fun s r => s.beginReturn (.region r))
def State.gateDone (s : State) : Bool := (List.range 4).all (fun r => !s.wantsGate r && !s.wantsUngate r)

/-- The line dies go off and D3 enters self-refresh: IDLE (R376). -/
def State.enterIdle (s : State) : State :=
  let s := s.each [0, 1] (fun s d =>
    let s := s.dieReset d
    s.setDie d { s.die d with powered := false, reapply := false })
  (s.selfRefresh).put PWR.PWR_STAT_STATE.f 1

/-- Towards IDLE: every region is gated, and then the dies go off. -/
def State.toIdle (s : State) (w : List Nat) : State :=
  let s := s.each ((List.range 4).filter (fun r => !s.gated r)) (fun s r => s.beginDrain (.region r))
  if (List.range 4).all s.gated then s.enterIdle.finishWait w else s

/-- The package starts to leave IDLE (R376): the regions that GATE does not name are powered with their dies, and D3 leaves
self-refresh if REFCLK is present (log 88). -/
def State.startLeaving (s : State) : State :=
  let s := s.put PWR.PWR_STAT_GATED.f (s.get PWR.PWR_MODE_GATE.f)
  let s := s.each [0, 1] (fun s d => s.setDie d { s.die d with powered := true, inReset := true, reapply := true })
  let s := s.setPower { s.power with leavingIdle := true }
  s.onlyIf s.power.refclk (fun s => s.wakeD3)

/-- The dies are re-applied and D3 is retrained, or has failed for good. -/
def State.left (s : State) : Bool :=
  s.dieUp 0 && s.dieUp 1 && (!s.hasD3 || s.getB MEM.MEM_STAT_READY.f || s.mem.failed)

/-- Leaving IDLE (log 88). -/
def State.fromIdle (s : State) (w : List Nat) : State :=
  let s := if s.power.leavingIdle then s else s.startLeaving
  if s.left then (s.put PWR.PWR_STAT_STATE.f 0).finishWait w else s

/-- Entering DEEP_STANDBY (R373, R377): WAIT completes first, the save list is written, and the package drains. -/
def State.toStandby (s : State) (w : List Nat) : State := ((s.finishWait w).saveAll).startDrain .package

/-- The third phase: the change of STATE. -/
def State.statePhase (s : State) (x : WaitSt) : State :=
  match x.target with
  | 0 => if s.idle then s.fromIdle x.words else s.finishWait x.words
  | 1 => s.toIdle x.words
  | _ => s.toStandby x.words

/-- The changes of a WAIT under way go on as far as they can: parking, then gating, then STATE; in IDLE, where every region is
gated, only STATE (log 88). -/
def State.waitStep (s : State) : State :=
  match s.power.wait with
  | none => s
  | some x =>
    if x.stateBegun then s.statePhase x
    else if s.idle then (s.setPower { s.power with wait := some { x with stateBegun := true } }).statePhase x
    else
      let s := s.parkPhase
      if s.parkDone then
        let s := s.gatePhase
        if s.gateDone then (s.setPower { s.power with wait := some { x with stateBegun := true } }).statePhase x else s
      else s

/-- The present state allows a transition to `t` (R373): from IDLE only to ACTIVE and DEEP_STANDBY. -/
def State.allowsState (s : State) (t : Nat) : Bool := !(s.idle && decide (t = 1))

/-- WAIT: the head command of the core starts its changes, or completes with BAD_STATE (log 88). -/
def waitEffect (s : State) : State :=
  match s.headIs .core 8 0, s.power.wait with
  | some w, none =>
    let t := s.get PWR.PWR_MODE_STATE.f
    if s.allowsState t then (s.setPower { s.power with wait := some ⟨w, t, false⟩ }).waitStep else s.endWaitCmd w .badState
  | some _, some _ => s.waitStep
  | none, _ => s

def execWait (s : State) : Host.Outcome State Fault Refusal := .next (waitEffect s)

/-! ### DRAIN_COMPLETE and DRAIN_DISCARD -/

/-- DRAIN_COMPLETE: nothing is left in the domain, and its power goes. -/
def drainCompleteEffect (d : Domain) (s : State) : State :=
  if s.power.drains.contains d && s.drained d then (s.endDrain d).waitStep else s

def execDrainComplete (d : Domain) (s : State) : Host.Outcome State Fault Refusal := .next (drainCompleteEffect d s)

/-- DRAIN_DISCARD: 4 µs are over; what is left is discarded, commands with ABORTED_POWER, with DRAIN_DISCARD (log 89). -/
def drainDiscardEffect (d : Domain) (s : State) : State :=
  if s.power.drains.contains d then
    let s := if s.drained d then s else (s.raise 347).endWork (s.domainLanes d) .abortedPower
    (s.endDrain d).waitStep
  else s

def execDrainDiscard (d : Domain) (s : State) : Host.Outcome State Fault Refusal := .next (drainDiscardEffect d s)

/-! ### Returns (R374, R375) -/

/-- Lane `n` of a group that returns: POWER clears, and LIGHT at 1 is treated as a light-on with its stamp. -/
def State.wakeLane (s : State) (n : Nat) : State :=
  let s := s.put PWR.PWR_STAT_PARKED.f (putBit (s.get PWR.PWR_STAT_PARKED.f) n false)
  if s.gated (n / 2) then s
  else
    let s := s.setReason n 4 false
    let t := s.get (BCN.LIGHT_TICK_LO.f n) + 2 ^ 32 * s.get (BCN.LIGHT_TICK_HI.f n)
    s.onlyIf (s.laneRuns n && s.light n) (fun s => s.lightUp n t)

/-- Group `g` returns; on light-on with PARK_WAKE, and its PARK bit clears. -/
def State.wakeGroup (s : State) (g : Nat) (byLight : Bool) : State :=
  let s := s.onlyIf byLight (fun s => (s.raise 346).put PWR.PWR_MODE_PARK.f (putBit (s.get PWR.PWR_MODE_PARK.f) g false))
  s.each (s.groupLanes g) (fun s n => s.wakeLane n)

/-- Region `r` is powered again: its TILEMAP, DATAPATH and REGINIT entries are applied and its lanes start (log 85). -/
def State.wakeRegion (s : State) (r : Nat) : State :=
  let s := s.put PWR.PWR_STAT_GATED.f (putBit (s.get PWR.PWR_STAT_GATED.f) r false)
  let s := s.reapply [r] (fun a => decide (regionOfAddr a = some r)) id
  s.each [2 * r, 2 * r + 1] (fun s n => s.setReason n 4 false)

/-- The return of a domain has ended. -/
def State.endReturn (s : State) (d : Domain) (byLight : Bool) : State :=
  let s := s.setPower { s.power with returns := s.power.returns.filter (fun r => decide (r.1 ≠ d)) }
  match d with
  | .group g => s.wakeGroup g byLight
  | .region r => s.wakeRegion r
  | .package => s

/-- A return can end: the group is parked, or the region gated with its die up. -/
def State.canReturn (s : State) (d : Domain) : Bool :=
  match d with
  | .group g => (s.groupLanes g).any s.parked
  | .region r => s.gated r && s.dieUp (r / 2)
  | .package => false

/-- RETURN_TO_ACTIVE. -/
def returnToActiveEffect (d : Domain) (s : State) : State :=
  match s.power.returns.find? (fun r => decide (r.1 = d)) with
  | some r => if s.canReturn d then (s.endReturn d r.2).waitStep else s
  | none => s

def execReturnToActive (d : Domain) (s : State) : Host.Outcome State Fault Refusal := .next (returnToActiveEffect d s)

/-! ### Line dies and partial reloads -/

/-- LINE_DIE_REAPPLY (02_bitstream.md R81): the reset of a line die with power and clock ends, and its configuration is applied. -/
def lineDieReapplyEffect (d : LineDie) (s : State) : State :=
  if s.d0Up && (s.die d).reapply && (s.die d).powered && s.power.refclk then (s.reapplyDie d).waitStep else s

def execLineDieReapply (die : LineDie) (s : State) : Host.Outcome State Fault Refusal := .next (lineDieReapplyEffect die s)

/-- PARTIAL_OUTAGE_END (R86): a drain that waited for it starts. -/
def partialOutageEndEffect (r : Region) (s : State) : State :=
  if s.reloading r then (s.partialEnd r).waitStep else s

def execPartialOutageEnd (r : Region) (s : State) : Host.Outcome State Fault Refusal := .next (partialOutageEndEffect r s)

/-! ### DEEP_STANDBY (R378, R380) -/

/-- ADDRESS_MATCH_WAKE: the matcher has recognised the static address on the bus; the stages run from stage 2, without BIST; the slot that ran at entry is tried first. -/
def addressMatchWakeEffect (dev : BitVec 7) (s : State) : State :=
  if decide (dev.toNat = s.staticAddr) && s.standby && decide (s.power.vin = .up) then (s.wakeFrom s.savedSlot).put PWR.AON_STAT_WAKE_CAUSE.f 2 else s

def execAddressMatchWake (dev : BitVec 7) (s : State) : Host.Outcome State Fault Refusal :=
  .next (addressMatchWakeEffect dev s)

/-- AON_BROWNOUT: AON is lost in DEEP_STANDBY or during the wake, and D4 starts cold from stage 1 (log 90). -/
def aonBrownoutEffect (s : State) : State :=
  if (s.standby || s.power.wake.isSome) && decide (s.power.vin = .up) then
    let s := s.aonLost
    (s.setPower { s.power with retry := none, shown := none }).put PWR.AON_STAT_STAGE.f 1
  else s

def execAonBrownout (s : State) : Host.Outcome State Fault Refusal := .next (aonBrownoutEffect s)

end Sys2Proof.Machine
end

