-- ==== Sys2Proof/Machine/Dispatch.lean ====
section
/-!
DEFINITION. The one dispatch of the block: each command of the table goes to its meaning.
-/

namespace Sys2Proof.Machine

open Sys2Proof

def exec (i : Instr) (s : State) : Host.Outcome State Fault Refusal :=
  match i with
  | .cmdPush => Sys2Proof.Machine.execCmdPush s
  | .commandTake => Sys2Proof.Machine.execCommandTake s
  | .cplPop => Sys2Proof.Machine.execCplPop s
  | .nop => Sys2Proof.Machine.execNop s
  | .partialLoad => Sys2Proof.Machine.execPartialLoad s
  | .partialOutageEnd r => Sys2Proof.Machine.execPartialOutageEnd r s
  | .slotBegin mramOk => Sys2Proof.Machine.execSlotBegin mramOk s
  | .slotChunk mramOk => Sys2Proof.Machine.execSlotChunk mramOk s
  | .slotEnd mramOk upsets => Sys2Proof.Machine.execSlotEnd mramOk upsets s
  | .boot => Sys2Proof.Machine.execBoot s
  | .keyWrite mramOk => Sys2Proof.Machine.execKeyWrite mramOk s
  | .keyRevoke mramOk => Sys2Proof.Machine.execKeyRevoke mramOk s
  | .fill => Sys2Proof.Machine.execFill s
  | .storeBuffer => Sys2Proof.Machine.execStoreBuffer s
  | .storeLive => Sys2Proof.Machine.execStoreLive s
  | .remove => Sys2Proof.Machine.execRemove s
  | .pin => Sys2Proof.Machine.execPin s
  | .unpin => Sys2Proof.Machine.execUnpin s
  | .applyNow => Sys2Proof.Machine.execApplyNow s
  | .clearAll => Sys2Proof.Machine.execClearAll s
  | .contextReadStored => Sys2Proof.Machine.execContextReadStored s
  | .contextReadLive => Sys2Proof.Machine.execContextReadLive s
  | .lookup => Sys2Proof.Machine.execLookup s
  | .add => Sys2Proof.Machine.execAdd s
  | .scheduleRemove => Sys2Proof.Machine.execScheduleRemove s
  | .scheduleRead => Sys2Proof.Machine.execScheduleRead s
  | .purge => Sys2Proof.Machine.execPurge s
  | .capture die => Sys2Proof.Machine.execCapture die s
  | .captureStart die => Sys2Proof.Machine.execCaptureStart die s
  | .captureTrigger die => Sys2Proof.Machine.execCaptureTrigger die s
  | .captureTimeout die => Sys2Proof.Machine.execCaptureTimeout die s
  | .captureComplete die => Sys2Proof.Machine.execCaptureComplete die s
  | .bistRun => Sys2Proof.Machine.execBistRun s
  | .bistRunDone pass => Sys2Proof.Machine.execBistRunDone pass s
  | .wait => Sys2Proof.Machine.execWait s
  | .clockSwitchInternal => Sys2Proof.Machine.execClockSwitchInternal s
  | .clockSwitchMclk => Sys2Proof.Machine.execClockSwitchMclk s
  | .accept => Sys2Proof.Machine.execAccept s
  | .set => Sys2Proof.Machine.execSet s
  | .registerWrite origin addr value => Sys2Proof.Machine.execRegisterWrite origin addr value s
  | .unmappedAccess origin addr write => Sys2Proof.Machine.execUnmappedAccess origin addr write s
  | .mgmtWrite dev addr data => Sys2Proof.Machine.execMgmtWrite dev addr data s
  | .mgmtRead dev nbytes readyWords => Sys2Proof.Machine.execMgmtRead dev nbytes readyWords s
  | .entdaa dynAddr => Sys2Proof.Machine.execEntdaa dynAddr s
  | .setdasa dev dynAddr => Sys2Proof.Machine.execSetdasa dev dynAddr s
  | .setnewda dynAddr => Sys2Proof.Machine.execSetnewda dynAddr s
  | .rstdaa => Sys2Proof.Machine.execRstdaa s
  | .getpid => Sys2Proof.Machine.execGetpid s
  | .getbcr => Sys2Proof.Machine.execGetbcr s
  | .getdcr => Sys2Proof.Machine.execGetdcr s
  | .getstatus => Sys2Proof.Machine.execGetstatus s
  | .quadWrite addr data => Sys2Proof.Machine.execQuadWrite addr data s
  | .quadRead addr words fetched nbytes => Sys2Proof.Machine.execQuadRead addr words fetched nbytes s
  | .bulkStatus => Sys2Proof.Machine.execBulkStatus s
  | .singleWrite addr data => Sys2Proof.Machine.execSingleWrite addr data s
  | .singleRead addr words fetched nbytes => Sys2Proof.Machine.execSingleRead addr words fetched nbytes s
  | .claim => Sys2Proof.Machine.execClaim s
  | .complete value => Sys2Proof.Machine.execComplete value s
  | .irqDelivery target => Sys2Proof.Machine.execIrqDelivery target s
  | .swSet value => Sys2Proof.Machine.execSwSet value s
  | .countClr source => Sys2Proof.Machine.execCountClr source s
  | .cntLoRead bank ctr => Sys2Proof.Machine.execCntLoRead bank ctr s
  | .clear bank ctr => Sys2Proof.Machine.execClear bank ctr s
  | .clearAllCounters bank => Sys2Proof.Machine.execClearAllCounters bank s
  | .freeze bank on => Sys2Proof.Machine.execFreeze bank on s
  | .d1Reset d1 d2 => Sys2Proof.Machine.execD1Reset d1 d2 s
  | .pkgReset key => Sys2Proof.Machine.execPkgReset key s
  | .lineDieReapply die => Sys2Proof.Machine.execLineDieReapply die s
  | .heldPartRetest lane pass => Sys2Proof.Machine.execHeldPartRetest lane pass s
  | .hwmClr q occRises => Sys2Proof.Machine.execHwmClr q occRises s
  | .nmHwmClr lane => Sys2Proof.Machine.execNmHwmClr lane s
  | .queueEntry q entry takes creditLost => Sys2Proof.Machine.execQueueEntry q entry takes creditLost s
  | .starve q cycles => Sys2Proof.Machine.execStarve q cycles s
  | .restart lane => Sys2Proof.Machine.execRestart lane s
  | .presetLoad lane => Sys2Proof.Machine.execPresetLoad lane s
  | .tapLoad tile index value => Sys2Proof.Machine.execTapLoad tile index value s
  | .winWrite lane win => Sys2Proof.Machine.execWinWrite lane win s
  | .start lane point len => Sys2Proof.Machine.execStart lane point len s
  | .histogramDone lane => Sys2Proof.Machine.execHistogramDone lane s
  | .measWindowEnd lane => Sys2Proof.Machine.execMeasWindowEnd lane s
  | .envCrossing lane current => Sys2Proof.Machine.execEnvCrossing lane current s
  | .lightOn lane => Sys2Proof.Machine.execLightOn lane s
  | .lightOff lane => Sys2Proof.Machine.execLightOff lane s
  | .agcMeasurement lane => Sys2Proof.Machine.execAgcMeasurement lane s
  | .trackingInterval lane => Sys2Proof.Machine.execTrackingInterval lane s
  | .cdrWindow lane => Sys2Proof.Machine.execCdrWindow lane s
  | .cdrDone lane => Sys2Proof.Machine.execCdrDone lane s
  | .blindDone lane => Sys2Proof.Machine.execBlindDone lane s
  | .ddDone lane => Sys2Proof.Machine.execDdDone lane s
  | .trainDone lane => Sys2Proof.Machine.execTrainDone lane s
  | .acqTimeout lane => Sys2Proof.Machine.execAcqTimeout lane s
  | .warmFail lane => Sys2Proof.Machine.execWarmFail lane s
  | .codewordDecode lane => Sys2Proof.Machine.execCodewordDecode lane s
  | .syndromeLock lane => Sys2Proof.Machine.execSyndromeLock lane s
  | .lockLost lane => Sys2Proof.Machine.execLockLost lane s
  | .groupLoss lane => Sys2Proof.Machine.execGroupLoss lane s
  | .formatMismatch lane => Sys2Proof.Machine.execFormatMismatch lane s
  | .codewordEncode lane => Sys2Proof.Machine.execCodewordEncode lane s
  | .squelch lane on => Sys2Proof.Machine.execSquelch lane on s
  | .squelchEntry lane => Sys2Proof.Machine.execSquelchEntry lane s
  | .squelchRelease lane => Sys2Proof.Machine.execSquelchRelease lane s
  | .pattern lane value => Sys2Proof.Machine.execPattern lane value s
  | .commit lane => Sys2Proof.Machine.execCommit lane s
  | .hostLockAcq h => Sys2Proof.Machine.execHostLockAcq h s
  | .hostLockLost h signal => Sys2Proof.Machine.execHostLockLost h signal s
  | .rxRestart h => Sys2Proof.Machine.execRxRestart h s
  | .hostTxCommit h => Sys2Proof.Machine.execHostTxCommit h s
  | .hostCodeword lane portB => Sys2Proof.Machine.execHostCodeword lane portB s
  | .hostGapEnd lane portB => Sys2Proof.Machine.execHostGapEnd lane portB s
  | .lineRsCodeword lane streamB upsets => Sys2Proof.Machine.execLineRsCodeword lane streamB upsets s
  | .lfStart lane portB => Sys2Proof.Machine.execLfStart lane portB s
  | .resume lane portB => Sys2Proof.Machine.execResume lane portB s
  | .nutmegReadResume lane portB => Sys2Proof.Machine.execNutmegReadResume lane portB s
  | .monAmLock lane portB on offA offB => Sys2Proof.Machine.execMonAmLock lane portB on offA offB s
  | .groupCfgWrite value => Sys2Proof.Machine.execGroupCfgWrite value s
  | .hashSeedWrite value => Sys2Proof.Machine.execHashSeedWrite value s
  | .applyRecordsRead group => Sys2Proof.Machine.execApplyRecordsRead group s
  | .applyTransferDone group => Sys2Proof.Machine.execApplyTransferDone group s
  | .contextApplied lane => Sys2Proof.Machine.execContextApplied lane s
  | .idTimeout group => Sys2Proof.Machine.execIdTimeout group s
  | .placementTick => Sys2Proof.Machine.execPlacementTick s
  | .cacheFillDone line => Sys2Proof.Machine.execCacheFillDone line s
  | .relocated slot => Sys2Proof.Machine.execRelocated slot s
  | .send lane full => Sys2Proof.Machine.execSend lane full s
  | .txModeWrite lane mode => Sys2Proof.Machine.execTxModeWrite lane mode s
  | .beaconFrameDue lane => Sys2Proof.Machine.execBeaconFrameDue lane s
  | .beaconFrameStart lane => Sys2Proof.Machine.execBeaconFrameStart lane s
  | .beaconDeparture lane => Sys2Proof.Machine.execBeaconDeparture lane s
  | .beaconTimestampReturn lane => Sys2Proof.Machine.execBeaconTimestampReturn lane s
  | .sent lane => Sys2Proof.Machine.execSent lane s
  | .txChLoad lane ch => Sys2Proof.Machine.execTxChLoad lane ch s
  | .rxChLoad lane ch fsk4 => Sys2Proof.Machine.execRxChLoad lane ch fsk4 s
  | .synthLock r cal => Sys2Proof.Machine.execSynthLock r cal s
  | .noLock r => Sys2Proof.Machine.execNoLock r s
  | .synthBgCal r cal => Sys2Proof.Machine.execSynthBgCal r cal s
  | .noiseWindowEnd lane meanSq => Sys2Proof.Machine.execNoiseWindowEnd lane meanSq s
  | .beaconDetection lane meanSq hard => Sys2Proof.Machine.execBeaconDetection lane meanSq hard s
  | .beaconReport lane symbols => Sys2Proof.Machine.execBeaconReport lane symbols s
  | .ppsEdge rising => Sys2Proof.Machine.execPpsEdge rising s
  | .todMessage body => Sys2Proof.Machine.execTodMessage body s
  | .sumacFrame body => Sys2Proof.Machine.execSumacFrame body s
  | .sumacFrameSend => Sys2Proof.Machine.execSumacFrameSend s
  | .sumacConflict => Sys2Proof.Machine.execSumacConflict s
  | .sumacRoleWrite role => Sys2Proof.Machine.execSumacRoleWrite role s
  | .srcWrite src => Sys2Proof.Machine.execSrcWrite src s
  | .sourceLoss => Sys2Proof.Machine.execSourceLoss s
  | .segmentBoundary => Sys2Proof.Machine.execSegmentBoundary s
  | .snap => Sys2Proof.Machine.execSnap s
  | .convTickHiWrite value => Sys2Proof.Machine.execConvTickHiWrite value s
  | .scheduleDue => Sys2Proof.Machine.execScheduleDue s
  | .scheduleTrigger pos => Sys2Proof.Machine.execScheduleTrigger pos s
  | .arm line => Sys2Proof.Machine.execArm line s
  | .trigPulse line => Sys2Proof.Machine.execTrigPulse line s
  | .trigPulseEnd line => Sys2Proof.Machine.execTrigPulseEnd line s
  | .strobe groups => Sys2Proof.Machine.execStrobe groups s
  | .spanWrite ch span => Sys2Proof.Machine.execSpanWrite ch span s
  | .spanHoldEnd ch => Sys2Proof.Machine.execSpanHoldEnd ch s
  | .biasStrobe => Sys2Proof.Machine.execBiasStrobe s
  | .ditherUpdate => Sys2Proof.Machine.execDitherUpdate s
  | .sync gens => Sys2Proof.Machine.execSync gens s
  | .targetWrite gen target => Sys2Proof.Machine.execTargetWrite gen target s
  | .hkaConversion a code => Sys2Proof.Machine.execHkaConversion a code s
  | .go slot => Sys2Proof.Machine.execGo slot s
  | .runWrite a on => Sys2Proof.Machine.execRunWrite a on s
  | .rdIdxWrite value => Sys2Proof.Machine.execRdIdxWrite value s
  | .filterSlot k => Sys2Proof.Machine.execFilterSlot k s
  | .filtRunWrite on => Sys2Proof.Machine.execFiltRunWrite on s
  | .latch => Sys2Proof.Machine.execLatch s
  | .filtCfgWrite k value => Sys2Proof.Machine.execFiltCfgWrite k value s
  | .enginePageRead => Sys2Proof.Machine.execEnginePageRead s
  | .enginePageReadDone page nack => Sys2Proof.Machine.execEnginePageReadDone page nack s
  | .read => Sys2Proof.Machine.execRead s
  | .oeXferGo value => Sys2Proof.Machine.execOeXferGo value s
  | .xferDone result data => Sys2Proof.Machine.execXferDone result data s
  | .railLoss rail => Sys2Proof.Machine.execRailLoss rail s
  | .oeRailRetry rail good => Sys2Proof.Machine.execOeRailRetry rail good s
  | .oeCtlWrite en3v3 en1v8 good => Sys2Proof.Machine.execOeCtlWrite en3v3 en1v8 good s
  | .memBurst req errs crcFails => Sys2Proof.Machine.execMemBurst req errs crcFails s
  | .retrain => Sys2Proof.Machine.execRetrain s
  | .retrainingDone ok => Sys2Proof.Machine.execRetrainingDone ok s
  | .d3TempRead temp good => Sys2Proof.Machine.execD3TempRead temp good s
  | .refresh bank => Sys2Proof.Machine.execRefresh bank s
  | .scrubBlock errs crcFails => Sys2Proof.Machine.execScrubBlock errs crcFails s
  | .scrubEnWrite on => Sys2Proof.Machine.execScrubEnWrite on s
  | .reload primary mirror => Sys2Proof.Machine.execReload primary mirror s
  | .vinGood => Sys2Proof.Machine.execVinGood s
  | .debounceDone => Sys2Proof.Machine.execDebounceDone s
  | .softstartDone => Sys2Proof.Machine.execSoftstartDone s
  | .vinOvervoltage => Sys2Proof.Machine.execVinOvervoltage s
  | .vinOvClear => Sys2Proof.Machine.execVinOvClear s
  | .vinOvercurrent => Sys2Proof.Machine.execVinOvercurrent s
  | .overcurrentRestart => Sys2Proof.Machine.execOvercurrentRestart s
  | .vinLoss => Sys2Proof.Machine.execVinLoss s
  | .stagePass => Sys2Proof.Machine.execStagePass s
  | .stageFail stage => Sys2Proof.Machine.execStageFail stage s
  | .stageRetry => Sys2Proof.Machine.execStageRetry s
  | .refclkPresent => Sys2Proof.Machine.execRefclkPresent s
  | .rpllLock => Sys2Proof.Machine.execRpllLock s
  | .bistComplete failed => Sys2Proof.Machine.execBistComplete failed s
  | .bootSlotChecked upsets => Sys2Proof.Machine.execBootSlotChecked upsets s
  | .imageApply => Sys2Proof.Machine.execImageApply s
  | .resetNAssert => Sys2Proof.Machine.execResetNAssert s
  | .resetNRelease => Sys2Proof.Machine.execResetNRelease s
  | .railFailure stage => Sys2Proof.Machine.execRailFailure stage s
  | .refclkLost => Sys2Proof.Machine.execRefclkLost s
  | .refclkReturn => Sys2Proof.Machine.execRefclkReturn s
  | .drainComplete d => Sys2Proof.Machine.execDrainComplete d s
  | .drainDiscard d => Sys2Proof.Machine.execDrainDiscard d s
  | .addressMatchWake dev => Sys2Proof.Machine.execAddressMatchWake dev s
  | .aonBrownout => Sys2Proof.Machine.execAonBrownout s
  | .thermalSample raws => Sys2Proof.Machine.execThermalSample raws s
  | .shutdownHold => Sys2Proof.Machine.execShutdownHold s
  | .thresholdWrite value => Sys2Proof.Machine.execThresholdWrite value s
  | .tileFailed tile => Sys2Proof.Machine.execTileFailed tile s
  | .swapDone tile => Sys2Proof.Machine.execSwapDone tile s
  | .replaced lane => Sys2Proof.Machine.execReplaced lane s
  | .checkpoint lane ok => Sys2Proof.Machine.execCheckpoint lane ok s
  | .bgSpareTest => Sys2Proof.Machine.execBgSpareTest s
  | .spareFail tile => Sys2Proof.Machine.execSpareFail tile s
  | .placementEval r => Sys2Proof.Machine.execPlacementEval r s
  | .segmentMeasure lane => Sys2Proof.Machine.execSegmentMeasure lane s
  | .withdrawHalve r => Sys2Proof.Machine.execWithdrawHalve r s
  | .jtagInstruction ir => Sys2Proof.Machine.execJtagInstruction ir s
  | .jtagInstructionExit => Sys2Proof.Machine.execJtagInstructionExit s
  | .d0ResetEnd primary mirror => Sys2Proof.Machine.execD0ResetEnd primary mirror s
  | .amLock lane portB on offA offB => Sys2Proof.Machine.execAmLock lane portB on offA offB s
  | .loadImageComplete => Sys2Proof.Machine.execLoadImageComplete s
  | .bgSlicePass tile => Sys2Proof.Machine.execBgSlicePass tile s
  | .returnToActive d => Sys2Proof.Machine.execReturnToActive d s

end Sys2Proof.Machine
end

