-- ==== Sys2Proof/Machine/Tick.lean ====
section
/-!
DEFINITION. What one CCLK does by itself: the tick counter with its segment boundary, the cycle counters, background slices that
may start, and a WAIT under way (09_time.md R290; 15_management.md R442; log 1).
-/

namespace Sys2Proof.Machine

open Sys2Proof

/-- The performance events that count CCLK cycles (R442): 0x001 on every die, LOCKED host receivers, Nutmeg write sides that are
not OPEN. -/
def State.countCycle (s : State) : State :=
  let s := s.bump 0 [1] 1
  let s := s.each [0, 1] (fun s d => s.onlyIf (s.dieUp d) (fun s => s.bump (1 + d) [1] 1))
  let s := s.each (List.range 16) (fun s h => s.countD0 0x20 h (natOf (s.hostLocked h)))
  s.each (List.range 8) (fun s n => s.countD0 0x28 n (natOf (s.modeR n && (s.sides n).any (fun b => decide (s.nmSt n b ≠ 0)))))

/-- One CCLK without a command: nothing happens while CCLK is stopped but the progress of a WAIT (log 93). -/
def State.idleTick (s : State) : State :=
  if s.cclkRuns then (s.countCycle.advanceTick.bgStart).waitStep else s.waitStep

end Sys2Proof.Machine
end

