-- ==== Sys2Proof/Safety.lean ====
section
/-!
DEFINITION. The terms that claims use: a command that completes, what a command leaves unchanged, and the canonical form of
the memories and tables.
-/

namespace Sys2Proof.Machine

open Sys2Proof

/-- Command `c` takes effect in state `s` and leaves a state with `P`. -/
def Completes (c : Instr) (s : State) (P : State → Prop) : Prop := ∃ t, exec c s = .next t ∧ P t

/-- The parts of the state, by the names of its fields. -/
inductive Part where
  | pending | freeCtr | variant | serial | strap | regs | mgmt | intc | counts | queues | lanes | pools | ports | hosts | dies
  | loader | keys | mram | power | time | sched | trig | bcn | syn | mem | ctx | therm | test | cal | hk | tap
  deriving DecidableEq, Repr

/-- States `s` and `t` have the same part `p`. -/
def Part.Same (p : Part) (s t : State) : Prop :=
  match p with
  | .pending => t.pending = s.pending
  | .freeCtr => t.freeCtr = s.freeCtr
  | .variant => t.variant = s.variant
  | .serial => t.serial = s.serial
  | .strap => t.strap = s.strap
  | .regs => t.regs = s.regs
  | .mgmt => t.mgmt = s.mgmt
  | .intc => t.intc = s.intc
  | .counts => t.counts = s.counts
  | .queues => t.queues = s.queues
  | .lanes => t.lanes = s.lanes
  | .pools => t.pools = s.pools
  | .ports => t.ports = s.ports
  | .hosts => t.hosts = s.hosts
  | .dies => t.dies = s.dies
  | .loader => t.loader = s.loader
  | .keys => t.keys = s.keys
  | .mram => t.mram = s.mram
  | .power => t.power = s.power
  | .time => t.time = s.time
  | .sched => t.sched = s.sched
  | .trig => t.trig = s.trig
  | .bcn => t.bcn = s.bcn
  | .syn => t.syn = s.syn
  | .mem => t.mem = s.mem
  | .ctx => t.ctx = s.ctx
  | .therm => t.therm = s.therm
  | .test => t.test = s.test
  | .cal => t.cal = s.cal
  | .hk => t.hk = s.hk
  | .tap => t.tap = s.tap

/-- `t` differs from `s` in the parts `ps` at most. -/
def SameBut (ps : List Part) (s t : State) : Prop := ∀ p, p ∉ ps → p.Same s t

/-- Every register field reads in `t` as in `s`, but for the fields `fs`. -/
def RegsBut (fs : List Fld) (s t : State) : Prop := ∀ f : Fld, (∀ g ∈ fs, f.key ≠ g.key) → t.get f = s.get f

/-- Only the register fields `fs` differ between `s` and `t`. -/
def OnlyRegs (fs : List Fld) (s t : State) : Prop := SameBut [.regs] s t ∧ RegsBut fs s t

/-- The fields that an event of interrupt source `i` may change: its COUNT and the word of its event bit (R433, R434). -/
def evFlds (i : Nat) : List Fld :=
  INTC.SRC_COUNT.f 0 i ::
    match srcFld i with
    | some (f, _) => [f]
    | none => []

/-- The fields that counting events in performance bank `b` may change: its overflow bits and their source's COUNT (R441). -/
def perfFlds (b : Nat) : List Fld := [PERF.OVF_LO_OVF.f b, PERF.OVF_HI_OVF.f b, INTC.SRC_COUNT.f 0 (363 + b)]

/-- Every line lane but those of `ns` is as before. -/
def LanesBut (ns : List Nat) (s t : State) : Prop := ∀ m, m ∉ ns → t.lane m = s.lane m

/-- The taken command `w` of engine `e` has completed with a status and its completion is the newest of the queue (R429). -/
def Answered (e : Engine) (w : List Nat) (st : Status) (detail r0 r1 : Nat) (s t : State) : Prop :=
  t.mgmt.cpls = s.mgmt.cpls ++ [⟨cmdTag w, cmdOpcode w, st, detail, r0, r1⟩] ∧ t.mgmt.taken = s.mgmt.taken.erase ⟨e, w⟩

/-- Every register field outside the address ranges `rs` (first and last byte address) reads in `t` as in `s`. -/
def RegsOutside (rs : List (Nat × Nat)) (s t : State) : Prop :=
  ∀ f : Fld, f.lsb < 32 → (∀ r ∈ rs, f.addr < r.1 ∨ r.2 < f.addr) → t.get f = s.get f

/-- The head command of the context engine is operation `op` of `opcode`, and it can run now: the engine is ready, the
descriptor is valid, and the memory it uses, if it uses GDDR7, is not powered down (R241, R244, R245). -/
def CtxRuns (s : State) (opcode op : Nat) (usesMem : Bool) (w : List Nat) : Prop :=
  s.headIs .context opcode op = some w ∧ s.ctxReady usesMem = true ∧ descOk (cmdWord w 2 % 256) = true ∧
    (usesMem = true → s.memDown = false)

/-- D0 to D3 have lost what they hold and are in reset: every register that neither the always-on island nor D4 keeps reads its
reset value (but for TX_PEER, which holds the factory peer ID, the faulty bits of D4's sensors, the placement enables of
SKM-832-M0, and PWR_STAT.STATE), and the typed parts are as after reset, but that the lost OE rails may stay noted; the MRAM, the key slots and what is fixed at manufacture
stand. -/
structure PackageLost (s t : State) : Prop where
  held : t.power.d0Reset = true
  dies : (t.die 0).inReset = true ∧ (t.die 1).inReset = true
  kept : ∀ p ∈ [Part.pending, .freeCtr, .variant, .serial, .strap, .keys, .mram], p.Same s t
  lost : ∀ p ∈ [Part.mgmt, .intc, .counts, .queues, .lanes, .pools, .ports, .hosts, .time, .sched, .trig, .bcn, .syn, .mem, .ctx,
    .test, .cal], p.Same .reset t
  hk : t.hk = { HkSt.fresh with lost := s.hk.lost } ∨ t.hk = .fresh
  loader : t.loader.run = none ∧ t.loader.part = none ∧ t.loader.accepted = none ∧ t.loader.retained = none ∧
    t.loader.coreEntry = none ∧ t.loader.staging = [] ∧ t.loader.codeRam = []
  regs : ∀ f : Fld, islandKey f.key = false →
    (∀ g ∈ [THERM.SENS_FAULT_FAULTY.f, CTX.CTX_CFG_PLACE_EN.f, CTX.CTX_CFG_PREFETCH_EN.f, PWR.PWR_STAT_STATE.f], f.key ≠ g.key) →
    (∀ n, n < 8 → f.key ≠ (BCN.TX_PEER_PEER_ID.f n).key) → t.get f = f.reset

/-- The memories and tables of the state are in canonical form: keys strictly rising, and nothing listed that holds what an
unlisted key reads as.  (What an unlisted register or queue reads as depends on its key, so of these two only the order is
said.) -/
structure State.Canon (s : State) : Prop where
  regs : SMap.rising s.regs = true
  queues : SMap.rising s.queues = true
  counts : SMap.wf s.counts 0 = true
  lanes : SMap.wf s.lanes .fresh = true
  pools : SMap.wf s.pools .fresh = true
  ports : SMap.wf s.ports .fresh = true
  hosts : SMap.wf s.hosts .fresh = true
  dies : SMap.wf s.dies .fresh = true
  mramBytes : SMap.wf s.mram.bytes 0 = true
  mramErr : SMap.wf s.mram.err .clean = true
  staging : SMap.wf s.loader.staging .unwritten = true
  codeRam : SMap.wf s.loader.codeRam .unwritten = true
  save : SMap.wf s.power.save .unwritten = true
  d3 : SMap.wf s.mem.d3 .unwritten = true
  lineMem : SMap.wf s.ctx.lineMem .unwritten = true
  buf : SMap.wf s.ctx.buf .unwritten = true
  applyBuf : SMap.wf s.ctx.applyBuf .unwritten = true
  ring : SMap.wf s.hk.ring 0 = true
  bcn : SMap.wf s.bcn .fresh = true
  syn : SMap.wf s.syn .fresh = true
  trig : SMap.wf s.trig .fresh = true

end Sys2Proof.Machine
end

