-- ==== Sys2Proof/Certificates/Slice0/Obligations.lean ====
section
/-!
DEFINITION. The statements for the provers: what each family of commands does and leaves alone, what every step keeps, what reset
leaves.
-/

open Sys2Proof Sys2Proof.Machine

/-- When a command is at the front of the queue, a step is exec of that command at the state with the rest of the
queue. The queue of waiting commands is the model's (log 1). -/
def Obligations.StepRunsFrontCommand : Prop :=
  ∀ (s : State) (c : Instr) (rest : List Instr), s.pending = c :: rest → step s = exec c { s with pending := rest }

/-- For every state whose memories and tables are in canonical form, a step that answers a next state leaves them in
canonical form: the MRAM, the staging buffer, the code RAM, the save RAM, D3, the cache, the context and apply
buffers, the result ring, the register bank, the counts, the queues and the lane, pool, port, host, die, beacon,
synthesiser and trigger tables. The canonical form is the model's. -/
def Obligations.StepKeepsCanonicalForm : Prop :=
  ∀ s t : State, s.Canon → step s = .next t → t.Canon

/-- State.reset has its memories and tables in canonical form, its command queue empty and every credit queue holding
all its credits and no entry. -/
def Obligations.ResetStateCanonical : Prop :=
  State.reset.Canon ∧ State.reset.pending = [] ∧
    ∀ q : QueueId, (State.reset.queue q).credits = q.kind.depth ∧ (State.reset.queue q).entries = []

/-- A step that answers a next state leaves the variant, the factory serial number and ADDR[2:0] as they are. -/
def Obligations.ManufacturedPartsNeverChange : Prop :=
  ∀ s t : State, step s = .next t → t.variant = s.variant ∧ t.serial = s.serial ∧ t.strap = s.strap

/-- A command other than SLOT_BEGIN, SLOT_CHUNK and SLOT_END that answers a next state leaves every byte of the MRAM
as it is. -/
def Obligations.MramWritersOnly : Prop :=
  ∀ (c : Instr) (s t : State), (∀ ok, c ≠ .slotBegin ok) → (∀ ok, c ≠ .slotChunk ok) → (∀ ok es, c ≠ .slotEnd ok es) →
    exec c s = .next t → ∀ a, t.mramByte a = s.mramByte a

/-- For every command and every key hash slot: the slot is unchanged, or the command is KEY_WRITE and the slot went
from EMPTY to VALID, or the command is KEY_REVOKE and the slot went from VALID to REVOKED with its hash kept; slot 0
never changes. KEY_WRITE of an EMPTY slot 1 to 3, with no poisoned byte in the staged hash and MRAM writing, makes the
slot VALID with that hash, and KEY_REVOKE of a VALID slot 1 to 3 makes it REVOKED; every other slot and all else
stand, and LOAD_IMAGE_COMPLETE then completes them OK. A KEY_WRITE to a slot that is not EMPTY, and a KEY_WRITE or
KEY_REVOKE of slot 0, changes no slot, and LOAD_IMAGE_COMPLETE then completes it with LOADER_ERROR and error KEY (9).
-/
def Obligations.KeySlotsMoveOnlyForward : Prop :=
  (∀ (c : Instr) (s t : State) (k : Nat) (x : KeySlot), exec c s = .next t → s.keys[k]? = some x →
    ∃ y, t.keys[k]? = some y ∧ (y = x ∨ (k ≠ 0 ∧ (∃ ok, c = .keyWrite ok) ∧ x.state = .empty ∧ y.state = .valid) ∨
      (k ≠ 0 ∧ (∃ ok, c = .keyRevoke ok) ∧ x.state = .valid ∧ y.state = .revoked ∧ y.hash = x.hash))) ∧
  (∀ (s : State) (w : List Nat), s.loaderHead 5 = some w → cmdWord w 1 ≠ 0 → s.keyState (cmdWord w 1) = .empty →
    s.stagingBad 48 = none → s.mramRefused = false →
    Completes (.keyWrite true) s (fun t => t.keys = s.keys.set (cmdWord w 1) ⟨.valid, (s.stagingSrc 48).bytes⟩ ∧
      t.loader = { s.loader with run := some 0 } ∧ SameBut [.keys, .loader] s t ∧
      Completes .loadImageComplete t (fun u => u.keys = t.keys ∧ Answered .loader w .ok 0 0 0 s u))) ∧
  (∀ (s : State) (w : List Nat), s.loaderHead 6 = some w → cmdWord w 1 ≠ 0 → s.keyState (cmdWord w 1) = .valid →
    s.mramRefused = false →
    Completes (.keyRevoke true) s (fun t =>
      t.keys = s.keys.set (cmdWord w 1) ⟨.revoked, (s.keys.map (·.hash)).getD (cmdWord w 1) []⟩ ∧
      t.loader = { s.loader with run := some 0 } ∧ SameBut [.keys, .loader] s t ∧
      Completes .loadImageComplete t (fun u => u.keys = t.keys ∧ Answered .loader w .ok 0 0 0 s u))) ∧
  (∀ (s : State) (w : List Nat) (ok : Bool), s.loaderHead 5 = some w →
    (cmdWord w 1 = 0 ∨ s.keyState (cmdWord w 1) ≠ .empty) →
    Completes (.keyWrite ok) s (fun t => t.keys = s.keys ∧
      Completes .loadImageComplete t (fun u => u.keys = s.keys ∧ Answered .loader w .loaderError 9 0 0 s u))) ∧
  (∀ (s : State) (w : List Nat) (ok : Bool), s.loaderHead 6 = some w → cmdWord w 1 = 0 →
    Completes (.keyRevoke ok) s (fun t => t.keys = s.keys ∧
      Completes .loadImageComplete t (fun u => u.keys = s.keys ∧ Answered .loader w .loaderError 9 0 0 s u)))

/-- A stored register field written with a value reads the low bits of that value at its width; every field at another
position reads as before, and nothing outside the register bank changes. -/
def Obligations.RegisterBankReadAfterWrite : Prop :=
  ∀ (s : State) (f : Fld) (v : Nat), (s.put f v).get f = v % 2 ^ f.width ∧ OnlyRegs [f] s (s.put f v)

/-- With D0 out of reset, CMD_PUSH with a credit appends the eight CMD_IN words to the ring, spends one credit and
raises the high-water mark; without a credit it sets OVF, counts the event of source 293 if that source is asserted,
and adds nothing. Every other queue and all other state stand. -/
def Obligations.CommandPushSpendsCredit : Prop :=
  ∀ s : State, s.d0Up = true →
    ((s.queue ringId).credits ≠ 0 → Completes .cmdPush s fun t =>
      t.queue ringId = { s.queue ringId with
        credits := (s.queue ringId).credits - 1
        entries := (s.queue ringId).entries ++
          [⟨.command ((List.range 8).map fun i => BitVec.ofNat 32 (s.get (GLOBAL.CMD_IN_WORD.f 0 i))), false⟩]
        hwm := max (s.queue ringId).hwm ((s.queue ringId).entries.length + 1) } ∧
      (∀ q : QueueId, q.key ≠ ringId.key → t.queue q = s.queue q) ∧ SameBut [.queues] s t) ∧
    ((s.queue ringId).credits = 0 → Completes .cmdPush s fun t =>
      t.queue ringId = { s.queue ringId with ovf := true } ∧ (∀ q : QueueId, q.key ≠ ringId.key → t.queue q = s.queue q) ∧
      SameBut [.queues, .regs] s t ∧ RegsBut [INTC.SRC_COUNT.f 0 293] s t)

/-- When the head of the ring can be taken, COMMAND_TAKE removes it and returns its credit; a command with a status by
the checks completes at once with that status and result 0; a NOP completes OK; any other command joins its engine,
with BUSY set for LOAD_IMAGE and CHANGING for WAIT. The core leaves WAIT. Nothing else changes but the counting of the
performance event. -/
def Obligations.CommandTakeChecksAndPasses : Prop :=
  ∀ (s : State) (w : List Nat), s.takeable = some w →
    Completes .commandTake s fun t =>
      (t.queue ringId).entries = (s.queue ringId).entries.drop 1 ∧ (t.queue ringId).credits = (s.queue ringId).credits + 1 ∧
      t.get INTC.IC_STAT_CORE_WAIT.f = 0 ∧
      (∀ st, s.takeStatus w = some st →
        t.mgmt.taken = s.mgmt.taken ∧ t.mgmt.cpls = s.mgmt.cpls ++ [⟨cmdTag w, cmdOpcode w, st, 0, 0, 0⟩]) ∧
      (s.takeStatus w = none → cmdOpcode w = 0 →
        t.mgmt.taken = s.mgmt.taken ∧ t.mgmt.cpls = s.mgmt.cpls ++ [⟨cmdTag w, 0, .ok, 0, 0, 0⟩]) ∧
      (s.takeStatus w = none → cmdOpcode w ≠ 0 →
        t.mgmt.taken = s.mgmt.taken ++ [⟨engineOf w, w⟩] ∧ t.mgmt.cpls = s.mgmt.cpls ∧
        (cmdOpcode w = 1 → t.get LOADER.STATUS_BUSY.f = 1) ∧ (cmdOpcode w = 8 → t.get PWR.PWR_STAT_CHANGING.f = 1)) ∧
      SameBut [.regs, .mgmt, .counts, .queues] s t ∧
      RegsBut ([INTC.IC_STAT_CORE_WAIT.f, INTC.SRC_COUNT.f 0 294, LOADER.STATUS_BUSY.f, PWR.PWR_STAT_CHANGING.f] ++ perfFlds 0) s t

/-- A NOP at the head of the ring that passes the checks is taken and completes OK. CLOCK_SWITCH to the internal clock
completes OK with CORE_CLK 0; to MCLK it completes OK with CORE_CLK 1 where REFCLK_OK is 1 and BAD_STATE with the
clock unchanged where it is 0. CPL_POP removes the head completion and nothing else but IRQ_N, which it may release.
-/
def Obligations.CoreCommandsComplete : Prop :=
  (∀ (s : State) (w : List Nat), s.takeable = some w → cmdOpcode w = 0 → s.takeStatus w = none →
    Completes .nop s fun t =>
      t.mgmt.cpls = s.mgmt.cpls ++ [⟨cmdTag w, 0, .ok, 0, 0, 0⟩] ∧ t.mgmt.taken = s.mgmt.taken ∧
      (t.queue ringId).entries = (s.queue ringId).entries.drop 1 ∧ SameBut [.regs, .mgmt, .counts, .queues] s t) ∧
  (∀ (s : State) (w : List Nat), s.headIs .core 9 0 = some w →
    Completes .clockSwitchInternal s fun t =>
      t.getB PWR.PWR_STAT_CORE_CLK.f = false ∧ Answered .core w .ok 0 0 0 s t ∧ SameBut [.regs, .mgmt] s t ∧
      RegsBut [PWR.PWR_STAT_CORE_CLK.f, INTC.SRC_COUNT.f 0 294] s t) ∧
  (∀ (s : State) (w : List Nat), s.headIs .core 9 1 = some w → s.getB PWR.PWR_STAT_REFCLK_OK.f = true →
    Completes .clockSwitchMclk s fun t =>
      t.getB PWR.PWR_STAT_CORE_CLK.f = true ∧ Answered .core w .ok 0 0 0 s t ∧ SameBut [.regs, .mgmt] s t ∧
      RegsBut [PWR.PWR_STAT_CORE_CLK.f, INTC.SRC_COUNT.f 0 294] s t) ∧
  (∀ (s : State) (w : List Nat), s.headIs .core 9 1 = some w → s.getB PWR.PWR_STAT_REFCLK_OK.f = false →
    Completes .clockSwitchMclk s fun t =>
      Answered .core w .badState 0 0 0 s t ∧ SameBut [.regs, .mgmt] s t ∧ RegsBut [INTC.SRC_COUNT.f 0 294] s t) ∧
  (∀ s : State, s.d0Up = true → Completes .cplPop s fun t =>
    t.mgmt = { s.mgmt with cpls := s.mgmt.cpls.drop 1 } ∧ t.intc.claims = s.intc.claims ∧ SameBut [.mgmt, .intc] s t)

/-- With D0 out of reset, a read of CLAIM with a deliverable source returns bit 31 and the number of the deliverable
source of the highest priority and adds it to the claims at its priority; with none it returns 0 and changes nothing
but the answer. COMPLETE of a claimed source removes every claim of it; COMPLETE of a source that is not claimed
changes nothing. -/
def Obligations.InterruptClaimAndComplete : Prop :=
  (∀ (s : State) (i : Nat), s.d0Up = true → s.bestSource 0 = some i →
    Completes .claim s fun t =>
      t.mgmt.out.words = [2 ^ 31 + i] ∧ t.intc.claims = (i, s.get (INTC.SRC_PRIORITY.f 0 i)) :: s.intc.claims ∧
      SameBut [.mgmt, .intc, .counts, .regs] s t ∧ RegsBut (perfFlds 0) s t) ∧
  (∀ s : State, s.d0Up = true → s.bestSource 0 = none →
    Completes .claim s fun t => t.mgmt.out.words = [0] ∧ t.mgmt.out.ack = true ∧ SameBut [.mgmt] s t) ∧
  (∀ (s : State) (v : Word), s.d0Up = true → s.claimed (v.toNat % 512) = true →
    Completes (.complete v) s fun t =>
      t.claimed (v.toNat % 512) = false ∧ (∀ i, i ≠ v.toNat % 512 → t.claimed i = s.claimed i) ∧
      SameBut [.intc, .counts, .regs] s t ∧ RegsBut (perfFlds 0) s t) ∧
  (∀ (s : State) (v : Word), s.claimed (v.toNat % 512) = false → exec (.complete v) s = .next s)

/-- With D0 out of reset, IRQ_DELIVERY to target 0 with a deliverable source, IRQ_N high and a delivery allowed drives
IRQ_N low and notes its tick; with no deliverable source it releases IRQ_N. IRQ_DELIVERY to target 1 with a
deliverable source and a delivery allowed takes the core out of WAIT and notes the tick. The claims stand. -/
def Obligations.InterruptDelivery : Prop :=
  (∀ (s : State) (i : Nat), s.d0Up = true → s.bestSource 0 = some i → s.intc.irqLow = false → s.mayDeliver 0 = true →
    Completes (.irqDelivery 0) s fun t =>
      t.intc = { s.intc with irqLow := true, last0 := some s.time.tick } ∧ SameBut [.intc, .counts, .regs] s t ∧
      RegsBut (perfFlds 0) s t) ∧
  (∀ s : State, s.d0Up = true → s.bestSource 0 = none →
    Completes (.irqDelivery 0) s fun t => t.intc = { s.intc with irqLow := false } ∧ SameBut [.intc] s t) ∧
  (∀ (s : State) (i : Nat), s.d0Up = true → s.bestSource 1 = some i → s.mayDeliver 1 = true →
    Completes (.irqDelivery 1) s fun t =>
      t.get INTC.IC_STAT_CORE_WAIT.f = 0 ∧ t.intc = { s.intc with last1 := some s.time.tick } ∧ SameBut [.intc, .regs] s t ∧
      RegsBut [INTC.IC_STAT_CORE_WAIT.f] s t)

/-- With D0 out of reset, SW_SET sets the software bits where its word has 1 and clears none; COUNT_CLR sets the COUNT
of a source to 0. With the bank served, a read of CNT_LO returns the low 32 bits of the count and latches bits 47 to
32 into CNT_HI; CLEAR sets one count to 0 and CLEAR_ALL_COUNTERS every count of the bank; FREEZE writes the freeze bit
of the bank. -/
def Obligations.EventCountersAndSoftwareSources : Prop :=
  (∀ (s : State) (v : Word), s.d0Up = true → Completes (.swSet v) s fun t =>
    (∀ b, b < 8 → bitAt (t.get INTC.SW_STAT_SW.f) b = (bitAt (s.get INTC.SW_STAT_SW.f) b || bitAt v.toNat b)) ∧
    OnlyRegs (INTC.SW_STAT_SW.f :: (List.range 8).map fun b => INTC.SRC_COUNT.f 0 (366 + b)) s t) ∧
  (∀ (s : State) (i : Nat), s.d0Up = true → i < 384 → Completes (.countClr i) s fun t =>
    t.get (INTC.SRC_COUNT.f 0 i) = 0 ∧ OnlyRegs [INTC.SRC_COUNT.f 0 i] s t) ∧
  (∀ (s : State) (d : Fin 3) (i : Nat), s.bankServed d = true → i < bankSize d →
    (Completes (.cntLoRead d i) s fun t =>
      t.mgmt.out.words = [s.count d i % 2 ^ 32] ∧ t.get (PERF.CNT_HI.f d i) = s.count d i / 2 ^ 32 % 2 ^ 16 ∧
      SameBut [.regs, .mgmt] s t ∧ RegsBut [PERF.CNT_HI.f d i] s t) ∧
    (Completes (.clear d i) s fun t =>
      t.count d i = 0 ∧ (∀ (e : Fin 3) (j : Nat), j < 64 → (e ≠ d ∨ j ≠ i) → t.count e j = s.count e j) ∧ SameBut [.counts] s t)) ∧
  (∀ (s : State) (d : Fin 3), s.bankServed d = true →
    (Completes (.clearAllCounters d) s fun t =>
      (∀ (e : Fin 3) (j : Nat), j < 64 → t.count e j = if e = d then 0 else s.count e j) ∧ SameBut [.counts] s t) ∧
    (∀ on : Bool, Completes (.freeze d on) s fun t =>
      t.getB (PERF.BANK_CTL_FREEZE.f d) = on ∧ OnlyRegs [PERF.BANK_CTL_FREEZE.f d] s t))

/-- With D0 out of reset, ENTDAA, and SETDASA to the static address 0x50 + ADDR[2:0], put the MGMT port into I3C mode
with the given dynamic address; SETDASA to another address does nothing, and RSTDAA takes it back to I2C with address
0; SETNEWDA changes the address of a port in I3C mode and does nothing to one in I2C mode. Nothing else changes. To a
port in I3C mode, GETPID answers the provisional ID with ADDR in bits 14 to 12, GETBCR answers 1 and GETDCR answers 0,
each acknowledged; GETSTATUS is acknowledged with a value the spec does not state (a free value, log 39). Nothing else
changes but the free-value counter of GETSTATUS. -/
def Obligations.I3cAddressAndIdentity : Prop :=
  ((∀ (s : State) (d : BitVec 7), s.d0Up = true →
     (Completes (.entdaa d) s fun t => t.getB GLOBAL.MGMT_STAT_I3C.f = true ∧ t.get GLOBAL.MGMT_STAT_DYN_ADDR.f = d.toNat ∧
       OnlyRegs [GLOBAL.MGMT_STAT_I3C.f, GLOBAL.MGMT_STAT_DYN_ADDR.f] s t) ∧
     (∀ dev : BitVec 7, dev.toNat ≠ 0x50 + s.strap.toNat → exec (.setdasa dev d) s = .next s) ∧
     (Completes (.setdasa (0x50#7 + s.strap.setWidth 7) d) s fun t => t.getB GLOBAL.MGMT_STAT_I3C.f = true ∧ t.get GLOBAL.MGMT_STAT_DYN_ADDR.f = d.toNat ∧
       OnlyRegs [GLOBAL.MGMT_STAT_I3C.f, GLOBAL.MGMT_STAT_DYN_ADDR.f] s t) ∧
     (Completes .rstdaa s fun t => t.getB GLOBAL.MGMT_STAT_I3C.f = false ∧ t.get GLOBAL.MGMT_STAT_DYN_ADDR.f = 0 ∧
       OnlyRegs [GLOBAL.MGMT_STAT_I3C.f, GLOBAL.MGMT_STAT_DYN_ADDR.f] s t) ∧
     (s.getB GLOBAL.MGMT_STAT_I3C.f = true → Completes (.setnewda d) s fun t =>
       t.getB GLOBAL.MGMT_STAT_I3C.f = true ∧ t.get GLOBAL.MGMT_STAT_DYN_ADDR.f = d.toNat ∧
       OnlyRegs [GLOBAL.MGMT_STAT_I3C.f, GLOBAL.MGMT_STAT_DYN_ADDR.f] s t) ∧
     (s.getB GLOBAL.MGMT_STAT_I3C.f = false → exec (.setnewda d) s = .next s))) ∧
  (∀ s : State, s.d0Up = true → s.getB GLOBAL.MGMT_STAT_I3C.f = true →
     (Completes .getpid s fun t => t.mgmt.out.ack = true ∧ t.mgmt.out.ident = 0x74E58320000 + 4096 * s.strap.toNat ∧
       t.mgmt.cpls = s.mgmt.cpls ∧ t.mgmt.taken = s.mgmt.taken ∧ SameBut [.mgmt] s t) ∧
     (Completes .getbcr s fun t => t.mgmt.out.ack = true ∧ t.mgmt.out.ident = 1 ∧
       t.mgmt.cpls = s.mgmt.cpls ∧ t.mgmt.taken = s.mgmt.taken ∧ SameBut [.mgmt] s t) ∧
     (Completes .getdcr s fun t => t.mgmt.out.ack = true ∧ t.mgmt.out.ident = 0 ∧
       t.mgmt.cpls = s.mgmt.cpls ∧ t.mgmt.taken = s.mgmt.taken ∧ SameBut [.mgmt] s t) ∧
     (Completes .getstatus s fun t => t.mgmt.out.ack = true ∧ t.freeCtr = s.freeCtr + 1 ∧
       t.mgmt.cpls = s.mgmt.cpls ∧ t.mgmt.taken = s.mgmt.taken ∧ SameBut [.mgmt, .freeCtr] s t))

/-- A transaction to an address other than that of the port (0x50 + ADDR[2:0] in I2C mode, the dynamic address in I3C
mode) changes nothing. At its address, and on an acknowledged port, MGMT_WRITE with four address bytes that form an
aligned address writes each complete word of its data in order at rising addresses and leaves the current address
after the last; with a misaligned address it is not acknowledged and writes nothing. MGMT_READ reads the words its
bytes need, each with its read effect, from the current address on, advances the address past them and returns no more
bytes than asked; in I3C mode it ends before the first word that is not ready, and in both before the first word of
the GDDR7 window that waits for a retraining (in I2C mode the rest is a further read, log 82). A port that does not
acknowledge changes nothing but its answer. -/
def Obligations.MgmtTransfers : Prop :=
  (∀ (s : State) (dev : BitVec 7) (addr data : List Byte) (nbytes ready : Nat),
    dev.toNat ≠ (if s.getB GLOBAL.MGMT_STAT_I3C.f then s.get GLOBAL.MGMT_STAT_DYN_ADDR.f else 0x50 + s.strap.toNat) →
    exec (.mgmtWrite dev addr data) s = .next s ∧ exec (.mgmtRead dev nbytes ready) s = .next s) ∧
  (∀ (s : State) (dev : BitVec 7) (addr data : List Byte), dev.toNat = s.busAddr → s.acknowledges = true → 4 ≤ addr.length →
    (leNat ((addr.take 4).map (·.toNat)) % 4 = 0 → Completes (.mgmtWrite dev addr data) s fun t =>
      let a := leNat ((addr.take 4).map (·.toNat))
      let u := (s.countWords 12 (data.length / 4)).writeWords a (wholeWords data) .mgmt
      t.mgmt.out.ack = true ∧ t.mgmt.addr = (a + 4 * (data.length / 4)) % 2 ^ 32 ∧ t.mgmt.cpls = u.mgmt.cpls ∧
      t.mgmt.taken = u.mgmt.taken ∧ SameBut [.mgmt] u t) ∧
    (leNat ((addr.take 4).map (·.toNat)) % 4 ≠ 0 → Completes (.mgmtWrite dev addr data) s fun t =>
      t.mgmt.out.ack = false ∧ t.mgmt.addr = s.mgmt.addr ∧ SameBut [.mgmt] s t)) ∧
  (∀ (s : State) (dev : BitVec 7) (nbytes ready : Nat), dev.toNat = s.busAddr → s.acknowledges = true →
    Completes (.mgmtRead dev nbytes ready) s fun t =>
    let k := s.readyRun s.mgmt.addr ((nbytes + 3) / 4)
    let n := if s.getB GLOBAL.MGMT_STAT_I3C.f then min k ready else k
    let r := (s.countWords 12 n).readWords s.mgmt.addr n .mgmt
    t.mgmt.out.ack = true ∧ t.mgmt.out.words = r.1 ∧ t.mgmt.out.words.length = n ∧ t.mgmt.out.bytes = min nbytes (4 * n) ∧
    t.mgmt.addr = (s.mgmt.addr + 4 * n) % 2 ^ 32 ∧ SameBut [.mgmt] r.2 t) ∧
  (∀ (s : State) (dev : BitVec 7) (addr data : List Byte) (nbytes ready : Nat), dev.toNat = s.busAddr → s.acknowledges = false →
    (Completes (.mgmtWrite dev addr data) s fun t => t.mgmt.out.ack = false ∧ t.mgmt.addr = s.mgmt.addr ∧ SameBut [.mgmt] s t) ∧
    (Completes (.mgmtRead dev nbytes ready) s fun t => t.mgmt.out.ack = false ∧ t.mgmt.addr = s.mgmt.addr ∧ SameBut [.mgmt] s t))

/-- QUAD_WRITE and SINGLE_WRITE at an aligned address write each complete word in order at rising addresses; at a
misaligned address they write nothing and clear DATA_OK. QUAD_READ and SINGLE_READ at an aligned address with D0 out
of reset and every word fetched return the words with DATA_OK 1; with a word not fetched, among them one of the GDDR7
window that waits for a retraining, they read nothing and return zeros with DATA_OK 0. BULK_STATUS returns READY in
bit 0 and DATA_OK in bit 1 and changes nothing else. -/
def Obligations.BulkTransfers : Prop :=
  (∀ (s : State) (a : Word) (data : List Byte), a.toNat % 4 = 0 →
    exec (.quadWrite a data) s = .next ((s.countWords 13 (data.length / 4)).writeWords a.toNat (wholeWords data) .bulk) ∧
    exec (.singleWrite a data) s = .next ((s.countWords 13 (data.length / 4)).writeWords a.toNat (wholeWords data) .bulk)) ∧
  (∀ (s : State) (a : Word) (data : List Byte), a.toNat % 4 ≠ 0 →
    (Completes (.quadWrite a data) s fun t => t.mgmt = { s.mgmt with dataOk := false } ∧ SameBut [.mgmt] s t) ∧
    (Completes (.singleWrite a data) s fun t => t.mgmt = { s.mgmt with dataOk := false } ∧ SameBut [.mgmt] s t)) ∧
  (∀ (s : State) (a : Word) (w : Byte) (fetched nbytes : Nat), a.toNat % 4 = 0 → s.d0Up = true →
    bulkWords w.toNat ≤ fetched → s.readyRun a.toNat (bulkWords w.toNat) = bulkWords w.toNat →
    let n := min (bulkWords w.toNat) ((nbytes + 3) / 4)
    let r := (s.countWords 13 n).readWords a.toNat n .bulk
    (Completes (.quadRead a w fetched nbytes) s fun t => t.mgmt.out.words = r.1 ∧ t.mgmt.dataOk = true ∧
      t.mgmt.out.bytes = min nbytes (4 * bulkWords w.toNat) ∧ SameBut [.mgmt] r.2 t) ∧
    (Completes (.singleRead a w fetched nbytes) s fun t => t.mgmt.out.words = r.1 ∧ t.mgmt.dataOk = true ∧
      t.mgmt.out.bytes = min nbytes (4 * bulkWords w.toNat) ∧ SameBut [.mgmt] r.2 t)) ∧
  (∀ (s : State) (a : Word) (w : Byte) (fetched nbytes : Nat), a.toNat % 4 = 0 →
    (fetched < bulkWords w.toNat ∨ s.readyRun a.toNat (bulkWords w.toNat) ≠ bulkWords w.toNat) →
    (Completes (.quadRead a w fetched nbytes) s fun t => (∀ x ∈ t.mgmt.out.words, x = 0) ∧ t.mgmt.dataOk = false ∧
      SameBut [.mgmt] s t) ∧
    (Completes (.singleRead a w fetched nbytes) s fun t => (∀ x ∈ t.mgmt.out.words, x = 0) ∧ t.mgmt.dataOk = false ∧
      SameBut [.mgmt] s t)) ∧
  (∀ s : State, Completes .bulkStatus s fun t =>
    t.mgmt.out.status = natOf s.d0Up + 2 * natOf s.mgmt.dataOk ∧ t.mgmt.out.words = s.mgmt.out.words ∧
    t.mgmt.dataOk = s.mgmt.dataOk ∧ SameBut [.mgmt] s t)

/-- With D0 out of reset, a write of the interrupt threshold word stores both RW thresholds and no reserved bit; a
write of the global event word clears the events where it has 1 and keeps the others; a write of a read-only word
changes nothing; a write of SW_SET acts and sets the software bits. Each leaves everything else, but for IRQ_N, which
may be released. A write whose address is not aligned is discarded. An access to a served, aligned and unassigned
address asserts source 288; the first one since the event was cleared latches the address, the origin and the
direction, and a later one leaves them. Nothing else changes. -/
def Obligations.RegisterWritesAndUnassignedAddresses : Prop :=
  ((∀ (o : Origin) (v s), s.d0Up = true →
     (Completes (.registerWrite o 0x10008#32 v) s fun t =>
       t.get INTC.THRESH_THRESHOLD0.f = bitField v.toNat 0 4 ∧ t.get INTC.THRESH_THRESHOLD1.f = bitField v.toNat 4 4 ∧
       SameBut [.regs, .intc] s t ∧ RegsBut [INTC.THRESH_THRESHOLD0.f, INTC.THRESH_THRESHOLD1.f] s t) ∧
     (Completes (.registerWrite o 0x10C#32 v) s fun t =>
       (t.getB GLOBAL.G_EVT_UNMAPPED.f = (s.getB GLOBAL.G_EVT_UNMAPPED.f && !bitAt v.toNat 0)) ∧
       (t.getB GLOBAL.G_EVT_LOCKED_WRITE.f = (s.getB GLOBAL.G_EVT_LOCKED_WRITE.f && !bitAt v.toNat 1)) ∧
       SameBut [.regs, .intc] s t ∧ ∀ f : Fld, f.addr ≠ 0x10C → f.lsb < 32 → t.get f = s.get f) ∧
     (Completes (.registerWrite o 0x0#32 v) s fun t => SameBut [.intc] s t) ∧
     (Completes (.registerWrite o 0x10020#32 v) s fun t =>
       (∀ b, b < 8 → bitAt (t.get INTC.SW_STAT_SW.f) b = (bitAt (s.get INTC.SW_STAT_SW.f) b || bitAt v.toNat b)) ∧
       SameBut [.regs, .intc] s t)) ∧
   (∀ (o : Origin) (a v : Word) (s : State), a.toNat % 4 ≠ 0 → exec (.registerWrite o a v) s = .next s)) ∧
  (∀ (s : State) (o : Origin) (a : Word) (w : Bool), s.d0Up = true → a.toNat % 4 = 0 → s.served a.toNat = true →
     s.isUnassigned a.toNat = true → Completes (.unmappedAccess o a w) s fun t =>
       t.srcLevel 288 = true ∧
       (s.getB GLOBAL.G_EVT_UNMAPPED.f = false → t.get GLOBAL.UNMAPPED_ADDR_ADDR.f = a.toNat ∧
         t.get GLOBAL.UNMAPPED_INFO_ORIGIN.f = originCode o ∧ t.getB GLOBAL.UNMAPPED_INFO_WRITE.f = w) ∧
       (s.getB GLOBAL.G_EVT_UNMAPPED.f = true → t.get GLOBAL.UNMAPPED_ADDR_ADDR.f = s.get GLOBAL.UNMAPPED_ADDR_ADDR.f ∧
         t.get GLOBAL.UNMAPPED_INFO_ORIGIN.f = s.get GLOBAL.UNMAPPED_INFO_ORIGIN.f) ∧
       OnlyRegs (evFlds 288 ++ [GLOBAL.UNMAPPED_ADDR_ADDR.f, GLOBAL.UNMAPPED_INFO_ORIGIN.f, GLOBAL.UNMAPPED_INFO_WRITE.f]) s t)

/-- A context command that can run on a key that the directory does not hold completes NOT_FOUND and leaves the
directory alone. On a key that it holds: LOOKUP answers the slot, PIN in bit 16 and residence in bit 17; UNPIN clears
the entry's PIN; PIN sets it, without a fill where the placement engine is off; REMOVE takes the entry out and frees
the slot unless a fetch of it is under way. A poisoned entry read without a hit completes POISON. With the placement
engine on and the slot not in the cache, PIN starts a pinned fill of the victim line, or completes CACHE_FULL. -/
def Obligations.ContextKeyLookups : Prop :=
  ∀ (s : State) (w : List Nat),
    let peer := cmdWord w 1
    let d := cmdWord w 2 % 256
    let missed (t : State) : Prop := Answered .context w .notFound 0 0 0 s t ∧ t.ctx = { s.ctx with cmdBad := false, cmdSeen := [] } ∧
      SameBut [.regs, .mgmt, .counts, .ctx] s t ∧ RegsBut (INTC.SRC_COUNT.f 0 294 :: perfFlds 0) s t
    (s.lookupKey peer d = .miss →
      (CtxRuns s 3 2 false w → Completes .remove s missed) ∧ (CtxRuns s 3 3 false w → Completes .pin s missed) ∧
      (CtxRuns s 3 4 false w → Completes .unpin s missed) ∧ (CtxRuns s 4 0 true w → Completes .contextReadStored s missed) ∧
      (CtxRuns s 4 2 false w → Completes .lookup s missed)) ∧
    (s.lookupKey peer d = .poison →
      (CtxRuns s 3 2 false w → Completes .remove s (Answered .context w .poison 0 0 0 s)) ∧
      (CtxRuns s 3 3 false w → Completes .pin s (Answered .context w .poison 0 0 0 s)) ∧
      (CtxRuns s 3 4 false w → Completes .unpin s (Answered .context w .poison 0 0 0 s)) ∧
      (CtxRuns s 4 0 true w → Completes .contextReadStored s (Answered .context w .poison 0 0 0 s)) ∧
      (CtxRuns s 4 2 false w → Completes .lookup s (Answered .context w .poison 0 0 0 s))) ∧
    ∀ (way i : Nat) (e : DirEntry), s.lookupKey peer d = .hit way i e →
      (CtxRuns s 4 2 false w → Completes .lookup s fun t =>
        Answered .context w .ok 0 (e.slot + 2 ^ 16 * natOf e.pin + 2 ^ 17 * natOf (s.lineOf e.slot).isSome) 0 s t ∧
        t.ctx = { s.ctx with cmdBad := false, cmdSeen := [] } ∧ SameBut [.regs, .mgmt, .counts, .ctx] s t ∧
        RegsBut (INTC.SRC_COUNT.f 0 294 :: perfFlds 0) s t) ∧
      (CtxRuns s 3 4 false w → Completes .unpin s fun t =>
        Answered .context w .ok 0 0 0 s t ∧ t.ctx.entry way i = { e with pin := false } ∧
        (∀ (v j : Nat), v < 3 → (v ≠ way ∨ j ≠ i) → t.ctx.entry v j = s.ctx.entry v j) ∧
        SameBut [.regs, .mgmt, .counts, .ctx] s t ∧ RegsBut (INTC.SRC_COUNT.f 0 294 :: perfFlds 0) s t) ∧
      (CtxRuns s 3 3 false w → s.placeEn = false ∨ s.holds e.slot = true → Completes .pin s fun t =>
        Answered .context w .ok 0 0 0 s t ∧ t.ctx.entry way i = { e with pin := true } ∧
        (∀ (v j : Nat), v < 3 → (v ≠ way ∨ j ≠ i) → t.ctx.entry v j = s.ctx.entry v j) ∧
        SameBut [.regs, .mgmt, .counts, .ctx] s t ∧ RegsBut (INTC.SRC_COUNT.f 0 294 :: perfFlds 0) s t) ∧
      (CtxRuns s 3 3 false w → s.placeEn = true → s.holds e.slot = false → ∀ l, s.victim = some l → Completes .pin s fun t =>
        Answered .context w .ok 0 0 0 s t ∧ t.ctx.entry way i = { e with pin := true } ∧ (t.line l).st = .filling ∧
        (t.line l).slot = e.slot ∧ (t.line l).pin = true ∧ (∀ m, m ≠ l → t.line m = s.line m) ∧
        SameBut [.regs, .mgmt, .counts, .ctx] s t ∧ RegsBut (INTC.SRC_COUNT.f 0 294 :: perfFlds 0) s t) ∧
      (CtxRuns s 3 3 false w → s.placeEn = true → s.holds e.slot = false → s.victim = none → Completes .pin s fun t =>
        Answered .context w .cacheFull 0 0 0 s t ∧ t.ctx = { s.ctx with cmdBad := false, cmdSeen := [] } ∧
        SameBut [.regs, .mgmt, .counts, .ctx] s t) ∧
      (CtxRuns s 3 2 false w → Completes .remove s fun t =>
        Answered .context w .ok 0 0 0 s t ∧ t.ctx.w0 = (s.ctx.removeAt s.seed way i).w0 ∧
        t.ctx.w1 = (s.ctx.removeAt s.seed way i).w1 ∧ t.ctx.stash = (s.ctx.removeAt s.seed way i).stash ∧
        (s.fetching e.slot = false → (∀ p ∈ s.ctx.lines, p.2.slot = e.slot → p.2.st ≠ .inUse) →
          t.ctx.used.get false e.slot = false) ∧
        SameBut [.regs, .mgmt, .counts, .ctx] s t ∧ RegsBut (INTC.SRC_COUNT.f 0 294 :: perfFlds 0) s t)

/-- A STORE_BUFFER whose buffer is clean and whose records pass their check, and a STORE_LIVE of trained lanes, store
the image in the lowest free slot: a new key is inserted for it, a stored key's entry is switched to it, and the
command completes OK with the slot. With no free slot a stored key's slot is rewritten in place unless a fetch reads
it, and a new key is refused with NO_SLOT; a directory with no place completes DIR_FULL; then the directory stands.
Records that fail the check complete CONTENT, a poisoned buffer POISON, and live state that cannot be taken the status
that stops it. -/
def Obligations.ContextStoresTakeASlot : Prop :=
  ∀ (s : State) (w : List Nat),
    let peer := cmdWord w 1
    let d := cmdWord w 2 % 256
    let bs := s.ctx.buf.getRun .unwritten 0 (2048 * descSize d)
    let bytes := bs.map (·.val.toNat)
    let img := bytes ++ List.replicate (16384 - 2048 * descSize d) 0
    let stored (c : Instr) : Prop :=
      (∀ (j way i : Nat) (e : DirEntry), s.lookupKey peer d = .hit way i e → s.freeSlot = some j → e.slot ≠ j →
        Completes c s fun t => Answered .context w .ok 0 j 0 s t ∧ t.ctx.entry way i = { e with slot := j } ∧
          (∀ (v l : Nat), v < 3 → (v ≠ way ∨ l ≠ i) → t.ctx.entry v l = s.ctx.entry v l) ∧ t.ctx.used.get false j = true ∧
          SameBut [.regs, .mgmt, .counts, .mem, .ctx] s t ∧ RegsBut (INTC.SRC_COUNT.f 0 294 :: perfFlds 0) s t) ∧
      (∀ (way i : Nat) (e : DirEntry), s.lookupKey peer d = .hit way i e → s.freeSlot = none → s.fetching e.slot = false →
        Completes c s fun t => Answered .context w .ok 0 e.slot 0 s t ∧ t.ctx.w0 = s.ctx.w0 ∧ t.ctx.w1 = s.ctx.w1 ∧
          t.ctx.stash = s.ctx.stash ∧ SameBut [.regs, .mgmt, .counts, .mem, .ctx] s t) ∧
      (∀ j, s.lookupKey peer d = .miss → s.freeSlot = some j →
        s.ctx.insert s.seed s.slotCount { peer := peer, group := d, slot := j, valid := true, pin := false, poison := false } =
          .dirFull →
        Completes c s fun t => Answered .context w .dirFull 0 0 0 s t ∧ t.srcLevel 299 = true ∧
          t.ctx = { s.ctx with cmdBad := false, cmdSeen := [] } ∧ SameBut [.regs, .mgmt, .counts, .ctx] s t) ∧
      (s.lookupKey peer d = .poison → Completes c s fun t => Answered .context w .poison 0 0 0 s t ∧
        t.ctx = { s.ctx with cmdBad := false, cmdSeen := [] } ∧ SameBut [.regs, .mgmt, .counts, .ctx] s t) ∧
      (s.lookupKey peer d = .miss → s.freeSlot = none → Completes c s fun t => Answered .context w .noSlot 0 0 0 s t ∧
        t.ctx = { s.ctx with cmdBad := false, cmdSeen := [] } ∧ SameBut [.regs, .mgmt, .counts, .ctx] s t)
    (∀ (j : Nat) (k : CtxSt), s.lookupKey peer d = .miss → s.freeSlot = some j →
      s.ctx.insert s.seed s.slotCount { peer := peer, group := d, slot := j, valid := true, pin := false, poison := false } = .ok k →
      (CtxRuns s 3 0 true w → bs.any (·.poison) = false → recordsOk bytes peer d = true →
        Completes .storeBuffer s fun t => Answered .context w .ok 0 j 0 s t ∧ t.ctx.w0 = k.w0 ∧ t.ctx.w1 = k.w1 ∧ t.ctx.stash = k.stash ∧
          t.ctx.used.get false j = true ∧ (s.hasD3 = true → t.mem = (s.writeSlot j img).mem) ∧
          (s.hasD3 = false → t.mem = s.mem ∧ t.ctx.lineMem = (s.writeSlot j img).ctx.lineMem) ∧
          SameBut [.regs, .mgmt, .counts, .mem, .ctx] s t ∧ RegsBut (INTC.SRC_COUNT.f 0 294 :: perfFlds 0) s t) ∧
      (CtxRuns s 3 1 true w → s.liveStop d = none →
        Completes .storeLive s fun t => Answered .context w .ok 0 j 0 s t ∧ t.ctx.w0 = k.w0 ∧ t.ctx.w1 = k.w1 ∧ t.ctx.stash = k.stash ∧
          t.ctx.used.get false j = true ∧ (s.hasD3 = true → t.mem = (s.writeSlot j (s.liveImage peer d)).mem) ∧
          (s.hasD3 = false → t.mem = s.mem ∧ t.ctx.lineMem = (s.writeSlot j (s.liveImage peer d)).ctx.lineMem) ∧
          SameBut [.regs, .mgmt, .counts, .mem, .ctx] s t ∧ RegsBut (INTC.SRC_COUNT.f 0 294 :: perfFlds 0) s t)) ∧
    (CtxRuns s 3 0 true w → bs.any (·.poison) = false → recordsOk bytes peer d = true → stored .storeBuffer) ∧
    (CtxRuns s 3 1 true w → s.liveStop d = none → stored .storeLive) ∧
    (CtxRuns s 3 0 true w → bs.any (·.poison) = false → recordsOk bytes peer d = false →
      Completes .storeBuffer s fun t => Answered .context w .content 0 0 0 s t ∧ t.ctx = { s.ctx with cmdBad := false, cmdSeen := [] } ∧
        SameBut [.regs, .mgmt, .ctx] s t) ∧
    (CtxRuns s 3 0 true w → bs.any (·.poison) = true →
      Completes .storeBuffer s fun t => Answered .context w .poison 0 0 0 s t ∧ t.ctx = { s.ctx with cmdBad := false, cmdSeen := [] } ∧
        SameBut [.regs, .mgmt, .counts, .ctx] s t) ∧
    (∀ st, CtxRuns s 3 1 true w → s.liveStop d = some st →
      Completes .storeLive s fun t => Answered .context w st 0 0 0 s t ∧ t.ctx = { s.ctx with cmdBad := false, cmdSeen := [] } ∧
        SameBut [.regs, .mgmt, .ctx] s t)

/-- A CONTEXT_READ STORED that finds the key and reads clean words copies the records to the context buffer, zeros
after them, and completes OK; if a word is poisoned it completes POISON. CONTEXT_READ LIVE does the same with the
present trained state of the group's lanes, or completes with the status that stops it. CLEAR_ALL empties the
directory, frees every slot that no fetch is reading and clears every PIN. -/
def Obligations.ContextReadsFillTheBuffer : Prop :=
  ∀ (s : State) (w : List Nat),
    let peer := cmdWord w 1
    let d := cmdWord w 2 % 256
    (∀ (way i : Nat) (e : DirEntry), CtxRuns s 4 0 true w → s.lookupKey peer d = .hit way i e → s.ctx.cmdBad = false →
      let bs := (s.looked.readSlot e.slot 3 (2048 * descSize d) s.ctx.cmdSeen).2
      (bs.any (·.poison) = false → Completes .contextReadStored s fun t =>
        Answered .context w .ok 0 0 0 s t ∧ (∀ k, k < 16384 → t.ctx.buf.get .unwritten k = bs.getD k .zero) ∧
        SameBut [.regs, .mgmt, .counts, .ctx] s t) ∧
      (bs.any (·.poison) = true → Completes .contextReadStored s fun t =>
        Answered .context w .poison 0 0 0 s t ∧ (∀ k, k < 16384 → t.ctx.buf.get .unwritten k = bs.getD k .zero) ∧
        SameBut [.regs, .mgmt, .counts, .ctx] s t)) ∧
    (CtxRuns s 4 1 false w → s.liveStop d = none → Completes .contextReadLive s fun t =>
      Answered .context w .ok 0 0 0 s t ∧
      (∀ k, k < 16384 → t.ctx.buf.get .unwritten k = ⟨BitVec.ofNat 8 ((s.liveImage peer d).getD k 0), false⟩) ∧
      SameBut [.regs, .mgmt, .ctx] s t ∧ RegsBut [INTC.SRC_COUNT.f 0 294] s t) ∧
    (∀ st, CtxRuns s 4 1 false w → s.liveStop d = some st → Completes .contextReadLive s fun t =>
      Answered .context w st 0 0 0 s t ∧ t.ctx = { s.ctx with cmdBad := false, cmdSeen := [] } ∧ SameBut [.regs, .mgmt, .ctx] s t) ∧
    (CtxRuns s 3 6 false w → Completes .clearAll s fun t =>
      Answered .context w .ok 0 0 0 s t ∧ t.ctx.entries = 0 ∧ (∀ way i, t.ctx.entry way i = .zero) ∧
      (∀ j, s.fetching j = false → (∀ p ∈ s.ctx.lines, p.2.slot = j → p.2.st ≠ .inUse) → t.ctx.used.get false j = false) ∧
      (∀ l, (t.line l).pin = false ∧ (t.line l).st ≠ .valid) ∧ t.ctx.buf = s.ctx.buf ∧ t.ctx.lineMem = s.ctx.lineMem ∧
      SameBut [.regs, .mgmt, .ctx] s t ∧ RegsBut [INTC.SRC_COUNT.f 0 294] s t)

/-- An APPLY_NOW that can run, for a group with no apply under way that is not skipped and whose dies are up, starts
an apply of the stored slot that answers the command when it ends, reading the cache line that holds the slot if there
is one, which is then in use. For a descriptor that is not a current group it completes APPLY_FAILED with result 2. -/
def Obligations.ApplyNowStartsAnApply : Prop :=
  ∀ (s : State) (w : List Nat), CtxRuns s 3 5 false w →
    let peer := cmdWord w 1
    let d := cmdWord w 2 % 256
    (∀ (way i : Nat) (e : DirEntry), s.ctx.applies = [] → s.isGroup d = true → s.skippedGroup d = false →
      (∀ n ∈ descLanes d, s.dieUp (n / 4) = true) → s.lookupKey peer d = .hit way i e → Completes .applyNow s fun t =>
        t.ctx.applies = [⟨peer, d, e.slot, s.lineOf e.slot, false, some w, .reading, [], false, false, [], [], false, s.time.tick, false,
          false, false⟩] ∧
        (∀ l, s.lineOf e.slot = some l → (t.line l).st = .inUse) ∧ t.ident (descStart d) = none ∧
        SameBut [.regs, .counts, .ctx] s t ∧ RegsBut (perfFlds 0) s t) ∧
    (s.ctx.applies.all (fun x => decide (x.cmd ≠ some w)) = true → s.isGroup d = false → Completes .applyNow s fun t =>
      Answered .context w .applyFailed 2 0 0 s t ∧ t.get (CTX.APPLY_STAT_RESULT.f 0 (s.resultGroup d)) = 2 ∧
      t.getB (CTX.APPLY_STAT_FAIL.f 0 (s.resultGroup d)) = true ∧ SameBut [.regs, .mgmt, .counts] s t)

/-- With the records of the active apply clean and well formed and no apply before it in the order of reading,
APPLY_RECORDS_READ puts them into the apply buffers and starts their transfer to the lanes that are not skipped; a
slot of which a word was corrected is noted for its rewrite where the placement engine is on. APPLY_TRANSFER_DONE with
a lane left lets the lanes take their state. CONTEXT_APPLIED on a lane that is still due and not skipped stamps the
lane with the present tick, notes that a context has been applied to it, holds the record's transmit state for the
lane's next transmit boundary, and takes the lane out of the lanes that are left. ID_TIMEOUT of a group whose
identification has not started an apply, with a lane in IDWAIT, ends the identification with result 8, sets FAIL, and
leaves none of the group's lanes in IDWAIT; with no lane left there it is abandoned without a result. If an apply is
under way for it, or no identification is, nothing changes. -/
def Obligations.ApplyPhasesAndIdentificationTimeout : Prop :=
  ((∀ (s : State) (g : Fin 8) (x : Apply), s.activeApply g = some x → s.mayRead x = true → x.bad = [] →
     let fixed := x.line.isNone && s.slotFixed x.slot (2048 * descSize x.desc)
     let r := s.readRecords x
     let lanes := (descLanes x.desc).filter (fun n => !r.1.skippedLane n)
     r.2.any (·.poison) = false → recordsOk (r.2.map (·.val.toNat)) x.peer x.desc = true → Completes (.applyRecordsRead g) s fun t =>
       t.activeApply g = some { x with phase := .transfer, left := lanes, skipped := decide (lanes.length < descSize x.desc), corrected := fixed } ∧
       (fixed = true → s.placeEn = true → (x.slot, x.peer, x.desc) ∈ t.ctx.reloc) ∧
       (∀ k, k < r.2.length → t.ctx.applyBuf.get .unwritten (2048 * descStart x.desc + k) = r.2.getD k .unwritten) ∧
       (∀ n ∈ lanes, (t.lane n).loading = true) ∧ LanesBut lanes s t ∧
       SameBut [.regs, .counts, .lanes, .mem, .ctx] s t) ∧
   (∀ (s : State) (g : Fin 8) (x : Apply), s.activeApply g = some x → x.phase = .transfer → x.waitSwap = false → x.left ≠ [] →
     Completes (.applyTransferDone g) s fun t => t.activeApply g = some { x with phase := .taking } ∧
       t.ctx.lineMem = s.ctx.lineMem ∧ t.ctx.buf = s.ctx.buf ∧ SameBut [.ctx] s t) ∧
   (∀ (s : State) (n : Lane) (x : Apply), s.findApply (fun y => decide (y.phase = .taking) && y.left.contains n.val) = some x →
     s.skippedLane n = false → (s.lane n).restartDue = none → x.left.erase n ≠ [] → s.ctx.applies = [x] →
     let b := (s.ctx.applyBuf.getRun .unwritten (2048 * n.val) 2048).map (·.val.toNat)
     Completes (.contextApplied n) s fun t =>
       (t.lane n).tx.txLoad = some (trainedFrom b, decide (descStart x.desc = n.val)) ∧
       t.get (TIME.CTXAPP_TICK_LO.f 0 n) = s.time.tick % 2 ^ 32 ∧ n.val ∈ t.ctx.applied ∧
       t.ctx.applies = [{ x with left := x.left.erase n, stamped := true }] ∧ LanesBut [n.val] s t ∧
       SameBut [.freeCtr, .regs, .counts, .lanes, .pools, .ports, .hosts, .dies, .bcn, .ctx] s t)) ∧
  ((∀ (s : State) (g : Fin 8) (i : Ident), s.ident g = some i → i.applying = false → s.waiting g = true → Completes (.idTimeout g) s fun t =>
       t.get (CTX.APPLY_STAT_RESULT.f 0 g) = 8 ∧ t.getB (CTX.APPLY_STAT_FAIL.f 0 g) = true ∧
       t.get (CTX.APPLY_PEER_PEER_ID.f 0 g) = 0 ∧ (∀ n ∈ descLanes (s.descOf g), t.rx n ≠ .idwait) ∧
       t.ident (descStart (s.descOf g)) = none ∧
       SameBut [.regs, .counts, .lanes, .pools, .dies, .ctx] s t) ∧
   (∀ (s : State) (g : Fin 8) (i : Ident), s.ident g = some i → i.applying = false → s.waiting g = false →
     Completes (.idTimeout g) s fun t => t.ctx = { s.ctx with idents := s.ctx.idents.erase g } ∧ SameBut [.ctx] s t) ∧
   (∀ (s : State) (g : Fin 8), s.ident g = none → exec (.idTimeout g) s = .next s) ∧
   (∀ (s : State) (g : Fin 8) (i : Ident), s.ident g = some i → i.applying = true → exec (.idTimeout g) s = .next s))

/-- With D0 out of reset, a GROUP_CFG value that keeps the nesting and mixes no parked with unparked lanes is written;
any other one sets CFG_REFUSED and leaves the grouping. The apply of a group that the write dissolves, not yet
stamped, and the one queued behind it end with result 2. A HASH_SEED write is taken while the directory is empty, and
otherwise sets CFG_REFUSED and leaves the seed. -/
def Obligations.GroupingAndHashSeed : Prop :=
  (∀ (s : State) (v : Word), s.d0Up = true → groupCfgOk (v.toNat % 128) = true → (s.setGroups (v.toNat % 128)).mixedParking = false →
    s.ctx.applies = [] → s.ctx.idents = [] → Completes (.groupCfgWrite v) s fun t =>
      t.get CTX.GROUP_CFG_J2.f = bitField v.toNat 0 4 ∧ t.get CTX.GROUP_CFG_J4.f = bitField v.toNat 4 2 ∧
      t.get CTX.GROUP_CFG_J8.f = bitField v.toNat 6 1 ∧ t.ctx = s.ctx ∧ SameBut [.regs, .bcn, .syn] s t) ∧
  (∀ (s : State) (v : Word) (x z : Apply), s.d0Up = true → groupCfgOk (v.toNat % 128) = true →
    (s.setGroups (v.toNat % 128)).mixedParking = false → s.ctx.applies = [x, z] → s.ctx.idents = [] → x.phase ≠ .queued →
    z.phase = .queued → x.stamped = false → z.stamped = false → descStart z.desc = descStart x.desc →
    (s.setGroups (v.toNat % 128)).isGroup x.desc = false → (s.setGroups (v.toNat % 128)).isGroup z.desc = false →
    Completes (.groupCfgWrite v) s fun t =>
      t.ctx.applies = [] ∧ t.get (CTX.APPLY_STAT_RESULT.f 0 (t.resultGroup x.desc)) = 2 ∧
      t.getB (CTX.APPLY_STAT_FAIL.f 0 (t.resultGroup x.desc)) = true) ∧
  (∀ (s : State) (v : Word), s.d0Up = true →
    (groupCfgOk (v.toNat % 128) = false ∨ (s.setGroups (v.toNat % 128)).mixedParking = true) → Completes (.groupCfgWrite v) s fun t =>
      t.srcLevel 296 = true ∧ OnlyRegs (evFlds 296) s t) ∧
  (∀ (s : State) (v : Word), s.d0Up = true → s.ctx.entries = 0 → Completes (.hashSeedWrite v) s fun t =>
    t.seed = v.toNat ∧ OnlyRegs [CTX.HASH_SEED.f] s t) ∧
  (∀ (s : State) (v : Word), s.d0Up = true → s.ctx.entries ≠ 0 → Completes (.hashSeedWrite v) s fun t =>
    t.seed = s.seed ∧ t.srcLevel 296 = true ∧ OnlyRegs (evFlds 296) s t)

/-- With the placement engine on, prefetching enabled and background work not throttled, a placement tick with one
schedule entry to mark, whose key is stored and not in the cache, marks the entry and starts a fill of the victim line
from the slot. A fill that ends with its words clean and its records well formed under the key that holds the slot
makes the line VALID with the slot's bytes; any other frees the line. A relocation of a stored slot to a free one
moves the entry and raises the relocation event; with no slot free and no fetch of the slot under way it is rewritten
in place. -/
def Obligations.PlacementAndFills : Prop :=
  (∀ (s : State) (p way i l : Nat) (e : DirEntry), s.placeEn = true → s.getB CTX.CTX_CFG_PREFETCH_EN.f = true → s.d0Up = true →
    s.throttled = false → s.prefetchable = [p] →
    s.lookupKey (entryOperand (s.pos p).bytes) (entryGroup (s.pos p).bytes) = .hit way i e → s.holds e.slot = false →
    s.victim = some l → Completes .placementTick s fun t =>
      p ∈ t.ctx.marked ∧ (t.line l).st = .filling ∧ (t.line l).slot = e.slot ∧ (t.line l).due = entryTime (s.pos p).bytes ∧
      (∀ m, m ≠ l → t.line m = s.line m) ∧ t.ctx.w0 = s.ctx.w0 ∧ t.ctx.w1 = s.ctx.w1 ∧ t.ctx.stash = s.ctx.stash ∧
      SameBut [.regs, .counts, .ctx, .therm] s t) ∧
  (∀ (s : State) (l : Fin 256), (s.line l).st = .filling → s.memServes = true → s.ctx.freeLater = [] →
    let r := (s.readSlot (s.line l).slot 4 16384 (s.line l).seen).2
    let bytes := r.map (·.val.toNat)
    let good (peer d : Nat) : Prop := (s.line l).bad = false ∧ descOk d = true ∧
      (r.take (2048 * descSize d)).any (·.poison) = false ∧ recordsOk bytes peer d = true
    (∀ peer d, s.ctx.keyOf (s.line l).slot = some (peer, d) → good peer d → Completes (.cacheFillDone l) s fun t =>
        (t.line l).st = .valid ∧ (t.line l).slot = (s.line l).slot ∧
        (∀ k, k < 16384 → t.ctx.lineMem.get .unwritten (16384 * l + k) = r.getD k .unwritten) ∧
        SameBut [.regs, .counts, .ctx] s t) ∧
    ((∀ peer d, s.ctx.keyOf (s.line l).slot = some (peer, d) → ¬good peer d) → Completes (.cacheFillDone l) s fun t =>
      t.line l = .fresh ∧ t.ctx.lineMem = s.ctx.lineMem ∧
      SameBut [.regs, .counts, .ctx] s t)) ∧
  (∀ (s : State) (slot j peer d way i : Nat) (e : DirEntry),
    s.ctx.reloc.find? (fun r => decide (r.1 = slot)) = some (slot, peer, d) → s.placeEn = true → s.memServes = true →
    s.lookupKey peer d = .hit way i e → e.slot = slot → s.freeSlot = some j → Completes (.relocated slot) s fun t =>
      t.ctx.entry way i = { e with slot := j } ∧ t.srcLevel 298 = true ∧ t.ctx.reloc = s.ctx.reloc.erase (slot, peer, d) ∧
      SameBut [.regs, .mem, .ctx] s t ∧ RegsBut (evFlds 298) s t) ∧
  (∀ (s : State) (slot peer d way i : Nat) (e : DirEntry),
    s.ctx.reloc.find? (fun r => decide (r.1 = slot)) = some (slot, peer, d) → s.placeEn = true → s.memServes = true →
    s.lookupKey peer d = .hit way i e → e.slot = slot → s.freeSlot = none → s.fetching slot = false →
    Completes (.relocated slot) s fun t =>
      t.ctx = { s.ctx with reloc := s.ctx.reloc.erase (slot, peer, d) } ∧ t.srcLevel 298 = true ∧
      (∀ k, k < 2048 → s.mem.failed = false → t.d3Word (slotAddr slot + 8 * k) =
        ⟨(s.d3Word (slotAddr slot + 8 * k)).val % 2 ^ 64, false, true, .clean⟩) ∧
      SameBut [.regs, .mem, .ctx] s t ∧ RegsBut (evFlds 298) s t)

/-- A FILL at the head of the memory engine over an allowed range completes OK with the range zero: the staging buffer
if the loader is not busy, the context buffer if no context command uses it, the capture ring if the device has GDDR7
that serves. It completes BUSY or NO_MEMORY otherwise, with the memory as before. -/
def Obligations.FillWritesZeros : Prop :=
  ∀ (s : State) (w : List Nat), s.headIs .memory 2 0 = some w → fillRangeOk (cmdWord w 1) (cmdWord w 2) = true →
    let a := cmdWord w 1
    let len := cmdWord w 2
    (0x000E8000 ≤ a → a < 0x80000000 → s.getB LOADER.STATUS_BUSY.f = false → Completes .fill s fun t =>
      (∀ k, t.loader.staging.get .unwritten k = if a - 0x000E8000 ≤ k ∧ k < a - 0x000E8000 + len then .zero
        else s.loader.staging.get .unwritten k) ∧
      Answered .memory w .ok 0 0 0 s t ∧ SameBut [.regs, .mgmt, .loader] s t ∧ RegsBut [INTC.SRC_COUNT.f 0 294] s t) ∧
    (0x000E8000 ≤ a → a < 0x80000000 → s.getB LOADER.STATUS_BUSY.f = true → Completes .fill s fun t =>
      Answered .memory w .busy 0 0 0 s t ∧ SameBut [.regs, .mgmt] s t ∧ RegsBut [INTC.SRC_COUNT.f 0 294] s t) ∧
    (a < 0x000E8000 → s.bufferHeld = false → Completes .fill s fun t =>
      (∀ k, t.ctx.buf.get .unwritten k = if a - 0x00034000 ≤ k ∧ k < a - 0x00034000 + len then .zero
        else s.ctx.buf.get .unwritten k) ∧
      Answered .memory w .ok 0 0 0 s t ∧ SameBut [.regs, .mgmt, .ctx] s t ∧ RegsBut [INTC.SRC_COUNT.f 0 294] s t) ∧
    (a < 0x000E8000 → s.bufferHeld = true → Completes .fill s fun t =>
      Answered .memory w .busy 0 0 0 s t ∧ SameBut [.regs, .mgmt] s t ∧ RegsBut [INTC.SRC_COUNT.f 0 294] s t) ∧
    (0x80000000 ≤ a → s.hasD3 = false → Completes .fill s fun t =>
      Answered .memory w .noMemory 0 0 0 s t ∧ SameBut [.regs, .mgmt] s t ∧ RegsBut [INTC.SRC_COUNT.f 0 294] s t) ∧
    (0x80000000 ≤ a → s.memServes = true → s.memDown = false → s.mem.failed = false → Completes .fill s fun t =>
      (∀ k, k < len / 8 → t.d3Word (a + 8 * k) = ⟨0, false, true, .clean⟩) ∧
      (∀ b, 0x40000000 ≤ b → (b < a ∨ a + len ≤ b) → b % 8 = 0 → t.d3Word b = s.d3Word b) ∧
      Answered .memory w .ok 0 0 0 s t ∧ SameBut [.regs, .mgmt, .mem] s t ∧ RegsBut [INTC.SRC_COUNT.f 0 294] s t)

/-- ADD of a valid entry at least 2 microseconds ahead to a position that is not due makes the position PENDING with
the bytes of SCHED_BUF and returns it; an invalid entry completes BAD_ENTRY, one too early TOO_SOON, a due position
DUE, a table without an EMPTY position FULL. REMOVE empties a position that is not due. READ of a position that is not
EMPTY copies its bytes to SCHED_BUF, and of an EMPTY one completes EMPTY. PURGE empties every FIRED and SKIPPED
position. Other positions stand. -/
def Obligations.ScheduleCommands : Prop :=
  ∀ (s : State) (w : List Nat),
    let b := s.schedBuf
    let answered (st : Status) (t : State) : Prop := Answered .schedule w st 0 0 0 s t ∧ SameBut [.regs, .mgmt] s t ∧
      RegsBut [INTC.SRC_COUNT.f 0 294] s t
    (s.headIs .schedule 5 0 = some w →
      (entryOk b = false → Completes .add s (answered .badEntry)) ∧
      (entryOk b = true → s.addPos (cmdWord w 1) = none → Completes .add s (answered .full)) ∧
      ∀ p, entryOk b = true → s.addPos (cmdWord w 1) = some p →
        (entryTime b < s.now + dueUnits → Completes .add s (answered .tooSoon)) ∧
        (s.now + dueUnits ≤ entryTime b → s.due p = true → Completes .add s (answered .due)) ∧
        (s.now + dueUnits ≤ entryTime b → s.due p = false → Completes .add s fun t =>
          t.pos p = { st := 1, reason := 0, bytes := b, poison := false } ∧ (∀ q, q ≠ p → t.pos q = s.pos q) ∧
          Answered .schedule w .ok 0 p 0 s t ∧ SameBut [.regs, .mgmt, .sched, .ctx] s t ∧ RegsBut [INTC.SRC_COUNT.f 0 294] s t)) ∧
    (s.headIs .schedule 5 1 = some w →
      (s.due (cmdWord w 1) = true → Completes .scheduleRemove s (answered .due)) ∧
      (s.due (cmdWord w 1) = false → Completes .scheduleRemove s fun t =>
        t.pos (cmdWord w 1) = .empty ∧ (∀ q, q ≠ cmdWord w 1 → t.pos q = s.pos q) ∧ Answered .schedule w .ok 0 0 0 s t ∧
        SameBut [.regs, .mgmt, .sched, .ctx] s t ∧ RegsBut [INTC.SRC_COUNT.f 0 294] s t)) ∧
    (s.headIs .schedule 5 2 = some w →
      ((s.pos (cmdWord w 1)).st = 0 → Completes .scheduleRead s (answered .empty)) ∧
      ((s.pos (cmdWord w 1)).st ≠ 0 → Completes .scheduleRead s fun t =>
        (∀ i, i < 4 → t.get (TIME.SCHED_BUF_ENTRY.f 0 i) =
          leNat (span (s.pos (cmdWord w 1)).bytes (4 * i) (4 * i + 3)) % 2 ^ 32) ∧
        Answered .schedule w .ok 0 0 0 s t ∧ SameBut [.regs, .mgmt] s t ∧
        RegsBut (INTC.SRC_COUNT.f 0 294 :: (List.range 4).map fun i => TIME.SCHED_BUF_ENTRY.f 0 i) s t)) ∧
    (s.headIs .schedule 5 3 = some w → SMap.rising s.sched.pos = true → Completes .purge s fun t =>
      (∀ q, t.pos q = if 2 ≤ (s.pos q).st then .empty else s.pos q) ∧ Answered .schedule w .ok 0 0 0 s t ∧
      SameBut [.regs, .mgmt, .sched] s t ∧ RegsBut [INTC.SRC_COUNT.f 0 294] s t)

/-- SCHEDULE_DUE draws the earliest position that is due and not drawn into the due queue. SCHEDULE_TRIGGER of a clean
position that may be evaluated makes it SKIPPED with reason 2 if it is disabled, 1 if its EPOCH tag differs from EPOCH
and 3 with a trigger stamp if its region blocks it; otherwise it becomes FIRED with the trigger stamped, and its
action runs: a SQUELCH entry sets the SCHED reason of each served lane it names, a PULSE entry begins a pulse of the
line's armed WIDTH on each line it names. -/
def Obligations.ScheduleTriggersOnTime : Prop :=
  (∀ (s : State) (p : Nat), s.nextDue = some p → s.cclkRuns = true → Completes .scheduleDue s fun t =>
    t.sched.dueQ = s.sched.dueQ ++ [p] ∧ t.sched.pos = s.sched.pos ∧ SameBut [.sched] s t) ∧
  (∀ (s : State) (p : Nat), s.mayTrigger p = true → (s.pos p).poison = false →
    let b := (s.pos p).bytes
    let stamped (t : State) : Prop := t.get TIME.LAST_TRIG_POS.f = p % 2 ^ 12 ∧
      t.get TIME.LAST_TRIG_TICK_LO.f = s.time.tick % 2 ^ 32 ∧ t.get TIME.LAST_TRIG_TICK_HI.f = s.time.tick / 2 ^ 32 % 2 ^ 32
    (entryEnable b = false → Completes (.scheduleTrigger p) s fun t => t.pos p = { s.pos p with st := 3, reason := 2 } ∧
      (∀ q, q ≠ p → t.pos q = s.pos q) ∧ t.srcLevel 309 = true ∧ SameBut [.regs, .counts, .sched] s t ∧
      RegsBut (evFlds 309 ++ perfFlds 0) s t) ∧
    (entryEnable b = true → entryEpoch b ≠ s.get TIME.TIME_STAT_EPOCH.f % 16 → Completes (.scheduleTrigger p) s fun t =>
      t.pos p = { s.pos p with st := 3, reason := 1 } ∧ (∀ q, q ≠ p → t.pos q = s.pos q) ∧ t.srcLevel 309 = true ∧
      SameBut [.regs, .counts, .sched] s t ∧ RegsBut (evFlds 309 ++ perfFlds 0) s t) ∧
    (entryEnable b = true → entryEpoch b = s.get TIME.TIME_STAT_EPOCH.f % 16 → s.regionBlocks b = true → entryAction b ≠ 1 →
      Completes (.scheduleTrigger p) s fun t => t.pos p = { s.pos p with st := 3, reason := 3 } ∧ stamped t ∧
        SameBut [.regs, .counts, .sched] s t) ∧
    (entryEnable b = true → entryEpoch b = s.get TIME.TIME_STAT_EPOCH.f % 16 → s.regionBlocks b = false →
      (Completes (.scheduleTrigger p) s fun t => t.pos p = { s.pos p with st := 2 } ∧ stamped t ∧
        (entryAction b = 2 → ∀ n ∈ descLanes (entryGroup b), s.laneServed n = true → bitAt (t.reasons n) 2 = true) ∧
        (entryAction b = 5 → ∀ j, j < 4 → bitAt (entryOperand b) j = true →
          (t.trigLine j).pulses = (s.trigLine j).pulses ++ [(s.trigLine j).width]))))

/-- With D0 out of reset, ARM of a line whose configuration is refused sets CFG_ERR of the line and leaves it in mode
0; otherwise the line takes MODE, START, PERIOD, WIDTH, COUNT and POL. When the instant of the next pulse of an armed
line is reached, the pulse index advances and a pulse of WIDTH is under way; a single-shot line is then no longer
armed. TRIG_PULSE_END ends the oldest pulse. The other lines stand. -/
def Obligations.TriggerLines : Prop :=
  (∀ (s : State) (j : Fin 4), s.d0Up = true →
    let m := s.get (TIME.TRIG_CTL_MODE.f 0 j)
    ((m = 1 ∨ m = 2) ∧ s.armRefused j = true → Completes (.arm j) s fun t => (t.trigLine j).mode = 0 ∧
      t.getB (TIME.TRIG_CTL_ARMED.f 0 j) = false ∧ t.srcLevel (310 + j) = true ∧
      (∀ i, i ≠ j.val → t.trigLine i = s.trigLine i) ∧ SameBut [.regs, .trig] s t ∧
      RegsBut (TIME.TRIG_CTL_ARMED.f 0 j :: evFlds (310 + j)) s t) ∧
    (¬((m = 1 ∨ m = 2) ∧ s.armRefused j = true) → Completes (.arm j) s fun t =>
      (t.trigLine j).mode = m ∧ (t.trigLine j).start = s.trigStart j ∧ (t.trigLine j).period = s.trigPeriod j ∧
      (t.trigLine j).width = s.get (TIME.TRIG_WIDTH.f 0 j) ∧ (t.trigLine j).count = s.get (TIME.TRIG_COUNT.f 0 j) ∧
      (t.trigLine j).pol = s.getB (TIME.TRIG_CTL_POL.f 0 j) ∧
      (t.trigLine j).pulses = (s.trigLine j).pulses ∧ t.getB (TIME.TRIG_CTL_ARMED.f 0 j) = (t.trigLine j).armed ∧
      (∀ i, i ≠ j.val → t.trigLine i = s.trigLine i) ∧ SameBut [.regs, .trig] s t ∧ RegsBut [TIME.TRIG_CTL_ARMED.f 0 j] s t)) ∧
  (∀ (s : State) (j : Fin 4), s.cclkRuns = true → (s.trigLine j).armed = true →
    (s.trigLine j).instant (s.trigLine j).next ≤ s.now → Completes (.trigPulse j) s fun t =>
      t.trigLine j = { s.trigLine j with next := (s.trigLine j).next + 1
                                         pulses := (s.trigLine j).pulses ++ [(s.trigLine j).width] } ∧
      ((s.trigLine j).mode = 1 → t.getB (TIME.TRIG_CTL_ARMED.f 0 j) = false) ∧
      (∀ i, i ≠ j.val → t.trigLine i = s.trigLine i) ∧ SameBut [.regs, .trig, .hk] s t) ∧
  (∀ (s : State) (j : Fin 4), Completes (.trigPulseEnd j) s fun t =>
    t.trigLine j = { s.trigLine j with pulses := (s.trigLine j).pulses.drop 1 } ∧
    (∀ i, i ≠ j.val → t.trigLine i = s.trigLine i) ∧ SameBut [.trig] s t)

/-- With no capture under way on the die, CAPTURE and CAPTURE_START begin the head CAPTURE if nothing stops it, and
complete it with the status that does otherwise; with one under way they change nothing. CAPTURE_TRIGGER after the
trigger event and CAPTURE_TIMEOUT before it end the wait. CAPTURE_COMPLETE of a capture whose words are all stored to
the capture ring, with GDDR7 serving, no apply reading it and no throttling, places the record, advances the ring and
completes OK with the place and the size, and the die is free; to the lane's window it completes OK with the size.
Before that, and while the drain waits, it changes nothing. -/
def Obligations.CapturesRunOnTheirDie : Prop :=
  (∀ (s : State) (d : LineDie) (w : List Nat), s.headOf (.capture d) = some w → (s.die d).capture = none →
    let n := bitField (cmdWord w 1) 0 3
    let started (t : State) : Prop := (t.die d).capture = some (captureOf w s.time.tick (s.rx n).code) ∧
      (t.die d).inReset = (s.die d).inReset ∧ (∀ e, e ≠ d.val → t.die e = s.die e) ∧ SameBut [.dies] s t
    let ended (st : Status) (t : State) : Prop := Answered (.capture d) w st 0 0 0 s t ∧ SameBut [.regs, .mgmt] s t
    (s.captureStop n (bitField (cmdWord w 1) 8 1) = none →
      Completes (.capture d) s started ∧ Completes (.captureStart d) s started) ∧
    (∀ st, s.captureStop n (bitField (cmdWord w 1) 8 1) = some st →
      Completes (.capture d) s (ended st) ∧ Completes (.captureStart d) s (ended st))) ∧
  (∀ (s : State) (d : LineDie) (c : CaptureSt), (s.die d).capture = some c →
    exec (.capture d) s = .next s ∧ exec (.captureStart d) s = .next s ∧
    (∀ tick, c.ended = false → c.event = some tick → Completes (.captureTrigger d) s fun t =>
      (t.die d).capture = some { c with ended := true, triggered := true, trigTick := tick } ∧
      (∀ e, e ≠ d.val → t.die e = s.die e) ∧ SameBut [.dies] s t) ∧
    (c.ended = true ∨ c.timeout = 0 ∨ c.event ≠ none → exec (.captureTimeout d) s = .next s) ∧
    (c.ended = false → c.timeout ≠ 0 → c.event = none → Completes (.captureTimeout d) s fun t =>
      (t.die d).capture = some { c with ended := true, triggered := false, trigTick := 0, preActual := c.words.length,
                                        stateAt := (s.rx c.lane).code } ∧
      (∀ e, e ≠ d.val → t.die e = s.die e) ∧ SameBut [.dies] s t) ∧
    (c.full = false ∨ s.drainWaits c = true → exec (.captureComplete d) s = .next s) ∧
    (∀ w, c.full = true → s.drainWaits c = false → s.headOf (.capture d) = some w →
      (c.dest = 0 → s.throttled = false → Completes (.captureComplete d) s fun t =>
        Answered (.capture d) w .ok 0 (ringPlace s.mem.ringOff (recordSize c)) (recordSize c) s t ∧
        (t.die d).capture = none ∧ t.mem.ringOff = ringPlace s.mem.ringOff (recordSize c) + recordSize c ∧
        (s.mem.failed = false → ∀ k, k < 8 →
          t.d3Word (0x80000000 + ringPlace s.mem.ringOff (recordSize c) + 8 * k) =
            ⟨leNat ((((captureHeader c (recordSize c)).drop (8 * k)).take 8).map (· % 256)), false, true, .clean⟩) ∧
        SameBut [.freeCtr, .regs, .mgmt, .dies, .mem, .therm] s t) ∧
      (c.dest ≠ 0 → Completes (.captureComplete d) s fun t =>
        Answered (.capture d) w .ok 0 0 (recordSize c) s t ∧ (t.die d).capture = none ∧ t.mem = s.mem ∧
        (∀ k, k < 64 → (t.lane c.lane).capWin.get 0 k = BitVec.ofNat 8 ((captureHeader c (recordSize c)).getD k 0)) ∧
        LanesBut [c.lane] s t ∧ SameBut [.freeCtr, .regs, .mgmt, .lanes, .dies] s t)))

/-- With no TIME_ACCEPT waiting, ACCEPT with a step pending makes it due at the next segment boundary, and with none
pending completes NOTHING_PENDING; SET makes a step to the loaded time due. Nothing else changes. With CCLK running
and no change of source, a segment boundary with no step due begins a segment at the next multiple of 2^16 ticks whose
time is the old segment's time at that tick, whose rate is FREQ plus the servo's phase term (0 without a source), and
which RATE_ADJ shows. With a TIME_ACCEPT SET waiting, the new segment's time is the loaded time, EPOCH advances (or
takes the frame's under Sumac), TIME_SET is 1 and the command completes OK. -/
def Obligations.TimeStepsAtSegmentBoundaries : Prop :=
  (∀ (s : State) (w : List Nat), s.time.waiting = false →
     (s.headIs .time 10 0 = some w →
       (s.getB TIME.TIME_STAT_STEP_PENDING.f = true → Completes .accept s fun t =>
         t.time = { s.time with step := some .accept, waiting := true } ∧ SameBut [.time] s t) ∧
       (s.getB TIME.TIME_STAT_STEP_PENDING.f = false → Completes .accept s fun t =>
         Answered .time w .nothingPending 0 0 0 s t ∧ SameBut [.regs, .mgmt] s t ∧ RegsBut [INTC.SRC_COUNT.f 0 294] s t)) ∧
     (s.headIs .time 10 1 = some w → Completes .set s fun t =>
       t.time = { s.time with step := some .load, waiting := true } ∧ SameBut [.time] s t)) ∧
  (∀ s : State, s.cclkRuns = true → s.get TIME.TIME_CFG_SRC.f = s.time.src →
     let tick := s.time.nextBoundary
     let rate := s.getZ TIME.FREQ.f + (if s.actingSrc = 0 then 0 else s.time.q)
     (s.time.step = none → s.time.waiting = false → Completes .segmentBoundary s fun t =>
       t.time.tick = tick ∧ t.time.seg = ⟨tick, s.time.seg.timeAfter (tick - s.time.seg.tick), rate⟩ ∧
       t.time.segs = (t.time.seg :: s.time.segs).take 256 ∧ t.now = s.time.seg.timeAfter (tick - s.time.seg.tick) ∧
       t.get TIME.RATE_RATE_ADJ.f = wordOf 32 rate ∧ SameBut [.regs, .time] s t ∧ RegsBut [TIME.RATE_RATE_ADJ.f] s t) ∧
     (∀ w, s.time.step = some .load → s.time.waiting = true → s.headOf .time = some w → Completes .segmentBoundary s fun t =>
       t.time.tick = tick ∧
       t.time.seg.time = timeOf (s.get TIME.LOAD_SEC_LO.f + 2 ^ 32 * s.get TIME.LOAD_SEC_HI.f) (s.get TIME.LOAD_NS.f)
         (s.get TIME.LOAD_FRAC.f) % timeModulus ∧
       t.get TIME.TIME_STAT_EPOCH.f =
         (if s.actingSrc = 2 then s.time.epochIn else s.get TIME.TIME_STAT_EPOCH.f + 1) % 2 ^ 16 ∧
       t.getB TIME.TIME_STAT_TIME_SET.f = true ∧ t.time.step = none ∧ t.time.waiting = false ∧ Answered .time w .ok 0 0 0 s t ∧
       SameBut [.regs, .mgmt, .counts, .time, .sched, .trig] s t))

/-- With D0 out of reset, SRC and SUMAC_ROLE take the value written, 3 as 0, and a write of the master role drives the
bus; a role write while SRC asks for the SUMAC and no source acts starts its 3 ms (the model's choice). A conflict
seen by a driving master sets SUMAC_CONFLICT and stops it driving. A driving master's frame carries the payload of the
moment and clears the STEP note. SOURCE_LOSS, once under SRC 1 no edge has been used for 1.1 s or three in a row have
gone without a message, or under SRC 2 no good frame has arrived for 3 ms, sets HOLDOVER and SOURCE_LOST, clears
SRC_OK and zeroes the phase term; before that it changes nothing. -/
def Obligations.TimeSourcesAndTheirLoss : Prop :=
  (∀ (s : State) (v : BitVec 2), s.d0Up = true →
    (Completes (.srcWrite v) s fun t => t.get TIME.TIME_CFG_SRC.f = (if v.toNat = 3 then 0 else v.toNat) ∧
      OnlyRegs [TIME.TIME_CFG_SRC.f] s t) ∧
    (Completes (.sumacRoleWrite v) s fun t => t.get TIME.TIME_CFG_SUMAC_ROLE.f = (if v.toNat = 3 then 0 else v.toNat) ∧
      t.getB TIME.TIME_STAT_SUMAC_DRIVING.f = decide (v.toNat = 2) ∧
      t.time = { s.time with heard := if s.time.src = 2 ∧ s.actingSrc = 0 then s.time.tick else s.time.heard } ∧
      SameBut [.regs, .time] s t ∧
      RegsBut [TIME.TIME_CFG_SUMAC_ROLE.f, TIME.TIME_STAT_SUMAC_DRIVING.f] s t)) ∧
  (∀ s : State, s.get TIME.TIME_CFG_SUMAC_ROLE.f = 2 → s.getB TIME.TIME_STAT_SUMAC_DRIVING.f = true →
    (s.d0Up = true → Completes .sumacConflict s fun t => t.srcLevel 306 = true ∧ t.getB TIME.TIME_STAT_SUMAC_DRIVING.f = false ∧
      OnlyRegs (TIME.TIME_STAT_SUMAC_DRIVING.f :: evFlds 306) s t) ∧
    (s.cclkRuns = true → Completes .sumacFrameSend s fun t =>
      t.time = { s.time with frame := s.sumacPayload, stepFlag := false } ∧ t.time.frame.length = 12 ∧ SameBut [.time] s t)) ∧
  (∀ s : State, s.cclkRuns = true → s.getB TIME.TIME_STAT_HOLDOVER.f = false →
    (s.actingSrc = 1 ∧ (1100000000 * 425 ≤ (s.time.tick - s.time.heard) * 256 ∨ s.edgesUnread = true)) ∨
      (s.actingSrc = 2 ∧ 3000000 * 425 ≤ (s.time.tick - s.time.heard) * 256) → Completes .sourceLoss s fun t =>
    t.getB TIME.TIME_STAT_HOLDOVER.f = true ∧ t.getB TIME.TIME_STAT_SRC_OK.f = false ∧ t.srcLevel 303 = true ∧
    t.time = { s.time with q := 0, firstEdge := true } ∧ SameBut [.regs, .time] s t ∧
    RegsBut ([TIME.TIME_STAT_HOLDOVER.f, TIME.TIME_STAT_SRC_OK.f] ++ evFlds 303) s t) ∧
  (∀ s : State, s.sourceGone = false → exec .sourceLoss s = .next s)

/-- An active edge of TIME_PPS under SRC 1 is kept as the newest used edge with its tick and time where it is the
first one, or its local time is 1 s with at most 100 microseconds of difference after that of the last used edge;
otherwise it sets PPS_IGNORED. The other edge, and one under another source, changes nothing. A good message for an
unmeasured edge less than 990 ms old, and a good Sumac frame received by a slave whose master has its time set, give a
measurement: HOLDOVER is 0, SRC_OK 1 and LAST_ERR the error; an error beyond JUMP_LIMIT with the time set makes a step
pending. A bad message sets TOD_BAD and a bad frame SUMAC_BAD, with no measurement. -/
def Obligations.TimeMeasurements : Prop :=
  (∀ (s : State) (rising : Bool), s.cclkRuns = true → s.actingSrc = 1 → rising ≠ s.getB TIME.TIME_CFG_PPS_POL.f →
    s.time.firstEdge = true → Completes (.ppsEdge rising) s fun t =>
      t.time = { s.time with
        edges := (⟨s.time.tick, s.now, s.now - s.time.stepSum, false⟩ :: s.time.edges).take 4, firstEdge := false
        heard := s.time.tick } ∧
      SameBut [.time] s t) ∧
  (∀ (s : State) (rising : Bool) (e : PpsEdge) (es : List PpsEdge), s.cclkRuns = true → s.actingSrc = 1 →
    rising ≠ s.getB TIME.TIME_CFG_PPS_POL.f → s.time.firstEdge = false → s.time.edges = e :: es →
    let d : Int := s.now - s.time.stepSum - e.locl
    ((secUnits : Int) - (100000 * nsUnits : Nat) ≤ d ∧ d ≤ (secUnits : Int) + (100000 * nsUnits : Nat) →
      Completes (.ppsEdge rising) s fun t =>
        t.time = { s.time with
          edges := (⟨s.time.tick, s.now, s.now - s.time.stepSum, false⟩ :: s.time.edges).take 4, heard := s.time.tick } ∧
        SameBut [.time] s t) ∧
    (d < (secUnits : Int) - (100000 * nsUnits : Nat) ∨ (secUnits : Int) + (100000 * nsUnits : Nat) < d →
      Completes (.ppsEdge rising) s fun t => t.srcLevel 307 = true ∧ OnlyRegs (evFlds 307) s t)) ∧
  (∀ (s : State) (rising : Bool), s.actingSrc ≠ 1 ∨ rising = s.getB TIME.TIME_CFG_PPS_POL.f →
    exec (.ppsEdge rising) s = .next s) ∧
  (∀ (s : State) (body : List Byte), s.cclkRuns = true → s.actingSrc = 1 →
    (todSec (body.map (·.toNat)) = none → Completes (.todMessage body) s fun t =>
      t.srcLevel 304 = true ∧ OnlyRegs (evFlds 304) s t) ∧
    (∀ (sec : Nat) (e : PpsEdge), todSec (body.map (·.toNat)) = some sec →
      s.time.edges.find? (fun e => beganAfter s.time.tick e.tick) = some e → e.measured = false →
      s.time.tick - e.tick ≤ 990000000 * 425 / 256 →
      let err : Int := (e.time : Int) - (timeOf sec 0 0 : Nat)
      Completes (.todMessage body) s fun t =>
        t.getB TIME.TIME_STAT_HOLDOVER.f = false ∧ t.getB TIME.TIME_STAT_SRC_OK.f = true ∧
        t.get TIME.LAST_ERR.f = wordOf 32 (errField err) ∧ t.time.measured = true ∧
        (s.getB TIME.TIME_STAT_TIME_SET.f = true → s.jumpLimit < err → t.getB TIME.TIME_STAT_STEP_PENDING.f = true ∧
          t.time.pend = -err ∧ t.srcLevel 301 = true) ∧
        SameBut [.regs, .time] s t)) ∧
  (∀ (s : State) (body : List Byte), s.cclkRuns = true → s.get TIME.TIME_CFG_SUMAC_ROLE.f = 1 →
    let b := body.map (·.toNat)
    let v := beNat (b.take 10)
    (¬(b.length = 12 ∧ crc16 (b.take 10) = beNat (span b 10 11)) → Completes (.sumacFrame body) s fun t =>
      t.srcLevel 305 = true ∧ OnlyRegs (evFlds 305) s t) ∧
    (b.length = 12 → crc16 (b.take 10) = beNat (span b 10 11) → s.actingSrc ≠ 2 ∨ bitAt v 0 = false →
      exec (.sumacFrame body) s = .next s) ∧
    (∀ at0, b.length = 12 → crc16 (b.take 10) = beNat (span b 10 11) → s.actingSrc = 2 → bitAt v 0 = true →
      s.convert (s.time.tick - payloadTicks) = some at0 → Completes (.sumacFrame body) s fun t =>
        t.getB TIME.TIME_STAT_HOLDOVER.f = false ∧ t.getB TIME.TIME_STAT_SRC_OK.f = true ∧
        t.get TIME.LAST_ERR.f = wordOf 32 (errField ((at0 : Int) - s.sumacDelay -
          (timeOf (v / 2 ^ 32) (v / 2 ^ 22 % 1024 * 1000000) 0 : Nat))) ∧
        t.time.measured = true ∧ t.time.heard = s.time.tick ∧ t.time.epochIn = v / 64 % 65536 ∧ SameBut [.regs, .time] s t))

/-- With D0 out of reset, SNAP latches the package time and the tick of the same moment, in the CCLK of a segment
boundary the time before the boundary's step or rate change. A write of CONV_TICK_HI converts the tick it forms with
CONV_TICK_LO: a tick in a kept segment and not later than now gives its time with CONV_VALID 1, any other tick
CONV_VALID 0. -/
def Obligations.TimeReadings : Prop :=
  (∀ s : State, s.d0Up = true → Completes .snap s fun t =>
    t.get TIME.TIME_SEC_LO_SEC_LO.f = timeSec s.snapNow % 2 ^ 32 ∧ t.get TIME.TIME_SEC_HI_SEC_HI.f = timeSec s.snapNow / 2 ^ 32 % 2 ^ 16 ∧
    t.get TIME.TIME_NS_NS.f = timeNs s.snapNow ∧ t.get TIME.TIME_FRAC_FRAC.f = timeFrac s.snapNow ∧
    t.get TIME.TIME_TICK_LO_TICK_LO.f = s.time.tick % 2 ^ 32 ∧ t.get TIME.TIME_TICK_HI_TICK_HI.f = s.time.tick / 2 ^ 32 % 2 ^ 32 ∧
    (∀ g h r, s.time.segs = g :: h :: r → s.snapNow = if g.tick = s.time.tick then h.timeAfter (s.time.tick - h.tick) else s.now) ∧
    OnlyRegs [TIME.TIME_SEC_LO_SEC_LO.f, TIME.TIME_SEC_HI_SEC_HI.f, TIME.TIME_NS_NS.f, TIME.TIME_FRAC_FRAC.f,
      TIME.TIME_TICK_LO_TICK_LO.f, TIME.TIME_TICK_HI_TICK_HI.f] s t) ∧
  (∀ (s : State) (v : Word), s.d0Up = true →
    (∀ x, s.convert (s.get TIME.CONV_TICK_LO.f + 2 ^ 32 * v.toNat) = some x → Completes (.convTickHiWrite v) s fun t =>
      t.getB TIME.CONV_SEC_HI_CONV_VALID.f = true ∧ t.get TIME.CONV_SEC_LO_SEC_LO.f = timeSec x % 2 ^ 32 ∧
      t.get TIME.CONV_SEC_HI_SEC_HI.f = timeSec x / 2 ^ 32 % 2 ^ 16 ∧ t.get TIME.CONV_NS_NS.f = timeNs x ∧
      t.get TIME.CONV_FRAC_FRAC.f = timeFrac x ∧
      OnlyRegs [TIME.CONV_TICK_HI.f, TIME.CONV_SEC_LO_SEC_LO.f, TIME.CONV_SEC_HI_SEC_HI.f, TIME.CONV_NS_NS.f,
        TIME.CONV_FRAC_FRAC.f, TIME.CONV_SEC_HI_CONV_VALID.f] s t) ∧
    (s.convert (s.get TIME.CONV_TICK_LO.f + 2 ^ 32 * v.toNat) = none → Completes (.convTickHiWrite v) s fun t =>
      t.getB TIME.CONV_SEC_HI_CONV_VALID.f = false ∧ t.get TIME.CONV_SEC_LO_SEC_LO.f = s.get TIME.CONV_SEC_LO_SEC_LO.f ∧
      OnlyRegs [TIME.CONV_TICK_HI.f, TIME.CONV_SEC_HI_CONV_VALID.f] s t))

/-- With D0 out of reset, STROBE copies the holding code to the active code of each channel of the groups named, and
of no other; a channel that is enabled, in no span hold and held by no lost rail, with every enabled OE rail good, is
then unclamped and drives its output code; with a rail not good its clamp stays. A SPAN write of another value clamps
the channel and starts its span hold; of the same value it does nothing. The end of a span hold leaves the clamp. The
device's own strobe, when owed after release, ends its own holds and strobes every group. -/
def Obligations.BiasStrobesAndSpanHolds : Prop :=
  (∀ (s : State) (g : BitVec 4) (c : Nat), s.d0Up = true → c < 16 →
    let named := bitAt g.toNat (s.get (HKD.HKD_CFG_GROUP.f 0 c))
    Completes (.strobe g) s fun t =>
      (named = true → t.get (HKD.HKD_STAT_ACTIVE.f 0 c) = s.get (HKD.HKD_CFG_CODE.f 0 c) % 2 ^ 12) ∧
      (named = true → s.getB (HKD.HKD_STAT_SPAN_HOLD.f 0 c) = false → s.getB (HKD.HKD_CFG_ENABLE.f 0 c) = true → s.hk.lost = [] →
        s.oeRailsGood = true →
        t.getB (HKD.HKD_STAT_CLAMPED.f 0 c) = false ∧ t.get (HKD.HKD_STAT_OUT.f 0 c) = t.outCode c) ∧
      (s.hk.lost ≠ [] ∨ s.oeRailsGood = false → t.getB (HKD.HKD_STAT_CLAMPED.f 0 c) = s.getB (HKD.HKD_STAT_CLAMPED.f 0 c)) ∧
      (named = true → s.getB (HKD.HKD_STAT_SPAN_HOLD.f 0 c) = true →
        t.getB (HKD.HKD_STAT_CLAMPED.f 0 c) = s.getB (HKD.HKD_STAT_CLAMPED.f 0 c) ∧ t.srcLevel 318 = true) ∧
      (named = false → t.get (HKD.HKD_STAT_ACTIVE.f 0 c) = s.get (HKD.HKD_STAT_ACTIVE.f 0 c) ∧
        t.get (HKD.HKD_STAT_OUT.f 0 c) = s.get (HKD.HKD_STAT_OUT.f 0 c) ∧
        t.getB (HKD.HKD_STAT_CLAMPED.f 0 c) = s.getB (HKD.HKD_STAT_CLAMPED.f 0 c)) ∧
      SameBut [.regs] s t) ∧
  (∀ (s : State) (c : Fin 16) (v : BitVec 2), s.d0Up = true →
    let span := if v.toNat = 3 then 0 else v.toNat
    (s.get (HKD.HKD_CFG_SPAN.f 0 c) = span → exec (.spanWrite c v) s = .next s) ∧
    (s.get (HKD.HKD_CFG_SPAN.f 0 c) ≠ span → Completes (.spanWrite c v) s fun t =>
      t.get (HKD.HKD_CFG_SPAN.f 0 c) = span ∧ t.getB (HKD.HKD_STAT_CLAMPED.f 0 c) = true ∧
      t.getB (HKD.HKD_STAT_SPAN_HOLD.f 0 c) = true ∧ SameBut [.regs, .hk] s t ∧
      RegsBut [HKD.HKD_CFG_SPAN.f 0 c, HKD.HKD_STAT_CLAMPED.f 0 c, HKD.HKD_STAT_SPAN_HOLD.f 0 c] s t)) ∧
  (∀ (s : State) (c : Fin 16), s.d0Up = true → Completes (.spanHoldEnd c) s fun t =>
    t.getB (HKD.HKD_STAT_SPAN_HOLD.f 0 c) = false ∧ SameBut [.regs, .hk] s t ∧ RegsBut [HKD.HKD_STAT_SPAN_HOLD.f 0 c] s t) ∧
  (∀ (s : State), s.d0Up = true → s.loader.coreEntry.isSome = true → 0 < s.hk.bias →
    (∀ c, c < 16 → s.get (HKD.HKD_CFG_GROUP.f 0 c) < 4) → Completes .biasStrobe s fun t =>
    t.hk.bias = s.hk.bias - 1 ∧
    (∀ c, c < 16 → t.get (HKD.HKD_STAT_ACTIVE.f 0 c) = s.get (HKD.HKD_CFG_CODE.f 0 c) % 2 ^ 12) ∧
    (∀ c ∈ s.hk.ownHold, t.getB (HKD.HKD_STAT_SPAN_HOLD.f 0 c) = false) ∧ SameBut [.regs, .hk] s t)

/-- While CCLK runs, each DITHER_UPDATE advances the four phase accumulators by PHASE_INC modulo 2^24, each channel's
contribution follows the generators aimed at it, and every channel that is not clamped drives its output code while a
clamped one keeps its. SYNC sets the accumulators of the generators named to 0 and leaves the others. A TARGET write
stores the channel, or 255 for any other value, and sets that accumulator to 0. -/
def Obligations.DitherGenerators : Prop :=
  (∀ s : State, s.cclkRuns = true → Completes .ditherUpdate s fun t =>
    (∀ g, g < 4 → t.hk.acc.get 0 g = (s.hk.acc.get 0 g + s.get (HKD.SINE_INC_PHASE_INC.f 0 g)) % 2 ^ 24) ∧
    (∀ c, c < 16 → t.get (HKD.HKD_STAT_OUT.f 0 c) =
      if s.getB (HKD.HKD_STAT_CLAMPED.f 0 c) then s.get (HKD.HKD_STAT_OUT.f 0 c) else t.outCode c) ∧
    (∀ c, c < 16 → t.hk.dith.get 0 c = t.dithers c) ∧
    SameBut [.regs, .hk] s t ∧ RegsBut ((List.range 16).map fun c => HKD.HKD_STAT_OUT.f 0 c) s t) ∧
  (∀ (s : State) (gens : BitVec 4), s.d0Up = true → Completes (.sync gens) s fun t =>
    (∀ g, g < 4 → t.hk.acc.get 0 g = if bitAt gens.toNat g then 0 else s.hk.acc.get 0 g) ∧ t.hk.ring = s.hk.ring ∧
    SameBut [.hk] s t) ∧
  (∀ (s : State) (g : Fin 4) (v : Byte), s.d0Up = true → Completes (.targetWrite g v) s fun t =>
    t.get (HKD.SINE_TGT_TARGET.f 0 g) = (if v.toNat < 16 then v.toNat else 255) ∧ t.hk.acc.get 0 g = 0 ∧
    (∀ h, h ≠ g.val → t.hk.acc.get 0 h = s.hk.acc.get 0 h) ∧ SameBut [.regs, .hk] s t ∧
    RegsBut [HKD.SINE_TGT_TARGET.f 0 g] s t)

/-- A GO on a slot with no request pending makes it pending, and on a pending one sets URG_BUSY. RUN set on a stopped
idle converter starts it at entry 0 with LP taken; RUN cleared with no conversion under way stops it. A sequence
conversion that completes shows its code and input in HKA_LAST and, with RING_EN, puts one result word at WR_IDX and
advances it; an urgent one shows its code in the slot's result, and asserts the slot's source. A write of RD_IDX takes
a value in the unread range and WR_IDX otherwise; the entry that a full ring dropped in the same 250 ns unit is stored
as the one after it. -/
def Obligations.MonitorConverters : Prop :=
  (∀ (s : State) (i : Fin 4), s.d0Up = true →
    (s.getB (HKA.URG_CFG_PENDING.f 0 i) = true → Completes (.go i) s fun t => t.srcLevel 324 = true ∧ OnlyRegs (evFlds 324) s t) ∧
    (s.getB (HKA.URG_CFG_PENDING.f 0 i) = false → Completes (.go i) s fun t => t.getB (HKA.URG_CFG_PENDING.f 0 i) = true ∧
      SameBut [.regs, .hk] s t ∧ RegsBut [HKA.URG_CFG_PENDING.f 0 i] s t)) ∧
  (∀ (s : State) (a : Fin 2), s.d0Up = true →
    (s.hkaRunning a = false → (s.hka a).conv = none → (s.hka a).stop = false → Completes (.runWrite a true) s fun t =>
      t.getB (HKA.HKA_CTL_RUN.f a) = true ∧ t.hkaRunning a = true ∧ t.get (HKA.HKA_STAT_ENTRY.f a) = 0 ∧
      t.get (HKA.HKA_STAT_LP_ACTIVE.f a) = s.get (HKA.HKA_CTL_LP.f a) % 2 ∧ SameBut [.regs, .hk] s t) ∧
    (s.hkaRunning a = true → (s.hka a).conv = none → Completes (.runWrite a false) s fun t =>
      t.getB (HKA.HKA_CTL_RUN.f a) = false ∧ t.hkaRunning a = false ∧ SameBut [.regs] s t) ∧
    (s.hkaRunning a = true → (s.hka a).conv ≠ none → Completes (.runWrite a false) s fun t =>
      t.getB (HKA.HKA_CTL_RUN.f a) = false ∧ t.hkaRunning a = true ∧ (t.hka a).stop = true ∧ SameBut [.regs, .hk] s t)) ∧
  (∀ (s : State) (a : Fin 2) (code : BitVec 12), s.cclkRuns = true →
    ((s.hka a).conv = some .seq → Completes (.hkaConversion a code) s fun t =>
      t.get (HKA.HKA_LAST_CODE.f a) = code.toNat ∧ t.get (HKA.HKA_LAST_INPUT.f a) = bitField (s.hka a).word 0 5 ∧
      (s.getB (HKA.HKA_CTL_RING_EN.f a) = true →
        t.get HKA.RING_WR_WR_IDX.f = (s.get HKA.RING_WR_WR_IDX.f + 1) % 4096 ∧
        t.hk.ring.get 0 (s.get HKA.RING_WR_WR_IDX.f) = code.toNat + bitField (s.hka a).word 0 5 * 2 ^ 12 + a * 2 ^ 17 +
          (s.hkUnits - (if s.getB (HKA.HKA_STAT_LP_ACTIVE.f a) then 16 else 1)) % 4096 * 2 ^ 20) ∧
      SameBut [.regs, .hk] s t) ∧
    (∀ i, i < 4 → (s.hka a).conv = some (.urg i) → Completes (.hkaConversion a code) s fun t =>
      t.get (HKA.URG_RES_CODE.f 0 i) = code.toNat ∧ t.getB (HKA.URG_CFG_PENDING.f 0 i) = false ∧ t.srcLevel (320 + i) = true ∧
      SameBut [.regs, .hk] s t)) ∧
  (∀ (s : State) (v : BitVec 12), s.d0Up = true → Completes (.rdIdxWrite v) s fun t =>
    t.get HKA.RING_RD_RD_IDX.f =
      (if s.hk.dropped = some (v.toNat, s.hkUnits) then (v.toNat + 1) % 4096
       else if (v.toNat + 4096 - s.get HKA.RING_RD_RD_IDX.f) % 4096 < s.ringUnread then v.toNat
       else s.get HKA.RING_WR_WR_IDX.f % 2 ^ 12) ∧
    OnlyRegs [HKA.RING_RD_RD_IDX.f] s t)

/-- In its slot of a frame that starts no latch and no stop, a channel with queued samples absorbs them all, shows the
average of its newest LEN samples in units of 1/16 code, and FULL when it holds LEN; with none queued it stands. RUN
set on a stopped engine clears every history and FULL bit; LATCH makes a latch due. A configuration write is stored
while RUN is 0 and otherwise sets CFG_REFUSED. -/
def Obligations.TelemetryFilters : Prop :=
  (∀ (s : State) (k : Nat), s.cclkRuns = true → s.hk.filtOn = true → k < 48 →
    (k = 0 → s.hk.latchDue = false ∧ s.getB FILT.FILT_CTL_RUN.f = true) →
    let q := s.hk.fq.get [] k
    let len := s.get (FILT.FILT_CFG_LEN.f 0 k)
    let h := (q.reverse ++ s.hk.fh.get [] k).take len
    (q ≠ [] → Completes (.filterSlot k) s fun t =>
      t.get (FILT.FILT_OUT_VALUE.f 0 k) = 16 * h.foldl (· + ·) 0 / h.length % 2 ^ 16 ∧
      t.getB (FILT.FILT_OUT_FULL.f 0 k) = decide (h.length = len) ∧ t.hk.fq.get [] k = [] ∧ t.hk.fh.get [] k = h ∧
      SameBut [.regs, .hk] s t ∧ RegsBut [FILT.FILT_OUT_VALUE.f 0 k, FILT.FILT_OUT_FULL.f 0 k] s t) ∧
    (q = [] → exec (.filterSlot k) s = .next s)) ∧
  (∀ s : State, s.d0Up = true →
    (s.getB FILT.FILT_CTL_RUN.f = false → Completes (.filtRunWrite true) s fun t =>
      t.getB FILT.FILT_CTL_RUN.f = true ∧ t.hk.filtOn = true ∧ t.hk.fq = [] ∧ t.hk.fh = [] ∧
      (∀ k, k < 48 → t.getB (FILT.FILT_OUT_FULL.f 0 k) = false ∧
        t.get (FILT.FILT_OUT_VALUE.f 0 k) = s.get (FILT.FILT_OUT_VALUE.f 0 k)) ∧ SameBut [.regs, .hk] s t) ∧
    (Completes (.filtRunWrite false) s fun t => t.getB FILT.FILT_CTL_RUN.f = false ∧ OnlyRegs [FILT.FILT_CTL_RUN.f] s t) ∧
    (Completes .latch s fun t => t.hk = { s.hk with latchDue := true } ∧ SameBut [.hk] s t)) ∧
  (∀ (s : State) (k : Nat) (v : Word), s.d0Up = true → k < 48 →
    (s.getB FILT.FILT_CTL_RUN.f = false → Completes (.filtCfgWrite k v) s fun t =>
      t.get (FILT.FILT_CFG_LEN.f 0 k) = clampNat 1 1024 (bitField v.toNat 0 11) ∧
      t.get (FILT.FILT_CFG_INPUT.f 0 k) = bitField v.toNat 16 5 ∧ t.get (FILT.FILT_CFG_CONV.f 0 k) = bitField v.toNat 21 2 ∧
      OnlyRegs [FILT.FILT_CFG_LEN.f 0 k, FILT.FILT_CFG_INPUT.f 0 k, FILT.FILT_CFG_CONV.f 0 k] s t) ∧
    (s.getB FILT.FILT_CTL_RUN.f = true → Completes (.filtCfgWrite k v) s fun t => t.srcLevel 328 = true ∧
      OnlyRegs (evFlds 328) s t))

/-- On a free bus with every enabled OE rail good, the device's page read and a READ start with XBUSY 1; with a rail
not good they end with POWER, the device's own also as ENGINE_ID. A page read that ends shows the result of the check
and releases the bus; the device's own then writes the HKD fields and owes a strobe if it passes. GO starts a transfer
on a free bus, with the address, the offset and the bytes of OE_DATA that it sends fixed then (log 40), and is refused
on a busy one. A transfer that ends shows its result, sets XFER_DONE, and XFER_ERR if it is not OK; a read that ends
OK puts its bytes into OE_DATA. -/
def Obligations.EnginePageAndTransfers : Prop :=
  (∀ s : State, s.hk.xfer = none → s.hk.page = none →
    (s.d0Up = true → s.oeRailsGood = true → Completes .read s fun t => t.hk = { s.hk with page := some false } ∧
      t.getB OE.OE_STAT_XBUSY.f = true ∧ SameBut [.regs, .hk] s t ∧ RegsBut [OE.OE_STAT_XBUSY.f] s t) ∧
    (s.d0Up = true → s.oeRailsGood = false → Completes .read s fun t => t.get OE.ID_STAT_RESULT.f = 8 ∧
      OnlyRegs [OE.ID_STAT_RESULT.f] s t) ∧
    (s.cclkRuns = true → s.loader.coreEntry.isSome = true → bitAt s.power.railsUp 6 = true → s.biasFromPage = true →
      s.hk.pageDone = false →
      (s.oeRailsGood = true → Completes .enginePageRead s fun t => t.hk = { s.hk with pageDone := true, page := some true } ∧
        t.getB OE.OE_STAT_XBUSY.f = true ∧ SameBut [.regs, .hk] s t ∧ RegsBut [OE.OE_STAT_XBUSY.f] s t) ∧
      (s.oeRailsGood = false → Completes .enginePageRead s fun t => t.get OE.ID_STAT_RESULT.f = 8 ∧ t.srcLevel 291 = true ∧
        t.hk = { s.hk with pageDone := true } ∧ SameBut [.regs, .hk] s t)) ∧
    (∀ v : Word, s.d0Up = true → bitAt v.toNat 25 = true → Completes (.oeXferGo v) s fun t =>
      t.hk.xfer = some ⟨bitAt v.toNat 24, clampNat 1 16 (bitField v.toNat 16 5), bitField v.toNat 0 7, bitField v.toNat 8 8,
        if bitAt v.toNat 24 then s.oeBytes (clampNat 1 16 (bitField v.toNat 16 5)) else [bitField v.toNat 8 8], false⟩ ∧ t.getB OE.OE_STAT_XBUSY.f = true ∧
      t.get OE.OE_XFER_ADDR.f = bitField v.toNat 0 7 ∧ t.get OE.OE_XFER_OFFSET.f = bitField v.toNat 8 8 ∧
      SameBut [.regs, .hk] s t)) ∧
  (∀ (s : State) (v : Word), s.d0Up = true → (s.hk.xfer ≠ none ∨ s.hk.page ≠ none) →
    (bitAt v.toNat 25 = true → Completes (.oeXferGo v) s fun t => t.srcLevel 333 = true ∧ SameBut [.regs] s t) ∧
    (Completes .read s fun t => t.srcLevel 333 = true ∧ OnlyRegs (evFlds 333) s t)) ∧
  (∀ (s : State) (own nack : Bool) (page : List Byte), s.d0Up = true → s.hk.page = some own →
    let b := (page.map (·.toNat)).take 128
    let r := if nack then 1 else if b.length < 128 then 2 else pageResult b
    Completes (.enginePageReadDone page nack) s fun t =>
      t.get OE.ID_STAT_RESULT.f = r ∧ t.getB OE.OE_STAT_XBUSY.f = false ∧ t.hk.page = none ∧
      (own = true → r = 0 → t.hk.bias = s.hk.bias + 1 ∧ ∀ c, c < 16 →
        t.get (HKD.HKD_CFG_CODE.f 0 c) = bitField (hkdEntry b 0x30 c) 0 12 ∧
        t.getB (HKD.HKD_CFG_ENABLE.f 0 c) = bitAt (hkdEntry b 0x30 c) 16) ∧
      (own = true → r ≠ 0 → t.srcLevel 291 = true) ∧
      (own = false → ∀ c, c < 16 → t.get (HKD.HKD_CFG_CODE.f 0 c) = s.get (HKD.HKD_CFG_CODE.f 0 c)) ∧ SameBut [.regs, .hk] s t) ∧
  (∀ (s : State) (x : OeXfer) (result : BitVec 2) (data : List Byte), s.d0Up = true → s.hk.xfer = some x →
    Completes (.xferDone result data) s fun t =>
      t.get OE.OE_XSTAT_RESULT.f = (if x.aborted then 3 else result.toNat) ∧ t.srcLevel 331 = true ∧
      ((if x.aborted then 3 else result.toNat) ≠ 0 → t.srcLevel 332 = true) ∧ t.hk = { s.hk with xfer := none } ∧
      (x.aborted = false → result = 0#2 → x.write = false → x.len ≤ 16 → ∀ i, i < x.len → i < data.length →
        bitField (t.get (OE.OE_DATA_DATA.f 0 (i / 4))) (8 * (i % 4)) 8 = (data.getD i 0).toNat) ∧
      t.getB OE.OE_STAT_XBUSY.f = false ∧ SameBut [.regs, .hk] s t)

/-- With D0 out of reset, an OE_CTL write that turns a rail off clears its power-good; one that turns it on sets it if
the rail is good and stage 6 is not under way; one that changes nothing leaves the rail. The loss of a good enabled
rail clears its power-good, clamps every channel, sets RAIL_CLAMP and RAIL_LOSS and aborts a transfer under way. A
retry that is good restores power-good. -/
def Obligations.OeRails : Prop :=
  (∀ (s : State) (e0 e1 good : Bool), s.d0Up = true → Completes (.oeCtlWrite e0 e1 good) s fun t =>
    t.getB OE.OE_CTL_EN_3V3.f = e0 ∧ t.getB OE.OE_CTL_EN_1V8.f = e1 ∧
    (e0 = s.getB OE.OE_CTL_EN_3V3.f → t.getB OE.OE_STAT_PG_3V3.f = s.getB OE.OE_STAT_PG_3V3.f) ∧
    (e1 = s.getB OE.OE_CTL_EN_1V8.f → t.getB OE.OE_STAT_PG_1V8.f = s.getB OE.OE_STAT_PG_1V8.f) ∧
    (e0 = false → s.getB OE.OE_CTL_EN_3V3.f = true → t.getB OE.OE_STAT_PG_3V3.f = false) ∧
    (e1 = false → s.getB OE.OE_CTL_EN_1V8.f = true → t.getB OE.OE_STAT_PG_1V8.f = false) ∧
    (e0 = true → s.getB OE.OE_CTL_EN_3V3.f = false → good = true → s.power.stage6 = false → t.getB OE.OE_STAT_PG_3V3.f = true) ∧
    (e1 = true → s.getB OE.OE_CTL_EN_1V8.f = false → good = true → s.power.stage6 = false → t.getB OE.OE_STAT_PG_1V8.f = true) ∧
    SameBut [.regs, .hk] s t ∧
    RegsBut [OE.OE_CTL_EN_3V3.f, OE.OE_CTL_EN_1V8.f, OE.OE_STAT_PG_3V3.f, OE.OE_STAT_PG_1V8.f] s t) ∧
  (∀ (s : State) (rail : Fin 2), s.getB (oeEn rail) = true →
    (s.d0Up = true → s.getB (oePg rail) = true → Completes (.railLoss rail) s fun t =>
      t.getB (oePg rail) = false ∧ (∀ c, c < 16 → t.getB (HKD.HKD_STAT_CLAMPED.f 0 c) = true) ∧ t.srcLevel 319 = true ∧
      t.srcLevel 330 = true ∧ rail.val ∈ t.hk.lost ∧
      (∀ x, s.hk.xfer = some x → t.hk.xfer = some { x with aborted := true }) ∧ SameBut [.regs, .hk] s t) ∧
    (s.getB (oePg rail) = false → bitAt s.power.railsUp 6 = true → Completes (.oeRailRetry rail true) s fun t =>
      t.getB (oePg rail) = true ∧ t.hk.lost = s.hk.lost.erase rail.val ∧ SameBut [.regs, .hk] s t ∧
      RegsBut [oePg rail] s t))

/-- A request that arrives while memory serves none waits. A waiting apply read is served before any other request. A
request that is served alone, with at most three failed transfers, writes its 64 bytes as eight clean words and no
other word, or reads its words with what they have lost, which stays lost, reports a corrected or an uncorrectable
one, and delivers clean ones as their bytes; each counts its retries. A fourth failure sets CRC_FAIL and starts a
retraining; a write is held and a read is delivered poisoned. A retraining starts with READY 0; its success sets READY
and RETRAINED and issues what waited for it; its failure is followed by a second attempt and then by MEM_FAIL. What
words lose and how many transfers fail are arguments of the command (log 68). -/
def Obligations.GddrBurstsAndRetraining : Prop :=
  (∀ (s : State) (req : MemReq) (errs : List WordErr) (n : Nat), s.hasD3 = true → s.d0Up = true → s.memServes = false →
    d3Backed req.addr.toNat = true → Completes (.memBurst (some req) errs n) s fun t =>
      t.mem = { s.mem with reqs := s.mem.reqs ++ [req] } ∧ SameBut [.mem] s t) ∧
  (∀ (s : State) (req : MemReq) (errs : List WordErr) (n : Nat), s.memServes = true →
    s.getB MEM.MEM_STAT_SELF_REFRESH.f = false → s.mem.reqs.find? (fun r => decide (r.cls = .apply)) = some req →
    Completes (.memBurst none errs n) s fun t =>
      t.mem.reqs = s.mem.reqs.erase req ∧ SameBut [.regs, .counts, .mem, .ctx] s t) ∧
  (∀ (s : State) (req : MemReq) (errs : List WordErr) (n : Nat), s.memServes = true →
    s.getB MEM.MEM_STAT_SELF_REFRESH.f = false → s.mem.failed = false → s.mem.reqs = [] → s.throttled = false →
    d3Backed req.addr.toNat = true →
    let a := req.addr.toNat / 64 * 64
    (n < 4 → req.write = true → Completes (.memBurst (some req) errs n) s fun t =>
      (∀ i, i < 8 → t.d3Word (a + 8 * i) =
        ⟨leNat ((((burstBytes req.data).drop (8 * i)).take 8).map (·.val.toNat)), false, true, .clean⟩) ∧
      (∀ b, 0x40000000 ≤ b → b % 8 = 0 → (b < a ∨ a + 64 ≤ b) → t.d3Word b = s.d3Word b) ∧ t.mem.reqs = [] ∧
      t.get MEM.CRC_RETRY_CNT.f = (s.get MEM.CRC_RETRY_CNT.f + n) % 2 ^ MEM.CRC_RETRY_CNT.f.width ∧
      SameBut [.regs, .counts, .mem, .therm] s t) ∧
    (n < 4 → req.write = false → Completes (.memBurst (some req) errs n) s fun t =>
      (∀ i, i < 8 → (s.d3Word (a + 8 * i)).written = true → t.d3Word (a + 8 * i) =
        { s.d3Word (a + 8 * i) with err := worseErr (errs.getD i .clean) (s.d3Word (a + 8 * i)).err }) ∧
      (∀ i, i < 8 → (t.d3Word (a + 8 * i)).fixed = true → t.srcLevel 334 = true) ∧
      (∀ i, i < 8 → (t.d3Word (a + 8 * i)).written = false ∨ (t.d3Word (a + 8 * i)).err = .multi → t.srcLevel 335 = true) ∧
      t.mem.lastRead = (List.range 8).flatMap (fun i =>
        wordBytes (s.d3Word (a + 8 * i)).val (t.d3Word (a + 8 * i)).bad) ∧
      t.mem.reqs = [] ∧ SameBut [.regs, .counts, .mem, .ctx, .therm] s t) ∧
    (4 ≤ n → Completes (.memBurst (some req) errs n) s fun t =>
      t.srcLevel 337 = true ∧ t.getB MEM.MEM_STAT_RETRAINING.f = true ∧
      (s.getB MEM.MEM_STAT_RETRAINING.f = false → t.getB MEM.MEM_STAT_READY.f = false) ∧ t.mem.d3 = s.mem.d3 ∧
      (req.write = true → t.mem.heldWrite = some (a, burstBytes req.data)) ∧
      (req.write = false → t.mem.lastRead.all (·.poison) = true) ∧ SameBut [.regs, .counts, .mem, .ctx, .therm] s t)) ∧
  (∀ s : State, s.d0Up = true → s.hasD3 = true → s.getB MEM.MEM_STAT_RETRAINING.f = false → s.mem.failed = false →
    Completes .retrain s fun t =>
      t.getB MEM.MEM_STAT_RETRAINING.f = true ∧ t.getB MEM.MEM_STAT_READY.f = false ∧ t.mem = { s.mem with second := false } ∧
      SameBut [.regs, .mem] s t ∧ RegsBut [MEM.MEM_STAT_RETRAINING.f, MEM.MEM_STAT_READY.f] s t) ∧
  (∀ s : State, s.getB MEM.MEM_STAT_RETRAINING.f = true →
    (s.mem.crcNext < 4 → Completes (.retrainingDone true) s fun t => t.getB MEM.MEM_STAT_READY.f = true ∧
      t.getB MEM.MEM_STAT_RETRAINING.f = false ∧ t.srcLevel 338 = true ∧ t.mem.heldWrite = none ∧ t.mem.hostWrites = [] ∧
      SameBut [.regs, .counts, .mem] s t) ∧
    (s.mem.second = false → Completes (.retrainingDone false) s fun t => t.mem = { s.mem with second := true } ∧ SameBut [.mem] s t) ∧
    (s.mem.second = true → Completes (.retrainingDone false) s fun t =>
      t.mem = { s.mem with failed := true, heldWrite := none, hostWrites := [] } ∧
      t.getB MEM.MEM_STAT_RETRAINING.f = false ∧ t.srcLevel 339 = true ∧ SameBut [.regs, .mem] s t))

/-- A good temperature reading is shown and chooses the refresh band; a bad one selects 4x; a higher band waits while
an apply reads. A refresh is done at once, or deferred while an apply reads. SCRUB_EN is written as given on a device
with GDDR7. A block scrubbed moves the position on by 64, wrapping from the end of the capture ring to the first slot
with a new PASS, writes no word, and is due for its rewrite if a word was corrected; the next block scrubbed first
rewrites the corrected words of that one. RELOAD takes the values of the primary copy if it passes, else of the mirror
with CAL_FALLBACK, else keeps the present ones with CAL_RELOAD_FAIL. -/
def Obligations.MemoryUpkeepAndCalibration : Prop :=
  (∀ (s : State) (temp : BitVec 8), s.memServes = true → s.getB MEM.MEM_STAT_SELF_REFRESH.f = false →
    (s.applyReading = true → s.get MEM.MEM_STAT_BAND.f < 2 → Completes (.d3TempRead temp false) s fun t =>
      t.mem = { s.mem with temps := [], bandDue := some 2 } ∧ SameBut [.mem] s t) ∧
    (s.applyReading = false → Completes (.d3TempRead temp true) s fun t => t.get MEM.MEM_STAT_D3_TEMP.f = temp.toNat ∧
      t.get MEM.MEM_STAT_BAND.f = bandNext s.mem.base ((temp.toInt :: s.mem.temps).take 10) % 4 ∧
      t.mem.temps = (temp.toInt :: s.mem.temps).take 10 ∧ SameBut [.regs, .mem] s t ∧
      RegsBut [MEM.MEM_STAT_D3_TEMP.f, MEM.MEM_STAT_BAND.f] s t) ∧
    (s.applyReading = false → Completes (.d3TempRead temp false) s fun t => t.get MEM.MEM_STAT_BAND.f = 2 ∧ SameBut [.regs, .mem] s t ∧
      RegsBut [MEM.MEM_STAT_BAND.f] s t)) ∧
  (∀ (s : State) (b : Nat), s.memServes = true → s.getB MEM.MEM_STAT_SELF_REFRESH.f = false →
    (s.applyReading = false → Completes (.refresh b) s fun t => t.mem.refreshed.get 0 b = s.time.tick ∧
      t.mem.deferred = s.mem.deferred.erase b ∧ t.mem.d3 = s.mem.d3 ∧ SameBut [.regs, .counts, .mem] s t) ∧
    (s.applyReading = true → Completes (.refresh b) s fun t => t.mem = { s.mem with deferred := s.mem.deferred ++ [b] } ∧
      SameBut [.mem] s t)) ∧
  (∀ (s : State) (on : Bool), s.hasD3 = true → s.d0Up = true → Completes (.scrubEnWrite on) s fun t =>
    t.getB MEM.SCRUB_CFG_SCRUB_EN.f = on ∧ OnlyRegs [MEM.SCRUB_CFG_SCRUB_EN.f] s t) ∧
  (∀ (s : State) (n : Nat), s.memServes = true → s.mem.failed = false → s.getB MEM.SCRUB_CFG_SCRUB_EN.f = true →
    s.getB MEM.MEM_STAT_SELF_REFRESH.f = false → s.throttled = false → n < 4 →
    let p := s.get MEM.SCRUB_POS_POS.f + 64
    Completes (.scrubBlock [] n) s fun t =>
      t.get MEM.SCRUB_POS_POS.f = (if 0xA0000000 ≤ p then 0x40000000 else p) ∧
      t.get MEM.SCRUB_PASS_PASS.f = (if 0xA0000000 ≤ p then (s.get MEM.SCRUB_PASS_PASS.f + 1) % 2 ^ 32 else s.get MEM.SCRUB_PASS_PASS.f) ∧
      (s.mem.rewrite = none → t.mem.d3 = s.mem.d3 ∧
        t.mem.rewrite = if s.d3Fixed (s.get MEM.SCRUB_POS_POS.f) 8 then some (s.get MEM.SCRUB_POS_POS.f) else none) ∧
      (∀ b i, s.mem.rewrite = some b → 0x40000000 ≤ b → i < 8 → t.d3Word (b + 8 * i) =
        if (s.d3Word (b + 8 * i)).fixed then ⟨(s.d3Word (b + 8 * i)).val % 2 ^ 64, false, true, .clean⟩
        else s.d3Word (b + 8 * i)) ∧
      SameBut [.regs, .counts, .mem, .therm] s t) ∧
  (∀ (s : State) (p q : List (Nat × WordErr)), s.d0Up = true → s.loader.part = none →
    let u := s.calUpsets p q
    (∀ m, u.calCopy 0 = some m → Completes (.reload p q) s fun t =>
      t.cal = m ∧ t.get LOADER.CAL_STAT_CAL_SRC.f = 1 ∧ t.mram = u.mram ∧ SameBut [.regs, .mram, .cal] s t) ∧
    (∀ m, u.calCopy 0 = none → u.calCopy 1 = some m → Completes (.reload p q) s fun t =>
      t.cal = m ∧ t.get LOADER.CAL_STAT_CAL_SRC.f = 2 ∧ t.srcLevel 342 = true ∧ t.mram = u.mram ∧
      SameBut [.regs, .mram, .cal] s t) ∧
    (u.calCopy 0 = none → u.calCopy 1 = none → Completes (.reload p q) s fun t =>
      t.cal = s.cal ∧ t.get LOADER.CAL_STAT_CAL_SRC.f = s.get LOADER.CAL_STAT_CAL_SRC.f ∧ t.srcLevel 343 = true ∧
      t.mram = u.mram ∧ SameBut [.regs, .mram] s t))

/-- A thermal sample from the end of stage 4 on takes each powered sensor's reading with its calibration offset,
leaves the band no lower than the temperatures call for, and at the shutdown threshold begins the shutdown: THERMAL on
every line lane and every host transmitter at zero. A shutdown that is not yet held is then held: D0 in reset,
HELD_CAUSE 2, FAULT_N low with code 0. Thresholds in order are stored, SHUT_TH at most 115 and only until it is
locked; out of order they set CFG_REFUSED and stand. -/
def Obligations.ThermalSupervision : Prop :=
  (∀ (s : State) (raws : List Int), bitAt s.power.railsUp 4 = true → s.standby = false → s.therm.shutdown = false →
    s.get THERM.THERM_STAT_BAND.f ≤ 2 → Completes (.thermalSample raws) s fun t =>
      (∀ k, k < 24 → k < raws.length → s.sensorPowered k = true →
        t.sensor k = (s.sensor k).take (raws.getD k 0 + s.cal.get 0 (65536 * 9 + k))) ∧
      t.bandCalled ≤ t.get THERM.THERM_STAT_BAND.f ∧
      (t.anyAt (List.range 24) (t.get THERM.THERM_CFG_SHUT_TH.f) = true → t.therm.shutdown = true ∧
        (∀ n, n < 8 → bitAt (t.reasons n) 5 = true) ∧ ∀ h, h < 16 → (t.host h).out = .zero) ∧
      SameBut [.regs, .hosts, .therm] s t) ∧
  (∀ s : State, s.therm.shutdown = true → s.therm.held = false → Completes .shutdownHold s fun t =>
    t.d0Up = false ∧ t.get PWR.AON_STAT_HELD_CAUSE.f = 2 ∧ t.getB PWR.AON_STAT_FAULT.f = true ∧ t.get PWR.AON_STAT_FCODE.f = 0 ∧
    t.therm.held = true ∧ t.therm.shutdown = true ∧ t.mram = s.mram ∧ t.keys = s.keys ∧ t.serial = s.serial ∧ t.pending = s.pending) ∧
  (∀ (s : State) (v : Word), s.d0Up = true →
    let held := s.get THERM.THERM_CFG_SHUT_TH.f
    let shut := if s.dieLocked 0 then held else min 115 (bitField v.toNat 16 8)
    (bitField v.toNat 0 8 ≤ bitField v.toNat 8 8 → bitField v.toNat 8 8 ≤ shut → Completes (.thresholdWrite v) s fun t =>
      t.get THERM.THERM_CFG_WARN_TH.f = bitField v.toNat 0 8 ∧ t.get THERM.THERM_CFG_THROT_TH.f = bitField v.toNat 8 8 ∧
      t.get THERM.THERM_CFG_SHUT_TH.f = shut % 2 ^ 8 ∧ t.get THERM.THERM_CFG_TRACK_TH.f = bitField v.toNat 24 8 ∧
      (s.dieLocked 0 = true → bitField v.toNat 16 8 ≠ held → t.srcLevel 289 = true) ∧ SameBut [.regs] s t) ∧
    (¬(bitField v.toNat 0 8 ≤ bitField v.toNat 8 8 ∧ bitField v.toNat 8 8 ≤ shut) → Completes (.thresholdWrite v) s fun t =>
      t.srcLevel 354 = true ∧ t.get THERM.THERM_CFG_WARN_TH.f = s.get THERM.THERM_CFG_WARN_TH.f ∧
      t.get THERM.THERM_CFG_THROT_TH.f = s.get THERM.THERM_CFG_THROT_TH.f ∧ t.get THERM.THERM_CFG_SHUT_TH.f = held ∧
      t.get THERM.THERM_CFG_TRACK_TH.f = s.get THERM.THERM_CFG_TRACK_TH.f ∧ SameBut [.regs] s t))

/-- A tile that fails and serves no lane becomes FAILED with cause 1 and TILE_FAIL. One in service on a lane of a
resilient region with no repair under way and a spare left has the spare take its place while the lane keeps its
receive state; SWAP_DONE then loads the spare with its function. Under the placement policy REPLACED brings the lane
back to WARM. A checkpoint of a TRAINED lane with no fault keeps its trained state, or sets CKPT_PARITY. A held part
whose retest fails stays held, and a held lane whose retest passes with its tiles good is no longer held. -/
def Obligations.TileFaultsAreRepaired : Prop :=
  (∀ (s : State) (x : TileId), s.tileSwept x = true →
    (s.loadingFor x = none → s.servesLane x = none → s.test.run ≠ some x.val → Completes (.tileFailed x) s fun t =>
      t.tileFailed x = true ∧ t.get (TILE.TILE_TEST_FAIL_CAUSE.f x) = 1 ∧ t.srcLevel 355 = true ∧ SameBut [.regs, .test] s t ∧
      RegsBut ([TILE.TILE_INFO_FAILED.f x, TILE.TILE_TEST_FAIL_CAUSE.f x] ++ evFlds 355) s t) ∧
    (∀ (n c : Nat) (cs : List Nat), s.loadingFor x = none → s.servesLane x = some n → s.reloading (n / 2) = false →
      s.laneOn n = true → s.roleNumber x ≠ some 10 → s.placement (n / 2) = false → s.repairing (n / 2) = false →
      s.ctx.applies = [] → (s.markFailed x 1).spares n = c :: cs → Completes (.tileFailed x) s fun t =>
        (t.lane n).swap = some ⟨[x.val], [c]⟩ ∧ t.rx n = s.rx n ∧ t.tileFailed x = true)) ∧
  (∀ (s : State) (x : TileId) (n c : Nat), (s.lane n).swap = some ⟨[x.val], [c]⟩ → n / 2 = tileRegion x → n < 8 → c < 104 →
    c ≠ x.val → s.placement (n / 2) = false → [2 * tileRegion x, 2 * tileRegion x + 1].find? (fun n =>
      (s.lane n).swap.any (fun w => w.failed.contains x.val)) = some n → (s.lane n).ckpt.isSome = true →
    (∃ k, s.roleNumber x = some k) → (∀ m, (s.lane m).waiting = []) → s.ctx.applies = [] →
    s.getB (LINE.RX_STATE_TRAINED.f n) = true → Completes (.swapDone x) s fun t =>
      (t.lane n).swap = none ∧ t.srcLevel 356 = true ∧ t.get (TILE.TILE_INFO_FN.f c) = s.get (TILE.TILE_INFO_FN.f x) % 8 ∧
      t.get (TILE.TILE_INFO_SERVES.f c) = n ∧ t.get (TILE.TILE_INFO_FN.f x) = 0 ∧ LanesBut [n] s t) ∧
  (∀ (s : State) (n : Lane) (w : Swap), s.placement (n.val / 2) = true → (s.lane n).swap = some w → (∀ m, (s.lane m).waiting = []) →
    s.ctx.applies = [] → s.rx n ≠ .off → s.getB (LINE.RX_STATE_TRAINED.f n) = true → s.light n = true → Completes (.replaced n) s fun t =>
      (t.lane n).swap = none ∧ t.srcLevel 357 = true ∧ t.rx n = .warm ∧ LanesBut [n.val] s t) ∧
  (∀ (s : State) (n : Lane), s.laneOn n = true → s.laneRuns n = true → s.getB (LINE.RX_STATE_TRAINED.f n) = true →
    (s.lane n).faulted = false →
    (Completes (.checkpoint n true) s fun t => t.lane n = { s.lane n with ckpt := some (s.trainedOf n) } ∧ LanesBut [n.val] s t ∧
      SameBut [.lanes] s t) ∧
    (Completes (.checkpoint n false) s fun t => t.srcLevel 362 = true ∧ OnlyRegs (evFlds 362) s t)) ∧
  (∀ (s : State) (n : Lane), (s.lane n).retestDue = true → s.laneServed n = true →
    bitAt (s.get BIST.HELD_STAT_REGION_HELD.f) (n.val / 2) = false → s.laneHeld n = true →
    (Completes (.heldPartRetest n false) s fun t => t.laneHeld n = true ∧ (t.lane n).retestDue = false ∧ LanesBut [n.val] s t ∧
      SameBut [.lanes] s t) ∧
    ((∀ k, k < 12 → k ≠ 10 → s.tileFailed (clusterTile n k) = false) → s.getB (TILE.TILE_TEST_RETIRED.f (clusterTile n 10)) = false →
      Completes (.heldPartRetest n true) s fun t => t.laneHeld n = false ∧ t.tileFailed (clusterTile n 10) = false))

/-- A background round gives every spare that can be tested its slice now or leaves it for later in the round. A slice
that passes marks its tile tested and passed; one that fails marks it FAILED with cause 3 and sets SPARE_FAIL.
BIST_RUN starts the slice of a tile that nothing stops and completes at once with the status that does; when it ends
the tile is good and the command OK, or FAILED and the command TEST_FAILED. -/
def Obligations.TileTestsEndWithTheirResult : Prop :=
  (∀ s : State, s.d0Up = true → s.getB BIST.BG_CFG_BG_EN.f = true → Completes .bgSpareTest s fun t =>
    (∀ x, x < 104 → isUt x = true → s.bgTestable x = true → x ∈ t.test.bgLeft ∨ ∃ r, (r, x) ∈ t.test.bgNow) ∧
    t.test.run = s.test.run ∧ SameBut [.therm, .test] s t) ∧
  (∀ (s : State) (x : TileId), s.test.bgNow.any (fun e => decide (e.2 = x.val)) = true →
    (Completes (.bgSlicePass x) s fun t =>
      t.getB (TILE.TILE_TEST_TESTED.f x) = true ∧ t.getB (TILE.TILE_TEST_LAST_PASS.f x) = true ∧ SameBut [.regs, .therm, .test] s t ∧
      RegsBut [TILE.TILE_TEST_TESTED.f x, TILE.TILE_TEST_LAST_PASS.f x] s t) ∧
    (Completes (.spareFail x) s fun t =>
      t.tileFailed x = true ∧ t.get (TILE.TILE_TEST_FAIL_CAUSE.f x) = 3 ∧ t.getB (TILE.TILE_TEST_LAST_PASS.f x) = false ∧
      t.srcLevel 359 = true ∧ SameBut [.regs, .therm, .test] s t ∧
      RegsBut ([TILE.TILE_TEST_TESTED.f x, TILE.TILE_TEST_LAST_PASS.f x, TILE.TILE_INFO_FAILED.f x, TILE.TILE_TEST_FAIL_CAUSE.f x] ++
        evFlds 359) s t)) ∧
  (∀ (s : State) (w : List Nat), s.headOf .test = some w → s.test.run = none →
    (s.bistStop (bistTile w) = none → Completes .bistRun s fun t => t.test = { s.test with run := some (bistTile w) } ∧
      SameBut [.test] s t) ∧
    (∀ st, s.bistStop (bistTile w) = some st → Completes .bistRun s fun t => Answered .test w st 0 0 0 s t ∧
      SameBut [.regs, .mgmt] s t ∧ RegsBut [INTC.SRC_COUNT.f 0 294] s t)) ∧
  (∀ (s : State) (w : List Nat) (x : Nat), s.headOf .test = some w → s.test.run = some x → x < 104 →
    (Completes (.bistRunDone true) s fun t => Answered .test w .ok 0 0 0 s t ∧ t.test.run = none ∧ t.tileFailed x = false ∧
      t.get (TILE.TILE_TEST_FAIL_CAUSE.f x) = 0 ∧ t.getB (TILE.TILE_TEST_LAST_PASS.f x) = true ∧ SameBut [.regs, .mgmt, .test] s t) ∧
    (Completes (.bistRunDone false) s fun t => Answered .test w .testFailed 0 0 0 s t ∧ t.test.run = none ∧ t.tileFailed x = true ∧
      t.get (TILE.TILE_TEST_FAIL_CAUSE.f x) = 3 ∧ t.getB (TILE.TILE_TEST_LAST_PASS.f x) = false ∧
      SameBut [.regs, .mgmt, .test] s t))

/-- In a placement region with no withdrawal under way, an evaluation whose hardest lane already holds the pool clears
the streak; a holder that is not above it by the hysteresis clears it too; the third evaluation in a row that finds
the holder above starts a withdrawal of 16 halvings for the hardest lane. A free pool's usable tile set to a segment
extends the hardest lane. After 65,536 cycles of measure of a candidate start of a lane in TRACK, the sum of the
magnitudes of its twelve sums, by 2^16, is recorded. Each halving halves the coefficients, and the last one ends the
withdrawal. -/
def Obligations.PoolPlacement : Prop :=
  (∀ (s : State) (r : Region) (h : Nat),
    let cand := [2 * r.val, 2 * r.val + 1].filter (fun n =>
      bitAt ((s.regionMap r).getD 4 0) (n % 2) && s.getB (LINE.MEAS_STAT_VALID.f n))
    s.placesIn r = true → (s.pool r).withdraw = none → s.hardest cand = some h → s.throttled = false →
    ((s.pool r).holder = some h → Completes (.placementEval r) s fun t => t.pool r = { s.pool r with streak := 0 } ∧
      SameBut [.pools, .therm] s t) ∧
    (∀ k, (s.pool r).holder = some k → k ≠ h →
      let worse := !cand.contains k || s.aboveBy k h (s.get (LINE.PLACE_PLACE_HYST.f (2 * r.val)))
      (worse = false → Completes (.placementEval r) s fun t => t.pool r = { s.pool r with streak := 0 } ∧
        SameBut [.pools, .therm] s t) ∧
      (worse = true → (s.pool r).streak < 2 → Completes (.placementEval r) s fun t =>
        t.pool r = { s.pool r with streak := (s.pool r).streak + 1 } ∧ SameBut [.pools, .therm] s t) ∧
      (worse = true → 2 ≤ (s.pool r).streak → Completes (.placementEval r) s fun t =>
        t.pool r = { s.pool r with streak := 0, withdraw := some (16, h) } ∧ SameBut [.pools, .therm] s t)) ∧
    ((s.pool r).holder = none → (s.pool r).ext0 = none → s.usable (poolTile r 0) = true → s.test.run ≠ some (poolTile r 0) →
      s.loadingFor (poolTile r 0) = none → (s.regionMap r).getD 2 0 = 1 → Completes (.placementEval r) s fun t =>
        (t.pool r).holder = some h ∧ (t.pool r).ext0.any (·.ffe) = true ∧ SameBut [.regs, .counts, .pools, .therm] s t)) ∧
  (∀ (s : State) (n : Lane), s.placesIn (n.val / 2) = true → s.rx n = .track →
    let x := (s.lane n).rxp
    (x.segN = 65536 → Completes (.segmentMeasure n) s fun t =>
      (t.pool (n.val / 2)).segs.head? = some (n.val, x.segS, (x.segG.foldl (fun a g => a + g.natAbs) 0) / 2 ^ 16) ∧
      (t.pool (n.val / 2)).holder = (s.pool (n.val / 2)).holder ∧
      t.lane n = { s.lane n with rxp := { x with segN := 0 } } ∧ LanesBut [n.val] s t ∧ SameBut [.lanes, .pools] s t) ∧
    (x.segN ≠ 65536 → exec (.segmentMeasure n) s = .next s)) ∧
  (∀ (s : State) (r : Region) (k h : Nat), s.placesIn r = true → (s.pool r).withdraw = some (k, h) →
    (1 < k → Completes (.withdrawHalve r) s fun t =>
      t.pool r = { s.pool r with ext0 := (s.pool r).ext0.map PoolExt.halve, ext1 := (s.pool r).ext1.map PoolExt.halve
                                 withdraw := some (k - 1, h) } ∧ SameBut [.pools] s t) ∧
    (k ≤ 1 → Completes (.withdrawHalve r) s fun t => (t.pool r).withdraw = none ∧ SameBut [.regs, .counts, .pools] s t))

/-- VIN_GOOD starts the debounce with FAULT_N low and code 7, DEBOUNCE_DONE the soft start, and SOFTSTART_DONE stage 1
of the start-up sequence, with BIST due and WAKE_CAUSE 0. An overvoltage, an overcurrent and a loss of VIN stop the
front end: every rail is off, the save RAM is lost, FAULT_N is low with code 7, and the package has lost its state.
The end of the overvoltage and of the 500 ms wait start the debounce again. Nothing else changes. -/
def Obligations.PowerEntryAndItsStops : Prop :=
  ∀ s : State,
    let stops (v : VinSt) (t : State) : Prop := PackageLost s t ∧ t.power.vin = v ∧
      (∀ k, 1 ≤ k → bitAt t.power.railsUp k = false) ∧ t.power.save = [] ∧ t.therm = .fresh ∧
      t.getB PWR.AON_STAT_FAULT.f = true ∧ t.get PWR.AON_STAT_FCODE.f = 7
    (s.power.vin = .off → Completes .vinGood s fun t =>
      t.power = { s.power with vin := .debounce, shown := some 1 } ∧ t.getB PWR.AON_STAT_FAULT.f = true ∧
      t.get PWR.AON_STAT_FCODE.f = 7 ∧ SameBut [.regs, .power] s t ∧ RegsBut [PWR.AON_STAT_FAULT.f, PWR.AON_STAT_FCODE.f] s t) ∧
    (s.power.vin = .debounce → Completes .debounceDone s fun t =>
      t.power = { s.power with vin := .softstart } ∧ SameBut [.power] s t) ∧
    (s.power.vin = .softstart → Completes .softstartDone s fun t =>
      t.power = { s.power with vin := .up, bistDue := true } ∧ t.get PWR.AON_STAT_STAGE.f = 1 ∧
      t.get PWR.AON_STAT_WAKE_CAUSE.f = 0 ∧ SameBut [.regs, .power] s t ∧
      RegsBut [PWR.AON_STAT_STAGE.f, PWR.AON_STAT_WAKE_CAUSE.f] s t) ∧
    (s.power.vin ≠ .off → s.power.vin ≠ .ovStop → Completes .vinOvervoltage s (stops .ovStop)) ∧
    (s.power.vin = .ovStop → Completes .vinOvClear s fun t =>
      t.power = { s.power with vin := .debounce } ∧ SameBut [.power] s t) ∧
    (s.power.vin = .softstart ∨ s.power.vin = .up → Completes .vinOvercurrent s (stops .ocStop)) ∧
    (s.power.vin = .ocStop → Completes .overcurrentRestart s fun t =>
      t.power = { s.power with vin := .debounce } ∧ SameBut [.power] s t) ∧
    (s.power.vin ≠ .off → Completes .vinLoss s (stops .off))

/-- In a running sequence STAGE_PASS brings up the rails of rail stage k and starts the next one, or stage 7 after the
last; stage 6 of an ENGINE step ends the sequence. REFCLK_PRESENT leads from stage 7 to 8; RPLL_LOCK at stage 8 starts
BIST where it is due, and otherwise ends the sequence; in a thermal shutdown the sequence ends and BIST stays due. A
failed stage or a lost rail resets the package, shows its code on FAULT_N and waits for the retry, which starts at the
first stage whose rails are not up. BIST_COMPLETE without a die-critical failure ends the sequence; with one it enters
the held safe state with code 0. D0_RESET_END, when nothing holds D0, takes D0 out of reset with the time at 0, the
directory ready and the boot order set, and with REFCLK and the sequence complete the line dies too; the MRAM changes
only by the upsets of the copies read. -/
def Obligations.StartUpStages : Prop :=
  (∀ (s : State) (k : Nat), s.sequencing = true → s.stage = k →
    (1 ≤ k → k ≤ 5 → Completes .stagePass s fun t =>
      t.power.railsUp = putBit s.power.railsUp k true ∧
      t.stage = (if k < 4 then k + 1 else if k = 4 ∧ s.hasD3 = true then 5 else 7) ∧ SameBut [.regs, .power] s t ∧
      RegsBut [PWR.AON_STAT_STAGE.f, PWR.AON_STAT_FAULT.f, PWR.AON_STAT_FCODE.f] s t) ∧
    (k = 6 → s.power.stage6 = true → Completes .stagePass s fun t =>
      t.stage = 0 ∧ t.power.stage6 = false ∧ t.power.railsUp = putBit s.power.railsUp 6 true ∧ SameBut [.regs, .power, .hk] s t) ∧
    (k = 7 → Completes .refclkPresent s fun t => t.stage = 8 ∧ SameBut [.regs, .power] s t ∧
      RegsBut [PWR.AON_STAT_STAGE.f, PWR.AON_STAT_FAULT.f, PWR.AON_STAT_FCODE.f] s t) ∧
    (k = 8 → s.power.bistRunning = false → s.therm.held = true → Completes .rpllLock s fun t =>
      t.power.refclk = true ∧ t.power.bistRunning = false ∧ t.power.bistDue = s.power.bistDue ∧ t.stage = 0 ∧
      t.getB PWR.PWR_STAT_REFCLK_OK.f = true ∧ SameBut [.regs, .power] s t) ∧
    (k = 8 → s.power.bistRunning = false → s.therm.held = false → s.power.bistDue = true → Completes .rpllLock s fun t =>
      t.power.refclk = true ∧ t.power.bistRunning = true ∧ t.power.bistDue = false ∧ t.getB PWR.PWR_STAT_REFCLK_OK.f = true ∧
      t.stage = 8 ∧ SameBut [.regs, .power] s t ∧
      RegsBut [PWR.PWR_STAT_REFCLK_OK.f, PWR.AON_STAT_FAULT.f, PWR.AON_STAT_FCODE.f] s t) ∧
    (k = 8 → s.power.bistRunning = false → s.therm.held = false → s.power.bistDue = false → s.d0Up = false → Completes .rpllLock s fun t =>
      t.power.refclk = true ∧ t.getB PWR.PWR_STAT_REFCLK_OK.f = true ∧ t.stage = 0 ∧ SameBut [.regs, .power] s t) ∧
    (k = 8 → s.power.bistRunning = false → s.therm.held = false → s.power.bistDue = false → s.d0Up = true → Completes .rpllLock s fun t =>
      t.power.refclk = true ∧ t.stage = 0 ∧ (∀ d, d < 2 → (t.die d).inReset = false ∧ (t.die d).powered = true) ∧
      SameBut [.regs, .power, .dies, .syn, .mem] s t) ∧
    (1 ≤ k → k ≤ 8 → s.power.bistRunning = false → Completes (.stageFail k) s fun t =>
      PackageLost s t ∧ t.power.retry = some k ∧ (∀ j, k ≤ j → bitAt t.power.railsUp j = false) ∧
      t.getB PWR.AON_STAT_FAULT.f = true ∧ t.get PWR.AON_STAT_FCODE.f = stageCode k)) ∧
  (∀ (s : State) (k : Nat), s.sequencing = true → 1 ≤ k → k ≤ 5 → bitAt s.power.railsUp k = true → Completes (.railFailure k) s fun t =>
    let j := if k = 1 then 1 else if k < s.stage ∧ s.stage ≤ 5 then s.stage else k
    PackageLost s t ∧ t.power.retry = some j ∧ bitAt t.power.railsUp k = false ∧ t.getB PWR.AON_STAT_FAULT.f = true ∧
    t.get PWR.AON_STAT_FCODE.f = stageCode j) ∧
  (∀ (s : State) (k : Nat), s.power.retry = some k → Completes .stageRetry s fun t =>
    t.power = { s.power with retry := none } ∧ t.stage = s.firstDown ∧ SameBut [.regs, .power] s t ∧
    RegsBut [PWR.AON_STAT_STAGE.f, PWR.AON_STAT_WAKE_CAUSE.f] s t) ∧
  (∀ (s : State) (failed : List Nat), s.power.bistRunning = true → s.sequencing = true →
    (failed.any sliceCritical = true → Completes (.bistComplete failed) s fun t =>
      t.get PWR.AON_STAT_HELD_CAUSE.f = 1 ∧ t.getB PWR.AON_STAT_FAULT.f = true ∧ t.get PWR.AON_STAT_FCODE.f = 0 ∧ t.stage = 0 ∧
      t.power.bistRunning = false ∧ t.power.d0Reset = s.power.d0Reset ∧ SameBut [.regs, .power, .freeCtr] s t) ∧
    (failed.any sliceCritical = false → Completes (.bistComplete failed) s fun t =>
      t.get PWR.AON_STAT_HELD_CAUSE.f = (if s.get PWR.AON_STAT_HELD_CAUSE.f = 1 then 0 else s.get PWR.AON_STAT_HELD_CAUSE.f) ∧
      t.stage = 0 ∧ t.power.bistRunning = false ∧
      (s.repairMap = some [] → ∀ k, k < 104 → t.getB (TILE.TILE_INFO_FAILED.f k) = failed.contains k) ∧
      SameBut [.regs, .power, .freeCtr] s t)) ∧
  (∀ (s : State) (a b : List (Nat × WordErr)), s.canStartD0 = true → Completes (.d0ResetEnd a b) s fun t =>
    t.power.d0Reset = false ∧ t.time = .fresh ∧ t.ctx.ready = true ∧ t.loader.named = none ∧
    t.loader.toTry = bootOrder (s.loader.named.getD (s.power.wake.getD 0)) ∧
    (s.power.refclk = true → s.stage = 0 → ∀ d, d < 2 → (t.die d).inReset = false) ∧ t.mram = (s.calUpsets a b).mram ∧ t.keys = s.keys)

/-- A WAIT with nothing to park, gate or change completes OK and halts the core; one to IDLE in IDLE completes
BAD_STATE; one to DEEP_STANDBY completes and starts the drain of the package; one with a group to park starts its
drain and goes on, and one with a group to return starts its return. DRAIN_COMPLETE with nothing left, and
DRAIN_DISCARD with or without something left, end the drain: they park the lanes of a group squelched, gate a region,
or enter DEEP_STANDBY with D0 in reset; with nothing left the package is lost, its MRAM and keys kept.
RETURN_TO_ACTIVE clears the parked bits of a group (a light-on wake clears its PARK bit too) or gives a region its
power again. LINE_DIE_REAPPLY gives a powered line die its configuration again and takes it out of reset. The static
address on the bus wakes the package at stage 2 with WAKE_CAUSE 2, and another address does not; a brown-out of AON
loses the save RAM and starts at stage 1. REFCLK_LOST holds the line dies in reset and zeroes the host outputs; at
REFCLK_RETURN TIME_SET is cleared and, out of IDLE, the line dies leave reset. -/
def Obligations.PowerStatesAndReturns : Prop :=
  (∀ (s : State) (w : List Nat), s.headIs .core 8 0 = some w → s.power.wait = none →
    (s.get PWR.PWR_MODE_STATE.f = 1 → s.idle = true → Completes .wait s fun t =>
      Answered .core w .badState 0 0 0 s t ∧ t.get PWR.PWR_STAT_CHANGING.f = 0 ∧ t.power.drains = s.power.drains ∧
      SameBut [.regs, .mgmt, .power] s t ∧ RegsBut [PWR.PWR_STAT_CHANGING.f, INTC.SRC_COUNT.f 0 294] s t) ∧
    (s.get PWR.PWR_MODE_STATE.f = 0 → s.idle = false → s.parkDone = true → s.gateDone = true → Completes .wait s fun t =>
      Answered .core w .ok 0 0 0 s t ∧ t.get PWR.PWR_STAT_CHANGING.f = 0 ∧ t.get INTC.IC_STAT_CORE_WAIT.f = 1 ∧
      t.power.drains = s.power.drains ∧ SameBut [.regs, .mgmt, .power] s t ∧
      RegsBut [PWR.PWR_STAT_CHANGING.f, INTC.IC_STAT_CORE_WAIT.f, INTC.SRC_COUNT.f 0 294] s t) ∧
    (s.get PWR.PWR_MODE_STATE.f = 2 → (s.idle = false → s.parkDone = true ∧ s.gateDone = true) → Completes .wait s fun t =>
      Answered .core w .ok 0 0 0 s t ∧ .package ∈ t.power.drains ∧ t.power.wait = none) ∧
    (∀ g, g < 8 → s.lowest g = true → s.wantsPark g = true → s.reloadIn (.group g) = false → s.idle = false → Completes .wait s fun t =>
      .group g ∈ t.power.drains ∧ t.power.wait.isSome = true ∧ t.mgmt = s.mgmt) ∧
    (∀ g, g < 8 → s.lowest g = true → s.wantsUnpark g = true → s.idle = false → Completes .wait s fun t =>
      t.power.returns.any (fun r => decide (r.1 = .group g)) = true ∧ t.power.wait.isSome = true ∧ t.mgmt = s.mgmt)) ∧
  (∀ (s : State) (d : Domain), s.power.wait = none → s.power.drains.contains d = true →
    let ended (t : State) : Prop :=
      t.power.drains = (if d = .package then [] else s.power.drains.erase d) ∧
      (∀ g, d = .group g → g < 8 → s.lowest g = true → ∀ n ∈ s.groupLanes g, t.parked n = true ∧ t.squelched n = true) ∧
      (∀ r, d = .region r → r < 4 → t.gated r = true) ∧ (d = .package → t.standby = true ∧ t.power.d0Reset = true)
    (s.drained d = true → Completes (.drainComplete d) s fun t =>
      ended t ∧ (d = .package → PackageLost s t) ∧ t.mram = s.mram ∧ t.keys = s.keys) ∧
    (s.drained d = true → Completes (.drainDiscard d) s fun t =>
      ended t ∧ (d = .package → PackageLost s t) ∧ t.mram = s.mram ∧ t.keys = s.keys) ∧
    (s.drained d = false → Completes (.drainDiscard d) s fun t => ended t ∧ t.mram = s.mram ∧ t.keys = s.keys)) ∧
  (∀ (s : State) (d : Domain) (byLight : Bool), s.power.wait = none → s.power.returns = [(d, byLight)] → s.canReturn d = true →
    (∀ g, d = .group g → g < 8 → s.lowest g = true → Completes (.returnToActive d) s fun t =>
      t.power.returns = [] ∧ (∀ n ∈ s.groupLanes g, t.parked n = false) ∧
      (byLight = true → bitAt (t.get PWR.PWR_MODE_PARK.f) g = false)) ∧
    (∀ r, d = .region r → r < 4 → Completes (.returnToActive d) s fun t =>
      t = (({ s with power := { s.power with returns := [] } } : State).wakeRegion r).waitStep ∧
      (s.keptEntries = [] → t.power.returns = [] ∧ t.gated r = false))) ∧
  (∀ (s : State) (d : LineDie), s.power.wait = none → s.d0Up = true → (s.die d).reapply = true → (s.die d).powered = true →
    s.power.refclk = true → Completes (.lineDieReapply d) s fun t =>
      t = (s.reapplyDie d).waitStep ∧ (s.keptEntries = [] → (t.die d).inReset = false ∧ (t.die d).reapply = false)) ∧
  (∀ (s : State) (dev : BitVec 7), s.power.vin = .up →
    (s.standby = true → dev.toNat = s.staticAddr → Completes (.addressMatchWake dev) s fun t =>
      t.stage = 2 ∧ t.get PWR.PWR_STAT_STATE.f = 0 ∧ t.get PWR.AON_STAT_WAKE_CAUSE.f = 2 ∧
      t.power = { s.power with wake := some s.savedSlot, bistDue := false } ∧ SameBut [.regs, .power] s t ∧
      RegsBut [PWR.PWR_STAT_STATE.f, PWR.AON_STAT_STAGE.f, PWR.AON_STAT_WAKE_CAUSE.f] s t) ∧
    (dev.toNat ≠ s.staticAddr → Completes (.addressMatchWake dev) s fun t => t = s) ∧
    (s.standby = true ∨ s.power.wake.isSome = true → Completes .aonBrownout s fun t =>
      PackageLost s t ∧ t.stage = 1 ∧ t.power.save = [] ∧ t.power.wake = none ∧ t.power.bistDue = true ∧ t.power.vin = .up)) ∧
  (∀ s : State, s.sequencing = true →
    (s.power.refclk = true → s.d0Up = false → Completes .refclkLost s fun t =>
      t.power.refclk = false ∧ t.getB PWR.PWR_STAT_REFCLK_OK.f = false ∧ SameBut [.regs, .power] s t) ∧
    (s.power.refclk = true → s.d0Up = true → Completes .refclkLost s fun t =>
      t.power.refclk = false ∧ t.getB PWR.PWR_STAT_REFCLK_OK.f = false ∧ t.get PWR.PWR_STAT_CORE_CLK.f = 0 ∧
      (∀ h, h < 16 → (t.host h).out = .zero) ∧
      (∀ d, d < 2 → (s.die d).powered = true → (t.die d).inReset = true) ∧ t.time.tick = s.time.tick) ∧
    (s.power.refclk = false → s.stage ≤ 6 → s.railsTo 1 5 = true → s.d0Up = false → Completes .refclkReturn s fun t =>
      t.power.refclk = true ∧ t.getB PWR.PWR_STAT_REFCLK_OK.f = true ∧ SameBut [.regs, .power] s t) ∧
    (s.power.refclk = false → s.stage ≤ 6 → s.railsTo 1 5 = true → s.d0Up = true → s.keptEntries = [] → Completes .refclkReturn s fun t =>
      t.power.refclk = true ∧ t.getB PWR.PWR_STAT_REFCLK_OK.f = true ∧ t.getB TIME.TIME_STAT_TIME_SET.f = false ∧
      (s.idle = true → s.power.leavingIdle = false → t.dies = s.dies) ∧
      (s.idle = false → ∀ d, d < 2 → (s.die d).powered = true → (t.die d).inReset = false)))

/-- An assertion of RESET_N that can act loses the package, discards the save RAM and sets WAKE_CAUSE 1; its release
lets D0 go on, or starts BIST again from the held safe state. PKG_RESET acts like it with the key 0xA5 and is refused
with any other. A die reset of a powered die that is not busy, with no WAIT under way, puts the die into reset with
BUSY set and its lanes' receive paths lost; it is refused otherwise, and ignored while busy. A JTAG instruction that
holds the dies loses the package; leaving it sets WAKE_CAUSE 1. BOOT is a package reset that names the slot. -/
def Obligations.ResetsAndTestAccess : Prop :=
  (∀ s : State, s.power.resetN = false → s.resetActs = true → Completes .resetNAssert s fun t =>
    PackageLost s t ∧ t.power.resetN = true ∧ t.get PWR.AON_STAT_WAKE_CAUSE.f = 1 ∧ t.power.save = []) ∧
  (∀ s : State, s.power.resetN = true ∨ s.resetActs = false → Completes .resetNAssert s fun t =>
    t.power = { s.power with resetN := true } ∧ SameBut [.power] s t) ∧
  (∀ s : State, s.power.resetN = true →
    (s.get PWR.AON_STAT_HELD_CAUSE.f ≠ 1 ∨ s.resetActs = false → Completes .resetNRelease s fun t =>
      t.power = { s.power with resetN := false } ∧ SameBut [.power] s t) ∧
    (s.get PWR.AON_STAT_HELD_CAUSE.f = 1 → s.resetActs = true → Completes .resetNRelease s fun t =>
      t.power = { s.power with resetN := false, bistRunning := true } ∧ t.get PWR.AON_STAT_HELD_CAUSE.f = 0 ∧
      t.getB PWR.AON_STAT_FAULT.f = false ∧ SameBut [.regs, .power] s t ∧
      RegsBut [PWR.AON_STAT_HELD_CAUSE.f, PWR.AON_STAT_FAULT.f, PWR.AON_STAT_FCODE.f] s t)) ∧
  (∀ (s : State) (key : Byte), s.d0Up = true →
    (key = 0xA5 → Completes (.pkgReset key) s fun t =>
      PackageLost s t ∧ t.get PWR.AON_STAT_WAKE_CAUSE.f = 1 ∧ t.power.save = []) ∧
    (key ≠ 0xA5 → Completes (.pkgReset key) s fun t =>
      t.getB GLOBAL.G_EVT_RESET_REFUSED.f = true ∧ OnlyRegs [GLOBAL.G_EVT_RESET_REFUSED.f] s t)) ∧
  (∀ (s : State) (d : LineDie), s.d0Up = true →
    let busy := if d.val = 0 then GLOBAL.RST_STAT_D1_BUSY.f else GLOBAL.RST_STAT_D2_BUSY.f
    (s.getB busy = false → (s.die d).powered = true → s.getB PWR.PWR_STAT_CHANGING.f = false →
      Completes (.d1Reset (decide (d.val = 0)) (decide (d.val = 1))) s fun t =>
        t.getB busy = true ∧ (t.die d).inReset = true ∧ (t.die d).reapply = true ∧
        (∀ n, n < 8 → n / 4 = d.val → (t.lane n).rxp = .fresh ∧ (t.lane n).delivered = none)) ∧
    (s.getB busy = false → (s.die d).powered = false ∨ s.getB PWR.PWR_STAT_CHANGING.f = true →
      Completes (.d1Reset (decide (d.val = 0)) (decide (d.val = 1))) s fun t =>
        t.getB GLOBAL.G_EVT_RESET_REFUSED.f = true ∧ OnlyRegs [GLOBAL.G_EVT_RESET_REFUSED.f] s t) ∧
    (s.getB busy = true → exec (.d1Reset (decide (d.val = 0)) (decide (d.val = 1))) s = .next s)) ∧
  (∀ (s : State) (ir : TapInstr), bitAt s.power.railsUp 2 = true →
    (tapHolds ir = true → tapHolds s.tap = false → Completes (.jtagInstruction ir) s fun t => PackageLost s t ∧ t.tap = ir) ∧
    (tapHolds ir = tapHolds s.tap → Completes (.jtagInstruction ir) s fun t => t.tap = ir ∧ SameBut [.tap] s t) ∧
    (tapHolds ir = false → tapHolds s.tap = true → s.resetActs = true → Completes (.jtagInstruction ir) s fun t =>
      t.tap = ir ∧ t.get PWR.AON_STAT_WAKE_CAUSE.f = 1 ∧ SameBut [.regs, .power, .tap] s t)) ∧
  (∀ s : State, tapHolds s.tap = true → s.resetActs = true → Completes .jtagInstructionExit s fun t =>
    t.tap = .idcode ∧ t.get PWR.AON_STAT_WAKE_CAUSE.f = 1 ∧ SameBut [.regs, .power, .tap] s t) ∧
  (∀ (s : State) (w : List Nat), s.loaderHead 4 = some w → Completes .boot s fun t =>
    PackageLost s t ∧ t.loader.named = some (cmdWord w 1))

/-- SLOT_BEGIN erases the slot's header and starts a slot write at offset 0. SLOT_CHUNK in a slot write stores its
bytes at the offset, those of the header in D0 and the others in the MRAM, and advances the offset; beyond 3 MiB it
ends with LENGTH, on poisoned staging bytes with code 14. SLOT_END reads the slot's content, with its upsets, counts
what ECC finds, writes the held header if the content passes the image checks, and otherwise ends with the code that
failed. A write that MRAM refuses or fails ends with code 15; a chunk or an end without a slot write completes
BAD_STATE. Every other byte of MRAM stands. -/
def Obligations.SlotWrites : Prop :=
  (∀ (s : State) (w : List Nat) (ok : Bool), s.loaderHead 1 = some w →
    let slot := cmdWord w 1
    (s.mramRefused = true → Completes (.slotBegin ok) s fun t =>
      t.loader = { s.loader with run := some 15 } ∧ SameBut [.loader] s t) ∧
    (s.mramRefused = false → Completes (.slotBegin ok) s fun t =>
      t.loader = (if ok then { s.loader with write := some ⟨slot, 0, List.replicate 64 0⟩, run := some 0 }
        else { s.loader with run := some 15 }) ∧
      (∀ a, slotBase slot ≤ a → a < slotBase slot + 64 → ok = true → t.mramByte a = 0 ∧ t.mramBad a = false) ∧
      (∀ a, a < slotBase slot ∨ slotBase slot + 64 ≤ a → t.mramByte a = s.mramByte a) ∧
      SameBut [.mram, .loader, .freeCtr] s t)) ∧
  (∀ (s : State) (w : List Nat) (x : SlotWrite) (ok : Bool), s.loaderHead 2 = some w → s.loader.write = some x →
    x.header.length = 64 →
    let n := cmdWord w 1
    let bs := (s.stagingSrc n).bytes
    (3145728 < x.offset + n → Completes (.slotChunk ok) s fun t =>
      t.loader = { s.loader with write := none, run := some 6 } ∧ SameBut [.loader] s t) ∧
    (x.offset + n ≤ 3145728 → s.stagingBad n = none → s.mramRefused = false → ok = true → Completes (.slotChunk ok) s fun t =>
      t.loader.run = some 0 ∧
      t.loader.write = some ⟨x.slot, x.offset + n, (List.range 64).map fun i =>
        if x.offset ≤ i ∧ i < x.offset + n then bs.getD (i - x.offset) 0 else x.header.getD i 0⟩ ∧
      (∀ i, i < n → 64 ≤ x.offset + i →
        t.mramByte (slotBase x.slot + x.offset + i) = BitVec.ofNat 8 (bs.getD i 0)) ∧
      (∀ a, a < slotBase x.slot + max 64 x.offset ∨ slotBase x.slot + max 64 (x.offset + n) ≤ a → t.mramByte a = s.mramByte a) ∧
      SameBut [.mram, .loader] s t) ∧
    (x.offset + n ≤ 3145728 → s.stagingBad n = none → s.mramRefused = true ∨ ok = false → Completes (.slotChunk ok) s fun t =>
      t.loader = { s.loader with write := none, run := some 15 } ∧
      (∀ a, a < slotBase x.slot + max 64 x.offset ∨ slotBase x.slot + max 64 (x.offset + n) ≤ a → t.mramByte a = s.mramByte a) ∧
      SameBut [.mram, .loader, .freeCtr] s t) ∧
    (∀ u, x.offset + n ≤ 3145728 → s.stagingBad n = some u → Completes (.slotChunk ok) s fun t =>
      t.loader = { s.loader with write := none, run := some 14 } ∧ t.srcLevel 341 = true ∧ SameBut [.regs, .loader] s t)) ∧
  (∀ (s : State) (w : List Nat) (x : SlotWrite) (ok : Bool) (es : List (Nat × WordErr)), s.loaderHead 3 = some w →
    s.loader.write = some x →
    let u := (s.mramUpsets (slotBase x.slot) es).mramScan (slotBase x.slot) x.offset
    let code := (u.checkImage (u.slotSrc x.slot x.offset (x.header.take x.offset)) (.slotEnd x.offset)).1
    (code ≠ 0 → Completes (.slotEnd ok es) s fun t =>
      t.loader = { s.loader with write := none, run := some code } ∧ t.mram = u.mram ∧ t.regs = u.regs ∧
      (∀ a, t.mramByte a = s.mramByte a) ∧ SameBut [.regs, .mram, .loader] s t) ∧
    (code = 0 → s.mramRefused = true ∨ ok = false → Completes (.slotEnd ok es) s fun t =>
      t.loader = { s.loader with write := none, run := some 15 } ∧ t.mram = u.mram ∧ t.regs = u.regs ∧
      (∀ a, t.mramByte a = s.mramByte a) ∧ SameBut [.regs, .mram, .loader] s t) ∧
    (code = 0 → s.mramRefused = false → ok = true → Completes (.slotEnd ok es) s fun t =>
      t.loader = { s.loader with write := none, run := some 0 } ∧ t.regs = u.regs ∧
      (∀ i, i < x.header.length → t.mramByte (slotBase x.slot + i) = BitVec.ofNat 8 (x.header.getD i 0)) ∧
      (∀ a, a < slotBase x.slot ∨ slotBase x.slot + x.header.length ≤ a → t.mramByte a = s.mramByte a) ∧
      SameBut [.regs, .mram, .loader] s t)) ∧
  (∀ (s : State) (w : List Nat) (ok : Bool), s.loader.write = none →
    (s.loaderHead 2 = some w → Completes (.slotChunk ok) s fun t => Answered .loader w .badState 0 0 0 s t ∧
      SameBut [.regs, .mgmt] s t ∧ RegsBut [LOADER.STATUS_BUSY.f, INTC.SRC_COUNT.f 0 294] s t) ∧
    (∀ es, s.loaderHead 3 = some w → Completes (.slotEnd ok es) s fun t => Answered .loader w .badState 0 0 0 s t ∧
      SameBut [.regs, .mgmt] s t ∧ RegsBut [LOADER.STATUS_BUSY.f, INTC.SRC_COUNT.f 0 294] s t))

/-- BOOT_SLOT_CHECKED reads the next slot, with its upsets: a slot that passes is accepted with its code in the slot's
error field, one that fails is left, and with none left the device is in the no-image state. IMAGE_APPLY of an
accepted image with no REGINIT entries retains its configuration, sets the write locks by its LOCK flag and releases
the core at ENTRY of its firmware. PARTIAL completes LOADER_ERROR with the code of a failed check and ABORTED_FAULT
where the line die is not up, and otherwise starts the outage of its region, both lanes squelched by RELOAD. The end
of the outage of a partial image with no REGINIT entries replaces the region's part of the retained configuration and
completes the command OK. -/
def Obligations.BootAndPartialLoads : Prop :=
  (∀ (s : State) (slot : Nat) (rest : List Nat) (es : List (Nat × WordErr)), s.booting = true → s.loader.toTry = slot :: rest →
    let m := s.mramUpsets (slotBase slot) es
    let u := m.mramScan (slotBase slot) (m.slotLength slot)
    (∀ img, (u.slotImage slot).2 = some img → Completes (.bootSlotChecked es) s fun t =>
      t.loader = { s.loader with toTry := [], accepted := some img } ∧ t.get (errFld slot) = (u.slotImage slot).1 % 16 ∧
      t.mram = m.mram ∧ SameBut [.regs, .loader, .mram] s t) ∧
    ((u.slotImage slot).2 = none → rest ≠ [] → Completes (.bootSlotChecked es) s fun t =>
      t.loader = { s.loader with toTry := rest } ∧ t.get (errFld slot) = (u.slotImage slot).1 % 16 ∧ t.mram = m.mram ∧
      SameBut [.regs, .loader, .mram] s t) ∧
    ((u.slotImage slot).2 = none → rest = [] → Completes (.bootSlotChecked es) s fun t =>
      t.loader = { s.loader with toTry := [], noImage := true } ∧ t.srcLevel 290 = true ∧ t.get LOADER.STATUS_SOURCE.f = 0 ∧
      t.mram = m.mram ∧ SameBut [.regs, .loader, .mram] s t)) ∧
  (∀ (s : State) (img : Image), s.loader.accepted = some img → s.d0Up = true → s.power.wake = none →
    (retainedOf img).reginit = [] → Completes .imageApply s fun t =>
      t.loader.accepted = none ∧ t.loader.retained = some (retainedOf img) ∧ t.loader.locks = [img.lock, img.lock, img.lock] ∧
      t.loader.coreEntry.isSome = true ∧ (∀ b, sectionOf img.sections 5 = some b → t.loader.coreEntry = some (leField b 4 4)) ∧
      t.keys = s.keys ∧ t.mram = s.mram) ∧
  (∀ (s : State) (w : List Nat), s.loaderHead 0 = some w →
    let g := s.stagingSrc (cmdWord w 1)
    let r := s.checkImage g (.part (cmdWord w 1))
    let x := partOf r.2 ((g.run 0 64).getD 0x0C 0)
    (r.1 ≠ 0 → Completes .partialLoad s fun t =>
      Answered .loader w .loaderError r.1 0 0 s t ∧ t.get LOADER.ERR_ERR_LAST.f = r.1 % 16 ∧ t.loader = s.loader ∧
      SameBut [.regs, .mgmt, .loader] s t) ∧
    (r.1 = 0 → s.gated x.region = false → s.dieUp (2 * x.region / 4) = false → Completes .partialLoad s fun t =>
      Answered .loader w .abortedFault 0 0 0 s t ∧ SameBut [.regs, .mgmt] s t ∧
      RegsBut [LOADER.STATUS_BUSY.f, INTC.SRC_COUNT.f 0 294] s t) ∧
    (r.1 = 0 → s.gated x.region = false → s.dieUp (2 * x.region / 4) = true → x.region < 4 → Completes .partialLoad s fun t =>
      t.loader = { s.loader with part := some x } ∧ t.mgmt = s.mgmt ∧ bitAt (t.reasons (2 * x.region)) 3 = true ∧
      bitAt (t.reasons (2 * x.region + 1)) 3 = true)) ∧
  (∀ (s : State) (w : List Nat) (r : Region) (x : Partial), s.loader.part = some x → x.region = r.val → x.reginit = [] →
    s.power.wait = none → s.headIs .loader 1 0 = some w → Completes (.partialOutageEnd r) s fun t =>
      t.loader.part = none ∧ t.loader.retained = s.loader.retained.map (fun c => c.replacePart x) ∧
      t.mgmt.cpls.getLast? = some ⟨cmdTag w, cmdOpcode w, .ok, 0, 0, 0⟩)

/-- An entry sent to a queue with a credit spends it and joins the entries, and the high-water mark follows; a taken
entry returns its credit. The lane numbers the samples it sends, a host receiver demaps its symbols, and D0 makes the
entries toward the line and the hosts itself: in mode T the row or the 128 bits next in turn. The memory controller
serves a read at the head of the context request queue only with a credit of the return queue, with the 64 bytes it
names. Without a credit a producer that cannot stall loses the entry and sets OVF, and any other waits with nothing
changed. A lost credit, even the last one, sets CREDIT_ERR and reinitialises the queue. An active consumer that finds
its queue empty beyond STARVE_LIMIT with STARVE_EN sets STARVE, and an empty host transmit queue gives the fault
stream. HWM_CLR sets the high-water mark to the occupancy, and the Nutmeg one to the fill of both buffers. Other
queues stand. -/
def Obligations.CreditQueues : Prop :=
  (∀ (s : State) (q : QueueId) (e : QEntry), s.queueRuns q = true → QueueKind.carries q.kind e.data = true → s.drainStops q = false →
    (s.queue q).conserved q.kind = true →
    let sent (x : QEntry) : QueueSt := { s.queue q with
      credits := (s.queue q).credits - 1, entries := (s.queue q).entries ++ [x]
      hwm := max (s.queue q).hwm ((s.queue q).entries.length + 1) }
    let others (t : State) : Prop := ∀ p : QueueId, p.key ≠ q.key → t.queue p = s.queue p
    ((s.queue q).credits ≠ 0 → q.kind ∉ [QueueKind.adcFfe, .hostRx, .d0Link, .hostTx] → Completes (.queueEntry q e false false) s fun t =>
      t.queue q = sent e ∧ others t ∧ SameBut [.queues] s t) ∧
    (∀ raw c, (s.queue q).credits ≠ 0 → q.kind = .adcFfe → e.data = .samples raw c → Completes (.queueEntry q e false false) s fun t =>
      t.queue q = sent { e with data := .samples raw (s.lane q.inst).rxp.sampled } ∧ others t ∧
      (t.lane q.inst).rxp.sampled = (s.lane q.inst).rxp.sampled + 1 ∧ SameBut [.regs, .counts, .lanes, .queues] s t) ∧
    (∀ sy bad, (s.queue q).credits ≠ 0 → q.kind = .hostRx → e.data = .host sy bad → Completes (.queueEntry q e false false) s fun t =>
      t.queue q = sent { e with data := .host (BitVec.ofNat 128 (s.hostGet q.inst sy.toNat).1) (!s.hostLocked q.inst) } ∧ others t ∧
      SameBut [.regs, .hosts, .queues] s t) ∧
    (∀ r rest, (s.queue q).credits ≠ 0 → q.kind = .d0Link → s.modeR q.inst = false →
      (if (s.port q.inst).rowTurnB then (s.port q.inst).rowsB else (s.port q.inst).rowsA) = r :: rest →
      Completes (.queueEntry q e false false) s fun t =>
        (t.port q.inst).rowTurnB = !(s.port q.inst).rowTurnB ∧
        (if (s.port q.inst).rowTurnB then (t.port q.inst).rowsB else (t.port q.inst).rowsA) = rest ∧
        ((s.queue ⟨.linkTxp, q.inst⟩).credits = 0 → t.queue q = sent { r with poison := r.poison || e.poison } ∧ others t) ∧
        SameBut [.queues, .ports] s t) ∧
    ((s.queue q).credits ≠ 0 → q.kind = .d0Link → s.modeR q.inst = true → Completes (.queueEntry q e false false) s fun t =>
      (t.queue q).conserved q.kind = true ∧ (t.queue q).entries.length ≤ (s.queue q).entries.length + 1 ∧
      SameBut [.regs, .counts, .lanes, .ports, .queues] s t) ∧
    (∀ n b, (s.queue q).credits ≠ 0 → q.kind = .hostTx → s.hostRole q.inst = some (n, b) → s.modeR n = false →
      s.streamHost n b = some q.inst → 128 ≤ (s.outBits n b).length → Completes (.queueEntry q e false false) s fun t =>
        t.queue q = sent ⟨.host (BitVec.ofNat 128 (topBits ((s.outBits n b).take 128))) false, false⟩ ∧ others t ∧
        t.outBits n b = (s.outBits n b).drop 128 ∧ SameBut [.queues, .ports] s t) ∧
    (∀ n b, (s.queue q).credits ≠ 0 → q.kind = .hostTx → s.hostRole q.inst = some (n, b) → s.modeR n = true →
      Completes (.queueEntry q e false false) s fun t =>
        (t.queue q).conserved q.kind = true ∧ (t.queue q).entries.length ≤ (s.queue q).entries.length + 1 ∧
        SameBut [.regs, .counts, .ports, .queues] s t) ∧
    ((s.queue q).credits ≠ 0 → q.kind ∈ [QueueKind.memRet, .ctxPort] → Completes (.queueEntry q e true false) s fun t =>
      (t.queue q).entries = ((s.queue q).entries ++ [e]).drop 1 ∧ (t.queue q).credits = (s.queue q).credits ∧ others t ∧
      SameBut [.queues] s t) ∧
    (∀ h a w, (s.queue q).credits ≠ 0 → q.kind = .ctxReq → ((s.queue q).entries ++ [e]).head? = some h → h.data = .request a w →
      let bs := (List.range 8).flatMap (fun i => s.d3Bytes (a.toNat / 64 * 64 + 8 * i))
      let r := s.queue ⟨.memRet, 0⟩
      (w = true ∨ r.credits ≠ 0 → Completes (.queueEntry q e true false) s fun t =>
        (t.queue q).entries = ((s.queue q).entries ++ [e]).drop 1 ∧ (t.queue q).credits = (s.queue q).credits ∧
        (t.queue ⟨.memRet, 0⟩).entries = (if w then r.entries else r.entries ++ [⟨.burst (bs.map (·.val)), bs.any (·.poison)⟩]) ∧
        (t.queue ⟨.memRet, 0⟩).credits = (if w then r.credits else r.credits - 1) ∧ SameBut [.queues] s t) ∧
      (w = false → r.credits = 0 → Completes (.queueEntry q e true false) s fun t =>
        t.queue q = sent e ∧ others t ∧ SameBut [.queues] s t)) ∧
    ((s.queue q).credits = 0 → q.kind ∈ [QueueKind.adcFfe, .hostRx, .cmdRing] → Completes (.queueEntry q e false false) s fun t =>
      t.queue q = { s.queue q with ovf := true } ∧ others t) ∧
    ((s.queue q).credits = 0 → q.kind ∉ [QueueKind.adcFfe, .hostRx, .cmdRing] → exec (.queueEntry q e false false) s = .next s) ∧
    (q.kind ∈ [QueueKind.adcFfe, .linkTxp, .cmdRing] → Completes (.queueEntry q e false true) s fun t =>
      (t.queue q).creditErr = true ∧ (t.queue q).credits = q.kind.depth ∧ (t.queue q).entries = [] ∧ others t)) ∧
  (∀ (s : State) (q : QueueId) (k : Nat), s.queueRuns q = true → s.consumerActive q = true → (s.queue q).entries = [] →
    let x := s.queue q
    let set := x.starveEn && decide (x.waited ≤ x.starveLimit) && decide (x.starveLimit < x.waited + k)
    (q.kind ∈ [QueueKind.adcFfe, .linkTxp, .d0Link, .memRet, .ctxPort] → Completes (.starve q k) s fun t =>
      t.queue q = { x with waited := x.waited + k, starve := x.starve || set } ∧
      (∀ p : QueueId, p.key ≠ q.key → t.queue p = s.queue p) ∧ SameBut [.regs, .queues] s t) ∧
    (q.kind = .hostTx → 0 < k → (s.hostRole q.inst).isSome = true → Completes (.starve q k) s fun t =>
      t.queue q = { x with waited := x.waited + k, starve := x.starve || set } ∧ (t.host q.inst).out = .faultStream ∧
      SameBut [.regs, .queues, .ports, .hosts] s t)) ∧
  (∀ (s : State) (q : QueueId) (rises : Bool), s.monitorServed q = true → Completes (.hwmClr q rises) s fun t =>
    t.queue q = { s.queue q with hwm := (s.queue q).entries.length + natOf rises } ∧
    (∀ p : QueueId, p.key ≠ q.key → t.queue p = s.queue p) ∧ SameBut [.queues] s t) ∧
  (∀ (s : State) (n : Lane), s.d0Up = true → Completes (.nmHwmClr n) s fun t =>
    t.get (PORT.NM_HWM_HWM_A.f n) = (s.port n).a.nm.length % 2 ^ 13 ∧
    t.get (PORT.NM_HWM_HWM_B.f n) = (s.port n).b.nm.length % 2 ^ 13 ∧
    OnlyRegs [PORT.NM_HWM_HWM_A.f n, PORT.NM_HWM_HWM_B.f n] s t)

/-- The factory peer ID of a serial number is a 32-bit value with bit 31 set whose bits 30 to 0 are those of the
CRC-32C over the eight bytes of the serial number, least significant byte first; a peer ID with bit 31 clear, which
the host must assign, never equals it. Right after reset TX_PEER of every lane holds it. -/
def Obligations.FactoryPeerIdNeverEqualsAHostId : Prop :=
  (∀ serial : BitVec 64,
    let p := factoryPeer serial.toNat
    p < 2 ^ 32 ∧ bitAt p 31 = true ∧ p % 2 ^ 31 = crc32c (leBytes 8 serial.toNat) % 2 ^ 31 ∧
    ∀ q : BitVec 32, q.getLsbD 31 = false → q.toNat ≠ p) ∧
  ∀ n : Lane, State.reset.get (BCN.TX_PEER_PEER_ID.f n) = factoryPeer State.reset.serial.toNat

/-- From the start of a window, four consecutive windows of 16 votes whose sums are at most 4 in magnitude leave
CDR_LOCK set, and a window whose sum is at least 12 leaves it clear; a window of neither kind, and fewer than four
quiet windows after one that was not quiet, leave it as it was. CDR_WINDOW before 16 votes changes nothing, and a
window changes nothing but CDR_LOCK and the lane's own counters. -/
def Obligations.CdrLockAfterFourQuietWindows : Prop :=
  (∀ (s : State) (n : Lane),
    let votes (s : State) (ps : List Int) : State := ps.foldl (fun s p => s.cdrVote n p) s
    let window (ps : List Int) : Prop := ps.length = 16
    let lock (t : State) : Bool := t.getB (LINE.RX_STATE_CDR_LOCK.f n)
    (s.lane n).rxp.voteN = 0 → (s.lane n).rxp.voteSum = 0 →
    (∀ a b c d, window a → window b → window c → window d → a.sum.natAbs ≤ 4 → b.sum.natAbs ≤ 4 → c.sum.natAbs ≤ 4 → d.sum.natAbs ≤ 4 →
      Completes (.cdrWindow n) (votes s a) fun t => Completes (.cdrWindow n) (votes t b) fun u => Completes (.cdrWindow n) (votes u c) fun v =>
        Completes (.cdrWindow n) (votes v d) fun w => lock w = true) ∧
    (∀ a, window a → 12 ≤ a.sum.natAbs → Completes (.cdrWindow n) (votes s a) fun t => lock t = false) ∧
    (∀ a b c d, window a → window b → window c → window d → 4 < a.sum.natAbs → b.sum.natAbs ≤ 4 → c.sum.natAbs ≤ 4 → d.sum.natAbs ≤ 4 →
      Completes (.cdrWindow n) (votes s a) fun t =>
        (a.sum.natAbs < 12 → lock t = lock s) ∧
        Completes (.cdrWindow n) (votes t b) fun u => Completes (.cdrWindow n) (votes u c) fun v =>
          Completes (.cdrWindow n) (votes v d) fun w => lock w = lock t)) ∧
  (∀ (s : State) (n : Lane), (s.lane n).rxp.voteN ≠ 16 → Completes (.cdrWindow n) s fun t => t = s) ∧
  (∀ (s : State) (n : Lane), Completes (.cdrWindow n) s fun t =>
    SameBut [.regs, .lanes] s t ∧ RegsBut [LINE.RX_STATE_CDR_LOCK.f n] s t ∧ LanesBut [n.val] s t)

/-- RESTART and PRESET_LOAD of a running lane start it from presets, in GAIN with light and in DARK without (for
PRESET_LOAD in OFF with ACQ_EN 0), or wait for a load or outage under way. The exits of CDR, BLIND, DD and TRAIN move
to the next state when their criterion is met and otherwise leave the lane. A timeout counts an attempt, raises
ACQ_FAIL and restarts at GAIN; WARM_FAIL restarts at GAIN. A gain measurement of 256 cycles moves GAIN_CODE one code
toward the target and leaves GAIN after four in range. A tracking interval in CAL sets every correction field to its
estimate, from the sums over the samples, and leaves CAL after two held intervals; in TRACK, WARM and SEARCH it moves
each field by one unit at most; with TRACK_FREEZE it moves none. What a measure has not yet gathered changes nothing.
A lane that leaves IDWAIT by RESTART or PRESET_LOAD may abandon its identification. -/
def Obligations.AcquisitionMovesThroughItsStates : Prop :=
  (∀ (s : State) (n : Lane), s.laneOn n = true → s.laneRuns n = true → s.restartWaits n = false →
    let preset := Equaliser.preset (s.cursor n) (s.getZ (LINE.PRESET_MAIN_PRESET.f n)) (s.get (LINE.DETECT_LEVEL_UNIT.f n))
      (s.get (LINE.PRESET_A1_PRESET.f n)) (s.get (LINE.PRESET_A2_PRESET.f n))
    (s.rx n ≠ .idwait → Completes (.restart n) s fun t =>
      t.rx n = (if s.light n then .gain else .dark) ∧ t.getB (LINE.RX_STATE_TRAINED.f n) = false ∧ (t.lane n).eq = preset ∧
      LanesBut [n.val] s t ∧ SameBut [.freeCtr, .regs, .counts, .lanes, .pools, .ports, .hosts, .dies] s t) ∧
    (s.rx n = .idwait → Completes (.restart n) s fun t => t = (s.startLane n true).leftIdwait (s.groupOf n)) ∧
    (s.rx n = .idwait → Completes (.presetLoad n) s fun t => t = (s.startLane n false).leftIdwait (s.groupOf n)) ∧
    (s.rx n ≠ .off → s.rx n ≠ .idwait → Completes (.presetLoad n) s fun t =>
      t.rx n = (if s.getB (LINE.RX_CTL_ACQ_EN.f n) then (if s.light n then .gain else .dark) else .off) ∧
      t.getB (LINE.RX_STATE_TRAINED.f n) = false ∧ (t.lane n).eq = preset ∧ LanesBut [n.val] s t ∧
      SameBut [.freeCtr, .regs, .counts, .lanes, .pools, .ports, .hosts, .dies] s t)) ∧
  (∀ (s : State) (n : Lane), s.laneOn n = true → s.laneRuns n = true → s.restartWaits n = true →
    (Completes (.restart n) s fun t => t.lane n = { s.lane n with restartDue := some true } ∧ SameBut [.lanes] s t ∧
      LanesBut [n.val] s t) ∧
    (s.rx n ≠ .off → Completes (.presetLoad n) s fun t => t.lane n = { s.lane n with restartDue := some false } ∧
      SameBut [.lanes] s t ∧ LanesBut [n.val] s t)) ∧
  (∀ (s : State) (n : Lane),
    let x := (s.lane n).rxp
    let unit := s.get (LINE.DETECT_LEVEL_UNIT.f n)
    let moved (r : RxState) (t : State) : Prop := t.rx n = r ∧ (t.lane n).eq = (s.lane n).eq ∧ LanesBut [n.val] s t ∧
      SameBut [.regs, .lanes, .dies] s t ∧ RegsBut [LINE.RX_STATE_STATE.f n] s t
    (s.rx n = .cdr → 256 ≤ x.lockHeld → Completes (.cdrDone n) s fun t => moved .blind t ∧ (t.lane n).rxp.exitN = 0) ∧
    (s.rx n = .cdr → x.lockHeld < 256 → Completes (.cdrDone n) s fun t => t = s) ∧
    (s.rx n = .blind → 4096 ≤ x.exitN → 9 * 4096 ≤ 10 * x.exitSum → Completes (.blindDone n) s fun t =>
      moved .dd t ∧ (t.lane n).rxp.exitN = 0) ∧
    (s.rx n = .blind → x.exitN < 4096 ∨ 10 * x.exitSum < 9 * 4096 → Completes (.blindDone n) s fun t => t = s) ∧
    (s.rx n = .dd → 16384 ≤ x.exitN → 16 * x.exitSum ≤ 16384 * (256 * unit) ^ 2 → Completes (.ddDone n) s (moved .train)) ∧
    (s.rx n = .dd → x.exitN < 16384 ∨ 16384 * (256 * unit) ^ 2 < 16 * x.exitSum → Completes (.ddDone n) s fun t => t = s) ∧
    (s.rx n = .train → Completes (.trainDone n) s fun t => moved .search t ∧ (t.lane n).runs = []) ∧
    ((s.rx n).timed = true → s.replacing n = false → s.reloading (n.val / 2) = false → Completes (.acqTimeout n) s fun t =>
      t.rx n = (if s.getB (LINE.RX_CTL_ACQ_EN.f n) then .gain else .off) ∧ t.srcLevel (30 * n.val + 1) = true ∧
      t.get (LINE.RX_STATE_ATTEMPT.f n) = min (s.get (LINE.RX_STATE_ATTEMPT.f n) + 1) 255 ∧
      t.getB (LINE.RX_STATE_TRAINED.f n) = false ∧ LanesBut [n.val] s t) ∧
    (s.rx n = .warm → s.replacing n = false → Completes (.warmFail n) s fun t =>
      t.rx n = (if s.getB (LINE.RX_CTL_ACQ_EN.f n) then .gain else .off) ∧ t.srcLevel (30 * n.val + 3) = true ∧
      t.getB (LINE.RX_STATE_TRAINED.f n) = false ∧ LanesBut [n.val] s t)) ∧
  (∀ (s : State) (n : Lane),
    let x := (s.lane n).rxp
    let target := s.get (LINE.AGC_TARGET_RMS.f n)
    let code := agcStep target x.agcSum (s.get (LINE.AGC_GAIN_CODE.f n)) % 64
    let held := if agcWithin target x.agcSum then (s.lane n).hold + 1 else 0
    (x.agcN = 256 → s.rx n = .gain → Completes (.agcMeasurement n) s fun t =>
      t.get (LINE.AGC_GAIN_CODE.f n) = code ∧ t.rx n = (if 4 ≤ held then .cal else .gain) ∧
      (t.lane n).hold = (if 4 ≤ held then 0 else held) ∧ (t.lane n).rxp.agcN = 0 ∧ LanesBut [n.val] s t ∧
      SameBut [.regs, .lanes, .dies] s t ∧ RegsBut [LINE.AGC_GAIN_CODE.f n, LINE.RX_STATE_STATE.f n] s t) ∧
    (x.agcN = 256 → s.rx n ≠ .gain → Completes (.agcMeasurement n) s fun t =>
      t.get (LINE.AGC_GAIN_CODE.f n) = (if s.rx n = .track ∧ s.getB (LINE.RX_CTL_AGC_TRACK.f n) = true then code
        else s.get (LINE.AGC_GAIN_CODE.f n)) ∧
      (t.lane n).rxp.agcN = 0 ∧ LanesBut [n.val] s t ∧ SameBut [.regs, .lanes] s t ∧ RegsBut [LINE.AGC_GAIN_CODE.f n] s t) ∧
    (x.agcN ≠ 256 → Completes (.agcMeasurement n) s fun t => t = s)) ∧
  (∀ (s : State) (n : Lane), s.rx n ∈ [RxState.cal, .track, .warm, .search] →
    (s.lane n).rxp.subs.all (fun a => decide (0 < a.n)) = true →
    let cal := decide (s.rx n = .cal)
    let held := if s.corrHeld n (s.estimates n) then (s.lane n).hold + 1 else 0
    (s.getB (LINE.RX_CTL_TRACK_FREEZE.f n) = false → Completes (.trackingInterval n) s fun t =>
      (∀ k, k < 64 →
        let e := estimateOf (s.lane n).rxp.subs k (s.getZ (LINE.CORR_GAIN.f n k)) (s.getZ (LINE.CORR_SKEW.f n k))
          (Config.freeValue (s.freeCtr + k) % 1024)
        t.getZ (LINE.CORR_OFFSET.f n k) = trackField cal 8 e.offset (s.getZ (LINE.CORR_OFFSET.f n k)) ∧
        t.getZ (LINE.CORR_GAIN.f n k) = trackField cal 10 e.gain (s.getZ (LINE.CORR_GAIN.f n k)) ∧
        t.getZ (LINE.CORR_SKEW.f n k) = trackField cal 10 e.skew (s.getZ (LINE.CORR_SKEW.f n k))) ∧
      t.rx n = (if s.rx n = .cal then (if 2 ≤ held then .cdr else .cal) else s.rx n) ∧
      (t.lane n).rxp.subs = List.replicate 64 .fresh ∧ LanesBut [n.val] s t ∧ SameBut [.freeCtr, .regs, .lanes, .dies] s t) ∧
    (s.getB (LINE.RX_CTL_TRACK_FREEZE.f n) = true → Completes (.trackingInterval n) s fun t =>
      (t.lane n).rxp.subs = List.replicate 64 .fresh ∧ LanesBut [n.val] s t ∧ SameBut [.lanes] s t))

/-- TAP_LOAD of a chain tile of a running lane sets one coefficient with its fraction cleared and discards an index
above 11. A write of WIN stores the nearer limit and starts a new window, whose end latches the sums, advances SEQ and
shows whether the lane stayed in TRACK. START clears the histogram and collects unless the lane is in OFF; on a parked
lane only POINT and LEN are stored; its end comes once 2^LEN samples are in. A crossing of the envelope changes ABOVE
with hysteresis and starts, or drops, the hold-off. LIGHT_ON and LIGHT_OFF set LIGHT with the stamp of the crossing;
light-on takes a dark lane to WARM or GAIN and light-off takes a lane to DARK. -/
def Obligations.ReceiveMeasurementsAndLight : Prop :=
  (∀ (s : State) (t : TileId) (i : Fin 16) (v : BitVec 12) (m p : Nat), s.laneRuns (tileLane t) = true → s.tileFailed t = false →
    s.get (TILE.TILE_INFO_FN.f t) = 1 → s.chainPos t = some (m, p) → (s.lane m).loading = false →
    (i.val < 12 → Completes (.tapLoad t i v) s fun u =>
      u.lane m = { s.lane m with eq := { (s.lane m).eq with taps := (s.lane m).eq.taps.set (12 * p + i) (4096 * v.toInt) } } ∧
      LanesBut [m] s u ∧ SameBut [.lanes] s u) ∧
    (12 ≤ i.val → exec (.tapLoad t i v) s = .next s)) ∧
  (∀ (s : State) (n : Lane) (w : BitVec 5), s.laneServed n = true → Completes (.winWrite n w) s fun t =>
    t.get (LINE.MEAS_CTL_WIN.f n) = clampNat 8 30 w.toNat ∧
    t.lane n = { s.lane n with meas := { Meas.fresh with allTrack := decide (s.rx n = .track) } } ∧ LanesBut [n.val] s t ∧
    SameBut [.regs, .lanes] s t ∧ RegsBut [LINE.MEAS_CTL_WIN.f n] s t) ∧
  (∀ (s : State) (n : Lane), s.laneRuns n = true → Completes (.measWindowEnd n) s fun t =>
    let m := (s.lane n).meas
    t.get (LINE.SIG_LO.f n) = m.sig / 65536 % 2 ^ 32 ∧ t.get (LINE.ERR_LO.f n) = m.err / 65536 % 2 ^ 32 ∧
    t.get (LINE.CW.f n) = m.cw % 2 ^ 32 ∧ t.get (LINE.UNC.f n) = m.unc % 2 ^ 32 ∧ t.get (LINE.FLIP_LO.f n) = m.flip % 2 ^ 32 ∧
    t.get (LINE.MEAS_STAT_SEQ.f n) = (s.get (LINE.MEAS_STAT_SEQ.f n) + 1) % 256 ∧
    t.getB (LINE.MEAS_STAT_VALID.f n) = m.allTrack ∧
    t.lane n = { s.lane n with meas := { Meas.fresh with allTrack := decide (s.rx n = .track) } } ∧ LanesBut [n.val] s t ∧
    SameBut [.regs, .lanes] s t) ∧
  (∀ (s : State) (n : Lane) (point : Bool) (len : BitVec 5), s.laneServed n = true →
    (s.parked n = false → Completes (.start n point len) s fun t =>
      (∀ b, b < 128 → t.get (LINE.HIST_COUNT.f n b) = 0) ∧ t.getB (LINE.HIST_STAT_DONE.f n) = false ∧
      t.getB (LINE.HIST_STAT_VALID.f n) = false ∧ t.getB (LINE.HIST_STAT_BUSY.f n) = decide (s.rx n ≠ .off) ∧
      t.getB (LINE.HIST_CTL_POINT.f n) = point ∧ t.get (LINE.HIST_CTL_LEN.f n) = clampNat 10 30 len.toNat ∧
      (t.lane n).histoLeft = 2 ^ clampNat 10 30 len.toNat ∧ LanesBut [n.val] s t ∧ SameBut [.regs, .lanes] s t) ∧
    (s.parked n = true → Completes (.start n point len) s fun t =>
      t.getB (LINE.HIST_CTL_POINT.f n) = point ∧ t.get (LINE.HIST_CTL_LEN.f n) = clampNat 10 30 len.toNat ∧
      OnlyRegs [LINE.HIST_CTL_POINT.f n, LINE.HIST_CTL_LEN.f n] s t)) ∧
  (∀ (s : State) (n : Lane), (s.lane n).histoLeft ≠ 0 → Completes (.histogramDone n) s fun t => t = s) ∧
  (∀ (s : State) (n : Lane), s.getB (LINE.HIST_STAT_BUSY.f n) = true → (s.lane n).histoLeft = 0 → Completes (.histogramDone n) s fun t =>
    t.getB (LINE.HIST_STAT_BUSY.f n) = false ∧ t.getB (LINE.HIST_STAT_DONE.f n) = true ∧
    t.getB (LINE.HIST_STAT_VALID.f n) = (s.lane n).histoTrack ∧
    OnlyRegs [LINE.HIST_STAT_BUSY.f n, LINE.HIST_STAT_DONE.f n, LINE.HIST_STAT_VALID.f n] s t) ∧
  (∀ (s : State) (n : Lane) (x : Nat), s.laneServed n = true →
    let on := s.get (BCN.ENV_TH_TH_ON.f n)
    let off := min (s.get (BCN.ENV_TH_TH_OFF.f n)) (on - 1)
    let was := s.getB (BCN.ENV_STAT_ABOVE.f n)
    let above := if was then decide (off ≤ x) else decide (on < x)
    (above = was → exec (.envCrossing n x) s = .next s) ∧
    (above ≠ was → Completes (.envCrossing n x) s fun t =>
      t.getB (BCN.ENV_STAT_ABOVE.f n) = above ∧
      t.lane n = { s.lane n with lightTimer := if above = s.light n then none else some ⟨above, s.time.tick⟩ } ∧
      LanesBut [n.val] s t ∧ SameBut [.regs, .lanes] s t ∧ RegsBut [BCN.ENV_STAT_ABOVE.f n] s t)) ∧
  (∀ (s : State) (n : Lane) (k : Nat), s.laneServed n = true → (s.lane n).lightTimer = some ⟨true, k⟩ →
    Completes (.lightOn n) s fun t =>
      t.light n = true ∧ t.getB (BCN.ENV_STAT_LIGHT.f n) = true ∧ t.get (BCN.LIGHT_TICK_LO.f n) = k % 2 ^ 32 ∧
      t.get (BCN.LIGHT_TICK_HI.f n) = k / 2 ^ 32 % 2 ^ 32 ∧ t.srcLevel (30 * n.val + 20) = true ∧
      (s.parked n = false → s.parking n s.groupLanes = false → s.laneOn n = true → s.rx n = .dark → s.unsched n = false →
        t.rx n = if s.getB (LINE.RX_STATE_TRAINED.f n) && s.getB (LINE.RX_CTL_WARM_EN.f n) then .warm
          else if s.getB (LINE.RX_CTL_ACQ_EN.f n) then .gain else .off)) ∧
  (∀ (s : State) (n : Lane) (k : Nat), s.laneServed n = true → (s.lane n).lightTimer = some ⟨false, k⟩ →
    Completes (.lightOff n) s fun t => t = ((s.setLight n false k).lightDown n).capEvent n 2 k ∧ (s.rx n ≠ .idwait →
      t.light n = false ∧ t.getB (BCN.ENV_STAT_LIGHT.f n) = false ∧ t.get (BCN.LIGHT_TICK_LO.f n) = k % 2 ^ 32 ∧
      t.srcLevel (30 * n.val + 21) = true ∧ (t.lane n).lightTimer = none ∧
      t.rx n = (if s.rx n = .off then .off else if s.getB (LINE.RX_CTL_ACQ_EN.f n) then .dark else .off) ∧ LanesBut [n.val] s t ∧
      SameBut [.freeCtr, .regs, .lanes, .ports, .hosts, .dies, .bcn, .ctx] s t))

/-- In syndrome lock in mode T the codeword at the held offset that ends in the queue's head is decoded under the
cover of its stream and delivered with its message and status, the codeword number advances and the loss window takes
it; without a credit after the decoders it waits. In the search every offset's candidate that ends in the word extends
or restarts the run of its offset. An empty queue leaves everything. SYNDROME_LOCK locks at the lowest offset whose
run has reached 64 and enters TRACK. LOCK_LOST at 8 of 32 clears the locks and enters SEARCH; GROUP_LOSS at three
misses clears group lock; FORMAT_MISMATCH after 340 codewords without group lock raises its event. -/
def Obligations.CodewordsAndLocks : Prop :=
  (∀ (s : State) (n : Lane), s.laneRuns n = true → s.reloading (n.val / 2) = false → (s.lane n).faulted = false →
    let ch := s.getB (LINE.DEC_CTL_CHASE_EN.f n)
    let prev := (s.lane n).rxp.prev
    (∀ w x, s.softHead n = some w → s.syncLock n = true → s.get (LINE.SYNC_WIN_LOSS_COUNT.f n) < 8 → s.modeR n = false →
      s.canPush ⟨.decLink, n⟩ = true → SoftWord.cut (s.get (LINE.SYNC_STAT_OFFSET.f n)) prev w = some x →
      Completes (.codewordDecode n) s fun t =>
        let d := decodeExpect ch (if (s.lane n).nextB then 1 else 0) x.bits x.rel
        let win := ((d.unc && !d.rxPoison) && !x.poison) :: (s.lane n).window.take 31
        (t.lane n).delivered = some (d.out / 2 ^ 16, rxStatus d x.poison false) ∧ (t.lane n).cwNum = (s.lane n).cwNum + 1 ∧
        (t.lane n).window = win ∧ t.get (LINE.SYNC_WIN_LOSS_COUNT.f n) = (win.filter id).length ∧
        (t.lane n).rxp.prev = some w ∧ (t.queue ⟨.mlseDec, n⟩).entries = (s.queue ⟨.mlseDec, n⟩).entries.drop 1 ∧ LanesBut [n.val] s t) ∧
    (∀ w, s.softHead n = some w → s.delivers n = true → s.canPush ⟨.decLink, n⟩ = false → Completes (.codewordDecode n) s fun t =>
      t.queues = s.queues ∧ t.lanes = s.lanes ∧ SameBut [.regs, .counts] s t) ∧
    (∀ w, s.softHead n = some w → s.syncLock n = false → s.searching n = true → Completes (.codewordDecode n) s fun t =>
      (∀ o, o < 136 → SoftWord.cut o prev w = none → (t.lane n).runs.get Run.empty o = (s.lane n).runs.get Run.empty o) ∧
      (∀ o x, o < 136 → SoftWord.cut o prev w = some x →
        let acc (c : Nat) : Bool :=
          let d := decodeExpect ch c x.bits x.rel
          !d.unc || d.rxPoison
        (t.lane n).runs.get Run.empty o = ((s.lane n).runs.get Run.empty o).step (acc 0) (acc 1)
          (decide (syndromeOf x.bits = coverOf 2)) (decide (syndromeOf x.bits = coverOf 3)) x.poison) ∧
      (t.lane n).rxp.prev = some w ∧ LanesBut [n.val] s t ∧ SameBut [.queues, .lanes] s t) ∧
    (s.softHead n = none → Completes (.codewordDecode n) s fun t => t = s)) ∧
  (∀ (s : State) (n : Lane) (o : Nat), s.searching n = true → s.light n = true → s.lockOffset n = some o →
    Completes (.syndromeLock n) s fun t =>
      t.syncLock n = true ∧ t.get (LINE.SYNC_STAT_OFFSET.f n) = o ∧ t.rx n = .track ∧ t.getB (LINE.RX_STATE_TRAINED.f n) = true ∧
      (t.lane n).cwNum = 0 ∧ (t.lane n).window = [] ∧ (t.lane n).lockB = !((s.lane n).runs.get Run.empty o).streamB ∧
      t.srcLevel (30 * n.val) = true ∧ (∀ p, p < o → ((s.lane n).runs.get Run.empty p).count < 64) ∧ LanesBut [n.val] s t) ∧
  (∀ (s : State) (n : Lane), s.syncLock n = true → 8 ≤ s.get (LINE.SYNC_WIN_LOSS_COUNT.f n) → s.rx n = .track →
    Completes (.lockLost n) s fun t =>
      t.syncLock n = false ∧ t.groupLock n = false ∧ t.rx n = .search ∧ t.srcLevel (30 * n.val + 2) = true ∧
      LanesBut [n.val] s t ∧ SameBut [.freeCtr, .regs, .counts, .lanes, .ports, .hosts, .dies] s t) ∧
  (∀ (s : State) (n : Lane), s.groupLock n = true → 3 ≤ s.get (LINE.SYNC_WIN_GROUP_MISS.f n) →
    (s.get (LINE.SYNC_WIN_LOSS_COUNT.f n) < 8 → Completes (.groupLoss n) s fun t =>
      t.groupLock n = false ∧ (t.lane n).cadence = none ∧ t.srcLevel (30 * n.val + 6) = true ∧ LanesBut [n.val] s t ∧
      SameBut [.freeCtr, .regs, .lanes, .ports] s t) ∧
    (8 ≤ s.get (LINE.SYNC_WIN_LOSS_COUNT.f n) → exec (.groupLoss n) s = .next s)) ∧
  (∀ (s : State) (n : Lane), s.modeR n = true → s.syncLock n = true → s.groupLock n = false → 340 ≤ (s.lane n).noGroup →
    Completes (.formatMismatch n) s fun t =>
      t.lane n = { s.lane n with noGroup := (s.lane n).noGroup - 340 } ∧ t.srcLevel (30 * n.val + 7) = true ∧
      LanesBut [n.val] s t ∧ SameBut [.regs, .lanes] s t ∧ RegsBut (evFlds (30 * n.val + 7)) s t)

/-- The codeword of a message under a cover has that cover as its syndrome, inverted where it is poisoned, and decodes
under that cover to itself with no flips, whatever the reliabilities. T10 sends the codeword of the queue's head, or a
fill codeword with STARVE_FILL, and gives a DAC code to all but its last two symbols and to those left of the codeword
before; a pending commit takes effect there. SQUELCH sets the HOST reason; with a reason set the next boundary sends
the last two symbols, squelches the output at zero and ends the beacon frame, and with none, at a stream-a boundary,
it is released with the precoder and FFE cleared. A change of PATTERN waits for the boundary, 5 to 7 as 0. COMMIT
copies the shadow taps at once while squelched, waits for the boundary otherwise, and is dropped from a context load
until its transmit taps have taken effect. -/
def Obligations.TransmittedCodewords : Prop :=
  (∀ (m c : Nat) (chase : Bool) (rel : List Nat), m < 2 ^ 256 → c < 4 →
    syndromeOf (encodeWord m c false) = coverOf c ∧ syndromeOf (encodeWord m c true) = coverOf c ^^^ 0xFFFF ∧
    encodeWord m c false / 2 ^ 16 = m ∧
    decodeExpect chase c (encodeWord m c false) rel =
      { out := encodeWord m c false, unc := false, rxPoison := false, flips := 0, cover := c }) ∧
  (∀ (s : State) (n : Lane), s.txRuns n = true →
    (∀ (m : BitVec 256) (st : BitVec 16) (r : List QEntry), (s.queue ⟨.linkTxp, n⟩).entries = ⟨.toSend m st, false⟩ :: r →
      Completes (.codewordEncode n) s fun t =>
        (t.lane n).tx.codeword = encodeWord m.toNat (st.toNat % 4) (bitAt st.toNat 3) ∧
        (t.queue ⟨.linkTxp, n⟩).entries = r ∧ LanesBut [n.val] s t ∧ SameBut [.regs, .counts, .queues, .lanes, .bcn, .syn] s t) ∧
    ((s.queue ⟨.linkTxp, n⟩).entries = [] → Completes (.codewordEncode n) s fun t =>
      (t.lane n).tx.codeword = encodeWord 0 (if (s.lane n).tx.lastB then 0 else 1) true ∧ t.srcLevel (30 * n.val + 9) = true ∧
      LanesBut [n.val] s t ∧ SameBut [.regs, .counts, .lanes, .bcn, .syn] s t) ∧
    (s.squelched n = false → (s.lane n).tx.sent ≤ 2 → Completes (.codewordEncode n) s fun t =>
      (t.lane n).tx.dac.length = 134 + (s.lane n).tx.sent ∧ (t.lane n).tx.sent = 2 ∧
      (t.lane n).tx.nowTaps = (List.range 7).map (fun i => t.getZ (TILE.TXTAP_COEF.f (clusterTile n 10) i))) ∧
    ((s.lane n).tx.txLoad = none → (s.lane n).tx.commitPending = true → Completes (.codewordEncode n) s fun t =>
      (t.lane n).tx.commitPending = false ∧
      ∀ i, i < 7 → t.get (TILE.TXTAP_COEF.f (clusterTile n 10) i) = s.get (TILE.TXSHADOW_COEF.f (clusterTile n 10) i) % 2 ^ 10)) ∧
  (∀ (s : State) (n : Lane), s.txRuns n = false → Completes (.codewordEncode n) s fun t => t = s) ∧
  (∀ (s : State) (n : Lane) (on : Bool), s.laneServed n = true → Completes (.squelch n on) s fun t =>
    t.getB (LINE.TX_CTL_SQUELCH.f n) = on ∧ (∀ k, k < 6 → bitAt (t.reasons n) k = if k = 1 then on else bitAt (s.reasons n) k) ∧
    OnlyRegs [LINE.TX_CTL_SQUELCH.f n, LINE.TX_STATE_SQ_REASON.f n] s t) ∧
  (∀ (s : State) (n : Lane), s.reasons n ≠ 0 → s.squelched n = false → Completes (.squelchEntry n) s fun t =>
    t.squelched n = true ∧ (t.bcnL n).frame = none ∧ (t.bcnL n).held = none ∧ (t.lane n).tx.commitPending = false ∧
    ((s.lane n).tx.sent = 2 → (t.lane n).tx.sent = 0 ∧ (t.lane n).tx.dac.length = 2 ∧ (t.lane n).tx.out.getLast? = some 0) ∧
    LanesBut [n.val] s t ∧ SameBut [.regs, .counts, .lanes, .bcn, .syn] s t) ∧
  (∀ (s : State) (n : Lane), s.reasons n = 0 ∨ s.squelched n = true → exec (.squelchEntry n) s = .next s) ∧
  (∀ (s : State) (n : Lane), s.reasons n = 0 → s.squelched n = true → s.txRuns n = true → s.nextTxB n = false →
    Completes (.squelchRelease n) s fun t =>
      t.squelched n = false ∧ (t.lane n).tx.v = 0 ∧ (t.lane n).tx.lvls = List.replicate 6 0 ∧ (t.lane n).tx.patternNext = none ∧
      LanesBut [n.val] s t ∧ SameBut [.regs, .lanes] s t ∧ RegsBut [LINE.TX_STATE_SQUELCHED.f n] s t) ∧
  (∀ (s : State) (n : Lane) (v : BitVec 3), s.laneServed n = true →
    let p := if v.toNat ≤ 4 then v.toNat else 0
    (s.get (LINE.TX_CTL_PATTERN.f n) = p → exec (.pattern n v) s = .next s) ∧
    (s.get (LINE.TX_CTL_PATTERN.f n) ≠ p → Completes (.pattern n v) s fun t =>
      t.get (LINE.TX_CTL_PATTERN.f n) = p ∧
      t.lane n = { s.lane n with tx := { (s.lane n).tx with patternNext := some p } } ∧ LanesBut [n.val] s t ∧
      SameBut [.regs, .lanes] s t ∧ RegsBut [LINE.TX_CTL_PATTERN.f n] s t)) ∧
  (∀ (s : State) (n : Lane), s.laneRuns n = true → s.tileFailed (clusterTile n 10) = false →
    ((s.lane n).loading = true ∨ (s.lane n).tx.txLoad.isSome = true → Completes (.commit n) s fun t =>
      t.srcLevel (30 * n.val + 12) = true ∧ OnlyRegs (evFlds (30 * n.val + 12)) s t) ∧
    ((s.lane n).loading = false → (s.lane n).tx.txLoad = none → s.squelched n = true → Completes (.commit n) s fun t =>
      (∀ i, i < 7 → t.get (TILE.TXTAP_COEF.f (clusterTile n 10) i) = s.get (TILE.TXSHADOW_COEF.f (clusterTile n 10) i) % 2 ^ 10) ∧
      LanesBut [n.val] s t ∧ SameBut [.regs, .lanes] s t) ∧
    ((s.lane n).loading = false → (s.lane n).tx.txLoad = none → s.squelched n = false → Completes (.commit n) s fun t =>
      t.lane n = { s.lane n with tx := { (s.lane n).tx with commitPending := true } } ∧ LanesBut [n.val] s t ∧
      SameBut [.lanes] s t))

/-- A host receiver moves between acquisition and LOCKED with its events, and RX_RESTART takes it back to acquisition;
LOCKED starts the timing of an enabled mode-T transmitter that it times. The host COMMIT copies the shadow taps. The
oldest codeword of a port is decoded and counted and in mode R its blocks reach the write side of the adaptation FIFO.
The loss of alignment-marker lock in mode R starts a transmit-direction gap, whose end is prepared when the receivers
are LOCKED and the lock is held, and which ends at the first clean block. The oldest RS codeword of a line stream is
decoded and counted; in mode R with an open port of breakout and room its blocks join the Nutmeg buffer, and in a gap
none does; in mode T the monitor's is counted. A gap turns to Local Fault with LF_START, but not where it ends in the
same interval, ends at RESUME with both locks held, and reads begin again at RESUME_FILL. The monitoring lock follows
its command in mode T. -/
def Obligations.HostLanesAndPorts : Prop :=
  (∀ (s : State) (h : HostLane), s.d0Up = true →
    (s.get (HOST.HSTATE_RX_STATE.f h) = 1 → Completes (.hostLockAcq h) s fun t =>
      t.get (HOST.HSTATE_RX_STATE.f h) = 2 ∧ t.getB (HOST.HSTATE_SIG_DET.f h) = true ∧ t.srcLevel (240 + 3 * h.val + 1) = true ∧
      (∀ n b, s.hostRole h = some (n, b) → s.timesLane h n = true → s.txEnabled n = true → t.get (LINE.TX_STATE_TIMING.f n) = 1) ∧
      SameBut [.regs] s t) ∧
    (∀ sig : Bool, s.get (HOST.HSTATE_RX_STATE.f h) = 2 → Completes (.hostLockLost h sig) s fun t =>
      t.get (HOST.HSTATE_RX_STATE.f h) = 1 ∧ t.getB (HOST.HSTATE_SIG_DET.f h) = sig ∧ t.srcLevel (240 + 3 * h.val) = true ∧
      SameBut [.regs, .counts, .ports] s t) ∧
    (s.get (HOST.HSTATE_RX_STATE.f h) ≠ 0 → Completes (.rxRestart h) s fun t =>
      t.get (HOST.HSTATE_RX_STATE.f h) = 1 ∧ SameBut [.regs, .counts, .ports] s t) ∧
    (s.get (HOST.HSTATE_RX_STATE.f h) = 0 → Completes (.rxRestart h) s fun t => t = s) ∧
    (Completes (.hostTxCommit h) s fun t =>
      t.get (HOST.TX_ACTIVE0_TAPS.f h) = (s.get (HOST.TX_SHADOW0_CM3.f h) + 2 ^ 8 * s.get (HOST.TX_SHADOW0_CM2.f h) +
        2 ^ 16 * s.get (HOST.TX_SHADOW0_CM1.f h) + 2 ^ 24 * s.get (HOST.TX_SHADOW0_C0.f h)) % 2 ^ 32 ∧
      t.get (HOST.TX_ACTIVE1_CP1.f h) = s.get (HOST.TX_SHADOW1_CP1.f h) % 2 ^ 8 ∧
      OnlyRegs [HOST.TX_ACTIVE0_TAPS.f h, HOST.TX_ACTIVE1_CP1.f h] s t)) ∧
  (∀ (s : State) (n : Lane) (p : Bool), s.d0Up = true → s.amLock n (s.sideOf n p) = true →
    let b := s.sideOf n p
    let x := s.side n b
    let cnt (u : State) (y z : FRow) : Nat := u.get ((sideRow b y z).f n)
    (∀ q d, x.dec.next (!s.breakout n) = some (q, d) → Completes (.hostCodeword n p) s fun t =>
      cnt t PORT.HOST_CW_A PORT.HOST_CW_B = (cnt s PORT.HOST_CW_A PORT.HOST_CW_B + 1) % 2 ^ 32 ∧
      (q.2 = none → cnt t PORT.HOST_UNC_A PORT.HOST_UNC_B = (cnt s PORT.HOST_UNC_A PORT.HOST_UNC_B + 1) % 2 ^ 32) ∧
      (∀ k, q.2 = some k → cnt t PORT.HOST_UNC_A PORT.HOST_UNC_B = cnt s PORT.HOST_UNC_A PORT.HOST_UNC_B ∧
        cnt t PORT.HOST_SYM_A PORT.HOST_SYM_B = (cnt s PORT.HOST_SYM_A PORT.HOST_SYM_B + k) % 2 ^ 32) ∧
      t.side n b = (if s.modeR n then q.1.foldl (fun x blk => x.txWrite blk) { x with dec := d } else { x with dec := d }) ∧
      SameBut [.regs, .counts, .ports] s t) ∧
    (x.dec.next (!s.breakout n) = none → Completes (.hostCodeword n p) s fun t => t = s)) ∧
  (∀ (s : State) (n : Lane) (p : Bool) (offA offB : Nat), s.d0Up = true → s.getB (PORT.PCFG_MAPPED.f n) = true →
    let b := s.sideOf n p
    let row := sideRow b PORT.PSTAT_AM_LOCK_A PORT.PSTAT_AM_LOCK_B
    let mon := sideRow b PORT.PSTAT_MON_LOCK PORT.PSTAT_MON_LOCK_B
    (Completes (.amLock n p true offA offB) s fun t => t.getB (row.f n) = true ∧
      t.side n b = { s.side n b with dec := { HostDec.fresh with skipA := offA, skipB := offB, scr := (s.side n b).dec.scr } } ∧
      SameBut [.regs, .ports] s t ∧ RegsBut [row.f n] s t) ∧
    (Completes (.amLock n p false offA offB) s fun t => t.getB (row.f n) = false ∧
      (s.modeR n = true → (t.side n b).hostGap = true) ∧ SameBut [.regs, .counts, .ports] s t) ∧
    (s.modeR n = false → ∀ on : Bool, Completes (.monAmLock n p on offA offB) s fun t =>
      t.monLock n b = on ∧ (t.side n b).mon.skipA = offA ∧ (t.side n b).mon.skipB = offB ∧ (t.side n b).mon.bitsA = [] ∧
      SameBut [.regs, .ports] s t ∧ RegsBut [mon.f n, PORT.MON_UNLOCKED_ROWS.f n] s t)) ∧
  (∀ (s : State) (n : Lane) (p : Bool), (s.side n (s.sideOf n p)).hostGap = true →
    (s.sideHosts n (s.sideOf n p)).all (fun h => s.hostLocked h) = true → s.amLock n (s.sideOf n p) = true →
    Completes (.hostGapEnd n p) s fun t =>
      t.side n (s.sideOf n p) = { s.side n (s.sideOf n p) with hostFault := false, txResume := true } ∧
      SameBut [.ports] s t) ∧
  (∀ (x : PortSide) (blk : Block66), x.hostGap = true →
    (x.txResume = true → isClean blk = true → x.txFifo.length < 512 →
      (x.txWrite blk).hostGap = false ∧ (x.txWrite blk).txFifo = x.txFifo ++ [blk]) ∧
    (x.txResume = false ∨ isClean blk = false → x.txWrite blk = x)) ∧
  (∀ (s : State) (n : Lane) (b : Bool) (ups : List Nat), s.d0Up = true → s.modeR n = true →
    let side := s.sideOf n b
    let row := sideRow side PORT.LINE_CW_A PORT.LINE_CW_B
    let unc := sideRow side PORT.LINE_UNC_A PORT.LINE_UNC_B
    let dec := if b then (s.port n).decB else (s.port n).decA
    (∀ c d, dec.next = some (c, d) → Completes (.lineRsCodeword n b ups) s fun t =>
      t.get (row.f n) = (s.get (row.f n) + 1) % 2 ^ 32 ∧
      (c.1 = true → t.get (unc.f n) = (s.get (unc.f n) + 1) % 2 ^ 32) ∧
      (if b then (t.port n).decB else (t.port n).decA) = d ∧
      (s.nmSt n side ≠ 0 → t.side n side = s.side n side) ∧
      (s.nmSt n b = 0 → s.breakout n = true → s.awaiting n b = false → (s.side n b).ovfSkip = false → (s.side n b).nmDiscard = false →
        (s.side n b).nm.length + c.2.1.length ≤ s.nmCap n →
        (t.side n b).nm = (s.side n b).nm ++ c.2.1.zipIdx.map (fun q => (q.1, ups.contains q.2))) ∧
      SameBut [.regs, .counts, .ports] s t) ∧
    (dec.next = none → Completes (.lineRsCodeword n b ups) s fun t => t = s)) ∧
  (∀ (s : State) (n : Lane) (b : Bool) (ups : List Nat), s.d0Up = true → s.modeR n = false →
    let side := s.sideOf n b
    let row := sideRow side PORT.LINE_CW_A PORT.LINE_CW_B
    ∀ bad r, (s.side n side).mon.cws = bad :: r → Completes (.lineRsCodeword n b ups) s fun t =>
      t.get (row.f n) = (s.get (row.f n) + 1) % 2 ^ 32 ∧ (t.side n side).mon.cws = r ∧ SameBut [.regs, .counts, .ports] s t) ∧
  (∀ (s : State) (n : Lane) (p : Bool), s.modeR n = true →
    let b := s.sideOf n p
    let ending := decide ((s.side n b).gapCause = some .lockLoss) && s.locksHeld n
    (s.nmSt n b = 1 → ending = false → Completes (.lfStart n p) s fun t =>
      t.nmSt n b = 2 ∧ t.side n b = { s.side n b with lf := true } ∧ t.srcLevel (30 * n.val + 25) = true ∧
      SameBut [.regs, .ports] s t) ∧
    (s.nmSt n b ≠ 1 ∨ ending = true → Completes (.lfStart n p) s fun t => t = s) ∧
    (s.nmSt n b ≠ 0 → s.locksHeld n = true → Completes (.resume n p) s fun t =>
      t.nmSt n b = 0 ∧ t.side n b = { s.side n b with gapCause := none, nmDiscard := true, ovfSkip := false } ∧
      t.srcLevel (30 * n.val + 26) = true ∧ SameBut [.regs, .ports] s t) ∧
    (s.nmSt n b = 0 → s.get (PORT.NM_CFG_RESUME_FILL.f n) ≤ (s.side n b).nm.length → Completes (.nutmegReadResume n p) s fun t =>
      t.side n b = { s.side n b with reading := true, lf := false } ∧ SameBut [.ports] s t) ∧
    ((s.side n b).nm.length < s.get (PORT.NM_CFG_RESUME_FILL.f n) → Completes (.nutmegReadResume n p) s fun t => t = s))

/-- SEND and the period make a frame of the lowest lane of a group fall due: it is held, or skipped where the output
is squelched or a frame is held. A held frame that can start takes its payload and advances SEQ, and its symbols are
preamble, sync word and payload, each byte most significant bit first; its departure latches the tick, the converted
time goes into a full frame unless it comes later than 600 ns, and its end counts it and keeps the sealed payload. A
synthesiser that locks keeps its channel's word with VALID; one that does not raises its event, clears VALID and skips
the frames held for the channel; its background calibration steps through the channels. A quiet noise window latches
its level; a detection above noise and margin begins a frame stamped at its first sync symbol, one within 2 symbols of
the frame under way or of a wrong pattern is none, and the report latches a valid payload, demodulated as RX_CH says,
or counts a bad one. -/
def Obligations.BeaconFramesAndSynthesisers : Prop :=
  (∀ (s : State) (n : Lane) (full : Bool), s.d0Up = true → s.lowest n = true →
    let due (t : State) : Prop := (t.bcnL n).held = some ⟨full, s.time.tick⟩ ∧ t.getB (BCN.TX_STAT_HELD.f n) = true ∧
      SameBut [.regs, .bcn, .syn] s t
    let skip (t : State) : Prop :=
      t.get (BCN.TX_SKIP_SKIP_CNT.f n) = (s.get (BCN.TX_SKIP_SKIP_CNT.f n) + 1) % 2 ^ 32 ∧ t.srcLevel (30 * n.val + 15) = true ∧
      OnlyRegs (BCN.TX_SKIP_SKIP_CNT.f n :: evFlds (30 * n.val + 15)) s t
    (s.get (BCN.TX_CFG_TX_MODE.f n) ≠ 0 → s.squelched n = false → s.laneRuns n = true → (s.bcnL n).held = none →
      Completes (.send n full) s due) ∧
    (s.get (BCN.TX_CFG_TX_MODE.f n) ≠ 0 → (s.squelched n || !s.laneRuns n || (s.bcnL n).held.isSome) = true →
      Completes (.send n full) s skip) ∧
    (s.get (BCN.TX_CFG_TX_MODE.f n) = 0 → exec (.send n full) s = .next s) ∧
    (s.get (BCN.TX_CFG_TX_MODE.f n) = (if full then 2 else 1) → s.squelched n = false → s.laneRuns n = true → (s.bcnL n).held = none →
      Completes (.beaconFrameDue n) s due)) ∧
  (∀ (s : State) (n : Lane) (m : BitVec 2), s.d0Up = true → Completes (.txModeWrite n m) s fun t =>
    t.get (BCN.TX_CFG_TX_MODE.f n) = m.toNat ∧ t.bcnL n = { s.bcnL n with grid := s.time.tick } ∧ SameBut [.regs, .bcn] s t ∧
    RegsBut [BCN.TX_CFG_TX_MODE.f n] s t) ∧
  (∀ (s : State) (n : Lane) (h : HeldFrame), (s.bcnL n).held = some h → s.canStart n = true → Completes (.beaconFrameStart n) s fun t =>
    (t.bcnL n).held = none ∧ t.get (BCN.TX_STAT_SEQ.f n) = (s.get (BCN.TX_STAT_SEQ.f n) + 1) % 8 ∧
    t.getB (BCN.TX_STAT_SENDING.f n) = true ∧ t.getB (BCN.TX_STAT_HELD.f n) = false ∧
    (∃ f : TxFrame, (t.bcnL n).frame = some f ∧ f.full = h.full ∧ f.departed = none ∧ f.fsk4 = s.getB (BCN.TX_CFG_TX_MOD.f n) ∧
      f.ch = s.get (BCN.TX_CH_CH.f n) ∧ f.levels.length = 48 + 8 * (if h.full then 20 else 6) / (if f.fsk4 then 2 else 1) ∧
      f.body = beBytes 4 (s.get (BCN.TX_PEER_PEER_ID.f n)) ++ [32 * s.get (BCN.TX_STAT_SEQ.f n) + s.descOf n] ++
        List.replicate (if h.full then 13 else 0) 0) ∧ SameBut [.regs, .bcn] s t) ∧
  (∀ (s : State) (n : Lane) (f : TxFrame), (s.bcnL n).frame = some f →
    (f.departed = none → Completes (.beaconDeparture n) s fun t =>
      (t.bcnL n).frame = some { f with departed := some s.time.tick } ∧ t.get (BCN.DEP_TICK_LO.f n) = s.time.tick % 2 ^ 32 ∧
      t.get (BCN.DEP_TICK_HI.f n) = s.time.tick / 2 ^ 32 % 2 ^ 32 ∧ SameBut [.regs, .bcn] s t ∧
      RegsBut [BCN.DEP_TICK_LO.f n, BCN.DEP_TICK_HI.f n] s t) ∧
    (∀ k x, f.departed = some k → s.convert k = some x → f.full = true → s.timeGood = true → f.body.length = 18 →
      k + 996 < s.time.tick → Completes (.beaconTimestampReturn n) s fun t => t = s) ∧
    (∀ k x, f.departed = some k → s.convert k = some x → f.full = true → s.timeGood = true → f.body.length = 18 →
      s.time.tick ≤ k + 996 → Completes (.beaconTimestampReturn n) s fun t => ∃ g : TxFrame, (t.bcnL n).frame = some g ∧ g.body.take 5 = f.body.take 5 ∧
        g.body.getD 5 0 = 1 ∧ beNat (span g.body 6 9) = timeSec x % 2 ^ 32 ∧ beNat (span g.body 10 13) = timeNs x ∧
        beNat (span g.body 14 15) = timeFrac x ∧ g.body.length = 18 ∧ SameBut [.bcn] s t) ∧
    (f.departed.isSome = true → Completes (.sent n) s fun t =>
      (t.bcnL n).frame = none ∧ (t.bcnL n).lastSent = sealBody f.full f.body ∧
      t.get (BCN.TX_SENT_SENT_CNT.f n) = (s.get (BCN.TX_SENT_SENT_CNT.f n) + 1) % 2 ^ 32 ∧ t.srcLevel (30 * n.val + 14) = true ∧
      t.getB (BCN.TX_STAT_SENDING.f n) = false ∧ SameBut [.regs, .counts, .bcn, .syn] s t)) ∧
  (∀ (s : State) (n : Lane) (ch : BitVec 4), s.d0Up = true →
    ((s.bcnL n).frame.isSome = true → Completes (.txChLoad n ch) s fun t =>
      t.bcnL n = { s.bcnL n with chNext := some ch.toNat } ∧ SameBut [.bcn] s t) ∧
    ((s.bcnL n).frame = none → Completes (.txChLoad n ch) s fun t =>
      t.get (BCN.TX_CH_CH.f n) = ch.toNat ∧ t.bcnL n = s.bcnL n ∧ SameBut [.regs, .syn] s t) ∧
    (∀ fsk4 : Bool, Completes (.rxChLoad n ch fsk4) s fun t =>
      t.get (BCN.RX_CH_CH.f n) = ch.toNat ∧ t.getB (BCN.RX_CH_MOD.f n) = fsk4 ∧
      t.bcnL n = { s.bcnL n with rx := none, noiseDirty := true } ∧ SameBut [.regs, .bcn] s t ∧
      RegsBut [BCN.RX_CH_CH.f n, BCN.RX_CH_MOD.f n, BCN.RX_STAT_RECEIVING.f n] s t)) ∧
  (∀ (s : State) (r : Region) (ch : Nat) (cal : Word), (s.synR r).hop = some ch → ch < 16 →
    (Completes (.synthLock r cal) s fun t =>
      (t.synR r).hop = none ∧ t.getB (SYN.SYN_STAT_LOCKED.f r) = true ∧ t.get (SYN.SYN_STAT_CH.f r) = ch ∧
      t.get (SYN.SYN_CAL_CAL.f r ch) = cal.toNat % 2 ^ 28 + 2 ^ 31 ∧
      t.getB (SYN.SYN_STAT_SETTLING.f r) = (decide ((s.synR r).bg < 16) && decide (s.get (SYN.SYN_STAT_SERVING.f r) = 0)) ∧
      SameBut [.regs, .syn] s t) ∧
    (Completes (.noLock r) s fun t =>
      t.srcLevel (314 + r.val) = true ∧ bitAt (t.get (SYN.SYN_CAL_CAL.f r ch)) 31 = false ∧
      (∀ n, n < 8 → n / 2 = r.val → s.get (BCN.TX_CH_CH.f n) = ch → (t.bcnL n).held = none) ∧ SameBut [.regs, .bcn, .syn] s t)) ∧
  (∀ (s : State) (r : Region) (cal : Word), (s.synR r).bg < 16 → s.get (SYN.SYN_STAT_SERVING.f r) = 0 → (s.synR r).hop = none →
    s.throttled = false → Completes (.synthBgCal r cal) s fun t =>
      t.synR r = { s.synR r with bg := (s.synR r).bg + 1 } ∧
      t.get (SYN.SYN_CAL_CAL.f r (s.synR r).bg) = cal.toNat % 2 ^ 28 + 2 ^ 31 ∧
      t.getB (SYN.SYN_STAT_BG_CAL.f r) = decide ((s.synR r).bg + 1 < 16) ∧
      t.getB (SYN.SYN_STAT_SETTLING.f r) = decide ((s.synR r).bg + 1 < 16) ∧ SameBut [.regs, .syn, .therm] s t) ∧
  (∀ (s : State) (n : Lane) (m : Nat), s.bcnRuns n = true →
    let p := s.beaconPower n m
    ((s.bcnL n).noiseDirty = false → (s.bcnL n).rx = none → Completes (.noiseWindowEnd n m) s fun t =>
      t.getZ (BCN.NOISE.f n) = satSigned 10 p ∧ t.get (BCN.NOISE_NOISE_SEQ.f n) = (s.get (BCN.NOISE_NOISE_SEQ.f n) + 1) % 2 ^ 8 ∧
      SameBut [.regs, .bcn] s t ∧ RegsBut [BCN.NOISE.f n, BCN.NOISE_NOISE_SEQ.f n] s t) ∧
    ((s.bcnL n).noiseDirty = true → Completes (.noiseWindowEnd n m) s fun t =>
      t.bcnL n = { s.bcnL n with noiseDirty := (s.bcnL n).rx.isSome } ∧ SameBut [.bcn] s t) ∧
    (∀ hard : BitVec 32,
      let found := correlate (s.get (BCN.RX_CFG_SYNC_ERR.f n)) hard.toNat
      let loud := s.getZ (BCN.NOISE.f n) + (s.get (BCN.RX_CFG_DET_MARGIN.f n) : Int)
      (∀ full, found = some full → loud ≤ p → (s.bcnL n).rx = none → Completes (.beaconDetection n m hard) s fun t =>
        (t.bcnL n).rx = some ⟨full, s.time.tick - 531, p⟩ ∧ t.getB (BCN.RX_STAT_RECEIVING.f n) = true ∧ SameBut [.regs, .bcn] s t ∧
        RegsBut [BCN.RX_STAT_RECEIVING.f n] s t) ∧
      (∀ full f, found = some full → loud ≤ p → (s.bcnL n).rx = some f → s.sameFrame f = false → f.rssi + 24 ≤ p →
        Completes (.beaconDetection n m hard) s fun t => (t.bcnL n).rx = some ⟨full, s.time.tick - 531, p⟩) ∧
      (∀ f, (s.bcnL n).rx = some f → s.sameFrame f = true → Completes (.beaconDetection n m hard) s fun t => t = s) ∧
      (found = none ∨ p < loud → Completes (.beaconDetection n m hard) s fun t => t = s))) ∧
  (∀ (s : State) (n : Lane) (f : RxFrame) (us : List (BitVec 2)), s.bcnRuns n = true → (s.bcnL n).rx = some f →
    let b := demodulate f.full (s.getB (BCN.RX_CH_MOD.f n)) (us.map (·.toNat))
    (payloadOk f.full b = true → s.ident n = none → Completes (.beaconReport n us) s fun t =>
      t.get (BCN.RX_PEER_PEER_ID.f n) = beNat (b.take 4) ∧ t.get (BCN.ARR_TICK_LO.f n) = f.arrived % 2 ^ 32 ∧
      t.get (BCN.RX_VALID_VALID_CNT.f n) = (s.get (BCN.RX_VALID_VALID_CNT.f n) + 1) % 2 ^ 32 ∧
      t.srcLevel (30 * n.val + 17) = true ∧ (t.bcnL n).rx = none ∧ SameBut [.regs, .counts, .bcn] s t) ∧
    (payloadOk f.full b = false → Completes (.beaconReport n us) s fun t =>
      t.get (BCN.RX_BAD_BAD_CNT.f n) = (s.get (BCN.RX_BAD_BAD_CNT.f n) + 1) % 2 ^ 32 ∧ t.srcLevel (30 * n.val + 18) = true ∧
      (t.bcnL n).rx = none ∧ SameBut [.regs, .bcn] s t))
end

