-- ==== Sys2Proof/Laws/Directory.lean ====
section
/-!
SUPPORT. The directory operations change the ways, the stash and nothing of the context engine's memories.
-/

namespace Sys2Proof.Machine

open Sys2Proof

/-- Two context engines hold the same bytes in the cache, the context buffer and the apply buffers. -/
structure SameMems (c d : CtxSt) : Prop where
  lineMem : d.lineMem = c.lineMem
  buf : d.buf = c.buf
  applyBuf : d.applyBuf = c.applyBuf

theorem SameMems.trans {c d e : CtxSt} (h : SameMems c d) (k : SameMems d e) : SameMems c e :=
  ⟨k.lineMem.trans h.lineMem, k.buf.trans h.buf, k.applyBuf.trans h.applyBuf⟩

theorem CtxSt.setEntry_sameMems (c : CtxSt) (way i : Nat) (e : DirEntry) : SameMems c (c.setEntry way i e) := by
  unfold CtxSt.setEntry
  split <;> exact ⟨rfl, rfl, rfl⟩

@[simp] theorem CtxSt.setEntry_lineMem (c : CtxSt) (way i : Nat) (e : DirEntry) : (c.setEntry way i e).lineMem = c.lineMem :=
  (c.setEntry_sameMems way i e).lineMem
@[simp] theorem CtxSt.setEntry_buf (c : CtxSt) (way i : Nat) (e : DirEntry) : (c.setEntry way i e).buf = c.buf :=
  (c.setEntry_sameMems way i e).buf
@[simp] theorem CtxSt.setEntry_applyBuf (c : CtxSt) (way i : Nat) (e : DirEntry) :
    (c.setEntry way i e).applyBuf = c.applyBuf :=
  (c.setEntry_sameMems way i e).applyBuf

theorem CtxSt.rehome_sameMems (c : CtxSt) (seed j : Nat) : SameMems c (c.rehome seed j) := by
  unfold CtxSt.rehome
  extract_lets
  split
  · split
    · exact (CtxSt.setEntry_sameMems _ _ _ _).trans (CtxSt.setEntry_sameMems _ _ _ _)
    · split
      · exact (CtxSt.setEntry_sameMems _ _ _ _).trans (CtxSt.setEntry_sameMems _ _ _ _)
      · exact ⟨rfl, rfl, rfl⟩
  · exact ⟨rfl, rfl, rfl⟩

theorem CtxSt.removeAt_sameMems (c : CtxSt) (seed way i : Nat) : SameMems c (c.removeAt seed way i) := by
  unfold CtxSt.removeAt
  generalize List.range 8 = js
  have h := c.setEntry_sameMems way i .zero
  revert h
  generalize c.setEntry way i .zero = d
  intro h
  induction js generalizing d with
  | nil => exact h
  | cons j r ih => exact ih _ (h.trans (d.rehome_sameMems seed j))

@[simp] theorem CtxSt.removeAt_lineMem (c : CtxSt) (seed way i : Nat) : (c.removeAt seed way i).lineMem = c.lineMem :=
  (c.removeAt_sameMems seed way i).lineMem
@[simp] theorem CtxSt.removeAt_buf (c : CtxSt) (seed way i : Nat) : (c.removeAt seed way i).buf = c.buf :=
  (c.removeAt_sameMems seed way i).buf
@[simp] theorem CtxSt.removeAt_applyBuf (c : CtxSt) (seed way i : Nat) : (c.removeAt seed way i).applyBuf = c.applyBuf :=
  (c.removeAt_sameMems seed way i).applyBuf

theorem insertLoop_sameMems (seed n : Nat) (c : CtxSt) (e : DirEntry) (way : Nat) (d : CtxSt)
    (h : insertLoop seed n c e way = .ok d) : SameMems c d := by
  induction n generalizing c e way with
  | zero =>
    simp only [insertLoop] at h
    split at h
    · cases h; exact CtxSt.setEntry_sameMems _ _ _ _
    · cases h
  | succ k ih =>
    simp only [insertLoop] at h
    split at h
    · cases h
    · split at h
      · exact (CtxSt.setEntry_sameMems _ _ _ _).trans (ih _ _ _ h)
      · cases h; exact CtxSt.setEntry_sameMems _ _ _ _

/-- An insertion that finds a place leaves the memories alone. -/
theorem CtxSt.insert_sameMems (c : CtxSt) (seed slots : Nat) (e : DirEntry) (d : CtxSt) (h : c.insert seed slots e = .ok d) :
    SameMems c d := by
  unfold CtxSt.insert at h
  split at h
  · cases h
  · cases h; exact CtxSt.setEntry_sameMems _ _ _ _
  · split at h
    · cases h
    · exact insertLoop_sameMems _ _ _ _ _ _ h

end Sys2Proof.Machine
end

