-- ==== Sys2Proof/Laws/SMap.lean ====
section
/-!
SUPPORT. Laws of the keyed tables: a read after a write, and the canonical form that every operation keeps.
-/

namespace Sys2Proof.Machine

open Sys2Proof

variable {α : Type}

/-! ### Reads after writes -/

theorem SMap.get_erase_same (m : SMap α) (d : α) (k : Nat) : SMap.get (SMap.erase m k) d k = d := by
  induction m with
  | nil => rfl
  | cons e r ih =>
    obtain ⟨j, v⟩ := e
    by_cases h : j = k
    · simpa [SMap.erase, h] using ih
    · simpa [SMap.erase, SMap.get, h] using ih

theorem SMap.get_erase_other (m : SMap α) (d : α) {k j : Nat} (hk : j ≠ k) :
    SMap.get (SMap.erase m k) d j = SMap.get m d j := by
  induction m with
  | nil => rfl
  | cons e r ih =>
    obtain ⟨i, v⟩ := e
    by_cases h : i = k
    · have hi : i ≠ j := fun h' => hk (h' ▸ h)
      simpa [SMap.erase, SMap.get, h, hi, Ne.symm hk] using ih
    · have ih' : SMap.get (List.filter (fun p => decide (p.1 ≠ k)) r) d j = SMap.get r d j := ih
      by_cases hj : i = j
      · simp [SMap.erase, SMap.get, hj, hk]
      · simp only [SMap.erase, List.filter_cons, h, ne_eq, not_false_eq_true, decide_true, if_true, SMap.get, if_neg hj]
        exact ih'

theorem SMap.get_insert_same (m : SMap α) (d : α) (k : Nat) (v : α) (h : ∀ e ∈ m, e.1 ≠ k) :
    SMap.get (SMap.insert m k v) d k = v := by
  induction m with
  | nil => simp [SMap.insert, SMap.get]
  | cons e r ih =>
    obtain ⟨j, w⟩ := e
    have hj : j ≠ k := h (j, w) (by simp)
    by_cases hlt : k < j
    · simp [SMap.insert, SMap.get, hlt]
    · simp only [SMap.insert, if_neg hlt, SMap.get, if_neg hj]
      exact ih (fun e he => h e (by simp [he]))

theorem SMap.get_insert_other (m : SMap α) (d : α) {k j : Nat} (v : α) (hk : j ≠ k) :
    SMap.get (SMap.insert m k v) d j = SMap.get m d j := by
  induction m with
  | nil => simp [SMap.insert, SMap.get, Ne.symm hk]
  | cons e r ih =>
    obtain ⟨i, w⟩ := e
    by_cases hlt : k < i
    · simp [SMap.insert, SMap.get, hlt, Ne.symm hk]
    · simp only [SMap.insert, if_neg hlt, SMap.get, ih]

theorem SMap.erase_ne (m : SMap α) (k : Nat) : ∀ e ∈ SMap.erase m k, e.1 ≠ k := by
  intro e he
  simpa [SMap.erase] using (List.mem_filter.1 he).2

/-- A read of the key just written gives the value. -/
theorem SMap.get_set_same [DecidableEq α] (m : SMap α) (d : α) (k : Nat) (v : α) : SMap.get (SMap.set m d k v) d k = v := by
  unfold SMap.set
  split
  · rename_i h; rw [SMap.get_erase_same, h]
  · exact SMap.get_insert_same _ d k v (SMap.erase_ne m k)

/-- A write leaves every other key alone. -/
theorem SMap.get_set_other [DecidableEq α] (m : SMap α) (d : α) {k j : Nat} (v : α) (hk : j ≠ k) :
    SMap.get (SMap.set m d k v) d j = SMap.get m d j := by
  unfold SMap.set
  split
  · exact SMap.get_erase_other m d hk
  · rw [SMap.get_insert_other _ d v hk, SMap.get_erase_other m d hk]

/-- A write with another default also leaves every other key alone, whatever default the read uses. -/
theorem SMap.get_set_default [DecidableEq α] (m : SMap α) (c d : α) {k j : Nat} (v : α) (hk : j ≠ k) :
    SMap.get (SMap.set m c k v) d j = SMap.get m d j := by
  unfold SMap.set
  split
  · exact SMap.get_erase_other m d hk
  · rw [SMap.get_insert_other _ d v hk, SMap.get_erase_other m d hk]

/-! ### The canonical form -/

theorem SMap.rising_filter (m : SMap α) (p : Nat × α → Bool) (h : SMap.rising m = true) : SMap.rising (m.filter p) = true := by
  induction m with
  | nil => rfl
  | cons e r ih =>
    obtain ⟨j, v⟩ := e
    simp only [SMap.rising, Bool.and_eq_true, List.all_eq_true, decide_eq_true_eq] at h
    by_cases hp : p (j, v) = true
    · simp only [List.filter_cons, hp, if_true, SMap.rising, Bool.and_eq_true, List.all_eq_true, decide_eq_true_eq]
      exact ⟨fun e he => h.1 e (List.mem_filter.1 he).1, ih h.2⟩
    · simp only [List.filter_cons, hp]
      exact ih h.2

theorem SMap.rising_drop (m : SMap α) (p : Nat → Bool) (h : SMap.rising m = true) : SMap.rising (SMap.drop m p) = true :=
  SMap.rising_filter m _ h

theorem SMap.mem_insert (m : SMap α) (k : Nat) (v : α) (e : Nat × α) (h : e ∈ SMap.insert m k v) : e = (k, v) ∨ e ∈ m := by
  induction m with
  | nil => left; simpa [SMap.insert] using h
  | cons a r ih =>
    obtain ⟨j, w⟩ := a
    by_cases hlt : k < j
    · simpa [SMap.insert, hlt] using h
    · simp only [SMap.insert, if_neg hlt, List.mem_cons] at h
      rcases h with h | h
      · exact Or.inr (by simp [h])
      · rcases ih h with h | h
        · exact Or.inl h
        · exact Or.inr (by simp [h])

theorem SMap.rising_insert (m : SMap α) (k : Nat) (v : α) (h : SMap.rising m = true) (hk : ∀ e ∈ m, e.1 ≠ k) :
    SMap.rising (SMap.insert m k v) = true := by
  induction m with
  | nil => rfl
  | cons a r ih =>
    obtain ⟨j, w⟩ := a
    have hj : j ≠ k := hk (j, w) (by simp)
    have h' := h
    simp only [SMap.rising, Bool.and_eq_true, List.all_eq_true, decide_eq_true_eq] at h
    by_cases hlt : k < j
    · simp only [SMap.insert, hlt, if_true, SMap.rising, Bool.and_eq_true, List.all_eq_true, decide_eq_true_eq]
      refine ⟨?_, h⟩
      intro e he
      rcases List.mem_cons.1 he with rfl | he
      · exact hlt
      · exact Nat.lt_trans hlt (h.1 e he)
    · simp only [SMap.insert, if_neg hlt, SMap.rising, Bool.and_eq_true, List.all_eq_true, decide_eq_true_eq]
      refine ⟨?_, ih h.2 (fun e he => hk e (by simp [he]))⟩
      intro e he
      rcases SMap.mem_insert r k v e he with rfl | he
      · simp only; omega
      · exact h.1 e he

/-- A write keeps the keys rising. -/
theorem SMap.rising_set [DecidableEq α] (m : SMap α) (d : α) (k : Nat) (v : α) (h : SMap.rising m = true) :
    SMap.rising (SMap.set m d k v) = true := by
  unfold SMap.set
  split
  · exact SMap.rising_filter m _ h
  · exact SMap.rising_insert _ k v (SMap.rising_filter m _ h) (SMap.erase_ne m k)

theorem SMap.rising_foldl_set [DecidableEq α] (es : List (Nat × α)) (m : SMap α) (d : α) (h : SMap.rising m = true) :
    SMap.rising (es.foldl (fun m e => SMap.set m d e.1 e.2) m) = true := by
  induction es generalizing m with
  | nil => exact h
  | cons e r ih => exact ih _ (SMap.rising_set m d e.1 e.2 h)

variable [DecidableEq α]

theorem SMap.wf_nil (d : α) : SMap.wf ([] : SMap α) d = true := rfl

theorem SMap.wf_filter (m : SMap α) (d : α) (p : Nat × α → Bool) (h : SMap.wf m d = true) : SMap.wf (m.filter p) d = true := by
  simp only [SMap.wf, Bool.and_eq_true, List.all_eq_true] at h ⊢
  exact ⟨SMap.rising_filter m p h.1, fun e he => h.2 e (List.mem_filter.1 he).1⟩

theorem SMap.wf_erase (m : SMap α) (d : α) (k : Nat) (h : SMap.wf m d = true) : SMap.wf (SMap.erase m k) d = true :=
  SMap.wf_filter m d _ h

theorem SMap.wf_drop (m : SMap α) (d : α) (p : Nat → Bool) (h : SMap.wf m d = true) : SMap.wf (SMap.drop m p) d = true :=
  SMap.wf_filter m d _ h

/-- A write keeps the canonical form. -/
theorem SMap.wf_set (m : SMap α) (d : α) (k : Nat) (v : α) (h : SMap.wf m d = true) : SMap.wf (SMap.set m d k v) d = true := by
  unfold SMap.set
  split
  · exact SMap.wf_erase m d k h
  · rename_i hv
    have he := SMap.wf_erase m d k h
    simp only [SMap.wf, Bool.and_eq_true, List.all_eq_true] at he ⊢
    refine ⟨SMap.rising_insert _ k v he.1 (SMap.erase_ne m k), ?_⟩
    intro e hm
    rcases SMap.mem_insert _ k v e hm with rfl | hm
    · simpa using hv
    · exact he.2 e hm

/-- Writes in a row keep the canonical form, whatever each of them writes. -/
theorem SMap.wf_foldl {β : Type} (f : SMap α → β → SMap α) (es : List β) (m : SMap α) (d : α)
    (hf : ∀ m e, SMap.wf m d = true → SMap.wf (f m e) d = true) (h : SMap.wf m d = true) : SMap.wf (es.foldl f m) d = true := by
  induction es generalizing m with
  | nil => exact h
  | cons e r ih => exact ih _ (hf m e h)

theorem SMap.wf_setRun (vs : List α) (m : SMap α) (d : α) (k : Nat) (h : SMap.wf m d = true) :
    SMap.wf (SMap.setRun m d k vs) d = true := by
  induction vs generalizing m k with
  | nil => exact h
  | cons v r ih => exact ih _ _ (SMap.wf_set m d k v h)

theorem SMap.get_setRun_below (vs : List α) (m : SMap α) (d : α) {k j : Nat} (h : j < k) :
    SMap.get (SMap.setRun m d k vs) d j = SMap.get m d j := by
  induction vs generalizing m k with
  | nil => rfl
  | cons v r ih => exact (ih _ (Nat.lt_succ_of_lt h)).trans (SMap.get_set_other m d v (Nat.ne_of_lt h))

/-- A run of values reads back as written. -/
theorem SMap.getRun_setRun (vs : List α) (m : SMap α) (d : α) (k : Nat) :
    SMap.getRun (SMap.setRun m d k vs) d k vs.length = vs := by
  induction vs generalizing m k with
  | nil => rfl
  | cons v r ih =>
    have h := ih (m.set d k v) (k + 1)
    simp only [SMap.getRun] at h ⊢
    simp only [SMap.setRun, List.length_cons, List.range_succ_eq_map, List.map_cons, List.map_map]
    congr 1
    · simpa using (SMap.get_setRun_below r (m.set d k v) d (Nat.lt_succ_self k)).trans (SMap.get_set_same m d k v)
    · refine Eq.trans (List.map_congr_left fun i _ => ?_) h
      simp only [Function.comp, Nat.succ_eq_add_one, Nat.add_comm, Nat.add_left_comm]

theorem SMap.wf_fillRun (m : SMap α) (d : α) (k n : Nat) (v : α) (h : SMap.wf m d = true) :
    SMap.wf (SMap.fillRun m d k n v) d = true := by
  unfold SMap.fillRun
  split
  · exact SMap.wf_drop m d _ h
  · exact SMap.wf_setRun _ _ d k (SMap.wf_drop m d _ h)

end Sys2Proof.Machine
end

