-- ==== Sys2Proof/Laws/Keeps.lean ====
section
/-!
SUPPORT. What an operation leaves unchanged, and that it keeps the canonical form, as one relation `Keeps` that composes;
the rules for composing it.
-/

namespace Sys2Proof.Machine

open Sys2Proof

/-- `t` differs from `s` in the parts `ps` at most, and is in canonical form if `s` is. -/
structure Keeps (ps : List Part) (s t : State) : Prop where
  same : SameBut ps s t
  canon : s.Canon → t.Canon

/-- Every part of `qs` is one of `ps`. -/
def subParts (qs ps : List Part) : Bool := qs.all (fun q => ps.contains q)

theorem Part.Same.rfl' (p : Part) (s : State) : p.Same s s := by cases p <;> rfl

theorem Part.Same.trans {p : Part} {s t u : State} (h : p.Same s t) (k : p.Same t u) : p.Same s u := by
  cases p <;> exact Eq.trans k h

theorem Keeps.refl (ps : List Part) (s : State) : Keeps ps s s := ⟨fun p _ => Part.Same.rfl' p s, id⟩

/-- A step that keeps all but `qs` after one that keeps all but `ps`, with `qs` among `ps`. -/
theorem Keeps.then {ps qs : List Part} {s t u : State} (k : Keeps qs t u) (hs : subParts qs ps = true) (h : Keeps ps s t) :
    Keeps ps s u := by
  refine ⟨fun p hp => (h.same p hp).trans (k.same p fun hq => hp ?_), fun c => k.canon (h.canon c)⟩
  have := List.all_eq_true.1 hs p hq
  simpa using this

theorem subParts.trans {a b c : List Part} (h : subParts a b = true) (k : subParts b c = true) : subParts a c = true := by
  simp only [subParts, List.all_eq_true, List.contains_iff_mem] at *
  exact fun q hq => k q (h q hq)

theorem Keeps.weaken {ps qs : List Part} {s t : State} (k : Keeps qs s t) (hs : subParts qs ps = true) : Keeps ps s t :=
  k.then hs (Keeps.refl ps s)

theorem Keeps.ite {ps : List Part} {s t u : State} {c : Prop} [Decidable c] (h : Keeps ps s t) (k : Keeps ps s u) :
    Keeps ps s (if c then t else u) := by
  split
  · exact h
  · exact k

theorem Keeps.onlyIf {ps : List Part} {s t : State} {b : Bool} {f : State → State} (h : Keeps ps s t)
    (hf : ∀ x, Keeps ps s x → Keeps ps s (f x)) : Keeps ps s (t.onlyIf b f) := by
  unfold State.onlyIf
  split
  · exact hf t h
  · exact h

theorem Keeps.each {α : Type} {ps : List Part} {s t : State} {xs : List α} {f : State → α → State} (h : Keeps ps s t)
    (hf : ∀ x a, Keeps ps s x → Keeps ps s (f x a)) : Keeps ps s (t.each xs f) := by
  induction xs generalizing t with
  | nil => exact h
  | cons a r ih => exact ih (hf t a h)

theorem Keeps.foldl {α : Type} {ps : List Part} {s t : State} {xs : List α} {f : State → α → State} (h : Keeps ps s t)
    (hf : ∀ x a, Keeps ps s x → Keeps ps s (f x a)) : Keeps ps s (xs.foldl f t) := by
  induction xs generalizing t with
  | nil => exact h
  | cons a r ih => exact ih (hf t a h)

theorem Keeps.foldr {α : Type} {ps : List Part} {s t : State} {xs : List α} {f : α → State → State} (h : Keeps ps s t)
    (hf : ∀ x a, Keeps ps s x → Keeps ps s (f a x)) : Keeps ps s (xs.foldr f t) := by
  induction xs with
  | nil => exact h
  | cons a r ih => exact hf _ a ih

theorem Keeps.fst {α : Type} {ps : List Part} {s t : State} {a : α} {x : State × α} (k : Keeps ps s x.1) (h : x = (t, a)) :
    Keeps ps s t := by
  rw [h] at k
  exact k

theorem Keeps.getD {ps : List Part} {s t : State} {o : Option State} (h : Keeps ps s t)
    (hf : ∀ x, o = some x → Keeps ps s x) : Keeps ps s (o.getD t) := by
  cases o with
  | none => exact h
  | some x => exact hf x rfl

/-- A record update of the state: what is not changed is as before, and the tables that are changed stay canonical. -/
theorem Keeps.upd {ps : List Part} {s0 s : State} {pe0 : List Instr} {fr1 : Nat} {va2 : Variant} {se3 : BitVec 64}
    {st4 : BitVec 3} {re5 : SMap Nat} {mg6 : Mgmt} {in7 : Intc} {co8 : SMap Nat} {qu9 : SMap QueueSt} {la10 : SMap
    LaneSt} {po11 : SMap Pool} {po12 : SMap Port} {ho13 : SMap HostSt} {di14 : SMap DieSt} {lo15 : LoaderSt} {ke16 :
    List KeySlot} {mr17 : MramSt} {po18 : PowerSt} {ti19 : TimeSt} {sc20 : SchedSt} {tr21 : SMap TrigLine} {bc22 :
    SMap BcnLane} {sy23 : SMap SynSt} {me24 : MemSt} {ct25 : CtxSt} {th26 : ThermSt} {te27 : TestSt} {ca28 : SMap Int}
    {hk29 : HkSt} {ta30 : TapInstr} (epe0 : pe0 = s.pending ∨ ps.contains .pending = true) (efr1 : fr1 = s.freeCtr ∨
    ps.contains .freeCtr = true) (eva2 : va2 = s.variant ∨ ps.contains .variant = true) (ese3 : se3 = s.serial ∨
    ps.contains .serial = true) (est4 : st4 = s.strap ∨ ps.contains .strap = true) (ere5 : re5 = s.regs ∨ ps.contains
    .regs = true) (emg6 : mg6 = s.mgmt ∨ ps.contains .mgmt = true) (ein7 : in7 = s.intc ∨ ps.contains .intc = true)
    (eco8 : co8 = s.counts ∨ ps.contains .counts = true) (equ9 : qu9 = s.queues ∨ ps.contains .queues = true) (ela10 :
    la10 = s.lanes ∨ ps.contains .lanes = true) (epo11 : po11 = s.pools ∨ ps.contains .pools = true) (epo12 : po12 =
    s.ports ∨ ps.contains .ports = true) (eho13 : ho13 = s.hosts ∨ ps.contains .hosts = true) (edi14 : di14 = s.dies ∨
    ps.contains .dies = true) (elo15 : lo15 = s.loader ∨ ps.contains .loader = true) (eke16 : ke16 = s.keys ∨
    ps.contains .keys = true) (emr17 : mr17 = s.mram ∨ ps.contains .mram = true) (epo18 : po18 = s.power ∨ ps.contains
    .power = true) (eti19 : ti19 = s.time ∨ ps.contains .time = true) (esc20 : sc20 = s.sched ∨ ps.contains .sched =
    true) (etr21 : tr21 = s.trig ∨ ps.contains .trig = true) (ebc22 : bc22 = s.bcn ∨ ps.contains .bcn = true) (esy23 :
    sy23 = s.syn ∨ ps.contains .syn = true) (eme24 : me24 = s.mem ∨ ps.contains .mem = true) (ect25 : ct25 = s.ctx ∨
    ps.contains .ctx = true) (eth26 : th26 = s.therm ∨ ps.contains .therm = true) (ete27 : te27 = s.test ∨ ps.contains
    .test = true) (eca28 : ca28 = s.cal ∨ ps.contains .cal = true) (ehk29 : hk29 = s.hk ∨ ps.contains .hk = true)
    (eta30 : ta30 = s.tap ∨ ps.contains .tap = true) (cregs : SMap.rising s.regs = true → SMap.rising re5 = true)
    (ccounts : SMap.wf s.counts 0 = true → SMap.wf co8 0 = true) (cqueues : SMap.rising s.queues = true → SMap.rising
    qu9 = true) (clanes : SMap.wf s.lanes .fresh = true → SMap.wf la10 .fresh = true) (cpools : SMap.wf s.pools .fresh
    = true → SMap.wf po11 .fresh = true) (cports : SMap.wf s.ports .fresh = true → SMap.wf po12 .fresh = true) (chosts
    : SMap.wf s.hosts .fresh = true → SMap.wf ho13 .fresh = true) (cdies : SMap.wf s.dies .fresh = true → SMap.wf di14
    .fresh = true) (cstaging : SMap.wf s.loader.staging .unwritten = true → SMap.wf lo15.staging .unwritten = true)
    (ccodeRam : SMap.wf s.loader.codeRam .unwritten = true → SMap.wf lo15.codeRam .unwritten = true) (cmramBytes :
    SMap.wf s.mram.bytes 0 = true → SMap.wf mr17.bytes 0 = true) (cmramErr : SMap.wf s.mram.err .clean = true →
    SMap.wf mr17.err .clean = true) (csave : SMap.wf s.power.save .unwritten = true → SMap.wf po18.save .unwritten =
    true) (ctrig : SMap.wf s.trig .fresh = true → SMap.wf tr21 .fresh = true) (cbcn : SMap.wf s.bcn .fresh = true →
    SMap.wf bc22 .fresh = true) (csyn : SMap.wf s.syn .fresh = true → SMap.wf sy23 .fresh = true) (cd3 : SMap.wf
    s.mem.d3 .unwritten = true → SMap.wf me24.d3 .unwritten = true) (clineMem : SMap.wf s.ctx.lineMem .unwritten =
    true → SMap.wf ct25.lineMem .unwritten = true) (cbuf : SMap.wf s.ctx.buf .unwritten = true → SMap.wf ct25.buf
    .unwritten = true) (capplyBuf : SMap.wf s.ctx.applyBuf .unwritten = true → SMap.wf ct25.applyBuf .unwritten =
    true) (cring : SMap.wf s.hk.ring 0 = true → SMap.wf hk29.ring 0 = true) (h : Keeps ps s0 s) :
    Keeps ps s0
      (State.mk pe0 fr1 va2 se3 st4 re5 mg6 in7 co8 qu9 la10 po11 po12 ho13 di14 lo15 ke16 mr17 po18 ti19 sc20 tr21 bc22 sy23
       me24 ct25 th26 te27 ca28 hk29 ta30) := by
  refine ⟨fun p hp => (h.same p hp).trans ?_, fun c0 => ?_⟩
  · cases p
    · exact epe0.resolve_right (fun h => hp (by simpa using h))
    · exact efr1.resolve_right (fun h => hp (by simpa using h))
    · exact eva2.resolve_right (fun h => hp (by simpa using h))
    · exact ese3.resolve_right (fun h => hp (by simpa using h))
    · exact est4.resolve_right (fun h => hp (by simpa using h))
    · exact ere5.resolve_right (fun h => hp (by simpa using h))
    · exact emg6.resolve_right (fun h => hp (by simpa using h))
    · exact ein7.resolve_right (fun h => hp (by simpa using h))
    · exact eco8.resolve_right (fun h => hp (by simpa using h))
    · exact equ9.resolve_right (fun h => hp (by simpa using h))
    · exact ela10.resolve_right (fun h => hp (by simpa using h))
    · exact epo11.resolve_right (fun h => hp (by simpa using h))
    · exact epo12.resolve_right (fun h => hp (by simpa using h))
    · exact eho13.resolve_right (fun h => hp (by simpa using h))
    · exact edi14.resolve_right (fun h => hp (by simpa using h))
    · exact elo15.resolve_right (fun h => hp (by simpa using h))
    · exact eke16.resolve_right (fun h => hp (by simpa using h))
    · exact emr17.resolve_right (fun h => hp (by simpa using h))
    · exact epo18.resolve_right (fun h => hp (by simpa using h))
    · exact eti19.resolve_right (fun h => hp (by simpa using h))
    · exact esc20.resolve_right (fun h => hp (by simpa using h))
    · exact etr21.resolve_right (fun h => hp (by simpa using h))
    · exact ebc22.resolve_right (fun h => hp (by simpa using h))
    · exact esy23.resolve_right (fun h => hp (by simpa using h))
    · exact eme24.resolve_right (fun h => hp (by simpa using h))
    · exact ect25.resolve_right (fun h => hp (by simpa using h))
    · exact eth26.resolve_right (fun h => hp (by simpa using h))
    · exact ete27.resolve_right (fun h => hp (by simpa using h))
    · exact eca28.resolve_right (fun h => hp (by simpa using h))
    · exact ehk29.resolve_right (fun h => hp (by simpa using h))
    · exact eta30.resolve_right (fun h => hp (by simpa using h))
  · have c := h.canon c0
    exact
      { regs := cregs c.regs
        counts := ccounts c.counts
        queues := cqueues c.queues
        lanes := clanes c.lanes
        pools := cpools c.pools
        ports := cports c.ports
        hosts := chosts c.hosts
        dies := cdies c.dies
        staging := cstaging c.staging
        codeRam := ccodeRam c.codeRam
        mramBytes := cmramBytes c.mramBytes
        mramErr := cmramErr c.mramErr
        save := csave c.save
        trig := ctrig c.trig
        bcn := cbcn c.bcn
        syn := csyn c.syn
        d3 := cd3 c.d3
        lineMem := clineMem c.lineMem
        buf := cbuf c.buf
        applyBuf := capplyBuf c.applyBuf
        ring := cring c.ring }

end Sys2Proof.Machine
end

