-- ==== Sys2Proof/Laws/KeepsOps.lean ====
section
/-!
SUPPORT. What each operation of Machine/Ops.lean leaves unchanged, and that it keeps the canonical form.
-/

namespace Sys2Proof.Machine

open Sys2Proof

theorem State.put_keeps (s : State) (f : Fld) (v : Nat) : Keeps [.regs] s (State.put s f v) := by
  unfold State.put
  repeat' first
    | exact rfl | with_reducible exact Keeps.refl _ _ | with_reducible assumption | exact Or.inr (by decide)
    | with_reducible exact Or.inl rfl | with_reducible exact id | with_reducible refine Keeps.ite ?_ ?_ | extract_lets
    | split | with_reducible apply Keeps.upd | dsimp +zetaDelta only
    | with_reducible exact fun h => SMap.wf_set _ _ _ _ h | with_reducible exact fun h => SMap.rising_set _ _ _ _ h
    | with_reducible exact fun h => SMap.rising_drop _ _ h | with_reducible exact fun h => SMap.wf_setRun _ _ _ _ h
    | with_reducible exact fun h => SMap.wf_setRun _ _ _ _ (SMap.wf_setRun _ _ _ _ h)
    | with_reducible exact fun h => SMap.wf_fillRun _ _ _ _ _ h | with_reducible exact fun h => SMap.wf_drop _ _ _ h
    | with_reducible exact fun _ => SMap.wf_nil _ | with_reducible exact fun h => by simpa using h | exact id

theorem State.putB_keeps (s : State) (f : Fld) (b : Bool) : Keeps [.regs] s (State.putB s f b) := by
  unfold State.putB
  repeat' first
    | exact rfl | with_reducible exact Keeps.refl _ _ | with_reducible assumption
    | with_reducible refine (State.put_keeps _ _ _).then ?_ ?_ | with_reducible refine Keeps.ite ?_ ?_ | extract_lets
    | split | dsimp +zetaDelta only

theorem State.putZ_keeps (s : State) (f : Fld) (z : Int) : Keeps [.regs] s (State.putZ s f z) := by
  unfold State.putZ
  repeat' first
    | exact rfl | with_reducible exact Keeps.refl _ _ | with_reducible assumption
    | with_reducible refine (State.put_keeps _ _ _).then ?_ ?_ | with_reducible refine Keeps.ite ?_ ?_ | extract_lets
    | split | dsimp +zetaDelta only

theorem State.addTo_keeps (s : State) (f : Fld) (n : Nat) : Keeps [.regs] s (State.addTo s f n) := by
  unfold State.addTo
  repeat' first
    | exact rfl | with_reducible exact Keeps.refl _ _ | with_reducible assumption
    | with_reducible refine (State.put_keeps _ _ _).then ?_ ?_ | with_reducible refine Keeps.ite ?_ ?_ | extract_lets
    | split | dsimp +zetaDelta only

theorem State.addSat_keeps (s : State) (f : Fld) (n : Nat) : Keeps [.regs] s (State.addSat s f n) := by
  unfold State.addSat
  repeat' first
    | exact rfl | with_reducible exact Keeps.refl _ _ | with_reducible assumption
    | with_reducible refine (State.put_keeps _ _ _).then ?_ ?_ | with_reducible refine Keeps.ite ?_ ?_ | extract_lets
    | split | dsimp +zetaDelta only

theorem State.putRow_keeps (s : State) (r : FRow) (n : Nat) (i : Nat) (vs : List Nat) : Keeps [.regs] s
    (State.putRow s r n i vs) := by
  induction vs generalizing s i with
  | nil => exact Keeps.refl _ _
  | cons v r ih => exact (ih _ _).then rfl (State.put_keeps _ _ _)

theorem State.freed_keeps (s : State) : Keeps [.freeCtr] s (State.freed s) := by
  unfold State.freed
  repeat' first
    | exact rfl | with_reducible exact Keeps.refl _ _ | with_reducible assumption | exact Or.inr (by decide)
    | with_reducible exact Or.inl rfl | with_reducible exact id | with_reducible refine Keeps.ite ?_ ?_ | extract_lets
    | split | with_reducible apply Keeps.upd | dsimp +zetaDelta only
    | with_reducible exact fun h => SMap.wf_set _ _ _ _ h | with_reducible exact fun h => SMap.rising_set _ _ _ _ h
    | with_reducible exact fun h => SMap.rising_drop _ _ h | with_reducible exact fun h => SMap.wf_setRun _ _ _ _ h
    | with_reducible exact fun h => SMap.wf_setRun _ _ _ _ (SMap.wf_setRun _ _ _ _ h)
    | with_reducible exact fun h => SMap.wf_fillRun _ _ _ _ _ h | with_reducible exact fun h => SMap.wf_drop _ _ _ h
    | with_reducible exact fun _ => SMap.wf_nil _ | with_reducible exact fun h => by simpa using h | exact id

theorem State.clearRange_keeps (s : State) (lo : Nat) (hi : Nat) : Keeps [.regs] s (State.clearRange s lo hi) := by
  unfold State.clearRange
  repeat' first
    | exact rfl | with_reducible exact Keeps.refl _ _ | with_reducible assumption | exact Or.inr (by decide)
    | with_reducible exact Or.inl rfl | with_reducible exact id | with_reducible refine Keeps.ite ?_ ?_ | extract_lets
    | split | with_reducible apply Keeps.upd | dsimp +zetaDelta only
    | with_reducible exact fun h => SMap.wf_set _ _ _ _ h | with_reducible exact fun h => SMap.rising_set _ _ _ _ h
    | with_reducible exact fun h => SMap.rising_drop _ _ h | with_reducible exact fun h => SMap.wf_setRun _ _ _ _ h
    | with_reducible exact fun h => SMap.wf_setRun _ _ _ _ (SMap.wf_setRun _ _ _ _ h)
    | with_reducible exact fun h => SMap.wf_fillRun _ _ _ _ _ h | with_reducible exact fun h => SMap.wf_drop _ _ _ h
    | with_reducible exact fun _ => SMap.wf_nil _ | with_reducible exact fun h => by simpa using h | exact id

theorem State.setLane_keeps (s : State) (n : Nat) (l : LaneSt) : Keeps [.lanes] s (State.setLane s n l) := by
  unfold State.setLane
  repeat' first
    | exact rfl | with_reducible exact Keeps.refl _ _ | with_reducible assumption | exact Or.inr (by decide)
    | with_reducible exact Or.inl rfl | with_reducible exact id | with_reducible refine Keeps.ite ?_ ?_ | extract_lets
    | split | with_reducible apply Keeps.upd | dsimp +zetaDelta only
    | with_reducible exact fun h => SMap.wf_set _ _ _ _ h | with_reducible exact fun h => SMap.rising_set _ _ _ _ h
    | with_reducible exact fun h => SMap.rising_drop _ _ h | with_reducible exact fun h => SMap.wf_setRun _ _ _ _ h
    | with_reducible exact fun h => SMap.wf_setRun _ _ _ _ (SMap.wf_setRun _ _ _ _ h)
    | with_reducible exact fun h => SMap.wf_fillRun _ _ _ _ _ h | with_reducible exact fun h => SMap.wf_drop _ _ _ h
    | with_reducible exact fun _ => SMap.wf_nil _ | with_reducible exact fun h => by simpa using h | exact id

theorem State.onLane_keeps (s : State) (n : Nat) (f : LaneSt → LaneSt) : Keeps [.lanes] s (State.onLane s n f) := by
  unfold State.onLane
  repeat' first
    | exact rfl | with_reducible exact Keeps.refl _ _ | with_reducible assumption
    | with_reducible refine (State.setLane_keeps _ _ _).then ?_ ?_ | with_reducible refine Keeps.ite ?_ ?_
    | extract_lets | split | dsimp +zetaDelta only

theorem State.setPool_keeps (s : State) (r : Nat) (p : Pool) : Keeps [.pools] s (State.setPool s r p) := by
  unfold State.setPool
  repeat' first
    | exact rfl | with_reducible exact Keeps.refl _ _ | with_reducible assumption | exact Or.inr (by decide)
    | with_reducible exact Or.inl rfl | with_reducible exact id | with_reducible refine Keeps.ite ?_ ?_ | extract_lets
    | split | with_reducible apply Keeps.upd | dsimp +zetaDelta only
    | with_reducible exact fun h => SMap.wf_set _ _ _ _ h | with_reducible exact fun h => SMap.rising_set _ _ _ _ h
    | with_reducible exact fun h => SMap.rising_drop _ _ h | with_reducible exact fun h => SMap.wf_setRun _ _ _ _ h
    | with_reducible exact fun h => SMap.wf_setRun _ _ _ _ (SMap.wf_setRun _ _ _ _ h)
    | with_reducible exact fun h => SMap.wf_fillRun _ _ _ _ _ h | with_reducible exact fun h => SMap.wf_drop _ _ _ h
    | with_reducible exact fun _ => SMap.wf_nil _ | with_reducible exact fun h => by simpa using h | exact id

theorem State.setPort_keeps (s : State) (n : Nat) (p : Port) : Keeps [.ports] s (State.setPort s n p) := by
  unfold State.setPort
  repeat' first
    | exact rfl | with_reducible exact Keeps.refl _ _ | with_reducible assumption | exact Or.inr (by decide)
    | with_reducible exact Or.inl rfl | with_reducible exact id | with_reducible refine Keeps.ite ?_ ?_ | extract_lets
    | split | with_reducible apply Keeps.upd | dsimp +zetaDelta only
    | with_reducible exact fun h => SMap.wf_set _ _ _ _ h | with_reducible exact fun h => SMap.rising_set _ _ _ _ h
    | with_reducible exact fun h => SMap.rising_drop _ _ h | with_reducible exact fun h => SMap.wf_setRun _ _ _ _ h
    | with_reducible exact fun h => SMap.wf_setRun _ _ _ _ (SMap.wf_setRun _ _ _ _ h)
    | with_reducible exact fun h => SMap.wf_fillRun _ _ _ _ _ h | with_reducible exact fun h => SMap.wf_drop _ _ _ h
    | with_reducible exact fun _ => SMap.wf_nil _ | with_reducible exact fun h => by simpa using h | exact id

theorem State.setHost_keeps (s : State) (h : Nat) (x : HostSt) : Keeps [.hosts] s (State.setHost s h x) := by
  unfold State.setHost
  repeat' first
    | exact rfl | with_reducible exact Keeps.refl _ _ | with_reducible assumption | exact Or.inr (by decide)
    | with_reducible exact Or.inl rfl | with_reducible exact id | with_reducible refine Keeps.ite ?_ ?_ | extract_lets
    | split | with_reducible apply Keeps.upd | dsimp +zetaDelta only
    | with_reducible exact fun h => SMap.wf_set _ _ _ _ h | with_reducible exact fun h => SMap.rising_set _ _ _ _ h
    | with_reducible exact fun h => SMap.rising_drop _ _ h | with_reducible exact fun h => SMap.wf_setRun _ _ _ _ h
    | with_reducible exact fun h => SMap.wf_setRun _ _ _ _ (SMap.wf_setRun _ _ _ _ h)
    | with_reducible exact fun h => SMap.wf_fillRun _ _ _ _ _ h | with_reducible exact fun h => SMap.wf_drop _ _ _ h
    | with_reducible exact fun _ => SMap.wf_nil _ | with_reducible exact fun h => by simpa using h | exact id

theorem State.setDie_keeps (s : State) (d : Nat) (x : DieSt) : Keeps [.dies] s (State.setDie s d x) := by
  unfold State.setDie
  repeat' first
    | exact rfl | with_reducible exact Keeps.refl _ _ | with_reducible assumption | exact Or.inr (by decide)
    | with_reducible exact Or.inl rfl | with_reducible exact id | with_reducible refine Keeps.ite ?_ ?_ | extract_lets
    | split | with_reducible apply Keeps.upd | dsimp +zetaDelta only
    | with_reducible exact fun h => SMap.wf_set _ _ _ _ h | with_reducible exact fun h => SMap.rising_set _ _ _ _ h
    | with_reducible exact fun h => SMap.rising_drop _ _ h | with_reducible exact fun h => SMap.wf_setRun _ _ _ _ h
    | with_reducible exact fun h => SMap.wf_setRun _ _ _ _ (SMap.wf_setRun _ _ _ _ h)
    | with_reducible exact fun h => SMap.wf_fillRun _ _ _ _ _ h | with_reducible exact fun h => SMap.wf_drop _ _ _ h
    | with_reducible exact fun _ => SMap.wf_nil _ | with_reducible exact fun h => by simpa using h | exact id

theorem State.setQueue_keeps (s : State) (q : QueueId) (x : QueueSt) : Keeps [.queues] s (State.setQueue s q x) :=
    by
  unfold State.setQueue
  repeat' first
    | exact rfl | with_reducible exact Keeps.refl _ _ | with_reducible assumption | exact Or.inr (by decide)
    | with_reducible exact Or.inl rfl | with_reducible exact id | with_reducible refine Keeps.ite ?_ ?_ | extract_lets
    | split | with_reducible apply Keeps.upd | dsimp +zetaDelta only
    | with_reducible exact fun h => SMap.wf_set _ _ _ _ h | with_reducible exact fun h => SMap.rising_set _ _ _ _ h
    | with_reducible exact fun h => SMap.rising_drop _ _ h | with_reducible exact fun h => SMap.wf_setRun _ _ _ _ h
    | with_reducible exact fun h => SMap.wf_setRun _ _ _ _ (SMap.wf_setRun _ _ _ _ h)
    | with_reducible exact fun h => SMap.wf_fillRun _ _ _ _ _ h | with_reducible exact fun h => SMap.wf_drop _ _ _ h
    | with_reducible exact fun _ => SMap.wf_nil _ | with_reducible exact fun h => by simpa using h | exact id

theorem State.setSide_keeps (s : State) (n : Nat) (b : Bool) (x : PortSide) : Keeps [.ports] s (State.setSide s n b
    x) := by
  unfold State.setSide
  repeat' first
    | exact rfl | with_reducible exact Keeps.refl _ _ | with_reducible assumption
    | with_reducible refine (State.setPort_keeps _ _ _).then ?_ ?_ | with_reducible refine Keeps.ite ?_ ?_
    | extract_lets | split | dsimp +zetaDelta only

end Sys2Proof.Machine
end

