-- ==== Sys2Proof/Laws/KeepsFlags.lean ====
section
/-!
SUPPORT. What each operation of Machine/Flags.lean leaves unchanged, and that it keeps the canonical form.
-/

namespace Sys2Proof.Machine

open Sys2Proof

theorem State.noteEvent_keeps (s : State) (i : Nat) : Keeps [.regs] s (State.noteEvent s i) := by
  unfold State.noteEvent
  repeat' first
    | exact rfl | with_reducible exact Keeps.refl _ _ | with_reducible assumption
    | with_reducible refine (State.addSat_keeps _ _ _).then ?_ ?_ | with_reducible refine Keeps.ite ?_ ?_
    | with_reducible refine Keeps.onlyIf ?_ (fun _ _ => ?_) | extract_lets | split | dsimp +zetaDelta only

theorem State.raise_keeps (s : State) (i : Nat) : Keeps [.regs] s (State.raise s i) := by
  unfold State.raise
  repeat' first
    | exact rfl | with_reducible exact Keeps.refl _ _ | with_reducible assumption
    | with_reducible refine (State.put_keeps _ _ _).then ?_ ?_
    | with_reducible refine (State.noteEvent_keeps _ _).then ?_ ?_ | with_reducible refine Keeps.ite ?_ ?_
    | extract_lets | split | dsimp +zetaDelta only

theorem State.raiseLane_keeps (s : State) (n : Nat) (k : Nat) : Keeps [.regs] s (State.raiseLane s n k) := by
  unfold State.raiseLane
  repeat' first
    | exact rfl | with_reducible exact Keeps.refl _ _ | with_reducible assumption
    | with_reducible refine (State.raise_keeps _ _).then ?_ ?_ | with_reducible refine Keeps.ite ?_ ?_ | extract_lets
    | split | dsimp +zetaDelta only

theorem State.releaseIrq_keeps (s : State) : Keeps [.intc] s (State.releaseIrq s) := by
  unfold State.releaseIrq
  repeat' first
    | exact rfl | with_reducible exact Keeps.refl _ _ | with_reducible assumption | exact Or.inr (by decide)
    | with_reducible exact Or.inl rfl | with_reducible exact id | with_reducible refine Keeps.ite ?_ ?_ | extract_lets
    | split | with_reducible apply Keeps.upd | dsimp +zetaDelta only
    | with_reducible exact fun h => SMap.wf_set _ _ _ _ h | with_reducible exact fun h => SMap.rising_set _ _ _ _ h
    | with_reducible exact fun h => SMap.rising_drop _ _ h | with_reducible exact fun h => SMap.wf_setRun _ _ _ _ h
    | with_reducible exact fun h => SMap.wf_setRun _ _ _ _ (SMap.wf_setRun _ _ _ _ h)
    | with_reducible exact fun h => SMap.wf_fillRun _ _ _ _ _ h | with_reducible exact fun h => SMap.wf_drop _ _ _ h
    | with_reducible exact fun _ => SMap.wf_nil _ | with_reducible exact fun h => by simpa using h | exact id

theorem State.bumpFrom_keeps (s : State) (bank : Nat) (evs : List Nat) (n : Nat) (carry : Nat) (i : Nat) (fuel :
    Nat) : Keeps [.regs, .counts] s (State.bumpFrom s bank evs n carry i fuel) := by
  induction fuel generalizing s carry i with
  | zero => exact Keeps.refl _ _
  | succ k ih =>
    unfold State.bumpFrom
    extract_lets
    refine (ih _ _ _).then rfl ?_
    have h : ∀ (i c : Nat), Keeps [.regs, .counts] s { s with counts := s.counts.set 0 i c } := fun i c => by
      repeat' first
      | exact Or.inr (by decide)
      | exact Or.inl rfl
      | exact id
      | exact fun h => SMap.wf_set _ _ _ _ h
      | exact Keeps.refl _ _
      | apply Keeps.upd
    repeat' first
    | exact Keeps.refl _ _
    | exact h _ _
    | refine Keeps.ite ?_ ?_
    | extract_lets
    | refine (State.put_keeps _ _ _).then rfl ?_
    | refine (State.noteEvent_keeps _ _).then rfl ?_

theorem State.bump_keeps (s : State) (bank : Nat) (evs : List Nat) (n : Nat) : Keeps [.regs, .counts] s (State.bump
    s bank evs n) := by
  unfold State.bump
  repeat' first
    | exact rfl | with_reducible exact Keeps.refl _ _ | with_reducible assumption
    | with_reducible refine (State.bumpFrom_keeps _ _ _ _ _ _ _).then ?_ ?_ | with_reducible refine Keeps.ite ?_ ?_
    | extract_lets | split | dsimp +zetaDelta only

theorem State.countLane_keeps (s : State) (n : Nat) (kind : Nat) (k : Nat) : Keeps [.regs, .counts] s
    (State.countLane s n kind k) := by
  unfold State.countLane
  repeat' first
    | exact rfl | with_reducible exact Keeps.refl _ _ | with_reducible assumption
    | with_reducible refine (State.bump_keeps _ _ _ _).then ?_ ?_ | with_reducible refine Keeps.ite ?_ ?_
    | extract_lets | split | dsimp +zetaDelta only

theorem State.countD0_keeps (s : State) (kind : Nat) (inst : Nat) (k : Nat) : Keeps [.regs, .counts] s
    (State.countD0 s kind inst k) := by
  unfold State.countD0
  repeat' first
    | exact rfl | with_reducible exact Keeps.refl _ _ | with_reducible assumption
    | with_reducible refine (State.bump_keeps _ _ _ _).then ?_ ?_ | with_reducible refine Keeps.ite ?_ ?_
    | extract_lets | split | dsimp +zetaDelta only

end Sys2Proof.Machine
end

