-- ==== Sys2Proof/Laws/KeepsAddrMap.lean ====
section
/-!
SUPPORT. What each operation of Machine/AddrMap.lean leaves unchanged, and that it keeps the canonical form.
-/

namespace Sys2Proof.Machine

open Sys2Proof

theorem State.lockedWrite_keeps (s : State) (a : Nat) (o : Origin) : Keeps [.regs] s (State.lockedWrite s a o) := by
  unfold State.lockedWrite
  repeat' first
    | exact rfl | with_reducible exact Keeps.refl _ _ | with_reducible assumption
    | with_reducible refine (State.raise_keeps _ _).then ?_ ?_
    | with_reducible refine (State.put_keeps _ _ _).then ?_ ?_ | with_reducible refine Keeps.ite ?_ ?_ | extract_lets
    | split | dsimp +zetaDelta only

theorem State.unmapped_keeps (s : State) (a : Nat) (o : Origin) (write : Bool) : Keeps [.regs] s (State.unmapped s a
    o write) := by
  unfold State.unmapped
  repeat' first
    | exact rfl | with_reducible exact Keeps.refl _ _ | with_reducible assumption
    | with_reducible refine (State.raise_keeps _ _).then ?_ ?_
    | with_reducible refine (State.putB_keeps _ _ _).then ?_ ?_
    | with_reducible refine (State.put_keeps _ _ _).then ?_ ?_ | with_reducible refine Keeps.ite ?_ ?_ | extract_lets
    | split | dsimp +zetaDelta only

end Sys2Proof.Machine
end

