-- ==== Sys2Proof/Laws/KeepsTimeBase.lean ====
section
/-!
SUPPORT. What each operation of Machine/TimeBase.lean leaves unchanged, and that it keeps the canonical form.
-/

namespace Sys2Proof.Machine

open Sys2Proof

theorem State.softStamp_keeps (s : State) : Keeps [.freeCtr] s (State.softStamp s).2 := by
  unfold State.softStamp
  repeat' first
    | exact rfl | with_reducible exact Keeps.refl _ _ | with_reducible assumption
    | with_reducible refine (State.freed_keeps _).then ?_ ?_ | with_reducible refine Keeps.ite ?_ ?_ | extract_lets
    | split | dsimp +zetaDelta only

theorem State.bgUnit_keeps {ps : List Part} {s0 : State} (s : State) (k : Nat) (f : State → State)
    (hs : subParts [.therm] ps = true) (h : Keeps ps s0 s) (hf : ∀ x, Keeps ps s0 x → Keeps ps s0 (f x)) :
    Keeps ps s0 (s.bgUnit k f) := by
  have k1 : ∀ x, Keeps [.therm] s { s with therm := x } := fun x => by
    repeat' first
    | exact Or.inr (by decide)
    | exact Or.inl rfl
    | exact id
    | exact Keeps.refl _ _
    | apply Keeps.upd
  unfold State.bgUnit
  exact Keeps.ite h (hf _ ((k1 _).then hs h))

end Sys2Proof.Machine
end

