-- ==== Sys2Proof/Laws/KeepsBeaconTx.lean ====
section
/-!
SUPPORT. What each operation of Machine/BeaconTx.lean leaves unchanged, and that it keeps the canonical form.
-/

namespace Sys2Proof.Machine

open Sys2Proof

theorem State.setBcn_keeps (s : State) (n : Nat) (b : BcnLane) : Keeps [.bcn] s (State.setBcn s n b) := by
  unfold State.setBcn
  repeat' first
    | exact rfl | with_reducible exact Keeps.refl _ _ | with_reducible assumption | exact Or.inr (by decide)
    | with_reducible exact Or.inl rfl | with_reducible exact id | with_reducible refine Keeps.ite ?_ ?_ | extract_lets
    | split | with_reducible apply Keeps.upd | dsimp +zetaDelta only
    | with_reducible exact fun h => SMap.wf_set _ _ _ _ h | with_reducible exact fun h => SMap.rising_set _ _ _ _ h
    | with_reducible exact fun h => SMap.rising_drop _ _ h | with_reducible exact fun h => SMap.wf_setRun _ _ _ _ h
    | with_reducible exact fun h => SMap.wf_setRun _ _ _ _ (SMap.wf_setRun _ _ _ _ h)
    | with_reducible exact fun h => SMap.wf_fillRun _ _ _ _ _ h | with_reducible exact fun h => SMap.wf_drop _ _ _ h
    | with_reducible exact fun _ => SMap.wf_nil _ | with_reducible exact fun h => by simpa using h | exact id

theorem State.setSyn_keeps (s : State) (r : Nat) (x : SynSt) : Keeps [.syn] s (State.setSyn s r x) := by
  unfold State.setSyn
  repeat' first
    | exact rfl | with_reducible exact Keeps.refl _ _ | with_reducible assumption | exact Or.inr (by decide)
    | with_reducible exact Or.inl rfl | with_reducible exact id | with_reducible refine Keeps.ite ?_ ?_ | extract_lets
    | split | with_reducible apply Keeps.upd | dsimp +zetaDelta only
    | with_reducible exact fun h => SMap.wf_set _ _ _ _ h | with_reducible exact fun h => SMap.rising_set _ _ _ _ h
    | with_reducible exact fun h => SMap.rising_drop _ _ h | with_reducible exact fun h => SMap.wf_setRun _ _ _ _ h
    | with_reducible exact fun h => SMap.wf_setRun _ _ _ _ (SMap.wf_setRun _ _ _ _ h)
    | with_reducible exact fun h => SMap.wf_fillRun _ _ _ _ _ h | with_reducible exact fun h => SMap.wf_drop _ _ _ h
    | with_reducible exact fun _ => SMap.wf_nil _ | with_reducible exact fun h => by simpa using h | exact id

theorem State.skipFrame_keeps (s : State) (n : Nat) : Keeps [.regs] s (State.skipFrame s n) := by
  unfold State.skipFrame
  repeat' first
    | exact rfl | with_reducible exact Keeps.refl _ _ | with_reducible assumption
    | with_reducible refine (State.addTo_keeps _ _ _).then ?_ ?_
    | with_reducible refine (State.raiseLane_keeps _ _ _).then ?_ ?_ | with_reducible refine Keeps.ite ?_ ?_
    | extract_lets | split | dsimp +zetaDelta only

theorem State.tune_keeps (s : State) (r : Nat) (ch : Nat) : Keeps [.regs, .syn] s (State.tune s r ch) := by
  unfold State.tune
  repeat' first
    | exact rfl | with_reducible exact Keeps.refl _ _ | with_reducible assumption
    | with_reducible refine (State.put_keeps _ _ _).then ?_ ?_
    | with_reducible refine (State.setSyn_keeps _ _ _).then ?_ ?_ | with_reducible refine Keeps.ite ?_ ?_
    | extract_lets | split | dsimp +zetaDelta only

theorem State.showSettling_keeps (s : State) (r : Nat) : Keeps [.regs] s (State.showSettling s r) := by
  unfold State.showSettling
  repeat' first
    | exact rfl | with_reducible exact Keeps.refl _ _ | with_reducible assumption
    | with_reducible refine (State.putB_keeps _ _ _).then ?_ ?_ | with_reducible refine Keeps.ite ?_ ?_ | extract_lets
    | split | dsimp +zetaDelta only

theorem State.serveNext_keeps (s : State) (r : Nat) : Keeps [.regs, .syn] s (State.serveNext s r) := by
  unfold State.serveNext
  repeat' first
    | exact rfl | with_reducible exact Keeps.refl _ _ | with_reducible assumption
    | with_reducible refine (State.tune_keeps _ _ _).then ?_ ?_
    | with_reducible refine (State.put_keeps _ _ _).then ?_ ?_
    | with_reducible refine (State.showSettling_keeps _ _).then ?_ ?_ | with_reducible refine Keeps.ite ?_ ?_
    | extract_lets | split | dsimp +zetaDelta only

theorem State.lowerFirst_keeps (s : State) (n : Nat) : Keeps [.regs, .syn] s (State.lowerFirst s n) := by
  unfold State.lowerFirst
  repeat' first
    | exact rfl | with_reducible exact Keeps.refl _ _ | with_reducible assumption
    | with_reducible refine (State.tune_keeps _ _ _).then ?_ ?_
    | with_reducible refine (State.put_keeps _ _ _).then ?_ ?_
    | with_reducible refine (State.serveNext_keeps _ _).then ?_ ?_ | with_reducible refine Keeps.ite ?_ ?_
    | extract_lets | split | dsimp +zetaDelta only

theorem State.dropHeld_keeps (s : State) (n : Nat) : Keeps [.regs, .bcn, .syn] s (State.dropHeld s n) := by
  unfold State.dropHeld
  repeat' first
    | exact rfl | with_reducible exact Keeps.refl _ _ | with_reducible assumption
    | with_reducible refine (State.skipFrame_keeps _ _).then ?_ ?_
    | with_reducible refine (State.put_keeps _ _ _).then ?_ ?_
    | with_reducible refine (State.setBcn_keeps _ _ _).then ?_ ?_
    | with_reducible refine (State.serveNext_keeps _ _).then ?_ ?_ | with_reducible refine Keeps.ite ?_ ?_
    | extract_lets | split | dsimp +zetaDelta only

theorem State.frameDue_keeps (s : State) (n : Nat) (full : Bool) : Keeps [.regs, .bcn, .syn] s (State.frameDue s n
    full) := by
  unfold State.frameDue
  repeat' first
    | exact rfl | with_reducible exact Keeps.refl _ _ | with_reducible assumption
    | with_reducible refine (State.skipFrame_keeps _ _).then ?_ ?_
    | with_reducible refine (State.setBcn_keeps _ _ _).then ?_ ?_
    | with_reducible refine (State.lowerFirst_keeps _ _).then ?_ ?_
    | with_reducible refine (State.put_keeps _ _ _).then ?_ ?_ | with_reducible refine Keeps.ite ?_ ?_ | extract_lets
    | split | dsimp +zetaDelta only

theorem State.txChannel_keeps (s : State) (n : Nat) (ch : Nat) : Keeps [.regs, .bcn, .syn] s (State.txChannel s n
    ch) := by
  unfold State.txChannel
  repeat' first
    | exact rfl | with_reducible exact Keeps.refl _ _ | with_reducible assumption
    | with_reducible refine (State.setBcn_keeps _ _ _).then ?_ ?_
    | with_reducible refine (State.put_keeps _ _ _).then ?_ ?_
    | with_reducible refine (State.tune_keeps _ _ _).then ?_ ?_ | with_reducible refine Keeps.ite ?_ ?_ | extract_lets
    | split | dsimp +zetaDelta only

theorem State.frameEnd_keeps (s : State) (n : Nat) : Keeps [.regs, .bcn, .syn] s (State.frameEnd s n) := by
  unfold State.frameEnd
  repeat' first
    | exact rfl | with_reducible exact Keeps.refl _ _ | with_reducible assumption
    | with_reducible refine (State.put_keeps _ _ _).then ?_ ?_
    | with_reducible refine (State.setBcn_keeps _ _ _).then ?_ ?_
    | with_reducible refine (State.serveNext_keeps _ _).then ?_ ?_ | with_reducible refine Keeps.ite ?_ ?_
    | extract_lets | split | dsimp +zetaDelta only

theorem State.truncFrame_keeps (s : State) (n : Nat) : Keeps [.regs, .bcn, .syn] s (State.truncFrame s n) := by
  unfold State.truncFrame
  repeat' first
    | exact rfl | with_reducible exact Keeps.refl _ _ | with_reducible assumption
    | with_reducible refine (State.dropHeld_keeps _ _).then ?_ ?_
    | with_reducible refine (State.frameEnd_keeps _ _).then ?_ ?_
    | with_reducible refine (State.raiseLane_keeps _ _ _).then ?_ ?_ | with_reducible refine Keeps.ite ?_ ?_
    | extract_lets | split | dsimp +zetaDelta only

theorem State.bcnLost_keeps (s : State) (n : Nat) : Keeps [.regs, .bcn] s (State.bcnLost s n) := by
  unfold State.bcnLost
  repeat' first
    | exact rfl | with_reducible exact Keeps.refl _ _ | with_reducible assumption
    | with_reducible refine (State.setBcn_keeps _ _ _).then ?_ ?_
    | with_reducible refine (State.put_keeps _ _ _).then ?_ ?_
    | with_reducible refine (State.showSettling_keeps _ _).then ?_ ?_ | with_reducible refine Keeps.ite ?_ ?_
    | with_reducible refine Keeps.onlyIf ?_ (fun _ _ => ?_) | extract_lets | split | dsimp +zetaDelta only

theorem sendEffect_keeps (n : Lane) (full : Bool) (s : State) : Keeps [.regs, .bcn, .syn] s (sendEffect n full s) :=
    by
  unfold sendEffect
  repeat' first
    | exact rfl | with_reducible exact Keeps.refl _ _ | with_reducible assumption
    | with_reducible refine (State.frameDue_keeps _ _ _).then ?_ ?_ | with_reducible refine Keeps.ite ?_ ?_
    | extract_lets | split | dsimp +zetaDelta only

theorem txModeWriteEffect_keeps (n : Lane) (mode : BitVec 2) (s : State) : Keeps [.regs, .bcn] s (txModeWriteEffect
    n mode s) := by
  unfold txModeWriteEffect
  repeat' first
    | exact rfl | with_reducible exact Keeps.refl _ _ | with_reducible assumption
    | with_reducible refine (State.setBcn_keeps _ _ _).then ?_ ?_
    | with_reducible refine (State.put_keeps _ _ _).then ?_ ?_ | with_reducible refine Keeps.ite ?_ ?_ | extract_lets
    | split | dsimp +zetaDelta only

theorem beaconFrameDueEffect_keeps (n : Lane) (s : State) : Keeps [.regs, .bcn, .syn] s (beaconFrameDueEffect n s)
    := by
  unfold beaconFrameDueEffect
  repeat' first
    | exact rfl | with_reducible exact Keeps.refl _ _ | with_reducible assumption
    | with_reducible refine (State.frameDue_keeps _ _ _).then ?_ ?_ | with_reducible refine Keeps.ite ?_ ?_
    | extract_lets | split | dsimp +zetaDelta only

theorem beaconFrameStartEffect_keeps (n : Lane) (s : State) : Keeps [.regs, .bcn] s (beaconFrameStartEffect n s) :=
    by
  unfold beaconFrameStartEffect
  repeat' first
    | exact rfl | with_reducible exact Keeps.refl _ _ | with_reducible assumption
    | with_reducible refine (State.setBcn_keeps _ _ _).then ?_ ?_
    | with_reducible refine (State.addTo_keeps _ _ _).then ?_ ?_
    | with_reducible refine (State.put_keeps _ _ _).then ?_ ?_ | with_reducible refine Keeps.ite ?_ ?_ | extract_lets
    | split | dsimp +zetaDelta only

theorem beaconDepartureEffect_keeps (n : Lane) (s : State) : Keeps [.regs, .bcn] s (beaconDepartureEffect n s) := by
  unfold beaconDepartureEffect
  repeat' first
    | exact rfl | with_reducible exact Keeps.refl _ _ | with_reducible assumption
    | with_reducible refine (State.setBcn_keeps _ _ _).then ?_ ?_
    | with_reducible refine (State.put_keeps _ _ _).then ?_ ?_ | with_reducible refine Keeps.ite ?_ ?_ | extract_lets
    | split | dsimp +zetaDelta only

theorem beaconTimestampReturnEffect_keeps (n : Lane) (s : State) : Keeps [.bcn] s (beaconTimestampReturnEffect n s)
    := by
  unfold beaconTimestampReturnEffect
  repeat' first
    | exact rfl | with_reducible exact Keeps.refl _ _ | with_reducible assumption
    | with_reducible refine (State.setBcn_keeps _ _ _).then ?_ ?_ | with_reducible refine Keeps.ite ?_ ?_
    | extract_lets | split | dsimp +zetaDelta only

theorem sentEffect_keeps (n : Lane) (s : State) : Keeps [.regs, .counts, .bcn, .syn] s (sentEffect n s) := by
  unfold sentEffect
  repeat' first
    | exact rfl | with_reducible exact Keeps.refl _ _ | with_reducible assumption
    | with_reducible refine (State.setBcn_keeps _ _ _).then ?_ ?_
    | with_reducible refine (State.frameEnd_keeps _ _).then ?_ ?_
    | with_reducible refine (State.countLane_keeps _ _ _ _).then ?_ ?_
    | with_reducible refine (State.addTo_keeps _ _ _).then ?_ ?_
    | with_reducible refine (State.raiseLane_keeps _ _ _).then ?_ ?_ | with_reducible refine Keeps.ite ?_ ?_
    | extract_lets | split | dsimp +zetaDelta only

theorem txChLoadEffect_keeps (n : Lane) (ch : BitVec 4) (s : State) : Keeps [.regs, .bcn, .syn] s (txChLoadEffect n
    ch s) := by
  unfold txChLoadEffect
  repeat' first
    | exact rfl | with_reducible exact Keeps.refl _ _ | with_reducible assumption
    | with_reducible refine (State.txChannel_keeps _ _ _).then ?_ ?_ | with_reducible refine Keeps.ite ?_ ?_
    | extract_lets | split | dsimp +zetaDelta only

theorem synthLockEffect_keeps (r : Region) (cal : Word) (s : State) : Keeps [.regs, .syn] s (synthLockEffect r cal
    s) := by
  unfold synthLockEffect
  repeat' first
    | exact rfl | with_reducible exact Keeps.refl _ _ | with_reducible assumption
    | with_reducible refine (State.showSettling_keeps _ _).then ?_ ?_
    | with_reducible refine (State.setSyn_keeps _ _ _).then ?_ ?_
    | with_reducible refine (State.put_keeps _ _ _).then ?_ ?_ | with_reducible refine Keeps.ite ?_ ?_ | extract_lets
    | split | dsimp +zetaDelta only

theorem noLockEffect_keeps (r : Region) (s : State) : Keeps [.regs, .bcn, .syn] s (noLockEffect r s) := by
  unfold noLockEffect
  repeat' first
    | exact rfl | with_reducible exact Keeps.refl _ _ | with_reducible assumption
    | with_reducible refine (State.raise_keeps _ _).then ?_ ?_
    | with_reducible refine (State.put_keeps _ _ _).then ?_ ?_
    | with_reducible refine (State.setSyn_keeps _ _ _).then ?_ ?_
    | with_reducible refine (State.skipFrame_keeps _ _).then ?_ ?_
    | with_reducible refine (State.setBcn_keeps _ _ _).then ?_ ?_
    | with_reducible refine (State.serveNext_keeps _ _).then ?_ ?_ | with_reducible refine Keeps.ite ?_ ?_
    | extract_lets | split | dsimp +zetaDelta only

theorem synthBgCalEffect_keeps (r : Region) (cal : Word) (s : State) : Keeps [.regs, .syn, .therm] s
    (synthBgCalEffect r cal s) := by
  unfold synthBgCalEffect
  repeat' first
    | exact rfl | with_reducible exact Keeps.refl _ _ | with_reducible assumption
    | with_reducible refine State.bgUnit_keeps _ _ _ ?_ ?_ (fun _ _ => ?_)
    | with_reducible refine (State.setSyn_keeps _ _ _).then ?_ ?_
    | with_reducible refine (State.put_keeps _ _ _).then ?_ ?_
    | with_reducible refine (State.showSettling_keeps _ _).then ?_ ?_
    | with_reducible refine (State.putB_keeps _ _ _).then ?_ ?_ | with_reducible refine Keeps.ite ?_ ?_ | extract_lets
    | split | dsimp +zetaDelta only

end Sys2Proof.Machine
end

