-- ==== Sys2Proof/Laws/KeepsD3.lean ====
section
/-!
SUPPORT. What each operation of Machine/D3.lean leaves unchanged, and that it keeps the canonical form.
-/

namespace Sys2Proof.Machine

open Sys2Proof

theorem State.d3Put_keeps (s : State) (a : Nat) (val : Nat) (poison : Bool) : Keeps [.mem] s (State.d3Put s a val
    poison) := by
  unfold State.d3Put
  repeat' first
    | exact rfl | with_reducible exact Keeps.refl _ _ | with_reducible assumption | exact Or.inr (by decide)
    | with_reducible exact Or.inl rfl | with_reducible exact id | with_reducible refine Keeps.ite ?_ ?_ | extract_lets
    | split | with_reducible apply Keeps.upd | dsimp +zetaDelta only
    | with_reducible exact fun h => SMap.wf_set _ _ _ _ h | with_reducible exact fun h => SMap.rising_set _ _ _ _ h
    | with_reducible exact fun h => SMap.rising_drop _ _ h | with_reducible exact fun h => SMap.wf_setRun _ _ _ _ h
    | with_reducible exact fun h => SMap.wf_setRun _ _ _ _ (SMap.wf_setRun _ _ _ _ h)
    | with_reducible exact fun h => SMap.wf_fillRun _ _ _ _ _ h | with_reducible exact fun h => SMap.wf_drop _ _ _ h
    | with_reducible exact fun _ => SMap.wf_nil _ | with_reducible exact fun h => by simpa using h | exact id

theorem State.d3Write_keeps (s : State) (a : Nat) (bs : List MByte) : Keeps [.mem] s (State.d3Write s a bs) := by
  unfold State.d3Write
  repeat' first
    | exact rfl | with_reducible exact Keeps.refl _ _ | with_reducible assumption
    | with_reducible refine (State.d3Put_keeps _ _ _ _).then ?_ ?_ | with_reducible refine Keeps.ite ?_ ?_
    | with_reducible refine Keeps.each ?_ (fun _ _ _ => ?_) | extract_lets | split | dsimp +zetaDelta only

theorem State.upset_keeps (s : State) (a : Nat) (e : WordErr) : Keeps [.mem] s (State.upset s a e) := by
  unfold State.upset
  repeat' first
    | exact rfl | with_reducible exact Keeps.refl _ _ | with_reducible assumption | exact Or.inr (by decide)
    | with_reducible exact Or.inl rfl | with_reducible exact id | with_reducible refine Keeps.ite ?_ ?_ | extract_lets
    | split | with_reducible apply Keeps.upd | dsimp +zetaDelta only
    | with_reducible exact fun h => SMap.wf_set _ _ _ _ h | with_reducible exact fun h => SMap.rising_set _ _ _ _ h
    | with_reducible exact fun h => SMap.rising_drop _ _ h | with_reducible exact fun h => SMap.wf_setRun _ _ _ _ h
    | with_reducible exact fun h => SMap.wf_setRun _ _ _ _ (SMap.wf_setRun _ _ _ _ h)
    | with_reducible exact fun h => SMap.wf_fillRun _ _ _ _ _ h | with_reducible exact fun h => SMap.wf_drop _ _ _ h
    | with_reducible exact fun _ => SMap.wf_nil _ | with_reducible exact fun h => by simpa using h | exact id

theorem State.upsets_keeps (s : State) (a : Nat) (es : List WordErr) : Keeps [.mem] s (State.upsets s a es) := by
  unfold State.upsets
  repeat' first
    | exact rfl | with_reducible exact Keeps.refl _ _ | with_reducible assumption
    | with_reducible refine (State.upset_keeps _ _ _).then ?_ ?_ | with_reducible refine Keeps.ite ?_ ?_
    | with_reducible refine Keeps.each ?_ (fun _ _ _ => ?_) | extract_lets | split | dsimp +zetaDelta only

theorem State.reportUe_keeps (s : State) (a : Nat) (cls : Nat) : Keeps [.regs] s (State.reportUe s a cls) := by
  unfold State.reportUe
  repeat' first
    | exact rfl | with_reducible exact Keeps.refl _ _ | with_reducible assumption
    | with_reducible refine (State.put_keeps _ _ _).then ?_ ?_
    | with_reducible refine (State.addTo_keeps _ _ _).then ?_ ?_
    | with_reducible refine (State.raise_keeps _ _).then ?_ ?_ | with_reducible refine Keeps.ite ?_ ?_ | extract_lets
    | split | dsimp +zetaDelta only

theorem State.reportCe_keeps (s : State) (a : Nat) (cls : Nat) : Keeps [.regs, .counts] s (State.reportCe s a cls)
    := by
  unfold State.reportCe
  repeat' first
    | exact rfl | with_reducible exact Keeps.refl _ _ | with_reducible assumption
    | with_reducible refine (State.countD0_keeps _ _ _ _).then ?_ ?_
    | with_reducible refine (State.put_keeps _ _ _).then ?_ ?_
    | with_reducible refine (State.addTo_keeps _ _ _).then ?_ ?_
    | with_reducible refine (State.raise_keeps _ _).then ?_ ?_ | with_reducible refine Keeps.ite ?_ ?_ | extract_lets
    | split | dsimp +zetaDelta only

theorem State.d3ReadWord_keeps (s : State) (a : Nat) (cls : Nat) : Keeps [.regs, .counts] s (State.d3ReadWord s a
    cls).1 := by
  unfold State.d3ReadWord
  repeat' first
    | exact rfl | with_reducible exact Keeps.refl _ _ | with_reducible assumption
    | with_reducible refine (State.reportUe_keeps _ _ _).then ?_ ?_
    | with_reducible refine (State.raise_keeps _ _).then ?_ ?_
    | with_reducible refine (State.reportCe_keeps _ _ _).then ?_ ?_ | with_reducible refine Keeps.ite ?_ ?_
    | extract_lets | split | dsimp +zetaDelta only

theorem State.d3Read_keeps (s : State) (a : Nat) (cls : Nat) (n : Nat) (seen : List Nat) : Keeps [.regs, .counts] s
    (State.d3Read s a cls n seen).1 := by
  induction n generalizing s a with
  | zero => exact Keeps.refl _ _
  | succ k ih =>
    unfold State.d3Read
    refine (ih _ _).then rfl ?_
    split
    · exact Keeps.refl _ _
    · exact State.d3ReadWord_keeps _ _ _

theorem State.startRetrain_keeps (s : State) : Keeps [.regs, .mem] s (State.startRetrain s) := by
  unfold State.startRetrain
  repeat' first
    | exact rfl | with_reducible exact Keeps.refl _ _ | with_reducible assumption
    | with_reducible refine (State.put_keeps _ _ _).then ?_ ?_ | exact Or.inr (by decide)
    | with_reducible exact Or.inl rfl | with_reducible exact id | with_reducible refine Keeps.ite ?_ ?_ | extract_lets
    | split | with_reducible apply Keeps.upd | dsimp +zetaDelta only
    | with_reducible exact fun h => SMap.wf_set _ _ _ _ h | with_reducible exact fun h => SMap.rising_set _ _ _ _ h
    | with_reducible exact fun h => SMap.rising_drop _ _ h | with_reducible exact fun h => SMap.wf_setRun _ _ _ _ h
    | with_reducible exact fun h => SMap.wf_setRun _ _ _ _ (SMap.wf_setRun _ _ _ _ h)
    | with_reducible exact fun h => SMap.wf_fillRun _ _ _ _ _ h | with_reducible exact fun h => SMap.wf_drop _ _ _ h
    | with_reducible exact fun _ => SMap.wf_nil _ | with_reducible exact fun h => by simpa using h | exact id

theorem State.refreshBank_keeps (s : State) (b : Nat) : Keeps [.regs, .counts, .mem] s (State.refreshBank s b) := by
  unfold State.refreshBank
  repeat' first
    | exact rfl | with_reducible exact Keeps.refl _ _ | with_reducible assumption
    | with_reducible refine (State.countD0_keeps _ _ _ _).then ?_ ?_ | exact Or.inr (by decide)
    | with_reducible exact Or.inl rfl | with_reducible exact id | with_reducible refine Keeps.ite ?_ ?_ | extract_lets
    | split | with_reducible apply Keeps.upd | dsimp +zetaDelta only
    | with_reducible exact fun h => SMap.wf_set _ _ _ _ h | with_reducible exact fun h => SMap.rising_set _ _ _ _ h
    | with_reducible exact fun h => SMap.rising_drop _ _ h | with_reducible exact fun h => SMap.wf_setRun _ _ _ _ h
    | with_reducible exact fun h => SMap.wf_setRun _ _ _ _ (SMap.wf_setRun _ _ _ _ h)
    | with_reducible exact fun h => SMap.wf_fillRun _ _ _ _ _ h | with_reducible exact fun h => SMap.wf_drop _ _ _ h
    | with_reducible exact fun _ => SMap.wf_nil _ | with_reducible exact fun h => by simpa using h | exact id

theorem State.setBand_keeps (s : State) (b : Nat) : Keeps [.regs, .mem] s (State.setBand s b) := by
  unfold State.setBand
  repeat' first
    | exact rfl | with_reducible exact Keeps.refl _ _ | with_reducible assumption
    | with_reducible refine (State.put_keeps _ _ _).then ?_ ?_ | exact Or.inr (by decide)
    | with_reducible exact Or.inl rfl | with_reducible exact id | with_reducible refine Keeps.ite ?_ ?_ | extract_lets
    | split | with_reducible apply Keeps.upd | dsimp +zetaDelta only
    | with_reducible exact fun h => SMap.wf_set _ _ _ _ h | with_reducible exact fun h => SMap.rising_set _ _ _ _ h
    | with_reducible exact fun h => SMap.rising_drop _ _ h | with_reducible exact fun h => SMap.wf_setRun _ _ _ _ h
    | with_reducible exact fun h => SMap.wf_setRun _ _ _ _ (SMap.wf_setRun _ _ _ _ h)
    | with_reducible exact fun h => SMap.wf_fillRun _ _ _ _ _ h | with_reducible exact fun h => SMap.wf_drop _ _ _ h
    | with_reducible exact fun _ => SMap.wf_nil _ | with_reducible exact fun h => by simpa using h | exact id

theorem State.catchUp_keeps (s : State) : Keeps [.regs, .counts, .mem] s (State.catchUp s) := by
  unfold State.catchUp
  repeat' first
    | exact rfl | with_reducible exact Keeps.refl _ _ | with_reducible assumption
    | with_reducible refine (State.setBand_keeps _ _).then ?_ ?_
    | with_reducible refine (State.refreshBank_keeps _ _).then ?_ ?_ | with_reducible refine Keeps.ite ?_ ?_
    | with_reducible refine Keeps.each ?_ (fun _ _ _ => ?_) | extract_lets | split | dsimp +zetaDelta only

end Sys2Proof.Machine
end

