-- ==== Sys2Proof/Laws/KeepsDirectory.lean ====
section
/-!
SUPPORT. What each operation of Machine/Directory.lean leaves unchanged, and that it keeps the canonical form.
-/

namespace Sys2Proof.Machine

open Sys2Proof

theorem State.looked_keeps (s : State) : Keeps [.regs, .counts] s (State.looked s) := by
  unfold State.looked
  repeat' first
    | exact rfl | with_reducible exact Keeps.refl _ _ | with_reducible assumption
    | with_reducible refine (State.countD0_keeps _ _ _ _).then ?_ ?_ | with_reducible refine Keeps.ite ?_ ?_
    | extract_lets | split | dsimp +zetaDelta only

theorem State.setLine_keeps (s : State) (l : Nat) (x : CacheLine) : Keeps [.ctx] s (State.setLine s l x) := by
  unfold State.setLine
  repeat' first
    | exact rfl | with_reducible exact Keeps.refl _ _ | with_reducible assumption | exact Or.inr (by decide)
    | with_reducible exact Or.inl rfl | with_reducible exact id | with_reducible refine Keeps.ite ?_ ?_ | extract_lets
    | split | with_reducible apply Keeps.upd | dsimp +zetaDelta only
    | with_reducible exact fun h => SMap.wf_set _ _ _ _ h | with_reducible exact fun h => SMap.rising_set _ _ _ _ h
    | with_reducible exact fun h => SMap.rising_drop _ _ h | with_reducible exact fun h => SMap.wf_setRun _ _ _ _ h
    | with_reducible exact fun h => SMap.wf_setRun _ _ _ _ (SMap.wf_setRun _ _ _ _ h)
    | with_reducible exact fun h => SMap.wf_fillRun _ _ _ _ _ h | with_reducible exact fun h => SMap.wf_drop _ _ _ h
    | with_reducible exact fun _ => SMap.wf_nil _ | with_reducible exact fun h => by simpa using h | exact id

theorem State.dropLines_keeps (s : State) (j : Nat) : Keeps [.ctx] s (State.dropLines s j) := by
  unfold State.dropLines
  repeat' first
    | exact rfl | with_reducible exact Keeps.refl _ _ | with_reducible assumption | exact Or.inr (by decide)
    | with_reducible exact Or.inl rfl | with_reducible exact id | with_reducible refine Keeps.ite ?_ ?_ | extract_lets
    | split | with_reducible apply Keeps.upd | dsimp +zetaDelta only
    | with_reducible exact fun h => SMap.wf_set _ _ _ _ h | with_reducible exact fun h => SMap.rising_set _ _ _ _ h
    | with_reducible exact fun h => SMap.rising_drop _ _ h | with_reducible exact fun h => SMap.wf_setRun _ _ _ _ h
    | with_reducible exact fun h => SMap.wf_setRun _ _ _ _ (SMap.wf_setRun _ _ _ _ h)
    | with_reducible exact fun h => SMap.wf_fillRun _ _ _ _ _ h | with_reducible exact fun h => SMap.wf_drop _ _ _ h
    | with_reducible exact fun _ => SMap.wf_nil _ | with_reducible exact fun h => by simpa using h | exact id

theorem State.staleSlot_keeps (s : State) (j : Nat) : Keeps [.ctx] s (State.staleSlot s j) := by
  unfold State.staleSlot
  repeat' first
    | exact rfl | with_reducible exact Keeps.refl _ _ | with_reducible assumption | exact Or.inr (by decide)
    | with_reducible exact Or.inl rfl | with_reducible exact id | with_reducible refine Keeps.ite ?_ ?_ | extract_lets
    | split | with_reducible apply Keeps.upd | dsimp +zetaDelta only
    | with_reducible exact fun h => SMap.wf_set _ _ _ _ h | with_reducible exact fun h => SMap.rising_set _ _ _ _ h
    | with_reducible exact fun h => SMap.rising_drop _ _ h | with_reducible exact fun h => SMap.wf_setRun _ _ _ _ h
    | with_reducible exact fun h => SMap.wf_setRun _ _ _ _ (SMap.wf_setRun _ _ _ _ h)
    | with_reducible exact fun h => SMap.wf_fillRun _ _ _ _ _ h | with_reducible exact fun h => SMap.wf_drop _ _ _ h
    | with_reducible exact fun _ => SMap.wf_nil _ | with_reducible exact fun h => by simpa using h | exact id

theorem State.freeSlotAt_keeps (s : State) (j : Nat) : Keeps [.ctx] s (State.freeSlotAt s j) := by
  unfold State.freeSlotAt
  repeat' first
    | exact rfl | with_reducible exact Keeps.refl _ _ | with_reducible assumption
    | with_reducible refine (State.staleSlot_keeps _ _).then ?_ ?_
    | with_reducible refine (State.dropLines_keeps _ _).then ?_ ?_ | exact Or.inr (by decide)
    | with_reducible exact Or.inl rfl | with_reducible exact id | with_reducible refine Keeps.ite ?_ ?_ | extract_lets
    | split | with_reducible apply Keeps.upd | dsimp +zetaDelta only
    | with_reducible exact fun h => SMap.wf_set _ _ _ _ h | with_reducible exact fun h => SMap.rising_set _ _ _ _ h
    | with_reducible exact fun h => SMap.rising_drop _ _ h | with_reducible exact fun h => SMap.wf_setRun _ _ _ _ h
    | with_reducible exact fun h => SMap.wf_setRun _ _ _ _ (SMap.wf_setRun _ _ _ _ h)
    | with_reducible exact fun h => SMap.wf_fillRun _ _ _ _ _ h | with_reducible exact fun h => SMap.wf_drop _ _ _ h
    | with_reducible exact fun _ => SMap.wf_nil _ | with_reducible exact fun h => by simpa using h | exact id

theorem State.settleSlots_keeps (s : State) : Keeps [.ctx] s (State.settleSlots s) := by
  unfold State.settleSlots
  repeat' first
    | exact rfl | with_reducible exact Keeps.refl _ _ | with_reducible assumption
    | with_reducible refine (State.dropLines_keeps _ _).then ?_ ?_ | exact Or.inr (by decide)
    | with_reducible exact Or.inl rfl | with_reducible exact id | with_reducible refine Keeps.ite ?_ ?_
    | with_reducible refine Keeps.each ?_ (fun _ _ _ => ?_) | extract_lets | split | with_reducible apply Keeps.upd
    | dsimp +zetaDelta only | with_reducible exact fun h => SMap.wf_set _ _ _ _ h
    | with_reducible exact fun h => SMap.rising_set _ _ _ _ h | with_reducible exact fun h => SMap.rising_drop _ _ h
    | with_reducible exact fun h => SMap.wf_setRun _ _ _ _ h
    | with_reducible exact fun h => SMap.wf_setRun _ _ _ _ (SMap.wf_setRun _ _ _ _ h)
    | with_reducible exact fun h => SMap.wf_fillRun _ _ _ _ _ h | with_reducible exact fun h => SMap.wf_drop _ _ _ h
    | with_reducible exact fun _ => SMap.wf_nil _ | with_reducible exact fun h => by simpa using h | exact id

theorem State.writeSlot_keeps (s : State) (j : Nat) (img : List Nat) : Keeps [.mem, .ctx] s (State.writeSlot s j
    img) := by
  unfold State.writeSlot
  repeat' first
    | exact rfl | with_reducible exact Keeps.refl _ _ | with_reducible assumption
    | with_reducible refine (State.d3Write_keeps _ _ _).then ?_ ?_
    | with_reducible refine (State.setLine_keeps _ _ _).then ?_ ?_ | exact Or.inr (by decide)
    | with_reducible exact Or.inl rfl | with_reducible exact id | with_reducible refine Keeps.ite ?_ ?_ | extract_lets
    | split | with_reducible apply Keeps.upd | dsimp +zetaDelta only
    | with_reducible exact fun h => SMap.wf_set _ _ _ _ h | with_reducible exact fun h => SMap.rising_set _ _ _ _ h
    | with_reducible exact fun h => SMap.rising_drop _ _ h | with_reducible exact fun h => SMap.wf_setRun _ _ _ _ h
    | with_reducible exact fun h => SMap.wf_setRun _ _ _ _ (SMap.wf_setRun _ _ _ _ h)
    | with_reducible exact fun h => SMap.wf_fillRun _ _ _ _ _ h | with_reducible exact fun h => SMap.wf_drop _ _ _ h
    | with_reducible exact fun _ => SMap.wf_nil _ | with_reducible exact fun h => by simpa using h | exact id

theorem State.readSlot_keeps (s : State) (j : Nat) (cls : Nat) (len : Nat) (seen : List Nat) : Keeps [.regs,
    .counts] s (State.readSlot s j cls len seen).1 := by
  unfold State.readSlot
  repeat' first
    | exact rfl | with_reducible exact Keeps.refl _ _ | with_reducible assumption
    | with_reducible refine (State.d3Read_keeps _ _ _ _ _).then ?_ ?_ | with_reducible refine Keeps.ite ?_ ?_
    | extract_lets | split | dsimp +zetaDelta only

theorem State.beginFill_keeps (s : State) (l : Nat) (j : Nat) (due : Nat) (pin : Bool) : Keeps [.ctx] s
    (State.beginFill s l j due pin) := by
  unfold State.beginFill
  repeat' first
    | exact rfl | with_reducible exact Keeps.refl _ _ | with_reducible assumption
    | with_reducible refine (State.setLine_keeps _ _ _).then ?_ ?_ | with_reducible refine Keeps.ite ?_ ?_
    | extract_lets | split | dsimp +zetaDelta only

end Sys2Proof.Machine
end

