-- ==== Sys2Proof/Laws/KeepsDetect.lean ====
section
/-!
SUPPORT. What each operation of Machine/Detect.lean leaves unchanged, and that it keeps the canonical form.
-/

namespace Sys2Proof.Machine

open Sys2Proof

theorem State.sampled_keeps (s : State) (n : Nat) : Keeps [.regs, .counts, .lanes] s (State.sampled s n) := by
  unfold State.sampled
  repeat' first
    | exact rfl | with_reducible exact Keeps.refl _ _ | with_reducible assumption
    | with_reducible refine (State.onLane_keeps _ _ _).then ?_ ?_
    | with_reducible refine (State.countLane_keeps _ _ _ _).then ?_ ?_ | with_reducible refine Keeps.ite ?_ ?_
    | extract_lets | split | dsimp +zetaDelta only

theorem State.startExit_keeps (s : State) (n : Nat) : Keeps [.lanes] s (State.startExit s n) := by
  unfold State.startExit
  repeat' first
    | exact rfl | with_reducible exact Keeps.refl _ _ | with_reducible assumption
    | with_reducible refine (State.onLane_keeps _ _ _).then ?_ ?_ | with_reducible refine Keeps.ite ?_ ?_
    | extract_lets | split | dsimp +zetaDelta only

end Sys2Proof.Machine
end

