-- ==== Sys2Proof/Laws/KeepsOperands.lean ====
section
/-!
SUPPORT. What each operation of Machine/Operands.lean leaves unchanged, and that it keeps the canonical form.
-/

namespace Sys2Proof.Machine

open Sys2Proof

theorem State.noteCapture_keeps (s : State) (n : Nat) : Keeps [.dies] s (State.noteCapture s n) := by
  unfold State.noteCapture
  repeat' first
    | exact rfl | with_reducible exact Keeps.refl _ _ | with_reducible assumption
    | with_reducible refine (State.setDie_keeps _ _ _).then ?_ ?_ | with_reducible refine Keeps.ite ?_ ?_
    | extract_lets | split | dsimp +zetaDelta only

theorem State.capEvent_keeps (s : State) (n : Nat) (k : Nat) (tick : Nat) : Keeps [.dies] s (State.capEvent s n k
    tick) := by
  unfold State.capEvent
  repeat' first
    | exact rfl | with_reducible exact Keeps.refl _ _ | with_reducible assumption
    | with_reducible refine (State.setDie_keeps _ _ _).then ?_ ?_ | with_reducible refine Keeps.ite ?_ ?_
    | extract_lets | split | dsimp +zetaDelta only

theorem State.capWord_keeps (s : State) (n : Nat) (point : Nat) (subadc : Nat) (poison : Bool) (bytes : List Nat) :
    Keeps [.dies] s (State.capWord s n point subadc poison bytes) := by
  unfold State.capWord
  repeat' first
    | exact rfl | with_reducible exact Keeps.refl _ _ | with_reducible assumption
    | with_reducible refine (State.setDie_keeps _ _ _).then ?_ ?_ | with_reducible refine Keeps.ite ?_ ?_
    | extract_lets | split | dsimp +zetaDelta only

theorem State.setRx_keeps (s : State) (n : Nat) (r : RxState) : Keeps [.regs, .lanes, .dies] s (State.setRx s n r)
    := by
  unfold State.setRx
  repeat' first
    | exact rfl | with_reducible exact Keeps.refl _ _ | with_reducible assumption
    | with_reducible refine (State.put_keeps _ _ _).then ?_ ?_
    | with_reducible refine (State.noteCapture_keeps _ _).then ?_ ?_
    | with_reducible refine (State.onLane_keeps _ _ _).then ?_ ?_ | with_reducible refine Keeps.ite ?_ ?_
    | with_reducible refine Keeps.onlyIf ?_ (fun _ _ => ?_) | extract_lets | split | dsimp +zetaDelta only

end Sys2Proof.Machine
end

