-- ==== Sys2Proof/Laws/KeepsPorts.lean ====
section
/-!
SUPPORT. What each operation of Machine/Ports.lean leaves unchanged, and that it keeps the canonical form.
-/

namespace Sys2Proof.Machine

open Sys2Proof

theorem State.setNm_keeps (s : State) (n : Nat) (b : Bool) (x : PortSide) : Keeps [.regs, .ports] s (State.setNm s n
    b x) := by
  unfold State.setNm
  repeat' first
    | exact rfl | with_reducible exact Keeps.refl _ _ | with_reducible assumption
    | with_reducible refine (State.setSide_keeps _ _ _ _).then ?_ ?_
    | with_reducible refine (State.put_keeps _ _ _).then ?_ ?_ | with_reducible refine Keeps.ite ?_ ?_
    | with_reducible refine Keeps.onlyIf ?_ (fun _ _ => ?_) | extract_lets | split | dsimp +zetaDelta only

theorem State.stampGap_keeps (s : State) (n : Nat) (b : Bool) : Keeps [.freeCtr, .regs] s (State.stampGap s n b) :=
    by
  unfold State.stampGap
  repeat' first
    | exact rfl | with_reducible exact Keeps.refl _ _ | with_reducible assumption
    | with_reducible refine (State.softStamp_keeps _).then ?_ ?_
    | with_reducible refine (State.put_keeps _ _ _).then ?_ ?_ | with_reducible refine Keeps.ite ?_ ?_ | extract_lets
    | split | dsimp +zetaDelta only

theorem State.dropRows_keeps (s : State) (n : Nat) (b : Bool) : Keeps [.ports] s (State.dropRows s n b) := by
  unfold State.dropRows
  repeat' first
    | exact rfl | with_reducible exact Keeps.refl _ _ | with_reducible assumption
    | with_reducible refine (State.setPort_keeps _ _ _).then ?_ ?_ | with_reducible refine Keeps.ite ?_ ?_
    | extract_lets | split | dsimp +zetaDelta only

theorem State.gapStart_keeps (s : State) (n : Nat) (b : Bool) (c : GapCause) : Keeps [.freeCtr, .regs, .ports] s
    (State.gapStart s n b c) := by
  unfold State.gapStart
  repeat' first
    | exact rfl | with_reducible exact Keeps.refl _ _ | with_reducible assumption
    | with_reducible refine (State.dropRows_keeps _ _ _).then ?_ ?_
    | with_reducible refine (State.setNm_keeps _ _ _ _).then ?_ ?_
    | with_reducible refine (State.put_keeps _ _ _).then ?_ ?_
    | with_reducible refine (State.raiseLane_keeps _ _ _).then ?_ ?_
    | with_reducible refine (State.stampGap_keeps _ _ _).then ?_ ?_
    | with_reducible refine (State.setPort_keeps _ _ _).then ?_ ?_
    | with_reducible refine (State.setSide_keeps _ _ _ _).then ?_ ?_ | with_reducible refine Keeps.ite ?_ ?_
    | with_reducible refine Keeps.onlyIf ?_ (fun _ _ => ?_) | extract_lets | split | dsimp +zetaDelta only

theorem State.sendHosts_keeps (s : State) (n : Nat) (o : HostOut) : Keeps [.hosts] s (State.sendHosts s n o) := by
  unfold State.sendHosts
  repeat' first
    | exact rfl | with_reducible exact Keeps.refl _ _ | with_reducible assumption
    | with_reducible refine (State.setHost_keeps _ _ _).then ?_ ?_ | with_reducible refine Keeps.ite ?_ ?_
    | with_reducible refine Keeps.each ?_ (fun _ _ _ => ?_) | extract_lets | split | dsimp +zetaDelta only

theorem State.lineDown_keeps (s : State) (n : Nat) : Keeps [.freeCtr, .regs, .ports, .hosts] s (State.lineDown s n)
    := by
  unfold State.lineDown
  repeat' first
    | exact rfl | with_reducible exact Keeps.refl _ _ | with_reducible assumption
    | with_reducible refine (State.gapStart_keeps _ _ _ _).then ?_ ?_
    | with_reducible refine (State.sendHosts_keeps _ _ _).then ?_ ?_
    | with_reducible refine (State.setPort_keeps _ _ _).then ?_ ?_ | with_reducible refine Keeps.ite ?_ ?_
    | with_reducible refine Keeps.each ?_ (fun _ _ _ => ?_) | extract_lets | split | dsimp +zetaDelta only

theorem State.hostGapStart_keeps (s : State) (n : Nat) (b : Bool) : Keeps [.regs, .ports] s (State.hostGapStart s n
    b) := by
  unfold State.hostGapStart
  repeat' first
    | exact rfl | with_reducible exact Keeps.refl _ _ | with_reducible assumption
    | with_reducible refine (State.setSide_keeps _ _ _ _).then ?_ ?_
    | with_reducible refine (State.raiseLane_keeps _ _ _).then ?_ ?_ | with_reducible refine Keeps.ite ?_ ?_
    | extract_lets | split | dsimp +zetaDelta only

end Sys2Proof.Machine
end

