-- ==== Sys2Proof/Laws/KeepsLineRx.lean ====
section
/-!
SUPPORT. What each operation of Machine/LineRx.lean leaves unchanged, and that it keeps the canonical form.
-/

namespace Sys2Proof.Machine

open Sys2Proof

theorem State.zeroExts_keeps (s : State) (n : Nat) : Keeps [.pools] s (State.zeroExts s n) := by
  unfold State.zeroExts
  repeat' first
    | exact rfl | with_reducible exact Keeps.refl _ _ | with_reducible assumption
    | with_reducible refine (State.setPool_keeps _ _ _).then ?_ ?_ | with_reducible refine Keeps.ite ?_ ?_
    | extract_lets | split | dsimp +zetaDelta only

theorem State.presets_keeps (s : State) (n : Nat) : Keeps [.regs, .lanes, .pools] s (State.presets s n) := by
  unfold State.presets
  repeat' first
    | exact rfl | with_reducible exact Keeps.refl _ _ | with_reducible assumption
    | with_reducible refine (State.onLane_keeps _ _ _).then ?_ ?_
    | with_reducible refine (State.put_keeps _ _ _).then ?_ ?_
    | with_reducible refine (State.zeroExts_keeps _ _).then ?_ ?_ | with_reducible refine Keeps.ite ?_ ?_
    | with_reducible refine Keeps.each ?_ (fun _ _ _ => ?_) | extract_lets | split | dsimp +zetaDelta only

theorem State.clearRuns_keeps (s : State) (n : Nat) : Keeps [.lanes] s (State.clearRuns s n) := by
  unfold State.clearRuns
  repeat' first
    | exact rfl | with_reducible exact Keeps.refl _ _ | with_reducible assumption
    | with_reducible refine (State.onLane_keeps _ _ _).then ?_ ?_ | with_reducible refine Keeps.ite ?_ ?_
    | extract_lets | split | dsimp +zetaDelta only

theorem State.lockGone_keeps (s : State) (n : Nat) : Keeps [.freeCtr, .regs, .lanes, .ports, .hosts, .dies] s
    (State.lockGone s n) := by
  unfold State.lockGone
  repeat' first
    | exact rfl | with_reducible exact Keeps.refl _ _ | with_reducible assumption
    | with_reducible refine (State.put_keeps _ _ _).then ?_ ?_
    | with_reducible refine (State.capEvent_keeps _ _ _ _).then ?_ ?_
    | with_reducible refine (State.lineDown_keeps _ _).then ?_ ?_
    | with_reducible refine (State.onLane_keeps _ _ _).then ?_ ?_
    | with_reducible refine (State.clearRuns_keeps _ _).then ?_ ?_ | with_reducible refine Keeps.ite ?_ ?_
    | extract_lets | split | dsimp +zetaDelta only

theorem State.enterGain_keeps (s : State) (n : Nat) (own : Bool) : Keeps [.regs, .lanes, .pools, .dies] s
    (State.enterGain s n own) := by
  unfold State.enterGain
  repeat' first
    | exact rfl | with_reducible exact Keeps.refl _ _ | with_reducible assumption
    | with_reducible refine (State.startExit_keeps _ _).then ?_ ?_
    | with_reducible refine (State.put_keeps _ _ _).then ?_ ?_
    | with_reducible refine (State.presets_keeps _ _).then ?_ ?_
    | with_reducible refine (State.setRx_keeps _ _ _).then ?_ ?_ | with_reducible refine Keeps.ite ?_ ?_
    | extract_lets | split | dsimp +zetaDelta only

theorem State.enterDark_keeps (s : State) (n : Nat) (own : Bool) : Keeps [.regs, .lanes, .dies] s (State.enterDark s
    n own) := by
  unfold State.enterDark
  repeat' first
    | exact rfl | with_reducible exact Keeps.refl _ _ | with_reducible assumption
    | with_reducible refine (State.put_keeps _ _ _).then ?_ ?_
    | with_reducible refine (State.setRx_keeps _ _ _).then ?_ ?_ | with_reducible refine Keeps.ite ?_ ?_
    | extract_lets | split | dsimp +zetaDelta only

theorem State.startLane_keeps (s : State) (n : Nat) (own : Bool) : Keeps [.freeCtr, .regs, .lanes, .pools, .ports,
    .hosts, .dies] s (State.startLane s n own) := by
  unfold State.startLane
  repeat' first
    | exact rfl | with_reducible exact Keeps.refl _ _ | with_reducible assumption
    | with_reducible refine (State.lockGone_keeps _ _).then ?_ ?_
    | with_reducible refine (State.enterGain_keeps _ _ _).then ?_ ?_
    | with_reducible refine (State.enterDark_keeps _ _ _).then ?_ ?_
    | with_reducible refine (State.put_keeps _ _ _).then ?_ ?_
    | with_reducible refine (State.presets_keeps _ _).then ?_ ?_ | with_reducible refine Keeps.ite ?_ ?_
    | extract_lets | split | dsimp +zetaDelta only

theorem State.enterSearch_keeps (s : State) (n : Nat) : Keeps [.regs, .lanes, .dies] s (State.enterSearch s n) := by
  unfold State.enterSearch
  repeat' first
    | exact rfl | with_reducible exact Keeps.refl _ _ | with_reducible assumption
    | with_reducible refine (State.setRx_keeps _ _ _).then ?_ ?_
    | with_reducible refine (State.clearRuns_keeps _ _).then ?_ ?_ | with_reducible refine Keeps.ite ?_ ?_
    | extract_lets | split | dsimp +zetaDelta only

theorem State.enterAcq_keeps (s : State) (n : Nat) (r : RxState) : Keeps [.regs, .lanes, .dies] s (State.enterAcq s
    n r) := by
  unfold State.enterAcq
  repeat' first
    | exact rfl | with_reducible exact Keeps.refl _ _ | with_reducible assumption
    | with_reducible refine (State.setRx_keeps _ _ _).then ?_ ?_
    | with_reducible refine (State.startExit_keeps _ _).then ?_ ?_ | with_reducible refine Keeps.ite ?_ ?_
    | extract_lets | split | dsimp +zetaDelta only

theorem State.enterWarm_keeps (s : State) (n : Nat) : Keeps [.regs, .lanes, .dies] s (State.enterWarm s n) := by
  unfold State.enterWarm
  repeat' first
    | exact rfl | with_reducible exact Keeps.refl _ _ | with_reducible assumption
    | with_reducible refine (State.setRx_keeps _ _ _).then ?_ ?_
    | with_reducible refine (State.onLane_keeps _ _ _).then ?_ ?_ | with_reducible refine Keeps.ite ?_ ?_
    | extract_lets | split | dsimp +zetaDelta only

theorem State.enterTrack_keeps (s : State) (n : Nat) : Keeps [.regs, .lanes, .dies] s (State.enterTrack s n) := by
  unfold State.enterTrack
  repeat' first
    | exact rfl | with_reducible exact Keeps.refl _ _ | with_reducible assumption
    | with_reducible refine (State.put_keeps _ _ _).then ?_ ?_
    | with_reducible refine (State.capEvent_keeps _ _ _ _).then ?_ ?_
    | with_reducible refine (State.raiseLane_keeps _ _ _).then ?_ ?_
    | with_reducible refine (State.setRx_keeps _ _ _).then ?_ ?_ | with_reducible refine Keeps.ite ?_ ?_
    | extract_lets | split | dsimp +zetaDelta only

theorem tapLoadEffect_keeps (t : TileId) (i : Fin 16) (v : BitVec 12) (s : State) : Keeps [.lanes, .pools] s
    (tapLoadEffect t i v s) := by
  unfold tapLoadEffect
  repeat' first
    | exact rfl | with_reducible exact Keeps.refl _ _ | with_reducible assumption
    | with_reducible refine (State.onLane_keeps _ _ _).then ?_ ?_
    | with_reducible refine (State.setPool_keeps _ _ _).then ?_ ?_ | with_reducible refine Keeps.ite ?_ ?_
    | extract_lets | split | dsimp +zetaDelta only

theorem State.newWindow_keeps (s : State) (n : Nat) : Keeps [.lanes] s (State.newWindow s n) := by
  unfold State.newWindow
  repeat' first
    | exact rfl | with_reducible exact Keeps.refl _ _ | with_reducible assumption
    | with_reducible refine (State.onLane_keeps _ _ _).then ?_ ?_ | with_reducible refine Keeps.ite ?_ ?_
    | extract_lets | split | dsimp +zetaDelta only

theorem winWriteEffect_keeps (n : Lane) (w : BitVec 5) (s : State) : Keeps [.regs, .lanes] s (winWriteEffect n w s)
    := by
  unfold winWriteEffect
  repeat' first
    | exact rfl | with_reducible exact Keeps.refl _ _ | with_reducible assumption
    | with_reducible refine (State.newWindow_keeps _ _).then ?_ ?_
    | with_reducible refine (State.put_keeps _ _ _).then ?_ ?_ | with_reducible refine Keeps.ite ?_ ?_ | extract_lets
    | split | dsimp +zetaDelta only

theorem startEffect_keeps (n : Lane) (point : Bool) (len : BitVec 5) (s : State) : Keeps [.regs, .lanes] s
    (startEffect n point len s) := by
  unfold startEffect
  repeat' first
    | exact rfl | with_reducible exact Keeps.refl _ _ | with_reducible assumption
    | with_reducible refine (State.put_keeps _ _ _).then ?_ ?_
    | with_reducible refine (State.putB_keeps _ _ _).then ?_ ?_
    | with_reducible refine (State.onLane_keeps _ _ _).then ?_ ?_ | with_reducible refine Keeps.ite ?_ ?_
    | with_reducible refine Keeps.each ?_ (fun _ _ _ => ?_) | extract_lets | split | dsimp +zetaDelta only

theorem histogramDoneEffect_keeps (n : Lane) (s : State) : Keeps [.regs] s (histogramDoneEffect n s) := by
  unfold histogramDoneEffect
  repeat' first
    | exact rfl | with_reducible exact Keeps.refl _ _ | with_reducible assumption
    | with_reducible refine (State.put_keeps _ _ _).then ?_ ?_
    | with_reducible refine (State.putB_keeps _ _ _).then ?_ ?_ | with_reducible refine Keeps.ite ?_ ?_ | extract_lets
    | split | dsimp +zetaDelta only

theorem measWindowEndEffect_keeps (n : Lane) (s : State) : Keeps [.regs, .lanes] s (measWindowEndEffect n s) := by
  unfold measWindowEndEffect
  repeat' first
    | exact rfl | with_reducible exact Keeps.refl _ _ | with_reducible assumption
    | with_reducible refine (State.put_keeps _ _ _).then ?_ ?_
    | with_reducible refine (State.putB_keeps _ _ _).then ?_ ?_
    | with_reducible refine (State.addTo_keeps _ _ _).then ?_ ?_
    | with_reducible refine (State.newWindow_keeps _ _).then ?_ ?_ | with_reducible refine Keeps.ite ?_ ?_
    | extract_lets | split | dsimp +zetaDelta only

theorem agcMeasurementEffect_keeps (n : Lane) (s : State) : Keeps [.regs, .lanes, .dies] s (agcMeasurementEffect n
    s) := by
  unfold agcMeasurementEffect
  repeat' first
    | exact rfl | with_reducible exact Keeps.refl _ _ | with_reducible assumption
    | with_reducible refine (State.put_keeps _ _ _).then ?_ ?_
    | with_reducible refine (State.onLane_keeps _ _ _).then ?_ ?_
    | with_reducible refine (State.enterAcq_keeps _ _ _).then ?_ ?_ | with_reducible refine Keeps.ite ?_ ?_
    | extract_lets | split | dsimp +zetaDelta only

theorem State.trackSub_keeps (s : State) (n : Nat) (cal : Bool) (k : Nat) (e : CorrEst) : Keeps [.regs] s
    (State.trackSub s n cal k e) := by
  unfold State.trackSub
  repeat' first
    | exact rfl | with_reducible exact Keeps.refl _ _ | with_reducible assumption
    | with_reducible refine (State.putZ_keeps _ _ _).then ?_ ?_ | with_reducible refine Keeps.ite ?_ ?_ | extract_lets
    | split | dsimp +zetaDelta only

theorem trackingIntervalEffect_keeps (n : Lane) (s : State) : Keeps [.freeCtr, .regs, .lanes, .dies] s
    (trackingIntervalEffect n s) := by
  unfold trackingIntervalEffect
  repeat' first
    | exact rfl | with_reducible exact Keeps.refl _ _ | with_reducible assumption
    | with_reducible refine (State.onLane_keeps _ _ _).then ?_ ?_
    | with_reducible refine (State.trackSub_keeps _ _ _ _ _).then ?_ ?_
    | with_reducible refine (State.enterAcq_keeps _ _ _).then ?_ ?_ | exact Or.inr (by decide)
    | with_reducible exact Or.inl rfl | with_reducible exact id | with_reducible refine Keeps.ite ?_ ?_
    | with_reducible refine Keeps.each ?_ (fun _ _ _ => ?_) | extract_lets | split | with_reducible apply Keeps.upd
    | dsimp +zetaDelta only | with_reducible exact fun h => SMap.wf_set _ _ _ _ h
    | with_reducible exact fun h => SMap.rising_set _ _ _ _ h | with_reducible exact fun h => SMap.rising_drop _ _ h
    | with_reducible exact fun h => SMap.wf_setRun _ _ _ _ h
    | with_reducible exact fun h => SMap.wf_setRun _ _ _ _ (SMap.wf_setRun _ _ _ _ h)
    | with_reducible exact fun h => SMap.wf_fillRun _ _ _ _ _ h | with_reducible exact fun h => SMap.wf_drop _ _ _ h
    | with_reducible exact fun _ => SMap.wf_nil _ | with_reducible exact fun h => by simpa using h | exact id

theorem cdrWindowEffect_keeps (n : Lane) (s : State) : Keeps [.regs, .lanes] s (cdrWindowEffect n s) := by
  unfold cdrWindowEffect
  repeat' first
    | exact rfl | with_reducible exact Keeps.refl _ _ | with_reducible assumption
    | with_reducible refine (State.onLane_keeps _ _ _).then ?_ ?_
    | with_reducible refine (State.put_keeps _ _ _).then ?_ ?_ | with_reducible refine Keeps.ite ?_ ?_ | extract_lets
    | split | dsimp +zetaDelta only

theorem State.cdrVote_keeps (s : State) (n : Nat) (p : Int) : Keeps [.lanes] s (State.cdrVote s n p) := by
  unfold State.cdrVote
  repeat' first
    | exact rfl | with_reducible exact Keeps.refl _ _ | with_reducible assumption
    | with_reducible refine (State.onLane_keeps _ _ _).then ?_ ?_ | with_reducible refine Keeps.ite ?_ ?_
    | extract_lets | split | dsimp +zetaDelta only

theorem cdrDoneEffect_keeps (n : Lane) (s : State) : Keeps [.regs, .lanes, .dies] s (cdrDoneEffect n s) := by
  unfold cdrDoneEffect
  repeat' first
    | exact rfl | with_reducible exact Keeps.refl _ _ | with_reducible assumption
    | with_reducible refine (State.enterAcq_keeps _ _ _).then ?_ ?_ | with_reducible refine Keeps.ite ?_ ?_
    | extract_lets | split | dsimp +zetaDelta only

theorem blindDoneEffect_keeps (n : Lane) (s : State) : Keeps [.regs, .lanes, .dies] s (blindDoneEffect n s) := by
  unfold blindDoneEffect
  repeat' first
    | exact rfl | with_reducible exact Keeps.refl _ _ | with_reducible assumption
    | with_reducible refine (State.enterAcq_keeps _ _ _).then ?_ ?_ | with_reducible refine Keeps.ite ?_ ?_
    | extract_lets | split | dsimp +zetaDelta only

theorem ddDoneEffect_keeps (n : Lane) (s : State) : Keeps [.regs, .lanes, .dies] s (ddDoneEffect n s) := by
  unfold ddDoneEffect
  repeat' first
    | exact rfl | with_reducible exact Keeps.refl _ _ | with_reducible assumption
    | with_reducible refine (State.setRx_keeps _ _ _).then ?_ ?_ | with_reducible refine Keeps.ite ?_ ?_
    | extract_lets | split | dsimp +zetaDelta only

theorem trainDoneEffect_keeps (n : Lane) (s : State) : Keeps [.regs, .lanes, .dies] s (trainDoneEffect n s) := by
  unfold trainDoneEffect
  repeat' first
    | exact rfl | with_reducible exact Keeps.refl _ _ | with_reducible assumption
    | with_reducible refine (State.enterSearch_keeps _ _).then ?_ ?_ | with_reducible refine Keeps.ite ?_ ?_
    | extract_lets | split | dsimp +zetaDelta only

theorem acqTimeoutEffect_keeps (n : Lane) (s : State) : Keeps [.regs, .lanes, .pools, .dies] s (acqTimeoutEffect n
    s) := by
  unfold acqTimeoutEffect
  repeat' first
    | exact rfl | with_reducible exact Keeps.refl _ _ | with_reducible assumption
    | with_reducible refine (State.enterGain_keeps _ _ _).then ?_ ?_
    | with_reducible refine (State.addSat_keeps _ _ _).then ?_ ?_
    | with_reducible refine (State.raiseLane_keeps _ _ _).then ?_ ?_ | with_reducible refine Keeps.ite ?_ ?_
    | extract_lets | split | dsimp +zetaDelta only

theorem warmFailEffect_keeps (n : Lane) (s : State) : Keeps [.regs, .lanes, .pools, .dies] s (warmFailEffect n s) :=
    by
  unfold warmFailEffect
  repeat' first
    | exact rfl | with_reducible exact Keeps.refl _ _ | with_reducible assumption
    | with_reducible refine (State.enterGain_keeps _ _ _).then ?_ ?_
    | with_reducible refine (State.raiseLane_keeps _ _ _).then ?_ ?_ | with_reducible refine Keeps.ite ?_ ?_
    | extract_lets | split | dsimp +zetaDelta only

end Sys2Proof.Machine
end

