-- ==== Sys2Proof/Laws/KeepsMgmt.lean ====
section
/-!
SUPPORT. What each operation of Machine/Mgmt.lean leaves unchanged, and that it keeps the canonical form.
-/

namespace Sys2Proof.Machine

open Sys2Proof

theorem State.queueCompletion_keeps (s : State) (w : List Nat) (st : Status) (detail : Nat) (r0 : Nat) (r1 : Nat) :
    Keeps [.regs, .mgmt] s (State.queueCompletion s w st detail r0 r1) := by
  unfold State.queueCompletion
  repeat' first
    | exact rfl | with_reducible exact Keeps.refl _ _ | with_reducible assumption
    | with_reducible refine (State.noteEvent_keeps _ _).then ?_ ?_ | exact Or.inr (by decide)
    | with_reducible exact Or.inl rfl | with_reducible exact id | with_reducible refine Keeps.ite ?_ ?_ | extract_lets
    | split | with_reducible apply Keeps.upd | dsimp +zetaDelta only
    | with_reducible exact fun h => SMap.wf_set _ _ _ _ h | with_reducible exact fun h => SMap.rising_set _ _ _ _ h
    | with_reducible exact fun h => SMap.rising_drop _ _ h | with_reducible exact fun h => SMap.wf_setRun _ _ _ _ h
    | with_reducible exact fun h => SMap.wf_setRun _ _ _ _ (SMap.wf_setRun _ _ _ _ h)
    | with_reducible exact fun h => SMap.wf_fillRun _ _ _ _ _ h | with_reducible exact fun h => SMap.wf_drop _ _ _ h
    | with_reducible exact fun _ => SMap.wf_nil _ | with_reducible exact fun h => by simpa using h | exact id

theorem State.complete_keeps (s : State) (e : Engine) (w : List Nat) (st : Status) (detail : Nat) (r0 : Nat) (r1 :
    Nat) : Keeps [.regs, .mgmt] s (State.complete s e w st detail r0 r1) := by
  unfold State.complete
  repeat' first
    | exact rfl | with_reducible exact Keeps.refl _ _ | with_reducible assumption
    | with_reducible refine (State.queueCompletion_keeps _ _ _ _ _ _).then ?_ ?_ | exact Or.inr (by decide)
    | with_reducible exact Or.inl rfl | with_reducible exact id | with_reducible refine Keeps.ite ?_ ?_ | extract_lets
    | split | with_reducible apply Keeps.upd | dsimp +zetaDelta only
    | with_reducible exact fun h => SMap.wf_set _ _ _ _ h | with_reducible exact fun h => SMap.rising_set _ _ _ _ h
    | with_reducible exact fun h => SMap.rising_drop _ _ h | with_reducible exact fun h => SMap.wf_setRun _ _ _ _ h
    | with_reducible exact fun h => SMap.wf_setRun _ _ _ _ (SMap.wf_setRun _ _ _ _ h)
    | with_reducible exact fun h => SMap.wf_fillRun _ _ _ _ _ h | with_reducible exact fun h => SMap.wf_drop _ _ _ h
    | with_reducible exact fun _ => SMap.wf_nil _ | with_reducible exact fun h => by simpa using h | exact id

theorem State.abortWhere_keeps (s : State) (p : Engine → List Nat → Bool) (st : Status) : Keeps [.regs, .mgmt] s
    (State.abortWhere s p st) := by
  unfold State.abortWhere
  repeat' first
    | exact rfl | with_reducible exact Keeps.refl _ _ | with_reducible assumption
    | with_reducible refine (State.complete_keeps _ _ _ _ _ _ _).then ?_ ?_ | with_reducible refine Keeps.ite ?_ ?_
    | with_reducible refine Keeps.each ?_ (fun _ _ _ => ?_) | extract_lets | split | dsimp +zetaDelta only

theorem State.withHead_keeps {ps : List Part} {s0 : State} (s : State) (e : Engine) (opcode op : Nat) (f : List Nat → State)
    (_ : subParts [] ps = true) (h : Keeps ps s0 s) (hf : ∀ w, Keeps ps s0 (f w)) : Keeps ps s0 (s.withHead e opcode op f) := by
  unfold State.withHead
  split
  · exact hf _
  · exact h

theorem State.popRing_keeps (s : State) : Keeps [.queues] s (State.popRing s) := by
  unfold State.popRing
  repeat' first
    | exact rfl | with_reducible exact Keeps.refl _ _ | with_reducible assumption
    | with_reducible refine (State.setQueue_keeps _ _ _).then ?_ ?_ | with_reducible refine Keeps.ite ?_ ?_
    | extract_lets | split | dsimp +zetaDelta only

theorem State.switchClock_keeps (s : State) (w : List Nat) (mclk : Bool) : Keeps [.regs, .mgmt] s (State.switchClock
    s w mclk) := by
  unfold State.switchClock
  repeat' first
    | exact rfl | with_reducible exact Keeps.refl _ _ | with_reducible assumption
    | with_reducible refine (State.complete_keeps _ _ _ _ _ _ _).then ?_ ?_
    | with_reducible refine (State.putB_keeps _ _ _).then ?_ ?_ | with_reducible refine Keeps.ite ?_ ?_ | extract_lets
    | split | dsimp +zetaDelta only

theorem State.take_keeps (s : State) : Keeps [.regs, .mgmt, .counts, .queues] s (State.take s) := by
  unfold State.take
  repeat' first
    | exact rfl | with_reducible exact Keeps.refl _ _ | with_reducible assumption
    | with_reducible refine (State.put_keeps _ _ _).then ?_ ?_
    | with_reducible refine (State.countD0_keeps _ _ _ _).then ?_ ?_
    | with_reducible refine (State.popRing_keeps _).then ?_ ?_
    | with_reducible refine (State.queueCompletion_keeps _ _ _ _ _ _).then ?_ ?_ | exact Or.inr (by decide)
    | with_reducible exact Or.inl rfl | with_reducible exact id | with_reducible refine Keeps.ite ?_ ?_ | extract_lets
    | split | with_reducible apply Keeps.upd | dsimp +zetaDelta only
    | with_reducible exact fun h => SMap.wf_set _ _ _ _ h | with_reducible exact fun h => SMap.rising_set _ _ _ _ h
    | with_reducible exact fun h => SMap.rising_drop _ _ h | with_reducible exact fun h => SMap.wf_setRun _ _ _ _ h
    | with_reducible exact fun h => SMap.wf_setRun _ _ _ _ (SMap.wf_setRun _ _ _ _ h)
    | with_reducible exact fun h => SMap.wf_fillRun _ _ _ _ _ h | with_reducible exact fun h => SMap.wf_drop _ _ _ h
    | with_reducible exact fun _ => SMap.wf_nil _ | with_reducible exact fun h => by simpa using h | exact id

theorem cmdPushEffect_keeps (s : State) : Keeps [.regs, .queues] s (cmdPushEffect s) := by
  unfold cmdPushEffect
  repeat' first
    | exact rfl | with_reducible exact Keeps.refl _ _ | with_reducible assumption
    | with_reducible refine (State.setQueue_keeps _ _ _).then ?_ ?_
    | with_reducible refine (State.noteEvent_keeps _ _).then ?_ ?_ | with_reducible refine Keeps.ite ?_ ?_
    | extract_lets | split | dsimp +zetaDelta only

theorem cplPopEffect_keeps (s : State) : Keeps [.mgmt, .intc] s (cplPopEffect s) := by
  unfold cplPopEffect
  repeat' first
    | exact rfl | with_reducible exact Keeps.refl _ _ | with_reducible assumption
    | with_reducible refine (State.releaseIrq_keeps _).then ?_ ?_ | exact Or.inr (by decide)
    | with_reducible exact Or.inl rfl | with_reducible exact id | with_reducible refine Keeps.ite ?_ ?_ | extract_lets
    | split | with_reducible apply Keeps.upd | dsimp +zetaDelta only
    | with_reducible exact fun h => SMap.wf_set _ _ _ _ h | with_reducible exact fun h => SMap.rising_set _ _ _ _ h
    | with_reducible exact fun h => SMap.rising_drop _ _ h | with_reducible exact fun h => SMap.wf_setRun _ _ _ _ h
    | with_reducible exact fun h => SMap.wf_setRun _ _ _ _ (SMap.wf_setRun _ _ _ _ h)
    | with_reducible exact fun h => SMap.wf_fillRun _ _ _ _ _ h | with_reducible exact fun h => SMap.wf_drop _ _ _ h
    | with_reducible exact fun _ => SMap.wf_nil _ | with_reducible exact fun h => by simpa using h | exact id

theorem nopEffect_keeps (s : State) : Keeps [.regs, .mgmt, .counts, .queues] s (nopEffect s) := by
  unfold nopEffect
  repeat' first
    | exact rfl | with_reducible exact Keeps.refl _ _ | with_reducible assumption
    | with_reducible refine (State.take_keeps _).then ?_ ?_ | with_reducible refine Keeps.ite ?_ ?_ | extract_lets
    | split | dsimp +zetaDelta only

end Sys2Proof.Machine
end

