-- ==== Sys2Proof/Laws/KeepsQueues.lean ====
section
/-!
SUPPORT. What each operation of Machine/Queues.lean leaves unchanged, and that it keeps the canonical form.
-/

namespace Sys2Proof.Machine

open Sys2Proof

theorem State.parity_keeps (s : State) (m : Nat) : Keeps [.regs] s (State.parity s m) := by
  unfold State.parity
  repeat' first
    | exact rfl | with_reducible exact Keeps.refl _ _ | with_reducible assumption
    | with_reducible refine (State.put_keeps _ _ _).then ?_ ?_
    | with_reducible refine (State.raise_keeps _ _).then ?_ ?_ | with_reducible refine Keeps.ite ?_ ?_ | extract_lets
    | split | dsimp +zetaDelta only

theorem State.poisonUse_keeps (s : State) (c : Nat) (a : Nat) : Keeps [.regs] s (State.poisonUse s c a) := by
  unfold State.poisonUse
  repeat' first
    | exact rfl | with_reducible exact Keeps.refl _ _ | with_reducible assumption
    | with_reducible refine (State.put_keeps _ _ _).then ?_ ?_
    | with_reducible refine (State.raise_keeps _ _).then ?_ ?_ | with_reducible refine Keeps.ite ?_ ?_ | extract_lets
    | split | dsimp +zetaDelta only

theorem State.pushQ_keeps (s : State) (q : QueueId) (e : QEntry) : Keeps [.queues] s (State.pushQ s q e) := by
  unfold State.pushQ
  repeat' first
    | exact rfl | with_reducible exact Keeps.refl _ _ | with_reducible assumption
    | with_reducible refine (State.setQueue_keeps _ _ _).then ?_ ?_ | with_reducible refine Keeps.ite ?_ ?_
    | extract_lets | split | dsimp +zetaDelta only

theorem State.popQ_keeps (s : State) (q : QueueId) : Keeps [.queues] s (State.popQ s q) := by
  unfold State.popQ
  repeat' first
    | exact rfl | with_reducible exact Keeps.refl _ _ | with_reducible assumption
    | with_reducible refine (State.setQueue_keeps _ _ _).then ?_ ?_ | with_reducible refine Keeps.ite ?_ ?_
    | extract_lets | split | dsimp +zetaDelta only

theorem State.emptyQ_keeps (s : State) (q : QueueId) : Keeps [.queues] s (State.emptyQ s q) := by
  unfold State.emptyQ
  repeat' first
    | exact rfl | with_reducible exact Keeps.refl _ _ | with_reducible assumption
    | with_reducible refine (State.setQueue_keeps _ _ _).then ?_ ?_ | with_reducible refine Keeps.ite ?_ ?_
    | extract_lets | split | dsimp +zetaDelta only

theorem State.emptyLane_keeps (s : State) (n : Nat) (both : Bool) : Keeps [.queues] s (State.emptyLane s n both) :=
    by
  unfold State.emptyLane
  repeat' first
    | exact rfl | with_reducible exact Keeps.refl _ _ | with_reducible assumption
    | with_reducible refine (State.emptyQ_keeps _ _).then ?_ ?_ | with_reducible refine Keeps.ite ?_ ?_
    | with_reducible refine Keeps.each ?_ (fun _ _ _ => ?_) | extract_lets | split | dsimp +zetaDelta only

end Sys2Proof.Machine
end

