-- ==== Sys2Proof/Laws/KeepsTrained.lean ====
section
/-!
SUPPORT. What each operation of Machine/Trained.lean leaves unchanged, and that it keeps the canonical form.
-/

namespace Sys2Proof.Machine

open Sys2Proof

theorem State.loadRx_keeps (s : State) (n : Nat) (t : Trained) (count : Nat) (cursor : Nat) : Keeps [.regs, .lanes,
    .pools] s (State.loadRx s n t count cursor) := by
  unfold State.loadRx
  repeat' first
    | exact rfl | with_reducible exact Keeps.refl _ _ | with_reducible assumption
    | with_reducible refine (State.onLane_keeps _ _ _).then ?_ ?_
    | with_reducible refine (State.put_keeps _ _ _).then ?_ ?_
    | with_reducible refine (State.zeroExts_keeps _ _).then ?_ ?_ | with_reducible refine Keeps.ite ?_ ?_
    | with_reducible refine Keeps.each ?_ (fun _ _ _ => ?_) | extract_lets | split | dsimp +zetaDelta only

end Sys2Proof.Machine
end

