-- ==== Sys2Proof/Laws/KeepsApply.lean ====
section
/-!
SUPPORT. What each operation of Machine/Apply.lean leaves unchanged, and that it keeps the canonical form.
-/

namespace Sys2Proof.Machine

open Sys2Proof

theorem State.replaceApply_keeps (s : State) (x : Apply) (y : Apply) : Keeps [.ctx] s (State.replaceApply s x y) :=
    by
  unfold State.replaceApply
  repeat' first
    | exact rfl | with_reducible exact Keeps.refl _ _ | with_reducible assumption | exact Or.inr (by decide)
    | with_reducible exact Or.inl rfl | with_reducible exact id | with_reducible refine Keeps.ite ?_ ?_ | extract_lets
    | split | with_reducible apply Keeps.upd | dsimp +zetaDelta only
    | with_reducible exact fun h => SMap.wf_set _ _ _ _ h | with_reducible exact fun h => SMap.rising_set _ _ _ _ h
    | with_reducible exact fun h => SMap.rising_drop _ _ h | with_reducible exact fun h => SMap.wf_setRun _ _ _ _ h
    | with_reducible exact fun h => SMap.wf_setRun _ _ _ _ (SMap.wf_setRun _ _ _ _ h)
    | with_reducible exact fun h => SMap.wf_fillRun _ _ _ _ _ h | with_reducible exact fun h => SMap.wf_drop _ _ _ h
    | with_reducible exact fun _ => SMap.wf_nil _ | with_reducible exact fun h => by simpa using h | exact id

theorem State.writeResult_keeps (s : State) (g : Nat) (peer : Nat) (r : Nat) (hit : Bool) (unsched : Bool) (skipped
    : Bool) : Keeps [.regs] s (State.writeResult s g peer r hit unsched skipped) := by
  unfold State.writeResult
  repeat' first
    | exact rfl | with_reducible exact Keeps.refl _ _ | with_reducible assumption
    | with_reducible refine (State.putB_keeps _ _ _).then ?_ ?_
    | with_reducible refine (State.put_keeps _ _ _).then ?_ ?_
    | with_reducible refine (State.raiseLane_keeps _ _ _).then ?_ ?_ | with_reducible refine Keeps.ite ?_ ?_
    | extract_lets | split | dsimp +zetaDelta only

theorem State.dropIdent_keeps (s : State) (g : Nat) : Keeps [.ctx] s (State.dropIdent s g) := by
  unfold State.dropIdent
  repeat' first
    | exact rfl | with_reducible exact Keeps.refl _ _ | with_reducible assumption | exact Or.inr (by decide)
    | with_reducible exact Or.inl rfl | with_reducible exact id | with_reducible refine Keeps.ite ?_ ?_ | extract_lets
    | split | with_reducible apply Keeps.upd | dsimp +zetaDelta only
    | with_reducible exact fun h => SMap.wf_set _ _ _ _ h | with_reducible exact fun h => SMap.rising_set _ _ _ _ h
    | with_reducible exact fun h => SMap.rising_drop _ _ h | with_reducible exact fun h => SMap.wf_setRun _ _ _ _ h
    | with_reducible exact fun h => SMap.wf_setRun _ _ _ _ (SMap.wf_setRun _ _ _ _ h)
    | with_reducible exact fun h => SMap.wf_fillRun _ _ _ _ _ h | with_reducible exact fun h => SMap.wf_drop _ _ _ h
    | with_reducible exact fun _ => SMap.wf_nil _ | with_reducible exact fun h => by simpa using h | exact id

theorem State.idFail_keeps (s : State) (n : Nat) : Keeps [.regs, .lanes, .pools, .dies] s (State.idFail s n) := by
  unfold State.idFail
  repeat' first
    | exact rfl | with_reducible exact Keeps.refl _ _ | with_reducible assumption
    | with_reducible refine (State.enterGain_keeps _ _ _).then ?_ ?_ | with_reducible refine Keeps.ite ?_ ?_
    | extract_lets | split | dsimp +zetaDelta only

theorem State.idDone_keeps (s : State) (n : Nat) : Keeps [.regs, .lanes, .dies] s (State.idDone s n) := by
  unfold State.idDone
  repeat' first
    | exact rfl | with_reducible exact Keeps.refl _ _ | with_reducible assumption
    | with_reducible refine (State.enterWarm_keeps _ _).then ?_ ?_
    | with_reducible refine (State.enterDark_keeps _ _ _).then ?_ ?_ | with_reducible refine Keeps.ite ?_ ?_
    | extract_lets | split | dsimp +zetaDelta only

theorem State.settleIdent_keeps (s : State) (d : Nat) (r : Nat) : Keeps [.regs, .lanes, .pools, .dies, .ctx] s
    (State.settleIdent s d r) := by
  unfold State.settleIdent
  repeat' first
    | exact rfl | with_reducible exact Keeps.refl _ _ | with_reducible assumption
    | with_reducible refine (State.dropIdent_keeps _ _).then ?_ ?_
    | with_reducible refine (State.idDone_keeps _ _).then ?_ ?_
    | with_reducible refine (State.idFail_keeps _ _).then ?_ ?_ | with_reducible refine Keeps.ite ?_ ?_
    | with_reducible refine Keeps.each ?_ (fun _ _ _ => ?_) | extract_lets | split | dsimp +zetaDelta only

theorem State.completeApply_keeps (s : State) (x : Apply) (r : Nat) : Keeps [.regs, .mgmt] s (State.completeApply s
    x r) := by
  unfold State.completeApply
  repeat' first
    | exact rfl | with_reducible exact Keeps.refl _ _ | with_reducible assumption
    | with_reducible refine (State.complete_keeps _ _ _ _ _ _ _).then ?_ ?_ | with_reducible refine Keeps.ite ?_ ?_
    | extract_lets | split | dsimp +zetaDelta only

theorem State.releaseLine_keeps (s : State) (l : Nat) : Keeps [.ctx] s (State.releaseLine s l) := by
  unfold State.releaseLine
  repeat' first
    | exact rfl | with_reducible exact Keeps.refl _ _ | with_reducible assumption
    | with_reducible refine (State.setLine_keeps _ _ _).then ?_ ?_ | exact Or.inr (by decide)
    | with_reducible exact Or.inl rfl | with_reducible exact id | with_reducible refine Keeps.ite ?_ ?_ | extract_lets
    | split | with_reducible apply Keeps.upd | dsimp +zetaDelta only
    | with_reducible exact fun h => SMap.wf_set _ _ _ _ h | with_reducible exact fun h => SMap.rising_set _ _ _ _ h
    | with_reducible exact fun h => SMap.rising_drop _ _ h | with_reducible exact fun h => SMap.wf_setRun _ _ _ _ h
    | with_reducible exact fun h => SMap.wf_setRun _ _ _ _ (SMap.wf_setRun _ _ _ _ h)
    | with_reducible exact fun h => SMap.wf_fillRun _ _ _ _ _ h | with_reducible exact fun h => SMap.wf_drop _ _ _ h
    | with_reducible exact fun _ => SMap.wf_nil _ | with_reducible exact fun h => by simpa using h | exact id

theorem State.cacheApply_keeps (s : State) (x : Apply) : Keeps [.ctx] s (State.cacheApply s x) := by
  unfold State.cacheApply
  repeat' first
    | exact rfl | with_reducible exact Keeps.refl _ _ | with_reducible assumption
    | with_reducible refine (State.setLine_keeps _ _ _).then ?_ ?_ | exact Or.inr (by decide)
    | with_reducible exact Or.inl rfl | with_reducible exact id | with_reducible refine Keeps.ite ?_ ?_ | extract_lets
    | split | with_reducible apply Keeps.upd | dsimp +zetaDelta only
    | with_reducible exact fun h => SMap.wf_set _ _ _ _ h | with_reducible exact fun h => SMap.rising_set _ _ _ _ h
    | with_reducible exact fun h => SMap.rising_drop _ _ h | with_reducible exact fun h => SMap.wf_setRun _ _ _ _ h
    | with_reducible exact fun h => SMap.wf_setRun _ _ _ _ (SMap.wf_setRun _ _ _ _ h)
    | with_reducible exact fun h => SMap.wf_fillRun _ _ _ _ _ h | with_reducible exact fun h => SMap.wf_drop _ _ _ h
    | with_reducible exact fun _ => SMap.wf_nil _ | with_reducible exact fun h => by simpa using h | exact id

theorem State.dueRestart_keeps (s : State) (n : Nat) : Keeps [.freeCtr, .regs, .lanes, .pools, .ports, .hosts,
    .dies] s (State.dueRestart s n) := by
  unfold State.dueRestart
  repeat' first
    | exact rfl | with_reducible exact Keeps.refl _ _ | with_reducible assumption
    | with_reducible refine (State.startLane_keeps _ _ _).then ?_ ?_
    | with_reducible refine (State.onLane_keeps _ _ _).then ?_ ?_ | with_reducible refine Keeps.ite ?_ ?_
    | extract_lets | split | dsimp +zetaDelta only

theorem State.loadEnds_keeps (s : State) (n : Nat) : Keeps [.freeCtr, .regs, .lanes, .pools, .ports, .hosts, .dies]
    s (State.loadEnds s n) := by
  unfold State.loadEnds
  repeat' first
    | exact rfl | with_reducible exact Keeps.refl _ _ | with_reducible assumption
    | with_reducible refine (State.onLane_keeps _ _ _).then ?_ ?_
    | with_reducible refine (State.dueRestart_keeps _ _).then ?_ ?_ | with_reducible refine Keeps.ite ?_ ?_
    | with_reducible refine Keeps.onlyIf ?_ (fun _ _ => ?_) | extract_lets | split | dsimp +zetaDelta only

theorem State.dropApply_keeps (s : State) (x : Apply) : Keeps [.freeCtr, .regs, .counts, .lanes, .pools, .ports,
    .hosts, .dies, .mem, .ctx] s (State.dropApply s x) := by
  unfold State.dropApply
  repeat' first
    | exact rfl | with_reducible exact Keeps.refl _ _ | with_reducible assumption
    | with_reducible refine (State.releaseLine_keeps _ _).then ?_ ?_
    | with_reducible refine (State.catchUp_keeps _).then ?_ ?_
    | with_reducible refine (State.settleSlots_keeps _).then ?_ ?_
    | with_reducible refine (State.loadEnds_keeps _ _).then ?_ ?_ | exact Or.inr (by decide)
    | with_reducible exact Or.inl rfl | with_reducible exact id | with_reducible refine Keeps.ite ?_ ?_
    | with_reducible refine Keeps.each ?_ (fun _ _ _ => ?_) | extract_lets | split | with_reducible apply Keeps.upd
    | dsimp +zetaDelta only | with_reducible exact fun h => SMap.wf_set _ _ _ _ h
    | with_reducible exact fun h => SMap.rising_set _ _ _ _ h | with_reducible exact fun h => SMap.rising_drop _ _ h
    | with_reducible exact fun h => SMap.wf_setRun _ _ _ _ h
    | with_reducible exact fun h => SMap.wf_setRun _ _ _ _ (SMap.wf_setRun _ _ _ _ h)
    | with_reducible exact fun h => SMap.wf_fillRun _ _ _ _ _ h | with_reducible exact fun h => SMap.wf_drop _ _ _ h
    | with_reducible exact fun _ => SMap.wf_nil _ | with_reducible exact fun h => by simpa using h | exact id

theorem State.finishApply_keeps (s : State) (x : Apply) (r : Nat) : Keeps [.freeCtr, .regs, .mgmt, .counts, .lanes,
    .pools, .ports, .hosts, .dies, .mem, .ctx] s (State.finishApply s x r) := by
  unfold State.finishApply
  repeat' first
    | exact rfl | with_reducible exact Keeps.refl _ _ | with_reducible assumption
    | with_reducible refine (State.dropApply_keeps _ _).then ?_ ?_
    | with_reducible refine (State.cacheApply_keeps _ _).then ?_ ?_
    | with_reducible refine (State.writeResult_keeps _ _ _ _ _ _ _).then ?_ ?_
    | with_reducible refine (State.completeApply_keeps _ _ _).then ?_ ?_
    | with_reducible refine (State.countD0_keeps _ _ _ _).then ?_ ?_
    | with_reducible refine (State.settleIdent_keeps _ _ _).then ?_ ?_ | with_reducible refine Keeps.ite ?_ ?_
    | with_reducible refine Keeps.onlyIf ?_ (fun _ _ => ?_) | extract_lets | split | dsimp +zetaDelta only

theorem State.activate_keeps (s : State) (x : Apply) : Keeps [.freeCtr, .regs, .mgmt, .counts, .lanes, .pools,
    .ports, .hosts, .dies, .mem, .ctx] s (State.activate s x) := by
  unfold State.activate
  repeat' first
    | exact rfl | with_reducible exact Keeps.refl _ _ | with_reducible assumption
    | with_reducible refine (State.finishApply_keeps _ _ _).then ?_ ?_
    | with_reducible refine (State.looked_keeps _).then ?_ ?_
    | with_reducible refine (State.poisonUse_keeps _ _ _).then ?_ ?_
    | with_reducible refine (State.countD0_keeps _ _ _ _).then ?_ ?_
    | with_reducible refine (State.replaceApply_keeps _ _ _).then ?_ ?_
    | with_reducible refine (State.setLine_keeps _ _ _).then ?_ ?_ | with_reducible refine Keeps.ite ?_ ?_
    | extract_lets | split | dsimp +zetaDelta only

theorem State.nextApply_keeps (s : State) (g : Nat) : Keeps [.freeCtr, .regs, .mgmt, .counts, .lanes, .pools,
    .ports, .hosts, .dies, .mem, .ctx] s (State.nextApply s g) := by
  unfold State.nextApply
  repeat' first
    | exact rfl | with_reducible exact Keeps.refl _ _ | with_reducible assumption
    | with_reducible refine (State.activate_keeps _ _).then ?_ ?_ | with_reducible refine Keeps.ite ?_ ?_
    | extract_lets | split | dsimp +zetaDelta only

theorem State.endApply_keeps (s : State) (x : Apply) (r : Nat) : Keeps [.freeCtr, .regs, .mgmt, .counts, .lanes,
    .pools, .ports, .hosts, .dies, .mem, .ctx] s (State.endApply s x r) := by
  unfold State.endApply
  repeat' first
    | exact rfl | with_reducible exact Keeps.refl _ _ | with_reducible assumption
    | with_reducible refine (State.nextApply_keeps _ _).then ?_ ?_
    | with_reducible refine (State.finishApply_keeps _ _ _).then ?_ ?_ | with_reducible refine Keeps.ite ?_ ?_
    | extract_lets | split | dsimp +zetaDelta only

theorem State.finishSuperseded_keeps (s : State) (z : Apply) : Keeps [.freeCtr, .regs, .mgmt, .counts, .lanes,
    .pools, .ports, .hosts, .dies, .mem, .ctx] s (State.finishSuperseded s z) := by
  unfold State.finishSuperseded
  repeat' first
    | exact rfl | with_reducible exact Keeps.refl _ _ | with_reducible assumption
    | with_reducible refine (State.dropApply_keeps _ _).then ?_ ?_
    | with_reducible refine (State.completeApply_keeps _ _ _).then ?_ ?_
    | with_reducible refine (State.countD0_keeps _ _ _ _).then ?_ ?_
    | with_reducible refine (State.writeResult_keeps _ _ _ _ _ _ _).then ?_ ?_ | with_reducible refine Keeps.ite ?_ ?_
    | extract_lets | split | dsimp +zetaDelta only

theorem State.startApply_keeps (s : State) (peer : Nat) (d : Nat) (unsched : Bool) (cmd : Option (List Nat)) : Keeps
    [.freeCtr, .regs, .mgmt, .counts, .lanes, .pools, .ports, .hosts, .dies, .mem, .ctx] s (State.startApply s peer
    d unsched cmd) := by
  unfold State.startApply
  repeat' first
    | exact rfl | with_reducible exact Keeps.refl _ _ | with_reducible assumption
    | with_reducible refine (State.finishSuperseded_keeps _ _).then ?_ ?_
    | with_reducible refine (State.dropIdent_keeps _ _).then ?_ ?_
    | with_reducible refine (State.nextApply_keeps _ _).then ?_ ?_
    | with_reducible refine (State.countD0_keeps _ _ _ _).then ?_ ?_
    | with_reducible refine (State.completeApply_keeps _ _ _).then ?_ ?_
    | with_reducible refine (State.writeResult_keeps _ _ _ _ _ _ _).then ?_ ?_ | exact Or.inr (by decide)
    | with_reducible exact Or.inl rfl | with_reducible exact id | with_reducible refine Keeps.ite ?_ ?_
    | with_reducible refine Keeps.each ?_ (fun _ _ _ => ?_) | extract_lets | split | with_reducible apply Keeps.upd
    | dsimp +zetaDelta only | with_reducible exact fun h => SMap.wf_set _ _ _ _ h
    | with_reducible exact fun h => SMap.rising_set _ _ _ _ h | with_reducible exact fun h => SMap.rising_drop _ _ h
    | with_reducible exact fun h => SMap.wf_setRun _ _ _ _ h
    | with_reducible exact fun h => SMap.wf_setRun _ _ _ _ (SMap.wf_setRun _ _ _ _ h)
    | with_reducible exact fun h => SMap.wf_fillRun _ _ _ _ _ h | with_reducible exact fun h => SMap.wf_drop _ _ _ h
    | with_reducible exact fun _ => SMap.wf_nil _ | with_reducible exact fun h => by simpa using h | exact id

theorem State.abortApplies_keeps (s : State) (p : Apply → Bool) (r : Nat) : Keeps [.freeCtr, .regs, .mgmt, .counts,
    .lanes, .pools, .ports, .hosts, .dies, .mem, .ctx] s (State.abortApplies s p r) := by
  unfold State.abortApplies
  repeat' first
    | exact rfl | with_reducible exact Keeps.refl _ _ | with_reducible assumption
    | with_reducible refine (State.endApply_keeps _ _ _).then ?_ ?_ | with_reducible refine Keeps.ite ?_ ?_
    | with_reducible refine Keeps.each ?_ (fun _ _ _ => ?_) | with_reducible refine Keeps.onlyIf ?_ (fun _ _ => ?_)
    | extract_lets | split | dsimp +zetaDelta only

theorem State.readRecords_keeps (s : State) (x : Apply) : Keeps [.regs, .counts, .ctx] s (State.readRecords s x).1
    := by
  have k : ∀ (u : State) (a : Nat) (bs : List MByte), Keeps [.ctx] u
      { u with ctx := { u.ctx with applyBuf := u.ctx.applyBuf.setRun .unwritten a bs } } := fun u a bs => by
      repeat' first
      | exact Or.inr (by decide)
      | with_reducible exact Or.inl rfl
      | with_reducible exact id
      | with_reducible exact fun h => SMap.wf_setRun _ _ _ _ h
      | with_reducible exact Keeps.refl _ _
      | with_reducible apply Keeps.upd
  unfold State.readRecords
  refine (k _ _ _).then rfl ?_
  split
  · exact Keeps.refl _ _
  · exact (State.readSlot_keeps _ _ _ _ _).weaken rfl

theorem State.noteReloc_keeps (s : State) (fixed : Bool) (slot : Nat) (peer : Nat) (desc : Nat) : Keeps [.ctx] s
    (State.noteReloc s fixed slot peer desc) := by
  unfold State.noteReloc
  repeat' first
    | exact rfl | with_reducible exact Keeps.refl _ _ | with_reducible assumption | exact Or.inr (by decide)
    | with_reducible exact Or.inl rfl | with_reducible exact id | with_reducible refine Keeps.ite ?_ ?_
    | with_reducible refine Keeps.onlyIf ?_ (fun _ _ => ?_) | extract_lets | split | with_reducible apply Keeps.upd
    | dsimp +zetaDelta only | with_reducible exact fun h => SMap.wf_set _ _ _ _ h
    | with_reducible exact fun h => SMap.rising_set _ _ _ _ h | with_reducible exact fun h => SMap.rising_drop _ _ h
    | with_reducible exact fun h => SMap.wf_setRun _ _ _ _ h
    | with_reducible exact fun h => SMap.wf_setRun _ _ _ _ (SMap.wf_setRun _ _ _ _ h)
    | with_reducible exact fun h => SMap.wf_fillRun _ _ _ _ _ h | with_reducible exact fun h => SMap.wf_drop _ _ _ h
    | with_reducible exact fun _ => SMap.wf_nil _ | with_reducible exact fun h => by simpa using h | exact id

theorem applyRecordsReadEffect_keeps (g : Fin 8) (s : State) : Keeps [.freeCtr, .regs, .mgmt, .counts, .lanes,
    .pools, .ports, .hosts, .dies, .mem, .ctx] s (applyRecordsReadEffect g s) := by
  unfold applyRecordsReadEffect
  repeat' first
    | exact rfl | with_reducible exact Keeps.refl _ _ | with_reducible assumption
    | with_reducible refine (State.readRecords_keeps _ _).then ?_ ?_
    | with_reducible refine (State.endApply_keeps _ _ _).then ?_ ?_
    | with_reducible refine (State.poisonUse_keeps _ _ _).then ?_ ?_
    | with_reducible refine (State.catchUp_keeps _).then ?_ ?_
    | with_reducible refine (State.noteReloc_keeps _ _ _ _ _).then ?_ ?_
    | with_reducible refine (State.replaceApply_keeps _ _ _).then ?_ ?_
    | with_reducible refine (State.onLane_keeps _ _ _).then ?_ ?_ | with_reducible refine Keeps.ite ?_ ?_
    | with_reducible refine Keeps.each ?_ (fun _ _ _ => ?_) | extract_lets | split | dsimp +zetaDelta only

theorem applyTransferDoneEffect_keeps (g : Fin 8) (s : State) : Keeps [.freeCtr, .regs, .mgmt, .counts, .lanes,
    .pools, .ports, .hosts, .dies, .mem, .ctx] s (applyTransferDoneEffect g s) := by
  unfold applyTransferDoneEffect
  repeat' first
    | exact rfl | with_reducible exact Keeps.refl _ _ | with_reducible assumption
    | with_reducible refine (State.endApply_keeps _ _ _).then ?_ ?_
    | with_reducible refine (State.replaceApply_keeps _ _ _).then ?_ ?_ | with_reducible refine Keeps.ite ?_ ?_
    | extract_lets | split | dsimp +zetaDelta only

theorem State.loadRxCh_keeps (s : State) (n : Nat) (ch : Nat) (fsk4 : Bool) : Keeps [.regs, .bcn] s (State.loadRxCh
    s n ch fsk4) := by
  unfold State.loadRxCh
  repeat' first
    | exact rfl | with_reducible exact Keeps.refl _ _ | with_reducible assumption
    | with_reducible refine (State.putB_keeps _ _ _).then ?_ ?_
    | with_reducible refine (State.put_keeps _ _ _).then ?_ ?_
    | with_reducible refine (State.setBcn_keeps _ _ _).then ?_ ?_ | with_reducible refine Keeps.ite ?_ ?_
    | extract_lets | split | dsimp +zetaDelta only

theorem State.loadBeacon_keeps (s : State) (n : Nat) (b : List Nat) : Keeps [.regs, .bcn] s (State.loadBeacon s n b)
    := by
  unfold State.loadBeacon
  repeat' first
    | exact rfl | with_reducible exact Keeps.refl _ _ | with_reducible assumption
    | with_reducible refine (State.loadRxCh_keeps _ _ _ _).then ?_ ?_ | with_reducible refine Keeps.ite ?_ ?_
    | extract_lets | split | dsimp +zetaDelta only

theorem State.takeContext_keeps (s : State) (n : Nat) (b : List Nat) (first : Bool) : Keeps [.freeCtr, .regs,
    .counts, .lanes, .pools, .ports, .hosts, .dies, .bcn] s (State.takeContext s n b first) := by
  unfold State.takeContext
  repeat' first
    | exact rfl | with_reducible exact Keeps.refl _ _ | with_reducible assumption
    | with_reducible refine (State.loadRx_keeps _ _ _ _ _).then ?_ ?_
    | with_reducible refine (State.lockGone_keeps _ _).then ?_ ?_
    | with_reducible refine (State.put_keeps _ _ _).then ?_ ?_
    | with_reducible refine (State.countLane_keeps _ _ _ _).then ?_ ?_
    | with_reducible refine (State.enterWarm_keeps _ _).then ?_ ?_
    | with_reducible refine (State.enterDark_keeps _ _ _).then ?_ ?_
    | with_reducible refine (State.onLane_keeps _ _ _).then ?_ ?_
    | with_reducible refine (State.loadBeacon_keeps _ _ _).then ?_ ?_
    | with_reducible refine (State.capEvent_keeps _ _ _ _).then ?_ ?_
    | with_reducible refine (State.loadEnds_keeps _ _).then ?_ ?_ | with_reducible refine Keeps.ite ?_ ?_
    | with_reducible refine Keeps.onlyIf ?_ (fun _ _ => ?_) | extract_lets | split | dsimp +zetaDelta only

theorem contextAppliedEffect_keeps (n : Lane) (s : State) : Keeps [.freeCtr, .regs, .mgmt, .counts, .lanes, .pools,
    .ports, .hosts, .dies, .bcn, .mem, .ctx] s (contextAppliedEffect n s) := by
  unfold contextAppliedEffect
  repeat' first
    | exact rfl | with_reducible exact Keeps.refl _ _ | with_reducible assumption
    | with_reducible refine (State.replaceApply_keeps _ _ _).then ?_ ?_
    | with_reducible refine (State.takeContext_keeps _ _ _ _).then ?_ ?_
    | with_reducible refine (State.endApply_keeps _ _ _).then ?_ ?_ | exact Or.inr (by decide)
    | with_reducible exact Or.inl rfl | with_reducible exact id | with_reducible refine Keeps.ite ?_ ?_
    | with_reducible refine Keeps.onlyIf ?_ (fun _ _ => ?_) | extract_lets | split | with_reducible apply Keeps.upd
    | dsimp +zetaDelta only | with_reducible exact fun h => SMap.wf_set _ _ _ _ h
    | with_reducible exact fun h => SMap.rising_set _ _ _ _ h | with_reducible exact fun h => SMap.rising_drop _ _ h
    | with_reducible exact fun h => SMap.wf_setRun _ _ _ _ h
    | with_reducible exact fun h => SMap.wf_setRun _ _ _ _ (SMap.wf_setRun _ _ _ _ h)
    | with_reducible exact fun h => SMap.wf_fillRun _ _ _ _ _ h | with_reducible exact fun h => SMap.wf_drop _ _ _ h
    | with_reducible exact fun _ => SMap.wf_nil _ | with_reducible exact fun h => by simpa using h | exact id

theorem State.joinIdent_keeps (s : State) (n : Nat) (tick : Nat) : Keeps [.regs, .counts, .lanes, .dies, .bcn, .ctx]
    s (State.joinIdent s n tick) := by
  unfold State.joinIdent
  repeat' first
    | exact rfl | with_reducible exact Keeps.refl _ _ | with_reducible assumption
    | with_reducible refine (State.setRx_keeps _ _ _).then ?_ ?_
    | with_reducible refine (State.loadRxCh_keeps _ _ _ _).then ?_ ?_
    | with_reducible refine (State.countD0_keeps _ _ _ _).then ?_ ?_ | exact Or.inr (by decide)
    | with_reducible exact Or.inl rfl | with_reducible exact id | with_reducible refine Keeps.ite ?_ ?_
    | with_reducible refine Keeps.onlyIf ?_ (fun _ _ => ?_) | extract_lets | split | with_reducible apply Keeps.upd
    | dsimp +zetaDelta only | with_reducible exact fun h => SMap.wf_set _ _ _ _ h
    | with_reducible exact fun h => SMap.rising_set _ _ _ _ h | with_reducible exact fun h => SMap.rising_drop _ _ h
    | with_reducible exact fun h => SMap.wf_setRun _ _ _ _ h
    | with_reducible exact fun h => SMap.wf_setRun _ _ _ _ (SMap.wf_setRun _ _ _ _ h)
    | with_reducible exact fun h => SMap.wf_fillRun _ _ _ _ _ h | with_reducible exact fun h => SMap.wf_drop _ _ _ h
    | with_reducible exact fun _ => SMap.wf_nil _ | with_reducible exact fun h => by simpa using h | exact id

theorem State.identify_keeps (s : State) (g : Nat) (peer : Nat) (tick : Nat) : Keeps [.freeCtr, .regs, .mgmt,
    .counts, .lanes, .pools, .ports, .hosts, .dies, .mem, .ctx] s (State.identify s g peer tick) := by
  unfold State.identify
  repeat' first
    | exact rfl | with_reducible exact Keeps.refl _ _ | with_reducible assumption
    | with_reducible refine (State.startApply_keeps _ _ _ _ _).then ?_ ?_
    | with_reducible refine (State.dropIdent_keeps _ _).then ?_ ?_ | exact Or.inr (by decide)
    | with_reducible exact Or.inl rfl | with_reducible exact id | with_reducible refine Keeps.ite ?_ ?_ | extract_lets
    | split | with_reducible apply Keeps.upd | dsimp +zetaDelta only
    | with_reducible exact fun h => SMap.wf_set _ _ _ _ h | with_reducible exact fun h => SMap.rising_set _ _ _ _ h
    | with_reducible exact fun h => SMap.rising_drop _ _ h | with_reducible exact fun h => SMap.wf_setRun _ _ _ _ h
    | with_reducible exact fun h => SMap.wf_setRun _ _ _ _ (SMap.wf_setRun _ _ _ _ h)
    | with_reducible exact fun h => SMap.wf_fillRun _ _ _ _ _ h | with_reducible exact fun h => SMap.wf_drop _ _ _ h
    | with_reducible exact fun _ => SMap.wf_nil _ | with_reducible exact fun h => by simpa using h | exact id

theorem State.leftIdwait_keeps (s : State) (g : Nat) : Keeps [.freeCtr, .regs, .mgmt, .counts, .lanes, .pools,
    .ports, .hosts, .dies, .mem, .ctx] s (State.leftIdwait s g) := by
  unfold State.leftIdwait
  repeat' first
    | exact rfl | with_reducible exact Keeps.refl _ _ | with_reducible assumption
    | with_reducible refine (State.nextApply_keeps _ _).then ?_ ?_
    | with_reducible refine (State.dropApply_keeps _ _).then ?_ ?_
    | with_reducible refine (State.dropIdent_keeps _ _).then ?_ ?_ | with_reducible refine Keeps.ite ?_ ?_
    | extract_lets | split | dsimp +zetaDelta only

theorem State.restartLane_keeps (s : State) (n : Nat) (own : Bool) : Keeps [.freeCtr, .regs, .mgmt, .counts, .lanes,
    .pools, .ports, .hosts, .dies, .mem, .ctx] s (State.restartLane s n own) := by
  unfold State.restartLane
  repeat' first
    | exact rfl | with_reducible exact Keeps.refl _ _ | with_reducible assumption
    | with_reducible refine (State.startLane_keeps _ _ _).then ?_ ?_
    | with_reducible refine (State.leftIdwait_keeps _ _).then ?_ ?_ | with_reducible refine Keeps.ite ?_ ?_
    | with_reducible refine Keeps.onlyIf ?_ (fun _ _ => ?_) | extract_lets | split | dsimp +zetaDelta only

theorem restartEffect_keeps (n : Lane) (s : State) : Keeps [.freeCtr, .regs, .mgmt, .counts, .lanes, .pools, .ports,
    .hosts, .dies, .mem, .ctx] s (restartEffect n s) := by
  unfold restartEffect
  repeat' first
    | exact rfl | with_reducible exact Keeps.refl _ _ | with_reducible assumption
    | with_reducible refine (State.onLane_keeps _ _ _).then ?_ ?_
    | with_reducible refine (State.restartLane_keeps _ _ _).then ?_ ?_ | with_reducible refine Keeps.ite ?_ ?_
    | extract_lets | split | dsimp +zetaDelta only

theorem presetLoadEffect_keeps (n : Lane) (s : State) : Keeps [.freeCtr, .regs, .mgmt, .counts, .lanes, .pools,
    .ports, .hosts, .dies, .mem, .ctx] s (presetLoadEffect n s) := by
  unfold presetLoadEffect
  repeat' first
    | exact rfl | with_reducible exact Keeps.refl _ _ | with_reducible assumption
    | with_reducible refine (State.onLane_keeps _ _ _).then ?_ ?_
    | with_reducible refine (State.restartLane_keeps _ _ _).then ?_ ?_ | with_reducible refine Keeps.ite ?_ ?_
    | extract_lets | split | dsimp +zetaDelta only

theorem idTimeoutEffect_keeps (g : Fin 8) (s : State) : Keeps [.regs, .counts, .lanes, .pools, .dies, .ctx] s
    (idTimeoutEffect g s) := by
  unfold idTimeoutEffect
  repeat' first
    | exact rfl | with_reducible exact Keeps.refl _ _ | with_reducible assumption
    | with_reducible refine (State.settleIdent_keeps _ _ _).then ?_ ?_
    | with_reducible refine (State.countD0_keeps _ _ _ _).then ?_ ?_
    | with_reducible refine (State.writeResult_keeps _ _ _ _ _ _ _).then ?_ ?_
    | with_reducible refine (State.dropIdent_keeps _ _).then ?_ ?_ | with_reducible refine Keeps.ite ?_ ?_
    | extract_lets | split | dsimp +zetaDelta only

end Sys2Proof.Machine
end

