-- ==== Sys2Proof/Laws/KeepsBeaconRx.lean ====
section
/-!
SUPPORT. What each operation of Machine/BeaconRx.lean leaves unchanged, and that it keeps the canonical form.
-/

namespace Sys2Proof.Machine

open Sys2Proof

theorem rxChLoadEffect_keeps (n : Lane) (ch : BitVec 4) (fsk4 : Bool) (s : State) : Keeps [.regs, .bcn] s
    (rxChLoadEffect n ch fsk4 s) := by
  unfold rxChLoadEffect
  repeat' first
    | exact rfl | with_reducible exact Keeps.refl _ _ | with_reducible assumption
    | with_reducible refine (State.loadRxCh_keeps _ _ _ _).then ?_ ?_ | with_reducible refine Keeps.ite ?_ ?_
    | extract_lets | split | dsimp +zetaDelta only

theorem noiseWindowEndEffect_keeps (n : Lane) (meanSq : Nat) (s : State) : Keeps [.regs, .bcn] s
    (noiseWindowEndEffect n meanSq s) := by
  unfold noiseWindowEndEffect
  repeat' first
    | exact rfl | with_reducible exact Keeps.refl _ _ | with_reducible assumption
    | with_reducible refine (State.addTo_keeps _ _ _).then ?_ ?_
    | with_reducible refine (State.putZ_keeps _ _ _).then ?_ ?_
    | with_reducible refine (State.setBcn_keeps _ _ _).then ?_ ?_ | with_reducible refine Keeps.ite ?_ ?_
    | with_reducible refine Keeps.onlyIf ?_ (fun _ _ => ?_) | extract_lets | split | dsimp +zetaDelta only

theorem State.beginFrame_keeps (s : State) (n : Nat) (full : Bool) (rssi : Int) : Keeps [.regs, .bcn] s
    (State.beginFrame s n full rssi) := by
  unfold State.beginFrame
  repeat' first
    | exact rfl | with_reducible exact Keeps.refl _ _ | with_reducible assumption
    | with_reducible refine (State.put_keeps _ _ _).then ?_ ?_
    | with_reducible refine (State.setBcn_keeps _ _ _).then ?_ ?_ | with_reducible refine Keeps.ite ?_ ?_
    | extract_lets | split | dsimp +zetaDelta only

theorem beaconDetectionEffect_keeps (n : Lane) (meanSq : Nat) (hard : BitVec 32) (s : State) : Keeps [.regs, .bcn] s
    (beaconDetectionEffect n meanSq hard s) := by
  unfold beaconDetectionEffect
  repeat' first
    | exact rfl | with_reducible exact Keeps.refl _ _ | with_reducible assumption
    | with_reducible refine (State.beginFrame_keeps _ _ _ _).then ?_ ?_
    | with_reducible refine (State.addTo_keeps _ _ _).then ?_ ?_
    | with_reducible refine (State.raiseLane_keeps _ _ _).then ?_ ?_ | with_reducible refine Keeps.ite ?_ ?_
    | extract_lets | split | dsimp +zetaDelta only

theorem State.latchFrame_keeps (s : State) (n : Nat) (f : RxFrame) (b : List Nat) : Keeps [.regs, .counts] s
    (State.latchFrame s n f b) := by
  unfold State.latchFrame
  repeat' first
    | exact rfl | with_reducible exact Keeps.refl _ _ | with_reducible assumption
    | with_reducible refine (State.put_keeps _ _ _).then ?_ ?_
    | with_reducible refine (State.putB_keeps _ _ _).then ?_ ?_
    | with_reducible refine (State.putZ_keeps _ _ _).then ?_ ?_
    | with_reducible refine (State.addTo_keeps _ _ _).then ?_ ?_
    | with_reducible refine (State.countLane_keeps _ _ _ _).then ?_ ?_
    | with_reducible refine (State.raiseLane_keeps _ _ _).then ?_ ?_ | with_reducible refine Keeps.ite ?_ ?_
    | with_reducible refine Keeps.onlyIf ?_ (fun _ _ => ?_) | extract_lets | split | dsimp +zetaDelta only

theorem beaconReportEffect_keeps (n : Lane) (symbols : List (BitVec 2)) (s : State) : Keeps [.freeCtr, .regs, .mgmt,
    .counts, .lanes, .pools, .ports, .hosts, .dies, .bcn, .mem, .ctx] s (beaconReportEffect n symbols s) := by
  unfold beaconReportEffect
  repeat' first
    | exact rfl | with_reducible exact Keeps.refl _ _ | with_reducible assumption
    | with_reducible refine (State.put_keeps _ _ _).then ?_ ?_
    | with_reducible refine (State.setBcn_keeps _ _ _).then ?_ ?_
    | with_reducible refine (State.identify_keeps _ _ _ _).then ?_ ?_
    | with_reducible refine (State.latchFrame_keeps _ _ _ _).then ?_ ?_
    | with_reducible refine (State.addTo_keeps _ _ _).then ?_ ?_
    | with_reducible refine (State.raiseLane_keeps _ _ _).then ?_ ?_ | with_reducible refine Keeps.ite ?_ ?_
    | extract_lets | split | dsimp +zetaDelta only

theorem envCrossingEffect_keeps (n : Lane) (current : Nat) (s : State) : Keeps [.regs, .lanes] s (envCrossingEffect
    n current s) := by
  unfold envCrossingEffect
  repeat' first
    | exact rfl | with_reducible exact Keeps.refl _ _ | with_reducible assumption
    | with_reducible refine (State.onLane_keeps _ _ _).then ?_ ?_
    | with_reducible refine (State.putB_keeps _ _ _).then ?_ ?_ | with_reducible refine Keeps.ite ?_ ?_ | extract_lets
    | split | dsimp +zetaDelta only

theorem State.setLight_keeps (s : State) (n : Nat) (on : Bool) (tick : Nat) : Keeps [.regs, .lanes] s
    (State.setLight s n on tick) := by
  unfold State.setLight
  repeat' first
    | exact rfl | with_reducible exact Keeps.refl _ _ | with_reducible assumption
    | with_reducible refine (State.putB_keeps _ _ _).then ?_ ?_
    | with_reducible refine (State.put_keeps _ _ _).then ?_ ?_
    | with_reducible refine (State.raiseLane_keeps _ _ _).then ?_ ?_
    | with_reducible refine (State.onLane_keeps _ _ _).then ?_ ?_ | with_reducible refine Keeps.ite ?_ ?_
    | extract_lets | split | dsimp +zetaDelta only

theorem State.lightUp_keeps (s : State) (n : Nat) (tick : Nat) : Keeps [.regs, .counts, .lanes, .pools, .dies, .bcn,
    .ctx] s (State.lightUp s n tick) := by
  unfold State.lightUp
  repeat' first
    | exact rfl | with_reducible exact Keeps.refl _ _ | with_reducible assumption
    | with_reducible refine (State.joinIdent_keeps _ _ _).then ?_ ?_
    | with_reducible refine (State.enterWarm_keeps _ _).then ?_ ?_
    | with_reducible refine (State.enterGain_keeps _ _ _).then ?_ ?_ | with_reducible refine Keeps.ite ?_ ?_
    | extract_lets | split | dsimp +zetaDelta only

theorem State.parkWake_keeps (s : State) (n : Nat) : Keeps [.power] s (State.parkWake s n) := by
  unfold State.parkWake
  repeat' first
    | exact rfl | with_reducible exact Keeps.refl _ _ | with_reducible assumption | exact Or.inr (by decide)
    | with_reducible exact Or.inl rfl | with_reducible exact id | with_reducible refine Keeps.ite ?_ ?_ | extract_lets
    | split | with_reducible apply Keeps.upd | dsimp +zetaDelta only
    | with_reducible exact fun h => SMap.wf_set _ _ _ _ h | with_reducible exact fun h => SMap.rising_set _ _ _ _ h
    | with_reducible exact fun h => SMap.rising_drop _ _ h | with_reducible exact fun h => SMap.wf_setRun _ _ _ _ h
    | with_reducible exact fun h => SMap.wf_setRun _ _ _ _ (SMap.wf_setRun _ _ _ _ h)
    | with_reducible exact fun h => SMap.wf_fillRun _ _ _ _ _ h | with_reducible exact fun h => SMap.wf_drop _ _ _ h
    | with_reducible exact fun _ => SMap.wf_nil _ | with_reducible exact fun h => by simpa using h | exact id

theorem lightOnEffect_keeps (n : Lane) (s : State) : Keeps [.regs, .counts, .lanes, .pools, .dies, .power, .bcn,
    .ctx] s (lightOnEffect n s) := by
  unfold lightOnEffect
  repeat' first
    | exact rfl | with_reducible exact Keeps.refl _ _ | with_reducible assumption
    | with_reducible refine (State.countLane_keeps _ _ _ _).then ?_ ?_
    | with_reducible refine (State.setLight_keeps _ _ _ _).then ?_ ?_
    | with_reducible refine (State.parkWake_keeps _ _).then ?_ ?_
    | with_reducible refine (State.lightUp_keeps _ _ _).then ?_ ?_
    | with_reducible refine (State.capEvent_keeps _ _ _ _).then ?_ ?_ | with_reducible refine Keeps.ite ?_ ?_
    | extract_lets | split | dsimp +zetaDelta only

theorem State.lightDown_keeps (s : State) (n : Nat) : Keeps [.freeCtr, .regs, .mgmt, .counts, .lanes, .pools,
    .ports, .hosts, .dies, .bcn, .mem, .ctx] s (State.lightDown s n) := by
  unfold State.lightDown
  repeat' first
    | exact rfl | with_reducible exact Keeps.refl _ _ | with_reducible assumption
    | with_reducible refine (State.put_keeps _ _ _).then ?_ ?_
    | with_reducible refine (State.setBcn_keeps _ _ _).then ?_ ?_
    | with_reducible refine (State.enterDark_keeps _ _ _).then ?_ ?_
    | with_reducible refine (State.lockGone_keeps _ _).then ?_ ?_
    | with_reducible refine (State.leftIdwait_keeps _ _).then ?_ ?_ | exact Or.inr (by decide)
    | with_reducible exact Or.inl rfl | with_reducible exact id | with_reducible refine Keeps.ite ?_ ?_
    | with_reducible refine Keeps.onlyIf ?_ (fun _ _ => ?_) | extract_lets | split | with_reducible apply Keeps.upd
    | dsimp +zetaDelta only | with_reducible exact fun h => SMap.wf_set _ _ _ _ h
    | with_reducible exact fun h => SMap.rising_set _ _ _ _ h | with_reducible exact fun h => SMap.rising_drop _ _ h
    | with_reducible exact fun h => SMap.wf_setRun _ _ _ _ h
    | with_reducible exact fun h => SMap.wf_setRun _ _ _ _ (SMap.wf_setRun _ _ _ _ h)
    | with_reducible exact fun h => SMap.wf_fillRun _ _ _ _ _ h | with_reducible exact fun h => SMap.wf_drop _ _ _ h
    | with_reducible exact fun _ => SMap.wf_nil _ | with_reducible exact fun h => by simpa using h | exact id

theorem lightOffEffect_keeps (n : Lane) (s : State) : Keeps [.freeCtr, .regs, .mgmt, .counts, .lanes, .pools,
    .ports, .hosts, .dies, .bcn, .mem, .ctx] s (lightOffEffect n s) := by
  unfold lightOffEffect
  repeat' first
    | exact rfl | with_reducible exact Keeps.refl _ _ | with_reducible assumption
    | with_reducible refine (State.capEvent_keeps _ _ _ _).then ?_ ?_
    | with_reducible refine (State.lightDown_keeps _ _).then ?_ ?_
    | with_reducible refine (State.setLight_keeps _ _ _ _).then ?_ ?_ | with_reducible refine Keeps.ite ?_ ?_
    | extract_lets | split | dsimp +zetaDelta only

end Sys2Proof.Machine
end

