-- ==== Sys2Proof/Laws/KeepsCal.lean ====
section
/-!
SUPPORT. What each operation of Machine/Cal.lean leaves unchanged, and that it keeps the canonical form.
-/

namespace Sys2Proof.Machine

open Sys2Proof

theorem State.mramScan_keeps (s : State) (a : Nat) (n : Nat) : Keeps [.regs] s (State.mramScan s a n) := by
  unfold State.mramScan
  repeat' first
    | exact rfl | with_reducible exact Keeps.refl _ _ | with_reducible assumption
    | with_reducible refine (State.addTo_keeps _ _ _).then ?_ ?_
    | with_reducible refine (State.raise_keeps _ _).then ?_ ?_ | with_reducible refine Keeps.ite ?_ ?_
    | with_reducible refine Keeps.onlyIf ?_ (fun _ _ => ?_) | extract_lets | split | dsimp +zetaDelta only

theorem State.mramUpsets_keeps (s : State) (a : Nat) (es : List (Nat × WordErr)) : Keeps [.mram] s (State.mramUpsets
    s a es) := by
  unfold State.mramUpsets
  repeat' first
    | exact Or.inr (by decide)
    | with_reducible exact Or.inl rfl
    | with_reducible exact id
    | with_reducible exact Keeps.refl _ _
    | exact fun h => SMap.wf_foldl _ _ _ _ (fun _ _ g => SMap.wf_set _ _ _ _ g) h
    | with_reducible apply Keeps.upd

theorem State.mramWrite_keeps (s : State) (a : Nat) (bs : List Nat) : Keeps [.mram] s (State.mramWrite s a bs) := by
  unfold State.mramWrite
  repeat' first
    | exact Or.inr (by decide)
    | with_reducible exact Or.inl rfl
    | with_reducible exact id
    | with_reducible exact Keeps.refl _ _
    | exact fun h => SMap.wf_setRun _ _ _ _ h
    | exact fun h => SMap.wf_filter _ _ _ h
    | with_reducible apply Keeps.upd

theorem State.calRead_keeps (s : State) (copy : Nat) : Keeps [.regs] s (State.calRead s copy) := by
  unfold State.calRead
  repeat' first
    | exact rfl | with_reducible exact Keeps.refl _ _ | with_reducible assumption
    | with_reducible refine (State.mramScan_keeps _ _ _).then ?_ ?_
    | with_reducible refine (State.poisonUse_keeps _ _ _).then ?_ ?_ | with_reducible refine Keeps.ite ?_ ?_
    | with_reducible refine Keeps.onlyIf ?_ (fun _ _ => ?_) | extract_lets | split | dsimp +zetaDelta only

theorem State.applyCal_keeps (s : State) (m : SMap Int) : Keeps [.loader, .cal] s (State.applyCal s m) := by
  unfold State.applyCal
  repeat' first
    | exact rfl | with_reducible exact Keeps.refl _ _ | with_reducible assumption | exact Or.inr (by decide)
    | with_reducible exact Or.inl rfl | with_reducible exact id | with_reducible refine Keeps.ite ?_ ?_ | extract_lets
    | split | with_reducible apply Keeps.upd | dsimp +zetaDelta only
    | with_reducible exact fun h => SMap.wf_set _ _ _ _ h | with_reducible exact fun h => SMap.rising_set _ _ _ _ h
    | with_reducible exact fun h => SMap.rising_drop _ _ h | with_reducible exact fun h => SMap.wf_setRun _ _ _ _ h
    | with_reducible exact fun h => SMap.wf_setRun _ _ _ _ (SMap.wf_setRun _ _ _ _ h)
    | with_reducible exact fun h => SMap.wf_fillRun _ _ _ _ _ h | with_reducible exact fun h => SMap.wf_drop _ _ _ h
    | with_reducible exact fun _ => SMap.wf_nil _ | with_reducible exact fun h => by simpa using h | exact id

theorem State.settleCal_keeps (s : State) : Keeps [.loader, .cal] s (State.settleCal s) := by
  unfold State.settleCal
  repeat' first
    | exact rfl | with_reducible exact Keeps.refl _ _ | with_reducible assumption | exact Or.inr (by decide)
    | with_reducible exact Or.inl rfl | with_reducible exact id | with_reducible refine Keeps.ite ?_ ?_ | extract_lets
    | split | with_reducible apply Keeps.upd | dsimp +zetaDelta only
    | with_reducible exact fun h => SMap.wf_set _ _ _ _ h | with_reducible exact fun h => SMap.rising_set _ _ _ _ h
    | with_reducible exact fun h => SMap.rising_drop _ _ h | with_reducible exact fun h => SMap.wf_setRun _ _ _ _ h
    | with_reducible exact fun h => SMap.wf_setRun _ _ _ _ (SMap.wf_setRun _ _ _ _ h)
    | with_reducible exact fun h => SMap.wf_fillRun _ _ _ _ _ h | with_reducible exact fun h => SMap.wf_drop _ _ _ h
    | with_reducible exact fun _ => SMap.wf_nil _ | with_reducible exact fun h => by simpa using h | exact id

theorem State.calCheck_keeps (s : State) : Keeps [.regs] s (State.calCheck s).1 := by
  unfold State.calCheck
  repeat' first
    | exact rfl | with_reducible exact Keeps.refl _ _ | with_reducible assumption
    | with_reducible refine (State.calRead_keeps _ _).then ?_ ?_ | with_reducible refine Keeps.ite ?_ ?_
    | extract_lets | split | dsimp +zetaDelta only

theorem State.useCal_keeps (s : State) (src : Nat) (m : SMap Int) : Keeps [.regs, .loader, .cal] s (State.useCal s
    src m) := by
  unfold State.useCal
  repeat' first
    | exact rfl | with_reducible exact Keeps.refl _ _ | with_reducible assumption
    | with_reducible refine (State.applyCal_keeps _ _).then ?_ ?_
    | with_reducible refine (State.put_keeps _ _ _).then ?_ ?_
    | with_reducible refine (State.raise_keeps _ _).then ?_ ?_ | with_reducible refine Keeps.ite ?_ ?_
    | with_reducible refine Keeps.onlyIf ?_ (fun _ _ => ?_) | extract_lets | split | dsimp +zetaDelta only

theorem State.calAtReset_keeps (s : State) : Keeps [.regs, .loader, .cal] s (State.calAtReset s) := by
  have k : ∀ u : State, Keeps [.cal] u { u with cal := [] } := fun u => by
    repeat' first
    | exact Or.inr (by decide)
    | with_reducible exact Or.inl rfl
    | with_reducible exact id
    | with_reducible exact Keeps.refl _ _
    | with_reducible apply Keeps.upd
  have h := State.calCheck_keeps s
  unfold State.calAtReset
  split
  · rename_i heq
    exact (State.useCal_keeps _ _ _).then rfl ((h.fst heq).weaken rfl)
  · rename_i heq
    exact (State.raise_keeps _ _).then rfl ((State.put_keeps _ _ _).then rfl ((k _).then rfl ((h.fst heq).weaken rfl)))

theorem State.reloadCal_keeps (s : State) : Keeps [.regs, .loader, .cal] s (State.reloadCal s) := by
  have h := State.calCheck_keeps s
  unfold State.reloadCal
  split
  · rename_i heq
    exact (State.useCal_keeps _ _ _).then rfl ((h.fst heq).weaken rfl)
  · rename_i heq
    exact (State.raise_keeps _ _).then rfl ((h.fst heq).weaken rfl)

theorem State.calUpsets_keeps (s : State) (primary : List (Nat × WordErr)) (mirror : List (Nat × WordErr)) : Keeps
    [.mram] s (State.calUpsets s primary mirror) := by
  unfold State.calUpsets
  repeat' first
    | exact rfl | with_reducible exact Keeps.refl _ _ | with_reducible assumption
    | with_reducible refine (State.mramUpsets_keeps _ _ _).then ?_ ?_ | with_reducible refine Keeps.ite ?_ ?_
    | extract_lets | split | dsimp +zetaDelta only

theorem reloadEffect_keeps (primary : List (Nat × WordErr)) (mirror : List (Nat × WordErr)) (s : State) : Keeps
    [.regs, .loader, .mram, .cal] s (reloadEffect primary mirror s) := by
  unfold reloadEffect
  repeat' first
    | exact rfl | with_reducible exact Keeps.refl _ _ | with_reducible assumption
    | with_reducible refine (State.reloadCal_keeps _).then ?_ ?_
    | with_reducible refine (State.calUpsets_keeps _ _ _).then ?_ ?_ | with_reducible refine Keeps.ite ?_ ?_
    | extract_lets | split | dsimp +zetaDelta only

end Sys2Proof.Machine
end

