-- ==== Sys2Proof/Laws/KeepsContext.lean ====
section
/-!
SUPPORT. What each operation of Machine/Context.lean leaves unchanged, and that it keeps the canonical form.
-/

namespace Sys2Proof.Machine

open Sys2Proof

theorem State.endCtx_keeps (s : State) (w : List Nat) (st : Status) (r0 : Nat) : Keeps [.regs, .mgmt, .ctx] s
    (State.endCtx s w st r0) := by
  unfold State.endCtx
  repeat' first
    | exact rfl | with_reducible exact Keeps.refl _ _ | with_reducible assumption
    | with_reducible refine (State.complete_keeps _ _ _ _ _ _ _).then ?_ ?_ | exact Or.inr (by decide)
    | with_reducible exact Or.inl rfl | with_reducible exact id | with_reducible refine Keeps.ite ?_ ?_ | extract_lets
    | split | with_reducible apply Keeps.upd | dsimp +zetaDelta only
    | with_reducible exact fun h => SMap.wf_set _ _ _ _ h | with_reducible exact fun h => SMap.rising_set _ _ _ _ h
    | with_reducible exact fun h => SMap.rising_drop _ _ h | with_reducible exact fun h => SMap.wf_setRun _ _ _ _ h
    | with_reducible exact fun h => SMap.wf_setRun _ _ _ _ (SMap.wf_setRun _ _ _ _ h)
    | with_reducible exact fun h => SMap.wf_fillRun _ _ _ _ _ h | with_reducible exact fun h => SMap.wf_drop _ _ _ h
    | with_reducible exact fun _ => SMap.wf_nil _ | with_reducible exact fun h => by simpa using h | exact id

theorem State.endPoison_keeps (s : State) (w : List Nat) : Keeps [.regs, .mgmt, .ctx] s (State.endPoison s w) := by
  unfold State.endPoison
  repeat' first
    | exact rfl | with_reducible exact Keeps.refl _ _ | with_reducible assumption
    | with_reducible refine (State.endCtx_keeps _ _ _ _).then ?_ ?_
    | with_reducible refine (State.poisonUse_keeps _ _ _).then ?_ ?_ | with_reducible refine Keeps.ite ?_ ?_
    | extract_lets | split | dsimp +zetaDelta only

theorem State.ctxCmd_keeps {ps : List Part} {s0 : State} (s : State) (opcode op : Nat) (usesMem : Bool)
    (f : List Nat → Nat → Nat → State) (hs : subParts [.regs, .mgmt, .ctx] ps = true) (h : Keeps ps s0 s)
    (hf : ∀ w a b, Keeps ps s0 (f w a b)) : Keeps ps s0 (s.ctxCmd opcode op usesMem f) := by
  unfold State.ctxCmd
  split
  · refine Keeps.ite (Keeps.ite ?_ (Keeps.ite ?_ (hf _ _ _))) h
    · exact (State.endCtx_keeps _ _ _ _).then hs h
    · exact (State.endCtx_keeps _ _ _ _).then hs h
  · exact h

theorem State.moveLine_keeps (s : State) (a : Nat) (b : Nat) (img : List Nat) : Keeps [.ctx] s (State.moveLine s a b
    img) := by
  unfold State.moveLine
  repeat' first
    | exact rfl | with_reducible exact Keeps.refl _ _ | with_reducible assumption
    | with_reducible refine (State.setLine_keeps _ _ _).then ?_ ?_ | exact Or.inr (by decide)
    | with_reducible exact Or.inl rfl | with_reducible exact id | with_reducible refine Keeps.ite ?_ ?_ | extract_lets
    | split | with_reducible apply Keeps.upd | dsimp +zetaDelta only
    | with_reducible exact fun h => SMap.wf_set _ _ _ _ h | with_reducible exact fun h => SMap.rising_set _ _ _ _ h
    | with_reducible exact fun h => SMap.rising_drop _ _ h | with_reducible exact fun h => SMap.wf_setRun _ _ _ _ h
    | with_reducible exact fun h => SMap.wf_setRun _ _ _ _ (SMap.wf_setRun _ _ _ _ h)
    | with_reducible exact fun h => SMap.wf_fillRun _ _ _ _ _ h | with_reducible exact fun h => SMap.wf_drop _ _ _ h
    | with_reducible exact fun _ => SMap.wf_nil _ | with_reducible exact fun h => by simpa using h | exact id

theorem State.storeImage_keeps (s : State) (w : List Nat) (peer : Nat) (d : Nat) (img : List Nat) : Keeps [.regs,
    .mgmt, .counts, .mem, .ctx] s (State.storeImage s w peer d img) := by
  have k : ∀ (u : State) (c : CtxSt) (x : SMap Bool), SameMems u.ctx c →
      Keeps [.ctx] u { u with ctx := { c with used := x } } := fun u c x h => by
    repeat' first
    | exact Or.inr (by decide)
    | with_reducible exact Or.inl rfl
    | with_reducible exact id
    | with_reducible exact Keeps.refl _ _
    | with_reducible apply Keeps.upd
    | exact fun g => by rw [h.lineMem]; exact g
    | exact fun g => by rw [h.buf]; exact g
    | exact fun g => by rw [h.applyBuf]; exact g
  have cc : ∀ (u : State) (a b m : Nat), (u.countD0 a b m).ctx = u.ctx := fun u a b m =>
    (State.countD0_keeps u a b m).same .ctx (by decide)
  unfold State.storeImage
  repeat' first
    | exact rfl
    | with_reducible exact Keeps.refl _ _
    | with_reducible refine (State.looked_keeps _).then ?_ ?_
    | with_reducible refine (State.endPoison_keeps _ _).then ?_ ?_
    | with_reducible refine (State.endCtx_keeps _ _ _ _).then ?_ ?_
    | with_reducible refine (State.raise_keeps _ _).then ?_ ?_
    | with_reducible refine (State.writeSlot_keeps _ _ _).then ?_ ?_
    | with_reducible refine (State.moveLine_keeps _ _ _ _).then ?_ ?_
    | with_reducible refine (State.staleSlot_keeps _ _).then ?_ ?_
    | with_reducible refine (State.freeSlotAt_keeps _ _).then ?_ ?_
    | with_reducible refine (State.countD0_keeps _ _ _ _).then ?_ ?_
    | with_reducible refine Keeps.ite ?_ ?_
    | extract_lets
    | split
    | dsimp +zetaDelta only
  all_goals
    refine (k _ _ _ ?_).then rfl ?_
    · rw [cc, cc]
      exact CtxSt.insert_sameMems _ _ _ _ _ (by assumption)
    · exact (State.countD0_keeps _ _ _ _).then rfl ((State.countD0_keeps _ _ _ _).then rfl ((State.looked_keeps _).weaken rfl))

theorem storeBufferEffect_keeps (s : State) : Keeps [.regs, .mgmt, .counts, .mem, .ctx] s (storeBufferEffect s) :=
    by
  unfold storeBufferEffect
  repeat' first
    | exact rfl | with_reducible exact Keeps.refl _ _ | with_reducible assumption
    | with_reducible refine State.ctxCmd_keeps _ _ _ _ _ ?_ ?_ (fun _ _ _ => ?_)
    | with_reducible refine (State.endPoison_keeps _ _).then ?_ ?_
    | with_reducible refine (State.parity_keeps _ _).then ?_ ?_
    | with_reducible refine (State.storeImage_keeps _ _ _ _ _).then ?_ ?_
    | with_reducible refine (State.endCtx_keeps _ _ _ _).then ?_ ?_ | with_reducible refine Keeps.ite ?_ ?_
    | extract_lets | split | dsimp +zetaDelta only

theorem storeLiveEffect_keeps (s : State) : Keeps [.regs, .mgmt, .counts, .mem, .ctx] s (storeLiveEffect s) := by
  unfold storeLiveEffect
  repeat' first
    | exact rfl | with_reducible exact Keeps.refl _ _ | with_reducible assumption
    | with_reducible refine State.ctxCmd_keeps _ _ _ _ _ ?_ ?_ (fun _ _ _ => ?_)
    | with_reducible refine (State.endCtx_keeps _ _ _ _).then ?_ ?_
    | with_reducible refine (State.storeImage_keeps _ _ _ _ _).then ?_ ?_ | with_reducible refine Keeps.ite ?_ ?_
    | extract_lets | split | dsimp +zetaDelta only

theorem removeEffect_keeps (s : State) : Keeps [.regs, .mgmt, .counts, .ctx] s (removeEffect s) := by
  unfold removeEffect
  repeat' first
    | exact rfl | with_reducible exact Keeps.refl _ _ | with_reducible assumption
    | with_reducible refine State.ctxCmd_keeps _ _ _ _ _ ?_ ?_ (fun _ _ _ => ?_)
    | with_reducible refine (State.looked_keeps _).then ?_ ?_
    | with_reducible refine (State.endCtx_keeps _ _ _ _).then ?_ ?_
    | with_reducible refine (State.endPoison_keeps _ _).then ?_ ?_
    | with_reducible refine (State.freeSlotAt_keeps _ _).then ?_ ?_ | exact Or.inr (by decide)
    | with_reducible exact Or.inl rfl | with_reducible exact id | with_reducible refine Keeps.ite ?_ ?_ | extract_lets
    | split | with_reducible apply Keeps.upd | dsimp +zetaDelta only
    | with_reducible exact fun h => SMap.wf_set _ _ _ _ h | with_reducible exact fun h => SMap.rising_set _ _ _ _ h
    | with_reducible exact fun h => SMap.rising_drop _ _ h | with_reducible exact fun h => SMap.wf_setRun _ _ _ _ h
    | with_reducible exact fun h => SMap.wf_setRun _ _ _ _ (SMap.wf_setRun _ _ _ _ h)
    | with_reducible exact fun h => SMap.wf_fillRun _ _ _ _ _ h | with_reducible exact fun h => SMap.wf_drop _ _ _ h
    | with_reducible exact fun _ => SMap.wf_nil _ | with_reducible exact fun h => by simpa using h | exact id

theorem State.pinLines_keeps (s : State) (j : Nat) (on : Bool) : Keeps [.ctx] s (State.pinLines s j on) := by
  unfold State.pinLines
  repeat' first
    | exact rfl | with_reducible exact Keeps.refl _ _ | with_reducible assumption | exact Or.inr (by decide)
    | with_reducible exact Or.inl rfl | with_reducible exact id | with_reducible refine Keeps.ite ?_ ?_ | extract_lets
    | split | with_reducible apply Keeps.upd | dsimp +zetaDelta only
    | with_reducible exact fun h => SMap.wf_set _ _ _ _ h | with_reducible exact fun h => SMap.rising_set _ _ _ _ h
    | with_reducible exact fun h => SMap.rising_drop _ _ h | with_reducible exact fun h => SMap.wf_setRun _ _ _ _ h
    | with_reducible exact fun h => SMap.wf_setRun _ _ _ _ (SMap.wf_setRun _ _ _ _ h)
    | with_reducible exact fun h => SMap.wf_fillRun _ _ _ _ _ h | with_reducible exact fun h => SMap.wf_drop _ _ _ h
    | with_reducible exact fun _ => SMap.wf_nil _ | with_reducible exact fun h => by simpa using h | exact id

theorem pinEffect_keeps (s : State) : Keeps [.regs, .mgmt, .counts, .ctx] s (pinEffect s) := by
  unfold pinEffect
  repeat' first
    | exact rfl | with_reducible exact Keeps.refl _ _ | with_reducible assumption
    | with_reducible refine State.ctxCmd_keeps _ _ _ _ _ ?_ ?_ (fun _ _ _ => ?_)
    | with_reducible refine (State.looked_keeps _).then ?_ ?_
    | with_reducible refine (State.endCtx_keeps _ _ _ _).then ?_ ?_
    | with_reducible refine (State.endPoison_keeps _ _).then ?_ ?_
    | with_reducible refine (State.pinLines_keeps _ _ _).then ?_ ?_
    | with_reducible refine (State.beginFill_keeps _ _ _ _ _).then ?_ ?_ | exact Or.inr (by decide)
    | with_reducible exact Or.inl rfl | with_reducible exact id | with_reducible refine Keeps.ite ?_ ?_ | extract_lets
    | split | with_reducible apply Keeps.upd | dsimp +zetaDelta only
    | with_reducible exact fun h => SMap.wf_set _ _ _ _ h | with_reducible exact fun h => SMap.rising_set _ _ _ _ h
    | with_reducible exact fun h => SMap.rising_drop _ _ h | with_reducible exact fun h => SMap.wf_setRun _ _ _ _ h
    | with_reducible exact fun h => SMap.wf_setRun _ _ _ _ (SMap.wf_setRun _ _ _ _ h)
    | with_reducible exact fun h => SMap.wf_fillRun _ _ _ _ _ h | with_reducible exact fun h => SMap.wf_drop _ _ _ h
    | with_reducible exact fun _ => SMap.wf_nil _ | with_reducible exact fun h => by simpa using h | exact id

theorem unpinEffect_keeps (s : State) : Keeps [.regs, .mgmt, .counts, .ctx] s (unpinEffect s) := by
  unfold unpinEffect
  repeat' first
    | exact rfl | with_reducible exact Keeps.refl _ _ | with_reducible assumption
    | with_reducible refine State.ctxCmd_keeps _ _ _ _ _ ?_ ?_ (fun _ _ _ => ?_)
    | with_reducible refine (State.looked_keeps _).then ?_ ?_
    | with_reducible refine (State.endCtx_keeps _ _ _ _).then ?_ ?_
    | with_reducible refine (State.endPoison_keeps _ _).then ?_ ?_
    | with_reducible refine (State.pinLines_keeps _ _ _).then ?_ ?_ | exact Or.inr (by decide)
    | with_reducible exact Or.inl rfl | with_reducible exact id | with_reducible refine Keeps.ite ?_ ?_ | extract_lets
    | split | with_reducible apply Keeps.upd | dsimp +zetaDelta only
    | with_reducible exact fun h => SMap.wf_set _ _ _ _ h | with_reducible exact fun h => SMap.rising_set _ _ _ _ h
    | with_reducible exact fun h => SMap.rising_drop _ _ h | with_reducible exact fun h => SMap.wf_setRun _ _ _ _ h
    | with_reducible exact fun h => SMap.wf_setRun _ _ _ _ (SMap.wf_setRun _ _ _ _ h)
    | with_reducible exact fun h => SMap.wf_fillRun _ _ _ _ _ h | with_reducible exact fun h => SMap.wf_drop _ _ _ h
    | with_reducible exact fun _ => SMap.wf_nil _ | with_reducible exact fun h => by simpa using h | exact id

theorem applyNowEffect_keeps (s : State) : Keeps [.freeCtr, .regs, .mgmt, .counts, .lanes, .pools, .ports, .hosts,
    .dies, .mem, .ctx] s (applyNowEffect s) := by
  unfold applyNowEffect
  repeat' first
    | exact rfl | with_reducible exact Keeps.refl _ _ | with_reducible assumption
    | with_reducible refine State.ctxCmd_keeps _ _ _ _ _ ?_ ?_ (fun _ _ _ => ?_)
    | with_reducible refine (State.startApply_keeps _ _ _ _ _).then ?_ ?_ | with_reducible refine Keeps.ite ?_ ?_
    | extract_lets | split | dsimp +zetaDelta only

theorem clearAllEffect_keeps (s : State) : Keeps [.regs, .mgmt, .ctx] s (clearAllEffect s) := by
  unfold clearAllEffect
  repeat' first
    | exact rfl | with_reducible exact Keeps.refl _ _ | with_reducible assumption
    | with_reducible refine (State.endCtx_keeps _ _ _ _).then ?_ ?_ | exact Or.inr (by decide)
    | with_reducible exact Or.inl rfl | with_reducible exact id | with_reducible refine Keeps.ite ?_ ?_ | extract_lets
    | split | with_reducible apply Keeps.upd | dsimp +zetaDelta only
    | with_reducible exact fun h => SMap.wf_set _ _ _ _ h | with_reducible exact fun h => SMap.rising_set _ _ _ _ h
    | with_reducible exact fun h => SMap.rising_drop _ _ h | with_reducible exact fun h => SMap.wf_setRun _ _ _ _ h
    | with_reducible exact fun h => SMap.wf_setRun _ _ _ _ (SMap.wf_setRun _ _ _ _ h)
    | with_reducible exact fun h => SMap.wf_fillRun _ _ _ _ _ h | with_reducible exact fun h => SMap.wf_drop _ _ _ h
    | with_reducible exact fun _ => SMap.wf_nil _ | with_reducible exact fun h => by simpa using h | exact id

theorem State.fillBuffer_keeps (s : State) (bs : List MByte) : Keeps [.ctx] s (State.fillBuffer s bs) := by
  unfold State.fillBuffer
  repeat' first
    | exact rfl | with_reducible exact Keeps.refl _ _ | with_reducible assumption | exact Or.inr (by decide)
    | with_reducible exact Or.inl rfl | with_reducible exact id | with_reducible refine Keeps.ite ?_ ?_ | extract_lets
    | split | with_reducible apply Keeps.upd | dsimp +zetaDelta only
    | with_reducible exact fun h => SMap.wf_set _ _ _ _ h | with_reducible exact fun h => SMap.rising_set _ _ _ _ h
    | with_reducible exact fun h => SMap.rising_drop _ _ h | with_reducible exact fun h => SMap.wf_setRun _ _ _ _ h
    | with_reducible exact fun h => SMap.wf_setRun _ _ _ _ (SMap.wf_setRun _ _ _ _ h)
    | with_reducible exact fun h => SMap.wf_fillRun _ _ _ _ _ h | with_reducible exact fun h => SMap.wf_drop _ _ _ h
    | with_reducible exact fun _ => SMap.wf_nil _ | with_reducible exact fun h => by simpa using h | exact id

theorem contextReadStoredEffect_keeps (s : State) : Keeps [.regs, .mgmt, .counts, .ctx] s (contextReadStoredEffect
    s) := by
  unfold contextReadStoredEffect
  repeat' first
    | exact rfl | with_reducible exact Keeps.refl _ _ | with_reducible assumption
    | with_reducible refine State.ctxCmd_keeps _ _ _ _ _ ?_ ?_ (fun _ _ _ => ?_)
    | with_reducible refine (State.looked_keeps _).then ?_ ?_
    | with_reducible refine (State.endCtx_keeps _ _ _ _).then ?_ ?_
    | with_reducible refine (State.endPoison_keeps _ _).then ?_ ?_
    | with_reducible refine (State.readSlot_keeps _ _ _ _ _).then ?_ ?_
    | with_reducible refine (State.fillBuffer_keeps _ _).then ?_ ?_ | with_reducible refine Keeps.ite ?_ ?_
    | extract_lets | split | dsimp +zetaDelta only

theorem contextReadLiveEffect_keeps (s : State) : Keeps [.regs, .mgmt, .ctx] s (contextReadLiveEffect s) := by
  unfold contextReadLiveEffect
  repeat' first
    | exact rfl | with_reducible exact Keeps.refl _ _ | with_reducible assumption
    | with_reducible refine State.ctxCmd_keeps _ _ _ _ _ ?_ ?_ (fun _ _ _ => ?_)
    | with_reducible refine (State.endCtx_keeps _ _ _ _).then ?_ ?_
    | with_reducible refine (State.fillBuffer_keeps _ _).then ?_ ?_ | with_reducible refine Keeps.ite ?_ ?_
    | extract_lets | split | dsimp +zetaDelta only

theorem lookupEffect_keeps (s : State) : Keeps [.regs, .mgmt, .counts, .ctx] s (lookupEffect s) := by
  unfold lookupEffect
  repeat' first
    | exact rfl | with_reducible exact Keeps.refl _ _ | with_reducible assumption
    | with_reducible refine State.ctxCmd_keeps _ _ _ _ _ ?_ ?_ (fun _ _ _ => ?_)
    | with_reducible refine (State.looked_keeps _).then ?_ ?_
    | with_reducible refine (State.endCtx_keeps _ _ _ _).then ?_ ?_
    | with_reducible refine (State.endPoison_keeps _ _).then ?_ ?_ | with_reducible refine Keeps.ite ?_ ?_
    | extract_lets | split | dsimp +zetaDelta only

theorem fillEffect_keeps (s : State) : Keeps [.regs, .mgmt, .loader, .mem, .ctx] s (fillEffect s) := by
  unfold fillEffect
  repeat' first
    | exact rfl | with_reducible exact Keeps.refl _ _ | with_reducible assumption
    | with_reducible refine State.withHead_keeps _ _ _ _ _ ?_ ?_ (fun _ => ?_)
    | with_reducible refine (State.complete_keeps _ _ _ _ _ _ _).then ?_ ?_
    | with_reducible refine (State.d3Write_keeps _ _ _).then ?_ ?_ | exact Or.inr (by decide)
    | with_reducible exact Or.inl rfl | with_reducible exact id | with_reducible refine Keeps.ite ?_ ?_ | extract_lets
    | split | with_reducible apply Keeps.upd | dsimp +zetaDelta only
    | with_reducible exact fun h => SMap.wf_set _ _ _ _ h | with_reducible exact fun h => SMap.rising_set _ _ _ _ h
    | with_reducible exact fun h => SMap.rising_drop _ _ h | with_reducible exact fun h => SMap.wf_setRun _ _ _ _ h
    | with_reducible exact fun h => SMap.wf_setRun _ _ _ _ (SMap.wf_setRun _ _ _ _ h)
    | with_reducible exact fun h => SMap.wf_fillRun _ _ _ _ _ h | with_reducible exact fun h => SMap.wf_drop _ _ _ h
    | with_reducible exact fun _ => SMap.wf_nil _ | with_reducible exact fun h => by simpa using h | exact id

theorem State.abandonIdents_keeps (s : State) (old : List Nat) : Keeps [.regs, .lanes, .pools, .dies, .ctx] s
    (State.abandonIdents s old) := by
  unfold State.abandonIdents
  repeat' first
    | exact rfl | with_reducible exact Keeps.refl _ _ | with_reducible assumption
    | with_reducible refine (State.dropIdent_keeps _ _).then ?_ ?_
    | with_reducible refine (State.idFail_keeps _ _).then ?_ ?_ | with_reducible refine Keeps.ite ?_ ?_
    | with_reducible refine Keeps.each ?_ (fun _ _ _ => ?_) | extract_lets | split | dsimp +zetaDelta only

theorem State.clearGroupRegs_keeps (s : State) (g : Nat) : Keeps [.regs] s (State.clearGroupRegs s g) := by
  unfold State.clearGroupRegs
  repeat' first
    | exact rfl | with_reducible exact Keeps.refl _ _ | with_reducible assumption
    | with_reducible refine (State.put_keeps _ _ _).then ?_ ?_ | with_reducible refine Keeps.ite ?_ ?_ | extract_lets
    | split | dsimp +zetaDelta only

theorem State.beaconRegroup_keeps (s : State) (n : Nat) : Keeps [.regs, .bcn, .syn] s (State.beaconRegroup s n) :=
    by
  unfold State.beaconRegroup
  repeat' first
    | exact rfl | with_reducible exact Keeps.refl _ _ | with_reducible assumption
    | with_reducible refine (State.dropHeld_keeps _ _).then ?_ ?_
    | with_reducible refine (State.put_keeps _ _ _).then ?_ ?_
    | with_reducible refine (State.setBcn_keeps _ _ _).then ?_ ?_ | with_reducible refine Keeps.ite ?_ ?_
    | extract_lets | split | dsimp +zetaDelta only

theorem State.setGroups_keeps (s : State) (v : Nat) : Keeps [.regs] s (State.setGroups s v) := by
  unfold State.setGroups
  repeat' first
    | exact rfl | with_reducible exact Keeps.refl _ _ | with_reducible assumption
    | with_reducible refine (State.put_keeps _ _ _).then ?_ ?_ | with_reducible refine Keeps.ite ?_ ?_ | extract_lets
    | split | dsimp +zetaDelta only

theorem groupCfgWriteEffect_keeps (value : Word) (s : State) : Keeps [.freeCtr, .regs, .mgmt, .counts, .lanes,
    .pools, .ports, .hosts, .dies, .bcn, .syn, .mem, .ctx] s (groupCfgWriteEffect value s) := by
  unfold groupCfgWriteEffect
  repeat' first
    | exact rfl | with_reducible exact Keeps.refl _ _ | with_reducible assumption
    | with_reducible refine (State.setGroups_keeps _ _).then ?_ ?_
    | with_reducible refine (State.clearGroupRegs_keeps _ _).then ?_ ?_
    | with_reducible refine (State.beaconRegroup_keeps _ _).then ?_ ?_
    | with_reducible refine (State.abandonIdents_keeps _ _).then ?_ ?_
    | with_reducible refine (State.abortApplies_keeps _ _ _).then ?_ ?_
    | with_reducible refine (State.raise_keeps _ _).then ?_ ?_ | with_reducible refine Keeps.ite ?_ ?_
    | with_reducible refine Keeps.each ?_ (fun _ _ _ => ?_) | extract_lets | split | dsimp +zetaDelta only

theorem hashSeedWriteEffect_keeps (value : Word) (s : State) : Keeps [.regs] s (hashSeedWriteEffect value s) := by
  unfold hashSeedWriteEffect
  repeat' first
    | exact rfl | with_reducible exact Keeps.refl _ _ | with_reducible assumption
    | with_reducible refine (State.put_keeps _ _ _).then ?_ ?_
    | with_reducible refine (State.raise_keeps _ _).then ?_ ?_ | with_reducible refine Keeps.ite ?_ ?_ | extract_lets
    | split | dsimp +zetaDelta only

theorem State.prefetch_keeps (s : State) (p : Nat) : Keeps [.regs, .counts, .ctx] s (State.prefetch s p) := by
  unfold State.prefetch
  repeat' first
    | exact rfl | with_reducible exact Keeps.refl _ _ | with_reducible assumption
    | with_reducible refine (State.looked_keeps _).then ?_ ?_
    | with_reducible refine (State.setLine_keeps _ _ _).then ?_ ?_
    | with_reducible refine (State.countD0_keeps _ _ _ _).then ?_ ?_
    | with_reducible refine (State.beginFill_keeps _ _ _ _ _).then ?_ ?_
    | with_reducible refine (State.raise_keeps _ _).then ?_ ?_ | exact Or.inr (by decide)
    | with_reducible exact Or.inl rfl | with_reducible exact id | with_reducible refine Keeps.ite ?_ ?_ | extract_lets
    | split | with_reducible apply Keeps.upd | dsimp +zetaDelta only
    | with_reducible exact fun h => SMap.wf_set _ _ _ _ h | with_reducible exact fun h => SMap.rising_set _ _ _ _ h
    | with_reducible exact fun h => SMap.rising_drop _ _ h | with_reducible exact fun h => SMap.wf_setRun _ _ _ _ h
    | with_reducible exact fun h => SMap.wf_setRun _ _ _ _ (SMap.wf_setRun _ _ _ _ h)
    | with_reducible exact fun h => SMap.wf_fillRun _ _ _ _ _ h | with_reducible exact fun h => SMap.wf_drop _ _ _ h
    | with_reducible exact fun _ => SMap.wf_nil _ | with_reducible exact fun h => by simpa using h | exact id

theorem placementTickEffect_keeps (s : State) : Keeps [.regs, .counts, .ctx, .therm] s (placementTickEffect s) := by
  unfold placementTickEffect
  repeat' first
    | exact rfl | with_reducible exact Keeps.refl _ _ | with_reducible assumption
    | with_reducible refine State.bgUnit_keeps _ _ _ ?_ ?_ (fun _ _ => ?_)
    | with_reducible refine (State.prefetch_keeps _ _).then ?_ ?_ | with_reducible refine Keeps.ite ?_ ?_
    | with_reducible refine Keeps.each ?_ (fun _ _ _ => ?_) | extract_lets | split | dsimp +zetaDelta only

theorem cacheFillDoneEffect_keeps (line : Fin 256) (s : State) : Keeps [.regs, .counts, .ctx] s (cacheFillDoneEffect
    line s) := by
  unfold cacheFillDoneEffect
  repeat' first
    | exact rfl | with_reducible exact Keeps.refl _ _ | with_reducible assumption
    | with_reducible refine (State.readSlot_keeps _ _ _ _ _).then ?_ ?_
    | with_reducible refine (State.setLine_keeps _ _ _).then ?_ ?_
    | with_reducible refine (State.settleSlots_keeps _).then ?_ ?_
    | with_reducible refine (State.noteReloc_keeps _ _ _ _ _).then ?_ ?_ | exact Or.inr (by decide)
    | with_reducible exact Or.inl rfl | with_reducible exact id | with_reducible refine Keeps.ite ?_ ?_ | extract_lets
    | split | with_reducible apply Keeps.upd | dsimp +zetaDelta only
    | with_reducible exact fun h => SMap.wf_set _ _ _ _ h | with_reducible exact fun h => SMap.rising_set _ _ _ _ h
    | with_reducible exact fun h => SMap.rising_drop _ _ h | with_reducible exact fun h => SMap.wf_setRun _ _ _ _ h
    | with_reducible exact fun h => SMap.wf_setRun _ _ _ _ (SMap.wf_setRun _ _ _ _ h)
    | with_reducible exact fun h => SMap.wf_fillRun _ _ _ _ _ h | with_reducible exact fun h => SMap.wf_drop _ _ _ h
    | with_reducible exact fun _ => SMap.wf_nil _ | with_reducible exact fun h => by simpa using h | exact id

theorem State.renameLines_keeps (s : State) (a : Nat) (b : Nat) : Keeps [.ctx] s (State.renameLines s a b) := by
  unfold State.renameLines
  repeat' first
    | exact rfl | with_reducible exact Keeps.refl _ _ | with_reducible assumption | exact Or.inr (by decide)
    | with_reducible exact Or.inl rfl | with_reducible exact id | with_reducible refine Keeps.ite ?_ ?_ | extract_lets
    | split | with_reducible apply Keeps.upd | dsimp +zetaDelta only
    | with_reducible exact fun h => SMap.wf_set _ _ _ _ h | with_reducible exact fun h => SMap.rising_set _ _ _ _ h
    | with_reducible exact fun h => SMap.rising_drop _ _ h | with_reducible exact fun h => SMap.wf_setRun _ _ _ _ h
    | with_reducible exact fun h => SMap.wf_setRun _ _ _ _ (SMap.wf_setRun _ _ _ _ h)
    | with_reducible exact fun h => SMap.wf_fillRun _ _ _ _ _ h | with_reducible exact fun h => SMap.wf_drop _ _ _ h
    | with_reducible exact fun _ => SMap.wf_nil _ | with_reducible exact fun h => by simpa using h | exact id

theorem relocatedEffect_keeps (slot : Nat) (s : State) : Keeps [.regs, .mem, .ctx] s (relocatedEffect slot s) := by
  unfold relocatedEffect
  repeat' first
    | exact rfl | with_reducible exact Keeps.refl _ _ | with_reducible assumption
    | with_reducible refine (State.writeSlot_keeps _ _ _).then ?_ ?_
    | with_reducible refine (State.raise_keeps _ _).then ?_ ?_
    | with_reducible refine (State.freeSlotAt_keeps _ _).then ?_ ?_
    | with_reducible refine (State.renameLines_keeps _ _ _).then ?_ ?_ | exact Or.inr (by decide)
    | with_reducible exact Or.inl rfl | with_reducible exact id | with_reducible refine Keeps.ite ?_ ?_ | extract_lets
    | split | with_reducible apply Keeps.upd | dsimp +zetaDelta only
    | with_reducible exact fun h => SMap.wf_set _ _ _ _ h | with_reducible exact fun h => SMap.rising_set _ _ _ _ h
    | with_reducible exact fun h => SMap.rising_drop _ _ h | with_reducible exact fun h => SMap.wf_setRun _ _ _ _ h
    | with_reducible exact fun h => SMap.wf_setRun _ _ _ _ (SMap.wf_setRun _ _ _ _ h)
    | with_reducible exact fun h => SMap.wf_fillRun _ _ _ _ _ h | with_reducible exact fun h => SMap.wf_drop _ _ _ h
    | with_reducible exact fun _ => SMap.wf_nil _ | with_reducible exact fun h => by simpa using h | exact id

end Sys2Proof.Machine
end

