-- ==== Sys2Proof/Laws/KeepsHk.lean ====
section
/-!
SUPPORT. What each operation of Machine/Hk.lean leaves unchanged, and that it keeps the canonical form.
-/

namespace Sys2Proof.Machine

open Sys2Proof

theorem State.setHk_keeps (s : State) (v : HkSt)
    (h0 : SMap.wf s.hk.ring 0 = true → SMap.wf v.ring 0 = true) :
    Keeps [.hk] s (State.setHk s v) := by
  unfold State.setHk
  repeat' first
    | exact Or.inr (by decide)
    | with_reducible exact Or.inl rfl
    | with_reducible exact id
    | with_reducible exact Keeps.refl _ _
    | assumption
    | with_reducible apply Keeps.upd

theorem State.driveOut_keeps (s : State) (c : Nat) : Keeps [.regs] s (State.driveOut s c) := by
  unfold State.driveOut
  repeat' first
    | exact rfl | with_reducible exact Keeps.refl _ _ | with_reducible assumption
    | with_reducible refine (State.put_keeps _ _ _).then ?_ ?_ | with_reducible refine Keeps.ite ?_ ?_ | extract_lets
    | split | dsimp +zetaDelta only

theorem State.strobeChannel_keeps (s : State) (c : Nat) : Keeps [.regs] s (State.strobeChannel s c) := by
  unfold State.strobeChannel
  repeat' first
    | exact rfl | with_reducible exact Keeps.refl _ _ | with_reducible assumption
    | with_reducible refine (State.put_keeps _ _ _).then ?_ ?_
    | with_reducible refine (State.raise_keeps _ _).then ?_ ?_
    | with_reducible refine (State.driveOut_keeps _ _).then ?_ ?_ | with_reducible refine Keeps.ite ?_ ?_
    | extract_lets | split | dsimp +zetaDelta only

theorem State.strobeGroups_keeps (s : State) (mask : Nat) : Keeps [.regs] s (State.strobeGroups s mask) := by
  unfold State.strobeGroups
  repeat' first
    | exact rfl | with_reducible exact Keeps.refl _ _ | with_reducible assumption
    | with_reducible refine (State.strobeChannel_keeps _ _).then ?_ ?_ | with_reducible refine Keeps.ite ?_ ?_
    | with_reducible refine Keeps.each ?_ (fun _ _ _ => ?_) | extract_lets | split | dsimp +zetaDelta only

theorem State.strobeOnce_keeps (s : State) (mask : Nat) : Keeps [.regs, .hk] s (State.strobeOnce s mask) := by
  unfold State.strobeOnce
  repeat' first
    | exact rfl | with_reducible exact Keeps.refl _ _ | with_reducible assumption
    | with_reducible refine (State.strobeGroups_keeps _ _).then ?_ ?_
    | with_reducible refine (State.setHk_keeps _ _ ?_).then ?_ ?_ | with_reducible exact id
    | with_reducible exact fun h => SMap.wf_set _ _ _ _ h | with_reducible exact fun h => SMap.wf_setRun _ _ _ _ h
    | with_reducible exact fun h => SMap.wf_setRun _ _ _ _ (SMap.wf_setRun _ _ _ _ h)
    | with_reducible exact fun h => SMap.wf_fillRun _ _ _ _ _ h | with_reducible exact fun _ => SMap.wf_nil _
    | exact fun _ => SMap.wf_nil 0 | with_reducible refine Keeps.ite ?_ ?_ | extract_lets | split
    | dsimp +zetaDelta only

theorem State.setSpan_keeps (s : State) (c : Nat) (v : Nat) (own : Bool) : Keeps [.regs, .hk] s (State.setSpan s c v
    own) := by
  unfold State.setSpan
  repeat' first
    | exact rfl | with_reducible exact Keeps.refl _ _ | with_reducible assumption
    | with_reducible refine (State.put_keeps _ _ _).then ?_ ?_
    | with_reducible refine (State.setHk_keeps _ _ ?_).then ?_ ?_ | with_reducible exact id
    | with_reducible exact fun h => SMap.wf_set _ _ _ _ h | with_reducible exact fun h => SMap.wf_setRun _ _ _ _ h
    | with_reducible exact fun h => SMap.wf_setRun _ _ _ _ (SMap.wf_setRun _ _ _ _ h)
    | with_reducible exact fun h => SMap.wf_fillRun _ _ _ _ _ h | with_reducible exact fun _ => SMap.wf_nil _
    | exact fun _ => SMap.wf_nil 0 | with_reducible refine Keeps.ite ?_ ?_ | extract_lets | split
    | dsimp +zetaDelta only

theorem State.setHkdEnable_keeps (s : State) (c : Nat) (on : Bool) : Keeps [.regs] s (State.setHkdEnable s c on) :=
    by
  unfold State.setHkdEnable
  repeat' first
    | exact rfl | with_reducible exact Keeps.refl _ _ | with_reducible assumption
    | with_reducible refine (State.putB_keeps _ _ _).then ?_ ?_
    | with_reducible refine (State.put_keeps _ _ _).then ?_ ?_ | with_reducible refine Keeps.ite ?_ ?_
    | with_reducible refine Keeps.onlyIf ?_ (fun _ _ => ?_) | extract_lets | split | dsimp +zetaDelta only

theorem strobeEffect_keeps (groups : BitVec 4) (s : State) : Keeps [.regs] s (strobeEffect groups s) := by
  unfold strobeEffect
  repeat' first
    | exact rfl | with_reducible exact Keeps.refl _ _ | with_reducible assumption
    | with_reducible refine (State.strobeGroups_keeps _ _).then ?_ ?_ | with_reducible refine Keeps.ite ?_ ?_
    | extract_lets | split | dsimp +zetaDelta only

theorem spanWriteEffect_keeps (ch : Fin 16) (span : BitVec 2) (s : State) : Keeps [.regs, .hk] s (spanWriteEffect ch
    span s) := by
  unfold spanWriteEffect
  repeat' first
    | exact rfl | with_reducible exact Keeps.refl _ _ | with_reducible assumption
    | with_reducible refine (State.setSpan_keeps _ _ _ _).then ?_ ?_ | with_reducible refine Keeps.ite ?_ ?_
    | extract_lets | split | dsimp +zetaDelta only

theorem State.endHold_keeps (s : State) (c : Nat) : Keeps [.regs, .hk] s (State.endHold s c) := by
  unfold State.endHold
  repeat' first
    | exact rfl | with_reducible exact Keeps.refl _ _ | with_reducible assumption
    | with_reducible refine (State.put_keeps _ _ _).then ?_ ?_
    | with_reducible refine (State.setHk_keeps _ _ ?_).then ?_ ?_ | with_reducible exact id
    | with_reducible exact fun h => SMap.wf_set _ _ _ _ h | with_reducible exact fun h => SMap.wf_setRun _ _ _ _ h
    | with_reducible exact fun h => SMap.wf_setRun _ _ _ _ (SMap.wf_setRun _ _ _ _ h)
    | with_reducible exact fun h => SMap.wf_fillRun _ _ _ _ _ h | with_reducible exact fun _ => SMap.wf_nil _
    | exact fun _ => SMap.wf_nil 0 | with_reducible refine Keeps.ite ?_ ?_ | extract_lets | split
    | dsimp +zetaDelta only

theorem spanHoldEndEffect_keeps (ch : Fin 16) (s : State) : Keeps [.regs, .hk] s (spanHoldEndEffect ch s) := by
  unfold spanHoldEndEffect
  repeat' first
    | exact rfl | with_reducible exact Keeps.refl _ _ | with_reducible assumption
    | with_reducible refine (State.endHold_keeps _ _).then ?_ ?_ | with_reducible refine Keeps.ite ?_ ?_
    | extract_lets | split | dsimp +zetaDelta only

theorem biasStrobeEffect_keeps (s : State) : Keeps [.regs, .hk] s (biasStrobeEffect s) := by
  unfold biasStrobeEffect
  repeat' first
    | exact rfl | with_reducible exact Keeps.refl _ _ | with_reducible assumption
    | with_reducible refine (State.setHk_keeps _ _ ?_).then ?_ ?_
    | with_reducible refine (State.strobeGroups_keeps _ _).then ?_ ?_
    | with_reducible refine (State.endHold_keeps _ _).then ?_ ?_ | with_reducible exact id
    | with_reducible exact fun h => SMap.wf_set _ _ _ _ h | with_reducible exact fun h => SMap.wf_setRun _ _ _ _ h
    | with_reducible exact fun h => SMap.wf_setRun _ _ _ _ (SMap.wf_setRun _ _ _ _ h)
    | with_reducible exact fun h => SMap.wf_fillRun _ _ _ _ _ h | with_reducible exact fun _ => SMap.wf_nil _
    | exact fun _ => SMap.wf_nil 0 | with_reducible refine Keeps.ite ?_ ?_
    | with_reducible refine Keeps.each ?_ (fun _ _ _ => ?_) | extract_lets | split | dsimp +zetaDelta only

theorem State.setAcc_keeps (s : State) (g : Nat) (a : Nat) : Keeps [.hk] s (State.setAcc s g a) := by
  unfold State.setAcc
  repeat' first
    | exact rfl | with_reducible exact Keeps.refl _ _ | with_reducible assumption
    | with_reducible refine (State.setHk_keeps _ _ ?_).then ?_ ?_ | with_reducible exact id
    | with_reducible exact fun h => SMap.wf_set _ _ _ _ h | with_reducible exact fun h => SMap.wf_setRun _ _ _ _ h
    | with_reducible exact fun h => SMap.wf_setRun _ _ _ _ (SMap.wf_setRun _ _ _ _ h)
    | with_reducible exact fun h => SMap.wf_fillRun _ _ _ _ _ h | with_reducible exact fun _ => SMap.wf_nil _
    | exact fun _ => SMap.wf_nil 0 | with_reducible refine Keeps.ite ?_ ?_ | extract_lets | split
    | dsimp +zetaDelta only

theorem ditherUpdateEffect_keeps (s : State) : Keeps [.regs, .hk] s (ditherUpdateEffect s) := by
  unfold ditherUpdateEffect
  repeat' first
    | exact rfl | with_reducible exact Keeps.refl _ _ | with_reducible assumption
    | with_reducible refine (State.setAcc_keeps _ _ _).then ?_ ?_
    | with_reducible refine (State.driveOut_keeps _ _).then ?_ ?_
    | with_reducible refine (State.setHk_keeps _ _ ?_).then ?_ ?_ | with_reducible exact id
    | with_reducible exact fun h => SMap.wf_set _ _ _ _ h | with_reducible exact fun h => SMap.wf_setRun _ _ _ _ h
    | with_reducible exact fun h => SMap.wf_setRun _ _ _ _ (SMap.wf_setRun _ _ _ _ h)
    | with_reducible exact fun h => SMap.wf_fillRun _ _ _ _ _ h | with_reducible exact fun _ => SMap.wf_nil _
    | exact fun _ => SMap.wf_nil 0 | with_reducible refine Keeps.ite ?_ ?_
    | with_reducible refine Keeps.each ?_ (fun _ _ _ => ?_) | extract_lets | split | dsimp +zetaDelta only

theorem State.restartSines_keeps (s : State) (mask : Nat) : Keeps [.hk] s (State.restartSines s mask) := by
  unfold State.restartSines
  repeat' first
    | exact rfl | with_reducible exact Keeps.refl _ _ | with_reducible assumption
    | with_reducible refine (State.setAcc_keeps _ _ _).then ?_ ?_ | with_reducible refine Keeps.ite ?_ ?_
    | with_reducible refine Keeps.each ?_ (fun _ _ _ => ?_) | extract_lets | split | dsimp +zetaDelta only

theorem syncEffect_keeps (gens : BitVec 4) (s : State) : Keeps [.hk] s (syncEffect gens s) := by
  unfold syncEffect
  repeat' first
    | exact rfl | with_reducible exact Keeps.refl _ _ | with_reducible assumption
    | with_reducible refine (State.restartSines_keeps _ _).then ?_ ?_ | with_reducible refine Keeps.ite ?_ ?_
    | extract_lets | split | dsimp +zetaDelta only

theorem State.setTarget_keeps (s : State) (g : Nat) (v : Nat) : Keeps [.regs, .hk] s (State.setTarget s g v) := by
  unfold State.setTarget
  repeat' first
    | exact rfl | with_reducible exact Keeps.refl _ _ | with_reducible assumption
    | with_reducible refine (State.setAcc_keeps _ _ _).then ?_ ?_
    | with_reducible refine (State.put_keeps _ _ _).then ?_ ?_ | with_reducible refine Keeps.ite ?_ ?_ | extract_lets
    | split | dsimp +zetaDelta only

theorem targetWriteEffect_keeps (gen : Fin 4) (target : Byte) (s : State) : Keeps [.regs, .hk] s (targetWriteEffect
    gen target s) := by
  unfold targetWriteEffect
  repeat' first
    | exact rfl | with_reducible exact Keeps.refl _ _ | with_reducible assumption
    | with_reducible refine (State.setTarget_keeps _ _ _).then ?_ ?_ | with_reducible refine Keeps.ite ?_ ?_
    | extract_lets | split | dsimp +zetaDelta only

theorem State.setHka_keeps (s : State) (a : Nat) (x : HkaSt) : Keeps [.hk] s (State.setHka s a x) := by
  unfold State.setHka
  repeat' first
    | exact rfl | with_reducible exact Keeps.refl _ _ | with_reducible assumption
    | with_reducible refine (State.setHk_keeps _ _ ?_).then ?_ ?_ | with_reducible exact id
    | with_reducible exact fun h => SMap.wf_set _ _ _ _ h | with_reducible exact fun h => SMap.wf_setRun _ _ _ _ h
    | with_reducible exact fun h => SMap.wf_setRun _ _ _ _ (SMap.wf_setRun _ _ _ _ h)
    | with_reducible exact fun h => SMap.wf_fillRun _ _ _ _ _ h | with_reducible exact fun _ => SMap.wf_nil _
    | exact fun _ => SMap.wf_nil 0 | with_reducible refine Keeps.ite ?_ ?_ | extract_lets | split
    | dsimp +zetaDelta only

theorem State.startEntry_keeps (s : State) (a : Nat) (e : Nat) : Keeps [.regs, .hk] s (State.startEntry s a e) := by
  unfold State.startEntry
  repeat' first
    | exact rfl | with_reducible exact Keeps.refl _ _ | with_reducible assumption
    | with_reducible refine (State.put_keeps _ _ _).then ?_ ?_
    | with_reducible refine (State.setHka_keeps _ _ _).then ?_ ?_ | with_reducible refine Keeps.ite ?_ ?_
    | extract_lets | split | dsimp +zetaDelta only

theorem State.startLoop_keeps (s : State) (a : Nat) : Keeps [.regs, .hk] s (State.startLoop s a) := by
  unfold State.startLoop
  repeat' first
    | exact rfl | with_reducible exact Keeps.refl _ _ | with_reducible assumption
    | with_reducible refine (State.startEntry_keeps _ _ _).then ?_ ?_
    | with_reducible refine (State.put_keeps _ _ _).then ?_ ?_ | with_reducible refine Keeps.ite ?_ ?_ | extract_lets
    | split | dsimp +zetaDelta only

theorem State.endEntry_keeps (s : State) (a : Nat) : Keeps [.regs, .hk] s (State.endEntry s a) := by
  unfold State.endEntry
  repeat' first
    | exact rfl | with_reducible exact Keeps.refl _ _ | with_reducible assumption
    | with_reducible refine (State.setHka_keeps _ _ _).then ?_ ?_
    | with_reducible refine (State.startEntry_keeps _ _ _).then ?_ ?_ | with_reducible refine Keeps.ite ?_ ?_
    | extract_lets | split | dsimp +zetaDelta only

theorem State.hkaStart_keeps (s : State) (a : Nat) : Keeps [.regs, .hk] s (State.hkaStart s a) := by
  unfold State.hkaStart
  repeat' first
    | exact rfl | with_reducible exact Keeps.refl _ _ | with_reducible assumption
    | with_reducible refine (State.startLoop_keeps _ _).then ?_ ?_
    | with_reducible refine (State.put_keeps _ _ _).then ?_ ?_ | with_reducible refine Keeps.ite ?_ ?_ | extract_lets
    | split | dsimp +zetaDelta only

theorem State.hkaStops_keeps (s : State) (a : Nat) : Keeps [.regs, .hk] s (State.hkaStops s a) := by
  unfold State.hkaStops
  repeat' first
    | exact rfl | with_reducible exact Keeps.refl _ _ | with_reducible assumption
    | with_reducible refine (State.put_keeps _ _ _).then ?_ ?_
    | with_reducible refine (State.setHka_keeps _ _ _).then ?_ ?_
    | with_reducible refine (State.hkaStart_keeps _ _).then ?_ ?_ | with_reducible refine Keeps.ite ?_ ?_
    | with_reducible refine Keeps.onlyIf ?_ (fun _ _ => ?_) | extract_lets | split | dsimp +zetaDelta only

theorem State.beginConv_keeps (s : State) (a : Nat) : Keeps [.regs, .hk] s (State.beginConv s a) := by
  unfold State.beginConv
  repeat' first
    | exact rfl | with_reducible exact Keeps.refl _ _ | with_reducible assumption
    | with_reducible refine (State.hkaStops_keeps _ _).then ?_ ?_
    | with_reducible refine (State.setHka_keeps _ _ _).then ?_ ?_ | with_reducible refine Keeps.ite ?_ ?_
    | with_reducible refine Keeps.onlyIf ?_ (fun _ _ => ?_) | extract_lets | split | dsimp +zetaDelta only

theorem State.ringWrite_keeps (s : State) (w : Nat) : Keeps [.regs, .hk] s (State.ringWrite s w) := by
  unfold State.ringWrite
  repeat' first
    | exact rfl | with_reducible exact Keeps.refl _ _ | with_reducible assumption
    | with_reducible refine (State.put_keeps _ _ _).then ?_ ?_
    | with_reducible refine (State.setHk_keeps _ _ ?_).then ?_ ?_
    | with_reducible refine (State.raise_keeps _ _).then ?_ ?_
    | with_reducible refine (State.addTo_keeps _ _ _).then ?_ ?_ | with_reducible exact id
    | with_reducible exact fun h => SMap.wf_set _ _ _ _ h | with_reducible exact fun h => SMap.wf_setRun _ _ _ _ h
    | with_reducible exact fun h => SMap.wf_setRun _ _ _ _ (SMap.wf_setRun _ _ _ _ h)
    | with_reducible exact fun h => SMap.wf_fillRun _ _ _ _ _ h | with_reducible exact fun _ => SMap.wf_nil _
    | exact fun _ => SMap.wf_nil 0 | with_reducible refine Keeps.ite ?_ ?_
    | with_reducible refine Keeps.onlyIf ?_ (fun _ _ => ?_) | extract_lets | split | dsimp +zetaDelta only

theorem State.offerSample_keeps (s : State) (k : Nat) (a : Nat) (input : Nat) (code : Nat) : Keeps [.regs, .hk] s
    (State.offerSample s k a input code) := by
  unfold State.offerSample
  repeat' first
    | exact rfl | with_reducible exact Keeps.refl _ _ | with_reducible assumption
    | with_reducible refine (State.setHk_keeps _ _ ?_).then ?_ ?_
    | with_reducible refine (State.put_keeps _ _ _).then ?_ ?_
    | with_reducible refine (State.noteEvent_keeps _ _).then ?_ ?_ | with_reducible exact id
    | with_reducible exact fun h => SMap.wf_set _ _ _ _ h | with_reducible exact fun h => SMap.wf_setRun _ _ _ _ h
    | with_reducible exact fun h => SMap.wf_setRun _ _ _ _ (SMap.wf_setRun _ _ _ _ h)
    | with_reducible exact fun h => SMap.wf_fillRun _ _ _ _ _ h | with_reducible exact fun _ => SMap.wf_nil _
    | exact fun _ => SMap.wf_nil 0 | with_reducible refine Keeps.ite ?_ ?_ | extract_lets | split
    | dsimp +zetaDelta only

theorem State.refResult_keeps (s : State) (a : Nat) (code : Nat) : Keeps [.regs] s (State.refResult s a code) := by
  unfold State.refResult
  repeat' first
    | exact rfl | with_reducible exact Keeps.refl _ _ | with_reducible assumption
    | with_reducible refine (State.put_keeps _ _ _).then ?_ ?_
    | with_reducible refine (State.raise_keeps _ _).then ?_ ?_ | with_reducible refine Keeps.ite ?_ ?_
    | with_reducible refine Keeps.onlyIf ?_ (fun _ _ => ?_) | extract_lets | split | dsimp +zetaDelta only

theorem State.deliverResult_keeps (s : State) (a : Nat) (input : Nat) (code : Nat) (urgent : Bool) (ref : Bool) :
    Keeps [.regs, .hk] s (State.deliverResult s a input code urgent ref) := by
  unfold State.deliverResult
  repeat' first
    | exact rfl | with_reducible exact Keeps.refl _ _ | with_reducible assumption
    | with_reducible refine (State.put_keeps _ _ _).then ?_ ?_
    | with_reducible refine (State.ringWrite_keeps _ _).then ?_ ?_
    | with_reducible refine (State.offerSample_keeps _ _ _ _ _).then ?_ ?_ | with_reducible refine Keeps.ite ?_ ?_
    | with_reducible refine Keeps.each ?_ (fun _ _ _ => ?_) | with_reducible refine Keeps.onlyIf ?_ (fun _ _ => ?_)
    | extract_lets | split | dsimp +zetaDelta only

theorem State.finishConv_keeps (s : State) (a : Nat) (c : HkaConv) (code : Nat) : Keeps [.regs, .hk] s
    (State.finishConv s a c code) := by
  unfold State.finishConv
  repeat' first
    | exact rfl | with_reducible exact Keeps.refl _ _ | with_reducible assumption
    | with_reducible refine (State.deliverResult_keeps _ _ _ _ _ _).then ?_ ?_
    | with_reducible refine (State.put_keeps _ _ _).then ?_ ?_
    | with_reducible refine (State.endEntry_keeps _ _).then ?_ ?_
    | with_reducible refine (State.setHka_keeps _ _ _).then ?_ ?_
    | with_reducible refine (State.startLoop_keeps _ _).then ?_ ?_
    | with_reducible refine (State.refResult_keeps _ _ _).then ?_ ?_
    | with_reducible refine (State.raise_keeps _ _).then ?_ ?_ | with_reducible refine Keeps.ite ?_ ?_ | extract_lets
    | split | dsimp +zetaDelta only

theorem hkaConversionEffect_keeps (a : Fin 2) (code : BitVec 12) (s : State) : Keeps [.regs, .hk] s
    (hkaConversionEffect a code s) := by
  unfold hkaConversionEffect
  repeat' first
    | exact rfl | with_reducible exact Keeps.refl _ _ | with_reducible assumption
    | with_reducible refine (State.beginConv_keeps _ _).then ?_ ?_
    | with_reducible refine (State.endEntry_keeps _ _).then ?_ ?_
    | with_reducible refine (State.finishConv_keeps _ _ _ _).then ?_ ?_
    | with_reducible refine (State.setHka_keeps _ _ _).then ?_ ?_ | with_reducible refine Keeps.ite ?_ ?_
    | extract_lets | split | dsimp +zetaDelta only

theorem State.urgRequest_keeps (s : State) (i : Nat) : Keeps [.regs, .hk] s (State.urgRequest s i) := by
  unfold State.urgRequest
  repeat' first
    | exact rfl | with_reducible exact Keeps.refl _ _ | with_reducible assumption
    | with_reducible refine (State.raise_keeps _ _).then ?_ ?_
    | with_reducible refine (State.put_keeps _ _ _).then ?_ ?_
    | with_reducible refine (State.setHka_keeps _ _ _).then ?_ ?_ | with_reducible refine Keeps.ite ?_ ?_
    | extract_lets | split | dsimp +zetaDelta only

theorem goEffect_keeps (slot : Fin 4) (s : State) : Keeps [.regs, .hk] s (goEffect slot s) := by
  unfold goEffect
  repeat' first
    | exact rfl | with_reducible exact Keeps.refl _ _ | with_reducible assumption
    | with_reducible refine (State.urgRequest_keeps _ _).then ?_ ?_ | with_reducible refine Keeps.ite ?_ ?_
    | extract_lets | split | dsimp +zetaDelta only

theorem State.setHkaRun_keeps (s : State) (a : Nat) (on : Bool) : Keeps [.regs, .hk] s (State.setHkaRun s a on) :=
    by
  unfold State.setHkaRun
  repeat' first
    | exact rfl | with_reducible exact Keeps.refl _ _ | with_reducible assumption
    | with_reducible refine (State.putB_keeps _ _ _).then ?_ ?_
    | with_reducible refine (State.setHka_keeps _ _ _).then ?_ ?_
    | with_reducible refine (State.hkaStart_keeps _ _).then ?_ ?_
    | with_reducible refine (State.beginConv_keeps _ _).then ?_ ?_
    | with_reducible refine (State.put_keeps _ _ _).then ?_ ?_ | with_reducible refine Keeps.ite ?_ ?_
    | with_reducible refine Keeps.onlyIf ?_ (fun _ _ => ?_) | extract_lets | split | dsimp +zetaDelta only

theorem runWriteEffect_keeps (a : Fin 2) (on : Bool) (s : State) : Keeps [.regs, .hk] s (runWriteEffect a on s) :=
    by
  unfold runWriteEffect
  repeat' first
    | exact rfl | with_reducible exact Keeps.refl _ _ | with_reducible assumption
    | with_reducible refine (State.setHkaRun_keeps _ _ _).then ?_ ?_ | with_reducible refine Keeps.ite ?_ ?_
    | extract_lets | split | dsimp +zetaDelta only

theorem rdIdxWriteEffect_keeps (value : BitVec 12) (s : State) : Keeps [.regs] s (rdIdxWriteEffect value s) := by
  unfold rdIdxWriteEffect
  repeat' first
    | exact rfl | with_reducible exact Keeps.refl _ _ | with_reducible assumption
    | with_reducible refine (State.put_keeps _ _ _).then ?_ ?_ | with_reducible refine Keeps.ite ?_ ?_ | extract_lets
    | split | dsimp +zetaDelta only

theorem State.takeLatch_keeps (s : State) : Keeps [.regs, .hk] s (State.takeLatch s) := by
  unfold State.takeLatch
  repeat' first
    | exact rfl | with_reducible exact Keeps.refl _ _ | with_reducible assumption
    | with_reducible refine (State.put_keeps _ _ _).then ?_ ?_
    | with_reducible refine (State.setHk_keeps _ _ ?_).then ?_ ?_ | with_reducible exact id
    | with_reducible exact fun h => SMap.wf_set _ _ _ _ h | with_reducible exact fun h => SMap.wf_setRun _ _ _ _ h
    | with_reducible exact fun h => SMap.wf_setRun _ _ _ _ (SMap.wf_setRun _ _ _ _ h)
    | with_reducible exact fun h => SMap.wf_fillRun _ _ _ _ _ h | with_reducible exact fun _ => SMap.wf_nil _
    | exact fun _ => SMap.wf_nil 0 | with_reducible refine Keeps.ite ?_ ?_
    | with_reducible refine Keeps.each ?_ (fun _ _ _ => ?_) | extract_lets | split | dsimp +zetaDelta only

theorem State.frameStart_keeps (s : State) : Keeps [.regs, .hk] s (State.frameStart s) := by
  unfold State.frameStart
  repeat' first
    | exact rfl | with_reducible exact Keeps.refl _ _ | with_reducible assumption
    | with_reducible refine (State.takeLatch_keeps _).then ?_ ?_
    | with_reducible refine (State.setHk_keeps _ _ ?_).then ?_ ?_ | with_reducible exact id
    | with_reducible exact fun h => SMap.wf_set _ _ _ _ h | with_reducible exact fun h => SMap.wf_setRun _ _ _ _ h
    | with_reducible exact fun h => SMap.wf_setRun _ _ _ _ (SMap.wf_setRun _ _ _ _ h)
    | with_reducible exact fun h => SMap.wf_fillRun _ _ _ _ _ h | with_reducible exact fun _ => SMap.wf_nil _
    | exact fun _ => SMap.wf_nil 0 | with_reducible refine Keeps.ite ?_ ?_
    | with_reducible refine Keeps.onlyIf ?_ (fun _ _ => ?_) | extract_lets | split | dsimp +zetaDelta only

theorem State.absorb_keeps (s : State) (k : Nat) : Keeps [.regs, .hk] s (State.absorb s k) := by
  unfold State.absorb
  repeat' first
    | exact rfl | with_reducible exact Keeps.refl _ _ | with_reducible assumption
    | with_reducible refine (State.setHk_keeps _ _ ?_).then ?_ ?_
    | with_reducible refine (State.putB_keeps _ _ _).then ?_ ?_
    | with_reducible refine (State.put_keeps _ _ _).then ?_ ?_ | with_reducible exact id
    | with_reducible exact fun h => SMap.wf_set _ _ _ _ h | with_reducible exact fun h => SMap.wf_setRun _ _ _ _ h
    | with_reducible exact fun h => SMap.wf_setRun _ _ _ _ (SMap.wf_setRun _ _ _ _ h)
    | with_reducible exact fun h => SMap.wf_fillRun _ _ _ _ _ h | with_reducible exact fun _ => SMap.wf_nil _
    | exact fun _ => SMap.wf_nil 0 | with_reducible refine Keeps.ite ?_ ?_ | extract_lets | split
    | dsimp +zetaDelta only

theorem filterSlotEffect_keeps (k : Nat) (s : State) : Keeps [.regs, .hk] s (filterSlotEffect k s) := by
  unfold filterSlotEffect
  repeat' first
    | exact rfl | with_reducible exact Keeps.refl _ _ | with_reducible assumption
    | with_reducible refine (State.frameStart_keeps _).then ?_ ?_
    | with_reducible refine (State.absorb_keeps _ _).then ?_ ?_ | with_reducible refine Keeps.ite ?_ ?_
    | with_reducible refine Keeps.onlyIf ?_ (fun _ _ => ?_) | extract_lets | split | dsimp +zetaDelta only

theorem State.setFiltRun_keeps (s : State) (on : Bool) : Keeps [.regs, .hk] s (State.setFiltRun s on) := by
  unfold State.setFiltRun
  repeat' first
    | exact rfl | with_reducible exact Keeps.refl _ _ | with_reducible assumption
    | with_reducible refine (State.putB_keeps _ _ _).then ?_ ?_
    | with_reducible refine (State.setHk_keeps _ _ ?_).then ?_ ?_
    | with_reducible refine (State.put_keeps _ _ _).then ?_ ?_ | with_reducible exact id
    | with_reducible exact fun h => SMap.wf_set _ _ _ _ h | with_reducible exact fun h => SMap.wf_setRun _ _ _ _ h
    | with_reducible exact fun h => SMap.wf_setRun _ _ _ _ (SMap.wf_setRun _ _ _ _ h)
    | with_reducible exact fun h => SMap.wf_fillRun _ _ _ _ _ h | with_reducible exact fun _ => SMap.wf_nil _
    | exact fun _ => SMap.wf_nil 0 | with_reducible refine Keeps.ite ?_ ?_
    | with_reducible refine Keeps.each ?_ (fun _ _ _ => ?_) | extract_lets | split | dsimp +zetaDelta only

theorem filtRunWriteEffect_keeps (on : Bool) (s : State) : Keeps [.regs, .hk] s (filtRunWriteEffect on s) := by
  unfold filtRunWriteEffect
  repeat' first
    | exact rfl | with_reducible exact Keeps.refl _ _ | with_reducible assumption
    | with_reducible refine (State.setFiltRun_keeps _ _).then ?_ ?_ | with_reducible refine Keeps.ite ?_ ?_
    | extract_lets | split | dsimp +zetaDelta only

theorem latchEffect_keeps (s : State) : Keeps [.hk] s (latchEffect s) := by
  unfold latchEffect
  repeat' first
    | exact rfl | with_reducible exact Keeps.refl _ _ | with_reducible assumption
    | with_reducible refine (State.setHk_keeps _ _ ?_).then ?_ ?_ | with_reducible exact id
    | with_reducible exact fun h => SMap.wf_set _ _ _ _ h | with_reducible exact fun h => SMap.wf_setRun _ _ _ _ h
    | with_reducible exact fun h => SMap.wf_setRun _ _ _ _ (SMap.wf_setRun _ _ _ _ h)
    | with_reducible exact fun h => SMap.wf_fillRun _ _ _ _ _ h | with_reducible exact fun _ => SMap.wf_nil _
    | exact fun _ => SMap.wf_nil 0 | with_reducible refine Keeps.ite ?_ ?_ | extract_lets | split
    | dsimp +zetaDelta only

theorem State.filtCfg_keeps (s : State) (k : Nat) (v : Nat) : Keeps [.regs] s (State.filtCfg s k v) := by
  unfold State.filtCfg
  repeat' first
    | exact rfl | with_reducible exact Keeps.refl _ _ | with_reducible assumption
    | with_reducible refine (State.raise_keeps _ _).then ?_ ?_
    | with_reducible refine (State.put_keeps _ _ _).then ?_ ?_ | with_reducible refine Keeps.ite ?_ ?_ | extract_lets
    | split | dsimp +zetaDelta only

theorem filtCfgWriteEffect_keeps (k : Nat) (value : Word) (s : State) : Keeps [.regs] s (filtCfgWriteEffect k value
    s) := by
  unfold filtCfgWriteEffect
  repeat' first
    | exact rfl | with_reducible exact Keeps.refl _ _ | with_reducible assumption
    | with_reducible refine (State.filtCfg_keeps _ _ _).then ?_ ?_ | with_reducible refine Keeps.ite ?_ ?_
    | extract_lets | split | dsimp +zetaDelta only

theorem State.beginPage_keeps (s : State) (own : Bool) : Keeps [.regs, .hk] s (State.beginPage s own) := by
  unfold State.beginPage
  repeat' first
    | exact rfl | with_reducible exact Keeps.refl _ _ | with_reducible assumption
    | with_reducible refine (State.put_keeps _ _ _).then ?_ ?_
    | with_reducible refine (State.setHk_keeps _ _ ?_).then ?_ ?_
    | with_reducible refine (State.raise_keeps _ _).then ?_ ?_ | with_reducible exact id
    | with_reducible exact fun h => SMap.wf_set _ _ _ _ h | with_reducible exact fun h => SMap.wf_setRun _ _ _ _ h
    | with_reducible exact fun h => SMap.wf_setRun _ _ _ _ (SMap.wf_setRun _ _ _ _ h)
    | with_reducible exact fun h => SMap.wf_fillRun _ _ _ _ _ h | with_reducible exact fun _ => SMap.wf_nil _
    | exact fun _ => SMap.wf_nil 0 | with_reducible refine Keeps.ite ?_ ?_
    | with_reducible refine Keeps.onlyIf ?_ (fun _ _ => ?_) | extract_lets | split | dsimp +zetaDelta only

theorem enginePageReadEffect_keeps (s : State) : Keeps [.regs, .hk] s (enginePageReadEffect s) := by
  unfold enginePageReadEffect
  repeat' first
    | exact rfl | with_reducible exact Keeps.refl _ _ | with_reducible assumption
    | with_reducible refine (State.beginPage_keeps _ _).then ?_ ?_
    | with_reducible refine (State.setHk_keeps _ _ ?_).then ?_ ?_ | with_reducible exact id
    | with_reducible exact fun h => SMap.wf_set _ _ _ _ h | with_reducible exact fun h => SMap.wf_setRun _ _ _ _ h
    | with_reducible exact fun h => SMap.wf_setRun _ _ _ _ (SMap.wf_setRun _ _ _ _ h)
    | with_reducible exact fun h => SMap.wf_fillRun _ _ _ _ _ h | with_reducible exact fun _ => SMap.wf_nil _
    | exact fun _ => SMap.wf_nil 0 | with_reducible refine Keeps.ite ?_ ?_ | extract_lets | split
    | dsimp +zetaDelta only

theorem readEffect_keeps (s : State) : Keeps [.regs, .hk] s (readEffect s) := by
  unfold readEffect
  repeat' first
    | exact rfl | with_reducible exact Keeps.refl _ _ | with_reducible assumption
    | with_reducible refine (State.beginPage_keeps _ _).then ?_ ?_
    | with_reducible refine (State.raise_keeps _ _).then ?_ ?_ | with_reducible refine Keeps.ite ?_ ?_ | extract_lets
    | split | dsimp +zetaDelta only

theorem State.loadHkd_keeps (s : State) (c : Nat) (w : Nat) : Keeps [.regs, .hk] s (State.loadHkd s c w) := by
  unfold State.loadHkd
  repeat' first
    | exact rfl | with_reducible exact Keeps.refl _ _ | with_reducible assumption
    | with_reducible refine (State.setSpan_keeps _ _ _ _).then ?_ ?_
    | with_reducible refine (State.put_keeps _ _ _).then ?_ ?_
    | with_reducible refine (State.setHkdEnable_keeps _ _ _).then ?_ ?_ | with_reducible refine Keeps.ite ?_ ?_
    | extract_lets | split | dsimp +zetaDelta only

theorem State.putBytes_keeps (s : State) (r : FRow) (i : Nat) (bs : List Nat) : Keeps [.regs] s (State.putBytes s r
    i bs) := by
  induction bs generalizing s i with
  | nil => exact Keeps.refl _ _
  | cons b r ih => exact (ih _ _).then rfl (State.put_keeps _ _ _)

theorem enginePageReadDoneEffect_keeps (page : List Byte) (nack : Bool) (s : State) : Keeps [.regs, .hk] s
    (enginePageReadDoneEffect page nack s) := by
  unfold enginePageReadDoneEffect
  repeat' first
    | exact rfl | with_reducible exact Keeps.refl _ _ | with_reducible assumption
    | with_reducible refine (State.put_keeps _ _ _).then ?_ ?_
    | with_reducible refine (State.setHk_keeps _ _ ?_).then ?_ ?_
    | with_reducible refine (State.putBytes_keeps _ _ _ _).then ?_ ?_
    | with_reducible refine (State.loadHkd_keeps _ _ _).then ?_ ?_
    | with_reducible refine (State.raise_keeps _ _).then ?_ ?_ | with_reducible exact id
    | with_reducible exact fun h => SMap.wf_set _ _ _ _ h | with_reducible exact fun h => SMap.wf_setRun _ _ _ _ h
    | with_reducible exact fun h => SMap.wf_setRun _ _ _ _ (SMap.wf_setRun _ _ _ _ h)
    | with_reducible exact fun h => SMap.wf_fillRun _ _ _ _ _ h | with_reducible exact fun _ => SMap.wf_nil _
    | exact fun _ => SMap.wf_nil 0 | with_reducible refine Keeps.ite ?_ ?_
    | with_reducible refine Keeps.each ?_ (fun _ _ _ => ?_) | extract_lets | split | dsimp +zetaDelta only

theorem State.storeXfer_keeps (s : State) (v : Nat) : Keeps [.regs] s (State.storeXfer s v) := by
  unfold State.storeXfer
  repeat' first
    | exact rfl | with_reducible exact Keeps.refl _ _ | with_reducible assumption
    | with_reducible refine (State.put_keeps _ _ _).then ?_ ?_ | with_reducible refine Keeps.ite ?_ ?_ | extract_lets
    | split | dsimp +zetaDelta only

theorem State.xferWrite_keeps (s : State) (v : Nat) : Keeps [.regs, .hk] s (State.xferWrite s v) := by
  unfold State.xferWrite
  repeat' first
    | exact rfl | with_reducible exact Keeps.refl _ _ | with_reducible assumption
    | with_reducible refine (State.storeXfer_keeps _ _).then ?_ ?_
    | with_reducible refine (State.put_keeps _ _ _).then ?_ ?_
    | with_reducible refine (State.setHk_keeps _ _ ?_).then ?_ ?_
    | with_reducible refine (State.raise_keeps _ _).then ?_ ?_ | with_reducible exact id
    | with_reducible exact fun h => SMap.wf_set _ _ _ _ h | with_reducible exact fun h => SMap.wf_setRun _ _ _ _ h
    | with_reducible exact fun h => SMap.wf_setRun _ _ _ _ (SMap.wf_setRun _ _ _ _ h)
    | with_reducible exact fun h => SMap.wf_fillRun _ _ _ _ _ h | with_reducible exact fun _ => SMap.wf_nil _
    | exact fun _ => SMap.wf_nil 0 | with_reducible refine Keeps.ite ?_ ?_ | extract_lets | split
    | dsimp +zetaDelta only

theorem oeXferGoEffect_keeps (value : Word) (s : State) : Keeps [.regs, .hk] s (oeXferGoEffect value s) := by
  unfold oeXferGoEffect
  repeat' first
    | exact rfl | with_reducible exact Keeps.refl _ _ | with_reducible assumption
    | with_reducible refine (State.xferWrite_keeps _ _).then ?_ ?_ | with_reducible refine Keeps.ite ?_ ?_
    | extract_lets | split | dsimp +zetaDelta only

theorem xferDoneEffect_keeps (result : BitVec 2) (data : List Byte) (s : State) : Keeps [.regs, .hk] s
    (xferDoneEffect result data s) := by
  unfold xferDoneEffect
  repeat' first
    | exact rfl | with_reducible exact Keeps.refl _ _ | with_reducible assumption
    | with_reducible refine (State.put_keeps _ _ _).then ?_ ?_
    | with_reducible refine (State.setHk_keeps _ _ ?_).then ?_ ?_
    | with_reducible refine (State.putBytes_keeps _ _ _ _).then ?_ ?_
    | with_reducible refine (State.raise_keeps _ _).then ?_ ?_ | with_reducible exact id
    | with_reducible exact fun h => SMap.wf_set _ _ _ _ h | with_reducible exact fun h => SMap.wf_setRun _ _ _ _ h
    | with_reducible exact fun h => SMap.wf_setRun _ _ _ _ (SMap.wf_setRun _ _ _ _ h)
    | with_reducible exact fun h => SMap.wf_fillRun _ _ _ _ _ h | with_reducible exact fun _ => SMap.wf_nil _
    | exact fun _ => SMap.wf_nil 0 | with_reducible refine Keeps.ite ?_ ?_
    | with_reducible refine Keeps.onlyIf ?_ (fun _ _ => ?_) | extract_lets | split | dsimp +zetaDelta only

theorem State.railFound_keeps (s : State) (rail : Nat) : Keeps [.hk] s (State.railFound s rail) := by
  unfold State.railFound
  repeat' first
    | exact rfl | with_reducible exact Keeps.refl _ _ | with_reducible assumption
    | with_reducible refine (State.setHk_keeps _ _ ?_).then ?_ ?_ | with_reducible exact id
    | with_reducible exact fun h => SMap.wf_set _ _ _ _ h | with_reducible exact fun h => SMap.wf_setRun _ _ _ _ h
    | with_reducible exact fun h => SMap.wf_setRun _ _ _ _ (SMap.wf_setRun _ _ _ _ h)
    | with_reducible exact fun h => SMap.wf_fillRun _ _ _ _ _ h | with_reducible exact fun _ => SMap.wf_nil _
    | exact fun _ => SMap.wf_nil 0 | with_reducible refine Keeps.ite ?_ ?_ | extract_lets | split
    | dsimp +zetaDelta only

theorem railLossEffect_keeps (rail : Fin 2) (s : State) : Keeps [.regs, .hk] s (railLossEffect rail s) := by
  unfold railLossEffect
  repeat' first
    | exact rfl | with_reducible exact Keeps.refl _ _ | with_reducible assumption
    | with_reducible refine (State.put_keeps _ _ _).then ?_ ?_
    | with_reducible refine (State.setHk_keeps _ _ ?_).then ?_ ?_
    | with_reducible refine (State.raise_keeps _ _).then ?_ ?_ | with_reducible exact id
    | with_reducible exact fun h => SMap.wf_set _ _ _ _ h | with_reducible exact fun h => SMap.wf_setRun _ _ _ _ h
    | with_reducible exact fun h => SMap.wf_setRun _ _ _ _ (SMap.wf_setRun _ _ _ _ h)
    | with_reducible exact fun h => SMap.wf_fillRun _ _ _ _ _ h | with_reducible exact fun _ => SMap.wf_nil _
    | exact fun _ => SMap.wf_nil 0 | with_reducible refine Keeps.ite ?_ ?_
    | with_reducible refine Keeps.each ?_ (fun _ _ _ => ?_) | extract_lets | split | dsimp +zetaDelta only

theorem oeRailRetryEffect_keeps (rail : Fin 2) (good : Bool) (s : State) : Keeps [.regs, .hk] s (oeRailRetryEffect
    rail good s) := by
  unfold oeRailRetryEffect
  repeat' first
    | exact rfl | with_reducible exact Keeps.refl _ _ | with_reducible assumption
    | with_reducible refine (State.railFound_keeps _ _).then ?_ ?_
    | with_reducible refine (State.put_keeps _ _ _).then ?_ ?_ | with_reducible refine Keeps.ite ?_ ?_ | extract_lets
    | split | dsimp +zetaDelta only

theorem State.setOeRail_keeps (s : State) (rail : Nat) (on : Bool) (good : Bool) : Keeps [.regs, .hk] s
    (State.setOeRail s rail on good) := by
  unfold State.setOeRail
  repeat' first
    | exact rfl | with_reducible exact Keeps.refl _ _ | with_reducible assumption
    | with_reducible refine (State.putB_keeps _ _ _).then ?_ ?_
    | with_reducible refine (State.railFound_keeps _ _).then ?_ ?_
    | with_reducible refine (State.put_keeps _ _ _).then ?_ ?_ | with_reducible refine Keeps.ite ?_ ?_
    | with_reducible refine Keeps.onlyIf ?_ (fun _ _ => ?_) | extract_lets | split | dsimp +zetaDelta only

theorem oeCtlWriteEffect_keeps (en3v3 : Bool) (en1v8 : Bool) (good : Bool) (s : State) : Keeps [.regs, .hk] s
    (oeCtlWriteEffect en3v3 en1v8 good s) := by
  unfold oeCtlWriteEffect
  repeat' first
    | exact rfl | with_reducible exact Keeps.refl _ _ | with_reducible assumption
    | with_reducible refine (State.setOeRail_keeps _ _ _ _).then ?_ ?_ | with_reducible refine Keeps.ite ?_ ?_
    | extract_lets | split | dsimp +zetaDelta only

theorem State.leadEdge_keeps (s : State) (j : Nat) : Keeps [.regs, .hk] s (State.leadEdge s j) := by
  unfold State.leadEdge
  repeat' first
    | exact rfl | with_reducible exact Keeps.refl _ _ | with_reducible assumption
    | with_reducible refine (State.strobeOnce_keeps _ _).then ?_ ?_
    | with_reducible refine (State.urgRequest_keeps _ _).then ?_ ?_ | with_reducible refine Keeps.ite ?_ ?_
    | with_reducible refine Keeps.each ?_ (fun _ _ _ => ?_) | extract_lets | split | dsimp +zetaDelta only

theorem State.hkRelease_keeps (s : State) : Keeps [.regs, .hk] s (State.hkRelease s) := by
  unfold State.hkRelease
  repeat' first
    | exact rfl | with_reducible exact Keeps.refl _ _ | with_reducible assumption
    | with_reducible refine (State.setFiltRun_keeps _ _).then ?_ ?_
    | with_reducible refine (State.setHkaRun_keeps _ _ _).then ?_ ?_
    | with_reducible refine (State.setHk_keeps _ _ ?_).then ?_ ?_
    | with_reducible refine (State.restartSines_keeps _ _).then ?_ ?_ | with_reducible exact id
    | with_reducible exact fun h => SMap.wf_set _ _ _ _ h | with_reducible exact fun h => SMap.wf_setRun _ _ _ _ h
    | with_reducible exact fun h => SMap.wf_setRun _ _ _ _ (SMap.wf_setRun _ _ _ _ h)
    | with_reducible exact fun h => SMap.wf_fillRun _ _ _ _ _ h | with_reducible exact fun _ => SMap.wf_nil _
    | exact fun _ => SMap.wf_nil 0 | with_reducible refine Keeps.ite ?_ ?_ | extract_lets | split
    | dsimp +zetaDelta only

end Sys2Proof.Machine
end

