-- ==== Sys2Proof/Laws/KeepsHost.lean ====
section
/-!
SUPPORT. What each operation of Machine/Host.lean leaves unchanged, and that it keeps the canonical form.
-/

namespace Sys2Proof.Machine

open Sys2Proof

theorem State.hostCw_keeps (s : State) (n : Nat) (b : Bool) : Keeps [.regs, .counts, .ports] s (State.hostCw s n b)
    := by
  unfold State.hostCw
  repeat' first
    | exact rfl | with_reducible exact Keeps.refl _ _ | with_reducible assumption
    | with_reducible refine (State.setSide_keeps _ _ _ _).then ?_ ?_
    | with_reducible refine (State.countD0_keeps _ _ _ _).then ?_ ?_
    | with_reducible refine (State.addTo_keeps _ _ _).then ?_ ?_ | with_reducible refine Keeps.ite ?_ ?_
    | extract_lets | split | dsimp +zetaDelta only

theorem State.hostFlush_keeps (s : State) (n : Nat) (b : Bool) : Keeps [.regs, .counts, .ports] s (State.hostFlush s
    n b) := by
  unfold State.hostFlush
  repeat' first
    | exact rfl | with_reducible exact Keeps.refl _ _ | with_reducible assumption
    | with_reducible refine (State.hostGapStart_keeps _ _ _).then ?_ ?_
    | with_reducible refine (State.hostCw_keeps _ _ _).then ?_ ?_ | with_reducible refine Keeps.ite ?_ ?_
    | with_reducible refine Keeps.each ?_ (fun _ _ _ => ?_) | extract_lets | split | dsimp +zetaDelta only

theorem State.hostDown_keeps (s : State) (h : Nat) : Keeps [.regs, .counts, .ports] s (State.hostDown s h) := by
  unfold State.hostDown
  repeat' first
    | exact rfl | with_reducible exact Keeps.refl _ _ | with_reducible assumption
    | with_reducible refine (State.raiseLane_keeps _ _ _).then ?_ ?_
    | with_reducible refine (State.put_keeps _ _ _).then ?_ ?_
    | with_reducible refine (State.hostFlush_keeps _ _ _).then ?_ ?_ | with_reducible refine Keeps.ite ?_ ?_
    | with_reducible refine Keeps.onlyIf ?_ (fun _ _ => ?_) | extract_lets | split | dsimp +zetaDelta only

theorem hostLockAcqEffect_keeps (h : HostLane) (s : State) : Keeps [.regs] s (hostLockAcqEffect h s) := by
  unfold hostLockAcqEffect
  repeat' first
    | exact rfl | with_reducible exact Keeps.refl _ _ | with_reducible assumption
    | with_reducible refine (State.raise_keeps _ _).then ?_ ?_
    | with_reducible refine (State.put_keeps _ _ _).then ?_ ?_ | with_reducible refine Keeps.ite ?_ ?_
    | with_reducible refine Keeps.onlyIf ?_ (fun _ _ => ?_) | extract_lets | split | dsimp +zetaDelta only

theorem hostLockLostEffect_keeps (h : HostLane) (signal : Bool) (s : State) : Keeps [.regs, .counts, .ports] s
    (hostLockLostEffect h signal s) := by
  unfold hostLockLostEffect
  repeat' first
    | exact rfl | with_reducible exact Keeps.refl _ _ | with_reducible assumption
    | with_reducible refine (State.hostDown_keeps _ _).then ?_ ?_
    | with_reducible refine (State.raise_keeps _ _).then ?_ ?_
    | with_reducible refine (State.putB_keeps _ _ _).then ?_ ?_
    | with_reducible refine (State.put_keeps _ _ _).then ?_ ?_ | with_reducible refine Keeps.ite ?_ ?_ | extract_lets
    | split | dsimp +zetaDelta only

theorem rxRestartEffect_keeps (h : HostLane) (s : State) : Keeps [.regs, .counts, .ports] s (rxRestartEffect h s) :=
    by
  unfold rxRestartEffect
  repeat' first
    | exact rfl | with_reducible exact Keeps.refl _ _ | with_reducible assumption
    | with_reducible refine (State.put_keeps _ _ _).then ?_ ?_
    | with_reducible refine (State.hostDown_keeps _ _).then ?_ ?_ | with_reducible refine Keeps.ite ?_ ?_
    | with_reducible refine Keeps.onlyIf ?_ (fun _ _ => ?_) | extract_lets | split | dsimp +zetaDelta only

theorem hostTxCommitEffect_keeps (h : HostLane) (s : State) : Keeps [.regs] s (hostTxCommitEffect h s) := by
  unfold hostTxCommitEffect
  repeat' first
    | exact rfl | with_reducible exact Keeps.refl _ _ | with_reducible assumption
    | with_reducible refine (State.put_keeps _ _ _).then ?_ ?_ | with_reducible refine Keeps.ite ?_ ?_ | extract_lets
    | split | dsimp +zetaDelta only

theorem hostCodewordEffect_keeps (n : Lane) (portB : Bool) (s : State) : Keeps [.regs, .counts, .ports] s
    (hostCodewordEffect n portB s) := by
  unfold hostCodewordEffect
  repeat' first
    | exact rfl | with_reducible exact Keeps.refl _ _ | with_reducible assumption
    | with_reducible refine (State.hostCw_keeps _ _ _).then ?_ ?_ | with_reducible refine Keeps.ite ?_ ?_
    | extract_lets | split | dsimp +zetaDelta only

theorem amLockEffect_keeps (n : Lane) (portB : Bool) (on : Bool) (offA : Nat) (offB : Nat) (s : State) : Keeps
    [.regs, .counts, .ports] s (amLockEffect n portB on offA offB s) := by
  unfold amLockEffect
  repeat' first
    | exact rfl | with_reducible exact Keeps.refl _ _ | with_reducible assumption
    | with_reducible refine (State.putB_keeps _ _ _).then ?_ ?_
    | with_reducible refine (State.hostFlush_keeps _ _ _).then ?_ ?_
    | with_reducible refine (State.setSide_keeps _ _ _ _).then ?_ ?_ | with_reducible refine Keeps.ite ?_ ?_
    | with_reducible refine Keeps.onlyIf ?_ (fun _ _ => ?_) | extract_lets | split | dsimp +zetaDelta only

theorem hostGapEndEffect_keeps (n : Lane) (portB : Bool) (s : State) : Keeps [.ports] s (hostGapEndEffect n portB s)
    := by
  unfold hostGapEndEffect
  repeat' first
    | exact rfl | with_reducible exact Keeps.refl _ _ | with_reducible assumption
    | with_reducible refine (State.setSide_keeps _ _ _ _).then ?_ ?_ | with_reducible refine Keeps.ite ?_ ?_
    | extract_lets | split | dsimp +zetaDelta only

theorem State.idleIns_keeps (s : State) (n : Nat) : Keeps [.regs, .counts] s (State.idleIns s n) := by
  unfold State.idleIns
  repeat' first
    | exact rfl | with_reducible exact Keeps.refl _ _ | with_reducible assumption
    | with_reducible refine (State.countD0_keeps _ _ _ _).then ?_ ?_
    | with_reducible refine (State.addTo_keeps _ _ _).then ?_ ?_ | with_reducible refine Keeps.ite ?_ ?_
    | extract_lets | split | dsimp +zetaDelta only

theorem State.idleDel_keeps (s : State) (n : Nat) : Keeps [.regs, .counts] s (State.idleDel s n) := by
  unfold State.idleDel
  repeat' first
    | exact rfl | with_reducible exact Keeps.refl _ _ | with_reducible assumption
    | with_reducible refine (State.countD0_keeps _ _ _ _).then ?_ ?_
    | with_reducible refine (State.addTo_keeps _ _ _).then ?_ ?_ | with_reducible refine Keeps.ite ?_ ?_
    | extract_lets | split | dsimp +zetaDelta only

theorem State.txSlot_keeps (s : State) (n : Nat) (b : Bool) : Keeps [.regs, .counts, .ports] s (State.txSlot s n b)
    := by
  unfold State.txSlot
  repeat' first
    | exact rfl | with_reducible exact Keeps.refl _ _ | with_reducible assumption
    | with_reducible refine (State.setSide_keeps _ _ _ _).then ?_ ?_
    | with_reducible refine (State.raiseLane_keeps _ _ _).then ?_ ?_
    | with_reducible refine (State.idleIns_keeps _ _).then ?_ ?_
    | with_reducible refine (State.idleDel_keeps _ _).then ?_ ?_ | with_reducible refine Keeps.ite ?_ ?_
    | extract_lets | split | dsimp +zetaDelta only

theorem State.txSlots_keeps (s : State) (n : Nat) (b : Bool) (k : Nat) : Keeps [.regs, .counts, .ports] s
    (State.txSlots s n b k) := by
  unfold State.txSlots
  repeat' first
    | exact rfl | with_reducible exact Keeps.refl _ _ | with_reducible assumption
    | with_reducible refine (State.txSlot_keeps _ _ _).then ?_ ?_
    | with_reducible refine (State.setPort_keeps _ _ _).then ?_ ?_ | with_reducible refine Keeps.ite ?_ ?_
    | with_reducible refine Keeps.each ?_ (fun _ _ _ => ?_) | extract_lets | split | dsimp +zetaDelta only

theorem State.nmWrite_keeps (s : State) (n : Nat) (b : Bool) (blk : Block66 × Bool) : Keeps [.regs, .ports] s
    (State.nmWrite s n b blk) := by
  unfold State.nmWrite
  repeat' first
    | exact rfl | with_reducible exact Keeps.refl _ _ | with_reducible assumption
    | with_reducible refine (State.setNm_keeps _ _ _ _).then ?_ ?_
    | with_reducible refine (State.raiseLane_keeps _ _ _).then ?_ ?_
    | with_reducible refine (State.setSide_keeps _ _ _ _).then ?_ ?_ | with_reducible refine Keeps.ite ?_ ?_
    | with_reducible refine Keeps.onlyIf ?_ (fun _ _ => ?_) | extract_lets | split | dsimp +zetaDelta only

theorem State.nmCodeword_keeps (s : State) (n : Nat) (b : Bool) (bs : List (Block66 × Bool)) : Keeps [.regs, .ports]
    s (State.nmCodeword s n b bs) := by
  unfold State.nmCodeword
  repeat' first
    | exact rfl | with_reducible exact Keeps.refl _ _ | with_reducible assumption
    | with_reducible refine (State.nmWrite_keeps _ _ _ _).then ?_ ?_
    | with_reducible refine (State.setSide_keeps _ _ _ _).then ?_ ?_ | with_reducible refine Keeps.ite ?_ ?_
    | with_reducible refine Keeps.each ?_ (fun _ _ _ => ?_) | extract_lets | split | dsimp +zetaDelta only

theorem State.mergeSets_keeps (s : State) (n : Nat) (k : Nat) : Keeps [.regs, .ports] s (State.mergeSets s n k) :=
    by
  induction k generalizing s with
  | zero => exact Keeps.refl _ _
  | succ j ih =>
    unfold State.mergeSets
    repeat' first
    | exact rfl
    | with_reducible exact Keeps.refl _ _
    | with_reducible refine (ih _).then ?_ ?_
    | with_reducible refine (State.nmCodeword_keeps _ _ _ _).then ?_ ?_
    | with_reducible refine (State.setPort_keeps _ _ _).then ?_ ?_
    | extract_lets
    | split

theorem State.countLineCw_keeps (s : State) (n : Nat) (b : Bool) (bad : Bool) : Keeps [.regs, .counts] s
    (State.countLineCw s n b bad) := by
  unfold State.countLineCw
  repeat' first
    | exact rfl | with_reducible exact Keeps.refl _ _ | with_reducible assumption
    | with_reducible refine (State.countD0_keeps _ _ _ _).then ?_ ?_
    | with_reducible refine (State.addTo_keeps _ _ _).then ?_ ?_ | with_reducible refine Keeps.ite ?_ ?_
    | with_reducible refine Keeps.onlyIf ?_ (fun _ _ => ?_) | extract_lets | split | dsimp +zetaDelta only

theorem State.lineBlocks_keeps (s : State) (n : Nat) (streamB : Bool) (groupStart : Bool) (bs : List (Block66 ×
    Bool)) : Keeps [.regs, .ports] s (State.lineBlocks s n streamB groupStart bs) := by
  unfold State.lineBlocks
  repeat' first
    | exact rfl | with_reducible exact Keeps.refl _ _ | with_reducible assumption
    | with_reducible refine (State.nmCodeword_keeps _ _ _ _).then ?_ ?_
    | with_reducible refine (State.setPort_keeps _ _ _).then ?_ ?_
    | with_reducible refine (State.mergeSets_keeps _ _ _).then ?_ ?_ | with_reducible refine Keeps.ite ?_ ?_
    | extract_lets | split | dsimp +zetaDelta only

theorem lineRsCodewordEffect_keeps (n : Lane) (streamB : Bool) (upsets : List Nat) (s : State) : Keeps [.regs,
    .counts, .ports] s (lineRsCodewordEffect n streamB upsets s) := by
  unfold lineRsCodewordEffect
  repeat' first
    | exact rfl | with_reducible exact Keeps.refl _ _ | with_reducible assumption
    | with_reducible refine (State.setPort_keeps _ _ _).then ?_ ?_
    | with_reducible refine (State.lineBlocks_keeps _ _ _ _ _).then ?_ ?_
    | with_reducible refine (State.countLineCw_keeps _ _ _ _).then ?_ ?_
    | with_reducible refine (State.setSide_keeps _ _ _ _).then ?_ ?_ | with_reducible refine Keeps.ite ?_ ?_
    | extract_lets | split | dsimp +zetaDelta only

theorem lfStartEffect_keeps (n : Lane) (portB : Bool) (s : State) : Keeps [.regs, .ports] s (lfStartEffect n portB
    s) := by
  unfold lfStartEffect
  repeat' first
    | exact rfl | with_reducible exact Keeps.refl _ _ | with_reducible assumption
    | with_reducible refine (State.setSide_keeps _ _ _ _).then ?_ ?_
    | with_reducible refine (State.raiseLane_keeps _ _ _).then ?_ ?_
    | with_reducible refine (State.put_keeps _ _ _).then ?_ ?_ | with_reducible refine Keeps.ite ?_ ?_ | extract_lets
    | split | dsimp +zetaDelta only

theorem resumeEffect_keeps (n : Lane) (portB : Bool) (s : State) : Keeps [.regs, .ports] s (resumeEffect n portB s)
    := by
  unfold resumeEffect
  repeat' first
    | exact rfl | with_reducible exact Keeps.refl _ _ | with_reducible assumption
    | with_reducible refine (State.setSide_keeps _ _ _ _).then ?_ ?_
    | with_reducible refine (State.raiseLane_keeps _ _ _).then ?_ ?_
    | with_reducible refine (State.put_keeps _ _ _).then ?_ ?_ | with_reducible refine Keeps.ite ?_ ?_ | extract_lets
    | split | dsimp +zetaDelta only

theorem nutmegReadResumeEffect_keeps (n : Lane) (portB : Bool) (s : State) : Keeps [.ports] s
    (nutmegReadResumeEffect n portB s) := by
  unfold nutmegReadResumeEffect
  repeat' first
    | exact rfl | with_reducible exact Keeps.refl _ _ | with_reducible assumption
    | with_reducible refine (State.setSide_keeps _ _ _ _).then ?_ ?_ | with_reducible refine Keeps.ite ?_ ?_
    | extract_lets | split | dsimp +zetaDelta only

theorem State.rxSend_keeps (s : State) (n : Nat) (b : Bool) (x : PortSide) (blk : Block66) (rest : List (Block66 ×
    Bool)) : Keeps [.regs, .counts, .ports] s (State.rxSend s n b x blk rest) := by
  unfold State.rxSend
  repeat' first
    | exact rfl | with_reducible exact Keeps.refl _ _ | with_reducible assumption
    | with_reducible refine (State.countD0_keeps _ _ _ _).then ?_ ?_
    | with_reducible refine (State.setSide_keeps _ _ _ _).then ?_ ?_ | with_reducible refine Keeps.ite ?_ ?_
    | extract_lets | split | dsimp +zetaDelta only

theorem State.rxSlot_keeps (s : State) (n : Nat) (b : Bool) : Keeps [.regs, .counts, .ports] s (State.rxSlot s n b)
    := by
  unfold State.rxSlot
  repeat' first
    | exact rfl | with_reducible exact Keeps.refl _ _ | with_reducible assumption
    | with_reducible refine (State.rxSend_keeps _ _ _ _ _ _).then ?_ ?_
    | with_reducible refine (State.raiseLane_keeps _ _ _).then ?_ ?_
    | with_reducible refine (State.idleIns_keeps _ _).then ?_ ?_
    | with_reducible refine (State.idleDel_keeps _ _).then ?_ ?_
    | with_reducible refine (State.poisonUse_keeps _ _ _).then ?_ ?_ | with_reducible refine Keeps.ite ?_ ?_
    | extract_lets | split | dsimp +zetaDelta only

theorem State.rxSlots_keeps (s : State) (n : Nat) (b : Bool) (k : Nat) : Keeps [.regs, .counts, .ports] s
    (State.rxSlots s n b k) := by
  unfold State.rxSlots
  repeat' first
    | exact rfl | with_reducible exact Keeps.refl _ _ | with_reducible assumption
    | with_reducible refine (State.rxSlot_keeps _ _ _).then ?_ ?_ | with_reducible refine Keeps.ite ?_ ?_
    | with_reducible refine Keeps.each ?_ (fun _ _ _ => ?_) | extract_lets | split | dsimp +zetaDelta only

theorem nmHwmClrEffect_keeps (n : Lane) (s : State) : Keeps [.regs] s (nmHwmClrEffect n s) := by
  unfold nmHwmClrEffect
  repeat' first
    | exact rfl | with_reducible exact Keeps.refl _ _ | with_reducible assumption
    | with_reducible refine (State.put_keeps _ _ _).then ?_ ?_ | with_reducible refine Keeps.ite ?_ ?_ | extract_lets
    | split | dsimp +zetaDelta only

theorem State.monFlush_keeps (s : State) (n : Nat) (b : Bool) : Keeps [.regs, .ports] s (State.monFlush s n b) := by
  unfold State.monFlush
  repeat' first
    | exact rfl | with_reducible exact Keeps.refl _ _ | with_reducible assumption
    | with_reducible refine (State.setSide_keeps _ _ _ _).then ?_ ?_
    | with_reducible refine (State.setPort_keeps _ _ _).then ?_ ?_
    | with_reducible refine (State.addTo_keeps _ _ _).then ?_ ?_ | with_reducible refine Keeps.ite ?_ ?_
    | extract_lets | split | dsimp +zetaDelta only

theorem monAmLockEffect_keeps (n : Lane) (portB : Bool) (on : Bool) (offA : Nat) (offB : Nat) (s : State) : Keeps
    [.regs, .ports] s (monAmLockEffect n portB on offA offB s) := by
  unfold monAmLockEffect
  repeat' first
    | exact rfl | with_reducible exact Keeps.refl _ _ | with_reducible assumption
    | with_reducible refine (State.putB_keeps _ _ _).then ?_ ?_
    | with_reducible refine (State.monFlush_keeps _ _ _).then ?_ ?_
    | with_reducible refine (State.setSide_keeps _ _ _ _).then ?_ ?_ | with_reducible refine Keeps.ite ?_ ?_
    | extract_lets | split | dsimp +zetaDelta only

end Sys2Proof.Machine
end

