-- ==== Sys2Proof/Laws/KeepsLineTx.lean ====
section
/-!
SUPPORT. What each operation of Machine/LineTx.lean leaves unchanged, and that it keeps the canonical form.
-/

namespace Sys2Proof.Machine

open Sys2Proof

theorem State.setReason_keeps (s : State) (n : Nat) (bit : Nat) (on : Bool) : Keeps [.regs] s (State.setReason s n
    bit on) := by
  unfold State.setReason
  repeat' first
    | exact rfl | with_reducible exact Keeps.refl _ _ | with_reducible assumption
    | with_reducible refine (State.put_keeps _ _ _).then ?_ ?_ | with_reducible refine Keeps.ite ?_ ?_ | extract_lets
    | split | dsimp +zetaDelta only

theorem squelchEffect_keeps (n : Lane) (on : Bool) (s : State) : Keeps [.regs] s (squelchEffect n on s) := by
  unfold squelchEffect
  repeat' first
    | exact rfl | with_reducible exact Keeps.refl _ _ | with_reducible assumption
    | with_reducible refine (State.setReason_keeps _ _ _ _).then ?_ ?_
    | with_reducible refine (State.putB_keeps _ _ _).then ?_ ?_ | with_reducible refine Keeps.ite ?_ ?_ | extract_lets
    | split | dsimp +zetaDelta only

theorem State.commitTaps_keeps (s : State) (n : Nat) : Keeps [.regs, .lanes] s (State.commitTaps s n) := by
  unfold State.commitTaps
  repeat' first
    | exact rfl | with_reducible exact Keeps.refl _ _ | with_reducible assumption
    | with_reducible refine (State.put_keeps _ _ _).then ?_ ?_
    | with_reducible refine (State.onLane_keeps _ _ _).then ?_ ?_ | with_reducible refine Keeps.ite ?_ ?_
    | with_reducible refine Keeps.each ?_ (fun _ _ _ => ?_) | extract_lets | split | dsimp +zetaDelta only

theorem State.loadTx_keeps (s : State) (n : Nat) (t : Trained) : Keeps [.regs, .lanes] s (State.loadTx s n t) := by
  unfold State.loadTx
  repeat' first
    | exact rfl | with_reducible exact Keeps.refl _ _ | with_reducible assumption
    | with_reducible refine (State.raiseLane_keeps _ _ _).then ?_ ?_
    | with_reducible refine (State.onLane_keeps _ _ _).then ?_ ?_
    | with_reducible refine (State.putZ_keeps _ _ _).then ?_ ?_ | with_reducible refine Keeps.ite ?_ ?_
    | with_reducible refine Keeps.each ?_ (fun _ _ _ => ?_) | with_reducible refine Keeps.onlyIf ?_ (fun _ _ => ?_)
    | extract_lets | split | dsimp +zetaDelta only

theorem State.loadTxBcn_keeps (s : State) (n : Nat) (t : Trained) : Keeps [.regs, .bcn, .syn] s (State.loadTxBcn s n
    t) := by
  unfold State.loadTxBcn
  repeat' first
    | exact rfl | with_reducible exact Keeps.refl _ _ | with_reducible assumption
    | with_reducible refine (State.txChannel_keeps _ _ _).then ?_ ?_
    | with_reducible refine (State.put_keeps _ _ _).then ?_ ?_ | with_reducible refine Keeps.ite ?_ ?_
    | with_reducible refine Keeps.onlyIf ?_ (fun _ _ => ?_) | extract_lets | split | dsimp +zetaDelta only

theorem State.txBoundary_keeps (s : State) (n : Nat) : Keeps [.regs, .lanes, .bcn, .syn] s (State.txBoundary s n) :=
    by
  unfold State.txBoundary
  repeat' first
    | exact rfl | with_reducible exact Keeps.refl _ _ | with_reducible assumption
    | with_reducible refine (State.onLane_keeps _ _ _).then ?_ ?_
    | with_reducible refine (State.loadTx_keeps _ _ _).then ?_ ?_
    | with_reducible refine (State.loadTxBcn_keeps _ _ _).then ?_ ?_
    | with_reducible refine (State.commitTaps_keeps _ _).then ?_ ?_ | with_reducible refine Keeps.ite ?_ ?_
    | with_reducible refine Keeps.onlyIf ?_ (fun _ _ => ?_) | extract_lets | split | dsimp +zetaDelta only

theorem squelchReleaseEffect_keeps (n : Lane) (s : State) : Keeps [.regs, .lanes] s (squelchReleaseEffect n s) := by
  unfold squelchReleaseEffect
  repeat' first
    | exact rfl | with_reducible exact Keeps.refl _ _ | with_reducible assumption
    | with_reducible refine (State.onLane_keeps _ _ _).then ?_ ?_
    | with_reducible refine (State.put_keeps _ _ _).then ?_ ?_ | with_reducible refine Keeps.ite ?_ ?_ | extract_lets
    | split | dsimp +zetaDelta only

theorem patternEffect_keeps (n : Lane) (value : BitVec 3) (s : State) : Keeps [.regs, .lanes] s (patternEffect n
    value s) := by
  unfold patternEffect
  repeat' first
    | exact rfl | with_reducible exact Keeps.refl _ _ | with_reducible assumption
    | with_reducible refine (State.onLane_keeps _ _ _).then ?_ ?_
    | with_reducible refine (State.put_keeps _ _ _).then ?_ ?_ | with_reducible refine Keeps.ite ?_ ?_ | extract_lets
    | split | dsimp +zetaDelta only

theorem commitEffect_keeps (n : Lane) (s : State) : Keeps [.regs, .lanes] s (commitEffect n s) := by
  unfold commitEffect
  repeat' first
    | exact rfl | with_reducible exact Keeps.refl _ _ | with_reducible assumption
    | with_reducible refine (State.raiseLane_keeps _ _ _).then ?_ ?_
    | with_reducible refine (State.commitTaps_keeps _ _).then ?_ ?_
    | with_reducible refine (State.onLane_keeps _ _ _).then ?_ ?_ | with_reducible refine Keeps.ite ?_ ?_
    | extract_lets | split | dsimp +zetaDelta only

theorem State.takeBeacon_keeps (s : State) (n : Nat) (k : Nat) : Keeps [.bcn] s (State.takeBeacon s n k).2 := by
  unfold State.takeBeacon
  repeat' first
    | exact rfl | with_reducible exact Keeps.refl _ _ | with_reducible assumption
    | with_reducible refine (State.setBcn_keeps _ _ _).then ?_ ?_ | with_reducible refine Keeps.ite ?_ ?_
    | extract_lets | split | dsimp +zetaDelta only

theorem State.sendSums_keeps (s : State) (n : Nat) (sums : List (Int × Nat)) : Keeps [.regs, .counts, .lanes] s
    (State.sendSums s n sums) := by
  unfold State.sendSums
  repeat' first
    | exact rfl | with_reducible exact Keeps.refl _ _ | with_reducible assumption
    | with_reducible refine (State.onLane_keeps _ _ _).then ?_ ?_
    | with_reducible refine (State.countLane_keeps _ _ _ _).then ?_ ?_
    | with_reducible refine (State.addSat_keeps _ _ _).then ?_ ?_
    | with_reducible refine (State.raiseLane_keeps _ _ _).then ?_ ?_ | with_reducible refine Keeps.ite ?_ ?_
    | with_reducible refine Keeps.each ?_ (fun _ _ _ => ?_) | extract_lets | split | dsimp +zetaDelta only

theorem State.sendSymbols_keeps (s : State) (n : Nat) (w : Nat) : Keeps [.regs, .counts, .lanes, .bcn] s
    (State.sendSymbols s n w) := by
  unfold State.sendSymbols
  repeat' first
    | exact rfl | with_reducible exact Keeps.refl _ _ | with_reducible assumption
    | with_reducible refine (State.takeBeacon_keeps _ _ _).then ?_ ?_
    | with_reducible refine (State.onLane_keeps _ _ _).then ?_ ?_
    | with_reducible refine (State.sendSums_keeps _ _ _).then ?_ ?_ | with_reducible refine Keeps.ite ?_ ?_
    | extract_lets | split | dsimp +zetaDelta only

theorem State.sendTail_keeps (s : State) (n : Nat) : Keeps [.regs, .counts, .lanes, .bcn] s (State.sendTail s n) :=
    by
  unfold State.sendTail
  repeat' first
    | exact rfl | with_reducible exact Keeps.refl _ _ | with_reducible assumption
    | with_reducible refine (State.takeBeacon_keeps _ _ _).then ?_ ?_
    | with_reducible refine (State.sendSums_keeps _ _ _).then ?_ ?_
    | with_reducible refine (State.onLane_keeps _ _ _).then ?_ ?_ | with_reducible refine Keeps.ite ?_ ?_
    | extract_lets | split | dsimp +zetaDelta only

theorem squelchEntryEffect_keeps (n : Lane) (s : State) : Keeps [.regs, .counts, .lanes, .bcn, .syn] s
    (squelchEntryEffect n s) := by
  unfold squelchEntryEffect
  repeat' first
    | exact rfl | with_reducible exact Keeps.refl _ _ | with_reducible assumption
    | with_reducible refine (State.txBoundary_keeps _ _).then ?_ ?_
    | with_reducible refine (State.truncFrame_keeps _ _).then ?_ ?_
    | with_reducible refine (State.put_keeps _ _ _).then ?_ ?_
    | with_reducible refine (State.sendTail_keeps _ _).then ?_ ?_ | with_reducible refine Keeps.ite ?_ ?_
    | extract_lets | split | dsimp +zetaDelta only

theorem State.formCodeword_keeps (s : State) (n : Nat) : Keeps [.regs, .counts, .queues, .lanes, .bcn, .syn] s
    (State.formCodeword s n) := by
  unfold State.formCodeword
  repeat' first
    | exact rfl | with_reducible exact Keeps.refl _ _ | with_reducible assumption
    | with_reducible refine (State.onLane_keeps _ _ _).then ?_ ?_
    | with_reducible refine (State.txBoundary_keeps _ _).then ?_ ?_
    | with_reducible refine (State.setQueue_keeps _ _ _).then ?_ ?_
    | with_reducible refine (State.countLane_keeps _ _ _ _).then ?_ ?_
    | with_reducible refine (State.raiseLane_keeps _ _ _).then ?_ ?_
    | with_reducible refine (State.poisonUse_keeps _ _ _).then ?_ ?_
    | with_reducible refine (State.addTo_keeps _ _ _).then ?_ ?_
    | with_reducible refine (State.sendSymbols_keeps _ _ _).then ?_ ?_ | with_reducible refine Keeps.ite ?_ ?_
    | with_reducible refine Keeps.onlyIf ?_ (fun _ _ => ?_) | extract_lets | split | dsimp +zetaDelta only

theorem codewordEncodeEffect_keeps (n : Lane) (s : State) : Keeps [.regs, .counts, .queues, .lanes, .bcn, .syn] s
    (codewordEncodeEffect n s) := by
  unfold codewordEncodeEffect
  repeat' first
    | exact rfl | with_reducible exact Keeps.refl _ _ | with_reducible assumption
    | with_reducible refine (State.formCodeword_keeps _ _).then ?_ ?_ | with_reducible refine Keeps.ite ?_ ?_
    | extract_lets | split | dsimp +zetaDelta only

end Sys2Proof.Machine
end

