-- ==== Sys2Proof/Laws/KeepsRxLink.lean ====
section
/-!
SUPPORT. What each operation of Machine/RxLink.lean leaves unchanged, and that it keeps the canonical form.
-/

namespace Sys2Proof.Machine

open Sys2Proof

theorem State.sendOut_keeps (s : State) (n : Nat) (b : Bool) (k : Nat) : Keeps [.queues, .ports] s (State.sendOut s
    n b k) := by
  induction k generalizing s with
  | zero => exact Keeps.refl _ _
  | succ j ih =>
    unfold State.sendOut
    split
    · exact Keeps.refl _ _
    · refine Keeps.ite ?_ (Keeps.refl _ _)
      exact (ih _).then rfl ((State.pushQ_keeps _ _ _).then rfl ((State.setPort_keeps _ _ _).weaken rfl))

theorem State.drainOut_keeps (s : State) (n : Nat) (b : Bool) : Keeps [.queues, .ports] s (State.drainOut s n b) :=
    by
  unfold State.drainOut
  repeat' first
    | exact rfl | with_reducible exact Keeps.refl _ _ | with_reducible assumption
    | with_reducible refine (State.sendOut_keeps _ _ _ _).then ?_ ?_ | with_reducible refine Keeps.ite ?_ ?_
    | extract_lets | split | dsimp +zetaDelta only

theorem State.sendRow_keeps (s : State) (n : Nat) (b : Bool) (row : Nat) (flag : Bool) : Keeps [.regs, .queues,
    .ports] s (State.sendRow s n b row flag) := by
  unfold State.sendRow
  repeat' first
    | exact rfl | with_reducible exact Keeps.refl _ _ | with_reducible assumption
    | with_reducible refine (State.setSide_keeps _ _ _ _).then ?_ ?_
    | with_reducible refine (State.setPort_keeps _ _ _).then ?_ ?_
    | with_reducible refine (State.drainOut_keeps _ _ _).then ?_ ?_
    | with_reducible refine (State.addTo_keeps _ _ _).then ?_ ?_ | with_reducible refine Keeps.ite ?_ ?_
    | with_reducible refine Keeps.onlyIf ?_ (fun _ _ => ?_) | extract_lets | split | dsimp +zetaDelta only

theorem State.decodeRow_keeps (s : State) (n : Nat) (b : Bool) (valid : Bool) (start : Bool) (row : Nat) (flag :
    Bool) : Keeps [.ports] s (State.decodeRow s n b valid start row flag) := by
  unfold State.decodeRow
  repeat' first
    | exact rfl | with_reducible exact Keeps.refl _ _ | with_reducible assumption
    | with_reducible refine (State.setPort_keeps _ _ _).then ?_ ?_ | with_reducible refine Keeps.ite ?_ ?_
    | extract_lets | split | dsimp +zetaDelta only

theorem State.d0Take_keeps (s : State) (n : Nat) (msg : Nat) (forced : Bool) (b : Bool) (valid : Bool) (start :
    Bool) : Keeps [.freeCtr, .regs, .queues, .lanes, .ports] s (State.d0Take s n msg forced b valid start) := by
  unfold State.d0Take
  repeat' first
    | exact rfl | with_reducible exact Keeps.refl _ _ | with_reducible assumption
    | with_reducible refine (State.onLane_keeps _ _ _).then ?_ ?_
    | with_reducible refine (State.decodeRow_keeps _ _ _ _ _ _ _).then ?_ ?_
    | with_reducible refine (State.sendRow_keeps _ _ _ _ _).then ?_ ?_ | exact Or.inr (by decide)
    | with_reducible exact Or.inl rfl | with_reducible exact id | with_reducible refine Keeps.ite ?_ ?_ | extract_lets
    | split | with_reducible apply Keeps.upd | dsimp +zetaDelta only
    | with_reducible exact fun h => SMap.wf_set _ _ _ _ h | with_reducible exact fun h => SMap.rising_set _ _ _ _ h
    | with_reducible exact fun h => SMap.rising_drop _ _ h | with_reducible exact fun h => SMap.wf_setRun _ _ _ _ h
    | with_reducible exact fun h => SMap.wf_setRun _ _ _ _ (SMap.wf_setRun _ _ _ _ h)
    | with_reducible exact fun h => SMap.wf_fillRun _ _ _ _ _ h | with_reducible exact fun h => SMap.wf_drop _ _ _ h
    | with_reducible exact fun _ => SMap.wf_nil _ | with_reducible exact fun h => by simpa using h | exact id

theorem State.d0Status_keeps (s : State) (n : Nat) (msg : Nat) (st : Nat) : Keeps [.freeCtr, .regs, .queues, .lanes,
    .ports] s (State.d0Status s n msg st) := by
  unfold State.d0Status
  repeat' first
    | exact rfl | with_reducible exact Keeps.refl _ _ | with_reducible assumption
    | with_reducible refine (State.d0Take_keeps _ _ _ _ _ _ _).then ?_ ?_ | with_reducible refine Keeps.ite ?_ ?_
    | extract_lets | split | dsimp +zetaDelta only

theorem State.d0Consume_keeps (s : State) (n : Nat) : Keeps [.freeCtr, .regs, .queues, .lanes, .ports] s
    (State.d0Consume s n) := by
  unfold State.d0Consume
  repeat' first
    | exact rfl | with_reducible exact Keeps.refl _ _ | with_reducible assumption
    | with_reducible refine (State.popQ_keeps _ _).then ?_ ?_
    | with_reducible refine (State.poisonUse_keeps _ _ _).then ?_ ?_
    | with_reducible refine (State.d0Status_keeps _ _ _ _).then ?_ ?_ | with_reducible refine Keeps.ite ?_ ?_
    | with_reducible refine Keeps.onlyIf ?_ (fun _ _ => ?_) | extract_lets | split | dsimp +zetaDelta only

theorem State.rxForward_keeps (s : State) (n : Nat) : Keeps [.freeCtr, .regs, .queues, .lanes, .ports] s
    (State.rxForward s n) := by
  unfold State.rxForward
  repeat' first
    | exact rfl | with_reducible exact Keeps.refl _ _ | with_reducible assumption
    | with_reducible refine (State.d0Consume_keeps _ _).then ?_ ?_
    | with_reducible refine (State.pushQ_keeps _ _ _).then ?_ ?_
    | with_reducible refine (State.popQ_keeps _ _).then ?_ ?_ | with_reducible refine Keeps.ite ?_ ?_ | extract_lets
    | split | dsimp +zetaDelta only

theorem State.d0Forced_keeps (s : State) (n : Nat) : Keeps [.freeCtr, .regs, .queues, .lanes, .ports] s
    (State.d0Forced s n) := by
  unfold State.d0Forced
  repeat' first
    | exact rfl | with_reducible exact Keeps.refl _ _ | with_reducible assumption
    | with_reducible refine (State.d0Take_keeps _ _ _ _ _ _ _).then ?_ ?_
    | with_reducible refine (State.freed_keeps _).then ?_ ?_
    | with_reducible refine (State.gapStart_keeps _ _ _ _).then ?_ ?_ | with_reducible refine Keeps.ite ?_ ?_
    | with_reducible refine Keeps.onlyIf ?_ (fun _ _ => ?_) | extract_lets | split | dsimp +zetaDelta only

end Sys2Proof.Machine
end

