-- ==== Sys2Proof/Laws/KeepsLock.lean ====
section
/-!
SUPPORT. What each operation of Machine/Lock.lean leaves unchanged, and that it keeps the canonical form.
-/

namespace Sys2Proof.Machine

open Sys2Proof

theorem State.searchWord_keeps (s : State) (n : Nat) (w : SoftWord) : Keeps [.lanes] s (State.searchWord s n w) :=
    by
  unfold State.searchWord
  repeat' first
    | exact rfl | with_reducible exact Keeps.refl _ _ | with_reducible assumption
    | with_reducible refine (State.onLane_keeps _ _ _).then ?_ ?_ | with_reducible refine Keeps.ite ?_ ?_
    | extract_lets | split | dsimp +zetaDelta only

theorem State.groupAcq_keeps (s : State) (n : Nat) (k : Nat) (b : Bool) : Keeps [.regs, .lanes] s (State.groupAcq s
    n k b) := by
  unfold State.groupAcq
  repeat' first
    | exact rfl | with_reducible exact Keeps.refl _ _ | with_reducible assumption
    | with_reducible refine (State.put_keeps _ _ _).then ?_ ?_
    | with_reducible refine (State.raiseLane_keeps _ _ _).then ?_ ?_
    | with_reducible refine (State.onLane_keeps _ _ _).then ?_ ?_ | with_reducible refine Keeps.ite ?_ ?_
    | extract_lets | split | dsimp +zetaDelta only

theorem State.lockAt_keeps (s : State) (n : Nat) (o : Nat) (b : Bool) (g : Option (Nat × Bool)) : Keeps [.regs,
    .counts, .lanes, .dies] s (State.lockAt s n o b g) := by
  unfold State.lockAt
  repeat' first
    | exact rfl | with_reducible exact Keeps.refl _ _ | with_reducible assumption
    | with_reducible refine (State.put_keeps _ _ _).then ?_ ?_
    | with_reducible refine (State.onLane_keeps _ _ _).then ?_ ?_
    | with_reducible refine (State.groupAcq_keeps _ _ _ _).then ?_ ?_
    | with_reducible refine (State.enterTrack_keeps _ _).then ?_ ?_
    | with_reducible refine (State.countLane_keeps _ _ _ _).then ?_ ?_ | with_reducible refine Keeps.ite ?_ ?_
    | extract_lets | split | dsimp +zetaDelta only

theorem syndromeLockEffect_keeps (n : Lane) (s : State) : Keeps [.regs, .counts, .lanes, .dies] s
    (syndromeLockEffect n s) := by
  unfold syndromeLockEffect
  repeat' first
    | exact rfl | with_reducible exact Keeps.refl _ _ | with_reducible assumption
    | with_reducible refine (State.lockAt_keeps _ _ _ _ _).then ?_ ?_ | with_reducible refine Keeps.ite ?_ ?_
    | extract_lets | split | dsimp +zetaDelta only

theorem State.groupStep_keeps (s : State) (n : Nat) (b : Bool) (sy : Nat) (d : Decoded) (poison : Bool) : Keeps
    [.regs, .lanes] s (State.groupStep s n b sy d poison) := by
  unfold State.groupStep
  repeat' first
    | exact rfl | with_reducible exact Keeps.refl _ _ | with_reducible assumption
    | with_reducible refine (State.onLane_keeps _ _ _).then ?_ ?_
    | with_reducible refine (State.put_keeps _ _ _).then ?_ ?_
    | with_reducible refine (State.groupAcq_keeps _ _ _ _).then ?_ ?_ | with_reducible refine Keeps.ite ?_ ?_
    | extract_lets | split | dsimp +zetaDelta only

theorem State.countCodeword_keeps (s : State) (n : Nat) (k : Nat) (d : Decoded) (poison : Bool) : Keeps [.regs,
    .counts, .lanes] s (State.countCodeword s n k d poison) := by
  unfold State.countCodeword
  repeat' first
    | exact rfl | with_reducible exact Keeps.refl _ _ | with_reducible assumption
    | with_reducible refine (State.onLane_keeps _ _ _).then ?_ ?_
    | with_reducible refine (State.addTo_keeps _ _ _).then ?_ ?_
    | with_reducible refine (State.countLane_keeps _ _ _ _).then ?_ ?_ | with_reducible refine Keeps.ite ?_ ?_
    | extract_lets | split | dsimp +zetaDelta only

theorem State.deliver_keeps (s : State) (n : Nat) (w : Nat) (rel : List Nat) (poisoned : Bool) : Keeps [.freeCtr,
    .regs, .counts, .queues, .lanes, .ports, .dies] s (State.deliver s n w rel poisoned) := by
  unfold State.deliver
  repeat' first
    | exact rfl | with_reducible exact Keeps.refl _ _ | with_reducible assumption
    | with_reducible refine (State.groupStep_keeps _ _ _ _ _ _).then ?_ ?_
    | with_reducible refine (State.raiseLane_keeps _ _ _).then ?_ ?_
    | with_reducible refine (State.put_keeps _ _ _).then ?_ ?_
    | with_reducible refine (State.poisonUse_keeps _ _ _).then ?_ ?_
    | with_reducible refine (State.onLane_keeps _ _ _).then ?_ ?_
    | with_reducible refine (State.capWord_keeps _ _ _ _ _ _).then ?_ ?_
    | with_reducible refine (State.countCodeword_keeps _ _ _ _ _).then ?_ ?_
    | with_reducible refine (State.gapStart_keeps _ _ _ _).then ?_ ?_
    | with_reducible refine (State.rxForward_keeps _ _).then ?_ ?_
    | with_reducible refine (State.pushQ_keeps _ _ _).then ?_ ?_ | with_reducible refine Keeps.ite ?_ ?_
    | with_reducible refine Keeps.onlyIf ?_ (fun _ _ => ?_) | extract_lets | split | dsimp +zetaDelta only

theorem State.deliverForced_keeps (s : State) (n : Nat) : Keeps [.freeCtr, .regs, .counts, .queues, .lanes, .ports,
    .dies] s (State.deliverForced s n) := by
  unfold State.deliverForced
  repeat' first
    | exact rfl | with_reducible exact Keeps.refl _ _ | with_reducible assumption
    | with_reducible refine (State.freed_keeps _).then ?_ ?_
    | with_reducible refine (State.groupStep_keeps _ _ _ _ _ _).then ?_ ?_
    | with_reducible refine (State.put_keeps _ _ _).then ?_ ?_
    | with_reducible refine (State.onLane_keeps _ _ _).then ?_ ?_
    | with_reducible refine (State.capWord_keeps _ _ _ _ _ _).then ?_ ?_
    | with_reducible refine (State.countLane_keeps _ _ _ _).then ?_ ?_
    | with_reducible refine (State.rxForward_keeps _ _).then ?_ ?_
    | with_reducible refine (State.pushQ_keeps _ _ _).then ?_ ?_
    | with_reducible refine (State.clearRuns_keeps _ _).then ?_ ?_ | with_reducible refine Keeps.ite ?_ ?_
    | with_reducible refine Keeps.onlyIf ?_ (fun _ _ => ?_) | extract_lets | split | dsimp +zetaDelta only

theorem State.takeSoft_keeps (s : State) (n : Nat) (w : SoftWord) : Keeps [.freeCtr, .regs, .counts, .queues,
    .lanes, .ports, .dies] s (State.takeSoft s n w) := by
  unfold State.takeSoft
  repeat' first
    | exact rfl | with_reducible exact Keeps.refl _ _ | with_reducible assumption
    | with_reducible refine (State.popQ_keeps _ _).then ?_ ?_
    | with_reducible refine (State.deliver_keeps _ _ _ _ _).then ?_ ?_
    | with_reducible refine (State.searchWord_keeps _ _ _).then ?_ ?_
    | with_reducible refine (State.onLane_keeps _ _ _).then ?_ ?_ | with_reducible refine Keeps.ite ?_ ?_
    | extract_lets | split | dsimp +zetaDelta only

theorem codewordDecodeEffect_keeps (n : Lane) (s : State) : Keeps [.freeCtr, .regs, .counts, .queues, .lanes,
    .ports, .dies] s (codewordDecodeEffect n s) := by
  unfold codewordDecodeEffect
  repeat' first
    | exact rfl | with_reducible exact Keeps.refl _ _ | with_reducible assumption
    | with_reducible refine (State.countLane_keeps _ _ _ _).then ?_ ?_
    | with_reducible refine (State.takeSoft_keeps _ _ _).then ?_ ?_ | with_reducible refine Keeps.ite ?_ ?_
    | extract_lets | split | dsimp +zetaDelta only

theorem State.loseLock_keeps (s : State) (n : Nat) : Keeps [.freeCtr, .regs, .counts, .lanes, .ports, .hosts, .dies]
    s (State.loseLock s n) := by
  unfold State.loseLock
  repeat' first
    | exact rfl | with_reducible exact Keeps.refl _ _ | with_reducible assumption
    | with_reducible refine (State.enterSearch_keeps _ _).then ?_ ?_
    | with_reducible refine (State.lockGone_keeps _ _).then ?_ ?_
    | with_reducible refine (State.countLane_keeps _ _ _ _).then ?_ ?_
    | with_reducible refine (State.raiseLane_keeps _ _ _).then ?_ ?_
    | with_reducible refine (State.clearRuns_keeps _ _).then ?_ ?_ | with_reducible refine Keeps.ite ?_ ?_
    | extract_lets | split | dsimp +zetaDelta only

theorem lockLostEffect_keeps (n : Lane) (s : State) : Keeps [.freeCtr, .regs, .counts, .lanes, .ports, .hosts,
    .dies] s (lockLostEffect n s) := by
  unfold lockLostEffect
  repeat' first
    | exact rfl | with_reducible exact Keeps.refl _ _ | with_reducible assumption
    | with_reducible refine (State.loseLock_keeps _ _).then ?_ ?_ | with_reducible refine Keeps.ite ?_ ?_
    | extract_lets | split | dsimp +zetaDelta only

theorem groupLossEffect_keeps (n : Lane) (s : State) : Keeps [.freeCtr, .regs, .lanes, .ports] s (groupLossEffect n
    s) := by
  unfold groupLossEffect
  repeat' first
    | exact rfl | with_reducible exact Keeps.refl _ _ | with_reducible assumption
    | with_reducible refine (State.onLane_keeps _ _ _).then ?_ ?_
    | with_reducible refine (State.put_keeps _ _ _).then ?_ ?_
    | with_reducible refine (State.raiseLane_keeps _ _ _).then ?_ ?_
    | with_reducible refine (State.gapStart_keeps _ _ _ _).then ?_ ?_ | with_reducible refine Keeps.ite ?_ ?_
    | with_reducible refine Keeps.each ?_ (fun _ _ _ => ?_) | extract_lets | split | dsimp +zetaDelta only

theorem formatMismatchEffect_keeps (n : Lane) (s : State) : Keeps [.regs, .lanes] s (formatMismatchEffect n s) := by
  unfold formatMismatchEffect
  repeat' first
    | exact rfl | with_reducible exact Keeps.refl _ _ | with_reducible assumption
    | with_reducible refine (State.raiseLane_keeps _ _ _).then ?_ ?_
    | with_reducible refine (State.onLane_keeps _ _ _).then ?_ ?_ | with_reducible refine Keeps.ite ?_ ?_
    | extract_lets | split | dsimp +zetaDelta only

end Sys2Proof.Machine
end

