-- ==== Sys2Proof/Laws/KeepsQueue.lean ====
section
/-!
SUPPORT. What each operation of Machine/Queue.lean leaves unchanged, and that it keeps the canonical form.
-/

namespace Sys2Proof.Machine

open Sys2Proof

theorem State.histoSample_keeps (s : State) (n : Nat) (c : Nat) (point : Bool) (xs : List Int) : Keeps [.regs,
    .lanes] s (State.histoSample s n c point xs) := by
  unfold State.histoSample
  repeat' first
    | exact rfl | with_reducible exact Keeps.refl _ _ | with_reducible assumption
    | with_reducible refine (State.onLane_keeps _ _ _).then ?_ ?_
    | with_reducible refine (State.addSat_keeps _ _ _).then ?_ ?_ | with_reducible refine Keeps.ite ?_ ?_
    | extract_lets | split | dsimp +zetaDelta only

theorem State.takeRaw_keeps (s : State) (n : Nat) (c : Nat) (raw : List Int) (poison : Bool) : Keeps [.regs,
    .counts, .lanes, .dies] s (State.takeRaw s n c raw poison) := by
  unfold State.takeRaw
  repeat' first
    | exact rfl | with_reducible exact Keeps.refl _ _ | with_reducible assumption
    | with_reducible refine (State.onLane_keeps _ _ _).then ?_ ?_
    | with_reducible refine (State.capWord_keeps _ _ _ _ _ _).then ?_ ?_
    | with_reducible refine (State.histoSample_keeps _ _ _ _ _).then ?_ ?_
    | with_reducible refine (State.countLane_keeps _ _ _ _).then ?_ ?_ | with_reducible refine Keeps.ite ?_ ?_
    | extract_lets | split | dsimp +zetaDelta only

theorem State.ffeTake_keeps (s : State) (n : Nat) (c : Nat) (raw : List Int) (poison : Bool) : Keeps [.regs,
    .counts, .queues, .lanes, .pools, .dies] s (State.ffeTake s n c raw poison) := by
  unfold State.ffeTake
  repeat' first
    | exact rfl | with_reducible exact Keeps.refl _ _ | with_reducible assumption
    | with_reducible refine (State.takeRaw_keeps _ _ _ _ _).then ?_ ?_
    | with_reducible refine (State.cdrVote_keeps _ _ _).then ?_ ?_
    | with_reducible refine (State.onLane_keeps _ _ _).then ?_ ?_
    | with_reducible refine (State.setPool_keeps _ _ _).then ?_ ?_
    | with_reducible refine (State.capWord_keeps _ _ _ _ _ _).then ?_ ?_
    | with_reducible refine (State.histoSample_keeps _ _ _ _ _).then ?_ ?_
    | with_reducible refine (State.pushQ_keeps _ _ _).then ?_ ?_ | with_reducible refine Keeps.ite ?_ ?_
    | extract_lets | split | dsimp +zetaDelta only

theorem State.mlseTake_keeps (s : State) (n : Nat) (c : Nat) (ys : List Int) (poison : Bool) : Keeps [.queues,
    .lanes, .pools, .dies] s (State.mlseTake s n c ys poison) := by
  unfold State.mlseTake
  repeat' first
    | exact rfl | with_reducible exact Keeps.refl _ _ | with_reducible assumption
    | with_reducible refine (State.onLane_keeps _ _ _).then ?_ ?_
    | with_reducible refine (State.setPool_keeps _ _ _).then ?_ ?_
    | with_reducible refine (State.cdrVote_keeps _ _ _).then ?_ ?_
    | with_reducible refine (State.capWord_keeps _ _ _ _ _ _).then ?_ ?_
    | with_reducible refine (State.pushQ_keeps _ _ _).then ?_ ?_ | with_reducible refine Keeps.ite ?_ ?_
    | extract_lets | split | dsimp +zetaDelta only

theorem State.mlseStep_keeps (s : State) (n : Nat) : Keeps [.regs, .counts, .queues, .lanes, .pools, .dies] s
    (State.mlseStep s n) := by
  unfold State.mlseStep
  repeat' first
    | exact rfl | with_reducible exact Keeps.refl _ _ | with_reducible assumption
    | with_reducible refine (State.popQ_keeps _ _).then ?_ ?_
    | with_reducible refine (State.mlseTake_keeps _ _ _ _ _).then ?_ ?_
    | with_reducible refine (State.countLane_keeps _ _ _ _).then ?_ ?_ | with_reducible refine Keeps.ite ?_ ?_
    | extract_lets | split | dsimp +zetaDelta only

theorem State.swapWord_keeps (s : State) (n : Nat) (e : QEntry) : Keeps [.freeCtr, .regs, .counts, .queues, .lanes,
    .ports, .dies] s (State.swapWord s n e) := by
  unfold State.swapWord
  repeat' first
    | exact rfl | with_reducible exact Keeps.refl _ _ | with_reducible assumption
    | with_reducible refine (State.countLane_keeps _ _ _ _).then ?_ ?_
    | with_reducible refine (State.onLane_keeps _ _ _).then ?_ ?_
    | with_reducible refine (State.cdrVote_keeps _ _ _).then ?_ ?_
    | with_reducible refine (State.popQ_keeps _ _).then ?_ ?_
    | with_reducible refine (State.takeRaw_keeps _ _ _ _ _).then ?_ ?_
    | with_reducible refine (State.deliverForced_keeps _ _).then ?_ ?_ | with_reducible refine Keeps.ite ?_ ?_
    | extract_lets | split | dsimp +zetaDelta only

theorem State.ffeStep_keeps (s : State) (n : Nat) : Keeps [.freeCtr, .regs, .counts, .queues, .lanes, .pools,
    .ports, .dies] s (State.ffeStep s n) := by
  unfold State.ffeStep
  repeat' first
    | exact rfl | with_reducible exact Keeps.refl _ _ | with_reducible assumption
    | with_reducible refine (State.swapWord_keeps _ _ _).then ?_ ?_
    | with_reducible refine (State.popQ_keeps _ _).then ?_ ?_
    | with_reducible refine (State.mlseStep_keeps _ _).then ?_ ?_
    | with_reducible refine (State.ffeTake_keeps _ _ _ _ _).then ?_ ?_
    | with_reducible refine (State.countLane_keeps _ _ _ _).then ?_ ?_ | with_reducible refine Keeps.ite ?_ ?_
    | extract_lets | split | dsimp +zetaDelta only

theorem State.txForward_keeps (s : State) (n : Nat) : Keeps [.queues] s (State.txForward s n) := by
  unfold State.txForward
  repeat' first
    | exact rfl | with_reducible exact Keeps.refl _ _ | with_reducible assumption
    | with_reducible refine (State.pushQ_keeps _ _ _).then ?_ ?_
    | with_reducible refine (State.popQ_keeps _ _).then ?_ ?_ | with_reducible refine Keeps.ite ?_ ?_ | extract_lets
    | split | dsimp +zetaDelta only

theorem State.hostSpoil_keeps (s : State) (h : Nat) : Keeps [.regs, .lanes, .ports] s (State.hostSpoil s h) := by
  unfold State.hostSpoil
  repeat' first
    | exact rfl | with_reducible exact Keeps.refl _ _ | with_reducible assumption
    | with_reducible refine (State.setSide_keeps _ _ _ _).then ?_ ?_
    | with_reducible refine (State.hostGapStart_keeps _ _ _).then ?_ ?_
    | with_reducible refine (State.onLane_keeps _ _ _).then ?_ ?_ | with_reducible refine Keeps.ite ?_ ?_
    | extract_lets | split | dsimp +zetaDelta only

theorem State.sendRows_keeps (s : State) (n : Nat) (k : Nat) : Keeps [.queues, .ports] s (State.sendRows s n k) :=
    by
  induction k generalizing s with
  | zero => exact Keeps.refl _ _
  | succ j ih =>
    unfold State.sendRows
    dsimp only
    split
    · exact Keeps.refl _ _
    · refine Keeps.ite ?_ (Keeps.refl _ _)
      exact (ih _).then rfl ((State.txForward_keeps _ _).then rfl ((State.pushQ_keeps _ _ _).then rfl
        ((State.setPort_keeps _ _ _).weaken rfl)))

theorem State.drainRows_keeps (s : State) (n : Nat) : Keeps [.queues, .ports] s (State.drainRows s n) := by
  unfold State.drainRows
  repeat' first
    | exact rfl | with_reducible exact Keeps.refl _ _ | with_reducible assumption
    | with_reducible refine (State.sendRows_keeps _ _ _).then ?_ ?_ | with_reducible refine Keeps.ite ?_ ?_
    | extract_lets | split | dsimp +zetaDelta only

theorem State.hostHalf_keeps (s : State) (n : Nat) (b : Bool) (bits : Nat) (bad : Bool) (mark : Bool) : Keeps
    [.queues, .lanes, .ports] s (State.hostHalf s n b bits bad mark) := by
  unfold State.hostHalf
  repeat' first
    | exact rfl | with_reducible exact Keeps.refl _ _ | with_reducible assumption
    | with_reducible refine (State.setSide_keeps _ _ _ _).then ?_ ?_
    | with_reducible refine (State.onLane_keeps _ _ _).then ?_ ?_
    | with_reducible refine (State.drainRows_keeps _ _).then ?_ ?_
    | with_reducible refine (State.setPort_keeps _ _ _).then ?_ ?_ | with_reducible refine Keeps.ite ?_ ?_
    | extract_lets | split | dsimp +zetaDelta only

theorem State.hostBits_keeps (s : State) (n : Nat) (b : Bool) (bits : Nat) : Keeps [.ports] s (State.hostBits s n b
    bits) := by
  unfold State.hostBits
  repeat' first
    | exact rfl | with_reducible exact Keeps.refl _ _ | with_reducible assumption
    | with_reducible refine (State.setSide_keeps _ _ _ _).then ?_ ?_ | with_reducible refine Keeps.ite ?_ ?_
    | extract_lets | split | dsimp +zetaDelta only

theorem State.hostRxStep_keeps (s : State) (h : Nat) : Keeps [.queues, .lanes, .ports] s (State.hostRxStep s h) :=
    by
  unfold State.hostRxStep
  repeat' first
    | exact rfl | with_reducible exact Keeps.refl _ _ | with_reducible assumption
    | with_reducible refine (State.hostBits_keeps _ _ _ _).then ?_ ?_
    | with_reducible refine (State.popQ_keeps _ _).then ?_ ?_
    | with_reducible refine (State.drainRows_keeps _ _).then ?_ ?_
    | with_reducible refine (State.hostHalf_keeps _ _ _ _ _ _).then ?_ ?_ | with_reducible refine Keeps.ite ?_ ?_
    | extract_lets | split | dsimp +zetaDelta only

theorem State.joinRow_keeps (s : State) (n : Nat) (b : Bool) (row : Nat) : Keeps [.lanes] s (State.joinRow s n b
    row).2 := by
  unfold State.joinRow
  repeat' first
    | exact rfl | with_reducible exact Keeps.refl _ _ | with_reducible assumption
    | with_reducible refine (State.onLane_keeps _ _ _).then ?_ ?_ | with_reducible refine Keeps.ite ?_ ?_
    | extract_lets | split | dsimp +zetaDelta only

theorem State.encodeAt_keeps (s : State) (n : Nat) (k : Nat) (poison : Bool) : Keeps [.queues, .lanes, .ports] s
    (State.encodeAt s n k poison) := by
  have hr : ∀ (b : Bool) (q : Nat × State), s.takeRow n b = some q → Keeps [.ports] s q.2 := fun b q h => by
    unfold State.takeRow at h
    dsimp only at h
    generalize (if b = true then (s.port n).encB else (s.port n).encA) = e at h
    by_cases hc : 256 ≤ e.bits.length
    · rw [if_pos hc] at h
      cases Option.some.inj h
      exact State.setPort_keeps _ _ _
    · rw [if_neg hc] at h
      cases h
  have ht : ∀ (b idle : Bool) (p : Nat × State),
      (if idle then some (0, s) else (s.takeRow n b).map (fun q => q.2.joinRow n b q.1)) = some p →
      Keeps [.queues, .lanes, .ports] s p.2 := fun b idle p h => by
    split at h
    · cases Option.some.inj h
      exact Keeps.refl _ _
    · obtain ⟨q, hq, rfl⟩ := Option.map_eq_some_iff.1 h
      exact (State.joinRow_keeps _ _ _ _).then rfl ((hr _ _ hq).weaken rfl)
  unfold State.encodeAt
  dsimp only
  split
  · exact Keeps.refl _ _
  · exact (State.pushQ_keeps _ _ _).then rfl ((State.onLane_keeps _ _ _).then rfl (ht _ _ _ (by assumption)))

theorem State.encodeSlot_keeps (s : State) (n : Nat) (poison : Bool) : Keeps [.regs, .counts, .queues, .lanes,
    .ports] s (State.encodeSlot s n poison) := by
  unfold State.encodeSlot
  repeat' first
    | exact rfl | with_reducible exact Keeps.refl _ _ | with_reducible assumption
    | with_reducible refine (State.txSlots_keeps _ _ _ _).then ?_ ?_
    | with_reducible refine (State.setSide_keeps _ _ _ _).then ?_ ?_
    | with_reducible refine (State.encodeAt_keeps _ _ _ _).then ?_ ?_
    | with_reducible refine (State.onLane_keeps _ _ _).then ?_ ?_ | with_reducible refine Keeps.ite ?_ ?_
    | extract_lets | split | dsimp +zetaDelta only

theorem State.hostPut_keeps (s : State) (h : Nat) (bits : Nat) (o : HostOut) : Keeps [.hosts] s (State.hostPut s h
    bits o) := by
  unfold State.hostPut
  repeat' first
    | exact rfl | with_reducible exact Keeps.refl _ _ | with_reducible assumption
    | with_reducible refine (State.setHost_keeps _ _ _).then ?_ ?_ | with_reducible refine Keeps.ite ?_ ?_
    | extract_lets | split | dsimp +zetaDelta only

theorem State.hostGet_keeps (s : State) (h : Nat) (symbols : Nat) : Keeps [.hosts] s (State.hostGet s h symbols).2
    := by
  unfold State.hostGet
  repeat' first
    | exact rfl | with_reducible exact Keeps.refl _ _ | with_reducible assumption
    | with_reducible refine (State.setHost_keeps _ _ _).then ?_ ?_ | with_reducible refine Keeps.ite ?_ ?_
    | extract_lets | split | dsimp +zetaDelta only

theorem State.faultCycle_keeps (s : State) (h : Nat) (n : Nat) (b : Bool) : Keeps [.ports, .hosts] s
    (State.faultCycle s h n b) := by
  unfold State.faultCycle
  repeat' first
    | exact rfl | with_reducible exact Keeps.refl _ _ | with_reducible assumption
    | with_reducible refine (State.hostPut_keeps _ _ _ _).then ?_ ?_
    | with_reducible refine (State.setSide_keeps _ _ _ _).then ?_ ?_ | with_reducible refine Keeps.ite ?_ ?_
    | extract_lets | split | dsimp +zetaDelta only

theorem State.makeBits_keeps (s : State) (n : Nat) (h : Nat) (b : Bool) (poison : Bool) : Keeps [.regs, .counts,
    .queues, .ports] s (State.makeBits s n h b poison) := by
  unfold State.makeBits
  repeat' first
    | exact rfl | with_reducible exact Keeps.refl _ _ | with_reducible assumption
    | with_reducible refine (State.setSide_keeps _ _ _ _).then ?_ ?_
    | with_reducible refine (State.rxSlot_keeps _ _ _).then ?_ ?_
    | with_reducible refine (State.pushQ_keeps _ _ _).then ?_ ?_ | with_reducible refine Keeps.ite ?_ ?_
    | with_reducible refine Keeps.each ?_ (fun _ _ _ => ?_) | with_reducible refine Keeps.onlyIf ?_ (fun _ _ => ?_)
    | extract_lets | split | dsimp +zetaDelta only

theorem State.hostTxStep_keeps (s : State) (h : Nat) : Keeps [.queues, .ports, .hosts] s (State.hostTxStep s h) :=
    by
  unfold State.hostTxStep
  repeat' first
    | exact rfl | with_reducible exact Keeps.refl _ _ | with_reducible assumption
    | with_reducible refine (State.popQ_keeps _ _).then ?_ ?_
    | with_reducible refine (State.hostPut_keeps _ _ _ _).then ?_ ?_
    | with_reducible refine (State.drainOut_keeps _ _ _).then ?_ ?_
    | with_reducible refine (State.faultCycle_keeps _ _ _ _).then ?_ ?_ | with_reducible refine Keeps.ite ?_ ?_
    | extract_lets | split | dsimp +zetaDelta only

theorem State.serveRequest_keeps (s : State) : Keeps [.queues] s (State.serveRequest s) := by
  unfold State.serveRequest
  repeat' first
    | exact rfl | with_reducible exact Keeps.refl _ _ | with_reducible assumption
    | with_reducible refine (State.pushQ_keeps _ _ _).then ?_ ?_
    | with_reducible refine (State.popQ_keeps _ _).then ?_ ?_ | with_reducible refine Keeps.ite ?_ ?_ | extract_lets
    | split | dsimp +zetaDelta only

theorem State.takeHead_keeps (s : State) (q : QueueId) : Keeps [.freeCtr, .regs, .counts, .queues, .lanes, .pools,
    .ports, .hosts, .dies] s (State.takeHead s q) := by
  unfold State.takeHead
  repeat' first
    | exact rfl | with_reducible exact Keeps.refl _ _ | with_reducible assumption
    | with_reducible refine (State.ffeStep_keeps _ _).then ?_ ?_
    | with_reducible refine (State.mlseStep_keeps _ _).then ?_ ?_
    | with_reducible refine (State.rxForward_keeps _ _).then ?_ ?_
    | with_reducible refine (State.d0Consume_keeps _ _).then ?_ ?_
    | with_reducible refine (State.txForward_keeps _ _).then ?_ ?_
    | with_reducible refine (State.hostRxStep_keeps _ _).then ?_ ?_
    | with_reducible refine (State.hostTxStep_keeps _ _).then ?_ ?_
    | with_reducible refine (State.serveRequest_keeps _).then ?_ ?_
    | with_reducible refine (State.popQ_keeps _ _).then ?_ ?_ | with_reducible refine Keeps.ite ?_ ?_ | extract_lets
    | split | dsimp +zetaDelta only

theorem State.overflowed_keeps (s : State) (q : QueueId) : Keeps [.freeCtr, .regs, .counts, .lanes, .ports, .hosts,
    .dies] s (State.overflowed s q) := by
  unfold State.overflowed
  repeat' first
    | exact rfl | with_reducible exact Keeps.refl _ _ | with_reducible assumption
    | with_reducible refine (State.loseLock_keeps _ _).then ?_ ?_
    | with_reducible refine (State.hostSpoil_keeps _ _).then ?_ ?_ | with_reducible refine Keeps.ite ?_ ?_
    | extract_lets | split | dsimp +zetaDelta only

theorem State.followHost_keeps (s : State) (h : Nat) : Keeps [.regs] s (State.followHost s h) := by
  unfold State.followHost
  repeat' first
    | exact rfl | with_reducible exact Keeps.refl _ _ | with_reducible assumption
    | with_reducible refine (State.put_keeps _ _ _).then ?_ ?_ | with_reducible refine Keeps.ite ?_ ?_
    | with_reducible refine Keeps.onlyIf ?_ (fun _ _ => ?_) | extract_lets | split | dsimp +zetaDelta only

theorem State.numbered_keeps (s : State) (q : QueueId) (e : QEntry) : Keeps [.regs, .counts, .lanes, .hosts] s
    (State.numbered s q e).1 := by
  unfold State.numbered
  repeat' first
    | exact rfl | with_reducible exact Keeps.refl _ _ | with_reducible assumption
    | with_reducible refine (State.sampled_keeps _ _).then ?_ ?_
    | with_reducible refine (State.hostGet_keeps _ _ _).then ?_ ?_
    | with_reducible refine (State.putB_keeps _ _ _).then ?_ ?_
    | with_reducible refine (State.followHost_keeps _ _).then ?_ ?_ | with_reducible refine Keeps.ite ?_ ?_
    | with_reducible refine Keeps.onlyIf ?_ (fun _ _ => ?_) | extract_lets | split | dsimp +zetaDelta only

theorem State.makeEntry_keeps (s : State) (q : QueueId) (poison : Bool) : Keeps [.regs, .counts, .queues, .lanes,
    .ports] s (State.makeEntry s q poison) := by
  unfold State.makeEntry
  repeat' first
    | exact rfl | with_reducible exact Keeps.refl _ _ | with_reducible assumption
    | with_reducible refine (State.encodeSlot_keeps _ _ _).then ?_ ?_
    | with_reducible refine (State.sendRows_keeps _ _ _).then ?_ ?_
    | with_reducible refine (State.setPort_keeps _ _ _).then ?_ ?_
    | with_reducible refine (State.makeBits_keeps _ _ _ _ _).then ?_ ?_
    | with_reducible refine (State.sendOut_keeps _ _ _ _).then ?_ ?_ | with_reducible refine Keeps.ite ?_ ?_
    | extract_lets | split | dsimp +zetaDelta only

theorem State.produce_keeps (s : State) (q : QueueId) (e : QEntry) : Keeps [.freeCtr, .regs, .counts, .queues,
    .lanes, .ports, .hosts, .dies] s (State.produce s q e) := by
  unfold State.produce
  repeat' first
    | exact rfl | with_reducible exact Keeps.refl _ _ | with_reducible assumption
    | with_reducible refine (State.numbered_keeps _ _ _).then ?_ ?_
    | with_reducible refine (State.makeEntry_keeps _ _ _).then ?_ ?_
    | with_reducible refine (State.pushQ_keeps _ _ _).then ?_ ?_
    | with_reducible refine (State.overflowed_keeps _ _).then ?_ ?_
    | with_reducible refine (State.setQueue_keeps _ _ _).then ?_ ?_
    | with_reducible refine (State.noteEvent_keeps _ _).then ?_ ?_ | with_reducible refine Keeps.ite ?_ ?_
    | extract_lets | split | dsimp +zetaDelta only

theorem State.abortFills_keeps (s : State) : Keeps [.ctx] s (State.abortFills s) := by
  unfold State.abortFills
  repeat' first
    | exact rfl | with_reducible exact Keeps.refl _ _ | with_reducible assumption
    | with_reducible refine (State.setLine_keeps _ _ _).then ?_ ?_ | with_reducible refine Keeps.ite ?_ ?_
    | with_reducible refine Keeps.each ?_ (fun _ _ _ => ?_) | extract_lets | split | dsimp +zetaDelta only

theorem State.abortContextCmd_keeps (s : State) (st : Status) : Keeps [.regs, .mgmt] s (State.abortContextCmd s st)
    := by
  unfold State.abortContextCmd
  repeat' first
    | exact rfl | with_reducible exact Keeps.refl _ _ | with_reducible assumption
    | with_reducible refine (State.complete_keeps _ _ _ _ _ _ _).then ?_ ?_ | with_reducible refine Keeps.ite ?_ ?_
    | extract_lets | split | dsimp +zetaDelta only

theorem State.lostCycle_keeps (s : State) (q : QueueId) : Keeps [.freeCtr, .regs, .counts, .queues, .lanes, .ports,
    .hosts, .dies] s (State.lostCycle s q) := by
  unfold State.lostCycle
  repeat' first
    | exact rfl | with_reducible exact Keeps.refl _ _ | with_reducible assumption
    | with_reducible refine (State.deliverForced_keeps _ _).then ?_ ?_
    | with_reducible refine (State.gapStart_keeps _ _ _ _).then ?_ ?_
    | with_reducible refine (State.d0Forced_keeps _ _).then ?_ ?_
    | with_reducible refine (State.hostSpoil_keeps _ _).then ?_ ?_
    | with_reducible refine (State.hostBits_keeps _ _ _ _).then ?_ ?_
    | with_reducible refine (State.freed_keeps _).then ?_ ?_
    | with_reducible refine (State.hostHalf_keeps _ _ _ _ _ _).then ?_ ?_
    | with_reducible refine (State.faultCycle_keeps _ _ _ _).then ?_ ?_ | with_reducible refine Keeps.ite ?_ ?_
    | with_reducible refine Keeps.onlyIf ?_ (fun _ _ => ?_) | extract_lets | split | dsimp +zetaDelta only

theorem State.creditErr_keeps (s : State) (q : QueueId) (m : Nat) : Keeps [.freeCtr, .regs, .mgmt, .counts, .queues,
    .lanes, .pools, .ports, .hosts, .dies, .mem, .ctx] s (State.creditErr s q m) := by
  unfold State.creditErr
  repeat' first
    | exact rfl | with_reducible exact Keeps.refl _ _ | with_reducible assumption
    | with_reducible refine (State.loseLock_keeps _ _).then ?_ ?_
    | with_reducible refine (State.abortContextCmd_keeps _ _).then ?_ ?_
    | with_reducible refine (State.abortFills_keeps _).then ?_ ?_
    | with_reducible refine (State.abortApplies_keeps _ _ _).then ?_ ?_
    | with_reducible refine (State.lostCycle_keeps _ _).then ?_ ?_ | with_reducible refine Keeps.ite ?_ ?_
    | with_reducible refine Keeps.each ?_ (fun _ _ _ => ?_) | extract_lets | split | dsimp +zetaDelta only

theorem State.checkCredits_keeps (s : State) (q : QueueId) (lost : Bool) : Keeps [.freeCtr, .regs, .mgmt, .counts,
    .queues, .lanes, .pools, .ports, .hosts, .dies, .mem, .ctx] s (State.checkCredits s q lost) := by
  unfold State.checkCredits
  repeat' first
    | exact rfl | with_reducible exact Keeps.refl _ _ | with_reducible assumption
    | with_reducible refine (State.creditErr_keeps _ _ _).then ?_ ?_
    | with_reducible refine (State.setQueue_keeps _ _ _).then ?_ ?_
    | with_reducible refine (State.noteEvent_keeps _ _).then ?_ ?_ | with_reducible refine Keeps.ite ?_ ?_
    | extract_lets | split | dsimp +zetaDelta only

theorem queueEntryEffect_keeps (q : QueueId) (entry : QEntry) (takes : Bool) (creditLost : Bool) (s : State) : Keeps
    [.freeCtr, .regs, .mgmt, .counts, .queues, .lanes, .pools, .ports, .hosts, .dies, .mem, .ctx] s
    (queueEntryEffect q entry takes creditLost s) := by
  unfold queueEntryEffect
  repeat' first
    | exact rfl | with_reducible exact Keeps.refl _ _ | with_reducible assumption
    | with_reducible refine (State.produce_keeps _ _ _).then ?_ ?_
    | with_reducible refine (State.checkCredits_keeps _ _ _).then ?_ ?_
    | with_reducible refine (State.takeHead_keeps _ _).then ?_ ?_ | with_reducible refine Keeps.ite ?_ ?_
    | with_reducible refine Keeps.onlyIf ?_ (fun _ _ => ?_) | extract_lets | split | dsimp +zetaDelta only

theorem starveEffect_keeps (q : QueueId) (cycles : Nat) (s : State) : Keeps [.freeCtr, .regs, .counts, .queues,
    .lanes, .ports, .hosts, .dies] s (starveEffect q cycles s) := by
  unfold starveEffect
  repeat' first
    | exact rfl | with_reducible exact Keeps.refl _ _ | with_reducible assumption
    | with_reducible refine (State.noteEvent_keeps _ _).then ?_ ?_
    | with_reducible refine (State.setQueue_keeps _ _ _).then ?_ ?_
    | with_reducible refine (State.lostCycle_keeps _ _).then ?_ ?_ | with_reducible refine Keeps.ite ?_ ?_
    | with_reducible refine Keeps.each ?_ (fun _ _ _ => ?_) | with_reducible refine Keeps.onlyIf ?_ (fun _ _ => ?_)
    | extract_lets | split | dsimp +zetaDelta only

theorem hwmClrEffect_keeps (q : QueueId) (occRises : Bool) (s : State) : Keeps [.queues] s (hwmClrEffect q occRises
    s) := by
  unfold hwmClrEffect
  repeat' first
    | exact rfl | with_reducible exact Keeps.refl _ _ | with_reducible assumption
    | with_reducible refine (State.setQueue_keeps _ _ _).then ?_ ?_ | with_reducible refine Keeps.ite ?_ ?_
    | extract_lets | split | dsimp +zetaDelta only

end Sys2Proof.Machine
end

