-- ==== Sys2Proof/Laws/KeepsCapture.lean ====
section
/-!
SUPPORT. What each operation of Machine/Capture.lean leaves unchanged, and that it keeps the canonical form.
-/

namespace Sys2Proof.Machine

open Sys2Proof

theorem State.beginCapture_keeps (s : State) (d : Nat) : Keeps [.regs, .mgmt, .dies] s (State.beginCapture s d) :=
    by
  unfold State.beginCapture
  repeat' first
    | exact rfl | with_reducible exact Keeps.refl _ _ | with_reducible assumption
    | with_reducible refine (State.complete_keeps _ _ _ _ _ _ _).then ?_ ?_
    | with_reducible refine (State.setDie_keeps _ _ _).then ?_ ?_ | with_reducible refine Keeps.ite ?_ ?_
    | extract_lets | split | dsimp +zetaDelta only

theorem State.endWait_keeps (s : State) (d : Nat) (c : CaptureSt) (event : Option Nat) : Keeps [.dies] s
    (State.endWait s d c event) := by
  unfold State.endWait
  repeat' first
    | exact rfl | with_reducible exact Keeps.refl _ _ | with_reducible assumption
    | with_reducible refine (State.setDie_keeps _ _ _).then ?_ ?_ | with_reducible refine Keeps.ite ?_ ?_
    | extract_lets | split | dsimp +zetaDelta only

theorem State.abortCapture_keeps (s : State) (d : Nat) (st : Status) : Keeps [.regs, .mgmt, .dies] s
    (State.abortCapture s d st) := by
  unfold State.abortCapture
  repeat' first
    | exact rfl | with_reducible exact Keeps.refl _ _ | with_reducible assumption
    | with_reducible refine (State.setDie_keeps _ _ _).then ?_ ?_
    | with_reducible refine (State.complete_keeps _ _ _ _ _ _ _).then ?_ ?_ | with_reducible refine Keeps.ite ?_ ?_
    | extract_lets | split | dsimp +zetaDelta only

theorem State.captureData_keeps (s : State) (c : CaptureSt) : Keeps [.freeCtr] s (State.captureData s c).1 := by
  unfold State.captureData
  repeat' first
    | exact rfl | with_reducible exact Keeps.refl _ _ | with_reducible assumption | exact Or.inr (by decide)
    | with_reducible exact Or.inl rfl | with_reducible exact id | with_reducible refine Keeps.ite ?_ ?_ | extract_lets
    | split | with_reducible apply Keeps.upd | dsimp +zetaDelta only
    | with_reducible exact fun h => SMap.wf_set _ _ _ _ h | with_reducible exact fun h => SMap.rising_set _ _ _ _ h
    | with_reducible exact fun h => SMap.rising_drop _ _ h | with_reducible exact fun h => SMap.wf_setRun _ _ _ _ h
    | with_reducible exact fun h => SMap.wf_setRun _ _ _ _ (SMap.wf_setRun _ _ _ _ h)
    | with_reducible exact fun h => SMap.wf_fillRun _ _ _ _ _ h | with_reducible exact fun h => SMap.wf_drop _ _ _ h
    | with_reducible exact fun _ => SMap.wf_nil _ | with_reducible exact fun h => by simpa using h | exact id

theorem captureEffect_keeps (die : LineDie) (s : State) : Keeps [.regs, .mgmt, .dies] s (captureEffect die s) := by
  unfold captureEffect
  repeat' first
    | exact rfl | with_reducible exact Keeps.refl _ _ | with_reducible assumption
    | with_reducible refine (State.beginCapture_keeps _ _).then ?_ ?_ | with_reducible refine Keeps.ite ?_ ?_
    | extract_lets | split | dsimp +zetaDelta only

theorem captureStartEffect_keeps (die : LineDie) (s : State) : Keeps [.regs, .mgmt, .dies] s (captureStartEffect die
    s) := by
  unfold captureStartEffect
  repeat' first
    | exact rfl | with_reducible exact Keeps.refl _ _ | with_reducible assumption
    | with_reducible refine (State.beginCapture_keeps _ _).then ?_ ?_ | with_reducible refine Keeps.ite ?_ ?_
    | extract_lets | split | dsimp +zetaDelta only

theorem captureTriggerEffect_keeps (die : LineDie) (s : State) : Keeps [.dies] s (captureTriggerEffect die s) := by
  unfold captureTriggerEffect
  repeat' first
    | exact rfl | with_reducible exact Keeps.refl _ _ | with_reducible assumption
    | with_reducible refine (State.endWait_keeps _ _ _ _).then ?_ ?_ | with_reducible refine Keeps.ite ?_ ?_
    | extract_lets | split | dsimp +zetaDelta only

theorem captureTimeoutEffect_keeps (die : LineDie) (s : State) : Keeps [.dies] s (captureTimeoutEffect die s) := by
  unfold captureTimeoutEffect
  repeat' first
    | exact rfl | with_reducible exact Keeps.refl _ _ | with_reducible assumption
    | with_reducible refine (State.endWait_keeps _ _ _ _).then ?_ ?_ | with_reducible refine Keeps.ite ?_ ?_
    | extract_lets | split | dsimp +zetaDelta only

theorem State.putRecord_keeps (s : State) (die : Nat) (c : CaptureSt) (w : List Nat) : Keeps [.freeCtr, .regs,
    .mgmt, .lanes, .dies, .mem] s (State.putRecord s die c w) := by
  unfold State.putRecord
  repeat' first
    | exact rfl | with_reducible exact Keeps.refl _ _ | with_reducible assumption
    | with_reducible refine (State.captureData_keeps _ _).then ?_ ?_
    | with_reducible refine (State.setDie_keeps _ _ _).then ?_ ?_
    | with_reducible refine (State.poisonUse_keeps _ _ _).then ?_ ?_
    | with_reducible refine (State.d3Write_keeps _ _ _).then ?_ ?_
    | with_reducible refine (State.complete_keeps _ _ _ _ _ _ _).then ?_ ?_
    | with_reducible refine (State.onLane_keeps _ _ _).then ?_ ?_ | exact Or.inr (by decide)
    | with_reducible exact Or.inl rfl | with_reducible exact id | with_reducible refine Keeps.ite ?_ ?_
    | with_reducible refine Keeps.onlyIf ?_ (fun _ _ => ?_) | extract_lets | split | with_reducible apply Keeps.upd
    | dsimp +zetaDelta only | with_reducible exact fun h => SMap.wf_set _ _ _ _ h
    | with_reducible exact fun h => SMap.rising_set _ _ _ _ h | with_reducible exact fun h => SMap.rising_drop _ _ h
    | with_reducible exact fun h => SMap.wf_setRun _ _ _ _ h
    | with_reducible exact fun h => SMap.wf_setRun _ _ _ _ (SMap.wf_setRun _ _ _ _ h)
    | with_reducible exact fun h => SMap.wf_fillRun _ _ _ _ _ h | with_reducible exact fun h => SMap.wf_drop _ _ _ h
    | with_reducible exact fun _ => SMap.wf_nil _ | with_reducible exact fun h => by simpa using h | exact id

theorem captureCompleteEffect_keeps (die : LineDie) (s : State) : Keeps [.freeCtr, .regs, .mgmt, .lanes, .dies,
    .mem, .therm] s (captureCompleteEffect die s) := by
  unfold captureCompleteEffect
  repeat' first
    | exact rfl | with_reducible exact Keeps.refl _ _ | with_reducible assumption
    | with_reducible refine State.bgUnit_keeps _ _ _ ?_ ?_ (fun _ _ => ?_)
    | with_reducible refine (State.putRecord_keeps _ _ _ _).then ?_ ?_ | with_reducible refine Keeps.ite ?_ ?_
    | extract_lets | split | dsimp +zetaDelta only

end Sys2Proof.Machine
end

