-- ==== Sys2Proof/Laws/KeepsTiles.lean ====
section
/-!
SUPPORT. What each operation of Machine/Tiles.lean leaves unchanged, and that it keeps the canonical form.
-/

namespace Sys2Proof.Machine

open Sys2Proof

theorem State.showExts_keeps (s : State) (r : Nat) : Keeps [.regs] s (State.showExts s r) := by
  unfold State.showExts
  repeat' first
    | exact rfl | with_reducible exact Keeps.refl _ _ | with_reducible assumption
    | with_reducible refine (State.putB_keeps _ _ _).then ?_ ?_ | with_reducible refine Keeps.ite ?_ ?_
    | with_reducible refine Keeps.each ?_ (fun _ _ _ => ?_) | extract_lets | split | dsimp +zetaDelta only

theorem State.idleTile_keeps (s : State) (t : Nat) : Keeps [.regs] s (State.idleTile s t) := by
  unfold State.idleTile
  repeat' first
    | exact rfl | with_reducible exact Keeps.refl _ _ | with_reducible assumption
    | with_reducible refine (State.put_keeps _ _ _).then ?_ ?_ | with_reducible refine Keeps.ite ?_ ?_ | extract_lets
    | split | dsimp +zetaDelta only

theorem State.detach_keeps (s : State) (r : Nat) (p : Nat) : Keeps [.regs, .counts, .pools] s (State.detach s r p)
    := by
  unfold State.detach
  repeat' first
    | exact rfl | with_reducible exact Keeps.refl _ _ | with_reducible assumption
    | with_reducible refine (State.countLane_keeps _ _ _ _).then ?_ ?_
    | with_reducible refine (State.raiseLane_keeps _ _ _).then ?_ ?_
    | with_reducible refine (State.showExts_keeps _ _).then ?_ ?_
    | with_reducible refine (State.idleTile_keeps _ _).then ?_ ?_
    | with_reducible refine (State.setPool_keeps _ _ _).then ?_ ?_ | with_reducible refine Keeps.ite ?_ ?_
    | extract_lets | split | dsimp +zetaDelta only

theorem State.freeTrained_keeps (s : State) (n : Nat) : Keeps [.freeCtr] s (State.freeTrained s n).2 := by
  unfold State.freeTrained
  repeat' first
    | exact rfl | with_reducible exact Keeps.refl _ _ | with_reducible assumption | exact Or.inr (by decide)
    | with_reducible exact Or.inl rfl | with_reducible exact id | with_reducible refine Keeps.ite ?_ ?_ | extract_lets
    | split | with_reducible apply Keeps.upd | dsimp +zetaDelta only
    | with_reducible exact fun h => SMap.wf_set _ _ _ _ h | with_reducible exact fun h => SMap.rising_set _ _ _ _ h
    | with_reducible exact fun h => SMap.rising_drop _ _ h | with_reducible exact fun h => SMap.wf_setRun _ _ _ _ h
    | with_reducible exact fun h => SMap.wf_setRun _ _ _ _ (SMap.wf_setRun _ _ _ _ h)
    | with_reducible exact fun h => SMap.wf_fillRun _ _ _ _ _ h | with_reducible exact fun h => SMap.wf_drop _ _ _ h
    | with_reducible exact fun _ => SMap.wf_nil _ | with_reducible exact fun h => by simpa using h | exact id

theorem State.loadPart_keeps (s : State) (n : Nat) (k : Nat) (t : Trained) : Keeps [.lanes] s (State.loadPart s n k
    t) := by
  unfold State.loadPart
  repeat' first
    | exact rfl | with_reducible exact Keeps.refl _ _ | with_reducible assumption
    | with_reducible refine (State.onLane_keeps _ _ _).then ?_ ?_ | with_reducible refine Keeps.ite ?_ ?_
    | extract_lets | split | dsimp +zetaDelta only

theorem State.loadTile_keeps (s : State) (c : Nat) (n : Nat) (k : Nat) (fn : Nat) : Keeps [.regs] s (State.loadTile
    s c n k fn) := by
  unfold State.loadTile
  repeat' first
    | exact rfl | with_reducible exact Keeps.refl _ _ | with_reducible assumption
    | with_reducible refine (State.put_keeps _ _ _).then ?_ ?_ | with_reducible refine Keeps.ite ?_ ?_ | extract_lets
    | split | dsimp +zetaDelta only

theorem State.takePlace_keeps (s : State) (n : Nat) (t : Nat) (c : Nat) : Keeps [.freeCtr, .regs, .lanes] s
    (State.takePlace s n t c) := by
  unfold State.takePlace
  repeat' first
    | exact rfl | with_reducible exact Keeps.refl _ _ | with_reducible assumption
    | with_reducible refine (State.freeTrained_keeps _ _).then ?_ ?_
    | with_reducible refine (State.loadPart_keeps _ _ _ _).then ?_ ?_
    | with_reducible refine (State.loadTile_keeps _ _ _ _ _).then ?_ ?_
    | with_reducible refine (State.idleTile_keeps _ _).then ?_ ?_ | with_reducible refine Keeps.ite ?_ ?_
    | extract_lets | split | dsimp +zetaDelta only

theorem State.disableLane_keeps (s : State) (n : Nat) : Keeps [.freeCtr, .regs, .mgmt, .queues, .lanes, .ports,
    .hosts, .dies, .bcn] s (State.disableLane s n) := by
  unfold State.disableLane
  repeat' first
    | exact rfl | with_reducible exact Keeps.refl _ _ | with_reducible assumption
    | with_reducible refine (State.setRx_keeps _ _ _).then ?_ ?_
    | with_reducible refine (State.lockGone_keeps _ _).then ?_ ?_
    | with_reducible refine (State.setReason_keeps _ _ _ _).then ?_ ?_
    | with_reducible refine (State.onLane_keeps _ _ _).then ?_ ?_
    | with_reducible refine (State.emptyLane_keeps _ _ _).then ?_ ?_
    | with_reducible refine (State.abortCapture_keeps _ _ _).then ?_ ?_
    | with_reducible refine (State.abortWhere_keeps _ _ _).then ?_ ?_
    | with_reducible refine (State.put_keeps _ _ _).then ?_ ?_
    | with_reducible refine (State.setBcn_keeps _ _ _).then ?_ ?_ | with_reducible refine Keeps.ite ?_ ?_
    | with_reducible refine Keeps.onlyIf ?_ (fun _ _ => ?_) | extract_lets | split | dsimp +zetaDelta only

theorem State.holdLane_keeps (s : State) (n : Nat) : Keeps [.freeCtr, .regs, .mgmt, .queues, .lanes, .ports, .hosts,
    .dies, .bcn] s (State.holdLane s n) := by
  unfold State.holdLane
  repeat' first
    | exact rfl | with_reducible exact Keeps.refl _ _ | with_reducible assumption
    | with_reducible refine (State.disableLane_keeps _ _).then ?_ ?_
    | with_reducible refine (State.put_keeps _ _ _).then ?_ ?_
    | with_reducible refine (State.raise_keeps _ _).then ?_ ?_ | with_reducible refine Keeps.ite ?_ ?_ | extract_lets
    | split | dsimp +zetaDelta only

theorem State.showTiming_keeps (s : State) (n : Nat) : Keeps [.regs] s (State.showTiming s n) := by
  unfold State.showTiming
  repeat' first
    | exact rfl | with_reducible exact Keeps.refl _ _ | with_reducible assumption
    | with_reducible refine (State.putB_keeps _ _ _).then ?_ ?_ | with_reducible refine Keeps.ite ?_ ?_ | extract_lets
    | split | dsimp +zetaDelta only

theorem State.freshPath_keeps (s : State) (n : Nat) : Keeps [.lanes] s (State.freshPath s n) := by
  unfold State.freshPath
  repeat' first
    | exact rfl | with_reducible exact Keeps.refl _ _ | with_reducible assumption
    | with_reducible refine (State.onLane_keeps _ _ _).then ?_ ?_ | with_reducible refine Keeps.ite ?_ ?_
    | extract_lets | split | dsimp +zetaDelta only

theorem State.freshSend_keeps (s : State) (n : Nat) : Keeps [.lanes, .ports] s (State.freshSend s n) := by
  unfold State.freshSend
  repeat' first
    | exact rfl | with_reducible exact Keeps.refl _ _ | with_reducible assumption
    | with_reducible refine (State.onLane_keeps _ _ _).then ?_ ?_
    | with_reducible refine (State.setPort_keeps _ _ _).then ?_ ?_ | with_reducible refine Keeps.ite ?_ ?_
    | extract_lets | split | dsimp +zetaDelta only

theorem State.enableLane_keeps (s : State) (n : Nat) : Keeps [.freeCtr, .regs, .lanes, .pools, .ports, .hosts,
    .dies] s (State.enableLane s n) := by
  unfold State.enableLane
  repeat' first
    | exact rfl | with_reducible exact Keeps.refl _ _ | with_reducible assumption
    | with_reducible refine (State.startLane_keeps _ _ _).then ?_ ?_
    | with_reducible refine (State.put_keeps _ _ _).then ?_ ?_
    | with_reducible refine (State.freshSend_keeps _ _).then ?_ ?_
    | with_reducible refine (State.freshPath_keeps _ _).then ?_ ?_
    | with_reducible refine (State.setReason_keeps _ _ _ _).then ?_ ?_ | with_reducible refine Keeps.ite ?_ ?_
    | extract_lets | split | dsimp +zetaDelta only

theorem State.plainTiles_keeps (s : State) (r : Nat) : Keeps [.regs] s (State.plainTiles s r) := by
  unfold State.plainTiles
  repeat' first
    | exact rfl | with_reducible exact Keeps.refl _ _ | with_reducible assumption
    | with_reducible refine (State.idleTile_keeps _ _).then ?_ ?_
    | with_reducible refine (State.loadTile_keeps _ _ _ _ _).then ?_ ?_ | with_reducible refine Keeps.ite ?_ ?_
    | with_reducible refine Keeps.each ?_ (fun _ _ _ => ?_) | extract_lets | split | dsimp +zetaDelta only

theorem State.fillPlace_keeps (s : State) (n : Nat) (k : Nat) : ∀ t, State.fillPlace s n k = some t → Keeps [.regs]
    s t := by
  intro t h
  unfold State.fillPlace at h
  split at h
  · cases h
    exact (State.loadTile_keeps _ _ _ _ _).then rfl ((State.idleTile_keeps _ _).weaken rfl)
  · cases h

theorem State.fillPlaces_keeps (s : State) (n : Nat) (ks : List Nat) : ∀ t, State.fillPlaces s n ks = some t → Keeps
    [.regs] s t := by
  induction ks generalizing s with
  | nil => intro t h; cases h; exact Keeps.refl _ _
  | cons k r ih =>
    intro t h
    unfold State.fillPlaces at h
    split at h
    · split at h
      · cases h
      · split at h
        · exact (ih _ _ h).then rfl ((State.fillPlace_keeps _ _ _ _ (by assumption)).weaken rfl)
        · cases h
    · exact ih _ _ h

theorem State.roleLane_keeps (s : State) (n : Nat) : Keeps [.freeCtr, .regs, .mgmt, .queues, .lanes, .ports, .hosts,
    .dies, .bcn] s (State.roleLane s n) := by
  unfold State.roleLane
  repeat' first
    | exact rfl | with_reducible exact Keeps.refl _ _ | with_reducible assumption
    | with_reducible refine (State.fillPlaces_keeps _ _ _ _ (by assumption)).then ?_ ?_
    | with_reducible refine Keeps.getD ?_ (fun _ _ => (State.fillPlaces_keeps _ _ _ _ (by assumption)).then ?_ ?_)
    | with_reducible refine (State.holdLane_keeps _ _).then ?_ ?_ | with_reducible refine Keeps.ite ?_ ?_
    | extract_lets | split | dsimp +zetaDelta only

theorem State.configTiles_keeps (s : State) (r : Nat) : Keeps [.freeCtr, .regs, .mgmt, .queues, .lanes, .pools,
    .ports, .hosts, .dies, .bcn] s (State.configTiles s r) := by
  unfold State.configTiles
  repeat' first
    | exact rfl | with_reducible exact Keeps.refl _ _ | with_reducible assumption
    | with_reducible refine (State.showExts_keeps _ _).then ?_ ?_
    | with_reducible refine (State.setPool_keeps _ _ _).then ?_ ?_
    | with_reducible refine (State.onLane_keeps _ _ _).then ?_ ?_
    | with_reducible refine (State.plainTiles_keeps _ _).then ?_ ?_
    | with_reducible refine (State.roleLane_keeps _ _).then ?_ ?_ | with_reducible refine Keeps.ite ?_ ?_
    | with_reducible refine Keeps.each ?_ (fun _ _ _ => ?_) | extract_lets | split | dsimp +zetaDelta only

end Sys2Proof.Machine
end

