-- ==== Sys2Proof/Laws/KeepsFault.lean ====
section
/-!
SUPPORT. What each operation of Machine/Fault.lean leaves unchanged, and that it keeps the canonical form.
-/

namespace Sys2Proof.Machine

open Sys2Proof

theorem State.endTests_keeps (s : State) (p : Nat → Bool) (st : Status) : Keeps [.regs, .mgmt, .test] s
    (State.endTests s p st) := by
  have k : ∀ (u : State) (x : TestSt), Keeps [.test] u { u with test := x } := fun u x => by
    repeat' first
    | exact Or.inr (by decide)
    | with_reducible exact Or.inl rfl
    | with_reducible exact id
    | with_reducible exact Keeps.refl _ _
    | with_reducible apply Keeps.upd
  unfold State.endTests
  dsimp only
  repeat' first
    | with_reducible exact Keeps.refl _ _
    | split
  all_goals first
    | exact (k _ _).weaken rfl
    | exact (k _ _).then rfl ((k _ _).weaken rfl)
    | exact (State.complete_keeps _ _ _ _ _ _ _).then rfl ((k _ _).then rfl ((k _ _).weaken rfl))

theorem State.markFailed_keeps (s : State) (t : Nat) (cause : Nat) : Keeps [.regs] s (State.markFailed s t cause) :=
    by
  unfold State.markFailed
  repeat' first
    | exact rfl | with_reducible exact Keeps.refl _ _ | with_reducible assumption
    | with_reducible refine (State.put_keeps _ _ _).then ?_ ?_ | with_reducible refine Keeps.ite ?_ ?_ | extract_lets
    | split | dsimp +zetaDelta only

theorem State.dropWork_keeps (s : State) (n : Nat) : Keeps [.regs, .mgmt, .lanes, .dies] s (State.dropWork s n) :=
    by
  unfold State.dropWork
  repeat' first
    | exact rfl | with_reducible exact Keeps.refl _ _ | with_reducible assumption
    | with_reducible refine (State.abortCapture_keeps _ _ _).then ?_ ?_
    | with_reducible refine (State.abortWhere_keeps _ _ _).then ?_ ?_
    | with_reducible refine (State.onLane_keeps _ _ _).then ?_ ?_ | with_reducible refine Keeps.ite ?_ ?_
    | with_reducible refine Keeps.onlyIf ?_ (fun _ _ => ?_) | extract_lets | split | dsimp +zetaDelta only

theorem State.holdApplies_keeps (s : State) (n : Nat) : Keeps [.freeCtr, .regs, .mgmt, .counts, .lanes, .pools,
    .ports, .hosts, .dies, .mem, .ctx] s (State.holdApplies s n) := by
  unfold State.holdApplies
  repeat' first
    | exact rfl | with_reducible exact Keeps.refl _ _ | with_reducible assumption
    | with_reducible refine (State.endApply_keeps _ _ _).then ?_ ?_
    | with_reducible refine (State.replaceApply_keeps _ _ _).then ?_ ?_
    | with_reducible refine (State.onLane_keeps _ _ _).then ?_ ?_ | with_reducible refine Keeps.ite ?_ ?_
    | with_reducible refine Keeps.each ?_ (fun _ _ _ => ?_) | extract_lets | split | dsimp +zetaDelta only

theorem State.failApplies_keeps (s : State) (n : Nat) : Keeps [.freeCtr, .regs, .mgmt, .counts, .lanes, .pools,
    .ports, .hosts, .dies, .mem, .ctx] s (State.failApplies s n) := by
  unfold State.failApplies
  repeat' first
    | exact rfl | with_reducible exact Keeps.refl _ _ | with_reducible assumption
    | with_reducible refine (State.abortApplies_keeps _ _ _).then ?_ ?_ | with_reducible refine Keeps.ite ?_ ?_
    | extract_lets | split | dsimp +zetaDelta only

theorem State.resumeApplies_keeps (s : State) : Keeps [.lanes, .ctx] s (State.resumeApplies s) := by
  unfold State.resumeApplies
  repeat' first
    | exact rfl | with_reducible exact Keeps.refl _ _ | with_reducible assumption
    | with_reducible refine (State.replaceApply_keeps _ _ _).then ?_ ?_
    | with_reducible refine (State.onLane_keeps _ _ _).then ?_ ?_ | with_reducible refine Keeps.ite ?_ ?_
    | with_reducible refine Keeps.each ?_ (fun _ _ _ => ?_) | extract_lets | split | dsimp +zetaDelta only

theorem State.noSpare_keeps (s : State) (n : Nat) (failed : List Nat) : Keeps [.freeCtr, .regs, .mgmt, .counts,
    .queues, .lanes, .pools, .ports, .hosts, .dies, .bcn, .mem, .ctx] s (State.noSpare s n failed) := by
  unfold State.noSpare
  repeat' first
    | exact rfl | with_reducible exact Keeps.refl _ _ | with_reducible assumption
    | with_reducible refine (State.raise_keeps _ _).then ?_ ?_
    | with_reducible refine (State.idleTile_keeps _ _).then ?_ ?_
    | with_reducible refine (State.holdLane_keeps _ _).then ?_ ?_
    | with_reducible refine (State.failApplies_keeps _ _).then ?_ ?_ | with_reducible refine Keeps.ite ?_ ?_
    | with_reducible refine Keeps.each ?_ (fun _ _ _ => ?_) | extract_lets | split | dsimp +zetaDelta only

theorem State.startRepair_keeps (s : State) (n : Nat) (failed : List Nat) : Keeps [.freeCtr, .regs, .mgmt, .counts,
    .queues, .lanes, .pools, .ports, .hosts, .dies, .bcn, .mem, .ctx, .test] s (State.startRepair s n failed) := by
  unfold State.startRepair
  repeat' first
    | exact rfl | with_reducible exact Keeps.refl _ _ | with_reducible assumption
    | with_reducible refine (State.noSpare_keeps _ _ _).then ?_ ?_
    | with_reducible refine (State.endTests_keeps _ _ _).then ?_ ?_
    | with_reducible refine (State.detach_keeps _ _ _).then ?_ ?_
    | with_reducible refine (State.onLane_keeps _ _ _).then ?_ ?_ | with_reducible refine Keeps.ite ?_ ?_
    | with_reducible refine Keeps.each ?_ (fun _ _ _ => ?_) | extract_lets | split | dsimp +zetaDelta only

theorem State.nextRepair_keeps (s : State) (r : Nat) : Keeps [.freeCtr, .regs, .mgmt, .counts, .queues, .lanes,
    .pools, .ports, .hosts, .dies, .bcn, .mem, .ctx, .test] s (State.nextRepair s r) := by
  unfold State.nextRepair
  repeat' first
    | exact rfl | with_reducible exact Keeps.refl _ _ | with_reducible assumption
    | with_reducible refine (State.startRepair_keeps _ _ _).then ?_ ?_
    | with_reducible refine (State.onLane_keeps _ _ _).then ?_ ?_ | with_reducible refine Keeps.ite ?_ ?_
    | with_reducible refine Keeps.each ?_ (fun _ _ _ => ?_) | extract_lets | split | dsimp +zetaDelta only

theorem State.laneDown_keeps (s : State) (n : Nat) : Keeps [.freeCtr, .regs, .counts, .lanes, .ports, .hosts, .dies]
    s (State.laneDown s n) := by
  unfold State.laneDown
  repeat' first
    | exact rfl | with_reducible exact Keeps.refl _ _ | with_reducible assumption
    | with_reducible refine (State.loseLock_keeps _ _).then ?_ ?_ | with_reducible refine Keeps.ite ?_ ?_
    | extract_lets | split | dsimp +zetaDelta only

theorem State.repairTile_keeps (s : State) (n : Nat) (t : Nat) : Keeps [.freeCtr, .regs, .mgmt, .counts, .queues,
    .lanes, .pools, .ports, .hosts, .dies, .bcn, .mem, .ctx, .test] s (State.repairTile s n t) := by
  unfold State.repairTile
  repeat' first
    | exact rfl | with_reducible exact Keeps.refl _ _ | with_reducible assumption
    | with_reducible refine (State.dropWork_keeps _ _).then ?_ ?_
    | with_reducible refine (State.nextRepair_keeps _ _).then ?_ ?_
    | with_reducible refine (State.holdLane_keeps _ _).then ?_ ?_
    | with_reducible refine (State.idleTile_keeps _ _).then ?_ ?_
    | with_reducible refine (State.failApplies_keeps _ _).then ?_ ?_
    | with_reducible refine (State.laneDown_keeps _ _).then ?_ ?_
    | with_reducible refine (State.detach_keeps _ _ _).then ?_ ?_
    | with_reducible refine (State.startRepair_keeps _ _ _).then ?_ ?_
    | with_reducible refine (State.onLane_keeps _ _ _).then ?_ ?_
    | with_reducible refine (State.holdApplies_keeps _ _).then ?_ ?_ | with_reducible refine Keeps.ite ?_ ?_
    | extract_lets | split | dsimp +zetaDelta only

theorem tileFailedEffect_keeps (t : TileId) (s : State) : Keeps [.freeCtr, .regs, .mgmt, .counts, .queues, .lanes,
    .pools, .ports, .hosts, .dies, .bcn, .mem, .ctx, .test] s (tileFailedEffect t s) := by
  unfold tileFailedEffect
  repeat' first
    | exact rfl | with_reducible exact Keeps.refl _ _ | with_reducible assumption
    | with_reducible refine (State.endTests_keeps _ _ _).then ?_ ?_
    | with_reducible refine (State.raise_keeps _ _).then ?_ ?_
    | with_reducible refine (State.markFailed_keeps _ _ _).then ?_ ?_
    | with_reducible refine (State.nextRepair_keeps _ _).then ?_ ?_
    | with_reducible refine (State.startRepair_keeps _ _ _).then ?_ ?_
    | with_reducible refine (State.repairTile_keeps _ _ _).then ?_ ?_ | with_reducible refine Keeps.ite ?_ ?_
    | extract_lets | split | dsimp +zetaDelta only

theorem State.finishRepair_keeps (s : State) (n : Nat) (w : Swap) : Keeps [.freeCtr, .regs, .lanes] s
    (State.finishRepair s n w) := by
  unfold State.finishRepair
  repeat' first
    | exact rfl | with_reducible exact Keeps.refl _ _ | with_reducible assumption
    | with_reducible refine (State.takePlace_keeps _ _ _ _).then ?_ ?_
    | with_reducible refine (State.onLane_keeps _ _ _).then ?_ ?_ | with_reducible refine Keeps.ite ?_ ?_
    | with_reducible refine Keeps.each ?_ (fun _ _ _ => ?_) | extract_lets | split | dsimp +zetaDelta only

theorem swapDoneEffect_keeps (t : TileId) (s : State) : Keeps [.freeCtr, .regs, .mgmt, .counts, .queues, .lanes,
    .pools, .ports, .hosts, .dies, .bcn, .mem, .ctx, .test] s (swapDoneEffect t s) := by
  unfold swapDoneEffect
  repeat' first
    | exact rfl | with_reducible exact Keeps.refl _ _ | with_reducible assumption
    | with_reducible refine (State.countLane_keeps _ _ _ _).then ?_ ?_
    | with_reducible refine (State.raise_keeps _ _).then ?_ ?_
    | with_reducible refine (State.finishRepair_keeps _ _ _).then ?_ ?_
    | with_reducible refine (State.startLane_keeps _ _ _).then ?_ ?_
    | with_reducible refine (State.resumeApplies_keeps _).then ?_ ?_
    | with_reducible refine (State.nextRepair_keeps _ _).then ?_ ?_ | with_reducible refine Keeps.ite ?_ ?_
    | with_reducible refine Keeps.onlyIf ?_ (fun _ _ => ?_) | extract_lets | split | dsimp +zetaDelta only

theorem State.laneBack_keeps (s : State) (n : Nat) : Keeps [.freeCtr, .regs, .lanes, .pools, .ports, .hosts, .dies]
    s (State.laneBack s n) := by
  unfold State.laneBack
  repeat' first
    | exact rfl | with_reducible exact Keeps.refl _ _ | with_reducible assumption
    | with_reducible refine (State.startLane_keeps _ _ _).then ?_ ?_
    | with_reducible refine (State.enterWarm_keeps _ _).then ?_ ?_
    | with_reducible refine (State.enterDark_keeps _ _ _).then ?_ ?_ | with_reducible refine Keeps.ite ?_ ?_
    | extract_lets | split | dsimp +zetaDelta only

theorem replacedEffect_keeps (n : Lane) (s : State) : Keeps [.freeCtr, .regs, .mgmt, .counts, .queues, .lanes,
    .pools, .ports, .hosts, .dies, .bcn, .mem, .ctx, .test] s (replacedEffect n s) := by
  unfold replacedEffect
  repeat' first
    | exact rfl | with_reducible exact Keeps.refl _ _ | with_reducible assumption
    | with_reducible refine (State.resumeApplies_keeps _).then ?_ ?_
    | with_reducible refine (State.nextRepair_keeps _ _).then ?_ ?_
    | with_reducible refine (State.laneBack_keeps _ _).then ?_ ?_
    | with_reducible refine (State.raise_keeps _ _).then ?_ ?_
    | with_reducible refine (State.finishRepair_keeps _ _ _).then ?_ ?_ | with_reducible refine Keeps.ite ?_ ?_
    | extract_lets | split | dsimp +zetaDelta only

theorem checkpointEffect_keeps (n : Lane) (ok : Bool) (s : State) : Keeps [.regs, .lanes] s (checkpointEffect n ok
    s) := by
  unfold checkpointEffect
  repeat' first
    | exact rfl | with_reducible exact Keeps.refl _ _ | with_reducible assumption
    | with_reducible refine (State.onLane_keeps _ _ _).then ?_ ?_
    | with_reducible refine (State.raise_keeps _ _).then ?_ ?_ | with_reducible refine Keeps.ite ?_ ?_ | extract_lets
    | split | dsimp +zetaDelta only

theorem State.bgStart_keeps (s : State) : Keeps [.therm, .test] s (State.bgStart s) := by
  unfold State.bgStart
  repeat' first
    | exact rfl | with_reducible exact Keeps.refl _ _ | with_reducible assumption
    | with_reducible refine State.bgUnit_keeps _ _ _ ?_ ?_ (fun _ _ => ?_) | exact Or.inr (by decide)
    | with_reducible exact Or.inl rfl | with_reducible exact id | with_reducible refine Keeps.ite ?_ ?_
    | with_reducible refine Keeps.each ?_ (fun _ _ _ => ?_) | extract_lets | split | with_reducible apply Keeps.upd
    | dsimp +zetaDelta only | with_reducible exact fun h => SMap.wf_set _ _ _ _ h
    | with_reducible exact fun h => SMap.rising_set _ _ _ _ h | with_reducible exact fun h => SMap.rising_drop _ _ h
    | with_reducible exact fun h => SMap.wf_setRun _ _ _ _ h
    | with_reducible exact fun h => SMap.wf_setRun _ _ _ _ (SMap.wf_setRun _ _ _ _ h)
    | with_reducible exact fun h => SMap.wf_fillRun _ _ _ _ _ h | with_reducible exact fun h => SMap.wf_drop _ _ _ h
    | with_reducible exact fun _ => SMap.wf_nil _ | with_reducible exact fun h => by simpa using h | exact id

theorem bgSpareTestEffect_keeps (s : State) : Keeps [.therm, .test] s (bgSpareTestEffect s) := by
  unfold bgSpareTestEffect
  repeat' first
    | exact rfl | with_reducible exact Keeps.refl _ _ | with_reducible assumption
    | with_reducible refine (State.bgStart_keeps _).then ?_ ?_ | exact Or.inr (by decide)
    | with_reducible exact Or.inl rfl | with_reducible exact id | with_reducible refine Keeps.ite ?_ ?_ | extract_lets
    | split | with_reducible apply Keeps.upd | dsimp +zetaDelta only
    | with_reducible exact fun h => SMap.wf_set _ _ _ _ h | with_reducible exact fun h => SMap.rising_set _ _ _ _ h
    | with_reducible exact fun h => SMap.rising_drop _ _ h | with_reducible exact fun h => SMap.wf_setRun _ _ _ _ h
    | with_reducible exact fun h => SMap.wf_setRun _ _ _ _ (SMap.wf_setRun _ _ _ _ h)
    | with_reducible exact fun h => SMap.wf_fillRun _ _ _ _ _ h | with_reducible exact fun h => SMap.wf_drop _ _ _ h
    | with_reducible exact fun _ => SMap.wf_nil _ | with_reducible exact fun h => by simpa using h | exact id

theorem State.bgEnd_keeps (s : State) (t : Nat) (pass : Bool) : Keeps [.regs, .therm, .test] s (State.bgEnd s t
    pass) := by
  unfold State.bgEnd
  repeat' first
    | exact rfl | with_reducible exact Keeps.refl _ _ | with_reducible assumption
    | with_reducible refine (State.putB_keeps _ _ _).then ?_ ?_
    | with_reducible refine (State.put_keeps _ _ _).then ?_ ?_
    | with_reducible refine (State.bgStart_keeps _).then ?_ ?_
    | with_reducible refine (State.raise_keeps _ _).then ?_ ?_
    | with_reducible refine (State.markFailed_keeps _ _ _).then ?_ ?_ | exact Or.inr (by decide)
    | with_reducible exact Or.inl rfl | with_reducible exact id | with_reducible refine Keeps.ite ?_ ?_ | extract_lets
    | split | with_reducible apply Keeps.upd | dsimp +zetaDelta only
    | with_reducible exact fun h => SMap.wf_set _ _ _ _ h | with_reducible exact fun h => SMap.rising_set _ _ _ _ h
    | with_reducible exact fun h => SMap.rising_drop _ _ h | with_reducible exact fun h => SMap.wf_setRun _ _ _ _ h
    | with_reducible exact fun h => SMap.wf_setRun _ _ _ _ (SMap.wf_setRun _ _ _ _ h)
    | with_reducible exact fun h => SMap.wf_fillRun _ _ _ _ _ h | with_reducible exact fun h => SMap.wf_drop _ _ _ h
    | with_reducible exact fun _ => SMap.wf_nil _ | with_reducible exact fun h => by simpa using h | exact id

theorem spareFailEffect_keeps (t : TileId) (s : State) : Keeps [.regs, .therm, .test] s (spareFailEffect t s) := by
  unfold spareFailEffect
  repeat' first
    | exact rfl | with_reducible exact Keeps.refl _ _ | with_reducible assumption
    | with_reducible refine (State.bgEnd_keeps _ _ _).then ?_ ?_ | with_reducible refine Keeps.ite ?_ ?_
    | extract_lets | split | dsimp +zetaDelta only

theorem bgSlicePassEffect_keeps (t : TileId) (s : State) : Keeps [.regs, .therm, .test] s (bgSlicePassEffect t s) :=
    by
  unfold bgSlicePassEffect
  repeat' first
    | exact rfl | with_reducible exact Keeps.refl _ _ | with_reducible assumption
    | with_reducible refine (State.bgEnd_keeps _ _ _).then ?_ ?_ | with_reducible refine Keeps.ite ?_ ?_
    | extract_lets | split | dsimp +zetaDelta only

theorem bistRunEffect_keeps (s : State) : Keeps [.regs, .mgmt, .test] s (bistRunEffect s) := by
  unfold bistRunEffect
  repeat' first
    | exact rfl | with_reducible exact Keeps.refl _ _ | with_reducible assumption
    | with_reducible refine (State.complete_keeps _ _ _ _ _ _ _).then ?_ ?_ | exact Or.inr (by decide)
    | with_reducible exact Or.inl rfl | with_reducible exact id | with_reducible refine Keeps.ite ?_ ?_ | extract_lets
    | split | with_reducible apply Keeps.upd | dsimp +zetaDelta only
    | with_reducible exact fun h => SMap.wf_set _ _ _ _ h | with_reducible exact fun h => SMap.rising_set _ _ _ _ h
    | with_reducible exact fun h => SMap.rising_drop _ _ h | with_reducible exact fun h => SMap.wf_setRun _ _ _ _ h
    | with_reducible exact fun h => SMap.wf_setRun _ _ _ _ (SMap.wf_setRun _ _ _ _ h)
    | with_reducible exact fun h => SMap.wf_fillRun _ _ _ _ _ h | with_reducible exact fun h => SMap.wf_drop _ _ _ h
    | with_reducible exact fun _ => SMap.wf_nil _ | with_reducible exact fun h => by simpa using h | exact id

theorem bistRunDoneEffect_keeps (pass : Bool) (s : State) : Keeps [.regs, .mgmt, .test] s (bistRunDoneEffect pass s)
    := by
  unfold bistRunDoneEffect
  repeat' first
    | exact rfl | with_reducible exact Keeps.refl _ _ | with_reducible assumption
    | with_reducible refine (State.putB_keeps _ _ _).then ?_ ?_
    | with_reducible refine (State.put_keeps _ _ _).then ?_ ?_
    | with_reducible refine (State.complete_keeps _ _ _ _ _ _ _).then ?_ ?_
    | with_reducible refine (State.markFailed_keeps _ _ _).then ?_ ?_ | exact Or.inr (by decide)
    | with_reducible exact Or.inl rfl | with_reducible exact id | with_reducible refine Keeps.ite ?_ ?_ | extract_lets
    | split | with_reducible apply Keeps.upd | dsimp +zetaDelta only
    | with_reducible exact fun h => SMap.wf_set _ _ _ _ h | with_reducible exact fun h => SMap.rising_set _ _ _ _ h
    | with_reducible exact fun h => SMap.rising_drop _ _ h | with_reducible exact fun h => SMap.wf_setRun _ _ _ _ h
    | with_reducible exact fun h => SMap.wf_setRun _ _ _ _ (SMap.wf_setRun _ _ _ _ h)
    | with_reducible exact fun h => SMap.wf_fillRun _ _ _ _ _ h | with_reducible exact fun h => SMap.wf_drop _ _ _ h
    | with_reducible exact fun _ => SMap.wf_nil _ | with_reducible exact fun h => by simpa using h | exact id

theorem State.freeLane_keeps (s : State) (n : Nat) : Keeps [.freeCtr, .regs, .mgmt, .queues, .lanes, .pools, .ports,
    .hosts, .dies, .bcn] s (State.freeLane s n) := by
  unfold State.freeLane
  repeat' first
    | exact rfl | with_reducible exact Keeps.refl _ _ | with_reducible assumption
    | with_reducible refine (State.put_keeps _ _ _).then ?_ ?_
    | with_reducible refine (State.enableLane_keeps _ _).then ?_ ?_
    | with_reducible refine (State.roleLane_keeps _ _).then ?_ ?_ | with_reducible refine Keeps.ite ?_ ?_
    | with_reducible refine Keeps.onlyIf ?_ (fun _ _ => ?_) | extract_lets | split | dsimp +zetaDelta only

theorem heldPartRetestEffect_keeps (n : Lane) (pass : Bool) (s : State) : Keeps [.freeCtr, .regs, .mgmt, .queues,
    .lanes, .pools, .ports, .hosts, .dies, .bcn] s (heldPartRetestEffect n pass s) := by
  unfold heldPartRetestEffect
  repeat' first
    | exact rfl | with_reducible exact Keeps.refl _ _ | with_reducible assumption
    | with_reducible refine (State.put_keeps _ _ _).then ?_ ?_
    | with_reducible refine (State.freeLane_keeps _ _).then ?_ ?_
    | with_reducible refine (State.onLane_keeps _ _ _).then ?_ ?_ | with_reducible refine Keeps.ite ?_ ?_
    | with_reducible refine Keeps.each ?_ (fun _ _ _ => ?_) | extract_lets | split | dsimp +zetaDelta only

theorem State.attachTile_keeps (s : State) (r : Nat) (n : Nat) (p : Nat) : Keeps [.regs, .counts, .pools] s
    (State.attachTile s r n p) := by
  unfold State.attachTile
  repeat' first
    | exact rfl | with_reducible exact Keeps.refl _ _ | with_reducible assumption
    | with_reducible refine (State.setPool_keeps _ _ _).then ?_ ?_
    | with_reducible refine (State.put_keeps _ _ _).then ?_ ?_
    | with_reducible refine (State.countLane_keeps _ _ _ _).then ?_ ?_
    | with_reducible refine (State.raiseLane_keeps _ _ _).then ?_ ?_
    | with_reducible refine (State.showExts_keeps _ _).then ?_ ?_ | with_reducible refine Keeps.ite ?_ ?_
    | extract_lets | split | dsimp +zetaDelta only

theorem State.attach_keeps (s : State) (r : Nat) (n : Nat) : Keeps [.regs, .counts, .pools] s (State.attach s r n)
    := by
  unfold State.attach
  repeat' first
    | exact rfl | with_reducible exact Keeps.refl _ _ | with_reducible assumption
    | with_reducible refine (State.attachTile_keeps _ _ _ _).then ?_ ?_ | with_reducible refine Keeps.ite ?_ ?_
    | extract_lets | split | dsimp +zetaDelta only

theorem placementEvalEffect_keeps (r : Region) (s : State) : Keeps [.regs, .counts, .pools, .therm] s
    (placementEvalEffect r s) := by
  unfold placementEvalEffect
  repeat' first
    | exact rfl | with_reducible exact Keeps.refl _ _ | with_reducible assumption
    | with_reducible refine State.bgUnit_keeps _ _ _ ?_ ?_ (fun _ _ => ?_)
    | with_reducible refine (State.attach_keeps _ _ _).then ?_ ?_
    | with_reducible refine (State.setPool_keeps _ _ _).then ?_ ?_ | with_reducible refine Keeps.ite ?_ ?_
    | extract_lets | split | dsimp +zetaDelta only

theorem segmentMeasureEffect_keeps (n : Lane) (s : State) : Keeps [.lanes, .pools] s (segmentMeasureEffect n s) :=
    by
  unfold segmentMeasureEffect
  repeat' first
    | exact rfl | with_reducible exact Keeps.refl _ _ | with_reducible assumption
    | with_reducible refine (State.onLane_keeps _ _ _).then ?_ ?_
    | with_reducible refine (State.setPool_keeps _ _ _).then ?_ ?_ | with_reducible refine Keeps.ite ?_ ?_
    | extract_lets | split | dsimp +zetaDelta only

theorem withdrawHalveEffect_keeps (r : Region) (s : State) : Keeps [.regs, .counts, .pools] s (withdrawHalveEffect r
    s) := by
  unfold withdrawHalveEffect
  repeat' first
    | exact rfl | with_reducible exact Keeps.refl _ _ | with_reducible assumption
    | with_reducible refine (State.setPool_keeps _ _ _).then ?_ ?_
    | with_reducible refine (State.attach_keeps _ _ _).then ?_ ?_
    | with_reducible refine (State.detach_keeps _ _ _).then ?_ ?_ | with_reducible refine Keeps.ite ?_ ?_
    | extract_lets | split | dsimp +zetaDelta only

end Sys2Proof.Machine
end

