-- ==== Sys2Proof/Laws/KeepsReset.lean ====
section
/-!
SUPPORT. What each operation of Machine/Reset.lean leaves unchanged, and that it keeps the canonical form.
-/

namespace Sys2Proof.Machine

open Sys2Proof

theorem State.clearLaneBlock_keeps (s : State) (n : Nat) : Keeps [.regs] s (State.clearLaneBlock s n) := by
  unfold State.clearLaneBlock
  repeat' first
    | exact rfl | with_reducible exact Keeps.refl _ _ | with_reducible assumption | exact Or.inr (by decide)
    | with_reducible exact Or.inl rfl | with_reducible exact id | with_reducible refine Keeps.ite ?_ ?_ | extract_lets
    | split | with_reducible apply Keeps.upd | dsimp +zetaDelta only
    | with_reducible exact fun h => SMap.wf_set _ _ _ _ h | with_reducible exact fun h => SMap.rising_set _ _ _ _ h
    | with_reducible exact fun h => SMap.rising_drop _ _ h | with_reducible exact fun h => SMap.wf_setRun _ _ _ _ h
    | with_reducible exact fun h => SMap.wf_setRun _ _ _ _ (SMap.wf_setRun _ _ _ _ h)
    | with_reducible exact fun h => SMap.wf_fillRun _ _ _ _ _ h | with_reducible exact fun h => SMap.wf_drop _ _ _ h
    | with_reducible exact fun _ => SMap.wf_nil _ | with_reducible exact fun h => by simpa using h | exact id

theorem State.clearBeacon_keeps (s : State) (n : Nat) : Keeps [.regs, .bcn] s (State.clearBeacon s n) := by
  unfold State.clearBeacon
  repeat' first
    | exact rfl | with_reducible exact Keeps.refl _ _ | with_reducible assumption
    | with_reducible refine (State.clearRange_keeps _ _ _).then ?_ ?_
    | with_reducible refine (State.put_keeps _ _ _).then ?_ ?_
    | with_reducible refine (State.bcnLost_keeps _ _).then ?_ ?_ | with_reducible refine Keeps.ite ?_ ?_
    | extract_lets | split | dsimp +zetaDelta only

theorem State.loseLane_keeps (s : State) (n : Nat) : Keeps [.freeCtr, .regs, .queues, .lanes, .ports, .hosts, .dies,
    .bcn, .ctx] s (State.loseLane s n) := by
  unfold State.loseLane
  repeat' first
    | exact rfl | with_reducible exact Keeps.refl _ _ | with_reducible assumption
    | with_reducible refine (State.clearBeacon_keeps _ _).then ?_ ?_
    | with_reducible refine (State.lockGone_keeps _ _).then ?_ ?_
    | with_reducible refine (State.setQueue_keeps _ _ _).then ?_ ?_
    | with_reducible refine (State.clearLaneBlock_keeps _ _).then ?_ ?_
    | with_reducible refine (State.emptyQ_keeps _ _).then ?_ ?_
    | with_reducible refine (State.setLane_keeps _ _ _).then ?_ ?_ | exact Or.inr (by decide)
    | with_reducible exact Or.inl rfl | with_reducible exact id | with_reducible refine Keeps.ite ?_ ?_
    | with_reducible refine Keeps.each ?_ (fun _ _ _ => ?_) | extract_lets | split | with_reducible apply Keeps.upd
    | dsimp +zetaDelta only | with_reducible exact fun h => SMap.wf_set _ _ _ _ h
    | with_reducible exact fun h => SMap.rising_set _ _ _ _ h | with_reducible exact fun h => SMap.rising_drop _ _ h
    | with_reducible exact fun h => SMap.wf_setRun _ _ _ _ h
    | with_reducible exact fun h => SMap.wf_setRun _ _ _ _ (SMap.wf_setRun _ _ _ _ h)
    | with_reducible exact fun h => SMap.wf_fillRun _ _ _ _ _ h | with_reducible exact fun h => SMap.wf_drop _ _ _ h
    | with_reducible exact fun _ => SMap.wf_nil _ | with_reducible exact fun h => by simpa using h | exact id

theorem State.dropIdents_keeps (s : State) : Keeps [.ctx] s (State.dropIdents s) := by
  unfold State.dropIdents
  repeat' first
    | exact rfl | with_reducible exact Keeps.refl _ _ | with_reducible assumption
    | with_reducible refine (State.dropIdent_keeps _ _).then ?_ ?_ | with_reducible refine Keeps.ite ?_ ?_
    | with_reducible refine Keeps.each ?_ (fun _ _ _ => ?_) | extract_lets | split | dsimp +zetaDelta only

theorem State.endWork_keeps (s : State) (lanes : List Nat) (st : Status) : Keeps [.freeCtr, .regs, .mgmt, .counts,
    .lanes, .pools, .ports, .hosts, .dies, .mem, .ctx, .test] s (State.endWork s lanes st) := by
  unfold State.endWork
  repeat' first
    | exact rfl | with_reducible exact Keeps.refl _ _ | with_reducible assumption
    | with_reducible refine (State.abortCapture_keeps _ _ _).then ?_ ?_
    | with_reducible refine (State.abortWhere_keeps _ _ _).then ?_ ?_
    | with_reducible refine (State.abortApplies_keeps _ _ _).then ?_ ?_
    | with_reducible refine (State.endTests_keeps _ _ _).then ?_ ?_ | with_reducible refine Keeps.ite ?_ ?_
    | with_reducible refine Keeps.each ?_ (fun _ _ _ => ?_) | with_reducible refine Keeps.onlyIf ?_ (fun _ _ => ?_)
    | extract_lets | split | dsimp +zetaDelta only

theorem State.loseRegion_keeps (s : State) (r : Nat) : Keeps [.freeCtr, .regs, .queues, .lanes, .pools, .ports,
    .hosts, .dies, .bcn, .syn, .ctx] s (State.loseRegion s r) := by
  unfold State.loseRegion
  repeat' first
    | exact rfl | with_reducible exact Keeps.refl _ _ | with_reducible assumption
    | with_reducible refine (State.loseLane_keeps _ _).then ?_ ?_
    | with_reducible refine (State.dropIdents_keeps _).then ?_ ?_
    | with_reducible refine (State.clearRange_keeps _ _ _).then ?_ ?_
    | with_reducible refine (State.setSyn_keeps _ _ _).then ?_ ?_
    | with_reducible refine (State.setPool_keeps _ _ _).then ?_ ?_ | with_reducible refine Keeps.ite ?_ ?_
    | extract_lets | split | dsimp +zetaDelta only

theorem State.abortPartial_keeps (s : State) : Keeps [.regs, .mgmt, .loader, .cal] s (State.abortPartial s) := by
  unfold State.abortPartial
  repeat' first
    | exact rfl | with_reducible exact Keeps.refl _ _ | with_reducible assumption
    | with_reducible refine (State.settleCal_keeps _).then ?_ ?_
    | with_reducible refine (State.complete_keeps _ _ _ _ _ _ _).then ?_ ?_
    | with_reducible refine (State.put_keeps _ _ _).then ?_ ?_ | exact Or.inr (by decide)
    | with_reducible exact Or.inl rfl | with_reducible exact id | with_reducible refine Keeps.ite ?_ ?_
    | with_reducible refine Keeps.onlyIf ?_ (fun _ _ => ?_) | extract_lets | split | with_reducible apply Keeps.upd
    | dsimp +zetaDelta only | with_reducible exact fun h => SMap.wf_set _ _ _ _ h
    | with_reducible exact fun h => SMap.rising_set _ _ _ _ h | with_reducible exact fun h => SMap.rising_drop _ _ h
    | with_reducible exact fun h => SMap.wf_setRun _ _ _ _ h
    | with_reducible exact fun h => SMap.wf_setRun _ _ _ _ (SMap.wf_setRun _ _ _ _ h)
    | with_reducible exact fun h => SMap.wf_fillRun _ _ _ _ _ h | with_reducible exact fun h => SMap.wf_drop _ _ _ h
    | with_reducible exact fun _ => SMap.wf_nil _ | with_reducible exact fun h => by simpa using h | exact id

theorem State.freshSensors_keeps (s : State) (d : Nat) : Keeps [.regs, .therm] s (State.freshSensors s d) := by
  unfold State.freshSensors
  repeat' first
    | exact rfl | with_reducible exact Keeps.refl _ _ | with_reducible assumption
    | with_reducible refine (State.put_keeps _ _ _).then ?_ ?_
    | with_reducible refine (State.setSensor_keeps _ _ _).then ?_ ?_ | with_reducible refine Keeps.ite ?_ ?_
    | with_reducible refine Keeps.each ?_ (fun _ _ _ => ?_) | extract_lets | split | dsimp +zetaDelta only

theorem State.dieReset_keeps (s : State) (d : Nat) : Keeps [.freeCtr, .regs, .mgmt, .counts, .queues, .lanes,
    .pools, .ports, .hosts, .dies, .loader, .bcn, .syn, .mem, .ctx, .therm, .test, .cal] s (State.dieReset s d) :=
    by
  unfold State.dieReset
  repeat' first
    | exact rfl | with_reducible exact Keeps.refl _ _ | with_reducible assumption
    | with_reducible refine (State.abortWhere_keeps _ _ _).then ?_ ?_
    | with_reducible refine (State.endWork_keeps _ _ _).then ?_ ?_
    | with_reducible refine (State.abortPartial_keeps _).then ?_ ?_
    | with_reducible refine (State.emptyQ_keeps _ _).then ?_ ?_
    | with_reducible refine (State.loseRegion_keeps _ _).then ?_ ?_
    | with_reducible refine (State.freshSensors_keeps _ _).then ?_ ?_
    | with_reducible refine (State.clearRange_keeps _ _ _).then ?_ ?_
    | with_reducible refine (State.clearBank_keeps _ _).then ?_ ?_
    | with_reducible refine (State.setDie_keeps _ _ _).then ?_ ?_ | exact Or.inr (by decide)
    | with_reducible exact Or.inl rfl | with_reducible exact id | with_reducible refine Keeps.ite ?_ ?_
    | with_reducible refine Keeps.onlyIf ?_ (fun _ _ => ?_) | extract_lets | split | with_reducible apply Keeps.upd
    | dsimp +zetaDelta only | with_reducible exact fun h => SMap.wf_set _ _ _ _ h
    | with_reducible exact fun h => SMap.rising_set _ _ _ _ h | with_reducible exact fun h => SMap.rising_drop _ _ h
    | with_reducible exact fun h => SMap.wf_setRun _ _ _ _ h
    | with_reducible exact fun h => SMap.wf_setRun _ _ _ _ (SMap.wf_setRun _ _ _ _ h)
    | with_reducible exact fun h => SMap.wf_fillRun _ _ _ _ _ h | with_reducible exact fun h => SMap.wf_drop _ _ _ h
    | with_reducible exact fun _ => SMap.wf_nil _ | with_reducible exact fun h => by simpa using h | exact id

theorem State.packageReset_keeps (s : State) : Keeps [.regs, .mgmt, .intc, .counts, .queues, .lanes, .pools, .ports,
    .hosts, .dies, .loader, .power, .time, .sched, .trig, .bcn, .syn, .mem, .ctx, .therm, .test, .cal, .hk] s
    (State.packageReset s) := by
  unfold State.packageReset
  repeat' first
    | exact rfl
    | with_reducible exact Keeps.refl _ _
    | with_reducible assumption
    | with_reducible refine (State.put_keeps _ _ _).then ?_ ?_
    | with_reducible refine (State.setDie_keeps _ _ _).then ?_ ?_
    | with_reducible refine Keeps.ite ?_ ?_
    | with_reducible refine Keeps.onlyIf ?_ (fun _ _ => ?_)
    | extract_lets
    | exact Or.inr (by decide)
    | with_reducible exact Or.inl rfl
    | exact fun h => SMap.rising_foldl_set _ _ _ (SMap.rising_filter _ _ h)
    | exact fun _ => rfl
    | exact id
    | with_reducible apply Keeps.upd

theorem State.resetAsserted_keeps (s : State) : Keeps [.regs, .mgmt, .intc, .counts, .queues, .lanes, .pools,
    .ports, .hosts, .dies, .loader, .power, .time, .sched, .trig, .bcn, .syn, .mem, .ctx, .therm, .test, .cal, .hk]
    s (State.resetAsserted s) := by
  unfold State.resetAsserted
  repeat' first
    | exact rfl | with_reducible exact Keeps.refl _ _ | with_reducible assumption
    | with_reducible refine (State.put_keeps _ _ _).then ?_ ?_
    | with_reducible refine (State.packageReset_keeps _).then ?_ ?_ | exact Or.inr (by decide)
    | with_reducible exact Or.inl rfl | with_reducible exact id | with_reducible refine Keeps.ite ?_ ?_ | extract_lets
    | split | with_reducible apply Keeps.upd | dsimp +zetaDelta only
    | with_reducible exact fun h => SMap.wf_set _ _ _ _ h | with_reducible exact fun h => SMap.rising_set _ _ _ _ h
    | with_reducible exact fun h => SMap.rising_drop _ _ h | with_reducible exact fun h => SMap.wf_setRun _ _ _ _ h
    | with_reducible exact fun h => SMap.wf_setRun _ _ _ _ (SMap.wf_setRun _ _ _ _ h)
    | with_reducible exact fun h => SMap.wf_fillRun _ _ _ _ _ h | with_reducible exact fun h => SMap.wf_drop _ _ _ h
    | with_reducible exact fun _ => SMap.wf_nil _ | with_reducible exact fun h => by simpa using h | exact id

end Sys2Proof.Machine
end

