-- ==== Sys2Proof/Laws/KeepsTime.lean ====
section
/-!
SUPPORT. What each operation of Machine/Time.lean leaves unchanged, and that it keeps the canonical form.
-/

namespace Sys2Proof.Machine

open Sys2Proof

theorem State.setTime_keeps (s : State) (t : TimeSt) : Keeps [.time] s (State.setTime s t) := by
  unfold State.setTime
  repeat' first
    | exact rfl | with_reducible exact Keeps.refl _ _ | with_reducible assumption | exact Or.inr (by decide)
    | with_reducible exact Or.inl rfl | with_reducible exact id | with_reducible refine Keeps.ite ?_ ?_ | extract_lets
    | split | with_reducible apply Keeps.upd | dsimp +zetaDelta only
    | with_reducible exact fun h => SMap.wf_set _ _ _ _ h | with_reducible exact fun h => SMap.rising_set _ _ _ _ h
    | with_reducible exact fun h => SMap.rising_drop _ _ h | with_reducible exact fun h => SMap.wf_setRun _ _ _ _ h
    | with_reducible exact fun h => SMap.wf_setRun _ _ _ _ (SMap.wf_setRun _ _ _ _ h)
    | with_reducible exact fun h => SMap.wf_fillRun _ _ _ _ _ h | with_reducible exact fun h => SMap.wf_drop _ _ _ h
    | with_reducible exact fun _ => SMap.wf_nil _ | with_reducible exact fun h => by simpa using h | exact id

theorem State.timeEvent_keeps (s : State) (bit : Nat) : Keeps [.regs] s (State.timeEvent s bit) := by
  unfold State.timeEvent
  repeat' first
    | exact rfl | with_reducible exact Keeps.refl _ _ | with_reducible assumption
    | with_reducible refine (State.raise_keeps _ _).then ?_ ?_ | with_reducible refine Keeps.ite ?_ ?_ | extract_lets
    | split | dsimp +zetaDelta only

theorem State.pendClear_keeps (s : State) : Keeps [.regs, .time] s (State.pendClear s) := by
  unfold State.pendClear
  repeat' first
    | exact rfl | with_reducible exact Keeps.refl _ _ | with_reducible assumption
    | with_reducible refine (State.put_keeps _ _ _).then ?_ ?_
    | with_reducible refine (State.setTime_keeps _ _).then ?_ ?_ | with_reducible refine Keeps.ite ?_ ?_
    | extract_lets | split | dsimp +zetaDelta only

theorem State.measure_keeps (s : State) (e : Int) (tau : Nat) (epoch : Option Nat) : Keeps [.regs, .time] s
    (State.measure s e tau epoch) := by
  unfold State.measure
  repeat' first
    | exact rfl | with_reducible exact Keeps.refl _ _ | with_reducible assumption
    | with_reducible refine (State.setTime_keeps _ _).then ?_ ?_
    | with_reducible refine (State.put_keeps _ _ _).then ?_ ?_
    | with_reducible refine (State.putZ_keeps _ _ _).then ?_ ?_
    | with_reducible refine (State.timeEvent_keeps _ _).then ?_ ?_
    | with_reducible refine (State.pendClear_keeps _).then ?_ ?_ | with_reducible refine Keeps.ite ?_ ?_
    | extract_lets | split | dsimp +zetaDelta only

theorem ppsEdgeEffect_keeps (rising : Bool) (s : State) : Keeps [.regs, .time] s (ppsEdgeEffect rising s) := by
  unfold ppsEdgeEffect
  repeat' first
    | exact rfl | with_reducible exact Keeps.refl _ _ | with_reducible assumption
    | with_reducible refine (State.setTime_keeps _ _).then ?_ ?_
    | with_reducible refine (State.timeEvent_keeps _ _).then ?_ ?_ | with_reducible refine Keeps.ite ?_ ?_
    | extract_lets | split | dsimp +zetaDelta only

theorem todMessageEffect_keeps (body : List Byte) (s : State) : Keeps [.regs, .time] s (todMessageEffect body s) :=
    by
  unfold todMessageEffect
  repeat' first
    | exact rfl | with_reducible exact Keeps.refl _ _ | with_reducible assumption
    | with_reducible refine (State.timeEvent_keeps _ _).then ?_ ?_
    | with_reducible refine (State.measure_keeps _ _ _ _).then ?_ ?_
    | with_reducible refine (State.setTime_keeps _ _).then ?_ ?_ | with_reducible refine Keeps.ite ?_ ?_
    | extract_lets | split | dsimp +zetaDelta only

theorem State.takeFrame_keeps (s : State) (v : Nat) (marker : Option Nat) : Keeps [.regs, .time] s (State.takeFrame
    s v marker) := by
  unfold State.takeFrame
  repeat' first
    | exact rfl | with_reducible exact Keeps.refl _ _ | with_reducible assumption
    | with_reducible refine (State.setTime_keeps _ _).then ?_ ?_
    | with_reducible refine (State.measure_keeps _ _ _ _).then ?_ ?_ | with_reducible refine Keeps.ite ?_ ?_
    | extract_lets | split | dsimp +zetaDelta only

theorem sumacFrameEffect_keeps (body : List Byte) (s : State) : Keeps [.regs, .time] s (sumacFrameEffect body s) :=
    by
  unfold sumacFrameEffect
  repeat' first
    | exact rfl | with_reducible exact Keeps.refl _ _ | with_reducible assumption
    | with_reducible refine (State.takeFrame_keeps _ _ _).then ?_ ?_
    | with_reducible refine (State.timeEvent_keeps _ _).then ?_ ?_ | with_reducible refine Keeps.ite ?_ ?_
    | extract_lets | split | dsimp +zetaDelta only

theorem sumacFrameSendEffect_keeps (s : State) : Keeps [.time] s (sumacFrameSendEffect s) := by
  unfold sumacFrameSendEffect
  repeat' first
    | exact rfl | with_reducible exact Keeps.refl _ _ | with_reducible assumption
    | with_reducible refine (State.setTime_keeps _ _).then ?_ ?_ | with_reducible refine Keeps.ite ?_ ?_
    | extract_lets | split | dsimp +zetaDelta only

theorem sumacConflictEffect_keeps (s : State) : Keeps [.regs] s (sumacConflictEffect s) := by
  unfold sumacConflictEffect
  repeat' first
    | exact rfl | with_reducible exact Keeps.refl _ _ | with_reducible assumption
    | with_reducible refine (State.put_keeps _ _ _).then ?_ ?_
    | with_reducible refine (State.timeEvent_keeps _ _).then ?_ ?_ | with_reducible refine Keeps.ite ?_ ?_
    | extract_lets | split | dsimp +zetaDelta only

theorem sumacRoleWriteEffect_keeps (role : BitVec 2) (s : State) : Keeps [.regs, .time] s (sumacRoleWriteEffect role
    s) := by
  unfold sumacRoleWriteEffect
  repeat' first
    | exact rfl | with_reducible exact Keeps.refl _ _ | with_reducible assumption
    | with_reducible refine (State.setTime_keeps _ _).then ?_ ?_
    | with_reducible refine (State.putB_keeps _ _ _).then ?_ ?_
    | with_reducible refine (State.put_keeps _ _ _).then ?_ ?_ | with_reducible refine Keeps.ite ?_ ?_
    | with_reducible refine Keeps.onlyIf ?_ (fun _ _ => ?_) | extract_lets | split | dsimp +zetaDelta only

theorem srcWriteEffect_keeps (src : BitVec 2) (s : State) : Keeps [.regs] s (srcWriteEffect src s) := by
  unfold srcWriteEffect
  repeat' first
    | exact rfl | with_reducible exact Keeps.refl _ _ | with_reducible assumption
    | with_reducible refine (State.put_keeps _ _ _).then ?_ ?_ | with_reducible refine Keeps.ite ?_ ?_ | extract_lets
    | split | dsimp +zetaDelta only

theorem sourceLossEffect_keeps (s : State) : Keeps [.regs, .time] s (sourceLossEffect s) := by
  unfold sourceLossEffect
  repeat' first
    | exact rfl | with_reducible exact Keeps.refl _ _ | with_reducible assumption
    | with_reducible refine (State.timeEvent_keeps _ _).then ?_ ?_
    | with_reducible refine (State.put_keeps _ _ _).then ?_ ?_
    | with_reducible refine (State.setTime_keeps _ _).then ?_ ?_ | with_reducible refine Keeps.ite ?_ ?_
    | extract_lets | split | dsimp +zetaDelta only

theorem State.timeRestarts_keeps (s : State) : Keeps [.regs, .time] s (State.timeRestarts s) := by
  unfold State.timeRestarts
  repeat' first
    | exact rfl | with_reducible exact Keeps.refl _ _ | with_reducible assumption
    | with_reducible refine (State.put_keeps _ _ _).then ?_ ?_
    | with_reducible refine (State.setTime_keeps _ _).then ?_ ?_ | with_reducible refine Keeps.ite ?_ ?_
    | extract_lets | split | dsimp +zetaDelta only

theorem State.takeSrc_keeps (s : State) : Keeps [.regs, .time] s (State.takeSrc s) := by
  unfold State.takeSrc
  repeat' first
    | exact rfl | with_reducible exact Keeps.refl _ _ | with_reducible assumption
    | with_reducible refine (State.pendClear_keeps _).then ?_ ?_
    | with_reducible refine (State.put_keeps _ _ _).then ?_ ?_
    | with_reducible refine (State.setTime_keeps _ _).then ?_ ?_ | with_reducible refine Keeps.ite ?_ ?_
    | extract_lets | split | dsimp +zetaDelta only

theorem State.skipPos_keeps (s : State) (p : Nat) (reason : Nat) : Keeps [.regs, .counts, .sched] s (State.skipPos s
    p reason) := by
  unfold State.skipPos
  repeat' first
    | exact rfl | with_reducible exact Keeps.refl _ _ | with_reducible assumption
    | with_reducible refine (State.countD0_keeps _ _ _ _).then ?_ ?_
    | with_reducible refine (State.raise_keeps _ _).then ?_ ?_
    | with_reducible refine (State.setPos_keeps _ _ _).then ?_ ?_ | with_reducible refine Keeps.ite ?_ ?_
    | extract_lets | split | dsimp +zetaDelta only

theorem State.skipPassed_keeps (s : State) (old : Nat) (new : Nat) : Keeps [.regs, .counts, .sched] s
    (State.skipPassed s old new) := by
  unfold State.skipPassed
  repeat' first
    | exact rfl | with_reducible exact Keeps.refl _ _ | with_reducible assumption
    | with_reducible refine (State.skipPos_keeps _ _ _).then ?_ ?_ | with_reducible refine Keeps.ite ?_ ?_
    | with_reducible refine Keeps.each ?_ (fun _ _ _ => ?_) | extract_lets | split | dsimp +zetaDelta only

theorem State.setTrig_keeps (s : State) (j : Nat) (t : TrigLine) : Keeps [.trig] s (State.setTrig s j t) := by
  unfold State.setTrig
  repeat' first
    | exact rfl | with_reducible exact Keeps.refl _ _ | with_reducible assumption | exact Or.inr (by decide)
    | with_reducible exact Or.inl rfl | with_reducible exact id | with_reducible refine Keeps.ite ?_ ?_ | extract_lets
    | split | with_reducible apply Keeps.upd | dsimp +zetaDelta only
    | with_reducible exact fun h => SMap.wf_set _ _ _ _ h | with_reducible exact fun h => SMap.rising_set _ _ _ _ h
    | with_reducible exact fun h => SMap.rising_drop _ _ h | with_reducible exact fun h => SMap.wf_setRun _ _ _ _ h
    | with_reducible exact fun h => SMap.wf_setRun _ _ _ _ (SMap.wf_setRun _ _ _ _ h)
    | with_reducible exact fun h => SMap.wf_fillRun _ _ _ _ _ h | with_reducible exact fun h => SMap.wf_drop _ _ _ h
    | with_reducible exact fun _ => SMap.wf_nil _ | with_reducible exact fun h => by simpa using h | exact id

theorem State.setLineTrig_keeps (s : State) (j : Nat) (t : TrigLine) : Keeps [.regs, .trig] s (State.setLineTrig s j
    t) := by
  unfold State.setLineTrig
  repeat' first
    | exact rfl | with_reducible exact Keeps.refl _ _ | with_reducible assumption
    | with_reducible refine (State.putB_keeps _ _ _).then ?_ ?_
    | with_reducible refine (State.setTrig_keeps _ _ _).then ?_ ?_ | with_reducible refine Keeps.ite ?_ ?_
    | extract_lets | split | dsimp +zetaDelta only

theorem State.trigPassed_keeps (s : State) (new : Nat) : Keeps [.regs, .trig] s (State.trigPassed s new) := by
  unfold State.trigPassed
  repeat' first
    | exact rfl | with_reducible exact Keeps.refl _ _ | with_reducible assumption
    | with_reducible refine (State.setLineTrig_keeps _ _ _).then ?_ ?_ | with_reducible refine Keeps.ite ?_ ?_
    | with_reducible refine Keeps.each ?_ (fun _ _ _ => ?_) | extract_lets | split | dsimp +zetaDelta only

theorem State.applyStep_keeps (s : State) (new : Nat) (epoch : Nat) : Keeps [.regs, .counts, .time, .sched, .trig] s
    (State.applyStep s new epoch) := by
  unfold State.applyStep
  repeat' first
    | exact rfl | with_reducible exact Keeps.refl _ _ | with_reducible assumption
    | with_reducible refine (State.put_keeps _ _ _).then ?_ ?_
    | with_reducible refine (State.trigPassed_keeps _ _).then ?_ ?_
    | with_reducible refine (State.skipPassed_keeps _ _ _).then ?_ ?_
    | with_reducible refine (State.timeEvent_keeps _ _).then ?_ ?_
    | with_reducible refine (State.pendClear_keeps _).then ?_ ?_
    | with_reducible refine (State.setTime_keeps _ _).then ?_ ?_ | with_reducible refine Keeps.ite ?_ ?_
    | with_reducible refine Keeps.onlyIf ?_ (fun _ _ => ?_) | extract_lets | split | dsimp +zetaDelta only

theorem State.completeTime_keeps (s : State) : Keeps [.regs, .mgmt, .time] s (State.completeTime s) := by
  unfold State.completeTime
  repeat' first
    | exact rfl | with_reducible exact Keeps.refl _ _ | with_reducible assumption
    | with_reducible refine (State.setTime_keeps _ _).then ?_ ?_
    | with_reducible refine (State.complete_keeps _ _ _ _ _ _ _).then ?_ ?_ | with_reducible refine Keeps.ite ?_ ?_
    | extract_lets | split | dsimp +zetaDelta only

theorem State.boundary_keeps (s : State) : Keeps [.regs, .mgmt, .counts, .time, .sched, .trig] s (State.boundary s)
    := by
  unfold State.boundary
  repeat' first
    | exact rfl | with_reducible exact Keeps.refl _ _ | with_reducible assumption
    | with_reducible refine (State.takeSrc_keeps _).then ?_ ?_
    | with_reducible refine (State.setTime_keeps _ _).then ?_ ?_
    | with_reducible refine (State.applyStep_keeps _ _ _).then ?_ ?_
    | with_reducible refine (State.putZ_keeps _ _ _).then ?_ ?_
    | with_reducible refine (State.completeTime_keeps _).then ?_ ?_ | with_reducible refine Keeps.ite ?_ ?_
    | extract_lets | split | dsimp +zetaDelta only

theorem segmentBoundaryEffect_keeps (s : State) : Keeps [.regs, .mgmt, .counts, .time, .sched, .trig] s
    (segmentBoundaryEffect s) := by
  unfold segmentBoundaryEffect
  repeat' first
    | exact rfl | with_reducible exact Keeps.refl _ _ | with_reducible assumption
    | with_reducible refine (State.boundary_keeps _).then ?_ ?_
    | with_reducible refine (State.setTime_keeps _ _).then ?_ ?_ | with_reducible refine Keeps.ite ?_ ?_
    | extract_lets | split | dsimp +zetaDelta only

theorem State.advanceTick_keeps (s : State) : Keeps [.regs, .mgmt, .counts, .time, .sched, .trig] s
    (State.advanceTick s) := by
  unfold State.advanceTick
  repeat' first
    | exact rfl | with_reducible exact Keeps.refl _ _ | with_reducible assumption
    | with_reducible refine (State.setTime_keeps _ _).then ?_ ?_
    | with_reducible refine (State.boundary_keeps _).then ?_ ?_ | with_reducible refine Keeps.ite ?_ ?_ | extract_lets
    | split | dsimp +zetaDelta only

theorem acceptEffect_keeps (s : State) : Keeps [.regs, .mgmt, .time] s (acceptEffect s) := by
  unfold acceptEffect
  repeat' first
    | exact rfl | with_reducible exact Keeps.refl _ _ | with_reducible assumption
    | with_reducible refine State.withHead_keeps _ _ _ _ _ ?_ ?_ (fun _ => ?_)
    | with_reducible refine (State.setTime_keeps _ _).then ?_ ?_
    | with_reducible refine (State.complete_keeps _ _ _ _ _ _ _).then ?_ ?_ | with_reducible refine Keeps.ite ?_ ?_
    | extract_lets | split | dsimp +zetaDelta only

theorem setEffect_keeps (s : State) : Keeps [.time] s (setEffect s) := by
  unfold setEffect
  repeat' first
    | exact rfl | with_reducible exact Keeps.refl _ _ | with_reducible assumption
    | with_reducible refine State.withHead_keeps _ _ _ _ _ ?_ ?_ (fun _ => ?_)
    | with_reducible refine (State.setTime_keeps _ _).then ?_ ?_ | with_reducible refine Keeps.ite ?_ ?_
    | extract_lets | split | dsimp +zetaDelta only

theorem State.putTime_keeps (s : State) (lo : Fld) (hi : Fld) (ns : Fld) (frac : Fld) (t : Nat) : Keeps [.regs] s
    (State.putTime s lo hi ns frac t) := by
  unfold State.putTime
  repeat' first
    | exact rfl | with_reducible exact Keeps.refl _ _ | with_reducible assumption
    | with_reducible refine (State.put_keeps _ _ _).then ?_ ?_ | with_reducible refine Keeps.ite ?_ ?_ | extract_lets
    | split | dsimp +zetaDelta only

theorem snapEffect_keeps (s : State) : Keeps [.regs] s (snapEffect s) := by
  unfold snapEffect
  repeat' first
    | exact rfl | with_reducible exact Keeps.refl _ _ | with_reducible assumption
    | with_reducible refine (State.put_keeps _ _ _).then ?_ ?_
    | with_reducible refine (State.putTime_keeps _ _ _ _ _ _).then ?_ ?_ | with_reducible refine Keeps.ite ?_ ?_
    | extract_lets | split | dsimp +zetaDelta only

theorem convTickHiWriteEffect_keeps (value : Word) (s : State) : Keeps [.regs] s (convTickHiWriteEffect value s) :=
    by
  unfold convTickHiWriteEffect
  repeat' first
    | exact rfl | with_reducible exact Keeps.refl _ _ | with_reducible assumption
    | with_reducible refine (State.put_keeps _ _ _).then ?_ ?_
    | with_reducible refine (State.putTime_keeps _ _ _ _ _ _).then ?_ ?_ | with_reducible refine Keeps.ite ?_ ?_
    | extract_lets | split | dsimp +zetaDelta only

end Sys2Proof.Machine
end

