-- ==== Sys2Proof/Laws/KeepsBus.lean ====
section
/-!
SUPPORT. What each operation of Machine/Bus.lean leaves unchanged, and that it keeps the canonical form.
-/

namespace Sys2Proof.Machine

open Sys2Proof

theorem State.sramRead_keeps (s : State) (m : Nat) (a : Nat) (bs : List MByte) : Keeps [.regs] s (State.sramRead s m
    a bs).2 := by
  unfold State.sramRead
  repeat' first
    | exact rfl | with_reducible exact Keeps.refl _ _ | with_reducible assumption
    | with_reducible refine (State.poisonUse_keeps _ _ _).then ?_ ?_
    | with_reducible refine (State.parity_keeps _ _).then ?_ ?_ | with_reducible refine Keeps.ite ?_ ?_
    | with_reducible refine Keeps.onlyIf ?_ (fun _ _ => ?_) | extract_lets | split | dsimp +zetaDelta only

theorem State.dirRead_keeps (s : State) (a : Nat) (way : Nat) (i : Nat) (hi : Bool) : Keeps [.regs] s (State.dirRead
    s a way i hi).2 := by
  unfold State.dirRead
  repeat' first
    | exact rfl | with_reducible exact Keeps.refl _ _ | with_reducible assumption
    | with_reducible refine (State.sramRead_keeps _ _ _ _).then ?_ ?_ | with_reducible refine Keeps.ite ?_ ?_
    | extract_lets | split | dsimp +zetaDelta only

theorem State.targetRead_keeps (s : State) (a : Nat) (o : Origin) : Keeps [.freeCtr, .regs, .intc, .counts, .mem] s
    (State.targetRead s a o).2 := by
  unfold State.targetRead
  repeat' first
    | exact rfl | with_reducible exact Keeps.refl _ _ | with_reducible assumption
    | with_reducible refine (State.claimRead_keeps _).then ?_ ?_
    | with_reducible refine (State.freed_keeps _).then ?_ ?_
    | with_reducible refine (State.latchCount_keeps _ _ _).then ?_ ?_
    | with_reducible refine (State.sramRead_keeps _ _ _ _).then ?_ ?_
    | with_reducible refine (State.dirRead_keeps _ _ _ _ _).then ?_ ?_
    | with_reducible refine (State.unmapped_keeps _ _ _ _).then ?_ ?_
    | with_reducible refine (State.hostWord_keeps _ _).then ?_ ?_
    | with_reducible refine (State.poisonUse_keeps _ _ _).then ?_ ?_ | with_reducible refine Keeps.ite ?_ ?_
    | with_reducible refine Keeps.onlyIf ?_ (fun _ _ => ?_) | extract_lets | split | dsimp +zetaDelta only

theorem State.busRead_keeps (s : State) (a : Nat) (o : Origin) : Keeps [.freeCtr, .regs, .intc, .counts, .mem] s
    (State.busRead s a o).2 := by
  unfold State.busRead
  repeat' first
    | exact rfl | with_reducible exact Keeps.refl _ _ | with_reducible assumption
    | with_reducible refine (State.targetRead_keeps _ _ _).then ?_ ?_ | with_reducible refine Keeps.ite ?_ ?_
    | extract_lets | split | dsimp +zetaDelta only

theorem State.storeField_keeps (s : State) (v : Nat) (h : RegHit) : Keeps [.regs] s (State.storeField s v h) := by
  unfold State.storeField
  repeat' first
    | exact rfl | with_reducible exact Keeps.refl _ _ | with_reducible assumption
    | with_reducible refine (State.put_keeps _ _ _).then ?_ ?_ | with_reducible refine Keeps.ite ?_ ?_ | extract_lets
    | split | dsimp +zetaDelta only

theorem State.storeFields_keeps (s : State) (v : Nat) (hits : List RegHit) : Keeps [.regs] s (State.storeFields s v
    hits) := by
  unfold State.storeFields
  repeat' first
    | exact rfl | with_reducible exact Keeps.refl _ _ | with_reducible assumption
    | with_reducible refine (State.storeField_keeps _ _ _).then ?_ ?_ | with_reducible refine Keeps.ite ?_ ?_
    | with_reducible refine Keeps.each ?_ (fun _ _ _ => ?_) | extract_lets | split | dsimp +zetaDelta only

theorem State.lineWrite_keeps (s : State) (n : Nat) (off : Nat) (v : Nat) (wo : Bool) (hits : List RegHit) : Keeps
    [.freeCtr, .regs, .mgmt, .counts, .lanes, .pools, .ports, .hosts, .dies, .mem, .ctx] s (State.lineWrite s n off
    v wo hits) := by
  unfold State.lineWrite
  repeat' first
    | exact rfl | with_reducible exact Keeps.refl _ _ | with_reducible assumption
    | with_reducible refine (State.storeFields_keeps _ _ _).then ?_ ?_
    | with_reducible refine (restartEffect_keeps _ _).then ?_ ?_
    | with_reducible refine (presetLoadEffect_keeps _ _).then ?_ ?_
    | with_reducible refine (winWriteEffect_keeps _ _ _).then ?_ ?_
    | with_reducible refine (startEffect_keeps _ _ _ _).then ?_ ?_
    | with_reducible refine (State.put_keeps _ _ _).then ?_ ?_
    | with_reducible refine (State.putB_keeps _ _ _).then ?_ ?_
    | with_reducible refine (patternEffect_keeps _ _ _).then ?_ ?_
    | with_reducible refine (squelchEffect_keeps _ _ _).then ?_ ?_ | with_reducible refine Keeps.ite ?_ ?_
    | with_reducible refine Keeps.onlyIf ?_ (fun _ _ => ?_) | extract_lets | split | dsimp +zetaDelta only

theorem State.tileWrite_keeps (s : State) (t : Nat) (v : Nat) (wo : Bool) (hits : List RegHit) : Keeps [.regs,
    .lanes, .pools] s (State.tileWrite s t v wo hits) := by
  unfold State.tileWrite
  repeat' first
    | exact rfl | with_reducible exact Keeps.refl _ _ | with_reducible assumption
    | with_reducible refine (tapLoadEffect_keeps _ _ _ _).then ?_ ?_
    | with_reducible refine (commitEffect_keeps _ _).then ?_ ?_
    | with_reducible refine (State.storeFields_keeps _ _ _).then ?_ ?_ | with_reducible refine Keeps.ite ?_ ?_
    | with_reducible refine Keeps.onlyIf ?_ (fun _ _ => ?_) | extract_lets | split | dsimp +zetaDelta only

theorem State.hostWrite_keeps (s : State) (h : Nat) (off : Nat) (v : Nat) (hits : List RegHit) : Keeps [.regs,
    .counts, .ports] s (State.hostWrite s h off v hits) := by
  unfold State.hostWrite
  repeat' first
    | exact rfl | with_reducible exact Keeps.refl _ _ | with_reducible assumption
    | with_reducible refine (State.storeFields_keeps _ _ _).then ?_ ?_
    | with_reducible refine (rxRestartEffect_keeps _ _).then ?_ ?_
    | with_reducible refine (hostTxCommitEffect_keeps _ _).then ?_ ?_ | with_reducible refine Keeps.ite ?_ ?_
    | with_reducible refine Keeps.onlyIf ?_ (fun _ _ => ?_) | extract_lets | split | dsimp +zetaDelta only

theorem State.portWrite_keeps (s : State) (n : Nat) (off : Nat) (v : Nat) (hits : List RegHit) : Keeps [.regs] s
    (State.portWrite s n off v hits) := by
  unfold State.portWrite
  repeat' first
    | exact rfl | with_reducible exact Keeps.refl _ _ | with_reducible assumption
    | with_reducible refine (State.put_keeps _ _ _).then ?_ ?_
    | with_reducible refine (nmHwmClrEffect_keeps _ _).then ?_ ?_
    | with_reducible refine (State.storeFields_keeps _ _ _).then ?_ ?_ | with_reducible refine Keeps.ite ?_ ?_
    | with_reducible refine Keeps.onlyIf ?_ (fun _ _ => ?_) | extract_lets | split | dsimp +zetaDelta only

theorem State.ctxWrite_keeps (s : State) (off : Nat) (idx : Nat) (v : Nat) (hits : List RegHit) : Keeps [.freeCtr,
    .regs, .mgmt, .counts, .lanes, .pools, .ports, .hosts, .dies, .bcn, .syn, .mem, .ctx] s (State.ctxWrite s off
    idx v hits) := by
  unfold State.ctxWrite
  repeat' first
    | exact rfl | with_reducible exact Keeps.refl _ _ | with_reducible assumption
    | with_reducible refine (State.storeFields_keeps _ _ _).then ?_ ?_
    | with_reducible refine (groupCfgWriteEffect_keeps _ _).then ?_ ?_
    | with_reducible refine (hashSeedWriteEffect_keeps _ _).then ?_ ?_ | with_reducible refine Keeps.ite ?_ ?_
    | extract_lets | split | dsimp +zetaDelta only

theorem State.bcnWrite_keeps (s : State) (n : Nat) (off : Nat) (v : Nat) (hits : List RegHit) : Keeps [.regs, .bcn,
    .syn] s (State.bcnWrite s n off v hits) := by
  unfold State.bcnWrite
  repeat' first
    | exact rfl | with_reducible exact Keeps.refl _ _ | with_reducible assumption
    | with_reducible refine (txModeWriteEffect_keeps _ _ _).then ?_ ?_
    | with_reducible refine (State.storeFields_keeps _ _ _).then ?_ ?_
    | with_reducible refine (sendEffect_keeps _ _ _).then ?_ ?_
    | with_reducible refine (txChLoadEffect_keeps _ _ _).then ?_ ?_
    | with_reducible refine (rxChLoadEffect_keeps _ _ _ _).then ?_ ?_ | with_reducible refine Keeps.ite ?_ ?_
    | with_reducible refine Keeps.onlyIf ?_ (fun _ _ => ?_) | extract_lets | split | dsimp +zetaDelta only

theorem State.timeWrite_keeps (s : State) (off : Nat) (idx : Nat) (v : Nat) (hits : List RegHit) : Keeps [.regs,
    .time, .trig] s (State.timeWrite s off idx v hits) := by
  unfold State.timeWrite
  repeat' first
    | exact rfl | with_reducible exact Keeps.refl _ _ | with_reducible assumption
    | with_reducible refine (sumacRoleWriteEffect_keeps _ _).then ?_ ?_
    | with_reducible refine (State.storeFields_keeps _ _ _).then ?_ ?_
    | with_reducible refine (snapEffect_keeps _).then ?_ ?_
    | with_reducible refine (convTickHiWriteEffect_keeps _ _).then ?_ ?_
    | with_reducible refine (State.arm_keeps _ _).then ?_ ?_ | with_reducible refine Keeps.ite ?_ ?_
    | with_reducible refine Keeps.onlyIf ?_ (fun _ _ => ?_) | extract_lets | split | dsimp +zetaDelta only

theorem State.hkdWrite_keeps (s : State) (off : Nat) (idx : Nat) (v : Nat) (o : Origin) (hits : List RegHit) : Keeps
    [.regs, .hk] s (State.hkdWrite s off idx v o hits) := by
  unfold State.hkdWrite
  repeat' first
    | exact rfl | with_reducible exact Keeps.refl _ _ | with_reducible assumption
    | with_reducible refine (State.put_keeps _ _ _).then ?_ ?_
    | with_reducible refine (State.setHkdEnable_keeps _ _ _).then ?_ ?_
    | with_reducible refine (State.setSpan_keeps _ _ _ _).then ?_ ?_
    | with_reducible refine (State.strobeGroups_keeps _ _).then ?_ ?_
    | with_reducible refine (State.setTarget_keeps _ _ _).then ?_ ?_
    | with_reducible refine (State.restartSines_keeps _ _).then ?_ ?_
    | with_reducible refine (State.storeFields_keeps _ _ _).then ?_ ?_ | with_reducible refine Keeps.ite ?_ ?_
    | extract_lets | split | dsimp +zetaDelta only

theorem State.hkacWrite_keeps (s : State) (a : Nat) (off : Nat) (v : Nat) (hits : List RegHit) : Keeps [.regs, .hk]
    s (State.hkacWrite s a off v hits) := by
  unfold State.hkacWrite
  repeat' first
    | exact rfl | with_reducible exact Keeps.refl _ _ | with_reducible assumption
    | with_reducible refine (State.setHkaRun_keeps _ _ _).then ?_ ?_
    | with_reducible refine (State.storeFields_keeps _ _ _).then ?_ ?_ | with_reducible refine Keeps.ite ?_ ?_
    | extract_lets | split | dsimp +zetaDelta only

theorem State.hkaWrite_keeps (s : State) (off : Nat) (idx : Nat) (v : Nat) (hits : List RegHit) : Keeps [.regs, .hk]
    s (State.hkaWrite s off idx v hits) := by
  unfold State.hkaWrite
  repeat' first
    | exact rfl | with_reducible exact Keeps.refl _ _ | with_reducible assumption
    | with_reducible refine (State.storeFields_keeps _ _ _).then ?_ ?_
    | with_reducible refine (State.urgRequest_keeps _ _).then ?_ ?_
    | with_reducible refine (rdIdxWriteEffect_keeps _ _).then ?_ ?_ | with_reducible refine Keeps.ite ?_ ?_
    | with_reducible refine Keeps.onlyIf ?_ (fun _ _ => ?_) | extract_lets | split | dsimp +zetaDelta only

theorem State.filtWrite_keeps (s : State) (off : Nat) (idx : Nat) (v : Nat) (hits : List RegHit) : Keeps [.regs,
    .hk] s (State.filtWrite s off idx v hits) := by
  unfold State.filtWrite
  repeat' first
    | exact rfl | with_reducible exact Keeps.refl _ _ | with_reducible assumption
    | with_reducible refine (State.setFiltRun_keeps _ _).then ?_ ?_
    | with_reducible refine (latchEffect_keeps _).then ?_ ?_
    | with_reducible refine (State.filtCfg_keeps _ _ _).then ?_ ?_
    | with_reducible refine (State.storeFields_keeps _ _ _).then ?_ ?_ | with_reducible refine Keeps.ite ?_ ?_
    | with_reducible refine Keeps.onlyIf ?_ (fun _ _ => ?_) | extract_lets | split | dsimp +zetaDelta only

theorem State.oeWrite_keeps (s : State) (off : Nat) (v : Nat) (hits : List RegHit) : Keeps [.regs, .hk] s
    (State.oeWrite s off v hits) := by
  unfold State.oeWrite
  repeat' first
    | exact rfl | with_reducible exact Keeps.refl _ _ | with_reducible assumption
    | with_reducible refine (State.setOeRail_keeps _ _ _ _).then ?_ ?_
    | with_reducible refine (State.xferWrite_keeps _ _).then ?_ ?_
    | with_reducible refine (readEffect_keeps _).then ?_ ?_
    | with_reducible refine (State.storeFields_keeps _ _ _).then ?_ ?_ | with_reducible refine Keeps.ite ?_ ?_
    | with_reducible refine Keeps.onlyIf ?_ (fun _ _ => ?_) | extract_lets | split | dsimp +zetaDelta only

theorem State.resetDie_keeps (s : State) (d : Nat) : Keeps [.freeCtr, .regs, .mgmt, .counts, .queues, .lanes,
    .pools, .ports, .hosts, .dies, .loader, .bcn, .syn, .mem, .ctx, .therm, .test, .cal] s (State.resetDie s d) :=
    by
  unfold State.resetDie
  repeat' first
    | exact rfl | with_reducible exact Keeps.refl _ _ | with_reducible assumption
    | with_reducible refine (State.put_keeps _ _ _).then ?_ ?_
    | with_reducible refine (State.dieReset_keeps _ _).then ?_ ?_ | with_reducible refine Keeps.ite ?_ ?_
    | extract_lets | split | dsimp +zetaDelta only

theorem d1ResetEffect_keeps (d1 : Bool) (d2 : Bool) (s : State) : Keeps [.freeCtr, .regs, .mgmt, .counts, .queues,
    .lanes, .pools, .ports, .hosts, .dies, .loader, .bcn, .syn, .mem, .ctx, .therm, .test, .cal] s (d1ResetEffect d1
    d2 s) := by
  unfold d1ResetEffect
  repeat' first
    | exact rfl | with_reducible exact Keeps.refl _ _ | with_reducible assumption
    | with_reducible refine (State.resetDie_keeps _ _).then ?_ ?_ | with_reducible refine Keeps.ite ?_ ?_
    | with_reducible refine Keeps.onlyIf ?_ (fun _ _ => ?_) | extract_lets | split | dsimp +zetaDelta only

theorem pkgResetEffect_keeps (key : Byte) (s : State) : Keeps [.regs, .mgmt, .intc, .counts, .queues, .lanes,
    .pools, .ports, .hosts, .dies, .loader, .power, .time, .sched, .trig, .bcn, .syn, .mem, .ctx, .therm, .test,
    .cal, .hk] s (pkgResetEffect key s) := by
  unfold pkgResetEffect
  repeat' first
    | exact rfl | with_reducible exact Keeps.refl _ _ | with_reducible assumption
    | with_reducible refine (State.resetAsserted_keeps _).then ?_ ?_
    | with_reducible refine (State.put_keeps _ _ _).then ?_ ?_ | with_reducible refine Keeps.ite ?_ ?_ | extract_lets
    | split | dsimp +zetaDelta only

theorem State.globalWrite_keeps (s : State) (off : Nat) (v : Nat) (hits : List RegHit) : Keeps [.freeCtr, .regs,
    .mgmt, .intc, .counts, .queues, .lanes, .pools, .ports, .hosts, .dies, .loader, .power, .time, .sched, .trig,
    .bcn, .syn, .mem, .ctx, .therm, .test, .cal, .hk] s (State.globalWrite s off v hits) := by
  unfold State.globalWrite
  repeat' first
    | exact rfl | with_reducible exact Keeps.refl _ _ | with_reducible assumption
    | with_reducible refine (d1ResetEffect_keeps _ _ _).then ?_ ?_
    | with_reducible refine (pkgResetEffect_keeps _ _).then ?_ ?_
    | with_reducible refine (cmdPushEffect_keeps _).then ?_ ?_
    | with_reducible refine (cplPopEffect_keeps _).then ?_ ?_
    | with_reducible refine (State.storeFields_keeps _ _ _).then ?_ ?_ | with_reducible refine Keeps.ite ?_ ?_
    | with_reducible refine Keeps.onlyIf ?_ (fun _ _ => ?_) | extract_lets | split | dsimp +zetaDelta only

theorem State.intcWrite_keeps (s : State) (off : Nat) (idx : Nat) (v : Nat) (hits : List RegHit) : Keeps [.regs,
    .intc, .counts] s (State.intcWrite s off idx v hits) := by
  unfold State.intcWrite
  repeat' first
    | exact rfl | with_reducible exact Keeps.refl _ _ | with_reducible assumption
    | with_reducible refine (State.completeClaim_keeps _ _).then ?_ ?_
    | with_reducible refine (State.setSw_keeps _ _).then ?_ ?_
    | with_reducible refine (State.storeFields_keeps _ _ _).then ?_ ?_
    | with_reducible refine (State.put_keeps _ _ _).then ?_ ?_ | with_reducible refine Keeps.ite ?_ ?_
    | with_reducible refine Keeps.onlyIf ?_ (fun _ _ => ?_) | extract_lets | split | dsimp +zetaDelta only

theorem State.perfWrite_keeps (s : State) (d : Nat) (off : Nat) (idx : Nat) (v : Nat) (hits : List RegHit) : Keeps
    [.regs, .counts] s (State.perfWrite s d off idx v hits) := by
  unfold State.perfWrite
  repeat' first
    | exact rfl | with_reducible exact Keeps.refl _ _ | with_reducible assumption
    | with_reducible refine (State.storeFields_keeps _ _ _).then ?_ ?_
    | with_reducible refine (State.setCount_keeps _ _ _ _).then ?_ ?_
    | with_reducible refine (State.clearBank_keeps _ _).then ?_ ?_ | with_reducible refine Keeps.ite ?_ ?_
    | with_reducible refine Keeps.onlyIf ?_ (fun _ _ => ?_) | extract_lets | split | dsimp +zetaDelta only

theorem State.regWrite_keeps (s : State) (a : Nat) (v : Nat) (o : Origin) (hits : List RegHit) : Keeps [.freeCtr,
    .regs, .mgmt, .intc, .counts, .queues, .lanes, .pools, .ports, .hosts, .dies, .loader, .power, .time, .sched,
    .trig, .bcn, .syn, .mem, .ctx, .therm, .test, .cal, .hk] s (State.regWrite s a v o hits) := by
  unfold State.regWrite
  repeat' first
    | exact rfl | with_reducible exact Keeps.refl _ _ | with_reducible assumption
    | with_reducible refine (State.lineWrite_keeps _ _ _ _ _ _).then ?_ ?_
    | with_reducible refine (State.tileWrite_keeps _ _ _ _ _).then ?_ ?_
    | with_reducible refine (State.hostWrite_keeps _ _ _ _ _).then ?_ ?_
    | with_reducible refine (State.portWrite_keeps _ _ _ _ _).then ?_ ?_
    | with_reducible refine (State.ctxWrite_keeps _ _ _ _ _).then ?_ ?_
    | with_reducible refine (State.bcnWrite_keeps _ _ _ _ _).then ?_ ?_
    | with_reducible refine (State.timeWrite_keeps _ _ _ _ _).then ?_ ?_
    | with_reducible refine (State.hkdWrite_keeps _ _ _ _ _ _).then ?_ ?_
    | with_reducible refine (State.hkacWrite_keeps _ _ _ _ _).then ?_ ?_
    | with_reducible refine (State.hkaWrite_keeps _ _ _ _ _).then ?_ ?_
    | with_reducible refine (State.filtWrite_keeps _ _ _ _ _).then ?_ ?_
    | with_reducible refine (State.oeWrite_keeps _ _ _ _).then ?_ ?_
    | with_reducible refine (State.startRetrain_keeps _).then ?_ ?_
    | with_reducible refine (State.storeFields_keeps _ _ _).then ?_ ?_
    | with_reducible refine (State.setThresholds_keeps _ _ _).then ?_ ?_
    | with_reducible refine (State.globalWrite_keeps _ _ _ _).then ?_ ?_
    | with_reducible refine (State.intcWrite_keeps _ _ _ _ _).then ?_ ?_
    | with_reducible refine (State.perfWrite_keeps _ _ _ _ _ _).then ?_ ?_
    | with_reducible refine (State.reloadCal_keeps _).then ?_ ?_ | with_reducible refine Keeps.ite ?_ ?_
    | with_reducible refine Keeps.onlyIf ?_ (fun _ _ => ?_) | extract_lets | split | dsimp +zetaDelta only

theorem State.monitorWrite_keeps (s : State) (q : QueueId) (w : Nat) (v : Nat) (wo : Bool) : Keeps [.queues] s
    (State.monitorWrite s q w v wo) := by
  unfold State.monitorWrite
  repeat' first
    | exact rfl | with_reducible exact Keeps.refl _ _ | with_reducible assumption
    | with_reducible refine (State.setQueue_keeps _ _ _).then ?_ ?_
    | with_reducible refine (hwmClrEffect_keeps _ _ _).then ?_ ?_ | with_reducible refine Keeps.ite ?_ ?_
    | with_reducible refine Keeps.onlyIf ?_ (fun _ _ => ?_) | extract_lets | split | dsimp +zetaDelta only

theorem State.memWrite_keeps (s : State) (a : Nat) (v : Nat) (o : Origin) : Keeps [.regs, .counts, .mem] s
    (State.memWrite s a v o) := by
  unfold State.memWrite
  repeat' first
    | exact rfl | with_reducible exact Keeps.refl _ _ | with_reducible assumption
    | with_reducible refine (State.unmapped_keeps _ _ _ _).then ?_ ?_
    | with_reducible refine (State.lockedWrite_keeps _ _ _).then ?_ ?_
    | with_reducible refine (State.windowWrite_keeps _ _ _).then ?_ ?_ | exact Or.inr (by decide)
    | with_reducible exact Or.inl rfl | with_reducible exact id | with_reducible refine Keeps.ite ?_ ?_ | extract_lets
    | split | with_reducible apply Keeps.upd | dsimp +zetaDelta only
    | with_reducible exact fun h => SMap.wf_set _ _ _ _ h | with_reducible exact fun h => SMap.rising_set _ _ _ _ h
    | with_reducible exact fun h => SMap.rising_drop _ _ h | with_reducible exact fun h => SMap.wf_setRun _ _ _ _ h
    | with_reducible exact fun h => SMap.wf_setRun _ _ _ _ (SMap.wf_setRun _ _ _ _ h)
    | with_reducible exact fun h => SMap.wf_fillRun _ _ _ _ _ h | with_reducible exact fun h => SMap.wf_drop _ _ _ h
    | with_reducible exact fun _ => SMap.wf_nil _ | with_reducible exact fun h => by simpa using h | exact id

theorem State.targetWrite_keeps (s : State) (a : Nat) (v : Nat) (o : Origin) : Keeps [.freeCtr, .regs, .mgmt, .intc,
    .counts, .queues, .lanes, .pools, .ports, .hosts, .dies, .loader, .power, .time, .sched, .trig, .bcn, .syn,
    .mem, .ctx, .therm, .test, .cal, .hk] s (State.targetWrite s a v o) := by
  unfold State.targetWrite
  repeat' first
    | exact rfl | with_reducible exact Keeps.refl _ _ | with_reducible assumption
    | with_reducible refine (State.regWrite_keeps _ _ _ _ _).then ?_ ?_
    | with_reducible refine (State.monitorWrite_keeps _ _ _ _ _).then ?_ ?_
    | with_reducible refine (State.lockedWrite_keeps _ _ _).then ?_ ?_
    | with_reducible refine (State.memWrite_keeps _ _ _ _).then ?_ ?_
    | with_reducible refine (State.unmapped_keeps _ _ _ _).then ?_ ?_ | exact Or.inr (by decide)
    | with_reducible exact Or.inl rfl | with_reducible exact id | with_reducible refine Keeps.ite ?_ ?_ | extract_lets
    | split | with_reducible apply Keeps.upd | dsimp +zetaDelta only
    | with_reducible exact fun h => SMap.wf_set _ _ _ _ h | with_reducible exact fun h => SMap.rising_set _ _ _ _ h
    | with_reducible exact fun h => SMap.rising_drop _ _ h | with_reducible exact fun h => SMap.wf_setRun _ _ _ _ h
    | with_reducible exact fun h => SMap.wf_setRun _ _ _ _ (SMap.wf_setRun _ _ _ _ h)
    | with_reducible exact fun h => SMap.wf_fillRun _ _ _ _ _ h | with_reducible exact fun h => SMap.wf_drop _ _ _ h
    | with_reducible exact fun _ => SMap.wf_nil _ | with_reducible exact fun h => by simpa using h | exact id

theorem State.busWrite_keeps (s : State) (a : Nat) (v : Nat) (o : Origin) : Keeps [.freeCtr, .regs, .mgmt, .intc,
    .counts, .queues, .lanes, .pools, .ports, .hosts, .dies, .loader, .power, .time, .sched, .trig, .bcn, .syn,
    .mem, .ctx, .therm, .test, .cal, .hk] s (State.busWrite s a v o) := by
  unfold State.busWrite
  repeat' first
    | exact rfl | with_reducible exact Keeps.refl _ _ | with_reducible assumption
    | with_reducible refine (State.releaseIrq_keeps _).then ?_ ?_
    | with_reducible refine (State.targetWrite_keeps _ _ _ _).then ?_ ?_ | with_reducible refine Keeps.ite ?_ ?_
    | extract_lets | split | dsimp +zetaDelta only

theorem registerWriteEffect_keeps (o : Origin) (a : Word) (v : Word) (s : State) : Keeps [.freeCtr, .regs, .mgmt,
    .intc, .counts, .queues, .lanes, .pools, .ports, .hosts, .dies, .loader, .power, .time, .sched, .trig, .bcn,
    .syn, .mem, .ctx, .therm, .test, .cal, .hk] s (registerWriteEffect o a v s) := by
  unfold registerWriteEffect
  repeat' first
    | exact rfl | with_reducible exact Keeps.refl _ _ | with_reducible assumption
    | with_reducible refine (State.busWrite_keeps _ _ _ _).then ?_ ?_ | with_reducible refine Keeps.ite ?_ ?_
    | extract_lets | split | dsimp +zetaDelta only

theorem unmappedAccessEffect_keeps (o : Origin) (a : Word) (write : Bool) (s : State) : Keeps [.regs] s
    (unmappedAccessEffect o a write s) := by
  unfold unmappedAccessEffect
  repeat' first
    | exact rfl | with_reducible exact Keeps.refl _ _ | with_reducible assumption
    | with_reducible refine (State.unmapped_keeps _ _ _ _).then ?_ ?_ | with_reducible refine Keeps.ite ?_ ?_
    | extract_lets | split | dsimp +zetaDelta only

end Sys2Proof.Machine
end

