-- ==== Sys2Proof/Laws/KeepsAccess.lean ====
section
/-!
SUPPORT. What each operation of Machine/Access.lean leaves unchanged, and that it keeps the canonical form.
-/

namespace Sys2Proof.Machine

open Sys2Proof

theorem State.countWords_keeps (s : State) (inst : Nat) (k : Nat) : Keeps [.regs, .counts] s (State.countWords s
    inst k) := by
  unfold State.countWords
  repeat' first
    | exact rfl | with_reducible exact Keeps.refl _ _ | with_reducible assumption
    | with_reducible refine (State.countD0_keeps _ _ _ _).then ?_ ?_ | with_reducible refine Keeps.ite ?_ ?_
    | with_reducible refine Keeps.onlyIf ?_ (fun _ _ => ?_) | extract_lets | split | dsimp +zetaDelta only

theorem State.portOut_keeps (s : State) (ack : Bool) (words : List Nat) (bytes : Nat) : Keeps [.mgmt] s
    (State.portOut s ack words bytes) := by
  unfold State.portOut
  repeat' first
    | exact rfl | with_reducible exact Keeps.refl _ _ | with_reducible assumption | exact Or.inr (by decide)
    | with_reducible exact Or.inl rfl | with_reducible exact id | with_reducible refine Keeps.ite ?_ ?_ | extract_lets
    | split | with_reducible apply Keeps.upd | dsimp +zetaDelta only
    | with_reducible exact fun h => SMap.wf_set _ _ _ _ h | with_reducible exact fun h => SMap.rising_set _ _ _ _ h
    | with_reducible exact fun h => SMap.rising_drop _ _ h | with_reducible exact fun h => SMap.wf_setRun _ _ _ _ h
    | with_reducible exact fun h => SMap.wf_setRun _ _ _ _ (SMap.wf_setRun _ _ _ _ h)
    | with_reducible exact fun h => SMap.wf_fillRun _ _ _ _ _ h | with_reducible exact fun h => SMap.wf_drop _ _ _ h
    | with_reducible exact fun _ => SMap.wf_nil _ | with_reducible exact fun h => by simpa using h | exact id

theorem State.writeWords_keeps (s : State) (a : Nat) (vs : List Nat) (o : Origin) : Keeps [.freeCtr, .regs, .mgmt,
    .intc, .counts, .queues, .lanes, .pools, .ports, .hosts, .dies, .loader, .power, .time, .sched, .trig, .bcn,
    .syn, .mem, .ctx, .therm, .test, .cal, .hk] s (State.writeWords s a vs o) := by
  induction vs generalizing s a with
  | nil => exact Keeps.refl _ _
  | cons v r ih => exact (ih _ _).then rfl ((State.busWrite_keeps _ _ _ _).weaken rfl)

theorem State.readWords_keeps (s : State) (a : Nat) (n : Nat) (o : Origin) : Keeps [.freeCtr, .regs, .intc, .counts,
    .mem] s (State.readWords s a n o).2 := by
  induction n generalizing s a with
  | zero => exact Keeps.refl _ _
  | succ k ih => exact (ih _ _).then rfl (State.busRead_keeps _ _ _)

theorem mgmtWriteEffect_keeps (dev : BitVec 7) (addr : List Byte) (data : List Byte) (s : State) : Keeps [.freeCtr,
    .regs, .mgmt, .intc, .counts, .queues, .lanes, .pools, .ports, .hosts, .dies, .loader, .power, .time, .sched,
    .trig, .bcn, .syn, .mem, .ctx, .therm, .test, .cal, .hk] s (mgmtWriteEffect dev addr data s) := by
  unfold mgmtWriteEffect
  repeat' first
    | exact rfl | with_reducible exact Keeps.refl _ _ | with_reducible assumption
    | with_reducible refine (State.portOut_keeps _ _ _ _).then ?_ ?_
    | with_reducible refine (State.writeWords_keeps _ _ _ _).then ?_ ?_
    | with_reducible refine (State.countWords_keeps _ _ _).then ?_ ?_ | exact Or.inr (by decide)
    | with_reducible exact Or.inl rfl | with_reducible exact id | with_reducible refine Keeps.ite ?_ ?_ | extract_lets
    | split | with_reducible apply Keeps.upd | dsimp +zetaDelta only
    | with_reducible exact fun h => SMap.wf_set _ _ _ _ h | with_reducible exact fun h => SMap.rising_set _ _ _ _ h
    | with_reducible exact fun h => SMap.rising_drop _ _ h | with_reducible exact fun h => SMap.wf_setRun _ _ _ _ h
    | with_reducible exact fun h => SMap.wf_setRun _ _ _ _ (SMap.wf_setRun _ _ _ _ h)
    | with_reducible exact fun h => SMap.wf_fillRun _ _ _ _ _ h | with_reducible exact fun h => SMap.wf_drop _ _ _ h
    | with_reducible exact fun _ => SMap.wf_nil _ | with_reducible exact fun h => by simpa using h | exact id

theorem mgmtReadEffect_keeps (dev : BitVec 7) (nbytes : Nat) (readyWords : Nat) (s : State) : Keeps [.freeCtr,
    .regs, .mgmt, .intc, .counts, .mem] s (mgmtReadEffect dev nbytes readyWords s) := by
  unfold mgmtReadEffect
  repeat' first
    | exact rfl | with_reducible exact Keeps.refl _ _ | with_reducible assumption
    | with_reducible refine (State.portOut_keeps _ _ _ _).then ?_ ?_
    | with_reducible refine (State.readWords_keeps _ _ _ _).then ?_ ?_
    | with_reducible refine (State.countWords_keeps _ _ _).then ?_ ?_ | exact Or.inr (by decide)
    | with_reducible exact Or.inl rfl | with_reducible exact id | with_reducible refine Keeps.ite ?_ ?_ | extract_lets
    | split | with_reducible apply Keeps.upd | dsimp +zetaDelta only
    | with_reducible exact fun h => SMap.wf_set _ _ _ _ h | with_reducible exact fun h => SMap.rising_set _ _ _ _ h
    | with_reducible exact fun h => SMap.rising_drop _ _ h | with_reducible exact fun h => SMap.wf_setRun _ _ _ _ h
    | with_reducible exact fun h => SMap.wf_setRun _ _ _ _ (SMap.wf_setRun _ _ _ _ h)
    | with_reducible exact fun h => SMap.wf_fillRun _ _ _ _ _ h | with_reducible exact fun h => SMap.wf_drop _ _ _ h
    | with_reducible exact fun _ => SMap.wf_nil _ | with_reducible exact fun h => by simpa using h | exact id

theorem State.setI3c_keeps (s : State) (on : Bool) (dyn : Nat) : Keeps [.regs] s (State.setI3c s on dyn) := by
  unfold State.setI3c
  repeat' first
    | exact rfl | with_reducible exact Keeps.refl _ _ | with_reducible assumption
    | with_reducible refine (State.put_keeps _ _ _).then ?_ ?_
    | with_reducible refine (State.putB_keeps _ _ _).then ?_ ?_ | with_reducible refine Keeps.ite ?_ ?_ | extract_lets
    | split | dsimp +zetaDelta only

theorem State.answerIdent_keeps (s : State) (v : Nat) : Keeps [.mgmt] s (State.answerIdent s v) := by
  unfold State.answerIdent
  repeat' first
    | exact rfl | with_reducible exact Keeps.refl _ _ | with_reducible assumption | exact Or.inr (by decide)
    | with_reducible exact Or.inl rfl | with_reducible exact id | with_reducible refine Keeps.ite ?_ ?_ | extract_lets
    | split | with_reducible apply Keeps.upd | dsimp +zetaDelta only
    | with_reducible exact fun h => SMap.wf_set _ _ _ _ h | with_reducible exact fun h => SMap.rising_set _ _ _ _ h
    | with_reducible exact fun h => SMap.rising_drop _ _ h | with_reducible exact fun h => SMap.wf_setRun _ _ _ _ h
    | with_reducible exact fun h => SMap.wf_setRun _ _ _ _ (SMap.wf_setRun _ _ _ _ h)
    | with_reducible exact fun h => SMap.wf_fillRun _ _ _ _ _ h | with_reducible exact fun h => SMap.wf_drop _ _ _ h
    | with_reducible exact fun _ => SMap.wf_nil _ | with_reducible exact fun h => by simpa using h | exact id

theorem entdaaEffect_keeps (d : BitVec 7) (s : State) : Keeps [.regs] s (entdaaEffect d s) := by
  unfold entdaaEffect
  repeat' first
    | exact rfl | with_reducible exact Keeps.refl _ _ | with_reducible assumption
    | with_reducible refine (State.setI3c_keeps _ _ _).then ?_ ?_ | with_reducible refine Keeps.ite ?_ ?_
    | with_reducible refine Keeps.onlyIf ?_ (fun _ _ => ?_) | extract_lets | split | dsimp +zetaDelta only

theorem setdasaEffect_keeps (dev : BitVec 7) (d : BitVec 7) (s : State) : Keeps [.regs] s (setdasaEffect dev d s) :=
    by
  unfold setdasaEffect
  repeat' first
    | exact rfl | with_reducible exact Keeps.refl _ _ | with_reducible assumption
    | with_reducible refine (State.setI3c_keeps _ _ _).then ?_ ?_ | with_reducible refine Keeps.ite ?_ ?_
    | with_reducible refine Keeps.onlyIf ?_ (fun _ _ => ?_) | extract_lets | split | dsimp +zetaDelta only

theorem setnewdaEffect_keeps (d : BitVec 7) (s : State) : Keeps [.regs] s (setnewdaEffect d s) := by
  unfold setnewdaEffect
  repeat' first
    | exact rfl | with_reducible exact Keeps.refl _ _ | with_reducible assumption
    | with_reducible refine (State.setI3c_keeps _ _ _).then ?_ ?_ | with_reducible refine Keeps.ite ?_ ?_
    | with_reducible refine Keeps.onlyIf ?_ (fun _ _ => ?_) | extract_lets | split | dsimp +zetaDelta only

theorem rstdaaEffect_keeps (s : State) : Keeps [.regs] s (rstdaaEffect s) := by
  unfold rstdaaEffect
  repeat' first
    | exact rfl | with_reducible exact Keeps.refl _ _ | with_reducible assumption
    | with_reducible refine (State.setI3c_keeps _ _ _).then ?_ ?_ | with_reducible refine Keeps.ite ?_ ?_
    | with_reducible refine Keeps.onlyIf ?_ (fun _ _ => ?_) | extract_lets | split | dsimp +zetaDelta only

theorem getpidEffect_keeps (s : State) : Keeps [.mgmt] s (getpidEffect s) := by
  unfold getpidEffect
  repeat' first
    | exact rfl | with_reducible exact Keeps.refl _ _ | with_reducible assumption
    | with_reducible refine (State.answerIdent_keeps _ _).then ?_ ?_ | with_reducible refine Keeps.ite ?_ ?_
    | with_reducible refine Keeps.onlyIf ?_ (fun _ _ => ?_) | extract_lets | split | dsimp +zetaDelta only

theorem getbcrEffect_keeps (s : State) : Keeps [.mgmt] s (getbcrEffect s) := by
  unfold getbcrEffect
  repeat' first
    | exact rfl | with_reducible exact Keeps.refl _ _ | with_reducible assumption
    | with_reducible refine (State.answerIdent_keeps _ _).then ?_ ?_ | with_reducible refine Keeps.ite ?_ ?_
    | with_reducible refine Keeps.onlyIf ?_ (fun _ _ => ?_) | extract_lets | split | dsimp +zetaDelta only

theorem getdcrEffect_keeps (s : State) : Keeps [.mgmt] s (getdcrEffect s) := by
  unfold getdcrEffect
  repeat' first
    | exact rfl | with_reducible exact Keeps.refl _ _ | with_reducible assumption
    | with_reducible refine (State.answerIdent_keeps _ _).then ?_ ?_ | with_reducible refine Keeps.ite ?_ ?_
    | with_reducible refine Keeps.onlyIf ?_ (fun _ _ => ?_) | extract_lets | split | dsimp +zetaDelta only

theorem getstatusEffect_keeps (s : State) : Keeps [.freeCtr, .mgmt] s (getstatusEffect s) := by
  unfold getstatusEffect
  repeat' first
    | exact rfl | with_reducible exact Keeps.refl _ _ | with_reducible assumption
    | with_reducible refine (State.answerIdent_keeps _ _).then ?_ ?_
    | with_reducible refine (State.freed_keeps _).then ?_ ?_ | with_reducible refine Keeps.ite ?_ ?_
    | with_reducible refine Keeps.onlyIf ?_ (fun _ _ => ?_) | extract_lets | split | dsimp +zetaDelta only

theorem State.bulkOut_keeps (s : State) (ok : Bool) (words : List Nat) (bytes : Nat) : Keeps [.mgmt] s
    (State.bulkOut s ok words bytes) := by
  unfold State.bulkOut
  repeat' first
    | exact rfl | with_reducible exact Keeps.refl _ _ | with_reducible assumption | exact Or.inr (by decide)
    | with_reducible exact Or.inl rfl | with_reducible exact id | with_reducible refine Keeps.ite ?_ ?_ | extract_lets
    | split | with_reducible apply Keeps.upd | dsimp +zetaDelta only
    | with_reducible exact fun h => SMap.wf_set _ _ _ _ h | with_reducible exact fun h => SMap.rising_set _ _ _ _ h
    | with_reducible exact fun h => SMap.rising_drop _ _ h | with_reducible exact fun h => SMap.wf_setRun _ _ _ _ h
    | with_reducible exact fun h => SMap.wf_setRun _ _ _ _ (SMap.wf_setRun _ _ _ _ h)
    | with_reducible exact fun h => SMap.wf_fillRun _ _ _ _ _ h | with_reducible exact fun h => SMap.wf_drop _ _ _ h
    | with_reducible exact fun _ => SMap.wf_nil _ | with_reducible exact fun h => by simpa using h | exact id

theorem State.bulkWrite_keeps (s : State) (a : Nat) (data : List Byte) : Keeps [.freeCtr, .regs, .mgmt, .intc,
    .counts, .queues, .lanes, .pools, .ports, .hosts, .dies, .loader, .power, .time, .sched, .trig, .bcn, .syn,
    .mem, .ctx, .therm, .test, .cal, .hk] s (State.bulkWrite s a data) := by
  unfold State.bulkWrite
  repeat' first
    | exact rfl | with_reducible exact Keeps.refl _ _ | with_reducible assumption
    | with_reducible refine (State.writeWords_keeps _ _ _ _).then ?_ ?_
    | with_reducible refine (State.countWords_keeps _ _ _).then ?_ ?_ | exact Or.inr (by decide)
    | with_reducible exact Or.inl rfl | with_reducible exact id | with_reducible refine Keeps.ite ?_ ?_ | extract_lets
    | split | with_reducible apply Keeps.upd | dsimp +zetaDelta only
    | with_reducible exact fun h => SMap.wf_set _ _ _ _ h | with_reducible exact fun h => SMap.rising_set _ _ _ _ h
    | with_reducible exact fun h => SMap.rising_drop _ _ h | with_reducible exact fun h => SMap.wf_setRun _ _ _ _ h
    | with_reducible exact fun h => SMap.wf_setRun _ _ _ _ (SMap.wf_setRun _ _ _ _ h)
    | with_reducible exact fun h => SMap.wf_fillRun _ _ _ _ _ h | with_reducible exact fun h => SMap.wf_drop _ _ _ h
    | with_reducible exact fun _ => SMap.wf_nil _ | with_reducible exact fun h => by simpa using h | exact id

theorem State.bulkRead_keeps (s : State) (a : Nat) (words : Nat) (fetched : Nat) (nbytes : Nat) : Keeps [.freeCtr,
    .regs, .mgmt, .intc, .counts, .mem] s (State.bulkRead s a words fetched nbytes) := by
  unfold State.bulkRead
  repeat' first
    | exact rfl | with_reducible exact Keeps.refl _ _ | with_reducible assumption
    | with_reducible refine (State.bulkOut_keeps _ _ _ _).then ?_ ?_
    | with_reducible refine (State.readWords_keeps _ _ _ _).then ?_ ?_
    | with_reducible refine (State.countWords_keeps _ _ _).then ?_ ?_ | with_reducible refine Keeps.ite ?_ ?_
    | extract_lets | split | dsimp +zetaDelta only

theorem quadWriteEffect_keeps (a : Word) (data : List Byte) (s : State) : Keeps [.freeCtr, .regs, .mgmt, .intc,
    .counts, .queues, .lanes, .pools, .ports, .hosts, .dies, .loader, .power, .time, .sched, .trig, .bcn, .syn,
    .mem, .ctx, .therm, .test, .cal, .hk] s (quadWriteEffect a data s) := by
  unfold quadWriteEffect
  repeat' first
    | exact rfl | with_reducible exact Keeps.refl _ _ | with_reducible assumption
    | with_reducible refine (State.bulkWrite_keeps _ _ _).then ?_ ?_ | with_reducible refine Keeps.ite ?_ ?_
    | extract_lets | split | dsimp +zetaDelta only

theorem quadReadEffect_keeps (a : Word) (words : Byte) (fetched : Nat) (nbytes : Nat) (s : State) : Keeps [.freeCtr,
    .regs, .mgmt, .intc, .counts, .mem] s (quadReadEffect a words fetched nbytes s) := by
  unfold quadReadEffect
  repeat' first
    | exact rfl | with_reducible exact Keeps.refl _ _ | with_reducible assumption
    | with_reducible refine (State.bulkRead_keeps _ _ _ _ _).then ?_ ?_ | with_reducible refine Keeps.ite ?_ ?_
    | extract_lets | split | dsimp +zetaDelta only

theorem bulkStatusEffect_keeps (s : State) : Keeps [.mgmt] s (bulkStatusEffect s) := by
  unfold bulkStatusEffect
  repeat' first
    | exact rfl | with_reducible exact Keeps.refl _ _ | with_reducible assumption | exact Or.inr (by decide)
    | with_reducible exact Or.inl rfl | with_reducible exact id | with_reducible refine Keeps.ite ?_ ?_ | extract_lets
    | split | with_reducible apply Keeps.upd | dsimp +zetaDelta only
    | with_reducible exact fun h => SMap.wf_set _ _ _ _ h | with_reducible exact fun h => SMap.rising_set _ _ _ _ h
    | with_reducible exact fun h => SMap.rising_drop _ _ h | with_reducible exact fun h => SMap.wf_setRun _ _ _ _ h
    | with_reducible exact fun h => SMap.wf_setRun _ _ _ _ (SMap.wf_setRun _ _ _ _ h)
    | with_reducible exact fun h => SMap.wf_fillRun _ _ _ _ _ h | with_reducible exact fun h => SMap.wf_drop _ _ _ h
    | with_reducible exact fun _ => SMap.wf_nil _ | with_reducible exact fun h => by simpa using h | exact id

theorem singleWriteEffect_keeps (a : Word) (data : List Byte) (s : State) : Keeps [.freeCtr, .regs, .mgmt, .intc,
    .counts, .queues, .lanes, .pools, .ports, .hosts, .dies, .loader, .power, .time, .sched, .trig, .bcn, .syn,
    .mem, .ctx, .therm, .test, .cal, .hk] s (singleWriteEffect a data s) := by
  unfold singleWriteEffect
  repeat' first
    | exact rfl | with_reducible exact Keeps.refl _ _ | with_reducible assumption
    | with_reducible refine (State.bulkWrite_keeps _ _ _).then ?_ ?_ | with_reducible refine Keeps.ite ?_ ?_
    | extract_lets | split | dsimp +zetaDelta only

theorem singleReadEffect_keeps (a : Word) (words : Byte) (fetched : Nat) (nbytes : Nat) (s : State) : Keeps
    [.freeCtr, .regs, .mgmt, .intc, .counts, .mem] s (singleReadEffect a words fetched nbytes s) := by
  unfold singleReadEffect
  repeat' first
    | exact rfl | with_reducible exact Keeps.refl _ _ | with_reducible assumption
    | with_reducible refine (State.bulkRead_keeps _ _ _ _ _).then ?_ ?_ | with_reducible refine Keeps.ite ?_ ?_
    | extract_lets | split | dsimp +zetaDelta only

end Sys2Proof.Machine
end

