-- ==== Sys2Proof/Laws/KeepsSave.lean ====
section
/-!
SUPPORT. What each operation of Machine/Save.lean leaves unchanged, and that it keeps the canonical form.
-/

namespace Sys2Proof.Machine

open Sys2Proof

theorem State.savePut_keeps (s : State) (a : Nat) (bs : List Nat) : Keeps [.power] s (State.savePut s a bs) := by
  unfold State.savePut
  repeat' first
    | exact rfl | with_reducible exact Keeps.refl _ _ | with_reducible assumption | exact Or.inr (by decide)
    | with_reducible exact Or.inl rfl | with_reducible exact id | with_reducible refine Keeps.ite ?_ ?_ | extract_lets
    | split | with_reducible apply Keeps.upd | dsimp +zetaDelta only
    | with_reducible exact fun h => SMap.wf_set _ _ _ _ h | with_reducible exact fun h => SMap.rising_set _ _ _ _ h
    | with_reducible exact fun h => SMap.rising_drop _ _ h | with_reducible exact fun h => SMap.wf_setRun _ _ _ _ h
    | with_reducible exact fun h => SMap.wf_setRun _ _ _ _ (SMap.wf_setRun _ _ _ _ h)
    | with_reducible exact fun h => SMap.wf_fillRun _ _ _ _ _ h | with_reducible exact fun h => SMap.wf_drop _ _ _ h
    | with_reducible exact fun _ => SMap.wf_nil _ | with_reducible exact fun h => by simpa using h | exact id

theorem State.saveAll_keeps (s : State) : Keeps [.freeCtr, .regs, .intc, .counts, .power, .mem] s (State.saveAll s)
    := by
  unfold State.saveAll
  repeat' first
    | exact rfl | with_reducible exact Keeps.refl _ _ | with_reducible assumption
    | with_reducible refine (State.savePut_keeps _ _ _).then ?_ ?_
    | with_reducible refine (State.busRead_keeps _ _ _).then ?_ ?_ | exact Or.inr (by decide)
    | with_reducible exact Or.inl rfl | with_reducible exact id | with_reducible refine Keeps.ite ?_ ?_
    | with_reducible refine Keeps.each ?_ (fun _ _ _ => ?_) | extract_lets | split | with_reducible apply Keeps.upd
    | dsimp +zetaDelta only | with_reducible exact fun h => SMap.wf_set _ _ _ _ h
    | with_reducible exact fun h => SMap.rising_set _ _ _ _ h | with_reducible exact fun h => SMap.rising_drop _ _ h
    | with_reducible exact fun h => SMap.wf_setRun _ _ _ _ h
    | with_reducible exact fun h => SMap.wf_setRun _ _ _ _ (SMap.wf_setRun _ _ _ _ h)
    | with_reducible exact fun h => SMap.wf_fillRun _ _ _ _ _ h | with_reducible exact fun h => SMap.wf_drop _ _ _ h
    | with_reducible exact fun _ => SMap.wf_nil _ | with_reducible exact fun h => by simpa using h | exact id

theorem State.restoreFlds_keeps (s : State) (m : SMap MByte) (a : Nat) (fs : List Fld) : Keeps [.regs] s
    (State.restoreFlds s m a fs) := by
  induction fs generalizing s a with
  | nil => exact Keeps.refl _ _
  | cons f r ih =>
    unfold State.restoreFlds
    refine (ih _ _).then rfl ?_
    split
    · exact (State.raise_keeps _ _).weaken rfl
    · exact Keeps.onlyIf (Keeps.refl _ _) fun _ h => (State.put_keeps _ _ _).then rfl h

theorem State.settleRestored_keeps (s : State) : Keeps [.regs, .lanes, .bcn] s (State.settleRestored s) := by
  unfold State.settleRestored
  repeat' first
    | exact rfl | with_reducible exact Keeps.refl _ _ | with_reducible assumption
    | with_reducible refine (State.setBcn_keeps _ _ _).then ?_ ?_
    | with_reducible refine (State.onLane_keeps _ _ _).then ?_ ?_
    | with_reducible refine (State.setReason_keeps _ _ _ _).then ?_ ?_
    | with_reducible refine (State.putB_keeps _ _ _).then ?_ ?_
    | with_reducible refine (State.put_keeps _ _ _).then ?_ ?_ | with_reducible refine Keeps.ite ?_ ?_
    | with_reducible refine Keeps.each ?_ (fun _ _ _ => ?_) | with_reducible refine Keeps.onlyIf ?_ (fun _ _ => ?_)
    | extract_lets | split | dsimp +zetaDelta only

theorem State.resumeTime_keeps (s : State) (m : SMap MByte) : Keeps [.regs, .time] s (State.resumeTime s m) := by
  unfold State.resumeTime
  repeat' first
    | exact rfl | with_reducible exact Keeps.refl _ _ | with_reducible assumption
    | with_reducible refine (State.raise_keeps _ _).then ?_ ?_
    | with_reducible refine (State.setTime_keeps _ _).then ?_ ?_
    | with_reducible refine (State.timeRestarts_keeps _).then ?_ ?_
    | with_reducible refine (State.put_keeps _ _ _).then ?_ ?_ | with_reducible refine Keeps.ite ?_ ?_ | extract_lets
    | split | dsimp +zetaDelta only

theorem State.restoreAll_keeps (s : State) : Keeps [.freeCtr, .regs, .mgmt, .intc, .counts, .queues, .lanes, .pools,
    .ports, .hosts, .dies, .loader, .power, .time, .sched, .trig, .bcn, .syn, .mem, .ctx, .therm, .test, .cal, .hk]
    s (State.restoreAll s) := by
  unfold State.restoreAll
  repeat' first
    | exact rfl | with_reducible exact Keeps.refl _ _ | with_reducible assumption
    | with_reducible refine (State.resumeTime_keeps _ _).then ?_ ?_
    | with_reducible refine (State.settleRestored_keeps _).then ?_ ?_
    | with_reducible refine (State.restoreFlds_keeps _ _ _ _).then ?_ ?_
    | with_reducible refine (State.raise_keeps _ _).then ?_ ?_
    | with_reducible refine (State.busWrite_keeps _ _ _ _).then ?_ ?_ | with_reducible refine Keeps.ite ?_ ?_
    | with_reducible refine Keeps.each ?_ (fun _ _ _ => ?_) | extract_lets | split | dsimp +zetaDelta only

end Sys2Proof.Machine
end

