-- ==== Sys2Proof/Laws/KeepsLoader.lean ====
section
/-!
SUPPORT. What each operation of Machine/Loader.lean leaves unchanged, and that it keeps the canonical form.
-/

namespace Sys2Proof.Machine

open Sys2Proof

theorem State.showPath_keeps (s : State) (n : Nat) : Keeps [.regs] s (State.showPath s n) := by
  unfold State.showPath
  repeat' first
    | exact rfl | with_reducible exact Keeps.refl _ _ | with_reducible assumption
    | with_reducible refine (State.put_keeps _ _ _).then ?_ ?_
    | with_reducible refine (State.putB_keeps _ _ _).then ?_ ?_ | with_reducible refine Keeps.ite ?_ ?_ | extract_lets
    | split | dsimp +zetaDelta only

theorem State.lanePath_keeps (s : State) (n : Nat) : Keeps [.regs] s (State.lanePath s n) := by
  unfold State.lanePath
  repeat' first
    | exact rfl | with_reducible exact Keeps.refl _ _ | with_reducible assumption
    | with_reducible refine (State.putB_keeps _ _ _).then ?_ ?_ | with_reducible refine Keeps.ite ?_ ?_ | extract_lets
    | split | dsimp +zetaDelta only

theorem State.restartPort_keeps (s : State) (n : Nat) : Keeps [.freeCtr, .regs, .ports, .hosts] s (State.restartPort
    s n) := by
  unfold State.restartPort
  repeat' first
    | exact rfl | with_reducible exact Keeps.refl _ _ | with_reducible assumption
    | with_reducible refine (State.setPort_keeps _ _ _).then ?_ ?_
    | with_reducible refine (State.put_keeps _ _ _).then ?_ ?_
    | with_reducible refine (State.sendHosts_keeps _ _ _).then ?_ ?_
    | with_reducible refine (State.stampGap_keeps _ _ _).then ?_ ?_ | with_reducible refine Keeps.ite ?_ ?_
    | with_reducible refine Keeps.each ?_ (fun _ _ _ => ?_) | extract_lets | split | dsimp +zetaDelta only

theorem State.regEntry_keeps (s : State) (e : Nat × Nat × Nat) : Keeps [.freeCtr, .regs, .mgmt, .intc, .counts,
    .queues, .lanes, .pools, .ports, .hosts, .dies, .loader, .power, .time, .sched, .trig, .bcn, .syn, .mem, .ctx,
    .therm, .test, .cal, .hk] s (State.regEntry s e) := by
  unfold State.regEntry
  repeat' first
    | exact rfl | with_reducible exact Keeps.refl _ _ | with_reducible assumption
    | with_reducible refine (State.busWrite_keeps _ _ _ _).then ?_ ?_
    | with_reducible refine (State.busRead_keeps _ _ _).then ?_ ?_ | with_reducible refine Keeps.ite ?_ ?_
    | extract_lets | split | dsimp +zetaDelta only

theorem State.regEntries_keeps (s : State) (es : List (Nat × Nat × Nat)) : Keeps [.freeCtr, .regs, .mgmt, .intc,
    .counts, .queues, .lanes, .pools, .ports, .hosts, .dies, .loader, .power, .time, .sched, .trig, .bcn, .syn,
    .mem, .ctx, .therm, .test, .cal, .hk] s (State.regEntries s es) := by
  unfold State.regEntries
  repeat' first
    | exact rfl | with_reducible exact Keeps.refl _ _ | with_reducible assumption
    | with_reducible refine (State.regEntry_keeps _ _).then ?_ ?_ | with_reducible refine Keeps.ite ?_ ?_
    | with_reducible refine Keeps.each ?_ (fun _ _ _ => ?_) | extract_lets | split | dsimp +zetaDelta only

theorem State.startSyn_keeps (s : State) (r : Nat) : Keeps [.regs, .syn] s (State.startSyn s r) := by
  unfold State.startSyn
  repeat' first
    | exact rfl | with_reducible exact Keeps.refl _ _ | with_reducible assumption
    | with_reducible refine (State.showSettling_keeps _ _).then ?_ ?_
    | with_reducible refine (State.put_keeps _ _ _).then ?_ ?_
    | with_reducible refine (State.setSyn_keeps _ _ _).then ?_ ?_ | with_reducible refine Keeps.ite ?_ ?_
    | extract_lets | split | dsimp +zetaDelta only

theorem State.applyRegion_keeps (s : State) (r : Nat) : Keeps [.freeCtr, .regs, .mgmt, .queues, .lanes, .pools,
    .ports, .hosts, .dies, .bcn] s (State.applyRegion s r) := by
  unfold State.applyRegion
  repeat' first
    | exact rfl | with_reducible exact Keeps.refl _ _ | with_reducible assumption
    | with_reducible refine (State.configTiles_keeps _ _).then ?_ ?_
    | with_reducible refine (State.lanePath_keeps _ _).then ?_ ?_
    | with_reducible refine (State.onLane_keeps _ _ _).then ?_ ?_ | with_reducible refine Keeps.ite ?_ ?_
    | with_reducible refine Keeps.each ?_ (fun _ _ _ => ?_) | extract_lets | split | dsimp +zetaDelta only

theorem State.startRegion_keeps (s : State) (r : Nat) : Keeps [.freeCtr, .regs, .lanes, .pools, .ports, .hosts,
    .dies] s (State.startRegion s r) := by
  unfold State.startRegion
  repeat' first
    | exact rfl | with_reducible exact Keeps.refl _ _ | with_reducible assumption
    | with_reducible refine (State.enableLane_keeps _ _).then ?_ ?_
    | with_reducible refine (State.setReason_keeps _ _ _ _).then ?_ ?_ | with_reducible refine Keeps.ite ?_ ?_
    | with_reducible refine Keeps.each ?_ (fun _ _ _ => ?_) | with_reducible refine Keeps.onlyIf ?_ (fun _ _ => ?_)
    | extract_lets | split | dsimp +zetaDelta only

theorem State.reapply_keeps {ps : List Part} {s0 : State} (s : State) (rs : List Nat) (p : Nat → Bool)
    (lock : State → State) (hs : subParts
      [.freeCtr, .regs, .mgmt, .intc, .counts, .queues, .lanes, .pools, .ports, .hosts, .dies, .loader, .power, .time, .sched,
       .trig, .bcn, .syn, .mem, .ctx, .therm, .test, .cal, .hk] ps = true)
    (h : Keeps ps s0 s) (hf : ∀ x, Keeps ps s0 x → Keeps ps s0 (lock x)) : Keeps ps s0 (s.reapply rs p lock) := by
  unfold State.reapply
  have hA : ∀ (xs : List Nat) (g : State → Nat → State) (qs : List Part), (∀ x r, Keeps qs x (g x r)) →
      subParts qs ps = true → ∀ t, Keeps ps s0 t → Keeps ps s0 (t.each xs g) := fun xs g qs hg hq t ht =>
    Keeps.each ht fun x a hx => (hg x a).then hq hx
  have h1 := hA rs _ _ State.startSyn_keeps (subParts.trans rfl hs) s h
  refine Keeps.ite ?_ h1
  refine hA rs _ _ State.startRegion_keeps (subParts.trans rfl hs) _ (hf _ ?_)
  exact (State.regEntries_keeps _ _).then (subParts.trans rfl hs)
    (hA rs _ _ State.applyRegion_keeps (subParts.trans rfl hs) _ h1)

theorem State.reapplyDie_keeps (s : State) (d : Nat) : Keeps [.freeCtr, .regs, .mgmt, .intc, .counts, .queues,
    .lanes, .pools, .ports, .hosts, .dies, .loader, .power, .time, .sched, .trig, .bcn, .syn, .mem, .ctx, .therm,
    .test, .cal, .hk] s (State.reapplyDie s d) := by
  unfold State.reapplyDie
  repeat' first
    | exact rfl | with_reducible exact Keeps.refl _ _ | with_reducible assumption
    | with_reducible refine (State.setDie_keeps _ _ _).then ?_ ?_
    | with_reducible refine (State.setReason_keeps _ _ _ _).then ?_ ?_
    | with_reducible refine State.reapply_keeps _ _ _ _ ?_ ?_ (fun _ _ => ?_)
    | with_reducible refine (State.put_keeps _ _ _).then ?_ ?_ | exact Or.inr (by decide)
    | with_reducible exact Or.inl rfl | with_reducible exact id | with_reducible refine Keeps.ite ?_ ?_
    | with_reducible refine Keeps.each ?_ (fun _ _ _ => ?_) | simp only [id] | extract_lets | split
    | with_reducible apply Keeps.upd | dsimp +zetaDelta only | with_reducible exact fun h => SMap.wf_set _ _ _ _ h
    | with_reducible exact fun h => SMap.rising_set _ _ _ _ h | with_reducible exact fun h => SMap.rising_drop _ _ h
    | with_reducible exact fun h => SMap.wf_setRun _ _ _ _ h
    | with_reducible exact fun h => SMap.wf_setRun _ _ _ _ (SMap.wf_setRun _ _ _ _ h)
    | with_reducible exact fun h => SMap.wf_fillRun _ _ _ _ _ h | with_reducible exact fun h => SMap.wf_drop _ _ _ h
    | with_reducible exact fun _ => SMap.wf_nil _ | with_reducible exact fun h => by simpa using h | exact id

theorem State.setLoader_keeps (s : State) (v : LoaderSt)
    (h0 : SMap.wf s.loader.staging .unwritten = true → SMap.wf v.staging .unwritten = true)
    (h1 : SMap.wf s.loader.codeRam .unwritten = true → SMap.wf v.codeRam .unwritten = true) :
    Keeps [.loader] s (State.setLoader s v) := by
  unfold State.setLoader
  repeat' first
    | exact Or.inr (by decide)
    | with_reducible exact Or.inl rfl
    | with_reducible exact id
    | with_reducible exact Keeps.refl _ _
    | assumption
    | with_reducible apply Keeps.upd

theorem State.runWith_keeps (s : State) (code : Nat) : Keeps [.loader] s (State.runWith s code) := by
  unfold State.runWith
  repeat' first
    | exact rfl | with_reducible exact Keeps.refl _ _ | with_reducible assumption
    | with_reducible refine (State.setLoader_keeps _ _ ?_ ?_).then ?_ ?_ | with_reducible exact id
    | with_reducible exact fun h => SMap.wf_set _ _ _ _ h | with_reducible exact fun h => SMap.wf_setRun _ _ _ _ h
    | with_reducible exact fun h => SMap.wf_setRun _ _ _ _ (SMap.wf_setRun _ _ _ _ h)
    | with_reducible exact fun h => SMap.wf_fillRun _ _ _ _ _ h | with_reducible exact fun _ => SMap.wf_nil _
    | exact fun _ => SMap.wf_nil 0 | with_reducible refine Keeps.ite ?_ ?_ | extract_lets | split
    | dsimp +zetaDelta only

theorem State.showBusy_keeps (s : State) : Keeps [.regs] s (State.showBusy s) := by
  unfold State.showBusy
  repeat' first
    | exact rfl | with_reducible exact Keeps.refl _ _ | with_reducible assumption
    | with_reducible refine (State.putB_keeps _ _ _).then ?_ ?_ | with_reducible refine Keeps.ite ?_ ?_ | extract_lets
    | split | dsimp +zetaDelta only

theorem State.loaderDone_keeps (s : State) (w : List Nat) (code : Nat) : Keeps [.regs, .mgmt, .loader] s
    (State.loaderDone s w code) := by
  unfold State.loaderDone
  repeat' first
    | exact rfl | with_reducible exact Keeps.refl _ _ | with_reducible assumption
    | with_reducible refine (State.put_keeps _ _ _).then ?_ ?_
    | with_reducible refine (State.setLoader_keeps _ _ ?_ ?_).then ?_ ?_
    | with_reducible refine (State.showBusy_keeps _).then ?_ ?_
    | with_reducible refine (State.complete_keeps _ _ _ _ _ _ _).then ?_ ?_ | with_reducible exact id
    | with_reducible exact fun h => SMap.wf_set _ _ _ _ h | with_reducible exact fun h => SMap.wf_setRun _ _ _ _ h
    | with_reducible exact fun h => SMap.wf_setRun _ _ _ _ (SMap.wf_setRun _ _ _ _ h)
    | with_reducible exact fun h => SMap.wf_fillRun _ _ _ _ _ h | with_reducible exact fun _ => SMap.wf_nil _
    | exact fun _ => SMap.wf_nil 0 | with_reducible refine Keeps.ite ?_ ?_ | extract_lets | split
    | dsimp +zetaDelta only

theorem loadImageCompleteEffect_keeps (s : State) : Keeps [.regs, .mgmt, .loader] s (loadImageCompleteEffect s) :=
    by
  unfold loadImageCompleteEffect
  repeat' first
    | exact rfl | with_reducible exact Keeps.refl _ _ | with_reducible assumption
    | with_reducible refine (State.loaderDone_keeps _ _ _).then ?_ ?_ | with_reducible refine Keeps.ite ?_ ?_
    | extract_lets | split | dsimp +zetaDelta only

theorem State.stagingBad_keeps (s : State) (n : Nat) : ∀ t, State.stagingBad s n = some t → Keeps [.regs] s t := by
  intro t h
  unfold State.stagingBad at h
  split at h
  · cases h
    exact (State.poisonUse_keeps _ _ _).then rfl ((State.parity_keeps _ _).weaken rfl)
  · cases h

theorem State.mramStore_keeps (s : State) (a : Nat) (bs : List Nat) (ok : Bool) : Keeps [.freeCtr, .mram] s
    (State.mramStore s a bs ok) := by
  unfold State.mramStore
  repeat' first
    | exact rfl | with_reducible exact Keeps.refl _ _ | with_reducible assumption
    | with_reducible refine (State.mramWrite_keeps _ _ _).then ?_ ?_ | exact Or.inr (by decide)
    | with_reducible exact Or.inl rfl | with_reducible exact id | with_reducible refine Keeps.ite ?_ ?_ | extract_lets
    | split | with_reducible apply Keeps.upd | dsimp +zetaDelta only
    | with_reducible exact fun h => SMap.wf_set _ _ _ _ h | with_reducible exact fun h => SMap.rising_set _ _ _ _ h
    | with_reducible exact fun h => SMap.rising_drop _ _ h | with_reducible exact fun h => SMap.wf_setRun _ _ _ _ h
    | with_reducible exact fun h => SMap.wf_setRun _ _ _ _ (SMap.wf_setRun _ _ _ _ h)
    | with_reducible exact fun h => SMap.wf_fillRun _ _ _ _ _ h | with_reducible exact fun h => SMap.wf_drop _ _ _ h
    | with_reducible exact fun _ => SMap.wf_nil _ | with_reducible exact fun h => by simpa using h | exact id

theorem slotBeginEffect_keeps (mramOk : Bool) (s : State) : Keeps [.freeCtr, .loader, .mram] s (slotBeginEffect
    mramOk s) := by
  unfold slotBeginEffect
  repeat' first
    | exact rfl | with_reducible exact Keeps.refl _ _ | with_reducible assumption
    | with_reducible refine (State.runWith_keeps _ _).then ?_ ?_
    | with_reducible refine (State.mramStore_keeps _ _ _ _).then ?_ ?_
    | with_reducible refine (State.setLoader_keeps _ _ ?_ ?_).then ?_ ?_ | with_reducible exact id
    | with_reducible exact fun h => SMap.wf_set _ _ _ _ h | with_reducible exact fun h => SMap.wf_setRun _ _ _ _ h
    | with_reducible exact fun h => SMap.wf_setRun _ _ _ _ (SMap.wf_setRun _ _ _ _ h)
    | with_reducible exact fun h => SMap.wf_fillRun _ _ _ _ _ h | with_reducible exact fun _ => SMap.wf_nil _
    | exact fun _ => SMap.wf_nil 0 | with_reducible refine Keeps.ite ?_ ?_ | extract_lets | split
    | dsimp +zetaDelta only

theorem State.endWrite_keeps (s : State) : Keeps [.loader] s (State.endWrite s) := by
  unfold State.endWrite
  repeat' first
    | exact rfl | with_reducible exact Keeps.refl _ _ | with_reducible assumption
    | with_reducible refine (State.setLoader_keeps _ _ ?_ ?_).then ?_ ?_ | with_reducible exact id
    | with_reducible exact fun h => SMap.wf_set _ _ _ _ h | with_reducible exact fun h => SMap.wf_setRun _ _ _ _ h
    | with_reducible exact fun h => SMap.wf_setRun _ _ _ _ (SMap.wf_setRun _ _ _ _ h)
    | with_reducible exact fun h => SMap.wf_fillRun _ _ _ _ _ h | with_reducible exact fun _ => SMap.wf_nil _
    | exact fun _ => SMap.wf_nil 0 | with_reducible refine Keeps.ite ?_ ?_ | extract_lets | split
    | dsimp +zetaDelta only

theorem State.slotChunk_keeps (s : State) (x : SlotWrite) (n : Nat) (ok : Bool) : Keeps [.freeCtr, .regs, .loader,
    .mram] s (State.slotChunk s x n ok) := by
  unfold State.slotChunk
  repeat' first
    | exact rfl | with_reducible exact Keeps.refl _ _ | with_reducible assumption
    | with_reducible refine (State.runWith_keeps _ _).then ?_ ?_
    | with_reducible refine (State.endWrite_keeps _).then ?_ ?_
    | with_reducible refine (State.stagingBad_keeps _ _ _ (by assumption)).then ?_ ?_
    | with_reducible refine Keeps.getD ?_ (fun _ _ => (State.stagingBad_keeps _ _ _ (by assumption)).then ?_ ?_)
    | with_reducible refine (State.mramStore_keeps _ _ _ _).then ?_ ?_
    | with_reducible refine (State.setLoader_keeps _ _ ?_ ?_).then ?_ ?_ | with_reducible exact id
    | with_reducible exact fun h => SMap.wf_set _ _ _ _ h | with_reducible exact fun h => SMap.wf_setRun _ _ _ _ h
    | with_reducible exact fun h => SMap.wf_setRun _ _ _ _ (SMap.wf_setRun _ _ _ _ h)
    | with_reducible exact fun h => SMap.wf_fillRun _ _ _ _ _ h | with_reducible exact fun _ => SMap.wf_nil _
    | exact fun _ => SMap.wf_nil 0 | with_reducible refine Keeps.ite ?_ ?_ | extract_lets | split
    | dsimp +zetaDelta only

theorem State.noWrite_keeps (s : State) (w : List Nat) : Keeps [.regs, .mgmt] s (State.noWrite s w) := by
  unfold State.noWrite
  repeat' first
    | exact rfl | with_reducible exact Keeps.refl _ _ | with_reducible assumption
    | with_reducible refine (State.showBusy_keeps _).then ?_ ?_
    | with_reducible refine (State.complete_keeps _ _ _ _ _ _ _).then ?_ ?_ | with_reducible refine Keeps.ite ?_ ?_
    | extract_lets | split | dsimp +zetaDelta only

theorem slotChunkEffect_keeps (mramOk : Bool) (s : State) : Keeps [.freeCtr, .regs, .mgmt, .loader, .mram] s
    (slotChunkEffect mramOk s) := by
  unfold slotChunkEffect
  repeat' first
    | exact rfl | with_reducible exact Keeps.refl _ _ | with_reducible assumption
    | with_reducible refine (State.slotChunk_keeps _ _ _ _).then ?_ ?_
    | with_reducible refine (State.noWrite_keeps _ _).then ?_ ?_ | with_reducible refine Keeps.ite ?_ ?_
    | extract_lets | split | dsimp +zetaDelta only

theorem State.slotEnd_keeps (s : State) (x : SlotWrite) (ok : Bool) (es : List (Nat × WordErr)) : Keeps [.regs,
    .loader, .mram] s (State.slotEnd s x ok es) := by
  unfold State.slotEnd
  repeat' first
    | exact rfl | with_reducible exact Keeps.refl _ _ | with_reducible assumption
    | with_reducible refine (State.mramScan_keeps _ _ _).then ?_ ?_
    | with_reducible refine (State.mramUpsets_keeps _ _ _).then ?_ ?_
    | with_reducible refine (State.endWrite_keeps _).then ?_ ?_
    | with_reducible refine (State.runWith_keeps _ _).then ?_ ?_
    | with_reducible refine (State.mramWrite_keeps _ _ _).then ?_ ?_ | with_reducible refine Keeps.ite ?_ ?_
    | extract_lets | split | dsimp +zetaDelta only

theorem slotEndEffect_keeps (mramOk : Bool) (upsets : List (Nat × WordErr)) (s : State) : Keeps [.regs, .mgmt,
    .loader, .mram] s (slotEndEffect mramOk upsets s) := by
  unfold slotEndEffect
  repeat' first
    | exact rfl | with_reducible exact Keeps.refl _ _ | with_reducible assumption
    | with_reducible refine (State.slotEnd_keeps _ _ _ _).then ?_ ?_
    | with_reducible refine (State.noWrite_keeps _ _).then ?_ ?_ | with_reducible refine Keeps.ite ?_ ?_
    | extract_lets | split | dsimp +zetaDelta only

theorem bootEffect_keeps (s : State) : Keeps [.regs, .mgmt, .intc, .counts, .queues, .lanes, .pools, .ports, .hosts,
    .dies, .loader, .power, .time, .sched, .trig, .bcn, .syn, .mem, .ctx, .therm, .test, .cal, .hk] s (bootEffect s)
    := by
  unfold bootEffect
  repeat' first
    | exact rfl | with_reducible exact Keeps.refl _ _ | with_reducible assumption
    | with_reducible refine (State.packageReset_keeps _).then ?_ ?_
    | with_reducible refine (State.setLoader_keeps _ _ ?_ ?_).then ?_ ?_ | with_reducible exact id
    | with_reducible exact fun h => SMap.wf_set _ _ _ _ h | with_reducible exact fun h => SMap.wf_setRun _ _ _ _ h
    | with_reducible exact fun h => SMap.wf_setRun _ _ _ _ (SMap.wf_setRun _ _ _ _ h)
    | with_reducible exact fun h => SMap.wf_fillRun _ _ _ _ _ h | with_reducible exact fun _ => SMap.wf_nil _
    | exact fun _ => SMap.wf_nil 0 | with_reducible refine Keeps.ite ?_ ?_ | extract_lets | split
    | dsimp +zetaDelta only

theorem State.setKey_keeps (s : State) (k : Nat) (x : KeySlot) : Keeps [.keys] s (State.setKey s k x) := by
  unfold State.setKey
  repeat' first
    | exact rfl | with_reducible exact Keeps.refl _ _ | with_reducible assumption | exact Or.inr (by decide)
    | with_reducible exact Or.inl rfl | with_reducible exact id | with_reducible refine Keeps.ite ?_ ?_ | extract_lets
    | split | with_reducible apply Keeps.upd | dsimp +zetaDelta only
    | with_reducible exact fun h => SMap.wf_set _ _ _ _ h | with_reducible exact fun h => SMap.rising_set _ _ _ _ h
    | with_reducible exact fun h => SMap.rising_drop _ _ h | with_reducible exact fun h => SMap.wf_setRun _ _ _ _ h
    | with_reducible exact fun h => SMap.wf_setRun _ _ _ _ (SMap.wf_setRun _ _ _ _ h)
    | with_reducible exact fun h => SMap.wf_fillRun _ _ _ _ _ h | with_reducible exact fun h => SMap.wf_drop _ _ _ h
    | with_reducible exact fun _ => SMap.wf_nil _ | with_reducible exact fun h => by simpa using h | exact id

theorem keyWriteEffect_keeps (mramOk : Bool) (s : State) : Keeps [.regs, .loader, .keys] s (keyWriteEffect mramOk s)
    := by
  unfold keyWriteEffect
  repeat' first
    | exact rfl | with_reducible exact Keeps.refl _ _ | with_reducible assumption
    | with_reducible refine (State.runWith_keeps _ _).then ?_ ?_
    | with_reducible refine (State.stagingBad_keeps _ _ _ (by assumption)).then ?_ ?_
    | with_reducible refine Keeps.getD ?_ (fun _ _ => (State.stagingBad_keeps _ _ _ (by assumption)).then ?_ ?_)
    | with_reducible refine (State.setKey_keeps _ _ _).then ?_ ?_ | with_reducible refine Keeps.ite ?_ ?_
    | extract_lets | split | dsimp +zetaDelta only

theorem keyRevokeEffect_keeps (mramOk : Bool) (s : State) : Keeps [.loader, .keys] s (keyRevokeEffect mramOk s) :=
    by
  unfold keyRevokeEffect
  repeat' first
    | exact rfl | with_reducible exact Keeps.refl _ _ | with_reducible assumption
    | with_reducible refine (State.runWith_keeps _ _).then ?_ ?_
    | with_reducible refine (State.setKey_keeps _ _ _).then ?_ ?_ | with_reducible refine Keeps.ite ?_ ?_
    | extract_lets | split | dsimp +zetaDelta only

theorem bootSlotCheckedEffect_keeps (upsets : List (Nat × WordErr)) (s : State) : Keeps [.regs, .loader, .mram] s
    (bootSlotCheckedEffect upsets s) := by
  unfold bootSlotCheckedEffect
  repeat' first
    | exact rfl | with_reducible exact Keeps.refl _ _ | with_reducible assumption
    | with_reducible refine (State.mramUpsets_keeps _ _ _).then ?_ ?_
    | with_reducible refine (State.mramScan_keeps _ _ _).then ?_ ?_
    | with_reducible refine (State.put_keeps _ _ _).then ?_ ?_
    | with_reducible refine (State.setLoader_keeps _ _ ?_ ?_).then ?_ ?_
    | with_reducible refine (State.raise_keeps _ _).then ?_ ?_ | with_reducible exact id
    | with_reducible exact fun h => SMap.wf_set _ _ _ _ h | with_reducible exact fun h => SMap.wf_setRun _ _ _ _ h
    | with_reducible exact fun h => SMap.wf_setRun _ _ _ _ (SMap.wf_setRun _ _ _ _ h)
    | with_reducible exact fun h => SMap.wf_fillRun _ _ _ _ _ h | with_reducible exact fun _ => SMap.wf_nil _
    | exact fun _ => SMap.wf_nil 0 | with_reducible refine Keeps.ite ?_ ?_ | extract_lets | split
    | dsimp +zetaDelta only

theorem State.loadFirmware_keeps (s : State) (b : List Nat) : Keeps [.loader] s (State.loadFirmware s b) := by
  unfold State.loadFirmware
  repeat' first
    | exact rfl | with_reducible exact Keeps.refl _ _ | with_reducible assumption
    | with_reducible refine (State.setLoader_keeps _ _ ?_ ?_).then ?_ ?_ | with_reducible exact id
    | with_reducible exact fun h => SMap.wf_set _ _ _ _ h | with_reducible exact fun h => SMap.wf_setRun _ _ _ _ h
    | with_reducible exact fun h => SMap.wf_setRun _ _ _ _ (SMap.wf_setRun _ _ _ _ h)
    | with_reducible exact fun h => SMap.wf_fillRun _ _ _ _ _ h | with_reducible exact fun _ => SMap.wf_nil _
    | exact fun _ => SMap.wf_nil 0 | with_reducible refine Keeps.ite ?_ ?_ | extract_lets | split
    | dsimp +zetaDelta only

theorem State.entryAddr_keeps (s : State) (fw : Option (List Nat)) : Keeps [.freeCtr] s (State.entryAddr s fw).2 :=
    by
  unfold State.entryAddr
  repeat' first
    | exact rfl | with_reducible exact Keeps.refl _ _ | with_reducible assumption
    | with_reducible refine (State.freed_keeps _).then ?_ ?_ | with_reducible refine Keeps.ite ?_ ?_ | extract_lets
    | split | dsimp +zetaDelta only

theorem State.applyLanemap_keeps (s : State) (map : List Nat) : Keeps [.regs] s (State.applyLanemap s map) := by
  unfold State.applyLanemap
  repeat' first
    | exact rfl | with_reducible exact Keeps.refl _ _ | with_reducible assumption
    | with_reducible refine (State.putB_keeps _ _ _).then ?_ ?_
    | with_reducible refine (State.put_keeps _ _ _).then ?_ ?_ | with_reducible refine Keeps.ite ?_ ?_
    | with_reducible refine Keeps.each ?_ (fun _ _ _ => ?_) | extract_lets | split | dsimp +zetaDelta only

theorem State.applyPaths_keeps (s : State) : Keeps [.freeCtr, .regs, .mgmt, .queues, .lanes, .pools, .ports, .hosts,
    .dies, .bcn] s (State.applyPaths s) := by
  unfold State.applyPaths
  repeat' first
    | exact rfl | with_reducible exact Keeps.refl _ _ | with_reducible assumption
    | with_reducible refine (State.restartPort_keeps _ _).then ?_ ?_
    | with_reducible refine (State.showPath_keeps _ _).then ?_ ?_
    | with_reducible refine (State.applyRegion_keeps _ _).then ?_ ?_ | with_reducible refine Keeps.ite ?_ ?_
    | with_reducible refine Keeps.each ?_ (fun _ _ _ => ?_) | with_reducible refine Keeps.onlyIf ?_ (fun _ _ => ?_)
    | extract_lets | split | dsimp +zetaDelta only

theorem State.applyEngine_keeps (s : State) (b : List Nat) : Keeps [.regs, .power, .hk] s (State.applyEngine s b) :=
    by
  have k : ∀ (u : State) (x : PowerSt), (SMap.wf u.power.save .unwritten = true → SMap.wf x.save .unwritten = true) →
      Keeps [.power] u { u with power := x } := fun u x hx => by
    repeat' first
    | exact Or.inr (by decide)
    | with_reducible exact Or.inl rfl
    | exact hx
    | with_reducible exact id
    | with_reducible exact Keeps.refl _ _
    | with_reducible apply Keeps.upd
  unfold State.applyEngine
  extract_lets
  repeat' first
    | exact rfl
    | with_reducible exact Keeps.refl _ _
    | with_reducible assumption
    | with_reducible refine Keeps.onlyIf ?_ (fun _ _ => ?_)
    | with_reducible refine (State.putB_keeps _ _ _).then ?_ ?_
    | with_reducible refine (State.put_keeps _ _ _).then ?_ ?_
    | with_reducible refine (State.loadHkd_keeps _ _ _).then ?_ ?_
    | with_reducible refine (State.setTarget_keeps _ _ _).then ?_ ?_
    | with_reducible refine Keeps.ite ?_ ?_
    | with_reducible refine Keeps.each ?_ (fun _ _ _ => ?_)
    | extract_lets
    | with_reducible exact id
    | with_reducible refine (k _ _ ?_).then ?_ ?_

theorem State.applyHkseq_keeps (s : State) (b : List Nat) : Keeps [.regs] s (State.applyHkseq s b) := by
  unfold State.applyHkseq
  repeat' first
    | exact rfl | with_reducible exact Keeps.refl _ _ | with_reducible assumption
    | with_reducible refine (State.put_keeps _ _ _).then ?_ ?_ | with_reducible refine Keeps.ite ?_ ?_
    | with_reducible refine Keeps.each ?_ (fun _ _ _ => ?_) | extract_lets | split | dsimp +zetaDelta only

theorem State.applySchedule_keeps (s : State) (b : List Nat) : Keeps [.sched, .ctx] s (State.applySchedule s b) :=
    by
  unfold State.applySchedule
  repeat' first
    | exact rfl | with_reducible exact Keeps.refl _ _ | with_reducible assumption
    | with_reducible refine (State.writePos_keeps _ _ _).then ?_ ?_ | exact Or.inr (by decide)
    | with_reducible exact Or.inl rfl | with_reducible exact id | with_reducible refine Keeps.ite ?_ ?_
    | with_reducible refine Keeps.each ?_ (fun _ _ _ => ?_) | extract_lets | split | with_reducible apply Keeps.upd
    | dsimp +zetaDelta only | with_reducible exact fun h => SMap.wf_set _ _ _ _ h
    | with_reducible exact fun h => SMap.rising_set _ _ _ _ h | with_reducible exact fun h => SMap.rising_drop _ _ h
    | with_reducible exact fun h => SMap.wf_setRun _ _ _ _ h
    | with_reducible exact fun h => SMap.wf_setRun _ _ _ _ (SMap.wf_setRun _ _ _ _ h)
    | with_reducible exact fun h => SMap.wf_fillRun _ _ _ _ _ h | with_reducible exact fun h => SMap.wf_drop _ _ _ h
    | with_reducible exact fun _ => SMap.wf_nil _ | with_reducible exact fun h => by simpa using h | exact id

theorem State.applySections_keeps (s : State) (img : Image) : Keeps [.freeCtr, .regs, .mgmt, .intc, .counts,
    .queues, .lanes, .pools, .ports, .hosts, .dies, .loader, .power, .time, .sched, .trig, .bcn, .syn, .mem, .ctx,
    .therm, .test, .cal, .hk] s (State.applySections s img) := by
  unfold State.applySections
  repeat' first
    | exact rfl | with_reducible exact Keeps.refl _ _ | with_reducible assumption
    | with_reducible refine (State.setLoader_keeps _ _ ?_ ?_).then ?_ ?_
    | with_reducible refine (State.loadFirmware_keeps _ _).then ?_ ?_
    | with_reducible refine (State.applyEngine_keeps _ _).then ?_ ?_
    | with_reducible refine (State.applyPaths_keeps _).then ?_ ?_
    | with_reducible refine (State.applyLanemap_keeps _ _).then ?_ ?_
    | with_reducible refine (State.applySchedule_keeps _ _).then ?_ ?_
    | with_reducible refine (State.applyHkseq_keeps _ _).then ?_ ?_
    | with_reducible refine (State.regEntries_keeps _ _).then ?_ ?_ | with_reducible exact id
    | with_reducible exact fun h => SMap.wf_set _ _ _ _ h | with_reducible exact fun h => SMap.wf_setRun _ _ _ _ h
    | with_reducible exact fun h => SMap.wf_setRun _ _ _ _ (SMap.wf_setRun _ _ _ _ h)
    | with_reducible exact fun h => SMap.wf_fillRun _ _ _ _ _ h | with_reducible exact fun _ => SMap.wf_nil _
    | exact fun _ => SMap.wf_nil 0 | with_reducible refine Keeps.ite ?_ ?_ | extract_lets | split
    | dsimp +zetaDelta only

theorem State.releaseCore_keeps (s : State) (img : Image) : Keeps [.freeCtr, .regs, .lanes, .pools, .ports, .hosts,
    .dies, .loader, .hk] s (State.releaseCore s img) := by
  unfold State.releaseCore
  repeat' first
    | exact rfl | with_reducible exact Keeps.refl _ _ | with_reducible assumption
    | with_reducible refine (State.putB_keeps _ _ _).then ?_ ?_
    | with_reducible refine (State.setLoader_keeps _ _ ?_ ?_).then ?_ ?_
    | with_reducible refine (State.put_keeps _ _ _).then ?_ ?_
    | with_reducible refine (State.entryAddr_keeps _ _).then ?_ ?_
    | with_reducible refine (State.hkRelease_keeps _).then ?_ ?_
    | with_reducible refine (State.enableLane_keeps _ _).then ?_ ?_ | with_reducible exact id
    | with_reducible exact fun h => SMap.wf_set _ _ _ _ h | with_reducible exact fun h => SMap.wf_setRun _ _ _ _ h
    | with_reducible exact fun h => SMap.wf_setRun _ _ _ _ (SMap.wf_setRun _ _ _ _ h)
    | with_reducible exact fun h => SMap.wf_fillRun _ _ _ _ _ h | with_reducible exact fun _ => SMap.wf_nil _
    | exact fun _ => SMap.wf_nil 0 | with_reducible refine Keeps.ite ?_ ?_
    | with_reducible refine Keeps.each ?_ (fun _ _ _ => ?_) | with_reducible refine Keeps.onlyIf ?_ (fun _ _ => ?_)
    | extract_lets | split | dsimp +zetaDelta only

theorem imageApplyEffect_keeps (s : State) : Keeps [.freeCtr, .regs, .mgmt, .intc, .counts, .queues, .lanes, .pools,
    .ports, .hosts, .dies, .loader, .power, .time, .sched, .trig, .bcn, .syn, .mem, .ctx, .therm, .test, .cal, .hk]
    s (imageApplyEffect s) := by
  unfold imageApplyEffect
  repeat' first
    | exact rfl | with_reducible exact Keeps.refl _ _ | with_reducible assumption
    | with_reducible refine (State.applySections_keeps _ _).then ?_ ?_
    | with_reducible refine (State.restoreAll_keeps _).then ?_ ?_
    | with_reducible refine (State.releaseCore_keeps _ _).then ?_ ?_ | exact Or.inr (by decide)
    | with_reducible exact Or.inl rfl | with_reducible exact id | with_reducible refine Keeps.ite ?_ ?_
    | with_reducible refine Keeps.onlyIf ?_ (fun _ _ => ?_) | extract_lets | split | with_reducible apply Keeps.upd
    | dsimp +zetaDelta only | with_reducible exact fun h => SMap.wf_set _ _ _ _ h
    | with_reducible exact fun h => SMap.rising_set _ _ _ _ h | with_reducible exact fun h => SMap.rising_drop _ _ h
    | with_reducible exact fun h => SMap.wf_setRun _ _ _ _ h
    | with_reducible exact fun h => SMap.wf_setRun _ _ _ _ (SMap.wf_setRun _ _ _ _ h)
    | with_reducible exact fun h => SMap.wf_fillRun _ _ _ _ _ h | with_reducible exact fun h => SMap.wf_drop _ _ _ h
    | with_reducible exact fun _ => SMap.wf_nil _ | with_reducible exact fun h => by simpa using h | exact id

theorem State.commitPart_keeps (s : State) (x : Partial) : Keeps [.freeCtr, .regs, .ports, .hosts, .loader] s
    (State.commitPart s x) := by
  unfold State.commitPart
  repeat' first
    | exact rfl | with_reducible exact Keeps.refl _ _ | with_reducible assumption
    | with_reducible refine (State.setLoader_keeps _ _ ?_ ?_).then ?_ ?_
    | with_reducible refine (State.showPath_keeps _ _).then ?_ ?_
    | with_reducible refine (State.restartPort_keeps _ _).then ?_ ?_
    | with_reducible refine (State.put_keeps _ _ _).then ?_ ?_ | with_reducible exact id
    | with_reducible exact fun h => SMap.wf_set _ _ _ _ h | with_reducible exact fun h => SMap.wf_setRun _ _ _ _ h
    | with_reducible exact fun h => SMap.wf_setRun _ _ _ _ (SMap.wf_setRun _ _ _ _ h)
    | with_reducible exact fun h => SMap.wf_fillRun _ _ _ _ _ h | with_reducible exact fun _ => SMap.wf_nil _
    | exact fun _ => SMap.wf_nil 0 | with_reducible refine Keeps.ite ?_ ?_
    | with_reducible refine Keeps.each ?_ (fun _ _ _ => ?_) | with_reducible refine Keeps.onlyIf ?_ (fun _ _ => ?_)
    | extract_lets | split | dsimp +zetaDelta only

theorem State.outageStart_keeps (s : State) (n : Nat) : Keeps [.freeCtr, .regs, .counts, .queues, .lanes, .ports,
    .hosts, .dies] s (State.outageStart s n) := by
  unfold State.outageStart
  repeat' first
    | exact rfl | with_reducible exact Keeps.refl _ _ | with_reducible assumption
    | with_reducible refine (State.setReason_keeps _ _ _ _).then ?_ ?_
    | with_reducible refine (State.onLane_keeps _ _ _).then ?_ ?_
    | with_reducible refine (State.emptyLane_keeps _ _ _).then ?_ ?_
    | with_reducible refine (State.loseLock_keeps _ _).then ?_ ?_ | with_reducible refine Keeps.ite ?_ ?_
    | with_reducible refine Keeps.onlyIf ?_ (fun _ _ => ?_) | extract_lets | split | dsimp +zetaDelta only

theorem State.startPart_keeps (s : State) (w : List Nat) (x : Partial) : Keeps [.freeCtr, .regs, .mgmt, .intc,
    .counts, .queues, .lanes, .pools, .ports, .hosts, .dies, .loader, .power, .time, .sched, .trig, .bcn, .syn,
    .mem, .ctx, .therm, .test, .cal, .hk] s (State.startPart s w x) := by
  unfold State.startPart
  repeat' first
    | exact rfl | with_reducible exact Keeps.refl _ _ | with_reducible assumption
    | with_reducible refine (State.loaderDone_keeps _ _ _).then ?_ ?_
    | with_reducible refine (State.regEntries_keeps _ _).then ?_ ?_
    | with_reducible refine (State.commitPart_keeps _ _).then ?_ ?_
    | with_reducible refine (State.showBusy_keeps _).then ?_ ?_
    | with_reducible refine (State.complete_keeps _ _ _ _ _ _ _).then ?_ ?_
    | with_reducible refine (State.outageStart_keeps _ _).then ?_ ?_
    | with_reducible refine (State.setLoader_keeps _ _ ?_ ?_).then ?_ ?_ | with_reducible exact id
    | with_reducible exact fun h => SMap.wf_set _ _ _ _ h | with_reducible exact fun h => SMap.wf_setRun _ _ _ _ h
    | with_reducible exact fun h => SMap.wf_setRun _ _ _ _ (SMap.wf_setRun _ _ _ _ h)
    | with_reducible exact fun h => SMap.wf_fillRun _ _ _ _ _ h | with_reducible exact fun _ => SMap.wf_nil _
    | exact fun _ => SMap.wf_nil 0 | with_reducible refine Keeps.ite ?_ ?_ | extract_lets | split
    | dsimp +zetaDelta only

theorem partialLoadEffect_keeps (s : State) : Keeps [.freeCtr, .regs, .mgmt, .intc, .counts, .queues, .lanes,
    .pools, .ports, .hosts, .dies, .loader, .power, .time, .sched, .trig, .bcn, .syn, .mem, .ctx, .therm, .test,
    .cal, .hk] s (partialLoadEffect s) := by
  unfold partialLoadEffect
  repeat' first
    | exact rfl | with_reducible exact Keeps.refl _ _ | with_reducible assumption
    | with_reducible refine (State.startPart_keeps _ _ _).then ?_ ?_
    | with_reducible refine (State.loaderDone_keeps _ _ _).then ?_ ?_
    | with_reducible refine (State.stagingBad_keeps _ _ _ (by assumption)).then ?_ ?_
    | with_reducible refine Keeps.getD ?_ (fun _ _ => (State.stagingBad_keeps _ _ _ (by assumption)).then ?_ ?_)
    | with_reducible refine Keeps.ite ?_ ?_ | extract_lets | split | dsimp +zetaDelta only

theorem State.outageEndLane_keeps (s : State) (n : Nat) (was : Bool) (count : Nat) (cursor : Nat) : Keeps [.freeCtr,
    .regs, .mgmt, .counts, .queues, .lanes, .pools, .ports, .hosts, .dies, .bcn] s (State.outageEndLane s n was
    count cursor) := by
  unfold State.outageEndLane
  repeat' first
    | exact rfl | with_reducible exact Keeps.refl _ _ | with_reducible assumption
    | with_reducible refine (State.setReason_keeps _ _ _ _).then ?_ ?_
    | with_reducible refine (State.onLane_keeps _ _ _).then ?_ ?_
    | with_reducible refine (State.disableLane_keeps _ _).then ?_ ?_
    | with_reducible refine (State.enableLane_keeps _ _).then ?_ ?_
    | with_reducible refine (State.showTiming_keeps _ _).then ?_ ?_
    | with_reducible refine (State.loadTx_keeps _ _ _).then ?_ ?_
    | with_reducible refine (State.loadRx_keeps _ _ _ _ _).then ?_ ?_
    | with_reducible refine (State.freed_keeps _).then ?_ ?_
    | with_reducible refine (State.lockAt_keeps _ _ _ _ _).then ?_ ?_
    | with_reducible refine (State.enterDark_keeps _ _ _).then ?_ ?_
    | with_reducible refine (State.put_keeps _ _ _).then ?_ ?_
    | with_reducible refine (State.presets_keeps _ _).then ?_ ?_
    | with_reducible refine (State.startLane_keeps _ _ _).then ?_ ?_ | with_reducible refine Keeps.ite ?_ ?_
    | with_reducible refine Keeps.onlyIf ?_ (fun _ _ => ?_) | extract_lets | split | dsimp +zetaDelta only

theorem State.endPart_keeps (s : State) (x : Partial) : Keeps [.freeCtr, .regs, .mgmt, .intc, .counts, .queues,
    .lanes, .pools, .ports, .hosts, .dies, .loader, .power, .time, .sched, .trig, .bcn, .syn, .mem, .ctx, .therm,
    .test, .cal, .hk] s (State.endPart s x) := by
  unfold State.endPart
  repeat' first
    | exact rfl | with_reducible exact Keeps.refl _ _ | with_reducible assumption
    | with_reducible refine (State.setLoader_keeps _ _ ?_ ?_).then ?_ ?_
    | with_reducible refine (State.regEntries_keeps _ _).then ?_ ?_
    | with_reducible refine (State.applyRegion_keeps _ _).then ?_ ?_
    | with_reducible refine (State.commitPart_keeps _ _).then ?_ ?_
    | with_reducible refine (State.settleCal_keeps _).then ?_ ?_
    | with_reducible refine (State.outageEndLane_keeps _ _ _ _ _).then ?_ ?_
    | with_reducible refine (State.loaderDone_keeps _ _ _).then ?_ ?_ | with_reducible exact id
    | with_reducible exact fun h => SMap.wf_set _ _ _ _ h | with_reducible exact fun h => SMap.wf_setRun _ _ _ _ h
    | with_reducible exact fun h => SMap.wf_setRun _ _ _ _ (SMap.wf_setRun _ _ _ _ h)
    | with_reducible exact fun h => SMap.wf_fillRun _ _ _ _ _ h | with_reducible exact fun _ => SMap.wf_nil _
    | exact fun _ => SMap.wf_nil 0 | with_reducible refine Keeps.ite ?_ ?_
    | with_reducible refine Keeps.each ?_ (fun _ _ _ => ?_) | extract_lets | split | dsimp +zetaDelta only

theorem State.partialEnd_keeps (s : State) (r : Nat) : Keeps [.freeCtr, .regs, .mgmt, .intc, .counts, .queues,
    .lanes, .pools, .ports, .hosts, .dies, .loader, .power, .time, .sched, .trig, .bcn, .syn, .mem, .ctx, .therm,
    .test, .cal, .hk] s (State.partialEnd s r) := by
  unfold State.partialEnd
  repeat' first
    | exact rfl | with_reducible exact Keeps.refl _ _ | with_reducible assumption
    | with_reducible refine (State.endPart_keeps _ _).then ?_ ?_ | with_reducible refine Keeps.ite ?_ ?_
    | extract_lets | split | dsimp +zetaDelta only

end Sys2Proof.Machine
end

