-- ==== Sys2Proof/Laws/KeepsStart.lean ====
section
/-!
SUPPORT. What each operation of Machine/Start.lean leaves unchanged, and that it keeps the canonical form.
-/

namespace Sys2Proof.Machine

open Sys2Proof

theorem State.setPower_keeps (s : State) (v : PowerSt)
    (h0 : SMap.wf s.power.save .unwritten = true → SMap.wf v.save .unwritten = true) :
    Keeps [.power] s (State.setPower s v) := by
  unfold State.setPower
  repeat' first
    | exact Or.inr (by decide)
    | with_reducible exact Or.inl rfl
    | with_reducible exact id
    | with_reducible exact Keeps.refl _ _
    | assumption
    | with_reducible apply Keeps.upd

theorem State.faultLow_keeps (s : State) (code : Nat) : Keeps [.regs] s (State.faultLow s code) := by
  unfold State.faultLow
  repeat' first
    | exact rfl | with_reducible exact Keeps.refl _ _ | with_reducible assumption
    | with_reducible refine (State.put_keeps _ _ _).then ?_ ?_ | with_reducible refine Keeps.ite ?_ ?_ | extract_lets
    | split | dsimp +zetaDelta only

theorem State.faultHigh_keeps (s : State) : Keeps [.regs] s (State.faultHigh s) := by
  unfold State.faultHigh
  repeat' first
    | exact rfl | with_reducible exact Keeps.refl _ _ | with_reducible assumption
    | with_reducible refine (State.put_keeps _ _ _).then ?_ ?_
    | with_reducible refine (State.faultLow_keeps _ _).then ?_ ?_ | with_reducible refine Keeps.ite ?_ ?_
    | extract_lets | split | dsimp +zetaDelta only

theorem State.stagePassed_keeps (s : State) (k : Nat) : Keeps [.regs, .power] s (State.stagePassed s k) := by
  unfold State.stagePassed
  repeat' first
    | exact rfl | with_reducible exact Keeps.refl _ _ | with_reducible assumption
    | with_reducible refine (State.faultHigh_keeps _).then ?_ ?_
    | with_reducible refine (State.setPower_keeps _ _ ?_).then ?_ ?_ | with_reducible exact id
    | with_reducible exact fun h => SMap.wf_set _ _ _ _ h | with_reducible exact fun h => SMap.wf_setRun _ _ _ _ h
    | with_reducible exact fun h => SMap.wf_setRun _ _ _ _ (SMap.wf_setRun _ _ _ _ h)
    | with_reducible exact fun h => SMap.wf_fillRun _ _ _ _ _ h | with_reducible exact fun _ => SMap.wf_nil _
    | exact fun _ => SMap.wf_nil 0 | with_reducible refine Keeps.ite ?_ ?_ | extract_lets | split
    | dsimp +zetaDelta only

theorem State.railsOff_keeps (s : State) (k : Nat) : Keeps [.regs, .power, .tap] s (State.railsOff s k) := by
  unfold State.railsOff
  repeat' first
    | exact rfl | with_reducible exact Keeps.refl _ _ | with_reducible assumption
    | with_reducible refine (State.setPower_keeps _ _ ?_).then ?_ ?_
    | with_reducible refine (State.put_keeps _ _ _).then ?_ ?_ | exact Or.inr (by decide)
    | with_reducible exact Or.inl rfl | with_reducible exact id | with_reducible exact fun h => SMap.wf_set _ _ _ _ h
    | with_reducible exact fun h => SMap.wf_setRun _ _ _ _ h
    | with_reducible exact fun h => SMap.wf_setRun _ _ _ _ (SMap.wf_setRun _ _ _ _ h)
    | with_reducible exact fun h => SMap.wf_fillRun _ _ _ _ _ h | with_reducible exact fun _ => SMap.wf_nil _
    | exact fun _ => SMap.wf_nil 0 | with_reducible refine Keeps.ite ?_ ?_
    | with_reducible refine Keeps.onlyIf ?_ (fun _ _ => ?_) | extract_lets | split | with_reducible apply Keeps.upd
    | dsimp +zetaDelta only | with_reducible exact fun h => SMap.wf_set _ _ _ _ h
    | with_reducible exact fun h => SMap.rising_set _ _ _ _ h | with_reducible exact fun h => SMap.rising_drop _ _ h
    | with_reducible exact fun h => SMap.wf_setRun _ _ _ _ h
    | with_reducible exact fun h => SMap.wf_setRun _ _ _ _ (SMap.wf_setRun _ _ _ _ h)
    | with_reducible exact fun h => SMap.wf_fillRun _ _ _ _ _ h | with_reducible exact fun h => SMap.wf_drop _ _ _ h
    | with_reducible exact fun _ => SMap.wf_nil _ | with_reducible exact fun h => by simpa using h | exact id

theorem State.aonLost_keeps (s : State) : Keeps [.regs, .mgmt, .intc, .counts, .queues, .lanes, .pools, .ports,
    .hosts, .dies, .loader, .power, .time, .sched, .trig, .bcn, .syn, .mem, .ctx, .therm, .test, .cal, .hk, .tap] s
    (State.aonLost s) := by
  unfold State.aonLost
  repeat' first
    | exact rfl | with_reducible exact Keeps.refl _ _ | with_reducible assumption
    | with_reducible refine (State.railsOff_keeps _ _).then ?_ ?_
    | with_reducible refine (State.packageReset_keeps _).then ?_ ?_
    | with_reducible refine (State.setHk_keeps _ _ ?_).then ?_ ?_
    | with_reducible refine (State.setPower_keeps _ _ ?_).then ?_ ?_ | exact Or.inr (by decide)
    | with_reducible exact Or.inl rfl | with_reducible exact id | with_reducible exact fun h => SMap.wf_set _ _ _ _ h
    | with_reducible exact fun h => SMap.wf_setRun _ _ _ _ h
    | with_reducible exact fun h => SMap.wf_setRun _ _ _ _ (SMap.wf_setRun _ _ _ _ h)
    | with_reducible exact fun h => SMap.wf_fillRun _ _ _ _ _ h | with_reducible exact fun _ => SMap.wf_nil _
    | exact fun _ => SMap.wf_nil 0 | with_reducible refine Keeps.ite ?_ ?_ | extract_lets | split
    | with_reducible apply Keeps.upd | dsimp +zetaDelta only | with_reducible exact fun h => SMap.wf_set _ _ _ _ h
    | with_reducible exact fun h => SMap.rising_set _ _ _ _ h | with_reducible exact fun h => SMap.rising_drop _ _ h
    | with_reducible exact fun h => SMap.wf_setRun _ _ _ _ h
    | with_reducible exact fun h => SMap.wf_setRun _ _ _ _ (SMap.wf_setRun _ _ _ _ h)
    | with_reducible exact fun h => SMap.wf_fillRun _ _ _ _ _ h | with_reducible exact fun h => SMap.wf_drop _ _ _ h
    | with_reducible exact fun _ => SMap.wf_nil _ | with_reducible exact fun h => by simpa using h | exact id

theorem State.powerStop_keeps (s : State) (v : VinSt) : Keeps [.regs, .mgmt, .intc, .counts, .queues, .lanes,
    .pools, .ports, .hosts, .dies, .loader, .power, .time, .sched, .trig, .bcn, .syn, .mem, .ctx, .therm, .test,
    .cal, .hk, .tap] s (State.powerStop s v) := by
  unfold State.powerStop
  repeat' first
    | exact rfl | with_reducible exact Keeps.refl _ _ | with_reducible assumption
    | with_reducible refine (State.aonLost_keeps _).then ?_ ?_
    | with_reducible refine (State.faultLow_keeps _ _).then ?_ ?_
    | with_reducible refine (State.setPower_keeps _ _ ?_).then ?_ ?_ | exact Or.inr (by decide)
    | with_reducible exact Or.inl rfl | with_reducible exact id | with_reducible exact fun h => SMap.wf_set _ _ _ _ h
    | with_reducible exact fun h => SMap.wf_setRun _ _ _ _ h
    | with_reducible exact fun h => SMap.wf_setRun _ _ _ _ (SMap.wf_setRun _ _ _ _ h)
    | with_reducible exact fun h => SMap.wf_fillRun _ _ _ _ _ h | with_reducible exact fun _ => SMap.wf_nil _
    | exact fun _ => SMap.wf_nil 0 | with_reducible refine Keeps.ite ?_ ?_ | extract_lets | split
    | with_reducible apply Keeps.upd | dsimp +zetaDelta only | with_reducible exact fun h => SMap.wf_set _ _ _ _ h
    | with_reducible exact fun h => SMap.rising_set _ _ _ _ h | with_reducible exact fun h => SMap.rising_drop _ _ h
    | with_reducible exact fun h => SMap.wf_setRun _ _ _ _ h
    | with_reducible exact fun h => SMap.wf_setRun _ _ _ _ (SMap.wf_setRun _ _ _ _ h)
    | with_reducible exact fun h => SMap.wf_fillRun _ _ _ _ _ h | with_reducible exact fun h => SMap.wf_drop _ _ _ h
    | with_reducible exact fun _ => SMap.wf_nil _ | with_reducible exact fun h => by simpa using h | exact id

theorem vinGoodEffect_keeps (s : State) : Keeps [.regs, .power] s (vinGoodEffect s) := by
  unfold vinGoodEffect
  repeat' first
    | exact rfl | with_reducible exact Keeps.refl _ _ | with_reducible assumption
    | with_reducible refine (State.faultLow_keeps _ _).then ?_ ?_
    | with_reducible refine (State.setPower_keeps _ _ ?_).then ?_ ?_ | with_reducible exact id
    | with_reducible exact fun h => SMap.wf_set _ _ _ _ h | with_reducible exact fun h => SMap.wf_setRun _ _ _ _ h
    | with_reducible exact fun h => SMap.wf_setRun _ _ _ _ (SMap.wf_setRun _ _ _ _ h)
    | with_reducible exact fun h => SMap.wf_fillRun _ _ _ _ _ h | with_reducible exact fun _ => SMap.wf_nil _
    | exact fun _ => SMap.wf_nil 0 | with_reducible refine Keeps.ite ?_ ?_ | extract_lets | split
    | dsimp +zetaDelta only

theorem debounceDoneEffect_keeps (s : State) : Keeps [.power] s (debounceDoneEffect s) := by
  unfold debounceDoneEffect
  repeat' first
    | exact rfl | with_reducible exact Keeps.refl _ _ | with_reducible assumption
    | with_reducible refine (State.setPower_keeps _ _ ?_).then ?_ ?_ | with_reducible exact id
    | with_reducible exact fun h => SMap.wf_set _ _ _ _ h | with_reducible exact fun h => SMap.wf_setRun _ _ _ _ h
    | with_reducible exact fun h => SMap.wf_setRun _ _ _ _ (SMap.wf_setRun _ _ _ _ h)
    | with_reducible exact fun h => SMap.wf_fillRun _ _ _ _ _ h | with_reducible exact fun _ => SMap.wf_nil _
    | exact fun _ => SMap.wf_nil 0 | with_reducible refine Keeps.ite ?_ ?_ | extract_lets | split
    | dsimp +zetaDelta only

theorem softstartDoneEffect_keeps (s : State) : Keeps [.regs, .power] s (softstartDoneEffect s) := by
  unfold softstartDoneEffect
  repeat' first
    | exact rfl | with_reducible exact Keeps.refl _ _ | with_reducible assumption
    | with_reducible refine (State.put_keeps _ _ _).then ?_ ?_
    | with_reducible refine (State.setPower_keeps _ _ ?_).then ?_ ?_ | with_reducible exact id
    | with_reducible exact fun h => SMap.wf_set _ _ _ _ h | with_reducible exact fun h => SMap.wf_setRun _ _ _ _ h
    | with_reducible exact fun h => SMap.wf_setRun _ _ _ _ (SMap.wf_setRun _ _ _ _ h)
    | with_reducible exact fun h => SMap.wf_fillRun _ _ _ _ _ h | with_reducible exact fun _ => SMap.wf_nil _
    | exact fun _ => SMap.wf_nil 0 | with_reducible refine Keeps.ite ?_ ?_ | extract_lets | split
    | dsimp +zetaDelta only

theorem vinOvervoltageEffect_keeps (s : State) : Keeps [.regs, .mgmt, .intc, .counts, .queues, .lanes, .pools,
    .ports, .hosts, .dies, .loader, .power, .time, .sched, .trig, .bcn, .syn, .mem, .ctx, .therm, .test, .cal, .hk,
    .tap] s (vinOvervoltageEffect s) := by
  unfold vinOvervoltageEffect
  repeat' first
    | exact rfl | with_reducible exact Keeps.refl _ _ | with_reducible assumption
    | with_reducible refine (State.powerStop_keeps _ _).then ?_ ?_ | with_reducible refine Keeps.ite ?_ ?_
    | extract_lets | split | dsimp +zetaDelta only

theorem vinOvClearEffect_keeps (s : State) : Keeps [.power] s (vinOvClearEffect s) := by
  unfold vinOvClearEffect
  repeat' first
    | exact rfl | with_reducible exact Keeps.refl _ _ | with_reducible assumption
    | with_reducible refine (State.setPower_keeps _ _ ?_).then ?_ ?_ | with_reducible exact id
    | with_reducible exact fun h => SMap.wf_set _ _ _ _ h | with_reducible exact fun h => SMap.wf_setRun _ _ _ _ h
    | with_reducible exact fun h => SMap.wf_setRun _ _ _ _ (SMap.wf_setRun _ _ _ _ h)
    | with_reducible exact fun h => SMap.wf_fillRun _ _ _ _ _ h | with_reducible exact fun _ => SMap.wf_nil _
    | exact fun _ => SMap.wf_nil 0 | with_reducible refine Keeps.ite ?_ ?_ | extract_lets | split
    | dsimp +zetaDelta only

theorem vinOvercurrentEffect_keeps (s : State) : Keeps [.regs, .mgmt, .intc, .counts, .queues, .lanes, .pools,
    .ports, .hosts, .dies, .loader, .power, .time, .sched, .trig, .bcn, .syn, .mem, .ctx, .therm, .test, .cal, .hk,
    .tap] s (vinOvercurrentEffect s) := by
  unfold vinOvercurrentEffect
  repeat' first
    | exact rfl | with_reducible exact Keeps.refl _ _ | with_reducible assumption
    | with_reducible refine (State.powerStop_keeps _ _).then ?_ ?_ | with_reducible refine Keeps.ite ?_ ?_
    | extract_lets | split | dsimp +zetaDelta only

theorem overcurrentRestartEffect_keeps (s : State) : Keeps [.power] s (overcurrentRestartEffect s) := by
  unfold overcurrentRestartEffect
  repeat' first
    | exact rfl | with_reducible exact Keeps.refl _ _ | with_reducible assumption
    | with_reducible refine (State.setPower_keeps _ _ ?_).then ?_ ?_ | with_reducible exact id
    | with_reducible exact fun h => SMap.wf_set _ _ _ _ h | with_reducible exact fun h => SMap.wf_setRun _ _ _ _ h
    | with_reducible exact fun h => SMap.wf_setRun _ _ _ _ (SMap.wf_setRun _ _ _ _ h)
    | with_reducible exact fun h => SMap.wf_fillRun _ _ _ _ _ h | with_reducible exact fun _ => SMap.wf_nil _
    | exact fun _ => SMap.wf_nil 0 | with_reducible refine Keeps.ite ?_ ?_ | extract_lets | split
    | dsimp +zetaDelta only

theorem vinLossEffect_keeps (s : State) : Keeps [.regs, .mgmt, .intc, .counts, .queues, .lanes, .pools, .ports,
    .hosts, .dies, .loader, .power, .time, .sched, .trig, .bcn, .syn, .mem, .ctx, .therm, .test, .cal, .hk, .tap] s
    (vinLossEffect s) := by
  unfold vinLossEffect
  repeat' first
    | exact rfl | with_reducible exact Keeps.refl _ _ | with_reducible assumption
    | with_reducible refine (State.powerStop_keeps _ _).then ?_ ?_ | with_reducible refine Keeps.ite ?_ ?_
    | extract_lets | split | dsimp +zetaDelta only

theorem State.stage6Pass_keeps (s : State) : Keeps [.regs, .power, .hk] s (State.stage6Pass s) := by
  unfold State.stage6Pass
  repeat' first
    | exact rfl | with_reducible exact Keeps.refl _ _ | with_reducible assumption
    | with_reducible refine (State.railFound_keeps _ _).then ?_ ?_
    | with_reducible refine (State.put_keeps _ _ _).then ?_ ?_
    | with_reducible refine (State.setPower_keeps _ _ ?_).then ?_ ?_
    | with_reducible refine (State.stagePassed_keeps _ _).then ?_ ?_ | with_reducible exact id
    | with_reducible exact fun h => SMap.wf_set _ _ _ _ h | with_reducible exact fun h => SMap.wf_setRun _ _ _ _ h
    | with_reducible exact fun h => SMap.wf_setRun _ _ _ _ (SMap.wf_setRun _ _ _ _ h)
    | with_reducible exact fun h => SMap.wf_fillRun _ _ _ _ _ h | with_reducible exact fun _ => SMap.wf_nil _
    | exact fun _ => SMap.wf_nil 0 | with_reducible refine Keeps.ite ?_ ?_
    | with_reducible refine Keeps.each ?_ (fun _ _ _ => ?_) | with_reducible refine Keeps.onlyIf ?_ (fun _ _ => ?_)
    | extract_lets | split | dsimp +zetaDelta only

theorem stagePassEffect_keeps (s : State) : Keeps [.regs, .power, .hk] s (stagePassEffect s) := by
  unfold stagePassEffect
  repeat' first
    | exact rfl | with_reducible exact Keeps.refl _ _ | with_reducible assumption
    | with_reducible refine (State.setPower_keeps _ _ ?_).then ?_ ?_
    | with_reducible refine (State.stagePassed_keeps _ _).then ?_ ?_
    | with_reducible refine (State.put_keeps _ _ _).then ?_ ?_
    | with_reducible refine (State.stage6Pass_keeps _).then ?_ ?_ | with_reducible exact id
    | with_reducible exact fun h => SMap.wf_set _ _ _ _ h | with_reducible exact fun h => SMap.wf_setRun _ _ _ _ h
    | with_reducible exact fun h => SMap.wf_setRun _ _ _ _ (SMap.wf_setRun _ _ _ _ h)
    | with_reducible exact fun h => SMap.wf_fillRun _ _ _ _ _ h | with_reducible exact fun _ => SMap.wf_nil _
    | exact fun _ => SMap.wf_nil 0 | with_reducible refine Keeps.ite ?_ ?_ | extract_lets | split
    | dsimp +zetaDelta only

theorem State.failStage_keeps (s : State) (k : Nat) : Keeps [.regs, .mgmt, .intc, .counts, .queues, .lanes, .pools,
    .ports, .hosts, .dies, .loader, .power, .time, .sched, .trig, .bcn, .syn, .mem, .ctx, .therm, .test, .cal, .hk,
    .tap] s (State.failStage s k) := by
  unfold State.failStage
  repeat' first
    | exact rfl | with_reducible exact Keeps.refl _ _ | with_reducible assumption
    | with_reducible refine (State.aonLost_keeps _).then ?_ ?_
    | with_reducible refine (State.railsOff_keeps _ _).then ?_ ?_
    | with_reducible refine (State.packageReset_keeps _).then ?_ ?_
    | with_reducible refine (State.setPower_keeps _ _ ?_).then ?_ ?_
    | with_reducible refine (State.put_keeps _ _ _).then ?_ ?_
    | with_reducible refine (State.putB_keeps _ _ _).then ?_ ?_
    | with_reducible refine (State.faultLow_keeps _ _).then ?_ ?_ | with_reducible exact id
    | with_reducible exact fun h => SMap.wf_set _ _ _ _ h | with_reducible exact fun h => SMap.wf_setRun _ _ _ _ h
    | with_reducible exact fun h => SMap.wf_setRun _ _ _ _ (SMap.wf_setRun _ _ _ _ h)
    | with_reducible exact fun h => SMap.wf_fillRun _ _ _ _ _ h | with_reducible exact fun _ => SMap.wf_nil _
    | exact fun _ => SMap.wf_nil 0 | with_reducible refine Keeps.ite ?_ ?_ | extract_lets | split
    | dsimp +zetaDelta only

theorem stageFailEffect_keeps (k : Nat) (s : State) : Keeps [.regs, .mgmt, .intc, .counts, .queues, .lanes, .pools,
    .ports, .hosts, .dies, .loader, .power, .time, .sched, .trig, .bcn, .syn, .mem, .ctx, .therm, .test, .cal, .hk,
    .tap] s (stageFailEffect k s) := by
  unfold stageFailEffect
  repeat' first
    | exact rfl | with_reducible exact Keeps.refl _ _ | with_reducible assumption
    | with_reducible refine (State.failStage_keeps _ _).then ?_ ?_ | with_reducible refine Keeps.ite ?_ ?_
    | extract_lets | split | dsimp +zetaDelta only

theorem stageRetryEffect_keeps (s : State) : Keeps [.regs, .power] s (stageRetryEffect s) := by
  unfold stageRetryEffect
  repeat' first
    | exact rfl | with_reducible exact Keeps.refl _ _ | with_reducible assumption
    | with_reducible refine (State.put_keeps _ _ _).then ?_ ?_
    | with_reducible refine (State.setPower_keeps _ _ ?_).then ?_ ?_ | with_reducible exact id
    | with_reducible exact fun h => SMap.wf_set _ _ _ _ h | with_reducible exact fun h => SMap.wf_setRun _ _ _ _ h
    | with_reducible exact fun h => SMap.wf_setRun _ _ _ _ (SMap.wf_setRun _ _ _ _ h)
    | with_reducible exact fun h => SMap.wf_fillRun _ _ _ _ _ h | with_reducible exact fun _ => SMap.wf_nil _
    | exact fun _ => SMap.wf_nil 0 | with_reducible refine Keeps.ite ?_ ?_
    | with_reducible refine Keeps.onlyIf ?_ (fun _ _ => ?_) | extract_lets | split | dsimp +zetaDelta only

theorem refclkPresentEffect_keeps (s : State) : Keeps [.regs, .power] s (refclkPresentEffect s) := by
  unfold refclkPresentEffect
  repeat' first
    | exact rfl | with_reducible exact Keeps.refl _ _ | with_reducible assumption
    | with_reducible refine (State.stagePassed_keeps _ _).then ?_ ?_
    | with_reducible refine (State.put_keeps _ _ _).then ?_ ?_ | with_reducible refine Keeps.ite ?_ ?_ | extract_lets
    | split | dsimp +zetaDelta only

theorem State.diesUp_keeps (s : State) : Keeps [.regs, .dies, .syn] s (State.diesUp s) := by
  unfold State.diesUp
  repeat' first
    | exact rfl | with_reducible exact Keeps.refl _ _ | with_reducible assumption
    | with_reducible refine (State.setDie_keeps _ _ _).then ?_ ?_
    | with_reducible refine (State.startSyn_keeps _ _).then ?_ ?_ | with_reducible refine Keeps.ite ?_ ?_
    | with_reducible refine Keeps.each ?_ (fun _ _ _ => ?_) | extract_lets | split | dsimp +zetaDelta only

theorem rpllLockEffect_keeps (s : State) : Keeps [.regs, .dies, .power, .syn, .mem] s (rpllLockEffect s) := by
  unfold rpllLockEffect
  repeat' first
    | exact rfl | with_reducible exact Keeps.refl _ _ | with_reducible assumption
    | with_reducible refine (State.stagePassed_keeps _ _).then ?_ ?_
    | with_reducible refine (State.put_keeps _ _ _).then ?_ ?_
    | with_reducible refine (State.setPower_keeps _ _ ?_).then ?_ ?_
    | with_reducible refine (State.startRetrain_keeps _).then ?_ ?_
    | with_reducible refine (State.diesUp_keeps _).then ?_ ?_ | with_reducible exact id
    | with_reducible exact fun h => SMap.wf_set _ _ _ _ h | with_reducible exact fun h => SMap.wf_setRun _ _ _ _ h
    | with_reducible exact fun h => SMap.wf_setRun _ _ _ _ (SMap.wf_setRun _ _ _ _ h)
    | with_reducible exact fun h => SMap.wf_fillRun _ _ _ _ _ h | with_reducible exact fun _ => SMap.wf_nil _
    | exact fun _ => SMap.wf_nil 0 | with_reducible refine Keeps.ite ?_ ?_
    | with_reducible refine Keeps.onlyIf ?_ (fun _ _ => ?_) | extract_lets | split | dsimp +zetaDelta only

theorem State.tileResult_keeps (s : State) (t : Nat) (retired : Bool) (failed : Bool) : Keeps [.regs] s
    (State.tileResult s t retired failed) := by
  unfold State.tileResult
  repeat' first
    | exact rfl | with_reducible exact Keeps.refl _ _ | with_reducible assumption
    | with_reducible refine (State.putB_keeps _ _ _).then ?_ ?_
    | with_reducible refine (State.put_keeps _ _ _).then ?_ ?_ | with_reducible refine Keeps.ite ?_ ?_ | extract_lets
    | split | dsimp +zetaDelta only

theorem State.dieResult_keeps (s : State) (d : Nat) (failed : Nat) (retired : Nat) (fuse : Nat) : Keeps [.freeCtr,
    .regs] s (State.dieResult s d failed retired fuse) := by
  unfold State.dieResult
  repeat' first
    | exact rfl | with_reducible exact Keeps.refl _ _ | with_reducible assumption
    | with_reducible refine (State.put_keeps _ _ _).then ?_ ?_
    | with_reducible refine (State.freed_keeps _).then ?_ ?_ | with_reducible refine Keeps.ite ?_ ?_ | extract_lets
    | split | dsimp +zetaDelta only

theorem State.bistResults_keeps (s : State) (failed : List Nat) (es : List (List Nat)) : Keeps [.freeCtr, .regs] s
    (State.bistResults s failed es) := by
  unfold State.bistResults
  repeat' first
    | exact rfl | with_reducible exact Keeps.refl _ _ | with_reducible assumption
    | with_reducible refine (State.tileResult_keeps _ _ _ _).then ?_ ?_
    | with_reducible refine (State.dieResult_keeps _ _ _ _ _).then ?_ ?_
    | with_reducible refine (State.put_keeps _ _ _).then ?_ ?_ | with_reducible refine Keeps.ite ?_ ?_
    | with_reducible refine Keeps.each ?_ (fun _ _ _ => ?_) | extract_lets | split | dsimp +zetaDelta only

theorem bistCompleteEffect_keeps (failed : List Nat) (s : State) : Keeps [.freeCtr, .regs, .power] s
    (bistCompleteEffect failed s) := by
  unfold bistCompleteEffect
  repeat' first
    | exact rfl | with_reducible exact Keeps.refl _ _ | with_reducible assumption
    | with_reducible refine (State.put_keeps _ _ _).then ?_ ?_
    | with_reducible refine (State.bistResults_keeps _ _ _).then ?_ ?_
    | with_reducible refine (State.setPower_keeps _ _ ?_).then ?_ ?_
    | with_reducible refine (State.faultLow_keeps _ _).then ?_ ?_
    | with_reducible refine (State.faultHigh_keeps _).then ?_ ?_ | with_reducible exact id
    | with_reducible exact fun h => SMap.wf_set _ _ _ _ h | with_reducible exact fun h => SMap.wf_setRun _ _ _ _ h
    | with_reducible exact fun h => SMap.wf_setRun _ _ _ _ (SMap.wf_setRun _ _ _ _ h)
    | with_reducible exact fun h => SMap.wf_fillRun _ _ _ _ _ h | with_reducible exact fun _ => SMap.wf_nil _
    | exact fun _ => SMap.wf_nil 0 | with_reducible refine Keeps.ite ?_ ?_
    | with_reducible refine Keeps.onlyIf ?_ (fun _ _ => ?_) | extract_lets | split | dsimp +zetaDelta only

theorem State.wakeFrom_keeps (s : State) (slot : Nat) : Keeps [.regs, .power] s (State.wakeFrom s slot) := by
  unfold State.wakeFrom
  repeat' first
    | exact rfl | with_reducible exact Keeps.refl _ _ | with_reducible assumption
    | with_reducible refine (State.put_keeps _ _ _).then ?_ ?_
    | with_reducible refine (State.setPower_keeps _ _ ?_).then ?_ ?_ | with_reducible exact id
    | with_reducible exact fun h => SMap.wf_set _ _ _ _ h | with_reducible exact fun h => SMap.wf_setRun _ _ _ _ h
    | with_reducible exact fun h => SMap.wf_setRun _ _ _ _ (SMap.wf_setRun _ _ _ _ h)
    | with_reducible exact fun h => SMap.wf_fillRun _ _ _ _ _ h | with_reducible exact fun _ => SMap.wf_nil _
    | exact fun _ => SMap.wf_nil 0 | with_reducible refine Keeps.ite ?_ ?_ | extract_lets | split
    | dsimp +zetaDelta only

theorem resetNAssertEffect_keeps (s : State) : Keeps [.regs, .mgmt, .intc, .counts, .queues, .lanes, .pools, .ports,
    .hosts, .dies, .loader, .power, .time, .sched, .trig, .bcn, .syn, .mem, .ctx, .therm, .test, .cal, .hk] s
    (resetNAssertEffect s) := by
  unfold resetNAssertEffect
  repeat' first
    | exact rfl | with_reducible exact Keeps.refl _ _ | with_reducible assumption
    | with_reducible refine (State.setPower_keeps _ _ ?_).then ?_ ?_
    | with_reducible refine (State.resetAsserted_keeps _).then ?_ ?_
    | with_reducible refine (State.wakeFrom_keeps _ _).then ?_ ?_ | with_reducible exact id
    | with_reducible exact fun h => SMap.wf_set _ _ _ _ h | with_reducible exact fun h => SMap.wf_setRun _ _ _ _ h
    | with_reducible exact fun h => SMap.wf_setRun _ _ _ _ (SMap.wf_setRun _ _ _ _ h)
    | with_reducible exact fun h => SMap.wf_fillRun _ _ _ _ _ h | with_reducible exact fun _ => SMap.wf_nil _
    | exact fun _ => SMap.wf_nil 0 | with_reducible refine Keeps.ite ?_ ?_ | extract_lets | split
    | dsimp +zetaDelta only

theorem State.resetReleased_keeps (s : State) : Keeps [.regs, .power] s (State.resetReleased s) := by
  unfold State.resetReleased
  repeat' first
    | exact rfl | with_reducible exact Keeps.refl _ _ | with_reducible assumption
    | with_reducible refine (State.put_keeps _ _ _).then ?_ ?_
    | with_reducible refine (State.faultHigh_keeps _).then ?_ ?_
    | with_reducible refine (State.setPower_keeps _ _ ?_).then ?_ ?_ | with_reducible exact id
    | with_reducible exact fun h => SMap.wf_set _ _ _ _ h | with_reducible exact fun h => SMap.wf_setRun _ _ _ _ h
    | with_reducible exact fun h => SMap.wf_setRun _ _ _ _ (SMap.wf_setRun _ _ _ _ h)
    | with_reducible exact fun h => SMap.wf_fillRun _ _ _ _ _ h | with_reducible exact fun _ => SMap.wf_nil _
    | exact fun _ => SMap.wf_nil 0 | with_reducible refine Keeps.ite ?_ ?_ | extract_lets | split
    | dsimp +zetaDelta only

theorem resetNReleaseEffect_keeps (s : State) : Keeps [.regs, .power] s (resetNReleaseEffect s) := by
  unfold resetNReleaseEffect
  repeat' first
    | exact rfl | with_reducible exact Keeps.refl _ _ | with_reducible assumption
    | with_reducible refine (State.resetReleased_keeps _).then ?_ ?_
    | with_reducible refine (State.setPower_keeps _ _ ?_).then ?_ ?_ | with_reducible exact id
    | with_reducible exact fun h => SMap.wf_set _ _ _ _ h | with_reducible exact fun h => SMap.wf_setRun _ _ _ _ h
    | with_reducible exact fun h => SMap.wf_setRun _ _ _ _ (SMap.wf_setRun _ _ _ _ h)
    | with_reducible exact fun h => SMap.wf_fillRun _ _ _ _ _ h | with_reducible exact fun _ => SMap.wf_nil _
    | exact fun _ => SMap.wf_nil 0 | with_reducible refine Keeps.ite ?_ ?_ | extract_lets | split
    | dsimp +zetaDelta only

theorem State.tapLeaves_keeps (s : State) : Keeps [.regs, .power] s (State.tapLeaves s) := by
  unfold State.tapLeaves
  repeat' first
    | exact rfl | with_reducible exact Keeps.refl _ _ | with_reducible assumption
    | with_reducible refine (State.resetReleased_keeps _).then ?_ ?_
    | with_reducible refine (State.put_keeps _ _ _).then ?_ ?_ | with_reducible refine Keeps.ite ?_ ?_
    | with_reducible refine Keeps.onlyIf ?_ (fun _ _ => ?_) | extract_lets | split | dsimp +zetaDelta only

theorem jtagInstructionEffect_keeps (ir : TapInstr) (s : State) : Keeps [.regs, .mgmt, .intc, .counts, .queues,
    .lanes, .pools, .ports, .hosts, .dies, .loader, .power, .time, .sched, .trig, .bcn, .syn, .mem, .ctx, .therm,
    .test, .cal, .hk, .tap] s (jtagInstructionEffect ir s) := by
  unfold jtagInstructionEffect
  repeat' first
    | exact rfl | with_reducible exact Keeps.refl _ _ | with_reducible assumption
    | with_reducible refine (State.packageReset_keeps _).then ?_ ?_
    | with_reducible refine (State.tapLeaves_keeps _).then ?_ ?_ | exact Or.inr (by decide)
    | with_reducible exact Or.inl rfl | with_reducible exact id | with_reducible refine Keeps.ite ?_ ?_ | extract_lets
    | split | with_reducible apply Keeps.upd | dsimp +zetaDelta only
    | with_reducible exact fun h => SMap.wf_set _ _ _ _ h | with_reducible exact fun h => SMap.rising_set _ _ _ _ h
    | with_reducible exact fun h => SMap.rising_drop _ _ h | with_reducible exact fun h => SMap.wf_setRun _ _ _ _ h
    | with_reducible exact fun h => SMap.wf_setRun _ _ _ _ (SMap.wf_setRun _ _ _ _ h)
    | with_reducible exact fun h => SMap.wf_fillRun _ _ _ _ _ h | with_reducible exact fun h => SMap.wf_drop _ _ _ h
    | with_reducible exact fun _ => SMap.wf_nil _ | with_reducible exact fun h => by simpa using h | exact id

theorem jtagInstructionExitEffect_keeps (s : State) : Keeps [.regs, .power, .tap] s (jtagInstructionExitEffect s) :=
    by
  unfold jtagInstructionExitEffect
  repeat' first
    | exact rfl | with_reducible exact Keeps.refl _ _ | with_reducible assumption
    | with_reducible refine (State.tapLeaves_keeps _).then ?_ ?_ | exact Or.inr (by decide)
    | with_reducible exact Or.inl rfl | with_reducible exact id | with_reducible refine Keeps.ite ?_ ?_ | extract_lets
    | split | with_reducible apply Keeps.upd | dsimp +zetaDelta only
    | with_reducible exact fun h => SMap.wf_set _ _ _ _ h | with_reducible exact fun h => SMap.rising_set _ _ _ _ h
    | with_reducible exact fun h => SMap.rising_drop _ _ h | with_reducible exact fun h => SMap.wf_setRun _ _ _ _ h
    | with_reducible exact fun h => SMap.wf_setRun _ _ _ _ (SMap.wf_setRun _ _ _ _ h)
    | with_reducible exact fun h => SMap.wf_fillRun _ _ _ _ _ h | with_reducible exact fun h => SMap.wf_drop _ _ _ h
    | with_reducible exact fun _ => SMap.wf_nil _ | with_reducible exact fun h => by simpa using h | exact id

theorem shutdownHoldEffect_keeps (s : State) : Keeps [.regs, .mgmt, .intc, .counts, .queues, .lanes, .pools, .ports,
    .hosts, .dies, .loader, .power, .time, .sched, .trig, .bcn, .syn, .mem, .ctx, .therm, .test, .cal, .hk] s
    (shutdownHoldEffect s) := by
  unfold shutdownHoldEffect
  repeat' first
    | exact rfl | with_reducible exact Keeps.refl _ _ | with_reducible assumption
    | with_reducible refine (State.packageReset_keeps _).then ?_ ?_
    | with_reducible refine (State.put_keeps _ _ _).then ?_ ?_
    | with_reducible refine (State.faultLow_keeps _ _).then ?_ ?_ | exact Or.inr (by decide)
    | with_reducible exact Or.inl rfl | with_reducible exact id | with_reducible refine Keeps.ite ?_ ?_
    | with_reducible refine Keeps.onlyIf ?_ (fun _ _ => ?_) | extract_lets | split | with_reducible apply Keeps.upd
    | dsimp +zetaDelta only | with_reducible exact fun h => SMap.wf_set _ _ _ _ h
    | with_reducible exact fun h => SMap.rising_set _ _ _ _ h | with_reducible exact fun h => SMap.rising_drop _ _ h
    | with_reducible exact fun h => SMap.wf_setRun _ _ _ _ h
    | with_reducible exact fun h => SMap.wf_setRun _ _ _ _ (SMap.wf_setRun _ _ _ _ h)
    | with_reducible exact fun h => SMap.wf_fillRun _ _ _ _ _ h | with_reducible exact fun h => SMap.wf_drop _ _ _ h
    | with_reducible exact fun _ => SMap.wf_nil _ | with_reducible exact fun h => by simpa using h | exact id

theorem railFailureEffect_keeps (k : Nat) (s : State) : Keeps [.regs, .mgmt, .intc, .counts, .queues, .lanes,
    .pools, .ports, .hosts, .dies, .loader, .power, .time, .sched, .trig, .bcn, .syn, .mem, .ctx, .therm, .test,
    .cal, .hk, .tap] s (railFailureEffect k s) := by
  unfold railFailureEffect
  repeat' first
    | exact rfl | with_reducible exact Keeps.refl _ _ | with_reducible assumption
    | with_reducible refine (State.setPower_keeps _ _ ?_).then ?_ ?_
    | with_reducible refine (State.failStage_keeps _ _).then ?_ ?_ | exact Or.inr (by decide)
    | with_reducible exact Or.inl rfl | with_reducible exact id | with_reducible exact fun h => SMap.wf_set _ _ _ _ h
    | with_reducible exact fun h => SMap.wf_setRun _ _ _ _ h
    | with_reducible exact fun h => SMap.wf_setRun _ _ _ _ (SMap.wf_setRun _ _ _ _ h)
    | with_reducible exact fun h => SMap.wf_fillRun _ _ _ _ _ h | with_reducible exact fun _ => SMap.wf_nil _
    | exact fun _ => SMap.wf_nil 0 | with_reducible refine Keeps.ite ?_ ?_
    | with_reducible refine Keeps.onlyIf ?_ (fun _ _ => ?_) | extract_lets | split | with_reducible apply Keeps.upd
    | dsimp +zetaDelta only | with_reducible exact fun h => SMap.wf_set _ _ _ _ h
    | with_reducible exact fun h => SMap.rising_set _ _ _ _ h | with_reducible exact fun h => SMap.rising_drop _ _ h
    | with_reducible exact fun h => SMap.wf_setRun _ _ _ _ h
    | with_reducible exact fun h => SMap.wf_setRun _ _ _ _ (SMap.wf_setRun _ _ _ _ h)
    | with_reducible exact fun h => SMap.wf_fillRun _ _ _ _ _ h | with_reducible exact fun h => SMap.wf_drop _ _ _ h
    | with_reducible exact fun _ => SMap.wf_nil _ | with_reducible exact fun h => by simpa using h | exact id

theorem State.startD0_keeps (s : State) (primary : List (Nat × WordErr)) (mirror : List (Nat × WordErr)) : Keeps
    [.regs, .loader, .mram, .power, .time, .ctx, .cal] s (State.startD0 s primary mirror) := by
  unfold State.startD0
  repeat' first
    | exact rfl | with_reducible exact Keeps.refl _ _ | with_reducible assumption
    | with_reducible refine (State.setPower_keeps _ _ ?_).then ?_ ?_
    | with_reducible refine (State.putB_keeps _ _ _).then ?_ ?_
    | with_reducible refine (State.calAtReset_keeps _).then ?_ ?_
    | with_reducible refine (State.calUpsets_keeps _ _ _).then ?_ ?_
    | with_reducible refine (State.raise_keeps _ _).then ?_ ?_ | exact Or.inr (by decide)
    | with_reducible exact Or.inl rfl | with_reducible exact id | with_reducible exact fun h => SMap.wf_set _ _ _ _ h
    | with_reducible exact fun h => SMap.wf_setRun _ _ _ _ h
    | with_reducible exact fun h => SMap.wf_setRun _ _ _ _ (SMap.wf_setRun _ _ _ _ h)
    | with_reducible exact fun h => SMap.wf_fillRun _ _ _ _ _ h | with_reducible exact fun _ => SMap.wf_nil _
    | exact fun _ => SMap.wf_nil 0 | with_reducible refine Keeps.ite ?_ ?_
    | with_reducible refine Keeps.onlyIf ?_ (fun _ _ => ?_) | extract_lets | split | with_reducible apply Keeps.upd
    | dsimp +zetaDelta only | with_reducible exact fun h => SMap.wf_set _ _ _ _ h
    | with_reducible exact fun h => SMap.rising_set _ _ _ _ h | with_reducible exact fun h => SMap.rising_drop _ _ h
    | with_reducible exact fun h => SMap.wf_setRun _ _ _ _ h
    | with_reducible exact fun h => SMap.wf_setRun _ _ _ _ (SMap.wf_setRun _ _ _ _ h)
    | with_reducible exact fun h => SMap.wf_fillRun _ _ _ _ _ h | with_reducible exact fun h => SMap.wf_drop _ _ _ h
    | with_reducible exact fun _ => SMap.wf_nil _ | with_reducible exact fun h => by simpa using h | exact id

theorem d0ResetEndEffect_keeps (primary : List (Nat × WordErr)) (mirror : List (Nat × WordErr)) (s : State) : Keeps
    [.regs, .dies, .loader, .mram, .power, .time, .syn, .mem, .ctx, .cal] s (d0ResetEndEffect primary mirror s) :=
    by
  unfold d0ResetEndEffect
  repeat' first
    | exact rfl | with_reducible exact Keeps.refl _ _ | with_reducible assumption
    | with_reducible refine (State.startD0_keeps _ _ _).then ?_ ?_
    | with_reducible refine (State.startRetrain_keeps _).then ?_ ?_
    | with_reducible refine (State.diesUp_keeps _).then ?_ ?_ | with_reducible refine Keeps.ite ?_ ?_ | extract_lets
    | split | dsimp +zetaDelta only

theorem State.selfRefresh_keeps (s : State) : Keeps [.regs] s (State.selfRefresh s) := by
  unfold State.selfRefresh
  repeat' first
    | exact rfl | with_reducible exact Keeps.refl _ _ | with_reducible assumption
    | with_reducible refine (State.put_keeps _ _ _).then ?_ ?_ | with_reducible refine Keeps.ite ?_ ?_ | extract_lets
    | split | dsimp +zetaDelta only

theorem State.wakeD3_keeps (s : State) : Keeps [.regs, .mem] s (State.wakeD3 s) := by
  unfold State.wakeD3
  repeat' first
    | exact rfl | with_reducible exact Keeps.refl _ _ | with_reducible assumption
    | with_reducible refine (State.startRetrain_keeps _).then ?_ ?_
    | with_reducible refine (State.put_keeps _ _ _).then ?_ ?_ | with_reducible refine Keeps.ite ?_ ?_ | extract_lets
    | split | dsimp +zetaDelta only

theorem State.diesDown_keeps (s : State) : Keeps [.freeCtr, .regs, .mgmt, .counts, .queues, .lanes, .pools, .ports,
    .hosts, .dies, .loader, .bcn, .syn, .mem, .ctx, .therm, .test, .cal] s (State.diesDown s) := by
  unfold State.diesDown
  repeat' first
    | exact rfl | with_reducible exact Keeps.refl _ _ | with_reducible assumption
    | with_reducible refine (State.dieReset_keeps _ _).then ?_ ?_ | with_reducible refine Keeps.ite ?_ ?_
    | with_reducible refine Keeps.each ?_ (fun _ _ _ => ?_) | with_reducible refine Keeps.onlyIf ?_ (fun _ _ => ?_)
    | extract_lets | split | dsimp +zetaDelta only

theorem refclkLostEffect_keeps (s : State) : Keeps [.freeCtr, .regs, .mgmt, .counts, .queues, .lanes, .pools,
    .ports, .hosts, .dies, .loader, .power, .time, .bcn, .syn, .mem, .ctx, .therm, .test, .cal] s (refclkLostEffect
    s) := by
  unfold refclkLostEffect
  repeat' first
    | exact rfl | with_reducible exact Keeps.refl _ _ | with_reducible assumption
    | with_reducible refine (State.put_keeps _ _ _).then ?_ ?_
    | with_reducible refine (State.setPower_keeps _ _ ?_).then ?_ ?_
    | with_reducible refine (State.abortFills_keeps _).then ?_ ?_
    | with_reducible refine (State.diesDown_keeps _).then ?_ ?_
    | with_reducible refine (State.raise_keeps _ _).then ?_ ?_
    | with_reducible refine (State.abortWhere_keeps _ _ _).then ?_ ?_
    | with_reducible refine (State.setHost_keeps _ _ _).then ?_ ?_
    | with_reducible refine (State.selfRefresh_keeps _).then ?_ ?_ | exact Or.inr (by decide)
    | with_reducible exact Or.inl rfl | with_reducible exact id | with_reducible exact fun h => SMap.wf_set _ _ _ _ h
    | with_reducible exact fun h => SMap.wf_setRun _ _ _ _ h
    | with_reducible exact fun h => SMap.wf_setRun _ _ _ _ (SMap.wf_setRun _ _ _ _ h)
    | with_reducible exact fun h => SMap.wf_fillRun _ _ _ _ _ h | with_reducible exact fun _ => SMap.wf_nil _
    | exact fun _ => SMap.wf_nil 0 | with_reducible refine Keeps.ite ?_ ?_
    | with_reducible refine Keeps.each ?_ (fun _ _ _ => ?_) | with_reducible refine Keeps.onlyIf ?_ (fun _ _ => ?_)
    | extract_lets | split | with_reducible apply Keeps.upd | dsimp +zetaDelta only
    | with_reducible exact fun h => SMap.wf_set _ _ _ _ h | with_reducible exact fun h => SMap.rising_set _ _ _ _ h
    | with_reducible exact fun h => SMap.rising_drop _ _ h | with_reducible exact fun h => SMap.wf_setRun _ _ _ _ h
    | with_reducible exact fun h => SMap.wf_setRun _ _ _ _ (SMap.wf_setRun _ _ _ _ h)
    | with_reducible exact fun h => SMap.wf_fillRun _ _ _ _ _ h | with_reducible exact fun h => SMap.wf_drop _ _ _ h
    | with_reducible exact fun _ => SMap.wf_nil _ | with_reducible exact fun h => by simpa using h | exact id

theorem State.restartHosts_keeps (s : State) : Keeps [.freeCtr, .regs, .ports, .hosts] s (State.restartHosts s) :=
    by
  unfold State.restartHosts
  repeat' first
    | exact rfl | with_reducible exact Keeps.refl _ _ | with_reducible assumption
    | with_reducible refine (State.put_keeps _ _ _).then ?_ ?_
    | with_reducible refine (State.restartPort_keeps _ _).then ?_ ?_ | with_reducible refine Keeps.ite ?_ ?_
    | with_reducible refine Keeps.each ?_ (fun _ _ _ => ?_) | with_reducible refine Keeps.onlyIf ?_ (fun _ _ => ?_)
    | extract_lets | split | dsimp +zetaDelta only

theorem refclkReturnEffect_keeps (s : State) : Keeps [.freeCtr, .regs, .mgmt, .intc, .counts, .queues, .lanes,
    .pools, .ports, .hosts, .dies, .loader, .power, .time, .sched, .trig, .bcn, .syn, .mem, .ctx, .therm, .test,
    .cal, .hk] s (refclkReturnEffect s) := by
  unfold refclkReturnEffect
  repeat' first
    | exact rfl | with_reducible exact Keeps.refl _ _ | with_reducible assumption
    | with_reducible refine (State.put_keeps _ _ _).then ?_ ?_
    | with_reducible refine (State.setPower_keeps _ _ ?_).then ?_ ?_
    | with_reducible refine (State.timeRestarts_keeps _).then ?_ ?_
    | with_reducible refine (State.restartHosts_keeps _).then ?_ ?_
    | with_reducible refine (State.wakeD3_keeps _).then ?_ ?_
    | with_reducible refine (State.reapplyDie_keeps _ _).then ?_ ?_ | with_reducible exact id
    | with_reducible exact fun h => SMap.wf_set _ _ _ _ h | with_reducible exact fun h => SMap.wf_setRun _ _ _ _ h
    | with_reducible exact fun h => SMap.wf_setRun _ _ _ _ (SMap.wf_setRun _ _ _ _ h)
    | with_reducible exact fun h => SMap.wf_fillRun _ _ _ _ _ h | with_reducible exact fun _ => SMap.wf_nil _
    | exact fun _ => SMap.wf_nil 0 | with_reducible refine Keeps.ite ?_ ?_
    | with_reducible refine Keeps.each ?_ (fun _ _ _ => ?_) | with_reducible refine Keeps.onlyIf ?_ (fun _ _ => ?_)
    | extract_lets | split | dsimp +zetaDelta only

end Sys2Proof.Machine
end

