-- ==== Sys2Proof/Laws/KeepsPower.lean ====
section
/-!
SUPPORT. What each operation of Machine/Power.lean leaves unchanged, and that it keeps the canonical form.
-/

namespace Sys2Proof.Machine

open Sys2Proof

theorem State.startDrain_keeps (s : State) (d : Domain) : Keeps [.regs, .power] s (State.startDrain s d) := by
  unfold State.startDrain
  repeat' first
    | exact rfl | with_reducible exact Keeps.refl _ _ | with_reducible assumption
    | with_reducible refine (State.setReason_keeps _ _ _ _).then ?_ ?_
    | with_reducible refine (State.setPower_keeps _ _ ?_).then ?_ ?_ | with_reducible exact id
    | with_reducible exact fun h => SMap.wf_set _ _ _ _ h | with_reducible exact fun h => SMap.wf_setRun _ _ _ _ h
    | with_reducible exact fun h => SMap.wf_setRun _ _ _ _ (SMap.wf_setRun _ _ _ _ h)
    | with_reducible exact fun h => SMap.wf_fillRun _ _ _ _ _ h | with_reducible exact fun _ => SMap.wf_nil _
    | exact fun _ => SMap.wf_nil 0 | with_reducible refine Keeps.ite ?_ ?_
    | with_reducible refine Keeps.each ?_ (fun _ _ _ => ?_) | extract_lets | split | dsimp +zetaDelta only

theorem State.parkLane_keeps (s : State) (n : Nat) : Keeps [.freeCtr, .regs, .queues, .lanes, .ports, .hosts, .dies,
    .bcn, .syn] s (State.parkLane s n) := by
  unfold State.parkLane
  repeat' first
    | exact rfl | with_reducible exact Keeps.refl _ _ | with_reducible assumption
    | with_reducible refine (State.truncFrame_keeps _ _).then ?_ ?_
    | with_reducible refine (State.emptyLane_keeps _ _ _).then ?_ ?_
    | with_reducible refine (State.put_keeps _ _ _).then ?_ ?_
    | with_reducible refine (State.setBcn_keeps _ _ _).then ?_ ?_
    | with_reducible refine (State.lockGone_keeps _ _).then ?_ ?_
    | with_reducible refine (State.enterDark_keeps _ _ _).then ?_ ?_ | with_reducible refine Keeps.ite ?_ ?_
    | with_reducible refine Keeps.onlyIf ?_ (fun _ _ => ?_) | extract_lets | split | dsimp +zetaDelta only

theorem State.stopSyn_keeps (s : State) (r : Nat) : Keeps [.regs, .syn] s (State.stopSyn s r) := by
  unfold State.stopSyn
  repeat' first
    | exact rfl | with_reducible exact Keeps.refl _ _ | with_reducible assumption
    | with_reducible refine (State.put_keeps _ _ _).then ?_ ?_
    | with_reducible refine (State.setSyn_keeps _ _ _).then ?_ ?_ | with_reducible refine Keeps.ite ?_ ?_
    | extract_lets | split | dsimp +zetaDelta only

theorem State.parkGroup_keeps (s : State) (g : Nat) : Keeps [.freeCtr, .regs, .queues, .lanes, .ports, .hosts,
    .dies, .bcn, .syn] s (State.parkGroup s g) := by
  unfold State.parkGroup
  repeat' first
    | exact rfl | with_reducible exact Keeps.refl _ _ | with_reducible assumption
    | with_reducible refine (State.parkLane_keeps _ _).then ?_ ?_
    | with_reducible refine (State.stopSyn_keeps _ _).then ?_ ?_ | with_reducible refine Keeps.ite ?_ ?_
    | with_reducible refine Keeps.each ?_ (fun _ _ _ => ?_) | extract_lets | split | dsimp +zetaDelta only

theorem State.gateRegion_keeps (s : State) (r : Nat) : Keeps [.freeCtr, .regs, .queues, .lanes, .pools, .ports,
    .hosts, .dies, .bcn, .syn, .ctx] s (State.gateRegion s r) := by
  unfold State.gateRegion
  repeat' first
    | exact rfl | with_reducible exact Keeps.refl _ _ | with_reducible assumption
    | with_reducible refine (State.put_keeps _ _ _).then ?_ ?_
    | with_reducible refine (State.loseRegion_keeps _ _).then ?_ ?_
    | with_reducible refine (State.setReason_keeps _ _ _ _).then ?_ ?_ | with_reducible refine Keeps.ite ?_ ?_
    | with_reducible refine Keeps.each ?_ (fun _ _ _ => ?_) | extract_lets | split | dsimp +zetaDelta only

theorem State.enterStandby_keeps (s : State) : Keeps [.regs, .mgmt, .intc, .counts, .queues, .lanes, .pools, .ports,
    .hosts, .dies, .loader, .power, .time, .sched, .trig, .bcn, .syn, .mem, .ctx, .therm, .test, .cal, .hk, .tap] s
    (State.enterStandby s) := by
  unfold State.enterStandby
  repeat' first
    | exact rfl | with_reducible exact Keeps.refl _ _ | with_reducible assumption
    | with_reducible refine (State.put_keeps _ _ _).then ?_ ?_
    | with_reducible refine (State.packageReset_keeps _).then ?_ ?_
    | with_reducible refine (State.setPower_keeps _ _ ?_).then ?_ ?_ | exact Or.inr (by decide)
    | with_reducible exact Or.inl rfl | with_reducible exact id | with_reducible exact fun h => SMap.wf_set _ _ _ _ h
    | with_reducible exact fun h => SMap.wf_setRun _ _ _ _ h
    | with_reducible exact fun h => SMap.wf_setRun _ _ _ _ (SMap.wf_setRun _ _ _ _ h)
    | with_reducible exact fun h => SMap.wf_fillRun _ _ _ _ _ h | with_reducible exact fun _ => SMap.wf_nil _
    | exact fun _ => SMap.wf_nil 0 | with_reducible refine Keeps.ite ?_ ?_ | extract_lets | split
    | with_reducible apply Keeps.upd | dsimp +zetaDelta only | with_reducible exact fun h => SMap.wf_set _ _ _ _ h
    | with_reducible exact fun h => SMap.rising_set _ _ _ _ h | with_reducible exact fun h => SMap.rising_drop _ _ h
    | with_reducible exact fun h => SMap.wf_setRun _ _ _ _ h
    | with_reducible exact fun h => SMap.wf_setRun _ _ _ _ (SMap.wf_setRun _ _ _ _ h)
    | with_reducible exact fun h => SMap.wf_fillRun _ _ _ _ _ h | with_reducible exact fun h => SMap.wf_drop _ _ _ h
    | with_reducible exact fun _ => SMap.wf_nil _ | with_reducible exact fun h => by simpa using h | exact id

theorem State.endDrain_keeps (s : State) (d : Domain) : Keeps [.freeCtr, .regs, .mgmt, .intc, .counts, .queues,
    .lanes, .pools, .ports, .hosts, .dies, .loader, .power, .time, .sched, .trig, .bcn, .syn, .mem, .ctx, .therm,
    .test, .cal, .hk, .tap] s (State.endDrain s d) := by
  unfold State.endDrain
  repeat' first
    | exact rfl | with_reducible exact Keeps.refl _ _ | with_reducible assumption
    | with_reducible refine (State.setPower_keeps _ _ ?_).then ?_ ?_
    | with_reducible refine (State.parkGroup_keeps _ _).then ?_ ?_
    | with_reducible refine (State.gateRegion_keeps _ _).then ?_ ?_
    | with_reducible refine (State.enterStandby_keeps _).then ?_ ?_ | with_reducible exact id
    | with_reducible exact fun h => SMap.wf_set _ _ _ _ h | with_reducible exact fun h => SMap.wf_setRun _ _ _ _ h
    | with_reducible exact fun h => SMap.wf_setRun _ _ _ _ (SMap.wf_setRun _ _ _ _ h)
    | with_reducible exact fun h => SMap.wf_fillRun _ _ _ _ _ h | with_reducible exact fun _ => SMap.wf_nil _
    | exact fun _ => SMap.wf_nil 0 | with_reducible refine Keeps.ite ?_ ?_ | extract_lets | split
    | dsimp +zetaDelta only

theorem State.endWaitCmd_keeps (s : State) (w : List Nat) (st : Status) : Keeps [.regs, .mgmt, .power] s
    (State.endWaitCmd s w st) := by
  unfold State.endWaitCmd
  repeat' first
    | exact rfl | with_reducible exact Keeps.refl _ _ | with_reducible assumption
    | with_reducible refine (State.setPower_keeps _ _ ?_).then ?_ ?_
    | with_reducible refine (State.complete_keeps _ _ _ _ _ _ _).then ?_ ?_
    | with_reducible refine (State.put_keeps _ _ _).then ?_ ?_ | with_reducible exact id
    | with_reducible exact fun h => SMap.wf_set _ _ _ _ h | with_reducible exact fun h => SMap.wf_setRun _ _ _ _ h
    | with_reducible exact fun h => SMap.wf_setRun _ _ _ _ (SMap.wf_setRun _ _ _ _ h)
    | with_reducible exact fun h => SMap.wf_fillRun _ _ _ _ _ h | with_reducible exact fun _ => SMap.wf_nil _
    | exact fun _ => SMap.wf_nil 0 | with_reducible refine Keeps.ite ?_ ?_ | extract_lets | split
    | dsimp +zetaDelta only

theorem State.finishWait_keeps (s : State) (w : List Nat) : Keeps [.regs, .mgmt, .power] s (State.finishWait s w) :=
    by
  unfold State.finishWait
  repeat' first
    | exact rfl | with_reducible exact Keeps.refl _ _ | with_reducible assumption
    | with_reducible refine (State.put_keeps _ _ _).then ?_ ?_
    | with_reducible refine (State.endWaitCmd_keeps _ _ _).then ?_ ?_ | with_reducible refine Keeps.ite ?_ ?_
    | extract_lets | split | dsimp +zetaDelta only

theorem State.beginDrain_keeps (s : State) (d : Domain) : Keeps [.regs, .power] s (State.beginDrain s d) := by
  unfold State.beginDrain
  repeat' first
    | exact rfl | with_reducible exact Keeps.refl _ _ | with_reducible assumption
    | with_reducible refine (State.startDrain_keeps _ _).then ?_ ?_ | with_reducible refine Keeps.ite ?_ ?_
    | extract_lets | split | dsimp +zetaDelta only

theorem State.beginReturn_keeps (s : State) (d : Domain) : Keeps [.power] s (State.beginReturn s d) := by
  unfold State.beginReturn
  repeat' first
    | exact rfl | with_reducible exact Keeps.refl _ _ | with_reducible assumption
    | with_reducible refine (State.setPower_keeps _ _ ?_).then ?_ ?_ | with_reducible exact id
    | with_reducible exact fun h => SMap.wf_set _ _ _ _ h | with_reducible exact fun h => SMap.wf_setRun _ _ _ _ h
    | with_reducible exact fun h => SMap.wf_setRun _ _ _ _ (SMap.wf_setRun _ _ _ _ h)
    | with_reducible exact fun h => SMap.wf_fillRun _ _ _ _ _ h | with_reducible exact fun _ => SMap.wf_nil _
    | exact fun _ => SMap.wf_nil 0 | with_reducible refine Keeps.ite ?_ ?_ | extract_lets | split
    | dsimp +zetaDelta only

theorem State.parkPhase_keeps (s : State) : Keeps [.regs, .power] s (State.parkPhase s) := by
  unfold State.parkPhase
  repeat' first
    | exact rfl | with_reducible exact Keeps.refl _ _ | with_reducible assumption
    | with_reducible refine (State.beginDrain_keeps _ _).then ?_ ?_
    | with_reducible refine (State.beginReturn_keeps _ _).then ?_ ?_ | with_reducible refine Keeps.ite ?_ ?_
    | with_reducible refine Keeps.each ?_ (fun _ _ _ => ?_) | extract_lets | split | dsimp +zetaDelta only

theorem State.gatePhase_keeps (s : State) : Keeps [.regs, .power] s (State.gatePhase s) := by
  unfold State.gatePhase
  repeat' first
    | exact rfl | with_reducible exact Keeps.refl _ _ | with_reducible assumption
    | with_reducible refine (State.beginDrain_keeps _ _).then ?_ ?_
    | with_reducible refine (State.beginReturn_keeps _ _).then ?_ ?_ | with_reducible refine Keeps.ite ?_ ?_
    | with_reducible refine Keeps.each ?_ (fun _ _ _ => ?_) | extract_lets | split | dsimp +zetaDelta only

theorem State.enterIdle_keeps (s : State) : Keeps [.freeCtr, .regs, .mgmt, .counts, .queues, .lanes, .pools, .ports,
    .hosts, .dies, .loader, .bcn, .syn, .mem, .ctx, .therm, .test, .cal] s (State.enterIdle s) := by
  unfold State.enterIdle
  repeat' first
    | exact rfl | with_reducible exact Keeps.refl _ _ | with_reducible assumption
    | with_reducible refine (State.dieReset_keeps _ _).then ?_ ?_
    | with_reducible refine (State.setDie_keeps _ _ _).then ?_ ?_
    | with_reducible refine (State.put_keeps _ _ _).then ?_ ?_
    | with_reducible refine (State.selfRefresh_keeps _).then ?_ ?_ | with_reducible refine Keeps.ite ?_ ?_
    | with_reducible refine Keeps.each ?_ (fun _ _ _ => ?_) | extract_lets | split | dsimp +zetaDelta only

theorem State.toIdle_keeps (s : State) (w : List Nat) : Keeps [.freeCtr, .regs, .mgmt, .counts, .queues, .lanes,
    .pools, .ports, .hosts, .dies, .loader, .power, .bcn, .syn, .mem, .ctx, .therm, .test, .cal] s (State.toIdle s
    w) := by
  unfold State.toIdle
  repeat' first
    | exact rfl | with_reducible exact Keeps.refl _ _ | with_reducible assumption
    | with_reducible refine (State.beginDrain_keeps _ _).then ?_ ?_
    | with_reducible refine (State.finishWait_keeps _ _).then ?_ ?_
    | with_reducible refine (State.enterIdle_keeps _).then ?_ ?_ | with_reducible refine Keeps.ite ?_ ?_
    | with_reducible refine Keeps.each ?_ (fun _ _ _ => ?_) | extract_lets | split | dsimp +zetaDelta only

theorem State.startLeaving_keeps (s : State) : Keeps [.regs, .dies, .power, .mem] s (State.startLeaving s) := by
  unfold State.startLeaving
  repeat' first
    | exact rfl | with_reducible exact Keeps.refl _ _ | with_reducible assumption
    | with_reducible refine (State.put_keeps _ _ _).then ?_ ?_
    | with_reducible refine (State.setDie_keeps _ _ _).then ?_ ?_
    | with_reducible refine (State.setPower_keeps _ _ ?_).then ?_ ?_
    | with_reducible refine (State.wakeD3_keeps _).then ?_ ?_ | with_reducible exact id
    | with_reducible exact fun h => SMap.wf_set _ _ _ _ h | with_reducible exact fun h => SMap.wf_setRun _ _ _ _ h
    | with_reducible exact fun h => SMap.wf_setRun _ _ _ _ (SMap.wf_setRun _ _ _ _ h)
    | with_reducible exact fun h => SMap.wf_fillRun _ _ _ _ _ h | with_reducible exact fun _ => SMap.wf_nil _
    | exact fun _ => SMap.wf_nil 0 | with_reducible refine Keeps.ite ?_ ?_
    | with_reducible refine Keeps.each ?_ (fun _ _ _ => ?_) | with_reducible refine Keeps.onlyIf ?_ (fun _ _ => ?_)
    | extract_lets | split | dsimp +zetaDelta only

theorem State.fromIdle_keeps (s : State) (w : List Nat) : Keeps [.regs, .mgmt, .dies, .power, .mem] s
    (State.fromIdle s w) := by
  unfold State.fromIdle
  repeat' first
    | exact rfl | with_reducible exact Keeps.refl _ _ | with_reducible assumption
    | with_reducible refine (State.startLeaving_keeps _).then ?_ ?_
    | with_reducible refine (State.finishWait_keeps _ _).then ?_ ?_
    | with_reducible refine (State.put_keeps _ _ _).then ?_ ?_ | with_reducible refine Keeps.ite ?_ ?_ | extract_lets
    | split | dsimp +zetaDelta only

theorem State.toStandby_keeps (s : State) (w : List Nat) : Keeps [.freeCtr, .regs, .mgmt, .intc, .counts, .power,
    .mem] s (State.toStandby s w) := by
  unfold State.toStandby
  repeat' first
    | exact rfl | with_reducible exact Keeps.refl _ _ | with_reducible assumption
    | with_reducible refine (State.startDrain_keeps _ _).then ?_ ?_
    | with_reducible refine (State.saveAll_keeps _).then ?_ ?_
    | with_reducible refine (State.finishWait_keeps _ _).then ?_ ?_ | with_reducible refine Keeps.ite ?_ ?_
    | extract_lets | split | dsimp +zetaDelta only

theorem State.statePhase_keeps (s : State) (x : WaitSt) : Keeps [.freeCtr, .regs, .mgmt, .intc, .counts, .queues,
    .lanes, .pools, .ports, .hosts, .dies, .loader, .power, .bcn, .syn, .mem, .ctx, .therm, .test, .cal] s
    (State.statePhase s x) := by
  unfold State.statePhase
  repeat' first
    | exact rfl | with_reducible exact Keeps.refl _ _ | with_reducible assumption
    | with_reducible refine (State.fromIdle_keeps _ _).then ?_ ?_
    | with_reducible refine (State.finishWait_keeps _ _).then ?_ ?_
    | with_reducible refine (State.toIdle_keeps _ _).then ?_ ?_
    | with_reducible refine (State.toStandby_keeps _ _).then ?_ ?_ | with_reducible refine Keeps.ite ?_ ?_
    | extract_lets | split | dsimp +zetaDelta only

theorem State.waitStep_keeps (s : State) : Keeps [.freeCtr, .regs, .mgmt, .intc, .counts, .queues, .lanes, .pools,
    .ports, .hosts, .dies, .loader, .power, .bcn, .syn, .mem, .ctx, .therm, .test, .cal] s (State.waitStep s) := by
  unfold State.waitStep
  repeat' first
    | exact rfl | with_reducible exact Keeps.refl _ _ | with_reducible assumption
    | with_reducible refine (State.statePhase_keeps _ _).then ?_ ?_
    | with_reducible refine (State.setPower_keeps _ _ ?_).then ?_ ?_
    | with_reducible refine (State.parkPhase_keeps _).then ?_ ?_
    | with_reducible refine (State.gatePhase_keeps _).then ?_ ?_ | with_reducible exact id
    | with_reducible exact fun h => SMap.wf_set _ _ _ _ h | with_reducible exact fun h => SMap.wf_setRun _ _ _ _ h
    | with_reducible exact fun h => SMap.wf_setRun _ _ _ _ (SMap.wf_setRun _ _ _ _ h)
    | with_reducible exact fun h => SMap.wf_fillRun _ _ _ _ _ h | with_reducible exact fun _ => SMap.wf_nil _
    | exact fun _ => SMap.wf_nil 0 | with_reducible refine Keeps.ite ?_ ?_ | extract_lets | split
    | dsimp +zetaDelta only

theorem waitEffect_keeps (s : State) : Keeps [.freeCtr, .regs, .mgmt, .intc, .counts, .queues, .lanes, .pools,
    .ports, .hosts, .dies, .loader, .power, .bcn, .syn, .mem, .ctx, .therm, .test, .cal] s (waitEffect s) := by
  unfold waitEffect
  repeat' first
    | exact rfl | with_reducible exact Keeps.refl _ _ | with_reducible assumption
    | with_reducible refine (State.waitStep_keeps _).then ?_ ?_
    | with_reducible refine (State.setPower_keeps _ _ ?_).then ?_ ?_
    | with_reducible refine (State.endWaitCmd_keeps _ _ _).then ?_ ?_ | with_reducible exact id
    | with_reducible exact fun h => SMap.wf_set _ _ _ _ h | with_reducible exact fun h => SMap.wf_setRun _ _ _ _ h
    | with_reducible exact fun h => SMap.wf_setRun _ _ _ _ (SMap.wf_setRun _ _ _ _ h)
    | with_reducible exact fun h => SMap.wf_fillRun _ _ _ _ _ h | with_reducible exact fun _ => SMap.wf_nil _
    | exact fun _ => SMap.wf_nil 0 | with_reducible refine Keeps.ite ?_ ?_ | extract_lets | split
    | dsimp +zetaDelta only

theorem drainCompleteEffect_keeps (d : Domain) (s : State) : Keeps [.freeCtr, .regs, .mgmt, .intc, .counts, .queues,
    .lanes, .pools, .ports, .hosts, .dies, .loader, .power, .time, .sched, .trig, .bcn, .syn, .mem, .ctx, .therm,
    .test, .cal, .hk, .tap] s (drainCompleteEffect d s) := by
  unfold drainCompleteEffect
  repeat' first
    | exact rfl | with_reducible exact Keeps.refl _ _ | with_reducible assumption
    | with_reducible refine (State.waitStep_keeps _).then ?_ ?_
    | with_reducible refine (State.endDrain_keeps _ _).then ?_ ?_ | with_reducible refine Keeps.ite ?_ ?_
    | extract_lets | split | dsimp +zetaDelta only

theorem drainDiscardEffect_keeps (d : Domain) (s : State) : Keeps [.freeCtr, .regs, .mgmt, .intc, .counts, .queues,
    .lanes, .pools, .ports, .hosts, .dies, .loader, .power, .time, .sched, .trig, .bcn, .syn, .mem, .ctx, .therm,
    .test, .cal, .hk, .tap] s (drainDiscardEffect d s) := by
  unfold drainDiscardEffect
  repeat' first
    | exact rfl | with_reducible exact Keeps.refl _ _ | with_reducible assumption
    | with_reducible refine (State.endWork_keeps _ _ _).then ?_ ?_
    | with_reducible refine (State.raise_keeps _ _).then ?_ ?_
    | with_reducible refine (State.waitStep_keeps _).then ?_ ?_
    | with_reducible refine (State.endDrain_keeps _ _).then ?_ ?_ | with_reducible refine Keeps.ite ?_ ?_
    | extract_lets | split | dsimp +zetaDelta only

theorem State.wakeLane_keeps (s : State) (n : Nat) : Keeps [.regs, .counts, .lanes, .pools, .dies, .bcn, .ctx] s
    (State.wakeLane s n) := by
  unfold State.wakeLane
  repeat' first
    | exact rfl | with_reducible exact Keeps.refl _ _ | with_reducible assumption
    | with_reducible refine (State.put_keeps _ _ _).then ?_ ?_
    | with_reducible refine (State.setReason_keeps _ _ _ _).then ?_ ?_
    | with_reducible refine (State.lightUp_keeps _ _ _).then ?_ ?_ | with_reducible refine Keeps.ite ?_ ?_
    | with_reducible refine Keeps.onlyIf ?_ (fun _ _ => ?_) | extract_lets | split | dsimp +zetaDelta only

theorem State.wakeGroup_keeps (s : State) (g : Nat) (byLight : Bool) : Keeps [.regs, .counts, .lanes, .pools, .dies,
    .bcn, .ctx] s (State.wakeGroup s g byLight) := by
  unfold State.wakeGroup
  repeat' first
    | exact rfl | with_reducible exact Keeps.refl _ _ | with_reducible assumption
    | with_reducible refine (State.put_keeps _ _ _).then ?_ ?_
    | with_reducible refine (State.raise_keeps _ _).then ?_ ?_
    | with_reducible refine (State.wakeLane_keeps _ _).then ?_ ?_ | with_reducible refine Keeps.ite ?_ ?_
    | with_reducible refine Keeps.each ?_ (fun _ _ _ => ?_) | with_reducible refine Keeps.onlyIf ?_ (fun _ _ => ?_)
    | extract_lets | split | dsimp +zetaDelta only

theorem State.wakeRegion_keeps (s : State) (r : Nat) : Keeps [.freeCtr, .regs, .mgmt, .intc, .counts, .queues,
    .lanes, .pools, .ports, .hosts, .dies, .loader, .power, .time, .sched, .trig, .bcn, .syn, .mem, .ctx, .therm,
    .test, .cal, .hk] s (State.wakeRegion s r) := by
  unfold State.wakeRegion
  repeat' first
    | exact rfl | with_reducible exact Keeps.refl _ _ | with_reducible assumption
    | with_reducible refine (State.put_keeps _ _ _).then ?_ ?_
    | with_reducible refine State.reapply_keeps _ _ _ _ ?_ ?_ (fun _ _ => ?_)
    | with_reducible refine (State.setReason_keeps _ _ _ _).then ?_ ?_ | with_reducible refine Keeps.ite ?_ ?_
    | with_reducible refine Keeps.each ?_ (fun _ _ _ => ?_) | simp only [id] | extract_lets | split
    | dsimp +zetaDelta only

theorem State.endReturn_keeps (s : State) (d : Domain) (byLight : Bool) : Keeps [.freeCtr, .regs, .mgmt, .intc,
    .counts, .queues, .lanes, .pools, .ports, .hosts, .dies, .loader, .power, .time, .sched, .trig, .bcn, .syn,
    .mem, .ctx, .therm, .test, .cal, .hk] s (State.endReturn s d byLight) := by
  unfold State.endReturn
  repeat' first
    | exact rfl | with_reducible exact Keeps.refl _ _ | with_reducible assumption
    | with_reducible refine (State.setPower_keeps _ _ ?_).then ?_ ?_
    | with_reducible refine (State.wakeGroup_keeps _ _ _).then ?_ ?_
    | with_reducible refine (State.wakeRegion_keeps _ _).then ?_ ?_ | with_reducible exact id
    | with_reducible exact fun h => SMap.wf_set _ _ _ _ h | with_reducible exact fun h => SMap.wf_setRun _ _ _ _ h
    | with_reducible exact fun h => SMap.wf_setRun _ _ _ _ (SMap.wf_setRun _ _ _ _ h)
    | with_reducible exact fun h => SMap.wf_fillRun _ _ _ _ _ h | with_reducible exact fun _ => SMap.wf_nil _
    | exact fun _ => SMap.wf_nil 0 | with_reducible refine Keeps.ite ?_ ?_ | extract_lets | split
    | dsimp +zetaDelta only

theorem returnToActiveEffect_keeps (d : Domain) (s : State) : Keeps [.freeCtr, .regs, .mgmt, .intc, .counts,
    .queues, .lanes, .pools, .ports, .hosts, .dies, .loader, .power, .time, .sched, .trig, .bcn, .syn, .mem, .ctx,
    .therm, .test, .cal, .hk] s (returnToActiveEffect d s) := by
  unfold returnToActiveEffect
  repeat' first
    | exact rfl | with_reducible exact Keeps.refl _ _ | with_reducible assumption
    | with_reducible refine (State.waitStep_keeps _).then ?_ ?_
    | with_reducible refine (State.endReturn_keeps _ _ _).then ?_ ?_ | with_reducible refine Keeps.ite ?_ ?_
    | extract_lets | split | dsimp +zetaDelta only

theorem lineDieReapplyEffect_keeps (d : LineDie) (s : State) : Keeps [.freeCtr, .regs, .mgmt, .intc, .counts,
    .queues, .lanes, .pools, .ports, .hosts, .dies, .loader, .power, .time, .sched, .trig, .bcn, .syn, .mem, .ctx,
    .therm, .test, .cal, .hk] s (lineDieReapplyEffect d s) := by
  unfold lineDieReapplyEffect
  repeat' first
    | exact rfl | with_reducible exact Keeps.refl _ _ | with_reducible assumption
    | with_reducible refine (State.waitStep_keeps _).then ?_ ?_
    | with_reducible refine (State.reapplyDie_keeps _ _).then ?_ ?_ | with_reducible refine Keeps.ite ?_ ?_
    | extract_lets | split | dsimp +zetaDelta only

theorem partialOutageEndEffect_keeps (r : Region) (s : State) : Keeps [.freeCtr, .regs, .mgmt, .intc, .counts,
    .queues, .lanes, .pools, .ports, .hosts, .dies, .loader, .power, .time, .sched, .trig, .bcn, .syn, .mem, .ctx,
    .therm, .test, .cal, .hk] s (partialOutageEndEffect r s) := by
  unfold partialOutageEndEffect
  repeat' first
    | exact rfl | with_reducible exact Keeps.refl _ _ | with_reducible assumption
    | with_reducible refine (State.waitStep_keeps _).then ?_ ?_
    | with_reducible refine (State.partialEnd_keeps _ _).then ?_ ?_ | with_reducible refine Keeps.ite ?_ ?_
    | extract_lets | split | dsimp +zetaDelta only

theorem addressMatchWakeEffect_keeps (dev : BitVec 7) (s : State) : Keeps [.regs, .power] s (addressMatchWakeEffect
    dev s) := by
  unfold addressMatchWakeEffect
  repeat' first
    | exact rfl | with_reducible exact Keeps.refl _ _ | with_reducible assumption
    | with_reducible refine (State.put_keeps _ _ _).then ?_ ?_
    | with_reducible refine (State.wakeFrom_keeps _ _).then ?_ ?_ | with_reducible refine Keeps.ite ?_ ?_
    | extract_lets | split | dsimp +zetaDelta only

theorem aonBrownoutEffect_keeps (s : State) : Keeps [.regs, .mgmt, .intc, .counts, .queues, .lanes, .pools, .ports,
    .hosts, .dies, .loader, .power, .time, .sched, .trig, .bcn, .syn, .mem, .ctx, .therm, .test, .cal, .hk, .tap] s
    (aonBrownoutEffect s) := by
  unfold aonBrownoutEffect
  repeat' first
    | exact rfl | with_reducible exact Keeps.refl _ _ | with_reducible assumption
    | with_reducible refine (State.aonLost_keeps _).then ?_ ?_
    | with_reducible refine (State.put_keeps _ _ _).then ?_ ?_
    | with_reducible refine (State.setPower_keeps _ _ ?_).then ?_ ?_ | with_reducible exact id
    | with_reducible exact fun h => SMap.wf_set _ _ _ _ h | with_reducible exact fun h => SMap.wf_setRun _ _ _ _ h
    | with_reducible exact fun h => SMap.wf_setRun _ _ _ _ (SMap.wf_setRun _ _ _ _ h)
    | with_reducible exact fun h => SMap.wf_fillRun _ _ _ _ _ h | with_reducible exact fun _ => SMap.wf_nil _
    | exact fun _ => SMap.wf_nil 0 | with_reducible refine Keeps.ite ?_ ?_ | extract_lets | split
    | dsimp +zetaDelta only

end Sys2Proof.Machine
end

