-- ==== Sys2Proof/Laws/Exec.lean ====
section
/-!
SUPPORT. What each command does, as one equation per constructor; the parts of the state that it may change, and that it keeps
the canonical form.
-/

namespace Sys2Proof.Machine

open Sys2Proof

@[simp] theorem exec_cmdPush (s : State) : exec .cmdPush s = .next (cmdPushEffect s) := rfl
@[simp] theorem exec_commandTake (s : State) : exec .commandTake s = .next (s.take) := rfl
@[simp] theorem exec_cplPop (s : State) : exec .cplPop s = .next (cplPopEffect s) := rfl
@[simp] theorem exec_nop (s : State) : exec .nop s = .next (nopEffect s) := rfl
@[simp] theorem exec_partialLoad (s : State) : exec .partialLoad s = .next (partialLoadEffect s) := rfl
@[simp] theorem exec_partialOutageEnd (r : Region) (s : State) :
    exec (.partialOutageEnd r) s = .next (partialOutageEndEffect r s) := rfl
@[simp] theorem exec_slotBegin (mramOk : Bool) (s : State) :
    exec (.slotBegin mramOk) s = .next (slotBeginEffect mramOk s) := rfl
@[simp] theorem exec_slotChunk (mramOk : Bool) (s : State) :
    exec (.slotChunk mramOk) s = .next (slotChunkEffect mramOk s) := rfl
@[simp] theorem exec_slotEnd (mramOk : Bool) (upsets : List (Nat × WordErr)) (s : State) :
    exec (.slotEnd mramOk upsets) s = .next (slotEndEffect mramOk upsets s) := rfl
@[simp] theorem exec_boot (s : State) : exec .boot s = .next (bootEffect s) := rfl
@[simp] theorem exec_keyWrite (mramOk : Bool) (s : State) :
    exec (.keyWrite mramOk) s = .next (keyWriteEffect mramOk s) := rfl
@[simp] theorem exec_keyRevoke (mramOk : Bool) (s : State) :
    exec (.keyRevoke mramOk) s = .next (keyRevokeEffect mramOk s) := rfl
@[simp] theorem exec_fill (s : State) : exec .fill s = .next (fillEffect s) := rfl
@[simp] theorem exec_storeBuffer (s : State) : exec .storeBuffer s = .next (storeBufferEffect s) := rfl
@[simp] theorem exec_storeLive (s : State) : exec .storeLive s = .next (storeLiveEffect s) := rfl
@[simp] theorem exec_remove (s : State) : exec .remove s = .next (removeEffect s) := rfl
@[simp] theorem exec_pin (s : State) : exec .pin s = .next (pinEffect s) := rfl
@[simp] theorem exec_unpin (s : State) : exec .unpin s = .next (unpinEffect s) := rfl
@[simp] theorem exec_applyNow (s : State) : exec .applyNow s = .next (applyNowEffect s) := rfl
@[simp] theorem exec_clearAll (s : State) : exec .clearAll s = .next (clearAllEffect s) := rfl
@[simp] theorem exec_contextReadStored (s : State) :
    exec .contextReadStored s = .next (contextReadStoredEffect s) := rfl
@[simp] theorem exec_contextReadLive (s : State) : exec .contextReadLive s = .next (contextReadLiveEffect s) := rfl
@[simp] theorem exec_lookup (s : State) : exec .lookup s = .next (lookupEffect s) := rfl
@[simp] theorem exec_add (s : State) : exec .add s = .next (addEffect s) := rfl
@[simp] theorem exec_scheduleRemove (s : State) : exec .scheduleRemove s = .next (scheduleRemoveEffect s) := rfl
@[simp] theorem exec_scheduleRead (s : State) : exec .scheduleRead s = .next (scheduleReadEffect s) := rfl
@[simp] theorem exec_purge (s : State) : exec .purge s = .next (purgeEffect s) := rfl
@[simp] theorem exec_capture (die : LineDie) (s : State) : exec (.capture die) s = .next (captureEffect die s) := rfl
@[simp] theorem exec_captureStart (die : LineDie) (s : State) :
    exec (.captureStart die) s = .next (captureStartEffect die s) := rfl
@[simp] theorem exec_captureTrigger (die : LineDie) (s : State) :
    exec (.captureTrigger die) s = .next (captureTriggerEffect die s) := rfl
@[simp] theorem exec_captureTimeout (die : LineDie) (s : State) :
    exec (.captureTimeout die) s = .next (captureTimeoutEffect die s) := rfl
@[simp] theorem exec_captureComplete (die : LineDie) (s : State) :
    exec (.captureComplete die) s = .next (captureCompleteEffect die s) := rfl
@[simp] theorem exec_bistRun (s : State) : exec .bistRun s = .next (bistRunEffect s) := rfl
@[simp] theorem exec_bistRunDone (pass : Bool) (s : State) :
    exec (.bistRunDone pass) s = .next (bistRunDoneEffect pass s) := rfl
@[simp] theorem exec_wait (s : State) : exec .wait s = .next (waitEffect s) := rfl
@[simp] theorem exec_clockSwitchInternal (s : State) :
    exec .clockSwitchInternal s = .next (s.withHead .core 9 0 (fun w => s.switchClock w false)) := rfl
@[simp] theorem exec_clockSwitchMclk (s : State) :
    exec .clockSwitchMclk s = .next (s.withHead .core 9 1 (fun w => s.switchClock w true)) := rfl
@[simp] theorem exec_accept (s : State) : exec .accept s = .next (acceptEffect s) := rfl
@[simp] theorem exec_set (s : State) : exec .set s = .next (setEffect s) := rfl
@[simp] theorem exec_registerWrite (origin : Origin) (addr : Word) (value : Word) (s : State) :
    exec (.registerWrite origin addr value) s = .next (registerWriteEffect origin addr value s) := rfl
@[simp] theorem exec_unmappedAccess (origin : Origin) (addr : Word) (write : Bool) (s : State) :
    exec (.unmappedAccess origin addr write) s = .next (unmappedAccessEffect origin addr write s) := rfl
@[simp] theorem exec_mgmtWrite (dev : BitVec 7) (addr : List Byte) (data : List Byte) (s : State) :
    exec (.mgmtWrite dev addr data) s = .next (mgmtWriteEffect dev addr data s) := rfl
@[simp] theorem exec_mgmtRead (dev : BitVec 7) (nbytes : Nat) (readyWords : Nat) (s : State) :
    exec (.mgmtRead dev nbytes readyWords) s = .next (mgmtReadEffect dev nbytes readyWords s) := rfl
@[simp] theorem exec_entdaa (dynAddr : BitVec 7) (s : State) :
    exec (.entdaa dynAddr) s = .next (entdaaEffect dynAddr s) := rfl
@[simp] theorem exec_setdasa (dev : BitVec 7) (dynAddr : BitVec 7) (s : State) :
    exec (.setdasa dev dynAddr) s = .next (setdasaEffect dev dynAddr s) := rfl
@[simp] theorem exec_setnewda (dynAddr : BitVec 7) (s : State) :
    exec (.setnewda dynAddr) s = .next (setnewdaEffect dynAddr s) := rfl
@[simp] theorem exec_rstdaa (s : State) : exec .rstdaa s = .next (rstdaaEffect s) := rfl
@[simp] theorem exec_getpid (s : State) : exec .getpid s = .next (getpidEffect s) := rfl
@[simp] theorem exec_getbcr (s : State) : exec .getbcr s = .next (getbcrEffect s) := rfl
@[simp] theorem exec_getdcr (s : State) : exec .getdcr s = .next (getdcrEffect s) := rfl
@[simp] theorem exec_getstatus (s : State) : exec .getstatus s = .next (getstatusEffect s) := rfl
@[simp] theorem exec_quadWrite (addr : Word) (data : List Byte) (s : State) :
    exec (.quadWrite addr data) s = .next (quadWriteEffect addr data s) := rfl
@[simp] theorem exec_quadRead (addr : Word) (words : Byte) (fetched : Nat) (nbytes : Nat) (s : State) :
    exec (.quadRead addr words fetched nbytes) s = .next (quadReadEffect addr words fetched nbytes s) := rfl
@[simp] theorem exec_bulkStatus (s : State) : exec .bulkStatus s = .next (bulkStatusEffect s) := rfl
@[simp] theorem exec_singleWrite (addr : Word) (data : List Byte) (s : State) :
    exec (.singleWrite addr data) s = .next (singleWriteEffect addr data s) := rfl
@[simp] theorem exec_singleRead (addr : Word) (words : Byte) (fetched : Nat) (nbytes : Nat) (s : State) :
    exec (.singleRead addr words fetched nbytes) s = .next (singleReadEffect addr words fetched nbytes s) := rfl
@[simp] theorem exec_claim (s : State) : exec .claim s = .next (claimEffect s) := rfl
@[simp] theorem exec_complete (value : Word) (s : State) :
    exec (.complete value) s = .next (completeEffect value s) := rfl
@[simp] theorem exec_irqDelivery (target : Fin 2) (s : State) :
    exec (.irqDelivery target) s = .next (irqDeliveryEffect target s) := rfl
@[simp] theorem exec_swSet (value : Word) (s : State) : exec (.swSet value) s = .next (swSetEffect value s) := rfl
@[simp] theorem exec_countClr (source : Nat) (s : State) :
    exec (.countClr source) s = .next (countClrEffect source s) := rfl
@[simp] theorem exec_cntLoRead (bank : Fin 3) (i : Nat) (s : State) :
    exec (.cntLoRead bank i) s = .next (cntLoReadEffect bank i s) := rfl
@[simp] theorem exec_clear (bank : Fin 3) (i : Nat) (s : State) :
    exec (.clear bank i) s = .next (clearEffect bank i s) := rfl
@[simp] theorem exec_clearAllCounters (bank : Fin 3) (s : State) :
    exec (.clearAllCounters bank) s = .next (clearAllCountersEffect bank s) := rfl
@[simp] theorem exec_freeze (bank : Fin 3) (on : Bool) (s : State) :
    exec (.freeze bank on) s = .next (freezeEffect bank on s) := rfl
@[simp] theorem exec_d1Reset (d1 : Bool) (d2 : Bool) (s : State) :
    exec (.d1Reset d1 d2) s = .next (d1ResetEffect d1 d2 s) := rfl
@[simp] theorem exec_pkgReset (key : Byte) (s : State) : exec (.pkgReset key) s = .next (pkgResetEffect key s) := rfl
@[simp] theorem exec_lineDieReapply (die : LineDie) (s : State) :
    exec (.lineDieReapply die) s = .next (lineDieReapplyEffect die s) := rfl
@[simp] theorem exec_heldPartRetest (lane : Lane) (pass : Bool) (s : State) :
    exec (.heldPartRetest lane pass) s = .next (heldPartRetestEffect lane pass s) := rfl
@[simp] theorem exec_hwmClr (q : QueueId) (occRises : Bool) (s : State) :
    exec (.hwmClr q occRises) s = .next (hwmClrEffect q occRises s) := rfl
@[simp] theorem exec_nmHwmClr (lane : Lane) (s : State) : exec (.nmHwmClr lane) s = .next (nmHwmClrEffect lane s) := rfl
@[simp] theorem exec_queueEntry (q : QueueId) (entry : QEntry) (takes : Bool) (creditLost : Bool) (s : State) :
    exec (.queueEntry q entry takes creditLost) s = .next (queueEntryEffect q entry takes creditLost s) := rfl
@[simp] theorem exec_starve (q : QueueId) (cycles : Nat) (s : State) :
    exec (.starve q cycles) s = .next (starveEffect q cycles s) := rfl
@[simp] theorem exec_restart (n : Lane) (s : State) : exec (.restart n) s = .next (restartEffect n s) := rfl
@[simp] theorem exec_presetLoad (n : Lane) (s : State) : exec (.presetLoad n) s = .next (presetLoadEffect n s) := rfl
@[simp] theorem exec_tapLoad (tile : TileId) (index : Fin 16) (value : BitVec 12) (s : State) :
    exec (.tapLoad tile index value) s = .next (tapLoadEffect tile index value s) := rfl
@[simp] theorem exec_winWrite (n : Lane) (win : BitVec 5) (s : State) :
    exec (.winWrite n win) s = .next (winWriteEffect n win s) := rfl
@[simp] theorem exec_start (n : Lane) (point : Bool) (len : BitVec 5) (s : State) :
    exec (.start n point len) s = .next (startEffect n point len s) := rfl
@[simp] theorem exec_histogramDone (n : Lane) (s : State) :
    exec (.histogramDone n) s = .next (histogramDoneEffect n s) := rfl
@[simp] theorem exec_measWindowEnd (n : Lane) (s : State) :
    exec (.measWindowEnd n) s = .next (measWindowEndEffect n s) := rfl
@[simp] theorem exec_envCrossing (lane : Lane) (current : Nat) (s : State) :
    exec (.envCrossing lane current) s = .next (envCrossingEffect lane current s) := rfl
@[simp] theorem exec_lightOn (lane : Lane) (s : State) : exec (.lightOn lane) s = .next (lightOnEffect lane s) := rfl
@[simp] theorem exec_lightOff (lane : Lane) (s : State) : exec (.lightOff lane) s = .next (lightOffEffect lane s) := rfl
@[simp] theorem exec_agcMeasurement (n : Lane) (s : State) :
    exec (.agcMeasurement n) s = .next (agcMeasurementEffect n s) := rfl
@[simp] theorem exec_trackingInterval (n : Lane) (s : State) :
    exec (.trackingInterval n) s = .next (trackingIntervalEffect n s) := rfl
@[simp] theorem exec_cdrWindow (n : Lane) (s : State) : exec (.cdrWindow n) s = .next (cdrWindowEffect n s) := rfl
@[simp] theorem exec_cdrDone (n : Lane) (s : State) : exec (.cdrDone n) s = .next (cdrDoneEffect n s) := rfl
@[simp] theorem exec_blindDone (n : Lane) (s : State) : exec (.blindDone n) s = .next (blindDoneEffect n s) := rfl
@[simp] theorem exec_ddDone (n : Lane) (s : State) : exec (.ddDone n) s = .next (ddDoneEffect n s) := rfl
@[simp] theorem exec_trainDone (n : Lane) (s : State) : exec (.trainDone n) s = .next (trainDoneEffect n s) := rfl
@[simp] theorem exec_acqTimeout (n : Lane) (s : State) : exec (.acqTimeout n) s = .next (acqTimeoutEffect n s) := rfl
@[simp] theorem exec_warmFail (n : Lane) (s : State) : exec (.warmFail n) s = .next (warmFailEffect n s) := rfl
@[simp] theorem exec_codewordDecode (lane : Lane) (s : State) :
    exec (.codewordDecode lane) s = .next (codewordDecodeEffect lane s) := rfl
@[simp] theorem exec_syndromeLock (lane : Lane) (s : State) :
    exec (.syndromeLock lane) s = .next (syndromeLockEffect lane s) := rfl
@[simp] theorem exec_lockLost (lane : Lane) (s : State) : exec (.lockLost lane) s = .next (lockLostEffect lane s) := rfl
@[simp] theorem exec_groupLoss (lane : Lane) (s : State) :
    exec (.groupLoss lane) s = .next (groupLossEffect lane s) := rfl
@[simp] theorem exec_formatMismatch (lane : Lane) (s : State) :
    exec (.formatMismatch lane) s = .next (formatMismatchEffect lane s) := rfl
@[simp] theorem exec_codewordEncode (lane : Lane) (s : State) :
    exec (.codewordEncode lane) s = .next (codewordEncodeEffect lane s) := rfl
@[simp] theorem exec_squelch (lane : Lane) (on : Bool) (s : State) :
    exec (.squelch lane on) s = .next (squelchEffect lane on s) := rfl
@[simp] theorem exec_squelchEntry (lane : Lane) (s : State) :
    exec (.squelchEntry lane) s = .next (squelchEntryEffect lane s) := rfl
@[simp] theorem exec_squelchRelease (lane : Lane) (s : State) :
    exec (.squelchRelease lane) s = .next (squelchReleaseEffect lane s) := rfl
@[simp] theorem exec_pattern (lane : Lane) (value : BitVec 3) (s : State) :
    exec (.pattern lane value) s = .next (patternEffect lane value s) := rfl
@[simp] theorem exec_commit (lane : Lane) (s : State) : exec (.commit lane) s = .next (commitEffect lane s) := rfl
@[simp] theorem exec_hostLockAcq (h : HostLane) (s : State) :
    exec (.hostLockAcq h) s = .next (hostLockAcqEffect h s) := rfl
@[simp] theorem exec_hostLockLost (h : HostLane) (signal : Bool) (s : State) :
    exec (.hostLockLost h signal) s = .next (hostLockLostEffect h signal s) := rfl
@[simp] theorem exec_rxRestart (h : HostLane) (s : State) : exec (.rxRestart h) s = .next (rxRestartEffect h s) := rfl
@[simp] theorem exec_hostTxCommit (h : HostLane) (s : State) :
    exec (.hostTxCommit h) s = .next (hostTxCommitEffect h s) := rfl
@[simp] theorem exec_hostCodeword (lane : Lane) (portB : Bool) (s : State) :
    exec (.hostCodeword lane portB) s = .next (hostCodewordEffect lane portB s) := rfl
@[simp] theorem exec_hostGapEnd (lane : Lane) (portB : Bool) (s : State) :
    exec (.hostGapEnd lane portB) s = .next (hostGapEndEffect lane portB s) := rfl
@[simp] theorem exec_lineRsCodeword (lane : Lane) (streamB : Bool) (upsets : List Nat) (s : State) :
    exec (.lineRsCodeword lane streamB upsets) s = .next (lineRsCodewordEffect lane streamB upsets s) := rfl
@[simp] theorem exec_lfStart (lane : Lane) (portB : Bool) (s : State) :
    exec (.lfStart lane portB) s = .next (lfStartEffect lane portB s) := rfl
@[simp] theorem exec_resume (lane : Lane) (portB : Bool) (s : State) :
    exec (.resume lane portB) s = .next (resumeEffect lane portB s) := rfl
@[simp] theorem exec_nutmegReadResume (lane : Lane) (portB : Bool) (s : State) :
    exec (.nutmegReadResume lane portB) s = .next (nutmegReadResumeEffect lane portB s) := rfl
@[simp] theorem exec_monAmLock (lane : Lane) (portB : Bool) (on : Bool) (offA : Nat) (offB : Nat) (s : State) :
    exec (.monAmLock lane portB on offA offB) s = .next (monAmLockEffect lane portB on offA offB s) := rfl
@[simp] theorem exec_groupCfgWrite (value : Word) (s : State) :
    exec (.groupCfgWrite value) s = .next (groupCfgWriteEffect value s) := rfl
@[simp] theorem exec_hashSeedWrite (value : Word) (s : State) :
    exec (.hashSeedWrite value) s = .next (hashSeedWriteEffect value s) := rfl
@[simp] theorem exec_applyRecordsRead (group : Fin 8) (s : State) :
    exec (.applyRecordsRead group) s = .next (applyRecordsReadEffect group s) := rfl
@[simp] theorem exec_applyTransferDone (group : Fin 8) (s : State) :
    exec (.applyTransferDone group) s = .next (applyTransferDoneEffect group s) := rfl
@[simp] theorem exec_contextApplied (lane : Lane) (s : State) :
    exec (.contextApplied lane) s = .next (contextAppliedEffect lane s) := rfl
@[simp] theorem exec_idTimeout (group : Fin 8) (s : State) :
    exec (.idTimeout group) s = .next (idTimeoutEffect group s) := rfl
@[simp] theorem exec_placementTick (s : State) : exec .placementTick s = .next (placementTickEffect s) := rfl
@[simp] theorem exec_cacheFillDone (line : Fin 256) (s : State) :
    exec (.cacheFillDone line) s = .next (cacheFillDoneEffect line s) := rfl
@[simp] theorem exec_relocated (slot : Nat) (s : State) :
    exec (.relocated slot) s = .next (relocatedEffect slot s) := rfl
@[simp] theorem exec_send (lane : Lane) (full : Bool) (s : State) :
    exec (.send lane full) s = .next (sendEffect lane full s) := rfl
@[simp] theorem exec_txModeWrite (lane : Lane) (mode : BitVec 2) (s : State) :
    exec (.txModeWrite lane mode) s = .next (txModeWriteEffect lane mode s) := rfl
@[simp] theorem exec_beaconFrameDue (lane : Lane) (s : State) :
    exec (.beaconFrameDue lane) s = .next (beaconFrameDueEffect lane s) := rfl
@[simp] theorem exec_beaconFrameStart (lane : Lane) (s : State) :
    exec (.beaconFrameStart lane) s = .next (beaconFrameStartEffect lane s) := rfl
@[simp] theorem exec_beaconDeparture (lane : Lane) (s : State) :
    exec (.beaconDeparture lane) s = .next (beaconDepartureEffect lane s) := rfl
@[simp] theorem exec_beaconTimestampReturn (lane : Lane) (s : State) :
    exec (.beaconTimestampReturn lane) s = .next (beaconTimestampReturnEffect lane s) := rfl
@[simp] theorem exec_sent (lane : Lane) (s : State) : exec (.sent lane) s = .next (sentEffect lane s) := rfl
@[simp] theorem exec_txChLoad (lane : Lane) (ch : BitVec 4) (s : State) :
    exec (.txChLoad lane ch) s = .next (txChLoadEffect lane ch s) := rfl
@[simp] theorem exec_rxChLoad (lane : Lane) (ch : BitVec 4) (fsk4 : Bool) (s : State) :
    exec (.rxChLoad lane ch fsk4) s = .next (rxChLoadEffect lane ch fsk4 s) := rfl
@[simp] theorem exec_synthLock (r : Region) (cal : Word) (s : State) :
    exec (.synthLock r cal) s = .next (synthLockEffect r cal s) := rfl
@[simp] theorem exec_noLock (r : Region) (s : State) : exec (.noLock r) s = .next (noLockEffect r s) := rfl
@[simp] theorem exec_synthBgCal (r : Region) (cal : Word) (s : State) :
    exec (.synthBgCal r cal) s = .next (synthBgCalEffect r cal s) := rfl
@[simp] theorem exec_noiseWindowEnd (lane : Lane) (meanSq : Nat) (s : State) :
    exec (.noiseWindowEnd lane meanSq) s = .next (noiseWindowEndEffect lane meanSq s) := rfl
@[simp] theorem exec_beaconDetection (lane : Lane) (meanSq : Nat) (hard : BitVec 32) (s : State) :
    exec (.beaconDetection lane meanSq hard) s = .next (beaconDetectionEffect lane meanSq hard s) := rfl
@[simp] theorem exec_beaconReport (lane : Lane) (symbols : List (BitVec 2)) (s : State) :
    exec (.beaconReport lane symbols) s = .next (beaconReportEffect lane symbols s) := rfl
@[simp] theorem exec_ppsEdge (rising : Bool) (s : State) :
    exec (.ppsEdge rising) s = .next (ppsEdgeEffect rising s) := rfl
@[simp] theorem exec_todMessage (body : List Byte) (s : State) :
    exec (.todMessage body) s = .next (todMessageEffect body s) := rfl
@[simp] theorem exec_sumacFrame (body : List Byte) (s : State) :
    exec (.sumacFrame body) s = .next (sumacFrameEffect body s) := rfl
@[simp] theorem exec_sumacFrameSend (s : State) : exec .sumacFrameSend s = .next (sumacFrameSendEffect s) := rfl
@[simp] theorem exec_sumacConflict (s : State) : exec .sumacConflict s = .next (sumacConflictEffect s) := rfl
@[simp] theorem exec_sumacRoleWrite (role : BitVec 2) (s : State) :
    exec (.sumacRoleWrite role) s = .next (sumacRoleWriteEffect role s) := rfl
@[simp] theorem exec_srcWrite (src : BitVec 2) (s : State) :
    exec (.srcWrite src) s = .next (srcWriteEffect src s) := rfl
@[simp] theorem exec_sourceLoss (s : State) : exec .sourceLoss s = .next (sourceLossEffect s) := rfl
@[simp] theorem exec_segmentBoundary (s : State) : exec .segmentBoundary s = .next (segmentBoundaryEffect s) := rfl
@[simp] theorem exec_snap (s : State) : exec .snap s = .next (snapEffect s) := rfl
@[simp] theorem exec_convTickHiWrite (value : Word) (s : State) :
    exec (.convTickHiWrite value) s = .next (convTickHiWriteEffect value s) := rfl
@[simp] theorem exec_scheduleDue (s : State) : exec .scheduleDue s = .next (scheduleDueEffect s) := rfl
@[simp] theorem exec_scheduleTrigger (pos : Nat) (s : State) :
    exec (.scheduleTrigger pos) s = .next (scheduleTriggerEffect pos s) := rfl
@[simp] theorem exec_arm (line : Fin 4) (s : State) : exec (.arm line) s = .next (armEffect line s) := rfl
@[simp] theorem exec_trigPulse (line : Fin 4) (s : State) :
    exec (.trigPulse line) s = .next (trigPulseEffect line s) := rfl
@[simp] theorem exec_trigPulseEnd (line : Fin 4) (s : State) :
    exec (.trigPulseEnd line) s = .next (trigPulseEndEffect line s) := rfl
@[simp] theorem exec_strobe (groups : BitVec 4) (s : State) :
    exec (.strobe groups) s = .next (strobeEffect groups s) := rfl
@[simp] theorem exec_spanWrite (ch : Fin 16) (span : BitVec 2) (s : State) :
    exec (.spanWrite ch span) s = .next (spanWriteEffect ch span s) := rfl
@[simp] theorem exec_spanHoldEnd (ch : Fin 16) (s : State) :
    exec (.spanHoldEnd ch) s = .next (spanHoldEndEffect ch s) := rfl
@[simp] theorem exec_biasStrobe (s : State) : exec .biasStrobe s = .next (biasStrobeEffect s) := rfl
@[simp] theorem exec_ditherUpdate (s : State) : exec .ditherUpdate s = .next (ditherUpdateEffect s) := rfl
@[simp] theorem exec_sync (gens : BitVec 4) (s : State) : exec (.sync gens) s = .next (syncEffect gens s) := rfl
@[simp] theorem exec_targetWrite (gen : Fin 4) (target : Byte) (s : State) :
    exec (.targetWrite gen target) s = .next (targetWriteEffect gen target s) := rfl
@[simp] theorem exec_hkaConversion (a : Fin 2) (code : BitVec 12) (s : State) :
    exec (.hkaConversion a code) s = .next (hkaConversionEffect a code s) := rfl
@[simp] theorem exec_go (slot : Fin 4) (s : State) : exec (.go slot) s = .next (goEffect slot s) := rfl
@[simp] theorem exec_runWrite (a : Fin 2) (on : Bool) (s : State) :
    exec (.runWrite a on) s = .next (runWriteEffect a on s) := rfl
@[simp] theorem exec_rdIdxWrite (value : BitVec 12) (s : State) :
    exec (.rdIdxWrite value) s = .next (rdIdxWriteEffect value s) := rfl
@[simp] theorem exec_filterSlot (k : Nat) (s : State) : exec (.filterSlot k) s = .next (filterSlotEffect k s) := rfl
@[simp] theorem exec_filtRunWrite (on : Bool) (s : State) :
    exec (.filtRunWrite on) s = .next (filtRunWriteEffect on s) := rfl
@[simp] theorem exec_latch (s : State) : exec .latch s = .next (latchEffect s) := rfl
@[simp] theorem exec_filtCfgWrite (k : Nat) (value : Word) (s : State) :
    exec (.filtCfgWrite k value) s = .next (filtCfgWriteEffect k value s) := rfl
@[simp] theorem exec_enginePageRead (s : State) : exec .enginePageRead s = .next (enginePageReadEffect s) := rfl
@[simp] theorem exec_enginePageReadDone (page : List Byte) (nack : Bool) (s : State) :
    exec (.enginePageReadDone page nack) s = .next (enginePageReadDoneEffect page nack s) := rfl
@[simp] theorem exec_read (s : State) : exec .read s = .next (readEffect s) := rfl
@[simp] theorem exec_oeXferGo (value : Word) (s : State) :
    exec (.oeXferGo value) s = .next (oeXferGoEffect value s) := rfl
@[simp] theorem exec_xferDone (result : BitVec 2) (data : List Byte) (s : State) :
    exec (.xferDone result data) s = .next (xferDoneEffect result data s) := rfl
@[simp] theorem exec_railLoss (rail : Fin 2) (s : State) :
    exec (.railLoss rail) s = .next (railLossEffect rail s) := rfl
@[simp] theorem exec_oeRailRetry (rail : Fin 2) (good : Bool) (s : State) :
    exec (.oeRailRetry rail good) s = .next (oeRailRetryEffect rail good s) := rfl
@[simp] theorem exec_oeCtlWrite (en3v3 : Bool) (en1v8 : Bool) (good : Bool) (s : State) :
    exec (.oeCtlWrite en3v3 en1v8 good) s = .next (oeCtlWriteEffect en3v3 en1v8 good s) := rfl
@[simp] theorem exec_memBurst (req : Option MemReq) (errs : List WordErr) (crcFails : Nat) (s : State) :
    exec (.memBurst req errs crcFails) s = .next (memBurstEffect req errs crcFails s) := rfl
@[simp] theorem exec_retrain (s : State) : exec .retrain s = .next (retrainEffect s) := rfl
@[simp] theorem exec_retrainingDone (ok : Bool) (s : State) :
    exec (.retrainingDone ok) s = .next (retrainingDoneEffect ok s) := rfl
@[simp] theorem exec_d3TempRead (temp : BitVec 8) (good : Bool) (s : State) :
    exec (.d3TempRead temp good) s = .next (d3TempReadEffect temp good s) := rfl
@[simp] theorem exec_refresh (bank : Nat) (s : State) : exec (.refresh bank) s = .next (refreshEffect bank s) := rfl
@[simp] theorem exec_scrubBlock (errs : List WordErr) (crcFails : Nat) (s : State) :
    exec (.scrubBlock errs crcFails) s = .next (scrubBlockEffect errs crcFails s) := rfl
@[simp] theorem exec_scrubEnWrite (on : Bool) (s : State) :
    exec (.scrubEnWrite on) s = .next (scrubEnWriteEffect on s) := rfl
@[simp] theorem exec_reload (primary : List (Nat × WordErr)) (mirror : List (Nat × WordErr)) (s : State) :
    exec (.reload primary mirror) s = .next (reloadEffect primary mirror s) := rfl
@[simp] theorem exec_vinGood (s : State) : exec .vinGood s = .next (vinGoodEffect s) := rfl
@[simp] theorem exec_debounceDone (s : State) : exec .debounceDone s = .next (debounceDoneEffect s) := rfl
@[simp] theorem exec_softstartDone (s : State) : exec .softstartDone s = .next (softstartDoneEffect s) := rfl
@[simp] theorem exec_vinOvervoltage (s : State) : exec .vinOvervoltage s = .next (vinOvervoltageEffect s) := rfl
@[simp] theorem exec_vinOvClear (s : State) : exec .vinOvClear s = .next (vinOvClearEffect s) := rfl
@[simp] theorem exec_vinOvercurrent (s : State) : exec .vinOvercurrent s = .next (vinOvercurrentEffect s) := rfl
@[simp] theorem exec_overcurrentRestart (s : State) :
    exec .overcurrentRestart s = .next (overcurrentRestartEffect s) := rfl
@[simp] theorem exec_vinLoss (s : State) : exec .vinLoss s = .next (vinLossEffect s) := rfl
@[simp] theorem exec_stagePass (s : State) : exec .stagePass s = .next (stagePassEffect s) := rfl
@[simp] theorem exec_stageFail (stage : Nat) (s : State) :
    exec (.stageFail stage) s = .next (stageFailEffect stage s) := rfl
@[simp] theorem exec_stageRetry (s : State) : exec .stageRetry s = .next (stageRetryEffect s) := rfl
@[simp] theorem exec_refclkPresent (s : State) : exec .refclkPresent s = .next (refclkPresentEffect s) := rfl
@[simp] theorem exec_rpllLock (s : State) : exec .rpllLock s = .next (rpllLockEffect s) := rfl
@[simp] theorem exec_bistComplete (failed : List Nat) (s : State) :
    exec (.bistComplete failed) s = .next (bistCompleteEffect failed s) := rfl
@[simp] theorem exec_bootSlotChecked (upsets : List (Nat × WordErr)) (s : State) :
    exec (.bootSlotChecked upsets) s = .next (bootSlotCheckedEffect upsets s) := rfl
@[simp] theorem exec_imageApply (s : State) : exec .imageApply s = .next (imageApplyEffect s) := rfl
@[simp] theorem exec_resetNAssert (s : State) : exec .resetNAssert s = .next (resetNAssertEffect s) := rfl
@[simp] theorem exec_resetNRelease (s : State) : exec .resetNRelease s = .next (resetNReleaseEffect s) := rfl
@[simp] theorem exec_railFailure (stage : Nat) (s : State) :
    exec (.railFailure stage) s = .next (railFailureEffect stage s) := rfl
@[simp] theorem exec_refclkLost (s : State) : exec .refclkLost s = .next (refclkLostEffect s) := rfl
@[simp] theorem exec_refclkReturn (s : State) : exec .refclkReturn s = .next (refclkReturnEffect s) := rfl
@[simp] theorem exec_drainComplete (d : Domain) (s : State) :
    exec (.drainComplete d) s = .next (drainCompleteEffect d s) := rfl
@[simp] theorem exec_drainDiscard (d : Domain) (s : State) :
    exec (.drainDiscard d) s = .next (drainDiscardEffect d s) := rfl
@[simp] theorem exec_addressMatchWake (dev : BitVec 7) (s : State) :
    exec (.addressMatchWake dev) s = .next (addressMatchWakeEffect dev s) := rfl
@[simp] theorem exec_aonBrownout (s : State) : exec .aonBrownout s = .next (aonBrownoutEffect s) := rfl
@[simp] theorem exec_thermalSample (raws : List Int) (s : State) :
    exec (.thermalSample raws) s = .next (thermalSampleEffect raws s) := rfl
@[simp] theorem exec_shutdownHold (s : State) : exec .shutdownHold s = .next (shutdownHoldEffect s) := rfl
@[simp] theorem exec_thresholdWrite (value : Word) (s : State) :
    exec (.thresholdWrite value) s = .next (thresholdWriteEffect value s) := rfl
@[simp] theorem exec_tileFailed (tile : TileId) (s : State) :
    exec (.tileFailed tile) s = .next (tileFailedEffect tile s) := rfl
@[simp] theorem exec_swapDone (tile : TileId) (s : State) :
    exec (.swapDone tile) s = .next (swapDoneEffect tile s) := rfl
@[simp] theorem exec_replaced (lane : Lane) (s : State) : exec (.replaced lane) s = .next (replacedEffect lane s) := rfl
@[simp] theorem exec_checkpoint (lane : Lane) (ok : Bool) (s : State) :
    exec (.checkpoint lane ok) s = .next (checkpointEffect lane ok s) := rfl
@[simp] theorem exec_bgSpareTest (s : State) : exec .bgSpareTest s = .next (bgSpareTestEffect s) := rfl
@[simp] theorem exec_spareFail (tile : TileId) (s : State) :
    exec (.spareFail tile) s = .next (spareFailEffect tile s) := rfl
@[simp] theorem exec_placementEval (r : Region) (s : State) :
    exec (.placementEval r) s = .next (placementEvalEffect r s) := rfl
@[simp] theorem exec_segmentMeasure (lane : Lane) (s : State) :
    exec (.segmentMeasure lane) s = .next (segmentMeasureEffect lane s) := rfl
@[simp] theorem exec_withdrawHalve (r : Region) (s : State) :
    exec (.withdrawHalve r) s = .next (withdrawHalveEffect r s) := rfl
@[simp] theorem exec_jtagInstruction (ir : TapInstr) (s : State) :
    exec (.jtagInstruction ir) s = .next (jtagInstructionEffect ir s) := rfl
@[simp] theorem exec_jtagInstructionExit (s : State) :
    exec .jtagInstructionExit s = .next (jtagInstructionExitEffect s) := rfl
@[simp] theorem exec_d0ResetEnd (primary : List (Nat × WordErr)) (mirror : List (Nat × WordErr)) (s : State) :
    exec (.d0ResetEnd primary mirror) s = .next (d0ResetEndEffect primary mirror s) := rfl
@[simp] theorem exec_amLock (lane : Lane) (portB : Bool) (on : Bool) (offA : Nat) (offB : Nat) (s : State) :
    exec (.amLock lane portB on offA offB) s = .next (amLockEffect lane portB on offA offB s) := rfl
@[simp] theorem exec_loadImageComplete (s : State) :
    exec .loadImageComplete s = .next (loadImageCompleteEffect s) := rfl
@[simp] theorem exec_bgSlicePass (tile : TileId) (s : State) :
    exec (.bgSlicePass tile) s = .next (bgSlicePassEffect tile s) := rfl
@[simp] theorem exec_returnToActive (d : Domain) (s : State) :
    exec (.returnToActive d) s = .next (returnToActiveEffect d s) := rfl

/-- The parts of the state that a command may change. -/
def Instr.parts (c : Instr) : List Part :=
  match c with
  | .cmdPush => [.regs, .queues]
  | .commandTake => [.regs, .mgmt, .counts, .queues]
  | .cplPop => [.mgmt, .intc]
  | .nop => [.regs, .mgmt, .counts, .queues]
  | .partialLoad => [.freeCtr, .regs, .mgmt, .intc, .counts, .queues, .lanes, .pools, .ports, .hosts, .dies,
      .loader, .power, .time, .sched, .trig, .bcn, .syn, .mem, .ctx, .therm, .test, .cal, .hk]
  | .partialOutageEnd _ => [.freeCtr, .regs, .mgmt, .intc, .counts, .queues, .lanes, .pools, .ports, .hosts, .dies,
      .loader, .power, .time, .sched, .trig, .bcn, .syn, .mem, .ctx, .therm, .test, .cal, .hk]
  | .slotBegin _ => [.freeCtr, .loader, .mram]
  | .slotChunk _ => [.freeCtr, .regs, .mgmt, .loader, .mram]
  | .slotEnd _ _ => [.regs, .mgmt, .loader, .mram]
  | .boot => [.regs, .mgmt, .intc, .counts, .queues, .lanes, .pools, .ports, .hosts, .dies, .loader, .power, .time,
      .sched, .trig, .bcn, .syn, .mem, .ctx, .therm, .test, .cal, .hk]
  | .keyWrite _ => [.regs, .loader, .keys]
  | .keyRevoke _ => [.loader, .keys]
  | .fill => [.regs, .mgmt, .loader, .mem, .ctx]
  | .storeBuffer => [.regs, .mgmt, .counts, .mem, .ctx]
  | .storeLive => [.regs, .mgmt, .counts, .mem, .ctx]
  | .remove => [.regs, .mgmt, .counts, .ctx]
  | .pin => [.regs, .mgmt, .counts, .ctx]
  | .unpin => [.regs, .mgmt, .counts, .ctx]
  | .applyNow => [.freeCtr, .regs, .mgmt, .counts, .lanes, .pools, .ports, .hosts, .dies, .mem, .ctx]
  | .clearAll => [.regs, .mgmt, .ctx]
  | .contextReadStored => [.regs, .mgmt, .counts, .ctx]
  | .contextReadLive => [.regs, .mgmt, .ctx]
  | .lookup => [.regs, .mgmt, .counts, .ctx]
  | .add => [.regs, .mgmt, .sched, .ctx]
  | .scheduleRemove => [.regs, .mgmt, .sched, .ctx]
  | .scheduleRead => [.regs, .mgmt]
  | .purge => [.regs, .mgmt, .sched]
  | .capture _ => [.regs, .mgmt, .dies]
  | .captureStart _ => [.regs, .mgmt, .dies]
  | .captureTrigger _ => [.dies]
  | .captureTimeout _ => [.dies]
  | .captureComplete _ => [.freeCtr, .regs, .mgmt, .lanes, .dies, .mem, .therm]
  | .bistRun => [.regs, .mgmt, .test]
  | .bistRunDone _ => [.regs, .mgmt, .test]
  | .wait => [.freeCtr, .regs, .mgmt, .intc, .counts, .queues, .lanes, .pools, .ports, .hosts, .dies, .loader,
      .power, .bcn, .syn, .mem, .ctx, .therm, .test, .cal]
  | .clockSwitchInternal => [.regs, .mgmt]
  | .clockSwitchMclk => [.regs, .mgmt]
  | .accept => [.regs, .mgmt, .time]
  | .set => [.time]
  | .registerWrite _ _ _ => [.freeCtr, .regs, .mgmt, .intc, .counts, .queues, .lanes, .pools, .ports, .hosts, .dies,
      .loader, .power, .time, .sched, .trig, .bcn, .syn, .mem, .ctx, .therm, .test, .cal, .hk]
  | .unmappedAccess _ _ _ => [.regs]
  | .mgmtWrite _ _ _ => [.freeCtr, .regs, .mgmt, .intc, .counts, .queues, .lanes, .pools, .ports, .hosts, .dies,
      .loader, .power, .time, .sched, .trig, .bcn, .syn, .mem, .ctx, .therm, .test, .cal, .hk]
  | .mgmtRead _ _ _ => [.freeCtr, .regs, .mgmt, .intc, .counts, .mem]
  | .entdaa _ => [.regs]
  | .setdasa _ _ => [.regs]
  | .setnewda _ => [.regs]
  | .rstdaa => [.regs]
  | .getpid => [.mgmt]
  | .getbcr => [.mgmt]
  | .getdcr => [.mgmt]
  | .getstatus => [.freeCtr, .mgmt]
  | .quadWrite _ _ => [.freeCtr, .regs, .mgmt, .intc, .counts, .queues, .lanes, .pools, .ports, .hosts, .dies,
      .loader, .power, .time, .sched, .trig, .bcn, .syn, .mem, .ctx, .therm, .test, .cal, .hk]
  | .quadRead _ _ _ _ => [.freeCtr, .regs, .mgmt, .intc, .counts, .mem]
  | .bulkStatus => [.mgmt]
  | .singleWrite _ _ => [.freeCtr, .regs, .mgmt, .intc, .counts, .queues, .lanes, .pools, .ports, .hosts, .dies,
      .loader, .power, .time, .sched, .trig, .bcn, .syn, .mem, .ctx, .therm, .test, .cal, .hk]
  | .singleRead _ _ _ _ => [.freeCtr, .regs, .mgmt, .intc, .counts, .mem]
  | .claim => [.regs, .mgmt, .intc, .counts]
  | .complete _ => [.regs, .intc, .counts]
  | .irqDelivery _ => [.regs, .intc, .counts]
  | .swSet _ => [.regs]
  | .countClr _ => [.regs]
  | .cntLoRead _ _ => [.regs, .mgmt]
  | .clear _ _ => [.counts]
  | .clearAllCounters _ => [.counts]
  | .freeze _ _ => [.regs]
  | .d1Reset _ _ => [.freeCtr, .regs, .mgmt, .counts, .queues, .lanes, .pools, .ports, .hosts, .dies, .loader, .bcn,
      .syn, .mem, .ctx, .therm, .test, .cal]
  | .pkgReset _ => [.regs, .mgmt, .intc, .counts, .queues, .lanes, .pools, .ports, .hosts, .dies, .loader, .power,
      .time, .sched, .trig, .bcn, .syn, .mem, .ctx, .therm, .test, .cal, .hk]
  | .lineDieReapply _ => [.freeCtr, .regs, .mgmt, .intc, .counts, .queues, .lanes, .pools, .ports, .hosts, .dies,
      .loader, .power, .time, .sched, .trig, .bcn, .syn, .mem, .ctx, .therm, .test, .cal, .hk]
  | .heldPartRetest _ _ => [.freeCtr, .regs, .mgmt, .queues, .lanes, .pools, .ports, .hosts, .dies, .bcn]
  | .hwmClr _ _ => [.queues]
  | .nmHwmClr _ => [.regs]
  | .queueEntry _ _ _ _ => [.freeCtr, .regs, .mgmt, .counts, .queues, .lanes, .pools, .ports, .hosts, .dies, .mem,
      .ctx]
  | .starve _ _ => [.freeCtr, .regs, .counts, .queues, .lanes, .ports, .hosts, .dies]
  | .restart _ => [.freeCtr, .regs, .mgmt, .counts, .lanes, .pools, .ports, .hosts, .dies, .mem, .ctx]
  | .presetLoad _ => [.freeCtr, .regs, .mgmt, .counts, .lanes, .pools, .ports, .hosts, .dies, .mem, .ctx]
  | .tapLoad _ _ _ => [.lanes, .pools]
  | .winWrite _ _ => [.regs, .lanes]
  | .start _ _ _ => [.regs, .lanes]
  | .histogramDone _ => [.regs]
  | .measWindowEnd _ => [.regs, .lanes]
  | .envCrossing _ _ => [.regs, .lanes]
  | .lightOn _ => [.regs, .counts, .lanes, .pools, .dies, .power, .bcn, .ctx]
  | .lightOff _ => [.freeCtr, .regs, .mgmt, .counts, .lanes, .pools, .ports, .hosts, .dies, .bcn, .mem, .ctx]
  | .agcMeasurement _ => [.regs, .lanes, .dies]
  | .trackingInterval _ => [.freeCtr, .regs, .lanes, .dies]
  | .cdrWindow _ => [.regs, .lanes]
  | .cdrDone _ => [.regs, .lanes, .dies]
  | .blindDone _ => [.regs, .lanes, .dies]
  | .ddDone _ => [.regs, .lanes, .dies]
  | .trainDone _ => [.regs, .lanes, .dies]
  | .acqTimeout _ => [.regs, .lanes, .pools, .dies]
  | .warmFail _ => [.regs, .lanes, .pools, .dies]
  | .codewordDecode _ => [.freeCtr, .regs, .counts, .queues, .lanes, .ports, .dies]
  | .syndromeLock _ => [.regs, .counts, .lanes, .dies]
  | .lockLost _ => [.freeCtr, .regs, .counts, .lanes, .ports, .hosts, .dies]
  | .groupLoss _ => [.freeCtr, .regs, .lanes, .ports]
  | .formatMismatch _ => [.regs, .lanes]
  | .codewordEncode _ => [.regs, .counts, .queues, .lanes, .bcn, .syn]
  | .squelch _ _ => [.regs]
  | .squelchEntry _ => [.regs, .counts, .lanes, .bcn, .syn]
  | .squelchRelease _ => [.regs, .lanes]
  | .pattern _ _ => [.regs, .lanes]
  | .commit _ => [.regs, .lanes]
  | .hostLockAcq _ => [.regs]
  | .hostLockLost _ _ => [.regs, .counts, .ports]
  | .rxRestart _ => [.regs, .counts, .ports]
  | .hostTxCommit _ => [.regs]
  | .hostCodeword _ _ => [.regs, .counts, .ports]
  | .hostGapEnd _ _ => [.ports]
  | .lineRsCodeword _ _ _ => [.regs, .counts, .ports]
  | .lfStart _ _ => [.regs, .ports]
  | .resume _ _ => [.regs, .ports]
  | .nutmegReadResume _ _ => [.ports]
  | .monAmLock _ _ _ _ _ => [.regs, .ports]
  | .groupCfgWrite _ => [.freeCtr, .regs, .mgmt, .counts, .lanes, .pools, .ports, .hosts, .dies, .bcn, .syn, .mem,
      .ctx]
  | .hashSeedWrite _ => [.regs]
  | .applyRecordsRead _ => [.freeCtr, .regs, .mgmt, .counts, .lanes, .pools, .ports, .hosts, .dies, .mem, .ctx]
  | .applyTransferDone _ => [.freeCtr, .regs, .mgmt, .counts, .lanes, .pools, .ports, .hosts, .dies, .mem, .ctx]
  | .contextApplied _ => [.freeCtr, .regs, .mgmt, .counts, .lanes, .pools, .ports, .hosts, .dies, .bcn, .mem, .ctx]
  | .idTimeout _ => [.regs, .counts, .lanes, .pools, .dies, .ctx]
  | .placementTick => [.regs, .counts, .ctx, .therm]
  | .cacheFillDone _ => [.regs, .counts, .ctx]
  | .relocated _ => [.regs, .mem, .ctx]
  | .send _ _ => [.regs, .bcn, .syn]
  | .txModeWrite _ _ => [.regs, .bcn]
  | .beaconFrameDue _ => [.regs, .bcn, .syn]
  | .beaconFrameStart _ => [.regs, .bcn]
  | .beaconDeparture _ => [.regs, .bcn]
  | .beaconTimestampReturn _ => [.bcn]
  | .sent _ => [.regs, .counts, .bcn, .syn]
  | .txChLoad _ _ => [.regs, .bcn, .syn]
  | .rxChLoad _ _ _ => [.regs, .bcn]
  | .synthLock _ _ => [.regs, .syn]
  | .noLock _ => [.regs, .bcn, .syn]
  | .synthBgCal _ _ => [.regs, .syn, .therm]
  | .noiseWindowEnd _ _ => [.regs, .bcn]
  | .beaconDetection _ _ _ => [.regs, .bcn]
  | .beaconReport _ _ => [.freeCtr, .regs, .mgmt, .counts, .lanes, .pools, .ports, .hosts, .dies, .bcn, .mem, .ctx]
  | .ppsEdge _ => [.regs, .time]
  | .todMessage _ => [.regs, .time]
  | .sumacFrame _ => [.regs, .time]
  | .sumacFrameSend => [.time]
  | .sumacConflict => [.regs]
  | .sumacRoleWrite _ => [.regs, .time]
  | .srcWrite _ => [.regs]
  | .sourceLoss => [.regs, .time]
  | .segmentBoundary => [.regs, .mgmt, .counts, .time, .sched, .trig]
  | .snap => [.regs]
  | .convTickHiWrite _ => [.regs]
  | .scheduleDue => [.sched]
  | .scheduleTrigger _ => [.freeCtr, .regs, .mgmt, .counts, .lanes, .pools, .ports, .hosts, .dies, .sched, .trig,
      .bcn, .syn, .mem, .ctx, .hk]
  | .arm _ => [.regs, .trig]
  | .trigPulse _ => [.regs, .trig, .hk]
  | .trigPulseEnd _ => [.trig]
  | .strobe _ => [.regs]
  | .spanWrite _ _ => [.regs, .hk]
  | .spanHoldEnd _ => [.regs, .hk]
  | .biasStrobe => [.regs, .hk]
  | .ditherUpdate => [.regs, .hk]
  | .sync _ => [.hk]
  | .targetWrite _ _ => [.regs, .hk]
  | .hkaConversion _ _ => [.regs, .hk]
  | .go _ => [.regs, .hk]
  | .runWrite _ _ => [.regs, .hk]
  | .rdIdxWrite _ => [.regs]
  | .filterSlot _ => [.regs, .hk]
  | .filtRunWrite _ => [.regs, .hk]
  | .latch => [.hk]
  | .filtCfgWrite _ _ => [.regs]
  | .enginePageRead => [.regs, .hk]
  | .enginePageReadDone _ _ => [.regs, .hk]
  | .read => [.regs, .hk]
  | .oeXferGo _ => [.regs, .hk]
  | .xferDone _ _ => [.regs, .hk]
  | .railLoss _ => [.regs, .hk]
  | .oeRailRetry _ _ => [.regs, .hk]
  | .oeCtlWrite _ _ _ => [.regs, .hk]
  | .memBurst _ _ _ => [.regs, .counts, .mem, .ctx, .therm]
  | .retrain => [.regs, .mem]
  | .retrainingDone _ => [.regs, .counts, .mem]
  | .d3TempRead _ _ => [.regs, .mem]
  | .refresh _ => [.regs, .counts, .mem]
  | .scrubBlock _ _ => [.regs, .counts, .mem, .therm]
  | .scrubEnWrite _ => [.regs]
  | .reload _ _ => [.regs, .loader, .mram, .cal]
  | .vinGood => [.regs, .power]
  | .debounceDone => [.power]
  | .softstartDone => [.regs, .power]
  | .vinOvervoltage => [.regs, .mgmt, .intc, .counts, .queues, .lanes, .pools, .ports, .hosts, .dies, .loader,
      .power, .time, .sched, .trig, .bcn, .syn, .mem, .ctx, .therm, .test, .cal, .hk, .tap]
  | .vinOvClear => [.power]
  | .vinOvercurrent => [.regs, .mgmt, .intc, .counts, .queues, .lanes, .pools, .ports, .hosts, .dies, .loader,
      .power, .time, .sched, .trig, .bcn, .syn, .mem, .ctx, .therm, .test, .cal, .hk, .tap]
  | .overcurrentRestart => [.power]
  | .vinLoss => [.regs, .mgmt, .intc, .counts, .queues, .lanes, .pools, .ports, .hosts, .dies, .loader, .power,
      .time, .sched, .trig, .bcn, .syn, .mem, .ctx, .therm, .test, .cal, .hk, .tap]
  | .stagePass => [.regs, .power, .hk]
  | .stageFail _ => [.regs, .mgmt, .intc, .counts, .queues, .lanes, .pools, .ports, .hosts, .dies, .loader, .power,
      .time, .sched, .trig, .bcn, .syn, .mem, .ctx, .therm, .test, .cal, .hk, .tap]
  | .stageRetry => [.regs, .power]
  | .refclkPresent => [.regs, .power]
  | .rpllLock => [.regs, .dies, .power, .syn, .mem]
  | .bistComplete _ => [.freeCtr, .regs, .power]
  | .bootSlotChecked _ => [.regs, .loader, .mram]
  | .imageApply => [.freeCtr, .regs, .mgmt, .intc, .counts, .queues, .lanes, .pools, .ports, .hosts, .dies, .loader,
      .power, .time, .sched, .trig, .bcn, .syn, .mem, .ctx, .therm, .test, .cal, .hk]
  | .resetNAssert => [.regs, .mgmt, .intc, .counts, .queues, .lanes, .pools, .ports, .hosts, .dies, .loader, .power,
      .time, .sched, .trig, .bcn, .syn, .mem, .ctx, .therm, .test, .cal, .hk]
  | .resetNRelease => [.regs, .power]
  | .railFailure _ => [.regs, .mgmt, .intc, .counts, .queues, .lanes, .pools, .ports, .hosts, .dies, .loader,
      .power, .time, .sched, .trig, .bcn, .syn, .mem, .ctx, .therm, .test, .cal, .hk, .tap]
  | .refclkLost => [.freeCtr, .regs, .mgmt, .counts, .queues, .lanes, .pools, .ports, .hosts, .dies, .loader,
      .power, .time, .bcn, .syn, .mem, .ctx, .therm, .test, .cal]
  | .refclkReturn => [.freeCtr, .regs, .mgmt, .intc, .counts, .queues, .lanes, .pools, .ports, .hosts, .dies,
      .loader, .power, .time, .sched, .trig, .bcn, .syn, .mem, .ctx, .therm, .test, .cal, .hk]
  | .drainComplete _ => [.freeCtr, .regs, .mgmt, .intc, .counts, .queues, .lanes, .pools, .ports, .hosts, .dies,
      .loader, .power, .time, .sched, .trig, .bcn, .syn, .mem, .ctx, .therm, .test, .cal, .hk, .tap]
  | .drainDiscard _ => [.freeCtr, .regs, .mgmt, .intc, .counts, .queues, .lanes, .pools, .ports, .hosts, .dies,
      .loader, .power, .time, .sched, .trig, .bcn, .syn, .mem, .ctx, .therm, .test, .cal, .hk, .tap]
  | .addressMatchWake _ => [.regs, .power]
  | .aonBrownout => [.regs, .mgmt, .intc, .counts, .queues, .lanes, .pools, .ports, .hosts, .dies, .loader, .power,
      .time, .sched, .trig, .bcn, .syn, .mem, .ctx, .therm, .test, .cal, .hk, .tap]
  | .thermalSample _ => [.regs, .hosts, .power, .therm]
  | .shutdownHold => [.regs, .mgmt, .intc, .counts, .queues, .lanes, .pools, .ports, .hosts, .dies, .loader, .power,
      .time, .sched, .trig, .bcn, .syn, .mem, .ctx, .therm, .test, .cal, .hk]
  | .thresholdWrite _ => [.regs]
  | .tileFailed _ => [.freeCtr, .regs, .mgmt, .counts, .queues, .lanes, .pools, .ports, .hosts, .dies, .bcn, .mem,
      .ctx, .test]
  | .swapDone _ => [.freeCtr, .regs, .mgmt, .counts, .queues, .lanes, .pools, .ports, .hosts, .dies, .bcn, .mem,
      .ctx, .test]
  | .replaced _ => [.freeCtr, .regs, .mgmt, .counts, .queues, .lanes, .pools, .ports, .hosts, .dies, .bcn, .mem,
      .ctx, .test]
  | .checkpoint _ _ => [.regs, .lanes]
  | .bgSpareTest => [.therm, .test]
  | .spareFail _ => [.regs, .therm, .test]
  | .placementEval _ => [.regs, .counts, .pools, .therm]
  | .segmentMeasure _ => [.lanes, .pools]
  | .withdrawHalve _ => [.regs, .counts, .pools]
  | .jtagInstruction _ => [.regs, .mgmt, .intc, .counts, .queues, .lanes, .pools, .ports, .hosts, .dies, .loader,
      .power, .time, .sched, .trig, .bcn, .syn, .mem, .ctx, .therm, .test, .cal, .hk, .tap]
  | .jtagInstructionExit => [.regs, .power, .tap]
  | .d0ResetEnd _ _ => [.regs, .dies, .loader, .mram, .power, .time, .syn, .mem, .ctx, .cal]
  | .amLock _ _ _ _ _ => [.regs, .counts, .ports]
  | .loadImageComplete => [.regs, .mgmt, .loader]
  | .bgSlicePass _ => [.regs, .therm, .test]
  | .returnToActive _ => [.freeCtr, .regs, .mgmt, .intc, .counts, .queues, .lanes, .pools, .ports, .hosts, .dies,
      .loader, .power, .time, .sched, .trig, .bcn, .syn, .mem, .ctx, .therm, .test, .cal, .hk]

/-- A command changes the parts listed for it at most, and keeps the canonical form. -/
theorem exec_keeps (c : Instr) (s t : State) (h : exec c s = .next t) : Keeps (Instr.parts c) s t := by
  cases c
  · cases h; exact cmdPushEffect_keeps _
  · cases h; exact State.take_keeps _
  · cases h; exact cplPopEffect_keeps _
  · cases h; exact nopEffect_keeps _
  · cases h; exact partialLoadEffect_keeps _
  · cases h; exact partialOutageEndEffect_keeps _ _
  · cases h; exact slotBeginEffect_keeps _ _
  · cases h; exact slotChunkEffect_keeps _ _
  · cases h; exact slotEndEffect_keeps _ _ _
  · cases h; exact bootEffect_keeps _
  · cases h; exact keyWriteEffect_keeps _ _
  · cases h; exact keyRevokeEffect_keeps _ _
  · cases h; exact fillEffect_keeps _
  · cases h; exact storeBufferEffect_keeps _
  · cases h; exact storeLiveEffect_keeps _
  · cases h; exact removeEffect_keeps _
  · cases h; exact pinEffect_keeps _
  · cases h; exact unpinEffect_keeps _
  · cases h; exact applyNowEffect_keeps _
  · cases h; exact clearAllEffect_keeps _
  · cases h; exact contextReadStoredEffect_keeps _
  · cases h; exact contextReadLiveEffect_keeps _
  · cases h; exact lookupEffect_keeps _
  · cases h; exact addEffect_keeps _
  · cases h; exact scheduleRemoveEffect_keeps _
  · cases h; exact scheduleReadEffect_keeps _
  · cases h; exact purgeEffect_keeps _
  · cases h; exact captureEffect_keeps _ _
  · cases h; exact captureStartEffect_keeps _ _
  · cases h; exact captureTriggerEffect_keeps _ _
  · cases h; exact captureTimeoutEffect_keeps _ _
  · cases h; exact captureCompleteEffect_keeps _ _
  · cases h; exact bistRunEffect_keeps _
  · cases h; exact bistRunDoneEffect_keeps _ _
  · cases h; exact waitEffect_keeps _
  · cases h; exact State.withHead_keeps _ _ _ _ _ rfl (Keeps.refl _ _) fun _ => (State.switchClock_keeps _ _ _).weaken rfl
  · cases h; exact State.withHead_keeps _ _ _ _ _ rfl (Keeps.refl _ _) fun _ => (State.switchClock_keeps _ _ _).weaken rfl
  · cases h; exact acceptEffect_keeps _
  · cases h; exact setEffect_keeps _
  · cases h; exact registerWriteEffect_keeps _ _ _ _
  · cases h; exact unmappedAccessEffect_keeps _ _ _ _
  · cases h; exact mgmtWriteEffect_keeps _ _ _ _
  · cases h; exact mgmtReadEffect_keeps _ _ _ _
  · cases h; exact entdaaEffect_keeps _ _
  · cases h; exact setdasaEffect_keeps _ _ _
  · cases h; exact setnewdaEffect_keeps _ _
  · cases h; exact rstdaaEffect_keeps _
  · cases h; exact getpidEffect_keeps _
  · cases h; exact getbcrEffect_keeps _
  · cases h; exact getdcrEffect_keeps _
  · cases h; exact getstatusEffect_keeps _
  · cases h; exact quadWriteEffect_keeps _ _ _
  · cases h; exact quadReadEffect_keeps _ _ _ _ _
  · cases h; exact bulkStatusEffect_keeps _
  · cases h; exact singleWriteEffect_keeps _ _ _
  · cases h; exact singleReadEffect_keeps _ _ _ _ _
  · cases h; exact claimEffect_keeps _
  · cases h; exact completeEffect_keeps _ _
  · cases h; exact irqDeliveryEffect_keeps _ _
  · cases h; exact swSetEffect_keeps _ _
  · cases h; exact countClrEffect_keeps _ _
  · cases h; exact cntLoReadEffect_keeps _ _ _
  · cases h; exact clearEffect_keeps _ _ _
  · cases h; exact clearAllCountersEffect_keeps _ _
  · cases h; exact freezeEffect_keeps _ _ _
  · cases h; exact d1ResetEffect_keeps _ _ _
  · cases h; exact pkgResetEffect_keeps _ _
  · cases h; exact lineDieReapplyEffect_keeps _ _
  · cases h; exact heldPartRetestEffect_keeps _ _ _
  · cases h; exact hwmClrEffect_keeps _ _ _
  · cases h; exact nmHwmClrEffect_keeps _ _
  · cases h; exact queueEntryEffect_keeps _ _ _ _ _
  · cases h; exact starveEffect_keeps _ _ _
  · cases h; exact restartEffect_keeps _ _
  · cases h; exact presetLoadEffect_keeps _ _
  · cases h; exact tapLoadEffect_keeps _ _ _ _
  · cases h; exact winWriteEffect_keeps _ _ _
  · cases h; exact startEffect_keeps _ _ _ _
  · cases h; exact histogramDoneEffect_keeps _ _
  · cases h; exact measWindowEndEffect_keeps _ _
  · cases h; exact envCrossingEffect_keeps _ _ _
  · cases h; exact lightOnEffect_keeps _ _
  · cases h; exact lightOffEffect_keeps _ _
  · cases h; exact agcMeasurementEffect_keeps _ _
  · cases h; exact trackingIntervalEffect_keeps _ _
  · cases h; exact cdrWindowEffect_keeps _ _
  · cases h; exact cdrDoneEffect_keeps _ _
  · cases h; exact blindDoneEffect_keeps _ _
  · cases h; exact ddDoneEffect_keeps _ _
  · cases h; exact trainDoneEffect_keeps _ _
  · cases h; exact acqTimeoutEffect_keeps _ _
  · cases h; exact warmFailEffect_keeps _ _
  · cases h; exact codewordDecodeEffect_keeps _ _
  · cases h; exact syndromeLockEffect_keeps _ _
  · cases h; exact lockLostEffect_keeps _ _
  · cases h; exact groupLossEffect_keeps _ _
  · cases h; exact formatMismatchEffect_keeps _ _
  · cases h; exact codewordEncodeEffect_keeps _ _
  · cases h; exact squelchEffect_keeps _ _ _
  · cases h; exact squelchEntryEffect_keeps _ _
  · cases h; exact squelchReleaseEffect_keeps _ _
  · cases h; exact patternEffect_keeps _ _ _
  · cases h; exact commitEffect_keeps _ _
  · cases h; exact hostLockAcqEffect_keeps _ _
  · cases h; exact hostLockLostEffect_keeps _ _ _
  · cases h; exact rxRestartEffect_keeps _ _
  · cases h; exact hostTxCommitEffect_keeps _ _
  · cases h; exact hostCodewordEffect_keeps _ _ _
  · cases h; exact hostGapEndEffect_keeps _ _ _
  · cases h; exact lineRsCodewordEffect_keeps _ _ _ _
  · cases h; exact lfStartEffect_keeps _ _ _
  · cases h; exact resumeEffect_keeps _ _ _
  · cases h; exact nutmegReadResumeEffect_keeps _ _ _
  · cases h; exact monAmLockEffect_keeps _ _ _ _ _ _
  · cases h; exact groupCfgWriteEffect_keeps _ _
  · cases h; exact hashSeedWriteEffect_keeps _ _
  · cases h; exact applyRecordsReadEffect_keeps _ _
  · cases h; exact applyTransferDoneEffect_keeps _ _
  · cases h; exact contextAppliedEffect_keeps _ _
  · cases h; exact idTimeoutEffect_keeps _ _
  · cases h; exact placementTickEffect_keeps _
  · cases h; exact cacheFillDoneEffect_keeps _ _
  · cases h; exact relocatedEffect_keeps _ _
  · cases h; exact sendEffect_keeps _ _ _
  · cases h; exact txModeWriteEffect_keeps _ _ _
  · cases h; exact beaconFrameDueEffect_keeps _ _
  · cases h; exact beaconFrameStartEffect_keeps _ _
  · cases h; exact beaconDepartureEffect_keeps _ _
  · cases h; exact beaconTimestampReturnEffect_keeps _ _
  · cases h; exact sentEffect_keeps _ _
  · cases h; exact txChLoadEffect_keeps _ _ _
  · cases h; exact rxChLoadEffect_keeps _ _ _ _
  · cases h; exact synthLockEffect_keeps _ _ _
  · cases h; exact noLockEffect_keeps _ _
  · cases h; exact synthBgCalEffect_keeps _ _ _
  · cases h; exact noiseWindowEndEffect_keeps _ _ _
  · cases h; exact beaconDetectionEffect_keeps _ _ _ _
  · cases h; exact beaconReportEffect_keeps _ _ _
  · cases h; exact ppsEdgeEffect_keeps _ _
  · cases h; exact todMessageEffect_keeps _ _
  · cases h; exact sumacFrameEffect_keeps _ _
  · cases h; exact sumacFrameSendEffect_keeps _
  · cases h; exact sumacConflictEffect_keeps _
  · cases h; exact sumacRoleWriteEffect_keeps _ _
  · cases h; exact srcWriteEffect_keeps _ _
  · cases h; exact sourceLossEffect_keeps _
  · cases h; exact segmentBoundaryEffect_keeps _
  · cases h; exact snapEffect_keeps _
  · cases h; exact convTickHiWriteEffect_keeps _ _
  · cases h; exact scheduleDueEffect_keeps _
  · cases h; exact scheduleTriggerEffect_keeps _ _
  · cases h; exact armEffect_keeps _ _
  · cases h; exact trigPulseEffect_keeps _ _
  · cases h; exact trigPulseEndEffect_keeps _ _
  · cases h; exact strobeEffect_keeps _ _
  · cases h; exact spanWriteEffect_keeps _ _ _
  · cases h; exact spanHoldEndEffect_keeps _ _
  · cases h; exact biasStrobeEffect_keeps _
  · cases h; exact ditherUpdateEffect_keeps _
  · cases h; exact syncEffect_keeps _ _
  · cases h; exact targetWriteEffect_keeps _ _ _
  · cases h; exact hkaConversionEffect_keeps _ _ _
  · cases h; exact goEffect_keeps _ _
  · cases h; exact runWriteEffect_keeps _ _ _
  · cases h; exact rdIdxWriteEffect_keeps _ _
  · cases h; exact filterSlotEffect_keeps _ _
  · cases h; exact filtRunWriteEffect_keeps _ _
  · cases h; exact latchEffect_keeps _
  · cases h; exact filtCfgWriteEffect_keeps _ _ _
  · cases h; exact enginePageReadEffect_keeps _
  · cases h; exact enginePageReadDoneEffect_keeps _ _ _
  · cases h; exact readEffect_keeps _
  · cases h; exact oeXferGoEffect_keeps _ _
  · cases h; exact xferDoneEffect_keeps _ _ _
  · cases h; exact railLossEffect_keeps _ _
  · cases h; exact oeRailRetryEffect_keeps _ _ _
  · cases h; exact oeCtlWriteEffect_keeps _ _ _ _
  · cases h; exact memBurstEffect_keeps _ _ _ _
  · cases h; exact retrainEffect_keeps _
  · cases h; exact retrainingDoneEffect_keeps _ _
  · cases h; exact d3TempReadEffect_keeps _ _ _
  · cases h; exact refreshEffect_keeps _ _
  · cases h; exact scrubBlockEffect_keeps _ _ _
  · cases h; exact scrubEnWriteEffect_keeps _ _
  · cases h; exact reloadEffect_keeps _ _ _
  · cases h; exact vinGoodEffect_keeps _
  · cases h; exact debounceDoneEffect_keeps _
  · cases h; exact softstartDoneEffect_keeps _
  · cases h; exact vinOvervoltageEffect_keeps _
  · cases h; exact vinOvClearEffect_keeps _
  · cases h; exact vinOvercurrentEffect_keeps _
  · cases h; exact overcurrentRestartEffect_keeps _
  · cases h; exact vinLossEffect_keeps _
  · cases h; exact stagePassEffect_keeps _
  · cases h; exact stageFailEffect_keeps _ _
  · cases h; exact stageRetryEffect_keeps _
  · cases h; exact refclkPresentEffect_keeps _
  · cases h; exact rpllLockEffect_keeps _
  · cases h; exact bistCompleteEffect_keeps _ _
  · cases h; exact bootSlotCheckedEffect_keeps _ _
  · cases h; exact imageApplyEffect_keeps _
  · cases h; exact resetNAssertEffect_keeps _
  · cases h; exact resetNReleaseEffect_keeps _
  · cases h; exact railFailureEffect_keeps _ _
  · cases h; exact refclkLostEffect_keeps _
  · cases h; exact refclkReturnEffect_keeps _
  · cases h; exact drainCompleteEffect_keeps _ _
  · cases h; exact drainDiscardEffect_keeps _ _
  · cases h; exact addressMatchWakeEffect_keeps _ _
  · cases h; exact aonBrownoutEffect_keeps _
  · cases h; exact thermalSampleEffect_keeps _ _
  · cases h; exact shutdownHoldEffect_keeps _
  · cases h; exact thresholdWriteEffect_keeps _ _
  · cases h; exact tileFailedEffect_keeps _ _
  · cases h; exact swapDoneEffect_keeps _ _
  · cases h; exact replacedEffect_keeps _ _
  · cases h; exact checkpointEffect_keeps _ _ _
  · cases h; exact bgSpareTestEffect_keeps _
  · cases h; exact spareFailEffect_keeps _ _
  · cases h; exact placementEvalEffect_keeps _ _
  · cases h; exact segmentMeasureEffect_keeps _ _
  · cases h; exact withdrawHalveEffect_keeps _ _
  · cases h; exact jtagInstructionEffect_keeps _ _
  · cases h; exact jtagInstructionExitEffect_keeps _
  · cases h; exact d0ResetEndEffect_keeps _ _ _
  · cases h; exact amLockEffect_keeps _ _ _ _ _ _
  · cases h; exact loadImageCompleteEffect_keeps _
  · cases h; exact bgSlicePassEffect_keeps _ _
  · cases h; exact returnToActiveEffect_keeps _ _

end Sys2Proof.Machine
end

