-- ==== Sys2Proof/Laws/KeepsTick.lean ====
section
/-!
SUPPORT. What each operation of Machine/Tick.lean leaves unchanged, and that it keeps the canonical form.
-/

namespace Sys2Proof.Machine

open Sys2Proof

theorem State.countCycle_keeps (s : State) : Keeps [.regs, .counts] s (State.countCycle s) := by
  unfold State.countCycle
  repeat' first
    | exact rfl | with_reducible exact Keeps.refl _ _ | with_reducible assumption
    | with_reducible refine (State.bump_keeps _ _ _ _).then ?_ ?_
    | with_reducible refine (State.countD0_keeps _ _ _ _).then ?_ ?_ | with_reducible refine Keeps.ite ?_ ?_
    | with_reducible refine Keeps.each ?_ (fun _ _ _ => ?_) | with_reducible refine Keeps.onlyIf ?_ (fun _ _ => ?_)
    | extract_lets | split | dsimp +zetaDelta only

theorem State.idleTick_keeps (s : State) : Keeps [.freeCtr, .regs, .mgmt, .intc, .counts, .queues, .lanes, .pools,
    .ports, .hosts, .dies, .loader, .power, .time, .sched, .trig, .bcn, .syn, .mem, .ctx, .therm, .test, .cal] s
    (State.idleTick s) := by
  unfold State.idleTick
  repeat' first
    | exact rfl | with_reducible exact Keeps.refl _ _ | with_reducible assumption
    | with_reducible refine (State.waitStep_keeps _).then ?_ ?_
    | with_reducible refine (State.bgStart_keeps _).then ?_ ?_
    | with_reducible refine (State.advanceTick_keeps _).then ?_ ?_
    | with_reducible refine (State.countCycle_keeps _).then ?_ ?_ | with_reducible refine Keeps.ite ?_ ?_
    | extract_lets | split | dsimp +zetaDelta only

end Sys2Proof.Machine
end

