-- ==== Sys2Proof/Laws/State.lean ====
section
/-!
SUPPORT. Each base update of the state changes one part: one lemma per field and per update, and reads after writes of the
register bank and of the typed parts.
-/

namespace Sys2Proof.Machine

open Sys2Proof

/-! ### Reads after writes -/

@[simp] theorem State.get_put_same (s : State) (f : Fld) (v : Nat) : (s.put f v).get f = v % 2 ^ f.width :=
  SMap.get_set_same _ _ _ _

theorem State.get_put_other (s : State) {f g : Fld} (v : Nat) (h : g.key ≠ f.key) : (s.put f v).get g = s.get g := by
  exact SMap.get_set_default _ _ _ _ h

@[simp] theorem State.getB_putB_same (s : State) (f : Fld) (b : Bool) (h : f.width = 1) : (s.putB f b).getB f = b := by
  unfold State.getB State.putB
  rw [State.get_put_same, h]
  cases b <;> rfl

@[simp] theorem State.lane_setLane_same (s : State) (n : Nat) (l : LaneSt) : (s.setLane n l).lane n = l :=
  SMap.get_set_same _ _ _ _
theorem State.lane_setLane_other (s : State) {n m : Nat} (l : LaneSt) (h : m ≠ n) : (s.setLane n l).lane m = s.lane m :=
  SMap.get_set_other _ _ _ h
@[simp] theorem State.pool_setPool_same (s : State) (n : Nat) (l : Pool) : (s.setPool n l).pool n = l :=
  SMap.get_set_same _ _ _ _
theorem State.pool_setPool_other (s : State) {n m : Nat} (l : Pool) (h : m ≠ n) : (s.setPool n l).pool m = s.pool m :=
  SMap.get_set_other _ _ _ h
@[simp] theorem State.port_setPort_same (s : State) (n : Nat) (l : Port) : (s.setPort n l).port n = l :=
  SMap.get_set_same _ _ _ _
theorem State.port_setPort_other (s : State) {n m : Nat} (l : Port) (h : m ≠ n) : (s.setPort n l).port m = s.port m :=
  SMap.get_set_other _ _ _ h
@[simp] theorem State.host_setHost_same (s : State) (n : Nat) (l : HostSt) : (s.setHost n l).host n = l :=
  SMap.get_set_same _ _ _ _
theorem State.host_setHost_other (s : State) {n m : Nat} (l : HostSt) (h : m ≠ n) : (s.setHost n l).host m = s.host m :=
  SMap.get_set_other _ _ _ h
@[simp] theorem State.die_setDie_same (s : State) (n : Nat) (l : DieSt) : (s.setDie n l).die n = l :=
  SMap.get_set_same _ _ _ _
theorem State.die_setDie_other (s : State) {n m : Nat} (l : DieSt) (h : m ≠ n) : (s.setDie n l).die m = s.die m :=
  SMap.get_set_other _ _ _ h
@[simp] theorem State.queue_setQueue_same (s : State) (q : QueueId) (x : QueueSt) : (s.setQueue q x).queue q = x :=
  SMap.get_set_same _ _ _ _

/-! ### `put` -/

@[simp] theorem State.put_pending (s : State) (f : Fld) (v : Nat) : (s.put f v).pending = s.pending := rfl
@[simp] theorem State.put_freeCtr (s : State) (f : Fld) (v : Nat) : (s.put f v).freeCtr = s.freeCtr := rfl
@[simp] theorem State.put_variant (s : State) (f : Fld) (v : Nat) : (s.put f v).variant = s.variant := rfl
@[simp] theorem State.put_serial (s : State) (f : Fld) (v : Nat) : (s.put f v).serial = s.serial := rfl
@[simp] theorem State.put_strap (s : State) (f : Fld) (v : Nat) : (s.put f v).strap = s.strap := rfl
@[simp] theorem State.put_mgmt (s : State) (f : Fld) (v : Nat) : (s.put f v).mgmt = s.mgmt := rfl
@[simp] theorem State.put_intc (s : State) (f : Fld) (v : Nat) : (s.put f v).intc = s.intc := rfl
@[simp] theorem State.put_counts (s : State) (f : Fld) (v : Nat) : (s.put f v).counts = s.counts := rfl
@[simp] theorem State.put_queues (s : State) (f : Fld) (v : Nat) : (s.put f v).queues = s.queues := rfl
@[simp] theorem State.put_lanes (s : State) (f : Fld) (v : Nat) : (s.put f v).lanes = s.lanes := rfl
@[simp] theorem State.put_pools (s : State) (f : Fld) (v : Nat) : (s.put f v).pools = s.pools := rfl
@[simp] theorem State.put_ports (s : State) (f : Fld) (v : Nat) : (s.put f v).ports = s.ports := rfl
@[simp] theorem State.put_hosts (s : State) (f : Fld) (v : Nat) : (s.put f v).hosts = s.hosts := rfl
@[simp] theorem State.put_dies (s : State) (f : Fld) (v : Nat) : (s.put f v).dies = s.dies := rfl
@[simp] theorem State.put_loader (s : State) (f : Fld) (v : Nat) : (s.put f v).loader = s.loader := rfl
@[simp] theorem State.put_keys (s : State) (f : Fld) (v : Nat) : (s.put f v).keys = s.keys := rfl
@[simp] theorem State.put_mram (s : State) (f : Fld) (v : Nat) : (s.put f v).mram = s.mram := rfl
@[simp] theorem State.put_power (s : State) (f : Fld) (v : Nat) : (s.put f v).power = s.power := rfl
@[simp] theorem State.put_time (s : State) (f : Fld) (v : Nat) : (s.put f v).time = s.time := rfl
@[simp] theorem State.put_sched (s : State) (f : Fld) (v : Nat) : (s.put f v).sched = s.sched := rfl
@[simp] theorem State.put_trig (s : State) (f : Fld) (v : Nat) : (s.put f v).trig = s.trig := rfl
@[simp] theorem State.put_bcn (s : State) (f : Fld) (v : Nat) : (s.put f v).bcn = s.bcn := rfl
@[simp] theorem State.put_syn (s : State) (f : Fld) (v : Nat) : (s.put f v).syn = s.syn := rfl
@[simp] theorem State.put_mem (s : State) (f : Fld) (v : Nat) : (s.put f v).mem = s.mem := rfl
@[simp] theorem State.put_ctx (s : State) (f : Fld) (v : Nat) : (s.put f v).ctx = s.ctx := rfl
@[simp] theorem State.put_therm (s : State) (f : Fld) (v : Nat) : (s.put f v).therm = s.therm := rfl
@[simp] theorem State.put_test (s : State) (f : Fld) (v : Nat) : (s.put f v).test = s.test := rfl
@[simp] theorem State.put_cal (s : State) (f : Fld) (v : Nat) : (s.put f v).cal = s.cal := rfl
@[simp] theorem State.put_hk (s : State) (f : Fld) (v : Nat) : (s.put f v).hk = s.hk := rfl
@[simp] theorem State.put_tap (s : State) (f : Fld) (v : Nat) : (s.put f v).tap = s.tap := rfl
@[simp] theorem State.put_lane (s : State) (f : Fld) (v : Nat) (m : Nat) : (s.put f v).lane m = s.lane m := rfl
@[simp] theorem State.put_pool (s : State) (f : Fld) (v : Nat) (m : Nat) : (s.put f v).pool m = s.pool m := rfl
@[simp] theorem State.put_port (s : State) (f : Fld) (v : Nat) (m : Nat) : (s.put f v).port m = s.port m := rfl
@[simp] theorem State.put_host (s : State) (f : Fld) (v : Nat) (m : Nat) : (s.put f v).host m = s.host m := rfl
@[simp] theorem State.put_die (s : State) (f : Fld) (v : Nat) (m : Nat) : (s.put f v).die m = s.die m := rfl
@[simp] theorem State.put_queue (s : State) (f : Fld) (v : Nat) (j : QueueId) : (s.put f v).queue j = s.queue j := rfl

/-! ### `setLane` -/

@[simp] theorem State.setLane_pending (s : State) (n : Nat) (l : LaneSt) : (s.setLane n l).pending = s.pending := rfl
@[simp] theorem State.setLane_freeCtr (s : State) (n : Nat) (l : LaneSt) : (s.setLane n l).freeCtr = s.freeCtr := rfl
@[simp] theorem State.setLane_variant (s : State) (n : Nat) (l : LaneSt) : (s.setLane n l).variant = s.variant := rfl
@[simp] theorem State.setLane_serial (s : State) (n : Nat) (l : LaneSt) : (s.setLane n l).serial = s.serial := rfl
@[simp] theorem State.setLane_strap (s : State) (n : Nat) (l : LaneSt) : (s.setLane n l).strap = s.strap := rfl
@[simp] theorem State.setLane_regs (s : State) (n : Nat) (l : LaneSt) : (s.setLane n l).regs = s.regs := rfl
@[simp] theorem State.setLane_mgmt (s : State) (n : Nat) (l : LaneSt) : (s.setLane n l).mgmt = s.mgmt := rfl
@[simp] theorem State.setLane_intc (s : State) (n : Nat) (l : LaneSt) : (s.setLane n l).intc = s.intc := rfl
@[simp] theorem State.setLane_counts (s : State) (n : Nat) (l : LaneSt) : (s.setLane n l).counts = s.counts := rfl
@[simp] theorem State.setLane_queues (s : State) (n : Nat) (l : LaneSt) : (s.setLane n l).queues = s.queues := rfl
@[simp] theorem State.setLane_pools (s : State) (n : Nat) (l : LaneSt) : (s.setLane n l).pools = s.pools := rfl
@[simp] theorem State.setLane_ports (s : State) (n : Nat) (l : LaneSt) : (s.setLane n l).ports = s.ports := rfl
@[simp] theorem State.setLane_hosts (s : State) (n : Nat) (l : LaneSt) : (s.setLane n l).hosts = s.hosts := rfl
@[simp] theorem State.setLane_dies (s : State) (n : Nat) (l : LaneSt) : (s.setLane n l).dies = s.dies := rfl
@[simp] theorem State.setLane_loader (s : State) (n : Nat) (l : LaneSt) : (s.setLane n l).loader = s.loader := rfl
@[simp] theorem State.setLane_keys (s : State) (n : Nat) (l : LaneSt) : (s.setLane n l).keys = s.keys := rfl
@[simp] theorem State.setLane_mram (s : State) (n : Nat) (l : LaneSt) : (s.setLane n l).mram = s.mram := rfl
@[simp] theorem State.setLane_power (s : State) (n : Nat) (l : LaneSt) : (s.setLane n l).power = s.power := rfl
@[simp] theorem State.setLane_time (s : State) (n : Nat) (l : LaneSt) : (s.setLane n l).time = s.time := rfl
@[simp] theorem State.setLane_sched (s : State) (n : Nat) (l : LaneSt) : (s.setLane n l).sched = s.sched := rfl
@[simp] theorem State.setLane_trig (s : State) (n : Nat) (l : LaneSt) : (s.setLane n l).trig = s.trig := rfl
@[simp] theorem State.setLane_bcn (s : State) (n : Nat) (l : LaneSt) : (s.setLane n l).bcn = s.bcn := rfl
@[simp] theorem State.setLane_syn (s : State) (n : Nat) (l : LaneSt) : (s.setLane n l).syn = s.syn := rfl
@[simp] theorem State.setLane_mem (s : State) (n : Nat) (l : LaneSt) : (s.setLane n l).mem = s.mem := rfl
@[simp] theorem State.setLane_ctx (s : State) (n : Nat) (l : LaneSt) : (s.setLane n l).ctx = s.ctx := rfl
@[simp] theorem State.setLane_therm (s : State) (n : Nat) (l : LaneSt) : (s.setLane n l).therm = s.therm := rfl
@[simp] theorem State.setLane_test (s : State) (n : Nat) (l : LaneSt) : (s.setLane n l).test = s.test := rfl
@[simp] theorem State.setLane_cal (s : State) (n : Nat) (l : LaneSt) : (s.setLane n l).cal = s.cal := rfl
@[simp] theorem State.setLane_hk (s : State) (n : Nat) (l : LaneSt) : (s.setLane n l).hk = s.hk := rfl
@[simp] theorem State.setLane_tap (s : State) (n : Nat) (l : LaneSt) : (s.setLane n l).tap = s.tap := rfl
@[simp] theorem State.setLane_get (s : State) (n : Nat) (l : LaneSt) (f : Fld) : (s.setLane n l).get f = s.get f := rfl
@[simp] theorem State.setLane_getB (s : State) (n : Nat) (l : LaneSt) (f : Fld) :
    (s.setLane n l).getB f = s.getB f := rfl
@[simp] theorem State.setLane_getZ (s : State) (n : Nat) (l : LaneSt) (f : Fld) :
    (s.setLane n l).getZ f = s.getZ f := rfl
@[simp] theorem State.setLane_pool (s : State) (n : Nat) (l : LaneSt) (m : Nat) :
    (s.setLane n l).pool m = s.pool m := rfl
@[simp] theorem State.setLane_port (s : State) (n : Nat) (l : LaneSt) (m : Nat) :
    (s.setLane n l).port m = s.port m := rfl
@[simp] theorem State.setLane_host (s : State) (n : Nat) (l : LaneSt) (m : Nat) :
    (s.setLane n l).host m = s.host m := rfl
@[simp] theorem State.setLane_die (s : State) (n : Nat) (l : LaneSt) (m : Nat) : (s.setLane n l).die m = s.die m := rfl
@[simp] theorem State.setLane_queue (s : State) (n : Nat) (l : LaneSt) (j : QueueId) :
    (s.setLane n l).queue j = s.queue j := rfl

/-! ### `setPool` -/

@[simp] theorem State.setPool_pending (s : State) (r : Nat) (p : Pool) : (s.setPool r p).pending = s.pending := rfl
@[simp] theorem State.setPool_freeCtr (s : State) (r : Nat) (p : Pool) : (s.setPool r p).freeCtr = s.freeCtr := rfl
@[simp] theorem State.setPool_variant (s : State) (r : Nat) (p : Pool) : (s.setPool r p).variant = s.variant := rfl
@[simp] theorem State.setPool_serial (s : State) (r : Nat) (p : Pool) : (s.setPool r p).serial = s.serial := rfl
@[simp] theorem State.setPool_strap (s : State) (r : Nat) (p : Pool) : (s.setPool r p).strap = s.strap := rfl
@[simp] theorem State.setPool_regs (s : State) (r : Nat) (p : Pool) : (s.setPool r p).regs = s.regs := rfl
@[simp] theorem State.setPool_mgmt (s : State) (r : Nat) (p : Pool) : (s.setPool r p).mgmt = s.mgmt := rfl
@[simp] theorem State.setPool_intc (s : State) (r : Nat) (p : Pool) : (s.setPool r p).intc = s.intc := rfl
@[simp] theorem State.setPool_counts (s : State) (r : Nat) (p : Pool) : (s.setPool r p).counts = s.counts := rfl
@[simp] theorem State.setPool_queues (s : State) (r : Nat) (p : Pool) : (s.setPool r p).queues = s.queues := rfl
@[simp] theorem State.setPool_lanes (s : State) (r : Nat) (p : Pool) : (s.setPool r p).lanes = s.lanes := rfl
@[simp] theorem State.setPool_ports (s : State) (r : Nat) (p : Pool) : (s.setPool r p).ports = s.ports := rfl
@[simp] theorem State.setPool_hosts (s : State) (r : Nat) (p : Pool) : (s.setPool r p).hosts = s.hosts := rfl
@[simp] theorem State.setPool_dies (s : State) (r : Nat) (p : Pool) : (s.setPool r p).dies = s.dies := rfl
@[simp] theorem State.setPool_loader (s : State) (r : Nat) (p : Pool) : (s.setPool r p).loader = s.loader := rfl
@[simp] theorem State.setPool_keys (s : State) (r : Nat) (p : Pool) : (s.setPool r p).keys = s.keys := rfl
@[simp] theorem State.setPool_mram (s : State) (r : Nat) (p : Pool) : (s.setPool r p).mram = s.mram := rfl
@[simp] theorem State.setPool_power (s : State) (r : Nat) (p : Pool) : (s.setPool r p).power = s.power := rfl
@[simp] theorem State.setPool_time (s : State) (r : Nat) (p : Pool) : (s.setPool r p).time = s.time := rfl
@[simp] theorem State.setPool_sched (s : State) (r : Nat) (p : Pool) : (s.setPool r p).sched = s.sched := rfl
@[simp] theorem State.setPool_trig (s : State) (r : Nat) (p : Pool) : (s.setPool r p).trig = s.trig := rfl
@[simp] theorem State.setPool_bcn (s : State) (r : Nat) (p : Pool) : (s.setPool r p).bcn = s.bcn := rfl
@[simp] theorem State.setPool_syn (s : State) (r : Nat) (p : Pool) : (s.setPool r p).syn = s.syn := rfl
@[simp] theorem State.setPool_mem (s : State) (r : Nat) (p : Pool) : (s.setPool r p).mem = s.mem := rfl
@[simp] theorem State.setPool_ctx (s : State) (r : Nat) (p : Pool) : (s.setPool r p).ctx = s.ctx := rfl
@[simp] theorem State.setPool_therm (s : State) (r : Nat) (p : Pool) : (s.setPool r p).therm = s.therm := rfl
@[simp] theorem State.setPool_test (s : State) (r : Nat) (p : Pool) : (s.setPool r p).test = s.test := rfl
@[simp] theorem State.setPool_cal (s : State) (r : Nat) (p : Pool) : (s.setPool r p).cal = s.cal := rfl
@[simp] theorem State.setPool_hk (s : State) (r : Nat) (p : Pool) : (s.setPool r p).hk = s.hk := rfl
@[simp] theorem State.setPool_tap (s : State) (r : Nat) (p : Pool) : (s.setPool r p).tap = s.tap := rfl
@[simp] theorem State.setPool_get (s : State) (r : Nat) (p : Pool) (f : Fld) : (s.setPool r p).get f = s.get f := rfl
@[simp] theorem State.setPool_getB (s : State) (r : Nat) (p : Pool) (f : Fld) : (s.setPool r p).getB f = s.getB f := rfl
@[simp] theorem State.setPool_getZ (s : State) (r : Nat) (p : Pool) (f : Fld) : (s.setPool r p).getZ f = s.getZ f := rfl
@[simp] theorem State.setPool_lane (s : State) (r : Nat) (p : Pool) (m : Nat) : (s.setPool r p).lane m = s.lane m := rfl
@[simp] theorem State.setPool_port (s : State) (r : Nat) (p : Pool) (m : Nat) : (s.setPool r p).port m = s.port m := rfl
@[simp] theorem State.setPool_host (s : State) (r : Nat) (p : Pool) (m : Nat) : (s.setPool r p).host m = s.host m := rfl
@[simp] theorem State.setPool_die (s : State) (r : Nat) (p : Pool) (m : Nat) : (s.setPool r p).die m = s.die m := rfl
@[simp] theorem State.setPool_queue (s : State) (r : Nat) (p : Pool) (j : QueueId) :
    (s.setPool r p).queue j = s.queue j := rfl

/-! ### `setPort` -/

@[simp] theorem State.setPort_pending (s : State) (n : Nat) (p : Port) : (s.setPort n p).pending = s.pending := rfl
@[simp] theorem State.setPort_freeCtr (s : State) (n : Nat) (p : Port) : (s.setPort n p).freeCtr = s.freeCtr := rfl
@[simp] theorem State.setPort_variant (s : State) (n : Nat) (p : Port) : (s.setPort n p).variant = s.variant := rfl
@[simp] theorem State.setPort_serial (s : State) (n : Nat) (p : Port) : (s.setPort n p).serial = s.serial := rfl
@[simp] theorem State.setPort_strap (s : State) (n : Nat) (p : Port) : (s.setPort n p).strap = s.strap := rfl
@[simp] theorem State.setPort_regs (s : State) (n : Nat) (p : Port) : (s.setPort n p).regs = s.regs := rfl
@[simp] theorem State.setPort_mgmt (s : State) (n : Nat) (p : Port) : (s.setPort n p).mgmt = s.mgmt := rfl
@[simp] theorem State.setPort_intc (s : State) (n : Nat) (p : Port) : (s.setPort n p).intc = s.intc := rfl
@[simp] theorem State.setPort_counts (s : State) (n : Nat) (p : Port) : (s.setPort n p).counts = s.counts := rfl
@[simp] theorem State.setPort_queues (s : State) (n : Nat) (p : Port) : (s.setPort n p).queues = s.queues := rfl
@[simp] theorem State.setPort_lanes (s : State) (n : Nat) (p : Port) : (s.setPort n p).lanes = s.lanes := rfl
@[simp] theorem State.setPort_pools (s : State) (n : Nat) (p : Port) : (s.setPort n p).pools = s.pools := rfl
@[simp] theorem State.setPort_hosts (s : State) (n : Nat) (p : Port) : (s.setPort n p).hosts = s.hosts := rfl
@[simp] theorem State.setPort_dies (s : State) (n : Nat) (p : Port) : (s.setPort n p).dies = s.dies := rfl
@[simp] theorem State.setPort_loader (s : State) (n : Nat) (p : Port) : (s.setPort n p).loader = s.loader := rfl
@[simp] theorem State.setPort_keys (s : State) (n : Nat) (p : Port) : (s.setPort n p).keys = s.keys := rfl
@[simp] theorem State.setPort_mram (s : State) (n : Nat) (p : Port) : (s.setPort n p).mram = s.mram := rfl
@[simp] theorem State.setPort_power (s : State) (n : Nat) (p : Port) : (s.setPort n p).power = s.power := rfl
@[simp] theorem State.setPort_time (s : State) (n : Nat) (p : Port) : (s.setPort n p).time = s.time := rfl
@[simp] theorem State.setPort_sched (s : State) (n : Nat) (p : Port) : (s.setPort n p).sched = s.sched := rfl
@[simp] theorem State.setPort_trig (s : State) (n : Nat) (p : Port) : (s.setPort n p).trig = s.trig := rfl
@[simp] theorem State.setPort_bcn (s : State) (n : Nat) (p : Port) : (s.setPort n p).bcn = s.bcn := rfl
@[simp] theorem State.setPort_syn (s : State) (n : Nat) (p : Port) : (s.setPort n p).syn = s.syn := rfl
@[simp] theorem State.setPort_mem (s : State) (n : Nat) (p : Port) : (s.setPort n p).mem = s.mem := rfl
@[simp] theorem State.setPort_ctx (s : State) (n : Nat) (p : Port) : (s.setPort n p).ctx = s.ctx := rfl
@[simp] theorem State.setPort_therm (s : State) (n : Nat) (p : Port) : (s.setPort n p).therm = s.therm := rfl
@[simp] theorem State.setPort_test (s : State) (n : Nat) (p : Port) : (s.setPort n p).test = s.test := rfl
@[simp] theorem State.setPort_cal (s : State) (n : Nat) (p : Port) : (s.setPort n p).cal = s.cal := rfl
@[simp] theorem State.setPort_hk (s : State) (n : Nat) (p : Port) : (s.setPort n p).hk = s.hk := rfl
@[simp] theorem State.setPort_tap (s : State) (n : Nat) (p : Port) : (s.setPort n p).tap = s.tap := rfl
@[simp] theorem State.setPort_get (s : State) (n : Nat) (p : Port) (f : Fld) : (s.setPort n p).get f = s.get f := rfl
@[simp] theorem State.setPort_getB (s : State) (n : Nat) (p : Port) (f : Fld) : (s.setPort n p).getB f = s.getB f := rfl
@[simp] theorem State.setPort_getZ (s : State) (n : Nat) (p : Port) (f : Fld) : (s.setPort n p).getZ f = s.getZ f := rfl
@[simp] theorem State.setPort_lane (s : State) (n : Nat) (p : Port) (m : Nat) : (s.setPort n p).lane m = s.lane m := rfl
@[simp] theorem State.setPort_pool (s : State) (n : Nat) (p : Port) (m : Nat) : (s.setPort n p).pool m = s.pool m := rfl
@[simp] theorem State.setPort_host (s : State) (n : Nat) (p : Port) (m : Nat) : (s.setPort n p).host m = s.host m := rfl
@[simp] theorem State.setPort_die (s : State) (n : Nat) (p : Port) (m : Nat) : (s.setPort n p).die m = s.die m := rfl
@[simp] theorem State.setPort_queue (s : State) (n : Nat) (p : Port) (j : QueueId) :
    (s.setPort n p).queue j = s.queue j := rfl

/-! ### `setHost` -/

@[simp] theorem State.setHost_pending (s : State) (h : Nat) (x : HostSt) : (s.setHost h x).pending = s.pending := rfl
@[simp] theorem State.setHost_freeCtr (s : State) (h : Nat) (x : HostSt) : (s.setHost h x).freeCtr = s.freeCtr := rfl
@[simp] theorem State.setHost_variant (s : State) (h : Nat) (x : HostSt) : (s.setHost h x).variant = s.variant := rfl
@[simp] theorem State.setHost_serial (s : State) (h : Nat) (x : HostSt) : (s.setHost h x).serial = s.serial := rfl
@[simp] theorem State.setHost_strap (s : State) (h : Nat) (x : HostSt) : (s.setHost h x).strap = s.strap := rfl
@[simp] theorem State.setHost_regs (s : State) (h : Nat) (x : HostSt) : (s.setHost h x).regs = s.regs := rfl
@[simp] theorem State.setHost_mgmt (s : State) (h : Nat) (x : HostSt) : (s.setHost h x).mgmt = s.mgmt := rfl
@[simp] theorem State.setHost_intc (s : State) (h : Nat) (x : HostSt) : (s.setHost h x).intc = s.intc := rfl
@[simp] theorem State.setHost_counts (s : State) (h : Nat) (x : HostSt) : (s.setHost h x).counts = s.counts := rfl
@[simp] theorem State.setHost_queues (s : State) (h : Nat) (x : HostSt) : (s.setHost h x).queues = s.queues := rfl
@[simp] theorem State.setHost_lanes (s : State) (h : Nat) (x : HostSt) : (s.setHost h x).lanes = s.lanes := rfl
@[simp] theorem State.setHost_pools (s : State) (h : Nat) (x : HostSt) : (s.setHost h x).pools = s.pools := rfl
@[simp] theorem State.setHost_ports (s : State) (h : Nat) (x : HostSt) : (s.setHost h x).ports = s.ports := rfl
@[simp] theorem State.setHost_dies (s : State) (h : Nat) (x : HostSt) : (s.setHost h x).dies = s.dies := rfl
@[simp] theorem State.setHost_loader (s : State) (h : Nat) (x : HostSt) : (s.setHost h x).loader = s.loader := rfl
@[simp] theorem State.setHost_keys (s : State) (h : Nat) (x : HostSt) : (s.setHost h x).keys = s.keys := rfl
@[simp] theorem State.setHost_mram (s : State) (h : Nat) (x : HostSt) : (s.setHost h x).mram = s.mram := rfl
@[simp] theorem State.setHost_power (s : State) (h : Nat) (x : HostSt) : (s.setHost h x).power = s.power := rfl
@[simp] theorem State.setHost_time (s : State) (h : Nat) (x : HostSt) : (s.setHost h x).time = s.time := rfl
@[simp] theorem State.setHost_sched (s : State) (h : Nat) (x : HostSt) : (s.setHost h x).sched = s.sched := rfl
@[simp] theorem State.setHost_trig (s : State) (h : Nat) (x : HostSt) : (s.setHost h x).trig = s.trig := rfl
@[simp] theorem State.setHost_bcn (s : State) (h : Nat) (x : HostSt) : (s.setHost h x).bcn = s.bcn := rfl
@[simp] theorem State.setHost_syn (s : State) (h : Nat) (x : HostSt) : (s.setHost h x).syn = s.syn := rfl
@[simp] theorem State.setHost_mem (s : State) (h : Nat) (x : HostSt) : (s.setHost h x).mem = s.mem := rfl
@[simp] theorem State.setHost_ctx (s : State) (h : Nat) (x : HostSt) : (s.setHost h x).ctx = s.ctx := rfl
@[simp] theorem State.setHost_therm (s : State) (h : Nat) (x : HostSt) : (s.setHost h x).therm = s.therm := rfl
@[simp] theorem State.setHost_test (s : State) (h : Nat) (x : HostSt) : (s.setHost h x).test = s.test := rfl
@[simp] theorem State.setHost_cal (s : State) (h : Nat) (x : HostSt) : (s.setHost h x).cal = s.cal := rfl
@[simp] theorem State.setHost_hk (s : State) (h : Nat) (x : HostSt) : (s.setHost h x).hk = s.hk := rfl
@[simp] theorem State.setHost_tap (s : State) (h : Nat) (x : HostSt) : (s.setHost h x).tap = s.tap := rfl
@[simp] theorem State.setHost_get (s : State) (h : Nat) (x : HostSt) (f : Fld) : (s.setHost h x).get f = s.get f := rfl
@[simp] theorem State.setHost_getB (s : State) (h : Nat) (x : HostSt) (f : Fld) :
    (s.setHost h x).getB f = s.getB f := rfl
@[simp] theorem State.setHost_getZ (s : State) (h : Nat) (x : HostSt) (f : Fld) :
    (s.setHost h x).getZ f = s.getZ f := rfl
@[simp] theorem State.setHost_lane (s : State) (h : Nat) (x : HostSt) (m : Nat) :
    (s.setHost h x).lane m = s.lane m := rfl
@[simp] theorem State.setHost_pool (s : State) (h : Nat) (x : HostSt) (m : Nat) :
    (s.setHost h x).pool m = s.pool m := rfl
@[simp] theorem State.setHost_port (s : State) (h : Nat) (x : HostSt) (m : Nat) :
    (s.setHost h x).port m = s.port m := rfl
@[simp] theorem State.setHost_die (s : State) (h : Nat) (x : HostSt) (m : Nat) : (s.setHost h x).die m = s.die m := rfl
@[simp] theorem State.setHost_queue (s : State) (h : Nat) (x : HostSt) (j : QueueId) :
    (s.setHost h x).queue j = s.queue j := rfl

/-! ### `setDie` -/

@[simp] theorem State.setDie_pending (s : State) (d : Nat) (x : DieSt) : (s.setDie d x).pending = s.pending := rfl
@[simp] theorem State.setDie_freeCtr (s : State) (d : Nat) (x : DieSt) : (s.setDie d x).freeCtr = s.freeCtr := rfl
@[simp] theorem State.setDie_variant (s : State) (d : Nat) (x : DieSt) : (s.setDie d x).variant = s.variant := rfl
@[simp] theorem State.setDie_serial (s : State) (d : Nat) (x : DieSt) : (s.setDie d x).serial = s.serial := rfl
@[simp] theorem State.setDie_strap (s : State) (d : Nat) (x : DieSt) : (s.setDie d x).strap = s.strap := rfl
@[simp] theorem State.setDie_regs (s : State) (d : Nat) (x : DieSt) : (s.setDie d x).regs = s.regs := rfl
@[simp] theorem State.setDie_mgmt (s : State) (d : Nat) (x : DieSt) : (s.setDie d x).mgmt = s.mgmt := rfl
@[simp] theorem State.setDie_intc (s : State) (d : Nat) (x : DieSt) : (s.setDie d x).intc = s.intc := rfl
@[simp] theorem State.setDie_counts (s : State) (d : Nat) (x : DieSt) : (s.setDie d x).counts = s.counts := rfl
@[simp] theorem State.setDie_queues (s : State) (d : Nat) (x : DieSt) : (s.setDie d x).queues = s.queues := rfl
@[simp] theorem State.setDie_lanes (s : State) (d : Nat) (x : DieSt) : (s.setDie d x).lanes = s.lanes := rfl
@[simp] theorem State.setDie_pools (s : State) (d : Nat) (x : DieSt) : (s.setDie d x).pools = s.pools := rfl
@[simp] theorem State.setDie_ports (s : State) (d : Nat) (x : DieSt) : (s.setDie d x).ports = s.ports := rfl
@[simp] theorem State.setDie_hosts (s : State) (d : Nat) (x : DieSt) : (s.setDie d x).hosts = s.hosts := rfl
@[simp] theorem State.setDie_loader (s : State) (d : Nat) (x : DieSt) : (s.setDie d x).loader = s.loader := rfl
@[simp] theorem State.setDie_keys (s : State) (d : Nat) (x : DieSt) : (s.setDie d x).keys = s.keys := rfl
@[simp] theorem State.setDie_mram (s : State) (d : Nat) (x : DieSt) : (s.setDie d x).mram = s.mram := rfl
@[simp] theorem State.setDie_power (s : State) (d : Nat) (x : DieSt) : (s.setDie d x).power = s.power := rfl
@[simp] theorem State.setDie_time (s : State) (d : Nat) (x : DieSt) : (s.setDie d x).time = s.time := rfl
@[simp] theorem State.setDie_sched (s : State) (d : Nat) (x : DieSt) : (s.setDie d x).sched = s.sched := rfl
@[simp] theorem State.setDie_trig (s : State) (d : Nat) (x : DieSt) : (s.setDie d x).trig = s.trig := rfl
@[simp] theorem State.setDie_bcn (s : State) (d : Nat) (x : DieSt) : (s.setDie d x).bcn = s.bcn := rfl
@[simp] theorem State.setDie_syn (s : State) (d : Nat) (x : DieSt) : (s.setDie d x).syn = s.syn := rfl
@[simp] theorem State.setDie_mem (s : State) (d : Nat) (x : DieSt) : (s.setDie d x).mem = s.mem := rfl
@[simp] theorem State.setDie_ctx (s : State) (d : Nat) (x : DieSt) : (s.setDie d x).ctx = s.ctx := rfl
@[simp] theorem State.setDie_therm (s : State) (d : Nat) (x : DieSt) : (s.setDie d x).therm = s.therm := rfl
@[simp] theorem State.setDie_test (s : State) (d : Nat) (x : DieSt) : (s.setDie d x).test = s.test := rfl
@[simp] theorem State.setDie_cal (s : State) (d : Nat) (x : DieSt) : (s.setDie d x).cal = s.cal := rfl
@[simp] theorem State.setDie_hk (s : State) (d : Nat) (x : DieSt) : (s.setDie d x).hk = s.hk := rfl
@[simp] theorem State.setDie_tap (s : State) (d : Nat) (x : DieSt) : (s.setDie d x).tap = s.tap := rfl
@[simp] theorem State.setDie_get (s : State) (d : Nat) (x : DieSt) (f : Fld) : (s.setDie d x).get f = s.get f := rfl
@[simp] theorem State.setDie_getB (s : State) (d : Nat) (x : DieSt) (f : Fld) : (s.setDie d x).getB f = s.getB f := rfl
@[simp] theorem State.setDie_getZ (s : State) (d : Nat) (x : DieSt) (f : Fld) : (s.setDie d x).getZ f = s.getZ f := rfl
@[simp] theorem State.setDie_lane (s : State) (d : Nat) (x : DieSt) (m : Nat) : (s.setDie d x).lane m = s.lane m := rfl
@[simp] theorem State.setDie_pool (s : State) (d : Nat) (x : DieSt) (m : Nat) : (s.setDie d x).pool m = s.pool m := rfl
@[simp] theorem State.setDie_port (s : State) (d : Nat) (x : DieSt) (m : Nat) : (s.setDie d x).port m = s.port m := rfl
@[simp] theorem State.setDie_host (s : State) (d : Nat) (x : DieSt) (m : Nat) : (s.setDie d x).host m = s.host m := rfl
@[simp] theorem State.setDie_queue (s : State) (d : Nat) (x : DieSt) (j : QueueId) :
    (s.setDie d x).queue j = s.queue j := rfl

/-! ### `setQueue` -/

@[simp] theorem State.setQueue_pending (s : State) (q : QueueId) (x : QueueSt) :
    (s.setQueue q x).pending = s.pending := rfl
@[simp] theorem State.setQueue_freeCtr (s : State) (q : QueueId) (x : QueueSt) :
    (s.setQueue q x).freeCtr = s.freeCtr := rfl
@[simp] theorem State.setQueue_variant (s : State) (q : QueueId) (x : QueueSt) :
    (s.setQueue q x).variant = s.variant := rfl
@[simp] theorem State.setQueue_serial (s : State) (q : QueueId) (x : QueueSt) :
    (s.setQueue q x).serial = s.serial := rfl
@[simp] theorem State.setQueue_strap (s : State) (q : QueueId) (x : QueueSt) : (s.setQueue q x).strap = s.strap := rfl
@[simp] theorem State.setQueue_regs (s : State) (q : QueueId) (x : QueueSt) : (s.setQueue q x).regs = s.regs := rfl
@[simp] theorem State.setQueue_mgmt (s : State) (q : QueueId) (x : QueueSt) : (s.setQueue q x).mgmt = s.mgmt := rfl
@[simp] theorem State.setQueue_intc (s : State) (q : QueueId) (x : QueueSt) : (s.setQueue q x).intc = s.intc := rfl
@[simp] theorem State.setQueue_counts (s : State) (q : QueueId) (x : QueueSt) :
    (s.setQueue q x).counts = s.counts := rfl
@[simp] theorem State.setQueue_lanes (s : State) (q : QueueId) (x : QueueSt) : (s.setQueue q x).lanes = s.lanes := rfl
@[simp] theorem State.setQueue_pools (s : State) (q : QueueId) (x : QueueSt) : (s.setQueue q x).pools = s.pools := rfl
@[simp] theorem State.setQueue_ports (s : State) (q : QueueId) (x : QueueSt) : (s.setQueue q x).ports = s.ports := rfl
@[simp] theorem State.setQueue_hosts (s : State) (q : QueueId) (x : QueueSt) : (s.setQueue q x).hosts = s.hosts := rfl
@[simp] theorem State.setQueue_dies (s : State) (q : QueueId) (x : QueueSt) : (s.setQueue q x).dies = s.dies := rfl
@[simp] theorem State.setQueue_loader (s : State) (q : QueueId) (x : QueueSt) :
    (s.setQueue q x).loader = s.loader := rfl
@[simp] theorem State.setQueue_keys (s : State) (q : QueueId) (x : QueueSt) : (s.setQueue q x).keys = s.keys := rfl
@[simp] theorem State.setQueue_mram (s : State) (q : QueueId) (x : QueueSt) : (s.setQueue q x).mram = s.mram := rfl
@[simp] theorem State.setQueue_power (s : State) (q : QueueId) (x : QueueSt) : (s.setQueue q x).power = s.power := rfl
@[simp] theorem State.setQueue_time (s : State) (q : QueueId) (x : QueueSt) : (s.setQueue q x).time = s.time := rfl
@[simp] theorem State.setQueue_sched (s : State) (q : QueueId) (x : QueueSt) : (s.setQueue q x).sched = s.sched := rfl
@[simp] theorem State.setQueue_trig (s : State) (q : QueueId) (x : QueueSt) : (s.setQueue q x).trig = s.trig := rfl
@[simp] theorem State.setQueue_bcn (s : State) (q : QueueId) (x : QueueSt) : (s.setQueue q x).bcn = s.bcn := rfl
@[simp] theorem State.setQueue_syn (s : State) (q : QueueId) (x : QueueSt) : (s.setQueue q x).syn = s.syn := rfl
@[simp] theorem State.setQueue_mem (s : State) (q : QueueId) (x : QueueSt) : (s.setQueue q x).mem = s.mem := rfl
@[simp] theorem State.setQueue_ctx (s : State) (q : QueueId) (x : QueueSt) : (s.setQueue q x).ctx = s.ctx := rfl
@[simp] theorem State.setQueue_therm (s : State) (q : QueueId) (x : QueueSt) : (s.setQueue q x).therm = s.therm := rfl
@[simp] theorem State.setQueue_test (s : State) (q : QueueId) (x : QueueSt) : (s.setQueue q x).test = s.test := rfl
@[simp] theorem State.setQueue_cal (s : State) (q : QueueId) (x : QueueSt) : (s.setQueue q x).cal = s.cal := rfl
@[simp] theorem State.setQueue_hk (s : State) (q : QueueId) (x : QueueSt) : (s.setQueue q x).hk = s.hk := rfl
@[simp] theorem State.setQueue_tap (s : State) (q : QueueId) (x : QueueSt) : (s.setQueue q x).tap = s.tap := rfl
@[simp] theorem State.setQueue_get (s : State) (q : QueueId) (x : QueueSt) (f : Fld) :
    (s.setQueue q x).get f = s.get f := rfl
@[simp] theorem State.setQueue_getB (s : State) (q : QueueId) (x : QueueSt) (f : Fld) :
    (s.setQueue q x).getB f = s.getB f := rfl
@[simp] theorem State.setQueue_getZ (s : State) (q : QueueId) (x : QueueSt) (f : Fld) :
    (s.setQueue q x).getZ f = s.getZ f := rfl
@[simp] theorem State.setQueue_lane (s : State) (q : QueueId) (x : QueueSt) (m : Nat) :
    (s.setQueue q x).lane m = s.lane m := rfl
@[simp] theorem State.setQueue_pool (s : State) (q : QueueId) (x : QueueSt) (m : Nat) :
    (s.setQueue q x).pool m = s.pool m := rfl
@[simp] theorem State.setQueue_port (s : State) (q : QueueId) (x : QueueSt) (m : Nat) :
    (s.setQueue q x).port m = s.port m := rfl
@[simp] theorem State.setQueue_host (s : State) (q : QueueId) (x : QueueSt) (m : Nat) :
    (s.setQueue q x).host m = s.host m := rfl
@[simp] theorem State.setQueue_die (s : State) (q : QueueId) (x : QueueSt) (m : Nat) :
    (s.setQueue q x).die m = s.die m := rfl

/-! ### `freed` -/

@[simp] theorem State.freed_pending (s : State) : s.freed.pending = s.pending := rfl
@[simp] theorem State.freed_variant (s : State) : s.freed.variant = s.variant := rfl
@[simp] theorem State.freed_serial (s : State) : s.freed.serial = s.serial := rfl
@[simp] theorem State.freed_strap (s : State) : s.freed.strap = s.strap := rfl
@[simp] theorem State.freed_regs (s : State) : s.freed.regs = s.regs := rfl
@[simp] theorem State.freed_mgmt (s : State) : s.freed.mgmt = s.mgmt := rfl
@[simp] theorem State.freed_intc (s : State) : s.freed.intc = s.intc := rfl
@[simp] theorem State.freed_counts (s : State) : s.freed.counts = s.counts := rfl
@[simp] theorem State.freed_queues (s : State) : s.freed.queues = s.queues := rfl
@[simp] theorem State.freed_lanes (s : State) : s.freed.lanes = s.lanes := rfl
@[simp] theorem State.freed_pools (s : State) : s.freed.pools = s.pools := rfl
@[simp] theorem State.freed_ports (s : State) : s.freed.ports = s.ports := rfl
@[simp] theorem State.freed_hosts (s : State) : s.freed.hosts = s.hosts := rfl
@[simp] theorem State.freed_dies (s : State) : s.freed.dies = s.dies := rfl
@[simp] theorem State.freed_loader (s : State) : s.freed.loader = s.loader := rfl
@[simp] theorem State.freed_keys (s : State) : s.freed.keys = s.keys := rfl
@[simp] theorem State.freed_mram (s : State) : s.freed.mram = s.mram := rfl
@[simp] theorem State.freed_power (s : State) : s.freed.power = s.power := rfl
@[simp] theorem State.freed_time (s : State) : s.freed.time = s.time := rfl
@[simp] theorem State.freed_sched (s : State) : s.freed.sched = s.sched := rfl
@[simp] theorem State.freed_trig (s : State) : s.freed.trig = s.trig := rfl
@[simp] theorem State.freed_bcn (s : State) : s.freed.bcn = s.bcn := rfl
@[simp] theorem State.freed_syn (s : State) : s.freed.syn = s.syn := rfl
@[simp] theorem State.freed_mem (s : State) : s.freed.mem = s.mem := rfl
@[simp] theorem State.freed_ctx (s : State) : s.freed.ctx = s.ctx := rfl
@[simp] theorem State.freed_therm (s : State) : s.freed.therm = s.therm := rfl
@[simp] theorem State.freed_test (s : State) : s.freed.test = s.test := rfl
@[simp] theorem State.freed_cal (s : State) : s.freed.cal = s.cal := rfl
@[simp] theorem State.freed_hk (s : State) : s.freed.hk = s.hk := rfl
@[simp] theorem State.freed_tap (s : State) : s.freed.tap = s.tap := rfl
@[simp] theorem State.freed_get (s : State) (f : Fld) : s.freed.get f = s.get f := rfl
@[simp] theorem State.freed_getB (s : State) (f : Fld) : s.freed.getB f = s.getB f := rfl
@[simp] theorem State.freed_getZ (s : State) (f : Fld) : s.freed.getZ f = s.getZ f := rfl
@[simp] theorem State.freed_lane (s : State) (m : Nat) : s.freed.lane m = s.lane m := rfl
@[simp] theorem State.freed_pool (s : State) (m : Nat) : s.freed.pool m = s.pool m := rfl
@[simp] theorem State.freed_port (s : State) (m : Nat) : s.freed.port m = s.port m := rfl
@[simp] theorem State.freed_host (s : State) (m : Nat) : s.freed.host m = s.host m := rfl
@[simp] theorem State.freed_die (s : State) (m : Nat) : s.freed.die m = s.die m := rfl
@[simp] theorem State.freed_queue (s : State) (j : QueueId) : s.freed.queue j = s.queue j := rfl

/-! ### `setCount` -/

@[simp] theorem State.setCount_pending (s : State) (d : Nat) (i : Nat) (v : Nat) :
    (s.setCount d i v).pending = s.pending := rfl
@[simp] theorem State.setCount_freeCtr (s : State) (d : Nat) (i : Nat) (v : Nat) :
    (s.setCount d i v).freeCtr = s.freeCtr := rfl
@[simp] theorem State.setCount_variant (s : State) (d : Nat) (i : Nat) (v : Nat) :
    (s.setCount d i v).variant = s.variant := rfl
@[simp] theorem State.setCount_serial (s : State) (d : Nat) (i : Nat) (v : Nat) :
    (s.setCount d i v).serial = s.serial := rfl
@[simp] theorem State.setCount_strap (s : State) (d : Nat) (i : Nat) (v : Nat) :
    (s.setCount d i v).strap = s.strap := rfl
@[simp] theorem State.setCount_regs (s : State) (d : Nat) (i : Nat) (v : Nat) : (s.setCount d i v).regs = s.regs := rfl
@[simp] theorem State.setCount_mgmt (s : State) (d : Nat) (i : Nat) (v : Nat) : (s.setCount d i v).mgmt = s.mgmt := rfl
@[simp] theorem State.setCount_intc (s : State) (d : Nat) (i : Nat) (v : Nat) : (s.setCount d i v).intc = s.intc := rfl
@[simp] theorem State.setCount_queues (s : State) (d : Nat) (i : Nat) (v : Nat) :
    (s.setCount d i v).queues = s.queues := rfl
@[simp] theorem State.setCount_lanes (s : State) (d : Nat) (i : Nat) (v : Nat) :
    (s.setCount d i v).lanes = s.lanes := rfl
@[simp] theorem State.setCount_pools (s : State) (d : Nat) (i : Nat) (v : Nat) :
    (s.setCount d i v).pools = s.pools := rfl
@[simp] theorem State.setCount_ports (s : State) (d : Nat) (i : Nat) (v : Nat) :
    (s.setCount d i v).ports = s.ports := rfl
@[simp] theorem State.setCount_hosts (s : State) (d : Nat) (i : Nat) (v : Nat) :
    (s.setCount d i v).hosts = s.hosts := rfl
@[simp] theorem State.setCount_dies (s : State) (d : Nat) (i : Nat) (v : Nat) : (s.setCount d i v).dies = s.dies := rfl
@[simp] theorem State.setCount_loader (s : State) (d : Nat) (i : Nat) (v : Nat) :
    (s.setCount d i v).loader = s.loader := rfl
@[simp] theorem State.setCount_keys (s : State) (d : Nat) (i : Nat) (v : Nat) : (s.setCount d i v).keys = s.keys := rfl
@[simp] theorem State.setCount_mram (s : State) (d : Nat) (i : Nat) (v : Nat) : (s.setCount d i v).mram = s.mram := rfl
@[simp] theorem State.setCount_power (s : State) (d : Nat) (i : Nat) (v : Nat) :
    (s.setCount d i v).power = s.power := rfl
@[simp] theorem State.setCount_time (s : State) (d : Nat) (i : Nat) (v : Nat) : (s.setCount d i v).time = s.time := rfl
@[simp] theorem State.setCount_sched (s : State) (d : Nat) (i : Nat) (v : Nat) :
    (s.setCount d i v).sched = s.sched := rfl
@[simp] theorem State.setCount_trig (s : State) (d : Nat) (i : Nat) (v : Nat) : (s.setCount d i v).trig = s.trig := rfl
@[simp] theorem State.setCount_bcn (s : State) (d : Nat) (i : Nat) (v : Nat) : (s.setCount d i v).bcn = s.bcn := rfl
@[simp] theorem State.setCount_syn (s : State) (d : Nat) (i : Nat) (v : Nat) : (s.setCount d i v).syn = s.syn := rfl
@[simp] theorem State.setCount_mem (s : State) (d : Nat) (i : Nat) (v : Nat) : (s.setCount d i v).mem = s.mem := rfl
@[simp] theorem State.setCount_ctx (s : State) (d : Nat) (i : Nat) (v : Nat) : (s.setCount d i v).ctx = s.ctx := rfl
@[simp] theorem State.setCount_therm (s : State) (d : Nat) (i : Nat) (v : Nat) :
    (s.setCount d i v).therm = s.therm := rfl
@[simp] theorem State.setCount_test (s : State) (d : Nat) (i : Nat) (v : Nat) : (s.setCount d i v).test = s.test := rfl
@[simp] theorem State.setCount_cal (s : State) (d : Nat) (i : Nat) (v : Nat) : (s.setCount d i v).cal = s.cal := rfl
@[simp] theorem State.setCount_hk (s : State) (d : Nat) (i : Nat) (v : Nat) : (s.setCount d i v).hk = s.hk := rfl
@[simp] theorem State.setCount_tap (s : State) (d : Nat) (i : Nat) (v : Nat) : (s.setCount d i v).tap = s.tap := rfl
@[simp] theorem State.setCount_get (s : State) (d : Nat) (i : Nat) (v : Nat) (f : Fld) :
    (s.setCount d i v).get f = s.get f := rfl
@[simp] theorem State.setCount_getB (s : State) (d : Nat) (i : Nat) (v : Nat) (f : Fld) :
    (s.setCount d i v).getB f = s.getB f := rfl
@[simp] theorem State.setCount_getZ (s : State) (d : Nat) (i : Nat) (v : Nat) (f : Fld) :
    (s.setCount d i v).getZ f = s.getZ f := rfl
@[simp] theorem State.setCount_lane (s : State) (d : Nat) (i : Nat) (v : Nat) (m : Nat) :
    (s.setCount d i v).lane m = s.lane m := rfl
@[simp] theorem State.setCount_pool (s : State) (d : Nat) (i : Nat) (v : Nat) (m : Nat) :
    (s.setCount d i v).pool m = s.pool m := rfl
@[simp] theorem State.setCount_port (s : State) (d : Nat) (i : Nat) (v : Nat) (m : Nat) :
    (s.setCount d i v).port m = s.port m := rfl
@[simp] theorem State.setCount_host (s : State) (d : Nat) (i : Nat) (v : Nat) (m : Nat) :
    (s.setCount d i v).host m = s.host m := rfl
@[simp] theorem State.setCount_die (s : State) (d : Nat) (i : Nat) (v : Nat) (m : Nat) :
    (s.setCount d i v).die m = s.die m := rfl
@[simp] theorem State.setCount_queue (s : State) (d : Nat) (i : Nat) (v : Nat) (j : QueueId) :
    (s.setCount d i v).queue j = s.queue j := rfl

/-! ### `answer` -/

@[simp] theorem State.answer_pending (s : State) (ws : List Nat) : (s.answer ws).pending = s.pending := rfl
@[simp] theorem State.answer_freeCtr (s : State) (ws : List Nat) : (s.answer ws).freeCtr = s.freeCtr := rfl
@[simp] theorem State.answer_variant (s : State) (ws : List Nat) : (s.answer ws).variant = s.variant := rfl
@[simp] theorem State.answer_serial (s : State) (ws : List Nat) : (s.answer ws).serial = s.serial := rfl
@[simp] theorem State.answer_strap (s : State) (ws : List Nat) : (s.answer ws).strap = s.strap := rfl
@[simp] theorem State.answer_regs (s : State) (ws : List Nat) : (s.answer ws).regs = s.regs := rfl
@[simp] theorem State.answer_intc (s : State) (ws : List Nat) : (s.answer ws).intc = s.intc := rfl
@[simp] theorem State.answer_counts (s : State) (ws : List Nat) : (s.answer ws).counts = s.counts := rfl
@[simp] theorem State.answer_queues (s : State) (ws : List Nat) : (s.answer ws).queues = s.queues := rfl
@[simp] theorem State.answer_lanes (s : State) (ws : List Nat) : (s.answer ws).lanes = s.lanes := rfl
@[simp] theorem State.answer_pools (s : State) (ws : List Nat) : (s.answer ws).pools = s.pools := rfl
@[simp] theorem State.answer_ports (s : State) (ws : List Nat) : (s.answer ws).ports = s.ports := rfl
@[simp] theorem State.answer_hosts (s : State) (ws : List Nat) : (s.answer ws).hosts = s.hosts := rfl
@[simp] theorem State.answer_dies (s : State) (ws : List Nat) : (s.answer ws).dies = s.dies := rfl
@[simp] theorem State.answer_loader (s : State) (ws : List Nat) : (s.answer ws).loader = s.loader := rfl
@[simp] theorem State.answer_keys (s : State) (ws : List Nat) : (s.answer ws).keys = s.keys := rfl
@[simp] theorem State.answer_mram (s : State) (ws : List Nat) : (s.answer ws).mram = s.mram := rfl
@[simp] theorem State.answer_power (s : State) (ws : List Nat) : (s.answer ws).power = s.power := rfl
@[simp] theorem State.answer_time (s : State) (ws : List Nat) : (s.answer ws).time = s.time := rfl
@[simp] theorem State.answer_sched (s : State) (ws : List Nat) : (s.answer ws).sched = s.sched := rfl
@[simp] theorem State.answer_trig (s : State) (ws : List Nat) : (s.answer ws).trig = s.trig := rfl
@[simp] theorem State.answer_bcn (s : State) (ws : List Nat) : (s.answer ws).bcn = s.bcn := rfl
@[simp] theorem State.answer_syn (s : State) (ws : List Nat) : (s.answer ws).syn = s.syn := rfl
@[simp] theorem State.answer_mem (s : State) (ws : List Nat) : (s.answer ws).mem = s.mem := rfl
@[simp] theorem State.answer_ctx (s : State) (ws : List Nat) : (s.answer ws).ctx = s.ctx := rfl
@[simp] theorem State.answer_therm (s : State) (ws : List Nat) : (s.answer ws).therm = s.therm := rfl
@[simp] theorem State.answer_test (s : State) (ws : List Nat) : (s.answer ws).test = s.test := rfl
@[simp] theorem State.answer_cal (s : State) (ws : List Nat) : (s.answer ws).cal = s.cal := rfl
@[simp] theorem State.answer_hk (s : State) (ws : List Nat) : (s.answer ws).hk = s.hk := rfl
@[simp] theorem State.answer_tap (s : State) (ws : List Nat) : (s.answer ws).tap = s.tap := rfl
@[simp] theorem State.answer_get (s : State) (ws : List Nat) (f : Fld) : (s.answer ws).get f = s.get f := rfl
@[simp] theorem State.answer_getB (s : State) (ws : List Nat) (f : Fld) : (s.answer ws).getB f = s.getB f := rfl
@[simp] theorem State.answer_getZ (s : State) (ws : List Nat) (f : Fld) : (s.answer ws).getZ f = s.getZ f := rfl
@[simp] theorem State.answer_lane (s : State) (ws : List Nat) (m : Nat) : (s.answer ws).lane m = s.lane m := rfl
@[simp] theorem State.answer_pool (s : State) (ws : List Nat) (m : Nat) : (s.answer ws).pool m = s.pool m := rfl
@[simp] theorem State.answer_port (s : State) (ws : List Nat) (m : Nat) : (s.answer ws).port m = s.port m := rfl
@[simp] theorem State.answer_host (s : State) (ws : List Nat) (m : Nat) : (s.answer ws).host m = s.host m := rfl
@[simp] theorem State.answer_die (s : State) (ws : List Nat) (m : Nat) : (s.answer ws).die m = s.die m := rfl
@[simp] theorem State.answer_queue (s : State) (ws : List Nat) (j : QueueId) : (s.answer ws).queue j = s.queue j := rfl

/-! ### `setTime` -/

@[simp] theorem State.setTime_pending (s : State) (t : TimeSt) : (s.setTime t).pending = s.pending := rfl
@[simp] theorem State.setTime_freeCtr (s : State) (t : TimeSt) : (s.setTime t).freeCtr = s.freeCtr := rfl
@[simp] theorem State.setTime_variant (s : State) (t : TimeSt) : (s.setTime t).variant = s.variant := rfl
@[simp] theorem State.setTime_serial (s : State) (t : TimeSt) : (s.setTime t).serial = s.serial := rfl
@[simp] theorem State.setTime_strap (s : State) (t : TimeSt) : (s.setTime t).strap = s.strap := rfl
@[simp] theorem State.setTime_regs (s : State) (t : TimeSt) : (s.setTime t).regs = s.regs := rfl
@[simp] theorem State.setTime_mgmt (s : State) (t : TimeSt) : (s.setTime t).mgmt = s.mgmt := rfl
@[simp] theorem State.setTime_intc (s : State) (t : TimeSt) : (s.setTime t).intc = s.intc := rfl
@[simp] theorem State.setTime_counts (s : State) (t : TimeSt) : (s.setTime t).counts = s.counts := rfl
@[simp] theorem State.setTime_queues (s : State) (t : TimeSt) : (s.setTime t).queues = s.queues := rfl
@[simp] theorem State.setTime_lanes (s : State) (t : TimeSt) : (s.setTime t).lanes = s.lanes := rfl
@[simp] theorem State.setTime_pools (s : State) (t : TimeSt) : (s.setTime t).pools = s.pools := rfl
@[simp] theorem State.setTime_ports (s : State) (t : TimeSt) : (s.setTime t).ports = s.ports := rfl
@[simp] theorem State.setTime_hosts (s : State) (t : TimeSt) : (s.setTime t).hosts = s.hosts := rfl
@[simp] theorem State.setTime_dies (s : State) (t : TimeSt) : (s.setTime t).dies = s.dies := rfl
@[simp] theorem State.setTime_loader (s : State) (t : TimeSt) : (s.setTime t).loader = s.loader := rfl
@[simp] theorem State.setTime_keys (s : State) (t : TimeSt) : (s.setTime t).keys = s.keys := rfl
@[simp] theorem State.setTime_mram (s : State) (t : TimeSt) : (s.setTime t).mram = s.mram := rfl
@[simp] theorem State.setTime_power (s : State) (t : TimeSt) : (s.setTime t).power = s.power := rfl
@[simp] theorem State.setTime_sched (s : State) (t : TimeSt) : (s.setTime t).sched = s.sched := rfl
@[simp] theorem State.setTime_trig (s : State) (t : TimeSt) : (s.setTime t).trig = s.trig := rfl
@[simp] theorem State.setTime_bcn (s : State) (t : TimeSt) : (s.setTime t).bcn = s.bcn := rfl
@[simp] theorem State.setTime_syn (s : State) (t : TimeSt) : (s.setTime t).syn = s.syn := rfl
@[simp] theorem State.setTime_mem (s : State) (t : TimeSt) : (s.setTime t).mem = s.mem := rfl
@[simp] theorem State.setTime_ctx (s : State) (t : TimeSt) : (s.setTime t).ctx = s.ctx := rfl
@[simp] theorem State.setTime_therm (s : State) (t : TimeSt) : (s.setTime t).therm = s.therm := rfl
@[simp] theorem State.setTime_test (s : State) (t : TimeSt) : (s.setTime t).test = s.test := rfl
@[simp] theorem State.setTime_cal (s : State) (t : TimeSt) : (s.setTime t).cal = s.cal := rfl
@[simp] theorem State.setTime_hk (s : State) (t : TimeSt) : (s.setTime t).hk = s.hk := rfl
@[simp] theorem State.setTime_tap (s : State) (t : TimeSt) : (s.setTime t).tap = s.tap := rfl
@[simp] theorem State.setTime_time (s : State) (t : TimeSt) : (s.setTime t).time = t := rfl
@[simp] theorem State.setTime_get (s : State) (t : TimeSt) (f : Fld) : (s.setTime t).get f = s.get f := rfl
@[simp] theorem State.setTime_getB (s : State) (t : TimeSt) (f : Fld) : (s.setTime t).getB f = s.getB f := rfl
@[simp] theorem State.setTime_getZ (s : State) (t : TimeSt) (f : Fld) : (s.setTime t).getZ f = s.getZ f := rfl
@[simp] theorem State.setTime_lane (s : State) (t : TimeSt) (m : Nat) : (s.setTime t).lane m = s.lane m := rfl
@[simp] theorem State.setTime_pool (s : State) (t : TimeSt) (m : Nat) : (s.setTime t).pool m = s.pool m := rfl
@[simp] theorem State.setTime_port (s : State) (t : TimeSt) (m : Nat) : (s.setTime t).port m = s.port m := rfl
@[simp] theorem State.setTime_host (s : State) (t : TimeSt) (m : Nat) : (s.setTime t).host m = s.host m := rfl
@[simp] theorem State.setTime_die (s : State) (t : TimeSt) (m : Nat) : (s.setTime t).die m = s.die m := rfl
@[simp] theorem State.setTime_queue (s : State) (t : TimeSt) (j : QueueId) : (s.setTime t).queue j = s.queue j := rfl

/-! ### `setHk` -/

@[simp] theorem State.setHk_pending (s : State) (h : HkSt) : (s.setHk h).pending = s.pending := rfl
@[simp] theorem State.setHk_freeCtr (s : State) (h : HkSt) : (s.setHk h).freeCtr = s.freeCtr := rfl
@[simp] theorem State.setHk_variant (s : State) (h : HkSt) : (s.setHk h).variant = s.variant := rfl
@[simp] theorem State.setHk_serial (s : State) (h : HkSt) : (s.setHk h).serial = s.serial := rfl
@[simp] theorem State.setHk_strap (s : State) (h : HkSt) : (s.setHk h).strap = s.strap := rfl
@[simp] theorem State.setHk_regs (s : State) (h : HkSt) : (s.setHk h).regs = s.regs := rfl
@[simp] theorem State.setHk_mgmt (s : State) (h : HkSt) : (s.setHk h).mgmt = s.mgmt := rfl
@[simp] theorem State.setHk_intc (s : State) (h : HkSt) : (s.setHk h).intc = s.intc := rfl
@[simp] theorem State.setHk_counts (s : State) (h : HkSt) : (s.setHk h).counts = s.counts := rfl
@[simp] theorem State.setHk_queues (s : State) (h : HkSt) : (s.setHk h).queues = s.queues := rfl
@[simp] theorem State.setHk_lanes (s : State) (h : HkSt) : (s.setHk h).lanes = s.lanes := rfl
@[simp] theorem State.setHk_pools (s : State) (h : HkSt) : (s.setHk h).pools = s.pools := rfl
@[simp] theorem State.setHk_ports (s : State) (h : HkSt) : (s.setHk h).ports = s.ports := rfl
@[simp] theorem State.setHk_hosts (s : State) (h : HkSt) : (s.setHk h).hosts = s.hosts := rfl
@[simp] theorem State.setHk_dies (s : State) (h : HkSt) : (s.setHk h).dies = s.dies := rfl
@[simp] theorem State.setHk_loader (s : State) (h : HkSt) : (s.setHk h).loader = s.loader := rfl
@[simp] theorem State.setHk_keys (s : State) (h : HkSt) : (s.setHk h).keys = s.keys := rfl
@[simp] theorem State.setHk_mram (s : State) (h : HkSt) : (s.setHk h).mram = s.mram := rfl
@[simp] theorem State.setHk_power (s : State) (h : HkSt) : (s.setHk h).power = s.power := rfl
@[simp] theorem State.setHk_time (s : State) (h : HkSt) : (s.setHk h).time = s.time := rfl
@[simp] theorem State.setHk_sched (s : State) (h : HkSt) : (s.setHk h).sched = s.sched := rfl
@[simp] theorem State.setHk_trig (s : State) (h : HkSt) : (s.setHk h).trig = s.trig := rfl
@[simp] theorem State.setHk_bcn (s : State) (h : HkSt) : (s.setHk h).bcn = s.bcn := rfl
@[simp] theorem State.setHk_syn (s : State) (h : HkSt) : (s.setHk h).syn = s.syn := rfl
@[simp] theorem State.setHk_mem (s : State) (h : HkSt) : (s.setHk h).mem = s.mem := rfl
@[simp] theorem State.setHk_ctx (s : State) (h : HkSt) : (s.setHk h).ctx = s.ctx := rfl
@[simp] theorem State.setHk_therm (s : State) (h : HkSt) : (s.setHk h).therm = s.therm := rfl
@[simp] theorem State.setHk_test (s : State) (h : HkSt) : (s.setHk h).test = s.test := rfl
@[simp] theorem State.setHk_cal (s : State) (h : HkSt) : (s.setHk h).cal = s.cal := rfl
@[simp] theorem State.setHk_tap (s : State) (h : HkSt) : (s.setHk h).tap = s.tap := rfl
@[simp] theorem State.setHk_hk (s : State) (h : HkSt) : (s.setHk h).hk = h := rfl
@[simp] theorem State.setHk_get (s : State) (h : HkSt) (f : Fld) : (s.setHk h).get f = s.get f := rfl
@[simp] theorem State.setHk_getB (s : State) (h : HkSt) (f : Fld) : (s.setHk h).getB f = s.getB f := rfl
@[simp] theorem State.setHk_getZ (s : State) (h : HkSt) (f : Fld) : (s.setHk h).getZ f = s.getZ f := rfl
@[simp] theorem State.setHk_lane (s : State) (h : HkSt) (m : Nat) : (s.setHk h).lane m = s.lane m := rfl
@[simp] theorem State.setHk_pool (s : State) (h : HkSt) (m : Nat) : (s.setHk h).pool m = s.pool m := rfl
@[simp] theorem State.setHk_port (s : State) (h : HkSt) (m : Nat) : (s.setHk h).port m = s.port m := rfl
@[simp] theorem State.setHk_host (s : State) (h : HkSt) (m : Nat) : (s.setHk h).host m = s.host m := rfl
@[simp] theorem State.setHk_die (s : State) (h : HkSt) (m : Nat) : (s.setHk h).die m = s.die m := rfl
@[simp] theorem State.setHk_queue (s : State) (h : HkSt) (j : QueueId) : (s.setHk h).queue j = s.queue j := rfl

/-! ### `setPower` -/

@[simp] theorem State.setPower_pending (s : State) (p : PowerSt) : (s.setPower p).pending = s.pending := rfl
@[simp] theorem State.setPower_freeCtr (s : State) (p : PowerSt) : (s.setPower p).freeCtr = s.freeCtr := rfl
@[simp] theorem State.setPower_variant (s : State) (p : PowerSt) : (s.setPower p).variant = s.variant := rfl
@[simp] theorem State.setPower_serial (s : State) (p : PowerSt) : (s.setPower p).serial = s.serial := rfl
@[simp] theorem State.setPower_strap (s : State) (p : PowerSt) : (s.setPower p).strap = s.strap := rfl
@[simp] theorem State.setPower_regs (s : State) (p : PowerSt) : (s.setPower p).regs = s.regs := rfl
@[simp] theorem State.setPower_mgmt (s : State) (p : PowerSt) : (s.setPower p).mgmt = s.mgmt := rfl
@[simp] theorem State.setPower_intc (s : State) (p : PowerSt) : (s.setPower p).intc = s.intc := rfl
@[simp] theorem State.setPower_counts (s : State) (p : PowerSt) : (s.setPower p).counts = s.counts := rfl
@[simp] theorem State.setPower_queues (s : State) (p : PowerSt) : (s.setPower p).queues = s.queues := rfl
@[simp] theorem State.setPower_lanes (s : State) (p : PowerSt) : (s.setPower p).lanes = s.lanes := rfl
@[simp] theorem State.setPower_pools (s : State) (p : PowerSt) : (s.setPower p).pools = s.pools := rfl
@[simp] theorem State.setPower_ports (s : State) (p : PowerSt) : (s.setPower p).ports = s.ports := rfl
@[simp] theorem State.setPower_hosts (s : State) (p : PowerSt) : (s.setPower p).hosts = s.hosts := rfl
@[simp] theorem State.setPower_dies (s : State) (p : PowerSt) : (s.setPower p).dies = s.dies := rfl
@[simp] theorem State.setPower_loader (s : State) (p : PowerSt) : (s.setPower p).loader = s.loader := rfl
@[simp] theorem State.setPower_keys (s : State) (p : PowerSt) : (s.setPower p).keys = s.keys := rfl
@[simp] theorem State.setPower_mram (s : State) (p : PowerSt) : (s.setPower p).mram = s.mram := rfl
@[simp] theorem State.setPower_time (s : State) (p : PowerSt) : (s.setPower p).time = s.time := rfl
@[simp] theorem State.setPower_sched (s : State) (p : PowerSt) : (s.setPower p).sched = s.sched := rfl
@[simp] theorem State.setPower_trig (s : State) (p : PowerSt) : (s.setPower p).trig = s.trig := rfl
@[simp] theorem State.setPower_bcn (s : State) (p : PowerSt) : (s.setPower p).bcn = s.bcn := rfl
@[simp] theorem State.setPower_syn (s : State) (p : PowerSt) : (s.setPower p).syn = s.syn := rfl
@[simp] theorem State.setPower_mem (s : State) (p : PowerSt) : (s.setPower p).mem = s.mem := rfl
@[simp] theorem State.setPower_ctx (s : State) (p : PowerSt) : (s.setPower p).ctx = s.ctx := rfl
@[simp] theorem State.setPower_therm (s : State) (p : PowerSt) : (s.setPower p).therm = s.therm := rfl
@[simp] theorem State.setPower_test (s : State) (p : PowerSt) : (s.setPower p).test = s.test := rfl
@[simp] theorem State.setPower_cal (s : State) (p : PowerSt) : (s.setPower p).cal = s.cal := rfl
@[simp] theorem State.setPower_hk (s : State) (p : PowerSt) : (s.setPower p).hk = s.hk := rfl
@[simp] theorem State.setPower_tap (s : State) (p : PowerSt) : (s.setPower p).tap = s.tap := rfl
@[simp] theorem State.setPower_power (s : State) (p : PowerSt) : (s.setPower p).power = p := rfl
@[simp] theorem State.setPower_get (s : State) (p : PowerSt) (f : Fld) : (s.setPower p).get f = s.get f := rfl
@[simp] theorem State.setPower_getB (s : State) (p : PowerSt) (f : Fld) : (s.setPower p).getB f = s.getB f := rfl
@[simp] theorem State.setPower_getZ (s : State) (p : PowerSt) (f : Fld) : (s.setPower p).getZ f = s.getZ f := rfl
@[simp] theorem State.setPower_lane (s : State) (p : PowerSt) (m : Nat) : (s.setPower p).lane m = s.lane m := rfl
@[simp] theorem State.setPower_pool (s : State) (p : PowerSt) (m : Nat) : (s.setPower p).pool m = s.pool m := rfl
@[simp] theorem State.setPower_port (s : State) (p : PowerSt) (m : Nat) : (s.setPower p).port m = s.port m := rfl
@[simp] theorem State.setPower_host (s : State) (p : PowerSt) (m : Nat) : (s.setPower p).host m = s.host m := rfl
@[simp] theorem State.setPower_die (s : State) (p : PowerSt) (m : Nat) : (s.setPower p).die m = s.die m := rfl
@[simp] theorem State.setPower_queue (s : State) (p : PowerSt) (j : QueueId) : (s.setPower p).queue j = s.queue j := rfl

/-! ### `setLoader` -/

@[simp] theorem State.setLoader_pending (s : State) (x : LoaderSt) : (s.setLoader x).pending = s.pending := rfl
@[simp] theorem State.setLoader_freeCtr (s : State) (x : LoaderSt) : (s.setLoader x).freeCtr = s.freeCtr := rfl
@[simp] theorem State.setLoader_variant (s : State) (x : LoaderSt) : (s.setLoader x).variant = s.variant := rfl
@[simp] theorem State.setLoader_serial (s : State) (x : LoaderSt) : (s.setLoader x).serial = s.serial := rfl
@[simp] theorem State.setLoader_strap (s : State) (x : LoaderSt) : (s.setLoader x).strap = s.strap := rfl
@[simp] theorem State.setLoader_regs (s : State) (x : LoaderSt) : (s.setLoader x).regs = s.regs := rfl
@[simp] theorem State.setLoader_mgmt (s : State) (x : LoaderSt) : (s.setLoader x).mgmt = s.mgmt := rfl
@[simp] theorem State.setLoader_intc (s : State) (x : LoaderSt) : (s.setLoader x).intc = s.intc := rfl
@[simp] theorem State.setLoader_counts (s : State) (x : LoaderSt) : (s.setLoader x).counts = s.counts := rfl
@[simp] theorem State.setLoader_queues (s : State) (x : LoaderSt) : (s.setLoader x).queues = s.queues := rfl
@[simp] theorem State.setLoader_lanes (s : State) (x : LoaderSt) : (s.setLoader x).lanes = s.lanes := rfl
@[simp] theorem State.setLoader_pools (s : State) (x : LoaderSt) : (s.setLoader x).pools = s.pools := rfl
@[simp] theorem State.setLoader_ports (s : State) (x : LoaderSt) : (s.setLoader x).ports = s.ports := rfl
@[simp] theorem State.setLoader_hosts (s : State) (x : LoaderSt) : (s.setLoader x).hosts = s.hosts := rfl
@[simp] theorem State.setLoader_dies (s : State) (x : LoaderSt) : (s.setLoader x).dies = s.dies := rfl
@[simp] theorem State.setLoader_keys (s : State) (x : LoaderSt) : (s.setLoader x).keys = s.keys := rfl
@[simp] theorem State.setLoader_mram (s : State) (x : LoaderSt) : (s.setLoader x).mram = s.mram := rfl
@[simp] theorem State.setLoader_power (s : State) (x : LoaderSt) : (s.setLoader x).power = s.power := rfl
@[simp] theorem State.setLoader_time (s : State) (x : LoaderSt) : (s.setLoader x).time = s.time := rfl
@[simp] theorem State.setLoader_sched (s : State) (x : LoaderSt) : (s.setLoader x).sched = s.sched := rfl
@[simp] theorem State.setLoader_trig (s : State) (x : LoaderSt) : (s.setLoader x).trig = s.trig := rfl
@[simp] theorem State.setLoader_bcn (s : State) (x : LoaderSt) : (s.setLoader x).bcn = s.bcn := rfl
@[simp] theorem State.setLoader_syn (s : State) (x : LoaderSt) : (s.setLoader x).syn = s.syn := rfl
@[simp] theorem State.setLoader_mem (s : State) (x : LoaderSt) : (s.setLoader x).mem = s.mem := rfl
@[simp] theorem State.setLoader_ctx (s : State) (x : LoaderSt) : (s.setLoader x).ctx = s.ctx := rfl
@[simp] theorem State.setLoader_therm (s : State) (x : LoaderSt) : (s.setLoader x).therm = s.therm := rfl
@[simp] theorem State.setLoader_test (s : State) (x : LoaderSt) : (s.setLoader x).test = s.test := rfl
@[simp] theorem State.setLoader_cal (s : State) (x : LoaderSt) : (s.setLoader x).cal = s.cal := rfl
@[simp] theorem State.setLoader_hk (s : State) (x : LoaderSt) : (s.setLoader x).hk = s.hk := rfl
@[simp] theorem State.setLoader_tap (s : State) (x : LoaderSt) : (s.setLoader x).tap = s.tap := rfl
@[simp] theorem State.setLoader_loader (s : State) (x : LoaderSt) : (s.setLoader x).loader = x := rfl
@[simp] theorem State.setLoader_get (s : State) (x : LoaderSt) (f : Fld) : (s.setLoader x).get f = s.get f := rfl
@[simp] theorem State.setLoader_getB (s : State) (x : LoaderSt) (f : Fld) : (s.setLoader x).getB f = s.getB f := rfl
@[simp] theorem State.setLoader_getZ (s : State) (x : LoaderSt) (f : Fld) : (s.setLoader x).getZ f = s.getZ f := rfl
@[simp] theorem State.setLoader_lane (s : State) (x : LoaderSt) (m : Nat) : (s.setLoader x).lane m = s.lane m := rfl
@[simp] theorem State.setLoader_pool (s : State) (x : LoaderSt) (m : Nat) : (s.setLoader x).pool m = s.pool m := rfl
@[simp] theorem State.setLoader_port (s : State) (x : LoaderSt) (m : Nat) : (s.setLoader x).port m = s.port m := rfl
@[simp] theorem State.setLoader_host (s : State) (x : LoaderSt) (m : Nat) : (s.setLoader x).host m = s.host m := rfl
@[simp] theorem State.setLoader_die (s : State) (x : LoaderSt) (m : Nat) : (s.setLoader x).die m = s.die m := rfl
@[simp] theorem State.setLoader_queue (s : State) (x : LoaderSt) (j : QueueId) :
    (s.setLoader x).queue j = s.queue j := rfl

/-! ### `setBcn` -/

@[simp] theorem State.setBcn_pending (s : State) (n : Nat) (b : BcnLane) : (s.setBcn n b).pending = s.pending := rfl
@[simp] theorem State.setBcn_freeCtr (s : State) (n : Nat) (b : BcnLane) : (s.setBcn n b).freeCtr = s.freeCtr := rfl
@[simp] theorem State.setBcn_variant (s : State) (n : Nat) (b : BcnLane) : (s.setBcn n b).variant = s.variant := rfl
@[simp] theorem State.setBcn_serial (s : State) (n : Nat) (b : BcnLane) : (s.setBcn n b).serial = s.serial := rfl
@[simp] theorem State.setBcn_strap (s : State) (n : Nat) (b : BcnLane) : (s.setBcn n b).strap = s.strap := rfl
@[simp] theorem State.setBcn_regs (s : State) (n : Nat) (b : BcnLane) : (s.setBcn n b).regs = s.regs := rfl
@[simp] theorem State.setBcn_mgmt (s : State) (n : Nat) (b : BcnLane) : (s.setBcn n b).mgmt = s.mgmt := rfl
@[simp] theorem State.setBcn_intc (s : State) (n : Nat) (b : BcnLane) : (s.setBcn n b).intc = s.intc := rfl
@[simp] theorem State.setBcn_counts (s : State) (n : Nat) (b : BcnLane) : (s.setBcn n b).counts = s.counts := rfl
@[simp] theorem State.setBcn_queues (s : State) (n : Nat) (b : BcnLane) : (s.setBcn n b).queues = s.queues := rfl
@[simp] theorem State.setBcn_lanes (s : State) (n : Nat) (b : BcnLane) : (s.setBcn n b).lanes = s.lanes := rfl
@[simp] theorem State.setBcn_pools (s : State) (n : Nat) (b : BcnLane) : (s.setBcn n b).pools = s.pools := rfl
@[simp] theorem State.setBcn_ports (s : State) (n : Nat) (b : BcnLane) : (s.setBcn n b).ports = s.ports := rfl
@[simp] theorem State.setBcn_hosts (s : State) (n : Nat) (b : BcnLane) : (s.setBcn n b).hosts = s.hosts := rfl
@[simp] theorem State.setBcn_dies (s : State) (n : Nat) (b : BcnLane) : (s.setBcn n b).dies = s.dies := rfl
@[simp] theorem State.setBcn_loader (s : State) (n : Nat) (b : BcnLane) : (s.setBcn n b).loader = s.loader := rfl
@[simp] theorem State.setBcn_keys (s : State) (n : Nat) (b : BcnLane) : (s.setBcn n b).keys = s.keys := rfl
@[simp] theorem State.setBcn_mram (s : State) (n : Nat) (b : BcnLane) : (s.setBcn n b).mram = s.mram := rfl
@[simp] theorem State.setBcn_power (s : State) (n : Nat) (b : BcnLane) : (s.setBcn n b).power = s.power := rfl
@[simp] theorem State.setBcn_time (s : State) (n : Nat) (b : BcnLane) : (s.setBcn n b).time = s.time := rfl
@[simp] theorem State.setBcn_sched (s : State) (n : Nat) (b : BcnLane) : (s.setBcn n b).sched = s.sched := rfl
@[simp] theorem State.setBcn_trig (s : State) (n : Nat) (b : BcnLane) : (s.setBcn n b).trig = s.trig := rfl
@[simp] theorem State.setBcn_syn (s : State) (n : Nat) (b : BcnLane) : (s.setBcn n b).syn = s.syn := rfl
@[simp] theorem State.setBcn_mem (s : State) (n : Nat) (b : BcnLane) : (s.setBcn n b).mem = s.mem := rfl
@[simp] theorem State.setBcn_ctx (s : State) (n : Nat) (b : BcnLane) : (s.setBcn n b).ctx = s.ctx := rfl
@[simp] theorem State.setBcn_therm (s : State) (n : Nat) (b : BcnLane) : (s.setBcn n b).therm = s.therm := rfl
@[simp] theorem State.setBcn_test (s : State) (n : Nat) (b : BcnLane) : (s.setBcn n b).test = s.test := rfl
@[simp] theorem State.setBcn_cal (s : State) (n : Nat) (b : BcnLane) : (s.setBcn n b).cal = s.cal := rfl
@[simp] theorem State.setBcn_hk (s : State) (n : Nat) (b : BcnLane) : (s.setBcn n b).hk = s.hk := rfl
@[simp] theorem State.setBcn_tap (s : State) (n : Nat) (b : BcnLane) : (s.setBcn n b).tap = s.tap := rfl
@[simp] theorem State.setBcn_get (s : State) (n : Nat) (b : BcnLane) (f : Fld) : (s.setBcn n b).get f = s.get f := rfl
@[simp] theorem State.setBcn_getB (s : State) (n : Nat) (b : BcnLane) (f : Fld) :
    (s.setBcn n b).getB f = s.getB f := rfl
@[simp] theorem State.setBcn_getZ (s : State) (n : Nat) (b : BcnLane) (f : Fld) :
    (s.setBcn n b).getZ f = s.getZ f := rfl
@[simp] theorem State.setBcn_lane (s : State) (n : Nat) (b : BcnLane) (m : Nat) :
    (s.setBcn n b).lane m = s.lane m := rfl
@[simp] theorem State.setBcn_pool (s : State) (n : Nat) (b : BcnLane) (m : Nat) :
    (s.setBcn n b).pool m = s.pool m := rfl
@[simp] theorem State.setBcn_port (s : State) (n : Nat) (b : BcnLane) (m : Nat) :
    (s.setBcn n b).port m = s.port m := rfl
@[simp] theorem State.setBcn_host (s : State) (n : Nat) (b : BcnLane) (m : Nat) :
    (s.setBcn n b).host m = s.host m := rfl
@[simp] theorem State.setBcn_die (s : State) (n : Nat) (b : BcnLane) (m : Nat) : (s.setBcn n b).die m = s.die m := rfl
@[simp] theorem State.setBcn_queue (s : State) (n : Nat) (b : BcnLane) (j : QueueId) :
    (s.setBcn n b).queue j = s.queue j := rfl

/-! ### `setSyn` -/

@[simp] theorem State.setSyn_pending (s : State) (r : Nat) (x : SynSt) : (s.setSyn r x).pending = s.pending := rfl
@[simp] theorem State.setSyn_freeCtr (s : State) (r : Nat) (x : SynSt) : (s.setSyn r x).freeCtr = s.freeCtr := rfl
@[simp] theorem State.setSyn_variant (s : State) (r : Nat) (x : SynSt) : (s.setSyn r x).variant = s.variant := rfl
@[simp] theorem State.setSyn_serial (s : State) (r : Nat) (x : SynSt) : (s.setSyn r x).serial = s.serial := rfl
@[simp] theorem State.setSyn_strap (s : State) (r : Nat) (x : SynSt) : (s.setSyn r x).strap = s.strap := rfl
@[simp] theorem State.setSyn_regs (s : State) (r : Nat) (x : SynSt) : (s.setSyn r x).regs = s.regs := rfl
@[simp] theorem State.setSyn_mgmt (s : State) (r : Nat) (x : SynSt) : (s.setSyn r x).mgmt = s.mgmt := rfl
@[simp] theorem State.setSyn_intc (s : State) (r : Nat) (x : SynSt) : (s.setSyn r x).intc = s.intc := rfl
@[simp] theorem State.setSyn_counts (s : State) (r : Nat) (x : SynSt) : (s.setSyn r x).counts = s.counts := rfl
@[simp] theorem State.setSyn_queues (s : State) (r : Nat) (x : SynSt) : (s.setSyn r x).queues = s.queues := rfl
@[simp] theorem State.setSyn_lanes (s : State) (r : Nat) (x : SynSt) : (s.setSyn r x).lanes = s.lanes := rfl
@[simp] theorem State.setSyn_pools (s : State) (r : Nat) (x : SynSt) : (s.setSyn r x).pools = s.pools := rfl
@[simp] theorem State.setSyn_ports (s : State) (r : Nat) (x : SynSt) : (s.setSyn r x).ports = s.ports := rfl
@[simp] theorem State.setSyn_hosts (s : State) (r : Nat) (x : SynSt) : (s.setSyn r x).hosts = s.hosts := rfl
@[simp] theorem State.setSyn_dies (s : State) (r : Nat) (x : SynSt) : (s.setSyn r x).dies = s.dies := rfl
@[simp] theorem State.setSyn_loader (s : State) (r : Nat) (x : SynSt) : (s.setSyn r x).loader = s.loader := rfl
@[simp] theorem State.setSyn_keys (s : State) (r : Nat) (x : SynSt) : (s.setSyn r x).keys = s.keys := rfl
@[simp] theorem State.setSyn_mram (s : State) (r : Nat) (x : SynSt) : (s.setSyn r x).mram = s.mram := rfl
@[simp] theorem State.setSyn_power (s : State) (r : Nat) (x : SynSt) : (s.setSyn r x).power = s.power := rfl
@[simp] theorem State.setSyn_time (s : State) (r : Nat) (x : SynSt) : (s.setSyn r x).time = s.time := rfl
@[simp] theorem State.setSyn_sched (s : State) (r : Nat) (x : SynSt) : (s.setSyn r x).sched = s.sched := rfl
@[simp] theorem State.setSyn_trig (s : State) (r : Nat) (x : SynSt) : (s.setSyn r x).trig = s.trig := rfl
@[simp] theorem State.setSyn_bcn (s : State) (r : Nat) (x : SynSt) : (s.setSyn r x).bcn = s.bcn := rfl
@[simp] theorem State.setSyn_mem (s : State) (r : Nat) (x : SynSt) : (s.setSyn r x).mem = s.mem := rfl
@[simp] theorem State.setSyn_ctx (s : State) (r : Nat) (x : SynSt) : (s.setSyn r x).ctx = s.ctx := rfl
@[simp] theorem State.setSyn_therm (s : State) (r : Nat) (x : SynSt) : (s.setSyn r x).therm = s.therm := rfl
@[simp] theorem State.setSyn_test (s : State) (r : Nat) (x : SynSt) : (s.setSyn r x).test = s.test := rfl
@[simp] theorem State.setSyn_cal (s : State) (r : Nat) (x : SynSt) : (s.setSyn r x).cal = s.cal := rfl
@[simp] theorem State.setSyn_hk (s : State) (r : Nat) (x : SynSt) : (s.setSyn r x).hk = s.hk := rfl
@[simp] theorem State.setSyn_tap (s : State) (r : Nat) (x : SynSt) : (s.setSyn r x).tap = s.tap := rfl
@[simp] theorem State.setSyn_get (s : State) (r : Nat) (x : SynSt) (f : Fld) : (s.setSyn r x).get f = s.get f := rfl
@[simp] theorem State.setSyn_getB (s : State) (r : Nat) (x : SynSt) (f : Fld) : (s.setSyn r x).getB f = s.getB f := rfl
@[simp] theorem State.setSyn_getZ (s : State) (r : Nat) (x : SynSt) (f : Fld) : (s.setSyn r x).getZ f = s.getZ f := rfl
@[simp] theorem State.setSyn_lane (s : State) (r : Nat) (x : SynSt) (m : Nat) : (s.setSyn r x).lane m = s.lane m := rfl
@[simp] theorem State.setSyn_pool (s : State) (r : Nat) (x : SynSt) (m : Nat) : (s.setSyn r x).pool m = s.pool m := rfl
@[simp] theorem State.setSyn_port (s : State) (r : Nat) (x : SynSt) (m : Nat) : (s.setSyn r x).port m = s.port m := rfl
@[simp] theorem State.setSyn_host (s : State) (r : Nat) (x : SynSt) (m : Nat) : (s.setSyn r x).host m = s.host m := rfl
@[simp] theorem State.setSyn_die (s : State) (r : Nat) (x : SynSt) (m : Nat) : (s.setSyn r x).die m = s.die m := rfl
@[simp] theorem State.setSyn_queue (s : State) (r : Nat) (x : SynSt) (j : QueueId) :
    (s.setSyn r x).queue j = s.queue j := rfl

/-! ### `setTrig` -/

@[simp] theorem State.setTrig_pending (s : State) (j : Nat) (t : TrigLine) : (s.setTrig j t).pending = s.pending := rfl
@[simp] theorem State.setTrig_freeCtr (s : State) (j : Nat) (t : TrigLine) : (s.setTrig j t).freeCtr = s.freeCtr := rfl
@[simp] theorem State.setTrig_variant (s : State) (j : Nat) (t : TrigLine) : (s.setTrig j t).variant = s.variant := rfl
@[simp] theorem State.setTrig_serial (s : State) (j : Nat) (t : TrigLine) : (s.setTrig j t).serial = s.serial := rfl
@[simp] theorem State.setTrig_strap (s : State) (j : Nat) (t : TrigLine) : (s.setTrig j t).strap = s.strap := rfl
@[simp] theorem State.setTrig_regs (s : State) (j : Nat) (t : TrigLine) : (s.setTrig j t).regs = s.regs := rfl
@[simp] theorem State.setTrig_mgmt (s : State) (j : Nat) (t : TrigLine) : (s.setTrig j t).mgmt = s.mgmt := rfl
@[simp] theorem State.setTrig_intc (s : State) (j : Nat) (t : TrigLine) : (s.setTrig j t).intc = s.intc := rfl
@[simp] theorem State.setTrig_counts (s : State) (j : Nat) (t : TrigLine) : (s.setTrig j t).counts = s.counts := rfl
@[simp] theorem State.setTrig_queues (s : State) (j : Nat) (t : TrigLine) : (s.setTrig j t).queues = s.queues := rfl
@[simp] theorem State.setTrig_lanes (s : State) (j : Nat) (t : TrigLine) : (s.setTrig j t).lanes = s.lanes := rfl
@[simp] theorem State.setTrig_pools (s : State) (j : Nat) (t : TrigLine) : (s.setTrig j t).pools = s.pools := rfl
@[simp] theorem State.setTrig_ports (s : State) (j : Nat) (t : TrigLine) : (s.setTrig j t).ports = s.ports := rfl
@[simp] theorem State.setTrig_hosts (s : State) (j : Nat) (t : TrigLine) : (s.setTrig j t).hosts = s.hosts := rfl
@[simp] theorem State.setTrig_dies (s : State) (j : Nat) (t : TrigLine) : (s.setTrig j t).dies = s.dies := rfl
@[simp] theorem State.setTrig_loader (s : State) (j : Nat) (t : TrigLine) : (s.setTrig j t).loader = s.loader := rfl
@[simp] theorem State.setTrig_keys (s : State) (j : Nat) (t : TrigLine) : (s.setTrig j t).keys = s.keys := rfl
@[simp] theorem State.setTrig_mram (s : State) (j : Nat) (t : TrigLine) : (s.setTrig j t).mram = s.mram := rfl
@[simp] theorem State.setTrig_power (s : State) (j : Nat) (t : TrigLine) : (s.setTrig j t).power = s.power := rfl
@[simp] theorem State.setTrig_time (s : State) (j : Nat) (t : TrigLine) : (s.setTrig j t).time = s.time := rfl
@[simp] theorem State.setTrig_sched (s : State) (j : Nat) (t : TrigLine) : (s.setTrig j t).sched = s.sched := rfl
@[simp] theorem State.setTrig_bcn (s : State) (j : Nat) (t : TrigLine) : (s.setTrig j t).bcn = s.bcn := rfl
@[simp] theorem State.setTrig_syn (s : State) (j : Nat) (t : TrigLine) : (s.setTrig j t).syn = s.syn := rfl
@[simp] theorem State.setTrig_mem (s : State) (j : Nat) (t : TrigLine) : (s.setTrig j t).mem = s.mem := rfl
@[simp] theorem State.setTrig_ctx (s : State) (j : Nat) (t : TrigLine) : (s.setTrig j t).ctx = s.ctx := rfl
@[simp] theorem State.setTrig_therm (s : State) (j : Nat) (t : TrigLine) : (s.setTrig j t).therm = s.therm := rfl
@[simp] theorem State.setTrig_test (s : State) (j : Nat) (t : TrigLine) : (s.setTrig j t).test = s.test := rfl
@[simp] theorem State.setTrig_cal (s : State) (j : Nat) (t : TrigLine) : (s.setTrig j t).cal = s.cal := rfl
@[simp] theorem State.setTrig_hk (s : State) (j : Nat) (t : TrigLine) : (s.setTrig j t).hk = s.hk := rfl
@[simp] theorem State.setTrig_tap (s : State) (j : Nat) (t : TrigLine) : (s.setTrig j t).tap = s.tap := rfl
@[simp] theorem State.setTrig_get (s : State) (j : Nat) (t : TrigLine) (f : Fld) :
    (s.setTrig j t).get f = s.get f := rfl
@[simp] theorem State.setTrig_getB (s : State) (j : Nat) (t : TrigLine) (f : Fld) :
    (s.setTrig j t).getB f = s.getB f := rfl
@[simp] theorem State.setTrig_getZ (s : State) (j : Nat) (t : TrigLine) (f : Fld) :
    (s.setTrig j t).getZ f = s.getZ f := rfl
@[simp] theorem State.setTrig_lane (s : State) (j : Nat) (t : TrigLine) (m : Nat) :
    (s.setTrig j t).lane m = s.lane m := rfl
@[simp] theorem State.setTrig_pool (s : State) (j : Nat) (t : TrigLine) (m : Nat) :
    (s.setTrig j t).pool m = s.pool m := rfl
@[simp] theorem State.setTrig_port (s : State) (j : Nat) (t : TrigLine) (m : Nat) :
    (s.setTrig j t).port m = s.port m := rfl
@[simp] theorem State.setTrig_host (s : State) (j : Nat) (t : TrigLine) (m : Nat) :
    (s.setTrig j t).host m = s.host m := rfl
@[simp] theorem State.setTrig_die (s : State) (j : Nat) (t : TrigLine) (m : Nat) :
    (s.setTrig j t).die m = s.die m := rfl
@[simp] theorem State.setTrig_queue (s : State) (j : Nat) (t : TrigLine) (j' : QueueId) :
    (s.setTrig j t).queue j' = s.queue j' := rfl

/-! ### `setPos` -/

@[simp] theorem State.setPos_pending (s : State) (p : Nat) (x : SchedPos) : (s.setPos p x).pending = s.pending := rfl
@[simp] theorem State.setPos_freeCtr (s : State) (p : Nat) (x : SchedPos) : (s.setPos p x).freeCtr = s.freeCtr := rfl
@[simp] theorem State.setPos_variant (s : State) (p : Nat) (x : SchedPos) : (s.setPos p x).variant = s.variant := rfl
@[simp] theorem State.setPos_serial (s : State) (p : Nat) (x : SchedPos) : (s.setPos p x).serial = s.serial := rfl
@[simp] theorem State.setPos_strap (s : State) (p : Nat) (x : SchedPos) : (s.setPos p x).strap = s.strap := rfl
@[simp] theorem State.setPos_regs (s : State) (p : Nat) (x : SchedPos) : (s.setPos p x).regs = s.regs := rfl
@[simp] theorem State.setPos_mgmt (s : State) (p : Nat) (x : SchedPos) : (s.setPos p x).mgmt = s.mgmt := rfl
@[simp] theorem State.setPos_intc (s : State) (p : Nat) (x : SchedPos) : (s.setPos p x).intc = s.intc := rfl
@[simp] theorem State.setPos_counts (s : State) (p : Nat) (x : SchedPos) : (s.setPos p x).counts = s.counts := rfl
@[simp] theorem State.setPos_queues (s : State) (p : Nat) (x : SchedPos) : (s.setPos p x).queues = s.queues := rfl
@[simp] theorem State.setPos_lanes (s : State) (p : Nat) (x : SchedPos) : (s.setPos p x).lanes = s.lanes := rfl
@[simp] theorem State.setPos_pools (s : State) (p : Nat) (x : SchedPos) : (s.setPos p x).pools = s.pools := rfl
@[simp] theorem State.setPos_ports (s : State) (p : Nat) (x : SchedPos) : (s.setPos p x).ports = s.ports := rfl
@[simp] theorem State.setPos_hosts (s : State) (p : Nat) (x : SchedPos) : (s.setPos p x).hosts = s.hosts := rfl
@[simp] theorem State.setPos_dies (s : State) (p : Nat) (x : SchedPos) : (s.setPos p x).dies = s.dies := rfl
@[simp] theorem State.setPos_loader (s : State) (p : Nat) (x : SchedPos) : (s.setPos p x).loader = s.loader := rfl
@[simp] theorem State.setPos_keys (s : State) (p : Nat) (x : SchedPos) : (s.setPos p x).keys = s.keys := rfl
@[simp] theorem State.setPos_mram (s : State) (p : Nat) (x : SchedPos) : (s.setPos p x).mram = s.mram := rfl
@[simp] theorem State.setPos_power (s : State) (p : Nat) (x : SchedPos) : (s.setPos p x).power = s.power := rfl
@[simp] theorem State.setPos_time (s : State) (p : Nat) (x : SchedPos) : (s.setPos p x).time = s.time := rfl
@[simp] theorem State.setPos_trig (s : State) (p : Nat) (x : SchedPos) : (s.setPos p x).trig = s.trig := rfl
@[simp] theorem State.setPos_bcn (s : State) (p : Nat) (x : SchedPos) : (s.setPos p x).bcn = s.bcn := rfl
@[simp] theorem State.setPos_syn (s : State) (p : Nat) (x : SchedPos) : (s.setPos p x).syn = s.syn := rfl
@[simp] theorem State.setPos_mem (s : State) (p : Nat) (x : SchedPos) : (s.setPos p x).mem = s.mem := rfl
@[simp] theorem State.setPos_ctx (s : State) (p : Nat) (x : SchedPos) : (s.setPos p x).ctx = s.ctx := rfl
@[simp] theorem State.setPos_therm (s : State) (p : Nat) (x : SchedPos) : (s.setPos p x).therm = s.therm := rfl
@[simp] theorem State.setPos_test (s : State) (p : Nat) (x : SchedPos) : (s.setPos p x).test = s.test := rfl
@[simp] theorem State.setPos_cal (s : State) (p : Nat) (x : SchedPos) : (s.setPos p x).cal = s.cal := rfl
@[simp] theorem State.setPos_hk (s : State) (p : Nat) (x : SchedPos) : (s.setPos p x).hk = s.hk := rfl
@[simp] theorem State.setPos_tap (s : State) (p : Nat) (x : SchedPos) : (s.setPos p x).tap = s.tap := rfl
@[simp] theorem State.setPos_get (s : State) (p : Nat) (x : SchedPos) (f : Fld) : (s.setPos p x).get f = s.get f := rfl
@[simp] theorem State.setPos_getB (s : State) (p : Nat) (x : SchedPos) (f : Fld) :
    (s.setPos p x).getB f = s.getB f := rfl
@[simp] theorem State.setPos_getZ (s : State) (p : Nat) (x : SchedPos) (f : Fld) :
    (s.setPos p x).getZ f = s.getZ f := rfl
@[simp] theorem State.setPos_lane (s : State) (p : Nat) (x : SchedPos) (m : Nat) :
    (s.setPos p x).lane m = s.lane m := rfl
@[simp] theorem State.setPos_pool (s : State) (p : Nat) (x : SchedPos) (m : Nat) :
    (s.setPos p x).pool m = s.pool m := rfl
@[simp] theorem State.setPos_port (s : State) (p : Nat) (x : SchedPos) (m : Nat) :
    (s.setPos p x).port m = s.port m := rfl
@[simp] theorem State.setPos_host (s : State) (p : Nat) (x : SchedPos) (m : Nat) :
    (s.setPos p x).host m = s.host m := rfl
@[simp] theorem State.setPos_die (s : State) (p : Nat) (x : SchedPos) (m : Nat) : (s.setPos p x).die m = s.die m := rfl
@[simp] theorem State.setPos_queue (s : State) (p : Nat) (x : SchedPos) (j : QueueId) :
    (s.setPos p x).queue j = s.queue j := rfl

/-! ### `setKey` -/

@[simp] theorem State.setKey_pending (s : State) (k : Nat) (x : KeySlot) : (s.setKey k x).pending = s.pending := rfl
@[simp] theorem State.setKey_freeCtr (s : State) (k : Nat) (x : KeySlot) : (s.setKey k x).freeCtr = s.freeCtr := rfl
@[simp] theorem State.setKey_variant (s : State) (k : Nat) (x : KeySlot) : (s.setKey k x).variant = s.variant := rfl
@[simp] theorem State.setKey_serial (s : State) (k : Nat) (x : KeySlot) : (s.setKey k x).serial = s.serial := rfl
@[simp] theorem State.setKey_strap (s : State) (k : Nat) (x : KeySlot) : (s.setKey k x).strap = s.strap := rfl
@[simp] theorem State.setKey_regs (s : State) (k : Nat) (x : KeySlot) : (s.setKey k x).regs = s.regs := rfl
@[simp] theorem State.setKey_mgmt (s : State) (k : Nat) (x : KeySlot) : (s.setKey k x).mgmt = s.mgmt := rfl
@[simp] theorem State.setKey_intc (s : State) (k : Nat) (x : KeySlot) : (s.setKey k x).intc = s.intc := rfl
@[simp] theorem State.setKey_counts (s : State) (k : Nat) (x : KeySlot) : (s.setKey k x).counts = s.counts := rfl
@[simp] theorem State.setKey_queues (s : State) (k : Nat) (x : KeySlot) : (s.setKey k x).queues = s.queues := rfl
@[simp] theorem State.setKey_lanes (s : State) (k : Nat) (x : KeySlot) : (s.setKey k x).lanes = s.lanes := rfl
@[simp] theorem State.setKey_pools (s : State) (k : Nat) (x : KeySlot) : (s.setKey k x).pools = s.pools := rfl
@[simp] theorem State.setKey_ports (s : State) (k : Nat) (x : KeySlot) : (s.setKey k x).ports = s.ports := rfl
@[simp] theorem State.setKey_hosts (s : State) (k : Nat) (x : KeySlot) : (s.setKey k x).hosts = s.hosts := rfl
@[simp] theorem State.setKey_dies (s : State) (k : Nat) (x : KeySlot) : (s.setKey k x).dies = s.dies := rfl
@[simp] theorem State.setKey_loader (s : State) (k : Nat) (x : KeySlot) : (s.setKey k x).loader = s.loader := rfl
@[simp] theorem State.setKey_mram (s : State) (k : Nat) (x : KeySlot) : (s.setKey k x).mram = s.mram := rfl
@[simp] theorem State.setKey_power (s : State) (k : Nat) (x : KeySlot) : (s.setKey k x).power = s.power := rfl
@[simp] theorem State.setKey_time (s : State) (k : Nat) (x : KeySlot) : (s.setKey k x).time = s.time := rfl
@[simp] theorem State.setKey_sched (s : State) (k : Nat) (x : KeySlot) : (s.setKey k x).sched = s.sched := rfl
@[simp] theorem State.setKey_trig (s : State) (k : Nat) (x : KeySlot) : (s.setKey k x).trig = s.trig := rfl
@[simp] theorem State.setKey_bcn (s : State) (k : Nat) (x : KeySlot) : (s.setKey k x).bcn = s.bcn := rfl
@[simp] theorem State.setKey_syn (s : State) (k : Nat) (x : KeySlot) : (s.setKey k x).syn = s.syn := rfl
@[simp] theorem State.setKey_mem (s : State) (k : Nat) (x : KeySlot) : (s.setKey k x).mem = s.mem := rfl
@[simp] theorem State.setKey_ctx (s : State) (k : Nat) (x : KeySlot) : (s.setKey k x).ctx = s.ctx := rfl
@[simp] theorem State.setKey_therm (s : State) (k : Nat) (x : KeySlot) : (s.setKey k x).therm = s.therm := rfl
@[simp] theorem State.setKey_test (s : State) (k : Nat) (x : KeySlot) : (s.setKey k x).test = s.test := rfl
@[simp] theorem State.setKey_cal (s : State) (k : Nat) (x : KeySlot) : (s.setKey k x).cal = s.cal := rfl
@[simp] theorem State.setKey_hk (s : State) (k : Nat) (x : KeySlot) : (s.setKey k x).hk = s.hk := rfl
@[simp] theorem State.setKey_tap (s : State) (k : Nat) (x : KeySlot) : (s.setKey k x).tap = s.tap := rfl
@[simp] theorem State.setKey_get (s : State) (k : Nat) (x : KeySlot) (f : Fld) : (s.setKey k x).get f = s.get f := rfl
@[simp] theorem State.setKey_getB (s : State) (k : Nat) (x : KeySlot) (f : Fld) :
    (s.setKey k x).getB f = s.getB f := rfl
@[simp] theorem State.setKey_getZ (s : State) (k : Nat) (x : KeySlot) (f : Fld) :
    (s.setKey k x).getZ f = s.getZ f := rfl
@[simp] theorem State.setKey_lane (s : State) (k : Nat) (x : KeySlot) (m : Nat) :
    (s.setKey k x).lane m = s.lane m := rfl
@[simp] theorem State.setKey_pool (s : State) (k : Nat) (x : KeySlot) (m : Nat) :
    (s.setKey k x).pool m = s.pool m := rfl
@[simp] theorem State.setKey_port (s : State) (k : Nat) (x : KeySlot) (m : Nat) :
    (s.setKey k x).port m = s.port m := rfl
@[simp] theorem State.setKey_host (s : State) (k : Nat) (x : KeySlot) (m : Nat) :
    (s.setKey k x).host m = s.host m := rfl
@[simp] theorem State.setKey_die (s : State) (k : Nat) (x : KeySlot) (m : Nat) : (s.setKey k x).die m = s.die m := rfl
@[simp] theorem State.setKey_queue (s : State) (k : Nat) (x : KeySlot) (j : QueueId) :
    (s.setKey k x).queue j = s.queue j := rfl

/-! ### `setLine` -/

@[simp] theorem State.setLine_pending (s : State) (l : Nat) (x : CacheLine) : (s.setLine l x).pending = s.pending := rfl
@[simp] theorem State.setLine_freeCtr (s : State) (l : Nat) (x : CacheLine) : (s.setLine l x).freeCtr = s.freeCtr := rfl
@[simp] theorem State.setLine_variant (s : State) (l : Nat) (x : CacheLine) : (s.setLine l x).variant = s.variant := rfl
@[simp] theorem State.setLine_serial (s : State) (l : Nat) (x : CacheLine) : (s.setLine l x).serial = s.serial := rfl
@[simp] theorem State.setLine_strap (s : State) (l : Nat) (x : CacheLine) : (s.setLine l x).strap = s.strap := rfl
@[simp] theorem State.setLine_regs (s : State) (l : Nat) (x : CacheLine) : (s.setLine l x).regs = s.regs := rfl
@[simp] theorem State.setLine_mgmt (s : State) (l : Nat) (x : CacheLine) : (s.setLine l x).mgmt = s.mgmt := rfl
@[simp] theorem State.setLine_intc (s : State) (l : Nat) (x : CacheLine) : (s.setLine l x).intc = s.intc := rfl
@[simp] theorem State.setLine_counts (s : State) (l : Nat) (x : CacheLine) : (s.setLine l x).counts = s.counts := rfl
@[simp] theorem State.setLine_queues (s : State) (l : Nat) (x : CacheLine) : (s.setLine l x).queues = s.queues := rfl
@[simp] theorem State.setLine_lanes (s : State) (l : Nat) (x : CacheLine) : (s.setLine l x).lanes = s.lanes := rfl
@[simp] theorem State.setLine_pools (s : State) (l : Nat) (x : CacheLine) : (s.setLine l x).pools = s.pools := rfl
@[simp] theorem State.setLine_ports (s : State) (l : Nat) (x : CacheLine) : (s.setLine l x).ports = s.ports := rfl
@[simp] theorem State.setLine_hosts (s : State) (l : Nat) (x : CacheLine) : (s.setLine l x).hosts = s.hosts := rfl
@[simp] theorem State.setLine_dies (s : State) (l : Nat) (x : CacheLine) : (s.setLine l x).dies = s.dies := rfl
@[simp] theorem State.setLine_loader (s : State) (l : Nat) (x : CacheLine) : (s.setLine l x).loader = s.loader := rfl
@[simp] theorem State.setLine_keys (s : State) (l : Nat) (x : CacheLine) : (s.setLine l x).keys = s.keys := rfl
@[simp] theorem State.setLine_mram (s : State) (l : Nat) (x : CacheLine) : (s.setLine l x).mram = s.mram := rfl
@[simp] theorem State.setLine_power (s : State) (l : Nat) (x : CacheLine) : (s.setLine l x).power = s.power := rfl
@[simp] theorem State.setLine_time (s : State) (l : Nat) (x : CacheLine) : (s.setLine l x).time = s.time := rfl
@[simp] theorem State.setLine_sched (s : State) (l : Nat) (x : CacheLine) : (s.setLine l x).sched = s.sched := rfl
@[simp] theorem State.setLine_trig (s : State) (l : Nat) (x : CacheLine) : (s.setLine l x).trig = s.trig := rfl
@[simp] theorem State.setLine_bcn (s : State) (l : Nat) (x : CacheLine) : (s.setLine l x).bcn = s.bcn := rfl
@[simp] theorem State.setLine_syn (s : State) (l : Nat) (x : CacheLine) : (s.setLine l x).syn = s.syn := rfl
@[simp] theorem State.setLine_mem (s : State) (l : Nat) (x : CacheLine) : (s.setLine l x).mem = s.mem := rfl
@[simp] theorem State.setLine_therm (s : State) (l : Nat) (x : CacheLine) : (s.setLine l x).therm = s.therm := rfl
@[simp] theorem State.setLine_test (s : State) (l : Nat) (x : CacheLine) : (s.setLine l x).test = s.test := rfl
@[simp] theorem State.setLine_cal (s : State) (l : Nat) (x : CacheLine) : (s.setLine l x).cal = s.cal := rfl
@[simp] theorem State.setLine_hk (s : State) (l : Nat) (x : CacheLine) : (s.setLine l x).hk = s.hk := rfl
@[simp] theorem State.setLine_tap (s : State) (l : Nat) (x : CacheLine) : (s.setLine l x).tap = s.tap := rfl
@[simp] theorem State.setLine_get (s : State) (l : Nat) (x : CacheLine) (f : Fld) :
    (s.setLine l x).get f = s.get f := rfl
@[simp] theorem State.setLine_getB (s : State) (l : Nat) (x : CacheLine) (f : Fld) :
    (s.setLine l x).getB f = s.getB f := rfl
@[simp] theorem State.setLine_getZ (s : State) (l : Nat) (x : CacheLine) (f : Fld) :
    (s.setLine l x).getZ f = s.getZ f := rfl
@[simp] theorem State.setLine_lane (s : State) (l : Nat) (x : CacheLine) (m : Nat) :
    (s.setLine l x).lane m = s.lane m := rfl
@[simp] theorem State.setLine_pool (s : State) (l : Nat) (x : CacheLine) (m : Nat) :
    (s.setLine l x).pool m = s.pool m := rfl
@[simp] theorem State.setLine_port (s : State) (l : Nat) (x : CacheLine) (m : Nat) :
    (s.setLine l x).port m = s.port m := rfl
@[simp] theorem State.setLine_host (s : State) (l : Nat) (x : CacheLine) (m : Nat) :
    (s.setLine l x).host m = s.host m := rfl
@[simp] theorem State.setLine_die (s : State) (l : Nat) (x : CacheLine) (m : Nat) :
    (s.setLine l x).die m = s.die m := rfl
@[simp] theorem State.setLine_queue (s : State) (l : Nat) (x : CacheLine) (j : QueueId) :
    (s.setLine l x).queue j = s.queue j := rfl

/-! ### `setSensor` -/

@[simp] theorem State.setSensor_pending (s : State) (k : Nat) (x : Sensor) :
    (s.setSensor k x).pending = s.pending := rfl
@[simp] theorem State.setSensor_freeCtr (s : State) (k : Nat) (x : Sensor) :
    (s.setSensor k x).freeCtr = s.freeCtr := rfl
@[simp] theorem State.setSensor_variant (s : State) (k : Nat) (x : Sensor) :
    (s.setSensor k x).variant = s.variant := rfl
@[simp] theorem State.setSensor_serial (s : State) (k : Nat) (x : Sensor) : (s.setSensor k x).serial = s.serial := rfl
@[simp] theorem State.setSensor_strap (s : State) (k : Nat) (x : Sensor) : (s.setSensor k x).strap = s.strap := rfl
@[simp] theorem State.setSensor_regs (s : State) (k : Nat) (x : Sensor) : (s.setSensor k x).regs = s.regs := rfl
@[simp] theorem State.setSensor_mgmt (s : State) (k : Nat) (x : Sensor) : (s.setSensor k x).mgmt = s.mgmt := rfl
@[simp] theorem State.setSensor_intc (s : State) (k : Nat) (x : Sensor) : (s.setSensor k x).intc = s.intc := rfl
@[simp] theorem State.setSensor_counts (s : State) (k : Nat) (x : Sensor) : (s.setSensor k x).counts = s.counts := rfl
@[simp] theorem State.setSensor_queues (s : State) (k : Nat) (x : Sensor) : (s.setSensor k x).queues = s.queues := rfl
@[simp] theorem State.setSensor_lanes (s : State) (k : Nat) (x : Sensor) : (s.setSensor k x).lanes = s.lanes := rfl
@[simp] theorem State.setSensor_pools (s : State) (k : Nat) (x : Sensor) : (s.setSensor k x).pools = s.pools := rfl
@[simp] theorem State.setSensor_ports (s : State) (k : Nat) (x : Sensor) : (s.setSensor k x).ports = s.ports := rfl
@[simp] theorem State.setSensor_hosts (s : State) (k : Nat) (x : Sensor) : (s.setSensor k x).hosts = s.hosts := rfl
@[simp] theorem State.setSensor_dies (s : State) (k : Nat) (x : Sensor) : (s.setSensor k x).dies = s.dies := rfl
@[simp] theorem State.setSensor_loader (s : State) (k : Nat) (x : Sensor) : (s.setSensor k x).loader = s.loader := rfl
@[simp] theorem State.setSensor_keys (s : State) (k : Nat) (x : Sensor) : (s.setSensor k x).keys = s.keys := rfl
@[simp] theorem State.setSensor_mram (s : State) (k : Nat) (x : Sensor) : (s.setSensor k x).mram = s.mram := rfl
@[simp] theorem State.setSensor_power (s : State) (k : Nat) (x : Sensor) : (s.setSensor k x).power = s.power := rfl
@[simp] theorem State.setSensor_time (s : State) (k : Nat) (x : Sensor) : (s.setSensor k x).time = s.time := rfl
@[simp] theorem State.setSensor_sched (s : State) (k : Nat) (x : Sensor) : (s.setSensor k x).sched = s.sched := rfl
@[simp] theorem State.setSensor_trig (s : State) (k : Nat) (x : Sensor) : (s.setSensor k x).trig = s.trig := rfl
@[simp] theorem State.setSensor_bcn (s : State) (k : Nat) (x : Sensor) : (s.setSensor k x).bcn = s.bcn := rfl
@[simp] theorem State.setSensor_syn (s : State) (k : Nat) (x : Sensor) : (s.setSensor k x).syn = s.syn := rfl
@[simp] theorem State.setSensor_mem (s : State) (k : Nat) (x : Sensor) : (s.setSensor k x).mem = s.mem := rfl
@[simp] theorem State.setSensor_ctx (s : State) (k : Nat) (x : Sensor) : (s.setSensor k x).ctx = s.ctx := rfl
@[simp] theorem State.setSensor_test (s : State) (k : Nat) (x : Sensor) : (s.setSensor k x).test = s.test := rfl
@[simp] theorem State.setSensor_cal (s : State) (k : Nat) (x : Sensor) : (s.setSensor k x).cal = s.cal := rfl
@[simp] theorem State.setSensor_hk (s : State) (k : Nat) (x : Sensor) : (s.setSensor k x).hk = s.hk := rfl
@[simp] theorem State.setSensor_tap (s : State) (k : Nat) (x : Sensor) : (s.setSensor k x).tap = s.tap := rfl
@[simp] theorem State.setSensor_get (s : State) (k : Nat) (x : Sensor) (f : Fld) :
    (s.setSensor k x).get f = s.get f := rfl
@[simp] theorem State.setSensor_getB (s : State) (k : Nat) (x : Sensor) (f : Fld) :
    (s.setSensor k x).getB f = s.getB f := rfl
@[simp] theorem State.setSensor_getZ (s : State) (k : Nat) (x : Sensor) (f : Fld) :
    (s.setSensor k x).getZ f = s.getZ f := rfl
@[simp] theorem State.setSensor_lane (s : State) (k : Nat) (x : Sensor) (m : Nat) :
    (s.setSensor k x).lane m = s.lane m := rfl
@[simp] theorem State.setSensor_pool (s : State) (k : Nat) (x : Sensor) (m : Nat) :
    (s.setSensor k x).pool m = s.pool m := rfl
@[simp] theorem State.setSensor_port (s : State) (k : Nat) (x : Sensor) (m : Nat) :
    (s.setSensor k x).port m = s.port m := rfl
@[simp] theorem State.setSensor_host (s : State) (k : Nat) (x : Sensor) (m : Nat) :
    (s.setSensor k x).host m = s.host m := rfl
@[simp] theorem State.setSensor_die (s : State) (k : Nat) (x : Sensor) (m : Nat) :
    (s.setSensor k x).die m = s.die m := rfl
@[simp] theorem State.setSensor_queue (s : State) (k : Nat) (x : Sensor) (j : QueueId) :
    (s.setSensor k x).queue j = s.queue j := rfl

/-! ### `mramWrite` -/

@[simp] theorem State.mramWrite_pending (s : State) (a : Nat) (bs : List Nat) :
    (s.mramWrite a bs).pending = s.pending := rfl
@[simp] theorem State.mramWrite_freeCtr (s : State) (a : Nat) (bs : List Nat) :
    (s.mramWrite a bs).freeCtr = s.freeCtr := rfl
@[simp] theorem State.mramWrite_variant (s : State) (a : Nat) (bs : List Nat) :
    (s.mramWrite a bs).variant = s.variant := rfl
@[simp] theorem State.mramWrite_serial (s : State) (a : Nat) (bs : List Nat) :
    (s.mramWrite a bs).serial = s.serial := rfl
@[simp] theorem State.mramWrite_strap (s : State) (a : Nat) (bs : List Nat) : (s.mramWrite a bs).strap = s.strap := rfl
@[simp] theorem State.mramWrite_regs (s : State) (a : Nat) (bs : List Nat) : (s.mramWrite a bs).regs = s.regs := rfl
@[simp] theorem State.mramWrite_mgmt (s : State) (a : Nat) (bs : List Nat) : (s.mramWrite a bs).mgmt = s.mgmt := rfl
@[simp] theorem State.mramWrite_intc (s : State) (a : Nat) (bs : List Nat) : (s.mramWrite a bs).intc = s.intc := rfl
@[simp] theorem State.mramWrite_counts (s : State) (a : Nat) (bs : List Nat) :
    (s.mramWrite a bs).counts = s.counts := rfl
@[simp] theorem State.mramWrite_queues (s : State) (a : Nat) (bs : List Nat) :
    (s.mramWrite a bs).queues = s.queues := rfl
@[simp] theorem State.mramWrite_lanes (s : State) (a : Nat) (bs : List Nat) : (s.mramWrite a bs).lanes = s.lanes := rfl
@[simp] theorem State.mramWrite_pools (s : State) (a : Nat) (bs : List Nat) : (s.mramWrite a bs).pools = s.pools := rfl
@[simp] theorem State.mramWrite_ports (s : State) (a : Nat) (bs : List Nat) : (s.mramWrite a bs).ports = s.ports := rfl
@[simp] theorem State.mramWrite_hosts (s : State) (a : Nat) (bs : List Nat) : (s.mramWrite a bs).hosts = s.hosts := rfl
@[simp] theorem State.mramWrite_dies (s : State) (a : Nat) (bs : List Nat) : (s.mramWrite a bs).dies = s.dies := rfl
@[simp] theorem State.mramWrite_loader (s : State) (a : Nat) (bs : List Nat) :
    (s.mramWrite a bs).loader = s.loader := rfl
@[simp] theorem State.mramWrite_keys (s : State) (a : Nat) (bs : List Nat) : (s.mramWrite a bs).keys = s.keys := rfl
@[simp] theorem State.mramWrite_power (s : State) (a : Nat) (bs : List Nat) : (s.mramWrite a bs).power = s.power := rfl
@[simp] theorem State.mramWrite_time (s : State) (a : Nat) (bs : List Nat) : (s.mramWrite a bs).time = s.time := rfl
@[simp] theorem State.mramWrite_sched (s : State) (a : Nat) (bs : List Nat) : (s.mramWrite a bs).sched = s.sched := rfl
@[simp] theorem State.mramWrite_trig (s : State) (a : Nat) (bs : List Nat) : (s.mramWrite a bs).trig = s.trig := rfl
@[simp] theorem State.mramWrite_bcn (s : State) (a : Nat) (bs : List Nat) : (s.mramWrite a bs).bcn = s.bcn := rfl
@[simp] theorem State.mramWrite_syn (s : State) (a : Nat) (bs : List Nat) : (s.mramWrite a bs).syn = s.syn := rfl
@[simp] theorem State.mramWrite_mem (s : State) (a : Nat) (bs : List Nat) : (s.mramWrite a bs).mem = s.mem := rfl
@[simp] theorem State.mramWrite_ctx (s : State) (a : Nat) (bs : List Nat) : (s.mramWrite a bs).ctx = s.ctx := rfl
@[simp] theorem State.mramWrite_therm (s : State) (a : Nat) (bs : List Nat) : (s.mramWrite a bs).therm = s.therm := rfl
@[simp] theorem State.mramWrite_test (s : State) (a : Nat) (bs : List Nat) : (s.mramWrite a bs).test = s.test := rfl
@[simp] theorem State.mramWrite_cal (s : State) (a : Nat) (bs : List Nat) : (s.mramWrite a bs).cal = s.cal := rfl
@[simp] theorem State.mramWrite_hk (s : State) (a : Nat) (bs : List Nat) : (s.mramWrite a bs).hk = s.hk := rfl
@[simp] theorem State.mramWrite_tap (s : State) (a : Nat) (bs : List Nat) : (s.mramWrite a bs).tap = s.tap := rfl
@[simp] theorem State.mramWrite_get (s : State) (a : Nat) (bs : List Nat) (f : Fld) :
    (s.mramWrite a bs).get f = s.get f := rfl
@[simp] theorem State.mramWrite_getB (s : State) (a : Nat) (bs : List Nat) (f : Fld) :
    (s.mramWrite a bs).getB f = s.getB f := rfl
@[simp] theorem State.mramWrite_getZ (s : State) (a : Nat) (bs : List Nat) (f : Fld) :
    (s.mramWrite a bs).getZ f = s.getZ f := rfl
@[simp] theorem State.mramWrite_lane (s : State) (a : Nat) (bs : List Nat) (m : Nat) :
    (s.mramWrite a bs).lane m = s.lane m := rfl
@[simp] theorem State.mramWrite_pool (s : State) (a : Nat) (bs : List Nat) (m : Nat) :
    (s.mramWrite a bs).pool m = s.pool m := rfl
@[simp] theorem State.mramWrite_port (s : State) (a : Nat) (bs : List Nat) (m : Nat) :
    (s.mramWrite a bs).port m = s.port m := rfl
@[simp] theorem State.mramWrite_host (s : State) (a : Nat) (bs : List Nat) (m : Nat) :
    (s.mramWrite a bs).host m = s.host m := rfl
@[simp] theorem State.mramWrite_die (s : State) (a : Nat) (bs : List Nat) (m : Nat) :
    (s.mramWrite a bs).die m = s.die m := rfl
@[simp] theorem State.mramWrite_queue (s : State) (a : Nat) (bs : List Nat) (j : QueueId) :
    (s.mramWrite a bs).queue j = s.queue j := rfl

/-! ### `answerIdent` -/

@[simp] theorem State.answerIdent_pending (s : State) (v : Nat) : (s.answerIdent v).pending = s.pending := rfl
@[simp] theorem State.answerIdent_freeCtr (s : State) (v : Nat) : (s.answerIdent v).freeCtr = s.freeCtr := rfl
@[simp] theorem State.answerIdent_variant (s : State) (v : Nat) : (s.answerIdent v).variant = s.variant := rfl
@[simp] theorem State.answerIdent_serial (s : State) (v : Nat) : (s.answerIdent v).serial = s.serial := rfl
@[simp] theorem State.answerIdent_strap (s : State) (v : Nat) : (s.answerIdent v).strap = s.strap := rfl
@[simp] theorem State.answerIdent_regs (s : State) (v : Nat) : (s.answerIdent v).regs = s.regs := rfl
@[simp] theorem State.answerIdent_intc (s : State) (v : Nat) : (s.answerIdent v).intc = s.intc := rfl
@[simp] theorem State.answerIdent_counts (s : State) (v : Nat) : (s.answerIdent v).counts = s.counts := rfl
@[simp] theorem State.answerIdent_queues (s : State) (v : Nat) : (s.answerIdent v).queues = s.queues := rfl
@[simp] theorem State.answerIdent_lanes (s : State) (v : Nat) : (s.answerIdent v).lanes = s.lanes := rfl
@[simp] theorem State.answerIdent_pools (s : State) (v : Nat) : (s.answerIdent v).pools = s.pools := rfl
@[simp] theorem State.answerIdent_ports (s : State) (v : Nat) : (s.answerIdent v).ports = s.ports := rfl
@[simp] theorem State.answerIdent_hosts (s : State) (v : Nat) : (s.answerIdent v).hosts = s.hosts := rfl
@[simp] theorem State.answerIdent_dies (s : State) (v : Nat) : (s.answerIdent v).dies = s.dies := rfl
@[simp] theorem State.answerIdent_loader (s : State) (v : Nat) : (s.answerIdent v).loader = s.loader := rfl
@[simp] theorem State.answerIdent_keys (s : State) (v : Nat) : (s.answerIdent v).keys = s.keys := rfl
@[simp] theorem State.answerIdent_mram (s : State) (v : Nat) : (s.answerIdent v).mram = s.mram := rfl
@[simp] theorem State.answerIdent_power (s : State) (v : Nat) : (s.answerIdent v).power = s.power := rfl
@[simp] theorem State.answerIdent_time (s : State) (v : Nat) : (s.answerIdent v).time = s.time := rfl
@[simp] theorem State.answerIdent_sched (s : State) (v : Nat) : (s.answerIdent v).sched = s.sched := rfl
@[simp] theorem State.answerIdent_trig (s : State) (v : Nat) : (s.answerIdent v).trig = s.trig := rfl
@[simp] theorem State.answerIdent_bcn (s : State) (v : Nat) : (s.answerIdent v).bcn = s.bcn := rfl
@[simp] theorem State.answerIdent_syn (s : State) (v : Nat) : (s.answerIdent v).syn = s.syn := rfl
@[simp] theorem State.answerIdent_mem (s : State) (v : Nat) : (s.answerIdent v).mem = s.mem := rfl
@[simp] theorem State.answerIdent_ctx (s : State) (v : Nat) : (s.answerIdent v).ctx = s.ctx := rfl
@[simp] theorem State.answerIdent_therm (s : State) (v : Nat) : (s.answerIdent v).therm = s.therm := rfl
@[simp] theorem State.answerIdent_test (s : State) (v : Nat) : (s.answerIdent v).test = s.test := rfl
@[simp] theorem State.answerIdent_cal (s : State) (v : Nat) : (s.answerIdent v).cal = s.cal := rfl
@[simp] theorem State.answerIdent_hk (s : State) (v : Nat) : (s.answerIdent v).hk = s.hk := rfl
@[simp] theorem State.answerIdent_tap (s : State) (v : Nat) : (s.answerIdent v).tap = s.tap := rfl
@[simp] theorem State.answerIdent_get (s : State) (v : Nat) (f : Fld) : (s.answerIdent v).get f = s.get f := rfl
@[simp] theorem State.answerIdent_getB (s : State) (v : Nat) (f : Fld) : (s.answerIdent v).getB f = s.getB f := rfl
@[simp] theorem State.answerIdent_getZ (s : State) (v : Nat) (f : Fld) : (s.answerIdent v).getZ f = s.getZ f := rfl
@[simp] theorem State.answerIdent_lane (s : State) (v : Nat) (m : Nat) : (s.answerIdent v).lane m = s.lane m := rfl
@[simp] theorem State.answerIdent_pool (s : State) (v : Nat) (m : Nat) : (s.answerIdent v).pool m = s.pool m := rfl
@[simp] theorem State.answerIdent_port (s : State) (v : Nat) (m : Nat) : (s.answerIdent v).port m = s.port m := rfl
@[simp] theorem State.answerIdent_host (s : State) (v : Nat) (m : Nat) : (s.answerIdent v).host m = s.host m := rfl
@[simp] theorem State.answerIdent_die (s : State) (v : Nat) (m : Nat) : (s.answerIdent v).die m = s.die m := rfl
@[simp] theorem State.answerIdent_queue (s : State) (v : Nat) (j : QueueId) :
    (s.answerIdent v).queue j = s.queue j := rfl

end Sys2Proof.Machine
end

