-- ==== Sys2Proof/Laws/Ops.lean ====
section
/-!
SUPPORT. Which register fields the shared operations change: a write, an event of an interrupt source, the performance
counters.
-/

namespace Sys2Proof.Machine

open Sys2Proof

theorem RegsBut.refl (fs : List Fld) (s : State) : RegsBut fs s s := fun _ _ => rfl

theorem RegsBut.trans {fs : List Fld} {s t u : State} (h : RegsBut fs s t) (k : RegsBut fs t u) : RegsBut fs s u :=
  fun f hf => (k f hf).trans (h f hf)

theorem RegsBut.mono {fs gs : List Fld} {s t : State} (h : RegsBut fs s t) (hs : ∀ f ∈ fs, f ∈ gs) : RegsBut gs s t :=
  fun f hf => h f fun g hg => hf g (hs g hg)

/-- An operation that leaves the register bank alone changes no field. -/
theorem RegsBut.of_eq {fs : List Fld} {s t u : State} (h : RegsBut fs s t) (he : u.regs = t.regs) : RegsBut fs s u :=
  fun f hf => by rw [← h f hf]; simp [State.get, he]

/-- The relation of `Keeps` without the register bank among its parts says the same. -/
theorem RegsBut.keeps {fs : List Fld} {ps : List Part} {s t u : State} (h : RegsBut fs s t) (k : Keeps ps t u)
    (hp : Part.regs ∉ ps) : RegsBut fs s u := h.of_eq (k.same .regs hp)

theorem RegsBut.put {fs : List Fld} {s t : State} {f : Fld} {v : Nat} (h : RegsBut fs s t) (hf : f ∈ fs) :
    RegsBut fs s (t.put f v) :=
  fun g hg => (State.get_put_other t v (hg f hf)).trans (h g hg)

theorem RegsBut.putB {fs : List Fld} {s t : State} {f : Fld} {b : Bool} (h : RegsBut fs s t) (hf : f ∈ fs) :
    RegsBut fs s (t.putB f b) := RegsBut.put h hf

theorem RegsBut.onlyIf {fs : List Fld} {s t : State} {b : Bool} {f : State → State} (h : RegsBut fs s t)
    (hf : ∀ x, RegsBut fs s x → RegsBut fs s (f x)) : RegsBut fs s (t.onlyIf b f) := by
  unfold State.onlyIf
  split
  · exact hf t h
  · exact h

theorem RegsBut.ite {fs : List Fld} {s t u : State} {c : Prop} [Decidable c] (h : RegsBut fs s t) (k : RegsBut fs s u) :
    RegsBut fs s (if c then t else u) := by
  split
  · exact h
  · exact k

theorem RegsBut.each {α : Type} {fs : List Fld} {s t : State} {xs : List α} {f : State → α → State} (h : RegsBut fs s t)
    (hf : ∀ x a, RegsBut fs s x → RegsBut fs s (f x a)) : RegsBut fs s (t.each xs f) := by
  induction xs generalizing t with
  | nil => exact h
  | cons a r ih => exact ih (hf t a h)

theorem RegsBut.noteEvent {fs : List Fld} {s t : State} {i : Nat} (h : RegsBut fs s t) (hf : INTC.SRC_COUNT.f 0 i ∈ fs) :
    RegsBut fs s (t.noteEvent i) := h.onlyIf fun _ hx => hx.put hf

theorem RegsBut.raise {fs : List Fld} {s t : State} {i : Nat} (h : RegsBut fs s t) (hf : ∀ f ∈ evFlds i, f ∈ fs) :
    RegsBut fs s (t.raise i) := by
  unfold State.raise
  split
  · rename_i f b hs
    exact (h.noteEvent (hf _ (by simp [evFlds]))).put (hf _ (by simp [evFlds, hs]))
  · exact h.noteEvent (hf _ (by simp [evFlds]))

theorem RegsBut.bumpFrom {fs : List Fld} {s t : State} {bank : Nat} {evs : List Nat} {n carry i fuel : Nat}
    (h : RegsBut fs s t) (hf : ∀ f ∈ perfFlds bank, f ∈ fs) : RegsBut fs s (t.bumpFrom bank evs n carry i fuel) := by
  induction fuel generalizing t carry i with
  | zero => exact h
  | succ k ih =>
    unfold State.bumpFrom
    refine ih (RegsBut.ite (RegsBut.put (RegsBut.noteEvent (RegsBut.ite h (h.of_eq rfl)) (hf _ (by simp [perfFlds]))) ?_)
      (RegsBut.ite h (h.of_eq rfl)))
    split <;> exact hf _ (by simp [perfFlds])

theorem RegsBut.bump {fs : List Fld} {s t : State} {bank : Nat} {evs : List Nat} {n : Nat} (h : RegsBut fs s t)
    (hf : ∀ f ∈ perfFlds bank, f ∈ fs) : RegsBut fs s (t.bump bank evs n) := by
  unfold State.bump
  split
  · exact h
  · exact h.bumpFrom hf

theorem RegsBut.countD0 {fs : List Fld} {s t : State} {k i n : Nat} (h : RegsBut fs s t)
    (hf : ∀ f ∈ perfFlds 0, f ∈ fs) : RegsBut fs s (t.countD0 k i n) := h.bump hf

theorem RegsBut.countLane {fs : List Fld} {s t : State} {l k n : Nat} (h : RegsBut fs s t)
    (hf : ∀ f ∈ perfFlds (1 + l / 4), f ∈ fs) : RegsBut fs s (t.countLane l k n) := h.bump hf

theorem RegsBut.releaseIrq {fs : List Fld} {s t : State} (h : RegsBut fs s t) : RegsBut fs s t.releaseIrq := by
  unfold State.releaseIrq
  split
  · exact h.of_eq rfl
  · exact h

/-- `Keeps` gives the frame that the claims state. -/
theorem Keeps.sameBut {ps qs : List Part} {s t : State} (k : Keeps qs s t) (hs : subParts qs ps = true) : SameBut ps s t :=
  (k.weaken hs).same

end Sys2Proof.Machine
end

