-- ==== Sys2Proof/Laws/Mgmt.lean ====
section
/-!
SUPPORT. What completing a command does to the completion queue and to the engines.
-/

namespace Sys2Proof.Machine

open Sys2Proof

@[simp] theorem State.noteEvent_mgmt (s : State) (i : Nat) : (s.noteEvent i).mgmt = s.mgmt :=
  (State.noteEvent_keeps s i).same .mgmt (by decide)

@[simp] theorem State.raise_mgmt (s : State) (i : Nat) : (s.raise i).mgmt = s.mgmt :=
  (State.raise_keeps s i).same .mgmt (by decide)

@[simp] theorem State.countD0_mgmt (s : State) (a b c : Nat) : (s.countD0 a b c).mgmt = s.mgmt :=
  (State.countD0_keeps s a b c).same .mgmt (by decide)

/-- The completion is the newest of the queue, and nothing else of the ports and engines changes. -/
theorem State.queueCompletion_mgmt (s : State) (w : List Nat) (st : Status) (d r0 r1 : Nat) :
    (s.queueCompletion w st d r0 r1).mgmt =
      { s.mgmt with cpls := s.mgmt.cpls ++ [⟨cmdTag w, cmdOpcode w, st, d, r0, r1⟩] } := by
  simp [State.queueCompletion]

theorem State.complete_mgmt (s : State) (e : Engine) (w : List Nat) (st : Status) (d r0 r1 : Nat) :
    (s.complete e w st d r0 r1).mgmt =
      { s.mgmt with cpls := s.mgmt.cpls ++ [⟨cmdTag w, cmdOpcode w, st, d, r0, r1⟩], taken := s.mgmt.taken.erase ⟨e, w⟩ } := by
  simp [State.complete, State.queueCompletion]

theorem State.complete_answered (s : State) (e : Engine) (w : List Nat) (st : Status) (d r0 r1 : Nat) :
    Answered e w st d r0 r1 s (s.complete e w st d r0 r1) := by
  constructor <;> rw [State.complete_mgmt]

theorem RegsBut.queueCompletion {fs : List Fld} {s t : State} {w : List Nat} {st : Status} {d r0 r1 : Nat} (h : RegsBut fs s t)
    (hf : INTC.SRC_COUNT.f 0 294 ∈ fs) : RegsBut fs s (t.queueCompletion w st d r0 r1) :=
  (h.noteEvent hf).of_eq rfl

theorem RegsBut.complete {fs : List Fld} {s t : State} {e : Engine} {w : List Nat} {st : Status} {d r0 r1 : Nat}
    (h : RegsBut fs s t) (hf : INTC.SRC_COUNT.f 0 294 ∈ fs) : RegsBut fs s (t.complete e w st d r0 r1) :=
  RegsBut.queueCompletion (h.of_eq rfl) hf

theorem Answered.of_eq {e : Engine} {w : List Nat} {st : Status} {d r0 r1 : Nat} {s t u v : State} (h : Answered e w st d r0 r1 t u)
    (h1 : t.mgmt = s.mgmt) (h2 : v.mgmt = u.mgmt) : Answered e w st d r0 r1 s v := by
  unfold Answered at *
  rw [h2, ← h1]
  exact h

end Sys2Proof.Machine
end

