-- ==== Sys2Proof/Machine/Balls.lean ====
section
/-!
DEFINITION. What the balls show: the outputs of the package as functions of its state (17_electrical.md R467, R468;
05_line_transmit.md R184; 12_power.md R369), the debug multiplexer (15_management.md R444) and the TAP's data register (R445).
-/

namespace Sys2Proof.Machine

open Sys2Proof

/-- What an output or bidirectional ball, or a pair of them, shows (R468). -/
inductive Ball where
  | highZ
  | low
  | high
  /-- An open-drain output that is not driven. -/
  | released
  /-- Low through 100 kΩ. -/
  | pulledLow
  /-- A pair that shows its termination only. -/
  | termination
  /-- A pair at differential zero. -/
  | diffZero
  /-- A pair or a port that carries its signal. -/
  | signal
  /-- A receiver that drives nothing. -/
  | receiver
  /-- A housekeeping output held by its clamp. -/
  | clamped
  /-- A housekeeping output's voltage in 1/4096 mV (10_engine_housekeeping.md R314). -/
  | level (v : Int)
  /-- A supply output that is off, that is on. -/
  | off
  | on
  deriving DecidableEq, Repr

/-- The stage that powers a domain's balls has been reached, and they are powered (R463). -/
def State.railUp (s : State) (k : Nat) : Bool := bitAt s.power.railsUp k && !s.standby

/-- LTX of lane `n` (R184, 05_line_transmit.md R182). -/
def State.ballLtx (s : State) (n : Nat) : Ball :=
  if !s.railUp 4 then .termination else if s.dieUp (n / 4) && !s.squelched n then .signal else .diffZero

/-- HTX of host lane `h` (06_host_side.md R196, R204). -/
def State.ballHtx (s : State) (h : Nat) : Ball :=
  if !s.railUp 4 then .termination else if s.d0Up && decide ((s.host h).out ≠ .zero) then .signal else .diffZero

/-- MGMT_SCL and MGMT_SDA: the port or the always-on island, or in DEEP_STANDBY the matcher, is on the bus (R423, R378). -/
def State.ballMgmt (s : State) : Ball := if bitAt s.power.railsUp 1 then .signal else .highZ

/-- IRQ_N (15_management.md R435). -/
def State.ballIrq (s : State) : Ball :=
  if s.standby then .released
  else if !s.railUp 2 then .highZ
  else if s.d0Up && s.intc.irqLow then .low else .released

/-- FAULT_N (12_power.md R369): low with VIN absent. -/
def State.ballFault (s : State) : Ball :=
  if s.power.vin = .off ∨ s.getB PWR.AON_STAT_FAULT.f = true then .low else .released

/-- FCODE[k]: a released bit reads 1; with D4 unpowered every bit is released (R369). -/
def State.ballFcode (s : State) (k : Nat) : Ball :=
  if s.power.vin ≠ .off ∧ s.getB PWR.AON_STAT_FAULT.f = true ∧ bitAt (s.get PWR.AON_STAT_FCODE.f) k = false then .low else .released

/-- BULK_IO outside a transaction, and in one (15_management.md R424). -/
def State.ballBulk (s : State) (selected : Bool) : Ball := if s.railUp 2 && selected then .signal else .highZ

/-- TRIG_OUT[j] (09_time.md R307). -/
def State.ballTrig (s : State) (j : Nat) : Ball :=
  if !s.railUp 2 then .highZ
  else if !s.d0Up then .pulledLow
  else if s.trigOut j then .high else .low

/-- SYNC_P and SYNC_N: driven only while master (09_time.md R301). -/
def State.ballSync (s : State) : Ball :=
  if !s.railUp 2 then .highZ else if s.d0Up && s.getB TIME.TIME_STAT_SUMAC_DRIVING.f then .signal else .receiver

/-- HKD_OUT[c] (10_engine_housekeeping.md R317, R320; 12_power.md R377). -/
def State.ballHkd (s : State) (c : Nat) : Ball :=
  if s.standby then .clamped
  else if !s.railUp 4 then .highZ
  else if !s.d0Up || s.getB (HKD.HKD_STAT_CLAMPED.f 0 c) then .clamped else .level (s.hkdOut c)

/-- OE_3V3 (0) and OE_1V8 (1). -/
def State.ballOe (s : State) (k : Nat) : Ball := if s.getB (oePg k) then .on else .off

/-! ### The debug multiplexer (R444) -/

/-- A word of eight bits, the first one in bit 7. -/
def byteOf (bs : List Bool) : Nat := bs.foldl (fun a b => 2 * a + natOf b) 0

/-- The bits of a field, most significant first. -/
def bitsDown (v w : Nat) : List Bool := ((List.range w).map (fun i => bitAt v i)).reverse

/-- An apply is under way on lane `n`. -/
def State.applyOn (s : State) (n : Nat) : Bool :=
  s.ctx.applies.any (fun x => (descLanes x.desc).contains n && decide (x.phase ≠ .queued))

/-- The signals of group `g` for lane `n`, bit 7 first: the order of R444's list.  Sampled clocks, the strobes of the Saffron classes
and groups that the spec does not list are free (log 98). -/
def State.debugSignals (s : State) (g n : Nat) : List Bool :=
  let free (i : Nat) : Bool := bitAt (Config.freeValue s.freeCtr) i
  match g with
  | 0 => (List.range 5).map free ++ [false, false, false]
  | 1 =>
    bitsDown (s.get (LINE.RX_STATE_STATE.f n)) 4 ++
      [s.getB (LINE.RX_STATE_CDR_LOCK.f n), s.light n, s.getB (LINE.SYNC_STAT_SYNC_LOCK.f n), s.getB (LINE.SYNC_STAT_GROUP_LOCK.f n)]
  | 2 =>
    [s.squelched n] ++ bitsDown (s.get (LINE.TX_STATE_TIMING.f n)) 2 ++
      [s.getB (BCN.TX_STAT_SENDING.f n), s.getB (BCN.TX_STAT_HELD.f n), s.getB (BCN.RX_STAT_RECEIVING.f n), s.applyOn n,
       (s.lane n).swap.isSome]
  | 3 => [!s.intc.irqLow, s.getB INTC.IC_STAT_CORE_WAIT.f] ++ (List.range 5).map free ++ [false]
  | 4 =>
    bitsDown (s.get (PORT.PSTAT_NM_STATE_A.f n)) 2 ++ bitsDown (s.get (PORT.PSTAT_NM_STATE_B.f n)) 2 ++
      [s.getB (PORT.PEVT_OVF.f n), s.getB (PORT.PEVT_UNDERRUN.f n), false, false]
  | _ => (List.range 8).map free

/-- A group whose signals are those of a line lane's die or region. -/
def laneGroup (g : Nat) : Bool := g == 1 || g == 2

/-- DBG_D[7:0]: low while DEN is 0, while the controls do not work, in reset, and for a part without power. -/
def State.debugD (s : State) : Nat :=
  let n := s.get DBG.DBG_CTL_LANE.f
  let g := s.get DBG.DBG_CTL_GROUP.f
  if s.d0Up && s.getB LOADER.STATUS_DEBUG_ALLOWED.f && s.getB DBG.DBG_CTL_DEN.f && (!laneGroup g || s.laneServed n) then
    byteOf (s.debugSignals g n)
  else 0

/-- DBG_D[k]. -/
def State.ballDbgD (s : State) (k : Nat) : Ball :=
  if !s.railUp 2 then .highZ else if bitAt s.debugD k then .high else .low

/-- DBG_A[0] and DBG_A[1]: the selected analog nodes, or high-impedance. -/
def State.ballDbgA (s : State) : Ball :=
  if s.railUp 4 && s.d0Up && s.getB LOADER.STATUS_DEBUG_ALLOWED.f && s.getB DBG.DBG_CTL_AEN.f then .signal else .highZ

/-! ### The TAP (R445) -/

/-- IDCODE: version 1 for B0, part 0x5832, manufacturer 0x2A6, and bit 0 at 1. -/
def idcode : Nat := 0x1583254D

/-- What the data register that the instruction selects captures, where it is no scan chain: the 32 bits of IDCODE, the one bit of
BYPASS, which CLAMP and HIGHZ select too, at 0 (PRESUMED, IEEE 1149.1; log 98). -/
def State.tapCaptures (s : State) : Option (List Bool) :=
  match s.tap with
  | .idcode => some ((List.range 32).map (fun i => bitAt idcode i))
  | .bypass => some [false]
  | .clamp => some [false]
  | .highz => some [false]
  | .sample => none
  | .extest => none
  | .extestPulse => none
  | .extestTrain => none

end Sys2Proof.Machine
end

