-- ==== Sys2Proof/WellFormed.lean ====
section
/-!
DEFINITION. Well-formed commands: operands inside the ranges of the spec.  Every meaning is total; a command that is not well
formed describes nothing that the device can meet.
-/

namespace Sys2Proof

/-- The instances of a queue kind (01_architecture.md, table of R42). -/
def QueueKind.count (k : QueueKind) : Nat :=
  match k with
  | .hostRx => 16 | .hostTx => 16 | .ctxReq => 1 | .memRet => 1 | .ctxPort => 2 | .cmdRing => 1
  | .adcFfe => 8 | .ffeMlse => 8 | .mlseDec => 8 | .decLink => 8 | .linkTxp => 8 | .linkD0 => 8 | .d0Link => 8

def queueOk (q : QueueId) : Bool := decide (q.inst < q.kind.count)

/-- 272 reliabilities of four bits (03_line_receive.md R109). -/
def relOk (rel : List Nat) : Bool := decide (rel.length = 272) && rel.all (fun r => decide (r < 16))

/-- Every element lies in a signed range of `2 * h` values. -/
def within (h : Int) (xs : List Int) : Bool := xs.all (fun x => decide (-h ≤ x) && decide (x < h))

/-- The entry has the content of its queue: 136 samples of 8 bits, 136 equalised samples of 10 bits, 272 decisions (R42). -/
def entryOk (k : QueueKind) (d : QData) : Bool :=
  match k, d with
  | .adcFfe, .samples raw _ => decide (raw.length = 136) && within 128 raw
  | .ffeMlse, .equalised ys _ => decide (ys.length = 136) && within 512 ys
  | .mlseDec, .soft _ rel => relOk rel
  | .decLink, .decoded _ _ => true
  | .linkD0, .decoded _ _ => true
  | .d0Link, .toSend _ _ => true
  | .linkTxp, .toSend _ _ => true
  | .hostRx, .host _ _ => true
  | .hostTx, .host _ _ => true
  | .ctxReq, .request _ _ => true
  | .memRet, .burst bs => decide (bs.length = 64)
  | .ctxPort, .record _ => true
  | .cmdRing, .command ws => decide (ws.length = 8)
  | _, _ => false

/-- The position of an engine's codewords on the lanes of its port, as bits that precede the next pair of them (06_host_side.md R202):
within one cadence of the alignment markers. -/
def alignOk (offA offB : Nat) : Bool := decide (offA < 22282240) && decide (offB < 22282240)

/-- Words of an area of the MRAM of `n` words (11_memory.md R353). -/
def wordsIn (n : Nat) (es : List (Nat × WordErr)) : Bool := es.all (fun e => decide (e.1 < n))

/-- A domain of power: a group by a lane, a region, the package. -/
def domainOk (d : Domain) : Bool :=
  match d with
  | .group n => decide (n < 8)
  | .region r => decide (r < 4)
  | .package => true

/-- The counters of a bank: 64 on D0, 32 on a line die (01_architecture.md R25). -/
def counterOk (bank i : Nat) : Bool := decide (i < if bank = 0 then 64 else 32)

/-- A command whose operands lie in their ranges. -/
def Instr.wellFormed (i : Instr) : Bool :=
  match i with
  | .cmdPush => true
  | .commandTake => true
  | .cplPop => true
  | .nop => true
  | .partialLoad => true
  | .partialOutageEnd _ => true
  | .slotBegin _ => true
  | .slotChunk _ => true
  | .slotEnd _ upsets => wordsIn 0x60000 upsets
  | .boot => true
  | .keyWrite _ => true
  | .keyRevoke _ => true
  | .fill => true
  | .storeBuffer => true
  | .storeLive => true
  | .remove => true
  | .pin => true
  | .unpin => true
  | .applyNow => true
  | .clearAll => true
  | .contextReadStored => true
  | .contextReadLive => true
  | .lookup => true
  | .add => true
  | .scheduleRemove => true
  | .scheduleRead => true
  | .purge => true
  | .capture _ => true
  | .captureStart _ => true
  | .captureTrigger _ => true
  | .captureTimeout _ => true
  | .captureComplete _ => true
  | .bistRun => true
  | .bistRunDone _ => true
  | .wait => true
  | .clockSwitchInternal => true
  | .clockSwitchMclk => true
  | .accept => true
  | .set => true
  | .registerWrite _ _ _ => true
  | .unmappedAccess _ _ _ => true
  | .mgmtWrite _ addr _ => decide (addr.length ≤ 4)
  | .mgmtRead _ _ _ => true
  | .entdaa _ => true
  | .setdasa _ _ => true
  | .setnewda _ => true
  | .rstdaa => true
  | .getpid => true
  | .getbcr => true
  | .getdcr => true
  | .getstatus => true
  | .quadWrite _ _ => true
  | .quadRead _ _ fetched _ => decide (fetched ≤ 64)
  | .bulkStatus => true
  | .singleWrite _ _ => true
  | .singleRead _ _ fetched _ => decide (fetched ≤ 64)
  | .claim => true
  | .complete _ => true
  | .irqDelivery _ => true
  | .swSet _ => true
  | .countClr source => decide (source < 384)
  | .cntLoRead bank ctr => counterOk bank.val ctr
  | .clear bank ctr => counterOk bank.val ctr
  | .clearAllCounters _ => true
  | .freeze _ _ => true
  | .d1Reset _ _ => true
  | .pkgReset _ => true
  | .lineDieReapply _ => true
  | .heldPartRetest _ _ => true
  | .hwmClr q _ => queueOk q
  | .nmHwmClr _ => true
  | .queueEntry q entry _ _ => queueOk q && entryOk q.kind entry.data
  | .starve q _ => queueOk q
  | .restart _ => true
  | .presetLoad _ => true
  | .tapLoad _ _ _ => true
  | .winWrite _ _ => true
  | .start _ _ _ => true
  | .histogramDone _ => true
  | .measWindowEnd _ => true
  | .envCrossing _ _ => true
  | .lightOn _ => true
  | .lightOff _ => true
  | .agcMeasurement _ => true
  | .trackingInterval _ => true
  | .cdrWindow _ => true
  | .cdrDone _ => true
  | .blindDone _ => true
  | .ddDone _ => true
  | .trainDone _ => true
  | .acqTimeout _ => true
  | .warmFail _ => true
  | .codewordDecode _ => true
  | .syndromeLock _ => true
  | .lockLost _ => true
  | .groupLoss _ => true
  | .formatMismatch _ => true
  | .codewordEncode _ => true
  | .squelch _ _ => true
  | .squelchEntry _ => true
  | .squelchRelease _ => true
  | .pattern _ _ => true
  | .commit _ => true
  | .hostLockAcq _ => true
  | .hostLockLost _ _ => true
  | .rxRestart _ => true
  | .hostTxCommit _ => true
  | .hostCodeword _ _ => true
  | .hostGapEnd _ _ => true
  | .lineRsCodeword _ _ upsets => upsets.all (fun i => decide (i < 80))
  | .lfStart _ _ => true
  | .resume _ _ => true
  | .nutmegReadResume _ _ => true
  | .monAmLock _ _ _ offA offB => alignOk offA offB
  | .groupCfgWrite _ => true
  | .hashSeedWrite _ => true
  | .applyRecordsRead _ => true
  | .applyTransferDone _ => true
  | .contextApplied _ => true
  | .idTimeout _ => true
  | .placementTick => true
  | .cacheFillDone _ => true
  | .relocated slot => decide (slot < 65536)
  | .send _ _ => true
  | .txModeWrite _ _ => true
  | .beaconFrameDue _ => true
  | .beaconFrameStart _ => true
  | .beaconDeparture _ => true
  | .beaconTimestampReturn _ => true
  | .sent _ => true
  | .txChLoad _ _ => true
  | .rxChLoad _ _ _ => true
  | .synthLock _ _ => true
  | .noLock _ => true
  | .synthBgCal _ _ => true
  | .noiseWindowEnd _ _ => true
  | .beaconDetection _ _ _ => true
  | .beaconReport _ _ => true
  | .ppsEdge _ => true
  | .todMessage _ => true
  | .sumacFrame _ => true
  | .sumacFrameSend => true
  | .sumacConflict => true
  | .sumacRoleWrite _ => true
  | .srcWrite _ => true
  | .sourceLoss => true
  | .segmentBoundary => true
  | .snap => true
  | .convTickHiWrite _ => true
  | .scheduleDue => true
  | .scheduleTrigger pos => decide (pos < 1024)
  | .arm _ => true
  | .trigPulse _ => true
  | .trigPulseEnd _ => true
  | .strobe _ => true
  | .spanWrite _ _ => true
  | .spanHoldEnd _ => true
  | .biasStrobe => true
  | .ditherUpdate => true
  | .sync _ => true
  | .targetWrite _ _ => true
  | .hkaConversion _ _ => true
  | .go _ => true
  | .runWrite _ _ => true
  | .rdIdxWrite _ => true
  | .filterSlot k => decide (k < 48)
  | .filtRunWrite _ => true
  | .latch => true
  | .filtCfgWrite k _ => decide (k < 48)
  | .enginePageRead => true
  | .enginePageReadDone page _ => decide (page.length ≤ 128)
  | .read => true
  | .oeXferGo _ => true
  | .xferDone _ data => decide (data.length ≤ 16)
  | .railLoss _ => true
  | .oeRailRetry _ _ => true
  | .oeCtlWrite _ _ _ => true
  | .memBurst req errs _ => decide (errs.length ≤ 8) && req.all (fun r => decide (r.data.length ≤ 64) && decide (r.addr.toNat % 64 = 0))
  | .retrain => true
  | .retrainingDone _ => true
  | .d3TempRead _ _ => true
  | .refresh bank => decide (bank < 128)
  | .scrubBlock errs _ => decide (errs.length ≤ 8)
  | .scrubEnWrite _ => true
  | .reload primary mirror => wordsIn 8192 primary && wordsIn 8192 mirror
  | .vinGood => true
  | .debounceDone => true
  | .softstartDone => true
  | .vinOvervoltage => true
  | .vinOvClear => true
  | .vinOvercurrent => true
  | .overcurrentRestart => true
  | .vinLoss => true
  | .stagePass => true
  | .stageFail stage => decide (1 ≤ stage) && decide (stage ≤ 8)
  | .stageRetry => true
  | .refclkPresent => true
  | .rpllLock => true
  | .bistComplete failed => failed.all (fun k => decide (k < 156))
  | .bootSlotChecked upsets => wordsIn 0x60000 upsets
  | .imageApply => true
  | .resetNAssert => true
  | .resetNRelease => true
  | .railFailure stage => decide (1 ≤ stage) && decide (stage ≤ 5)
  | .refclkLost => true
  | .refclkReturn => true
  | .drainComplete d => domainOk d
  | .drainDiscard d => domainOk d
  | .addressMatchWake _ => true
  | .aonBrownout => true
  | .thermalSample raws => decide (raws.length = 24)
  | .shutdownHold => true
  | .thresholdWrite _ => true
  | .tileFailed _ => true
  | .swapDone _ => true
  | .replaced _ => true
  | .checkpoint _ _ => true
  | .bgSpareTest => true
  | .spareFail _ => true
  | .placementEval _ => true
  | .segmentMeasure _ => true
  | .withdrawHalve _ => true
  | .jtagInstruction _ => true
  | .jtagInstructionExit => true
  | .d0ResetEnd primary mirror => wordsIn 8192 primary && wordsIn 8192 mirror
  | .amLock _ _ _ offA offB => alignOk offA offB
  | .loadImageComplete => true
  | .bgSlicePass _ => true
  | .returnToActive d => domainOk d

end Sys2Proof
end

