-- ==== Sys2Proof/Tests/Slice0.lean ====
section
/-!
SUPPORT. Tests: well-formedness refuses an ill-formed command for each of its checks; single steps whose results the spec
states; and for every statement with hypotheses a witness that concrete states and operands meet them, one clause after the
other.
-/

namespace Sys2Proof.Tests

open Sys2Proof Sys2Proof.Machine

set_option maxRecDepth 20000
set_option Elab.async false

/-! ### Building states -/

/-- The state right after reset. -/
def s0 : State := .reset

/-- Register fields written. -/
def put (s : State) (xs : List (Fld × Nat)) : State := s.each xs (fun s p => s.put p.1 p.2)

/-- Reset with register fields written. -/
def regs (xs : List (Fld × Nat)) : State := put s0 xs

/-- The words of a command with tag 7 (15_management.md R427). -/
def cmd (opcode op : Nat) (args : List Nat) : List Nat := (7 * 2 ^ 16 + op * 2 ^ 8 + opcode) :: args

/-- A command that its engine has taken. -/
def taken (e : Engine) (w : List Nat) (s : State) : State := { s with mgmt := { s.mgmt with taken := s.mgmt.taken ++ [⟨e, w⟩] } }

/-- The state that a command leaves. -/
def run (c : Instr) (s : State) : State :=
  match exec c s with
  | .next t => t
  | .fault _ => s
  | .refused _ => s

/-! ### Well-formedness refuses -/

theorem test_wf_queue_instance : (Instr.hwmClr ⟨.linkD0, 8⟩ false).wellFormed = false := by decide
theorem test_wf_queue_last_instance : (Instr.hwmClr ⟨.linkD0, 7⟩ false).wellFormed = true := by decide
theorem test_wf_reliabilities : (Instr.queueEntry ⟨.mlseDec, 0⟩ ⟨.soft 0 [1], false⟩ false false).wellFormed = false := by decide
theorem test_wf_reliability_range :
    (Instr.queueEntry ⟨.mlseDec, 0⟩ ⟨.soft 0 (List.replicate 272 16), false⟩ false false).wellFormed = false := by decide
theorem test_wf_samples : (Instr.queueEntry ⟨.adcFfe, 0⟩ ⟨.samples [1, 2] 0, false⟩ false false).wellFormed = false := by decide

theorem test_wf_sample_range :
    (Instr.queueEntry ⟨.adcFfe, 0⟩ ⟨.samples (List.replicate 136 128) 0, false⟩ false false).wellFormed = false := by decide
theorem test_wf_entry_of_other_queue : (Instr.queueEntry ⟨.hostRx, 0⟩ ⟨.burst [], false⟩ false false).wellFormed = false := by decide
theorem test_wf_upset_block : (Instr.lineRsCodeword 0 false [79, 80]).wellFormed = false := by decide
theorem test_wf_align : (Instr.amLock 0 false true 0 22282240).wellFormed = false := by decide
theorem test_wf_monitor_align : (Instr.monAmLock 0 false true 22282240 0).wellFormed = false := by decide
theorem test_wf_slot_word : (Instr.slotEnd true [(0x60000, .single)]).wellFormed = false := by decide
theorem test_wf_boot_word : (Instr.bootSlotChecked [(0x5FFFF, .single), (0x60000, .clean)]).wellFormed = false := by decide
theorem test_wf_table_word : (Instr.reload [(8192, .clean)] []).wellFormed = false := by decide
theorem test_wf_mirror_word : (Instr.d0ResetEnd [] [(8192, .clean)]).wellFormed = false := by decide
theorem test_wf_domain : (Instr.drainComplete (.region 4)).wellFormed = false := by decide
theorem test_wf_counter : (Instr.clear 1 32).wellFormed = false := by decide
theorem test_wf_address_bytes : (Instr.mgmtWrite 0x50 [0, 0, 0, 0, 0] []).wellFormed = false := by decide
theorem test_wf_fetched : (Instr.quadRead 0 0 65 4).wellFormed = false := by decide
theorem test_wf_fetched_single : (Instr.singleRead 0 0 65 4).wellFormed = false := by decide
theorem test_wf_source : (Instr.countClr 384).wellFormed = false := by decide
theorem test_wf_slot : (Instr.relocated 65536).wellFormed = false := by decide
theorem test_wf_position : (Instr.scheduleTrigger 1024).wellFormed = false := by decide
theorem test_wf_filter : (Instr.filterSlot 48).wellFormed = false := by decide
theorem test_wf_filter_config : (Instr.filtCfgWrite 48 0).wellFormed = false := by decide
theorem test_wf_page : (Instr.enginePageReadDone (List.replicate 129 0) false).wellFormed = false := by decide
theorem test_wf_transfer_data : (Instr.xferDone 0 (List.replicate 17 0)).wellFormed = false := by decide
theorem test_wf_burst_address : (Instr.memBurst (some ⟨.host, false, 8, []⟩) [] 0).wellFormed = false := by decide
theorem test_wf_bank : (Instr.refresh 128).wellFormed = false := by decide
theorem test_wf_burst_words : (Instr.memBurst none (List.replicate 9 .clean) 0).wellFormed = false := by decide
theorem test_wf_burst_data : (Instr.memBurst (some ⟨.host, true, 0, List.replicate 65 0⟩) [] 0).wellFormed = false := by decide
theorem test_wf_scrub_words : (Instr.scrubBlock (List.replicate 9 .clean) 0).wellFormed = false := by decide
theorem test_wf_stage : (Instr.stageFail 9).wellFormed = false := by decide
theorem test_wf_slice : (Instr.bistComplete [156]).wellFormed = false := by decide
theorem test_wf_rail : (Instr.railFailure 6).wellFormed = false := by decide
theorem test_wf_sensors : (Instr.thermalSample []).wellFormed = false := by decide
theorem test_wf_counter_d0 : (Instr.clear 0 63).wellFormed = true := by decide

/-! ### Witnesses: the machine -/

/-- A canonical state with a command waiting and a register written. -/
def canonState : State := { regs [(INTC.THRESH_THRESHOLD0.f, 3)] with pending := [.swSet 1] }

theorem witness_StepRunsFrontCommand : canonState.pending = .swSet 1 :: [] := by decide
theorem witness_StepKeepsCanonicalForm : canonState.Canon ∧ ∃ t, step canonState = .next t :=
  ⟨by constructor <;> decide, _, rfl⟩
theorem witness_ManufacturedPartsNeverChange : ∃ t, step canonState = .next t := ⟨_, rfl⟩
theorem witness_MramWritersOnly : (∀ ok, Instr.nop ≠ .slotBegin ok) ∧ (∀ ok, Instr.nop ≠ .slotChunk ok) ∧
    (∀ ok es, Instr.nop ≠ .slotEnd ok es) ∧ ∃ t, exec .nop s0 = .next t := ⟨by intros; nofun, by intros; nofun, by intros; nofun, _, rfl⟩

/-- Bytes of a memory, none poisoned. -/
def mbytes (bs : List Nat) : List MByte := bs.map (fun b => ⟨BitVec.ofNat 8 b, false⟩)

/-- A loader command for a key slot taken, 48 bytes staged, MRAM writing; slot 1 is not EMPTY. -/
def keyState (op slot : Nat) : State :=
  taken .loader (cmd 1 op [slot]) { regs [(THERM.THERM_STAT_MRAM_WRITE_OK.f, 1)] with
    keys := s0.keys.set 1 ⟨.valid, List.replicate 48 7⟩
    loader := { s0.loader with staging := SMap.setRun [] .unwritten 0 (mbytes (List.range 48)) } }

theorem witness_KeySlotsMoveOnlyForward :
    ((∃ t, exec (.keyRevoke true) (keyState 6 1) = .next t) ∧ (keyState 6 1).keys[3]? = some ⟨.empty, List.replicate 48 0⟩) ∧
    ((keyState 5 3).loaderHead 5 = some (cmd 1 5 [3]) ∧ cmdWord (cmd 1 5 [3]) 1 ≠ 0 ∧
      (keyState 5 3).keyState (cmdWord (cmd 1 5 [3]) 1) = .empty ∧ (keyState 5 3).stagingBad 48 = none ∧
      (keyState 5 3).mramRefused = false) ∧
    ((keyState 6 1).loaderHead 6 = some (cmd 1 6 [1]) ∧ (keyState 6 1).keyState (cmdWord (cmd 1 6 [1]) 1) = .valid ∧
      (keyState 6 1).mramRefused = false) ∧
    (keyState 5 0).loaderHead 5 = some (cmd 1 5 [0]) ∧
    ((keyState 5 1).loaderHead 5 = some (cmd 1 5 [1]) ∧ (keyState 5 1).keyState (cmdWord (cmd 1 5 [1]) 1) ≠ .empty) ∧
    ((keyState 6 0).loaderHead 6 = some (cmd 1 6 [0]) ∧ cmdWord (cmd 1 6 [0]) 1 = 0) :=
  ⟨⟨⟨_, rfl⟩, by decide⟩, by decide, by decide, by decide, by decide, by decide⟩

/-! ### Witnesses: management -/

/-- Sixty-four commands in the ring: no credit is left. -/
def ringFull : State := s0.setQueue ringId { (s0.queue ringId) with credits := 0, entries := List.replicate 64 ⟨.command [], false⟩ }

/-- A released core with one command in the ring. -/
def ringHas (ws : List Word) : State :=
  ({ s0 with loader := { s0.loader with coreEntry := some 0 } }).setQueue ringId
    { (s0.queue ringId) with credits := 63, entries := [⟨.command ws, false⟩] }

theorem witness_CommandPushSpendsCredit : (s0.d0Up = true ∧ (s0.queue ringId).credits ≠ 0) ∧
    ringFull.d0Up = true ∧ (ringFull.queue ringId).credits = 0 := by decide

theorem witness_CommandTakeChecksAndPasses :
    ((ringHas [0x70000, 0]).takeable = some [0x70000, 0] ∧ (ringHas [0x70000, 0]).takeStatus [0x70000, 0] = none ∧
      cmdOpcode [0x70000, 0] = 0) ∧
    ((ringHas [11]).takeable = some [11] ∧ (ringHas [11]).takeStatus [11] = some .badOpcode) ∧
    ((ringHas [0x101, 1]).takeable = some [0x101, 1] ∧ (ringHas [0x101, 1]).takeStatus [0x101, 1] = none ∧
      cmdOpcode [0x101, 1] = 1) ∧
    ((ringHas [8]).takeable = some [8] ∧ (ringHas [8]).takeStatus [8] = none ∧ cmdOpcode [8] = 8) := by decide

theorem witness_CoreCommandsComplete :
    ((ringHas [0]).takeable = some [0] ∧ cmdOpcode [0] = 0 ∧ (ringHas [0]).takeStatus [0] = none) ∧
    (taken .core (cmd 9 0 []) s0).headIs .core 9 0 = some (cmd 9 0 []) ∧
    ((taken .core (cmd 9 1 []) s0).headIs .core 9 1 = some (cmd 9 1 []) ∧
      (taken .core (cmd 9 1 []) (regs [(PWR.PWR_STAT_REFCLK_OK.f, 1)])).getB PWR.PWR_STAT_REFCLK_OK.f = true) ∧
    ((taken .core (cmd 9 1 []) (regs [(PWR.PWR_STAT_REFCLK_OK.f, 0)])).headIs .core 9 1 = some (cmd 9 1 []) ∧
      (taken .core (cmd 9 1 []) (regs [(PWR.PWR_STAT_REFCLK_OK.f, 0)])).getB PWR.PWR_STAT_REFCLK_OK.f = false) ∧
    s0.d0Up = true := by decide

/-- Software source 366 + `b` set, enabled, of priority 5, for target `t`. -/
def softSource (t b : Nat) : State :=
  regs [(INTC.SW_STAT_SW.f, 2 ^ b), (INTC.SRC_PRIORITY.f 0 (366 + b), 5), (INTC.SRC_ENABLE.f 0 (366 + b), 1),
    (INTC.SRC_TARGET.f 0 (366 + b), t)]

/-- Source 373 claimed. -/
def claimedState : State := { softSource 0 7 with intc := { s0.intc with claims := [(373, 5)] } }

theorem witness_InterruptClaimAndComplete :
    ((softSource 0 7).d0Up = true ∧ (softSource 0 7).bestSource 0 = some 373) ∧
    (s0.d0Up = true ∧ s0.bestSource 0 = none) ∧
    (claimedState.d0Up = true ∧ claimedState.claimed ((373#32).toNat % 512) = true) ∧
    claimedState.claimed ((372#32).toNat % 512) = false := by decide

theorem witness_InterruptDelivery :
    ((softSource 0 0).d0Up = true ∧ (softSource 0 0).bestSource 0 = some 366 ∧ (softSource 0 0).intc.irqLow = false ∧
      (softSource 0 0).mayDeliver 0 = true) ∧
    (s0.d0Up = true ∧ s0.bestSource 0 = none) ∧
    ((softSource 1 0).d0Up = true ∧ (softSource 1 0).bestSource 1 = some 366 ∧ (softSource 1 0).mayDeliver 1 = true) := by decide

theorem witness_EventCountersAndSoftwareSources :
    s0.d0Up = true ∧ 383 < 384 ∧ (s0.bankServed 0 = true ∧ 63 < bankSize 0) ∧ (s0.bankServed 2 = true ∧ 31 < bankSize 2) := by decide

/-! ### Witnesses: ports and register accesses -/

theorem witness_I3cAddressAndIdentity : (s0.d0Up = true ∧ s0.getB GLOBAL.MGMT_STAT_I3C.f = false) ∧
    (0x58#7).toNat ≠ 0x50 + s0.strap.toNat ∧
    (run (.entdaa 0x55) s0).d0Up = true ∧ (run (.entdaa 0x55) s0).getB GLOBAL.MGMT_STAT_I3C.f = true := by decide

/-- A retraining of the GDDR7 under way. -/
def retrainingState : State := regs [(MEM.MEM_STAT_RETRAINING.f, 1), (MEM.MEM_STAT_READY.f, 0)]

theorem witness_MgmtTransfers :
    ((0x51#7).toNat ≠ (if s0.getB GLOBAL.MGMT_STAT_I3C.f then s0.get GLOBAL.MGMT_STAT_DYN_ADDR.f else 0x50 + s0.strap.toNat)) ∧
    ((0x50#7).toNat = s0.busAddr ∧ s0.acknowledges = true ∧ 4 ≤ [0x08, 0x00, 0x01, 0#8].length ∧
      leNat (([0x08, 0x00, 0x01, 0#8].take 4).map (·.toNat)) % 4 = 0) ∧
    leNat (([0x09, 0x00, 0x01, 0#8].take 4).map (·.toNat)) % 4 ≠ 0 ∧
    ((0x55#7).toNat = (run (.entdaa 0x55) s0).busAddr ∧ (run (.entdaa 0x55) s0).acknowledges = true) ∧
    ((0x50#7).toNat = ({ s0 with power := { s0.power with railsUp := 0 } } : State).busAddr ∧
      ({ s0 with power := { s0.power with railsUp := 0 } } : State).acknowledges = false) := by decide

theorem witness_BulkTransfers :
    (0x10008#32).toNat % 4 = 0 ∧ (0x10009#32).toNat % 4 ≠ 0 ∧
    (s0.d0Up = true ∧ bulkWords (0#8).toNat ≤ 64 ∧
      s0.readyRun (0x10008#32).toNat (bulkWords (0#8).toNat) = bulkWords (0#8).toNat) ∧
    (bulkWords (63#8).toNat ≤ 64 ∧ s0.readyRun (0x10008#32).toNat (bulkWords (63#8).toNat) = bulkWords (63#8).toNat) ∧
    (0 < bulkWords (63#8).toNat ∧ (0x40000000#32).toNat % 4 = 0 ∧
      retrainingState.readyRun (0x40000000#32).toNat (bulkWords (0#8).toNat) ≠ bulkWords (0#8).toNat) := by decide +kernel

theorem witness_RegisterWritesAndUnassignedAddresses :
    s0.d0Up = true ∧ (0x10002#32).toNat % 4 ≠ 0 ∧
    (s0.served (0xFFC#32).toNat = true ∧ s0.isUnassigned (0xFFC#32).toNat = true ∧ s0.getB GLOBAL.G_EVT_UNMAPPED.f = false) ∧
    ((regs [(GLOBAL.G_EVT_UNMAPPED.f, 1)]).d0Up = true ∧ (regs [(GLOBAL.G_EVT_UNMAPPED.f, 1)]).served (0xFFC#32).toNat = true ∧
      (regs [(GLOBAL.G_EVT_UNMAPPED.f, 1)]).isUnassigned (0xFFC#32).toNat = true ∧
      (regs [(GLOBAL.G_EVT_UNMAPPED.f, 1)]).getB GLOBAL.G_EVT_UNMAPPED.f = true) := by decide

/-! ### Witnesses: contexts -/

/-- A lane record of a disabled lane 0 under the key of peer 5, descriptor 0, as the bytes of a memory. -/
def record : List Nat := emptyRecord 5 0 0 1 2
def recordBytes : List MByte := record.map (fun b => ⟨BitVec.ofNat 8 b, false⟩)

theorem record_ok : recordsOk record 5 0 = true := by decide +kernel
theorem recordBytes_val : recordBytes.map (·.val.toNat) = record := by decide +kernel
theorem recordBytes_length : recordBytes.length = 2048 := by decide +kernel
theorem recordBytes_clean : recordBytes.any (·.poison) = false := by decide +kernel

theorem record_run : SMap.getRun (SMap.setRun [] .unwritten 0 recordBytes) .unwritten 0 2048 = recordBytes := by
  have h := SMap.getRun_setRun recordBytes [] .unwritten 0
  rwa [recordBytes_length] at h

/-- The engine ready, GDDR7 serving, every lane trained. -/
def ctxBase : State :=
  { regs ((GLOBAL.MODE_LANE_EN.f, 255) :: (MEM.MEM_STAT_READY.f, 1) :: (List.range 8).map (fun n => (LINE.RX_STATE_TRAINED.f n, 1))) with
    ctx := { CtxSt.fresh with ready := true } }

/-- A context command for peer 5, descriptor 0, taken; the directory's stash holds `stash` and the slots `used` are taken. -/
def ctxState (opcode op : Nat) (stash : SMap DirEntry) (used : SMap Bool) : State :=
  taken .context (cmd opcode op [5, 0]) { ctxBase with ctx := { ctxBase.ctx with stash := stash, used := used } }

def held5 : DirEntry := { peer := 5, group := 0, slot := 9, valid := true, pin := false, poison := false }
def marked0 : DirEntry := { DirEntry.zero with poison := true }

/-- A directory in which an insertion of peer 5 finds no place: another key in its first bucket and in both buckets of that
key, and the stash full. -/
def dirFullState (op : Nat) : State :=
  let e : DirEntry := { held5 with peer := 6 }
  let s := ctxState 3 op ((List.range 8).map fun j => (j, { held5 with peer := 7 })) [(9, true)]
  { s with ctx := (((s.ctx.setEntry 0 (bucketOf s.seed 5 0 0) e).setEntry 1 (bucketOf s.seed 6 0 1) e).setEntry 0
      (bucketOf s.seed 6 0 0) e) }

/-- SKM-832-M0 with every one of its 256 slots taken. -/
def slotsFull (s : State) : State :=
  { s with variant := .m0, ctx := { s.ctx with used := (List.range 256).map fun j => (j, true) } }

/-- Every cache line is being filled. -/
def linesFull (s : State) : State :=
  { s with ctx := { s.ctx with lines := (List.range 256).map fun l => (l, { CacheLine.fresh with slot := 1000, st := .filling }) } }

/-- The placement engine on. -/
def placing (s : State) : State := put s [(CTX.CTX_CFG_PLACE_EN.f, 1), (CTX.CTX_CFG_PREFETCH_EN.f, 1)]

theorem ctxRuns (opcode op : Nat) (m : Bool) (s : State) (w : List Nat)
    (h : (decide (s.headIs .context opcode op = some w) && (s.ctxReady m && (descOk (cmdWord w 2 % 256) && !(m && s.memDown)))) = true) :
    CtxRuns s opcode op m w := by
  simp only [Bool.and_eq_true, decide_eq_true_eq, Bool.not_eq_true'] at h
  exact ⟨h.1, h.2.1, h.2.2.1, fun hm => by simpa [hm] using h.2.2.2⟩

theorem witness_ContextKeyLookups :
    (CtxRuns (ctxState 3 2 [] []) 3 2 false (cmd 3 2 [5, 0]) ∧ (ctxState 3 2 [] []).lookupKey 5 0 = .miss) ∧
    CtxRuns (ctxState 3 3 [] []) 3 3 false (cmd 3 3 [5, 0]) ∧ CtxRuns (ctxState 3 4 [] []) 3 4 false (cmd 3 4 [5, 0]) ∧
    CtxRuns (ctxState 4 0 [] []) 4 0 true (cmd 4 0 [5, 0]) ∧ CtxRuns (ctxState 4 2 [] []) 4 2 false (cmd 4 2 [5, 0]) ∧
    (ctxState 3 2 [(0, marked0)] []).lookupKey 5 0 = .poison ∧
    (ctxState 3 2 [(3, held5)] []).lookupKey 5 0 = .hit 2 3 held5 ∧
    ((put (ctxState 3 3 [(3, held5)] []) [(CTX.CTX_CFG_PLACE_EN.f, 0)]).placeEn = false ∧
      (placing (ctxState 3 3 [(3, held5)] [])).placeEn = true ∧ (placing (ctxState 3 3 [(3, held5)] [])).holds 9 = false ∧
      (placing (ctxState 3 3 [(3, held5)] [])).victim = some 0 ∧
      CtxRuns (placing (ctxState 3 3 [(3, held5)] [])) 3 3 false (cmd 3 3 [5, 0])) ∧
    ((linesFull (placing (ctxState 3 3 [(3, held5)] []))).victim = none ∧
      (linesFull (placing (ctxState 3 3 [(3, held5)] []))).holds 9 = false) ∧
    ((ctxState 3 2 [(3, held5)] []).fetching 9 = false ∧
      ∀ p ∈ (ctxState 3 2 [(3, held5)] []).ctx.lines, p.2.slot = 9 → p.2.st ≠ .inUse) := by
  refine ⟨⟨ctxRuns _ _ _ _ _ (by decide), by decide⟩, ctxRuns _ _ _ _ _ (by decide), ctxRuns _ _ _ _ _ (by decide),
    ctxRuns _ _ _ _ _ (by decide), ctxRuns _ _ _ _ _ (by decide), by decide, by decide,
    ⟨by decide, by decide, by decide, by decide, ctxRuns _ _ _ _ _ (by decide)⟩, ⟨by decide +kernel, by decide +kernel⟩, by decide⟩

/-- The context buffer holds the record. -/
def bufferHas (bs : List MByte) (s : State) : State := { s with ctx := { s.ctx with buf := SMap.setRun [] .unwritten 0 bs } }

theorem bufferHas_run (bs : List MByte) (s : State) :
    (bufferHas bs s).ctx.buf.getRun .unwritten 0 bs.length = bs := SMap.getRun_setRun bs [] .unwritten 0

theorem witness_ContextStoresTakeASlot :
    (CtxRuns (bufferHas recordBytes (ctxState 3 0 [] [])) 3 0 true (cmd 3 0 [5, 0]) ∧
      recordBytes.any (·.poison) = false ∧ recordsOk (recordBytes.map (·.val.toNat)) 5 0 = true) ∧
    ((ctxState 3 0 [] [(0, true)]).lookupKey 5 0 = .miss ∧ (ctxState 3 0 [] [(0, true)]).freeSlot = some 1 ∧
      ∃ k, (ctxState 3 0 [] [(0, true)]).ctx.insert 0 65536 { held5 with slot := 1 } = .ok k) ∧
    ((ctxState 3 0 [(3, held5)] [(9, true)]).lookupKey 5 0 = .hit 2 3 held5 ∧
      (ctxState 3 0 [(3, held5)] [(9, true)]).freeSlot = some 0) ∧
    ((slotsFull (ctxState 3 0 [(3, held5)] [])).lookupKey 5 0 = .hit 2 3 held5 ∧
      (slotsFull (ctxState 3 0 [(3, held5)] [])).freeSlot = none ∧
      (slotsFull (ctxState 3 0 [(3, held5)] [])).fetching 9 = false) ∧
    (CtxRuns (slotsFull (ctxState 3 1 [(3, held5)] [])) 3 1 true (cmd 3 1 [5, 0]) ∧
      (slotsFull (ctxState 3 1 [(3, held5)] [])).liveStop 0 = none) ∧
    ((dirFullState 0).lookupKey 5 0 = .miss ∧ (dirFullState 0).freeSlot = some 0 ∧
      (dirFullState 0).ctx.insert 0 65536 { held5 with slot := 0 } = .dirFull) ∧
    (ctxState 3 0 [(0, marked0)] []).lookupKey 5 0 = .poison ∧
    ((slotsFull (ctxState 3 0 [] [])).lookupKey 5 0 = .miss ∧ (slotsFull (ctxState 3 0 [] [])).freeSlot = none) ∧
    (CtxRuns (ctxState 3 1 [] []) 3 1 true (cmd 3 1 [5, 0]) ∧ (ctxState 3 1 [] []).liveStop 0 = none) ∧
    (put (ctxState 3 1 [] []) [(LINE.RX_STATE_TRAINED.f 0, 0)]).liveStop 0 = some .notTrained ∧
    ((List.replicate 2048 MByte.zero).any (·.poison) = false ∧
      recordsOk ((List.replicate 2048 MByte.zero).map (·.val.toNat)) 5 0 = false) ∧
    (List.replicate 2048 MByte.unwritten).any (·.poison) = true := by
  refine ⟨⟨ctxRuns _ _ _ _ _ (by decide +kernel), recordBytes_clean, by rw [recordBytes_val]; exact record_ok⟩,
    ⟨by decide, by decide, _, rfl⟩, by decide, by decide +kernel,
    ⟨ctxRuns _ _ _ _ _ (by decide +kernel), by decide +kernel⟩, by decide +kernel, by decide, by decide +kernel,
    ⟨ctxRuns _ _ _ _ _ (by decide), by decide⟩, by decide, by decide +kernel, by decide +kernel⟩

/-- SKM-832-M0 with the record in slot 0. -/
def smallState : State :=
  { ctxState 4 0 [(3, { held5 with slot := 0 })] [] with
    variant := .m0
    ctx := { (ctxState 4 0 [(3, { held5 with slot := 0 })] []).ctx with lineMem := SMap.setRun [] .unwritten 0 recordBytes } }

theorem witness_ContextReadsFillTheBuffer :
    (CtxRuns (ctxState 4 0 [(3, held5)] []) 4 0 true (cmd 4 0 [5, 0]) ∧
      (ctxState 4 0 [(3, held5)] []).lookupKey 5 0 = .hit 2 3 held5 ∧ (ctxState 4 0 [(3, held5)] []).ctx.cmdBad = false) ∧
    (((ctxState 4 0 [(3, held5)] []).looked.readSlot 9 3 2048 []).2.any (·.poison) = true) ∧
    ((smallState.looked.readSlot 0 3 2048 []).2.any (·.poison) = false ∧
      smallState.lookupKey 5 0 = .hit 2 3 { held5 with slot := 0 } ∧ smallState.ctx.cmdBad = false) ∧
    (CtxRuns (ctxState 4 1 [] []) 4 1 false (cmd 4 1 [5, 0]) ∧ (ctxState 4 1 [] []).liveStop 0 = none) ∧
    (put (ctxState 4 1 [] []) [(LINE.RX_STATE_TRAINED.f 0, 0)]).liveStop 0 = some .notTrained ∧
    (CtxRuns (ctxState 3 6 [] []) 3 6 false (cmd 3 6 [5, 0]) ∧ (ctxState 3 6 [] []).fetching 9 = false ∧
      ∀ p ∈ (ctxState 3 6 [] []).ctx.lines, p.2.slot = 9 → p.2.st ≠ .inUse) := by
  refine ⟨⟨ctxRuns _ _ _ _ _ (by decide), by decide, by decide⟩, by decide +kernel, ⟨?_, by decide, by decide⟩, ⟨ctxRuns _ _ _ _ _ (by decide), by decide⟩,
    by decide, ⟨ctxRuns _ _ _ _ _ (by decide), by decide, by decide⟩⟩
  have k : smallState.looked.ctx = smallState.ctx := (State.looked_keeps smallState).same .ctx (by decide)
  have e : smallState.ctx.lineMem = SMap.setRun [] .unwritten 0 recordBytes := by simp only [smallState]
  unfold State.readSlot
  rw [if_neg (by decide), k, e]
  simp only [Nat.mul_zero, record_run, recordBytes_clean]

theorem witness_ApplyNowStartsAnApply :
    (CtxRuns (ctxState 3 5 [(3, held5)] []) 3 5 false (cmd 3 5 [5, 0]) ∧ (ctxState 3 5 [(3, held5)] []).ctx.applies = [] ∧
      (ctxState 3 5 [(3, held5)] []).isGroup 0 = true ∧ (ctxState 3 5 [(3, held5)] []).skippedGroup 0 = false ∧
      (∀ n ∈ descLanes 0, (ctxState 3 5 [(3, held5)] []).dieUp (n / 4) = true) ∧
      (ctxState 3 5 [(3, held5)] []).lookupKey 5 0 = .hit 2 3 held5) ∧
    (CtxRuns (taken .context (cmd 3 5 [5, 8]) ctxBase) 3 5 false (cmd 3 5 [5, 8]) ∧
      (taken .context (cmd 3 5 [5, 8]) ctxBase).isGroup 8 = false) :=
  ⟨⟨ctxRuns _ _ _ _ _ (by decide), by decide, by decide, by decide, by decide, by decide⟩,
    ctxRuns _ _ _ _ _ (by decide), by decide⟩

/-- An apply of peer 5 on lane 0 in phase `p`, reading cache line 0, which holds the record. -/
def applyOf (p : ApplyPhase) : Apply :=
  { peer := 5, desc := 0, slot := 9, line := some 0, unsched := false, cmd := none, phase := p, left := [0], stamped := false,
    skipped := false, bad := [], seen := [], corrected := false, trig := 0, stale := false, repeated := false, waitSwap := false }
def applyState (x : Apply) : State :=
  { put ctxBase [(LINE.RX_STATE_STATE.f 0, 11)] with ctx := { ctxBase.ctx with applies := [x], lineMem := SMap.setRun [] .unwritten 0 recordBytes } }

/-- The words of a record in the slots of D3 from word `i` on. -/
def recordWord (i : Nat) (b : List Nat) : SMap D3Word :=
  match b with
  | p :: q :: r :: t :: u :: v :: w :: x :: rest => (i, ⟨leNat [p, q, r, t, u, v, w, x], false, true, .clean⟩) :: recordWord (i + 1) rest
  | _ => []

/-- The record in slot 9 of D3, one of its words with a single error. -/
def slot9 (s : State) : State :=
  { s with mem := { s.mem with d3 := recordWord (9 * 2048) record } }
def slot9Corrected (s : State) : State :=
  { s with mem := { s.mem with d3 := (recordWord (9 * 2048) record).map (fun p => (p.1, if p.1 = 9 * 2048 then { p.2 with err := .single } else p.2)) } }

/-- An apply reading slot 9 from GDDR7. -/
def readingD3 : Apply := { applyOf .reading with line := none }
def d3State : State := slot9Corrected (placing (applyState readingD3))

/-- An identification of group 0 with its lane in IDWAIT. -/
def identState (applying : Bool) : State :=
  { put ctxBase [(LINE.RX_STATE_STATE.f 0, 11)] with ctx := { ctxBase.ctx with idents := [(0, ⟨3, applying⟩)] } }

theorem witness_ApplyPhasesAndIdentificationTimeout :
    ((applyState (applyOf .reading)).activeApply 0 = some (applyOf .reading) ∧
      (applyState (applyOf .reading)).mayRead (applyOf .reading) = true ∧ (applyOf .reading).bad = [] ∧
      ((applyState (applyOf .reading)).readRecords (applyOf .reading)).2.any (·.poison) = false ∧
      recordsOk (((applyState (applyOf .reading)).readRecords (applyOf .reading)).2.map (·.val.toNat)) 5 0 = true) ∧
    ((applyState (applyOf .transfer)).activeApply 0 = some (applyOf .transfer) ∧ (applyOf .transfer).phase = .transfer ∧
      (applyOf .transfer).waitSwap = false ∧ (applyOf .transfer).left ≠ []) ∧
    ((applyState { applyOf .taking with left := [0, 1] }).findApply (fun y => decide (y.phase = .taking) && y.left.contains 0) =
        some { applyOf .taking with left := [0, 1] } ∧ (applyState { applyOf .taking with left := [0, 1] }).skippedLane 0 = false ∧
      ((applyState { applyOf .taking with left := [0, 1] }).lane 0).restartDue = none ∧ [0, 1].erase 0 ≠ [] ∧
      (applyState { applyOf .taking with left := [0, 1] }).ctx.applies = [{ applyOf .taking with left := [0, 1] }]) ∧
    ((identState false).ident 0 = some ⟨3, false⟩ ∧ (identState false).waiting 0 = true) ∧
    ((put (identState false) [(LINE.RX_STATE_STATE.f 0, 1)]).ident 0 = some ⟨3, false⟩ ∧
      (put (identState false) [(LINE.RX_STATE_STATE.f 0, 1)]).waiting 0 = false) ∧
    s0.ident 0 = none ∧ (identState true).ident 0 = some ⟨3, true⟩ := by
  have e : ((applyState (applyOf .reading)).readRecords (applyOf .reading)).2 = recordBytes := by
    have e : (applyState (applyOf .reading)).ctx.lineMem = SMap.setRun [] .unwritten 0 recordBytes := by simp only [applyState]
    unfold State.readRecords State.readLine
    simp only [applyOf, Nat.mul_zero] at e ⊢
    rw [e]
    exact record_run
  rw [e, recordBytes_val]
  exact ⟨⟨by decide +kernel, by decide +kernel, by decide, recordBytes_clean, record_ok⟩, by decide +kernel, by decide +kernel,
    by decide, by decide, by decide, by decide⟩

/-- A slot in GDDR7 with a corrected word is read, and its rewrite is noted. -/
theorem witness_ApplyPhases_corrected :
    d3State.activeApply 0 = some readingD3 ∧ d3State.mayRead readingD3 = true ∧ d3State.placeEn = true ∧
      d3State.slotFixed 9 2048 = true ∧ (d3State.readRecords readingD3).2.any (·.poison) = false ∧
      recordsOk ((d3State.readRecords readingD3).2.map (·.val.toNat)) 5 0 = true := by
  decide +kernel

/-- Lanes 0 and 1 joined, an unstamped apply of their group under way and another one behind it. -/
def joinedState : State :=
  { put ctxBase [(CTX.GROUP_CFG_J2.f, 1)] with
    ctx := { ctxBase.ctx with applies := [{ applyOf .reading with desc := 8 }, { applyOf .queued with desc := 8 }] } }

theorem witness_GroupingAndHashSeed :
    (s0.d0Up = true ∧ groupCfgOk ((3#32).toNat % 128) = true ∧ (s0.setGroups ((3#32).toNat % 128)).mixedParking = false ∧
      s0.ctx.applies = [] ∧ s0.ctx.idents = []) ∧
    (joinedState.d0Up = true ∧ groupCfgOk ((0#32).toNat % 128) = true ∧ joinedState.isGroup 8 = true ∧
      (joinedState.setGroups ((0#32).toNat % 128)).mixedParking = false ∧ joinedState.ctx.idents = [] ∧
      (joinedState.setGroups ((0#32).toNat % 128)).isGroup 8 = false) ∧
    groupCfgOk ((16#32).toNat % 128) = false ∧
    ((regs [(PWR.PWR_STAT_PARKED.f, 1)]).setGroups ((1#32).toNat % 128)).mixedParking = true ∧
    s0.ctx.entries = 0 ∧ (ctxState 3 2 [(3, held5)] []).ctx.entries ≠ 0 := by decide

/-! ### Witnesses: placement and FILL -/

/-- Bytes of a schedule entry: whole seconds, action code, enable, EPOCH tag, group, operand. -/
def entry (sec action epoch group op : Nat) (enable : Bool) : List Nat :=
  leBytes 6 sec ++ [0, 0, 0, 0, action + 8 * natOf enable + 16 * epoch, group] ++ leBytes 4 op

/-- Position 3 holds an entry in state `st`. -/
def position (st : Nat) (b : List Nat) (s : State) : State :=
  s.setPos 3 { st := st, reason := 0, bytes := b, poison := false }

/-- An APPLY_CONTEXT entry of peer 5 in the stash for the prefetch. -/
def prefetchState : State := position 1 (entry 0 1 0 0 5 true) (placing (ctxState 3 3 [(3, held5)] [(9, true)]))

/-- Cache line 0 being filled from slot 9 of the stored key, found bad or not. -/
def fillState (bad : Bool) : State :=
  slot9 { ctxBase with
    ctx := { ctxBase.ctx with stash := [(3, held5)], lines := [(0, { CacheLine.fresh with slot := 9, st := .filling, bad := bad })] } }

/-- A slot whose last fetch needed a correction. -/
def relocState : State :=
  let s := placing (ctxState 3 3 [(3, held5)] [(9, true)])
  { s with ctx := { s.ctx with reloc := [(9, 5, 0)] } }

theorem witness_PlacementAndFills :
    (prefetchState.placeEn = true ∧ prefetchState.getB CTX.CTX_CFG_PREFETCH_EN.f = true ∧ prefetchState.d0Up = true ∧
      prefetchState.throttled = false ∧ prefetchState.prefetchable = [3] ∧
      prefetchState.lookupKey (entryOperand (prefetchState.pos 3).bytes) (entryGroup (prefetchState.pos 3).bytes) = .hit 2 3 held5 ∧
      prefetchState.holds 9 = false ∧ prefetchState.victim = some 0) ∧
    (((fillState false).line 0).st = .filling ∧ (fillState false).memServes = true ∧ (fillState false).ctx.freeLater = [] ∧
      ((fillState false).line 0).bad = false ∧ (fillState false).ctx.keyOf 9 = some (5, 0)) ∧
    ((fillState true).line 0).bad = true ∧
    (relocState.ctx.reloc.find? (fun r => decide (r.1 = 9)) = some (9, 5, 0) ∧ relocState.placeEn = true ∧
      relocState.memServes = true ∧ relocState.lookupKey 5 0 = .hit 2 3 held5 ∧ relocState.freeSlot = some 0) := by
  decide +kernel

/-- Every slot of D3 taken. -/
def fullRelocState : State :=
  { relocState with ctx := { relocState.ctx with used := (List.range' 0 65536).map fun j => (j, true) } }

theorem lowestGap_full (n k : Nat) : lowestGap ((List.range' k n).map fun j => (j, true)) k = k + n := by
  induction n generalizing k with
  | zero => rfl
  | succ n ih => simp [List.range'_succ, lowestGap, ih]; omega

theorem witness_PlacementAndFills_inPlace :
    (fullRelocState.ctx.reloc.find? (fun r => decide (r.1 = 9)) = some (9, 5, 0) ∧ fullRelocState.placeEn = true ∧
      fullRelocState.memServes = true ∧ fullRelocState.lookupKey 5 0 = .hit 2 3 held5 ∧ fullRelocState.fetching 9 = false) ∧
    fullRelocState.freeSlot = none := by
  refine ⟨⟨by decide, by decide, by decide, by decide, by decide⟩, ?_⟩
  have u : fullRelocState.ctx.used = (List.range' 0 65536).map fun j => (j, true) := by simp only [fullRelocState]
  have c : fullRelocState.slotCount = 65536 := by decide
  unfold State.freeSlot
  simp only [u, c, lowestGap_full]
  rfl

/-- The record's lines pass in the fill. -/
theorem witness_PlacementAndFills_record :
    let r := ((fillState false).readSlot 9 4 16384 ((fillState false).line 0).seen).2
    descOk 0 = true ∧ (r.take (2048 * descSize 0)).any (·.poison) = false ∧ recordsOk (r.map (·.val.toNat)) 5 0 = true := by
  decide +kernel

/-- A FILL taken; a FILL of the staging buffer with the loader busy; a FILL of the buffer while a command uses it. -/
def fillCmd (a : Nat) (s : State) : State := taken .memory (cmd 2 0 [a, 64]) s

theorem witness_FillWritesZeros :
    ((fillCmd 0xE8000 s0).headIs .memory 2 0 = some (cmd 2 0 [0xE8000, 64]) ∧ fillRangeOk 0xE8000 64 = true ∧
      (fillCmd 0xE8000 s0).getB LOADER.STATUS_BUSY.f = false) ∧
    (fillCmd 0xE8000 (regs [(LOADER.STATUS_BUSY.f, 1)])).getB LOADER.STATUS_BUSY.f = true ∧ fillRangeOk 0xEFFC0 64 = true ∧
    (fillRangeOk 0x37FC0 64 = true ∧ (fillCmd 0x37FC0 s0).bufferHeld = false) ∧
    (fillCmd 0x37FC0 (ctxState 4 1 [] [])).bufferHeld = true ∧
    (fillRangeOk 0x80000000 64 = true ∧ ({ fillCmd 0x80000000 s0 with variant := .m0 } : State).hasD3 = false) ∧
    ((fillCmd 0x9FFFFFC0 ctxBase).memServes = true ∧ (fillCmd 0x9FFFFFC0 ctxBase).memDown = false ∧
      (fillCmd 0x9FFFFFC0 ctxBase).mem.failed = false ∧ fillRangeOk 0x9FFFFFC0 64 = true) := by decide +kernel

/-! ### Witnesses: schedule, trigger lines and captures -/

/-- A schedule command taken with an entry in SCHED_BUF. -/
def schedState (op arg : Nat) (b : List Nat) (s : State) : State :=
  taken .schedule (cmd 5 op [arg]) (put s ((List.range 4).map fun i => (TIME.SCHED_BUF_ENTRY.f 0 i, leNat (span b (4 * i) (4 * i + 3)))))

/-- The table full of PENDING entries. -/
def tableFull (s : State) : State :=
  { s with sched := { s.sched with pos := (List.range 4096).map fun p => (p, ⟨1, 0, entry 9 2 0 0 0 true, false⟩) } }

theorem witness_ScheduleCommands :
    ((schedState 5 0 [] s0).headIs .schedule 5 0 = none ∧ (schedState 0 9 [] s0).headIs .schedule 5 0 = some (cmd 5 0 [9]) ∧
      Machine.entryOk (schedState 0 9 [] s0).schedBuf = false) ∧
    (Machine.entryOk (schedState 0 9 (entry 1 5 0 0 1 true) s0).schedBuf = true ∧
      (schedState 0 9 (entry 1 5 0 0 1 true) s0).addPos 9 = some 9 ∧ (schedState 0 0xFFFF (entry 1 5 0 0 1 true) s0).addPos 0xFFFF = some 0 ∧
      (schedState 0 9 (entry 1 5 0 0 1 true) s0).now + dueUnits ≤ entryTime (schedState 0 9 (entry 1 5 0 0 1 true) s0).schedBuf ∧
      (schedState 0 9 (entry 1 5 0 0 1 true) s0).due 9 = false) ∧
    entryTime (schedState 0 9 (entry 0 5 0 0 1 true) s0).schedBuf < (schedState 0 9 (entry 0 5 0 0 1 true) s0).now + dueUnits ∧
    (schedState 0 3 (entry 1 5 0 0 1 true) (position 1 (entry 0 2 0 0 0 true) s0)).due 3 = true ∧
    ((schedState 1 3 [] s0).headIs .schedule 5 1 = some (cmd 5 1 [3]) ∧ (schedState 1 3 [] s0).due 3 = false) ∧
    (schedState 2 3 [] s0).headIs .schedule 5 2 = some (cmd 5 2 [3]) ∧
    ((schedState 2 3 [] s0).pos 3).st = 0 ∧ ((schedState 2 3 [] (position 2 (entry 0 2 0 0 0 true) s0)).pos 3).st ≠ 0 ∧
    ((schedState 3 0 [] s0).headIs .schedule 5 3 = some (cmd 5 3 [0]) ∧ SMap.rising (schedState 3 0 [] s0).sched.pos = true) := by
  decide

/-- No position is EMPTY in a table without one. -/
theorem witness_ScheduleCommands_full : (tableFull (schedState 0 0xFFFF (entry 1 5 0 0 1 true) s0)).addPos 0xFFFF = none := by
  simp only [State.addPos, if_true, List.find?_eq_none, List.mem_range, decide_eq_true_eq]
  intro p hp
  have get (n k : Nat) (x : SchedPos) (h : k < n) : ∀ i, SMap.get ((List.range' i n).map fun p => (p, x)) SchedPos.empty (i + k) = x := by
    induction n generalizing k with
    | zero => exact absurd h (Nat.not_lt_zero k)
    | succ n ih =>
      intro i
      simp only [List.range'_succ, List.map_cons, SMap.get]
      cases k with
      | zero => simp
      | succ k =>
        rw [if_neg (by omega), show i + (k + 1) = i + 1 + k by omega]
        exact ih k (Nat.lt_of_succ_lt_succ h) (i + 1)
  have e : (tableFull (schedState 0 0xFFFF (entry 1 5 0 0 1 true) s0)).sched.pos =
      (List.range 4096).map fun p => (p, ⟨1, 0, entry 9 2 0 0 0 true, false⟩) := by simp only [tableFull]
  have h := get 4096 p ⟨1, 0, entry 9 2 0 0 0 true, false⟩ hp 0
  rw [Nat.zero_add] at h
  rw [State.pos, e, List.range_eq_range', h]
  decide

theorem witness_ScheduleTriggersOnTime :
    ((position 1 (entry 0 2 0 0 0 true) s0).nextDue = some 3 ∧ (position 1 (entry 0 2 0 0 0 true) s0).cclkRuns = true) ∧
    ((position 1 (entry 0 2 0 0 0 false) s0).mayTrigger 3 = true ∧ ((position 1 (entry 0 2 0 0 0 false) s0).pos 3).poison = false ∧
      entryEnable (entry 0 2 0 0 0 false) = false) ∧
    ((position 1 (entry 0 2 1 0 0 true) s0).mayTrigger 3 = true ∧ entryEpoch (entry 0 2 1 0 0 true) ≠ 0) ∧
    ((position 1 (entry 0 2 0 0 0 true) (regs [(PWR.PWR_STAT_GATED.f, 1)])).mayTrigger 3 = true ∧
      (position 1 (entry 0 2 0 0 0 true) (regs [(PWR.PWR_STAT_GATED.f, 1)])).regionBlocks (entry 0 2 0 0 0 true) = true) ∧
    ((position 1 (entry 0 2 0 7 0 true) s0).regionBlocks (entry 0 2 0 7 0 true) = false ∧ entryAction (entry 0 2 0 7 0 true) = 2 ∧
      (∀ n ∈ descLanes 7, (position 1 (entry 0 2 0 7 0 true) s0).laneServed n = true)) ∧
    (entryAction (entry 0 5 0 0 9 true) = 5 ∧ bitAt (entryOperand (entry 0 5 0 0 9 true)) 3 = true) := by decide

/-- Trigger line 2 with mode `m` and width `w`; the line armed for its START. -/
def trigState (m w : Nat) : State := regs [(TIME.TRIG_CTL_MODE.f 0 2, m), (TIME.TRIG_WIDTH.f 0 2, w), (TIME.TRIG_PERIOD_NS.f 0 2, 100)]
def armedState : State := s0.setTrig 2 { TrigLine.fresh with mode := 1 }

theorem witness_TriggerLines :
    ((trigState 2 7).d0Up = true ∧ (trigState 2 7).get (TIME.TRIG_CTL_MODE.f 0 2) = 2 ∧ (trigState 2 7).armRefused 2 = true) ∧
    ((trigState 2 8).armRefused 2 = false ∧ (trigState 0 7).get (TIME.TRIG_CTL_MODE.f 0 2) = 0) ∧
    (armedState.cclkRuns = true ∧ (armedState.trigLine 2).armed = true ∧
      (armedState.trigLine 2).instant (armedState.trigLine 2).next ≤ armedState.now) := by decide

/-- A CAPTURE of lane 1 of two cycles at the decoder output to `dest`, and the capture it starts. -/
def capCmd (dest : Nat) : List Nat := cmd 6 0 [1 + 3 * 16 + dest * 256 + 5 * 2 ^ 16, 2 * 2 ^ 16 + 1]
def capState (dest : Nat) : State := taken (.capture 0) (capCmd dest) ctxBase
def capOf (dest : Nat) (ended : Bool) : CaptureSt :=
  { captureOf (capCmd dest) 0 0 with ended := ended, words := [⟨4, 0, false, List.replicate 40 7⟩] }
def capUnder (dest : Nat) (ended : Bool) : State :=
  (capState dest).setDie 0 { (capState dest).die 0 with capture := some (capOf dest ended) }

/-- The trigger event has not come. -/
def capWaits : State :=
  (capState 0).setDie 0 { (capState 0).die 0 with capture := some { capOf 0 false with event := none } }

theorem witness_CapturesRunOnTheirDie :
    ((capState 0).headOf (.capture 0) = some (capCmd 0) ∧ ((capState 0).die 0).capture = none ∧
      (capState 0).captureStop 1 0 = none) ∧ ({ capState 0 with variant := .m0 } : State).captureStop 1 0 = some .noMemory ∧
    (((capUnder 0 false).die 0).capture = some (capOf 0 false) ∧ (capOf 0 false).ended = false ∧
      (capOf 0 false).event = some 0 ∧ (capOf 0 false).timeout ≠ 0 ∧ (capOf 0 false).full = false) ∧
    ((capWaits.die 0).capture = some { capOf 0 false with event := none } ∧ ({ capOf 0 false with event := none } : CaptureSt).ended = false ∧
      ({ capOf 0 false with event := none } : CaptureSt).timeout ≠ 0) ∧
    (((capUnder 0 true).die 0).capture = some (capOf 0 true) ∧ (capOf 0 true).full = true ∧ (capOf 0 true).dest = 0 ∧
      (capUnder 0 true).drainWaits (capOf 0 true) = false ∧ (capUnder 0 true).throttled = false ∧ (capUnder 0 true).mem.failed = false ∧
      (capUnder 0 true).headOf (.capture 0) = some (capCmd 0)) ∧
    (put (capUnder 0 true) [(MEM.MEM_STAT_READY.f, 0)]).drainWaits (capOf 0 true) = true ∧
    (((capUnder 1 true).die 0).capture = some (capOf 1 true) ∧ (capOf 1 true).dest ≠ 0 ∧ (capOf 1 true).full = true ∧
      (capUnder 1 true).drainWaits (capOf 1 true) = false ∧ (capUnder 1 true).headOf (.capture 0) = some (capCmd 1)) := by decide

/-! ### Witnesses: time -/

/-- CCLK runs under source `src` in role `role`. -/
def timeState (src role : Nat) (t : TimeSt) : State :=
  { regs [(TIME.TIME_CFG_SRC.f, src), (TIME.TIME_CFG_SUMAC_ROLE.f, role), (TIME.TIME_STAT_SUMAC_DRIVING.f, role / 2)] with
    time := { t with src := src } }

theorem witness_TimeStepsAtSegmentBoundaries :
    ((taken .time (cmd 10 0 []) s0).time.waiting = false ∧ (taken .time (cmd 10 0 []) s0).headIs .time 10 0 = some (cmd 10 0 []) ∧
      (taken .time (cmd 10 0 []) s0).getB TIME.TIME_STAT_STEP_PENDING.f = false) ∧
    (taken .time (cmd 10 0 []) (regs [(TIME.TIME_STAT_STEP_PENDING.f, 1)])).getB TIME.TIME_STAT_STEP_PENDING.f = true ∧
    (taken .time (cmd 10 1 []) s0).headIs .time 10 1 = some (cmd 10 1 []) ∧
    (s0.cclkRuns = true ∧ s0.get TIME.TIME_CFG_SRC.f = s0.time.src ∧ s0.time.step = none ∧ s0.time.waiting = false) ∧
    ((run .set (taken .time (cmd 10 1 []) s0)).time.step = some .load ∧ (run .set (taken .time (cmd 10 1 []) s0)).time.waiting = true ∧
      (run .set (taken .time (cmd 10 1 []) s0)).headOf .time = some (cmd 10 1 [])) := by decide

/-- The source was last heard at tick 0; three used edges without a message. -/
def goneState (src tick : Nat) : State :=
  put (timeState src (src / 2) { TimeSt.fresh with tick := tick, heard := 0 }) [(TIME.TIME_STAT_HOLDOVER.f, 0)]
def unreadState : State :=
  put (timeState 1 0 { TimeSt.fresh with tick := 5000000000, heard := 5000000000, firstEdge := false
                                         edges := [⟨3300000000, 3, 3, false⟩, ⟨1640000000, 2, 2, false⟩, ⟨0, 1, 1, false⟩] })
    [(TIME.TIME_STAT_HOLDOVER.f, 0)]

theorem witness_TimeSourcesAndTheirLoss :
    s0.d0Up = true ∧
    ((timeState 0 2 .fresh).get TIME.TIME_CFG_SUMAC_ROLE.f = 2 ∧ (timeState 0 2 .fresh).getB TIME.TIME_STAT_SUMAC_DRIVING.f = true ∧
      (timeState 0 2 .fresh).d0Up = true ∧ (timeState 0 2 .fresh).cclkRuns = true) ∧
    ((goneState 1 1826171875).cclkRuns = true ∧ (goneState 1 1826171875).getB TIME.TIME_STAT_HOLDOVER.f = false ∧
      (goneState 1 1826171875).actingSrc = 1 ∧
      1100000000 * 425 ≤ ((goneState 1 1826171875).time.tick - (goneState 1 1826171875).time.heard) * 256) ∧
    (unreadState.cclkRuns = true ∧ unreadState.getB TIME.TIME_STAT_HOLDOVER.f = false ∧ unreadState.actingSrc = 1 ∧
      unreadState.edgesUnread = true) ∧
    ((goneState 2 4980469).actingSrc = 2 ∧
      3000000 * 425 ≤ ((goneState 2 4980469).time.tick - (goneState 2 4980469).time.heard) * 256) ∧
    (goneState 1 1826171874).sourceGone = false ∧ (goneState 2 4980468).sourceGone = false := by decide +kernel

/-- A used edge at tick 100; the tick is 180 ms later. -/
def edgeState : State :=
  timeState 1 0 { TimeSt.fresh with tick := 300000000, firstEdge := false, edges := [⟨100, 20 * secUnits, 7, false⟩] }

/-- A time-of-day message of second 9, and one with a wrong byte. -/
def todBody (first : Byte) : List Byte :=
  let b : List Nat := [0xA5, 1, 0, 0, 0, 0, 0, 9, 1]
  first :: (b.drop 1 ++ beBytes 2 (crc16 b)).map (BitVec.ofNat 8)

/-- A Sumac payload of a master whose time is set. -/
def sumacBody : List Byte :=
  let b := beBytes 10 1
  (b ++ beBytes 2 (crc16 b)).map (BitVec.ofNat 8)

def slaveState : State := timeState 2 1 { TimeSt.fresh with tick := 20000 }

/-- An edge of which the local time lies 1 s and `d` after that of the last used one. -/
structure EdgeCase where
  s : State
  e : PpsEdge
def nextEdge (d : Int) : EdgeCase :=
  let t := { TimeSt.fresh with tick := 300000000, firstEdge := false }
  let s := timeState 1 0 t
  let e : PpsEdge := ⟨100, 0, s.now - s.time.stepSum - secUnits - d, false⟩
  ⟨timeState 1 0 { t with edges := [e] }, e⟩
def EdgeCase.meets (x : EdgeCase) : Prop :=
  x.s.cclkRuns = true ∧ x.s.actingSrc = 1 ∧ true ≠ x.s.getB TIME.TIME_CFG_PPS_POL.f ∧ x.s.time.firstEdge = false ∧ x.s.time.edges = [x.e]
def EdgeCase.inside (x : EdgeCase) : Prop :=
  x.meets ∧ (secUnits : Int) - (100000 * nsUnits : Nat) ≤ x.s.now - x.s.time.stepSum - x.e.locl ∧
    x.s.now - x.s.time.stepSum - x.e.locl ≤ (secUnits : Int) + (100000 * nsUnits : Nat)
def EdgeCase.outside (x : EdgeCase) : Prop :=
  x.meets ∧ (x.s.now - x.s.time.stepSum - x.e.locl < (secUnits : Int) - (100000 * nsUnits : Nat) ∨
    (secUnits : Int) + (100000 * nsUnits : Nat) < x.s.now - x.s.time.stepSum - x.e.locl)

theorem witness_TimeMeasurements :
    ((timeState 1 0 .fresh).cclkRuns = true ∧ (timeState 1 0 .fresh).actingSrc = 1 ∧
      (true ≠ (timeState 1 0 .fresh).getB TIME.TIME_CFG_PPS_POL.f) ∧ (timeState 1 0 .fresh).time.firstEdge = true) ∧
    (nextEdge 0).inside ∧ (nextEdge (100000 * nsUnits)).inside ∧ (nextEdge (-(100000 * nsUnits : Nat))).inside ∧
    (nextEdge (100000 * nsUnits + 1)).outside ∧ (nextEdge (-(100000 * nsUnits + 1 : Nat))).outside ∧
    (s0.actingSrc ≠ 1 ∧ false = s0.getB TIME.TIME_CFG_PPS_POL.f) ∧
    (edgeState.cclkRuns = true ∧ edgeState.actingSrc = 1 ∧ todSec ((todBody 0).map (·.toNat)) = none) ∧
    (todSec ((todBody 0xA5).map (·.toNat)) = some 9 ∧
      edgeState.time.edges.find? (fun e => beganAfter edgeState.time.tick e.tick) = some ⟨100, 20 * secUnits, 7, false⟩ ∧
      edgeState.time.tick - 100 ≤ 990000000 * 425 / 256) ∧
    ((put edgeState [(TIME.TIME_STAT_TIME_SET.f, 1)]).getB TIME.TIME_STAT_TIME_SET.f = true ∧
      edgeState.jumpLimit < ((20 * secUnits : Nat) : Int) - (timeOf 9 0 0 : Nat)) ∧
    (slaveState.cclkRuns = true ∧ slaveState.get TIME.TIME_CFG_SUMAC_ROLE.f = 1 ∧ slaveState.actingSrc = 2 ∧
      (sumacBody.map (·.toNat)).length = 12 ∧
      crc16 ((sumacBody.map (·.toNat)).take 10) = beNat (span (sumacBody.map (·.toNat)) 10 11) ∧
      bitAt (beNat ((sumacBody.map (·.toNat)).take 10)) 0 = true ∧
      (slaveState.convert (slaveState.time.tick - payloadTicks)).isSome = true) ∧
    bitAt (beNat (((beBytes 10 0).map (BitVec.ofNat 8)).map (·.toNat))) 0 = false ∧ s0.actingSrc ≠ 2 ∧
    ¬(([] : List Nat).length = 12 ∧ crc16 (([] : List Nat).take 10) = beNat (span [] 10 11)) := by
  refine ⟨?_, ?_, ?_, ?_, ?_, ?_, ?_, ?_⟩ <;> (try unfold EdgeCase.inside EdgeCase.meets) <;> (try unfold EdgeCase.outside EdgeCase.meets) <;>
    decide +kernel

theorem witness_TimeReadings :
    s0.d0Up = true ∧ (∃ g h r, (run .segmentBoundary s0).time.segs = g :: h :: r ∧ g.tick = (run .segmentBoundary s0).time.tick) ∧
    s0.convert (s0.get TIME.CONV_TICK_LO.f + 2 ^ 32 * (0#32).toNat) = some 0 ∧
    s0.convert (s0.get TIME.CONV_TICK_LO.f + 2 ^ 32 * (1#32).toNat) = none :=
  ⟨by decide, ⟨_, _, _, rfl, by decide +kernel⟩, by decide +kernel, by decide +kernel⟩


/-! ### Witnesses: housekeeping -/

theorem witness_BiasStrobesAndSpanHolds :
    (s0.d0Up = true ∧ bitAt (1#4).toNat (s0.get (HKD.HKD_CFG_GROUP.f 0 15)) = true ∧ s0.getB (HKD.HKD_STAT_SPAN_HOLD.f 0 15) = false ∧
      (regs [(HKD.HKD_CFG_ENABLE.f 0 15, 1)]).getB (HKD.HKD_CFG_ENABLE.f 0 15) = true ∧ s0.hk.lost = [] ∧ s0.oeRailsGood = true) ∧
    (regs [(OE.OE_CTL_EN_1V8.f, 1)]).oeRailsGood = false ∧
    (regs [(HKD.HKD_STAT_SPAN_HOLD.f 0 15, 1)]).getB (HKD.HKD_STAT_SPAN_HOLD.f 0 15) = true ∧
    bitAt (2#4).toNat (s0.get (HKD.HKD_CFG_GROUP.f 0 15)) = false ∧
    (s0.get (HKD.HKD_CFG_SPAN.f 0 15) = (0 : Nat) ∧ s0.get (HKD.HKD_CFG_SPAN.f 0 15) ≠ (1#2).toNat) ∧
    (({ s0 with loader := { s0.loader with coreEntry := some 0 }, hk := { s0.hk with bias := 1, ownHold := [3] } } : State).loader.coreEntry.isSome =
      true ∧ ∀ c, c < 16 → s0.get (HKD.HKD_CFG_GROUP.f 0 c) < 4) := by decide

theorem witness_DitherGenerators : s0.cclkRuns = true ∧ s0.d0Up = true := by decide

/-- Converter 1 running with a conversion under way. -/
def hkaState (run : Nat) (c : Option HkaConv) : State :=
  (regs [(HKA.HKA_STAT_RUNNING.f 1, run), (HKA.HKA_CTL_RUN.f 1, run), (HKA.HKA_CTL_RING_EN.f 1, 1), (HKA.RING_WR_WR_IDX.f, 4095)]).setHka 1
    { HkaSt.fresh with conv := c, word := 31 }

theorem witness_MonitorConverters :
    (s0.d0Up = true ∧ s0.getB (HKA.URG_CFG_PENDING.f 0 3) = false ∧
      (regs [(HKA.URG_CFG_PENDING.f 0 3, 1)]).getB (HKA.URG_CFG_PENDING.f 0 3) = true) ∧
    (s0.hkaRunning 1 = false ∧ (s0.hka 1).conv = none ∧ (s0.hka 1).stop = false) ∧
    ((hkaState 1 none).hkaRunning 1 = true ∧ ((hkaState 1 none).hka 1).conv = none) ∧
    ((hkaState 1 (some .seq)).hkaRunning 1 = true ∧ ((hkaState 1 (some .seq)).hka 1).conv ≠ none) ∧
    ((hkaState 1 (some .seq)).cclkRuns = true ∧ ((hkaState 1 (some .seq)).hka 1).conv = some .seq ∧
      (hkaState 1 (some .seq)).getB (HKA.HKA_CTL_RING_EN.f 1) = true) ∧
    ((hkaState 1 (some (.urg 3))).hka 1).conv = some (.urg 3) ∧
    ({ s0 with hk := { s0.hk with dropped := some ((9#12).toNat, s0.hkUnits) } } : State).hk.dropped = some ((9#12).toNat, s0.hkUnits) := by
  decide

/-- The filter engine running, with two samples queued for channel `k`. -/
def filtState (k : Nat) : State :=
  { regs [(FILT.FILT_CTL_RUN.f, 1), (FILT.FILT_CFG_LEN.f 0 k, 3)] with
    hk := { s0.hk with filtOn := true, fq := [(k, [5, 9])], fh := [(k, [1])] } }

theorem witness_TelemetryFilters :
    ((filtState 0).cclkRuns = true ∧ (filtState 0).hk.filtOn = true ∧ (filtState 0).hk.latchDue = false ∧
      (filtState 0).getB FILT.FILT_CTL_RUN.f = true ∧ (filtState 0).hk.fq.get [] 0 ≠ []) ∧
    ((filtState 47).hk.fq.get [] 47 ≠ [] ∧ (filtState 0).hk.fq.get [] 46 = []) ∧
    (s0.d0Up = true ∧ s0.getB FILT.FILT_CTL_RUN.f = false) := by decide

/-- A rail enabled without power-good; the configuration asks for the page, stage 6 passed. -/
def railBad : State := regs [(OE.OE_CTL_EN_3V3.f, 1)]
def blankImage : Retained :=
  { tilemaps := [], lanemap := [], datapath := [], reginit := [], engine := [0], lock := false, debug := false }
def pageState (s : State) : State :=
  { s with loader := { s.loader with coreEntry := some 0, retained := some blankImage }
           power := { s.power with railsUp := 126 } }
def pageUnder (own : Bool) : State := { s0 with hk := { s0.hk with page := some own } }
def xferUnder : State := { s0 with hk := { s0.hk with xfer := some ⟨true, 4, 0x50, 2, [1, 2, 3, 4], true⟩ } }

def readUnder : State := { s0 with hk := { s0.hk with xfer := some ⟨false, 16, 0x50, 2, [2], false⟩ } }

/-- An engine page that passes its check: every channel with code 5, enabled. -/
def goodPage : List Byte :=
  let b := [0x45, 0x4F, 1, 0] ++ List.replicate 44 0 ++ (List.range 16).flatMap (fun _ => [5, 0, 1, 0]) ++ List.replicate 12 0
  (b ++ leBytes 4 (crc32c b)).map (BitVec.ofNat 8)

theorem witness_EnginePageAndTransfers :
    (s0.hk.xfer = none ∧ s0.hk.page = none ∧ s0.d0Up = true ∧ s0.oeRailsGood = true) ∧ railBad.oeRailsGood = false ∧
    ((pageState s0).cclkRuns = true ∧ (pageState s0).loader.coreEntry.isSome = true ∧ bitAt (pageState s0).power.railsUp 6 = true ∧
      (pageState s0).biasFromPage = true ∧ (pageState s0).hk.pageDone = false ∧ (pageState s0).oeRailsGood = true) ∧
    (pageState railBad).oeRailsGood = false ∧ bitAt (0x2000000#32).toNat 25 = true ∧ xferUnder.hk.xfer ≠ none ∧
    (pageUnder true).hk.page = some true ∧ (pageUnder false).hk.page = some false ∧
    (goodPage.length = 128 ∧ pageResult ((goodPage.map (·.toNat)).take 128) = 0) ∧
    pageResult (((0#8 :: goodPage).map (·.toNat)).take 128) ≠ 0 ∧ xferUnder.hk.xfer = some ⟨true, 4, 0x50, 2, [1, 2, 3, 4], true⟩ ∧
    readUnder.hk.xfer = some ⟨false, 16, 0x50, 2, [2], false⟩ := by decide +kernel

theorem witness_OeRails :
    (s0.d0Up = true ∧ s0.getB OE.OE_CTL_EN_3V3.f = false ∧ s0.power.stage6 = false ∧ railBad.getB OE.OE_CTL_EN_3V3.f = true) ∧
    ((regs [(OE.OE_CTL_EN_1V8.f, 1), (OE.OE_STAT_PG_1V8.f, 1)]).getB (oeEn 1) = true ∧
      (regs [(OE.OE_CTL_EN_1V8.f, 1), (OE.OE_STAT_PG_1V8.f, 1)]).getB (oePg 1) = true) ∧
    ((pageState railBad).getB (oeEn 0) = true ∧ (pageState railBad).getB (oePg 0) = false ∧
      bitAt (pageState railBad).power.railsUp 6 = true) := by decide

/-! ### Witnesses: memory, temperature, tiles -/

/-- GDDR7 serves; `c` of its register fields written. -/
def memState (xs : List (Fld × Nat)) : State := regs ((MEM.MEM_STAT_READY.f, 1) :: xs)

/-- Eight written words at the last burst of the capture ring, the second with a single error and the third with more. -/
def burstState : State := { memState [] with mem := { s0.mem with d3 := (List.range 8).map fun i => (0xBFFFFF8 + i, ⟨i, false, true, [WordErr.clean, .single, .multi].getD i .clean⟩) } }
def retrainState (second : Bool) : State :=
  { regs [(MEM.MEM_STAT_RETRAINING.f, 1)] with mem := { s0.mem with second := second } }

/-- A request of the last burst of the ring; one of an apply waits. -/
def req (cls : MemClass) (write : Bool) : MemReq := ⟨cls, write, 0x9FFFFFC0, List.replicate 64 7⟩
def waitingState : State := { burstState with mem := { burstState.mem with reqs := [req .host true, req .apply false] } }

theorem witness_GddrBurstsAndRetraining :
    (s0.hasD3 = true ∧ s0.d0Up = true ∧ s0.memServes = false ∧ d3Backed (req .host true).addr.toNat = true) ∧
    (waitingState.memServes = true ∧ waitingState.getB MEM.MEM_STAT_SELF_REFRESH.f = false ∧
      waitingState.mem.reqs.find? (fun r => decide (r.cls = .apply)) = some (req .apply false)) ∧
    (burstState.memServes = true ∧ burstState.getB MEM.MEM_STAT_SELF_REFRESH.f = false ∧ burstState.mem.failed = false ∧
      burstState.mem.reqs = [] ∧ burstState.throttled = false ∧ d3Backed (0x40000000#32).toNat = true) ∧
    ((req .host true).write = true ∧ (req .host false).write = false ∧
      ∀ i, i < 8 → (burstState.d3Word (0x9FFFFFC0 + 8 * i)).written = true) ∧
    ((burstState.d3Word (0x9FFFFFC0 + 8)).fixed = true ∧ (burstState.d3Word (0x9FFFFFC0 + 16)).err = .multi) ∧
    (s0.getB MEM.MEM_STAT_RETRAINING.f = false ∧ s0.mem.failed = false) ∧
    ((retrainState false).getB MEM.MEM_STAT_RETRAINING.f = true ∧ (retrainState false).mem.crcNext < 4 ∧
      (retrainState false).mem.second = false ∧ (retrainState true).mem.second = true) := by decide +kernel

/-- Scrubbing at the last block of the capture ring, whose second word is to be corrected, with block `b` due for its rewrite. -/
def scrubState (b : Option Nat) : State :=
  let s := put burstState [(MEM.SCRUB_CFG_SCRUB_EN.f, 1), (MEM.SCRUB_POS_POS.f, 0x9FFFFFC0)]
  { s with mem := { s.mem with rewrite := b } }

theorem witness_MemoryUpkeepAndCalibration :
    ((memState []).memServes = true ∧ (memState []).getB MEM.MEM_STAT_SELF_REFRESH.f = false ∧ (memState []).applyReading = false) ∧
    ((applyState readingD3).applyReading = true ∧ (applyState readingD3).memServes = true ∧
      (applyState readingD3).get MEM.MEM_STAT_BAND.f < 2) ∧ (s0.hasD3 = true ∧ s0.d0Up = true) ∧
    (∀ b ∈ [none, some 0x9FFFFFC0], (scrubState b).getB MEM.SCRUB_CFG_SCRUB_EN.f = true ∧ (scrubState b).memServes = true ∧
      (scrubState b).mem.failed = false ∧ (scrubState b).getB MEM.MEM_STAT_SELF_REFRESH.f = false ∧ (scrubState b).throttled = false ∧
      (scrubState b).mem.rewrite = b) ∧
    ((scrubState none).d3Fixed ((scrubState none).get MEM.SCRUB_POS_POS.f) 8 = true ∧
      ((scrubState none).d3Word (0x9FFFFFC0 + 8)).fixed = true) ∧
    (s0.loader.part = none ∧ (s0.calUpsets [] []).calCopy 0 = some (factoryValues 0)) ∧
    ((s0.calUpsets [(8191, .multi)] []).calCopy 0 = none ∧
      (s0.calUpsets [(8191, .multi)] [(0, .single)]).calCopy 1 = some (factoryValues 1)) ∧
    (s0.calUpsets [(8191, .multi)] [(8191, .multi)]).calCopy 1 = none :=
  ⟨by decide, by decide +kernel, by decide, by decide +kernel, by decide +kernel, ⟨by decide, rfl⟩, ⟨rfl, rfl⟩, rfl⟩

theorem witness_ThermalSupervision :
    (bitAt s0.power.railsUp 4 = true ∧ s0.standby = false ∧ s0.therm.shutdown = false ∧
      s0.get THERM.THERM_STAT_BAND.f ≤ 2 ∧ s0.sensorPowered 23 = true) ∧
    ((run (.thermalSample (List.replicate 24 1100)) s0).anyAt (List.range 24)
        ((run (.thermalSample (List.replicate 24 1100)) s0).get THERM.THERM_CFG_SHUT_TH.f) = true) ∧
    ((run (.thermalSample (List.replicate 24 1100)) s0).therm.shutdown = true ∧
      (run (.thermalSample (List.replicate 24 1100)) s0).therm.held = false) ∧
    (bitField (0x50736050#32).toNat 0 8 ≤ bitField (0x50736050#32).toNat 8 8 ∧
      bitField (0x50736050#32).toNat 8 8 ≤ min 115 (bitField (0x50736050#32).toNat 16 8)) ∧
    ({ s0 with loader := { s0.loader with locks := [true, false, false] } } : State).dieLocked 0 = true ∧
    ¬(bitField (0x50735060#32).toNat 0 8 ≤ bitField (0x50735060#32).toNat 8 8) := by decide +kernel

/-- Lane 2's tile 30 is a loaded FFE tile; its spare is tile 35. -/
def tileState (placement : Nat) : State :=
  regs [(GLOBAL.MODE_LANE_EN.f, 255), (GLOBAL.MODE_PLACEMENT.f, placement), (TILE.TILE_INFO_FN.f 30, 1), (TILE.TILE_INFO_SERVES.f 30, 2),
    (LINE.RX_STATE_STATE.f 2, 9), (LINE.RX_STATE_TRAINED.f 2, 1), (LINE.RX_STATE_LIGHT.f 2, 1)]
/-- Tile 35 is being loaded in its place, with a checkpoint kept. -/
def swapState (placement : Nat) : State :=
  let s := tileState placement
  (s.put (TILE.TILE_INFO_FAILED.f 30) 1).setLane 2 { s.lane 2 with swap := some ⟨[30], [35]⟩, ckpt := some (s.trainedOf 2) }
def heldState : State :=
  (regs [(BIST.HELD_STAT_LANE_HELD.f, 4)]).setLane 2 { s0.lane 2 with retestDue := true }

theorem noWaiting (s : State) (h : s.lanes.all (fun e => e.2.waiting.isEmpty) = true) (m : Nat) : (s.lane m).waiting = [] := by
  unfold State.lane
  generalize s.lanes = l at h
  induction l with
  | nil => rfl
  | cons e r ih =>
    simp only [List.all_cons, Bool.and_eq_true, List.isEmpty_iff] at h
    simp only [SMap.get]
    split
    · exact h.1
    · exact ih h.2

theorem witness_TileFaultsAreRepaired :
    (s0.tileSwept 103 = true ∧ s0.loadingFor 103 = none ∧ s0.servesLane 103 = none ∧ s0.test.run ≠ some 103) ∧
    ((tileState 0).tileSwept 30 = true ∧ (tileState 0).loadingFor 30 = none ∧ (tileState 0).servesLane 30 = some 2 ∧
      (tileState 0).reloading 1 = false ∧ (tileState 0).laneOn 2 = true ∧ (tileState 0).roleNumber 30 ≠ some 10 ∧
      (tileState 0).placement 1 = false ∧ (tileState 0).repairing 1 = false ∧ (tileState 0).ctx.applies = [] ∧
      ((tileState 0).markFailed 30 1).spares 2 = 35 :: [98, 99]) ∧
    (((swapState 0).lane 2).swap = some ⟨[30], [35]⟩ ∧ (swapState 0).placement 1 = false ∧
      [2, 3].find? (fun n => ((swapState 0).lane n).swap.any (fun w => w.failed.contains 30)) = some 2 ∧
      ((swapState 0).lane 2).ckpt.isSome = true ∧ (swapState 0).roleNumber 30 = some 6 ∧ (swapState 0).ctx.applies = [] ∧
      (swapState 0).getB (LINE.RX_STATE_TRAINED.f 2) = true ∧ (swapState 0).lanes.all (fun e => e.2.waiting.isEmpty) = true) ∧
    (∀ m, ((swapState 0).lane m).waiting = []) ∧
    ((swapState 2).placement 1 = true ∧ (swapState 2).rx 2 ≠ .off ∧ (swapState 2).light 2 = true ∧
      (swapState 2).lanes.all (fun e => e.2.waiting.isEmpty) = true) ∧
    ((tileState 0).laneRuns 2 = true ∧ ((tileState 0).lane 2).faulted = false) ∧
    ((heldState.lane 2).retestDue = true ∧ heldState.laneServed 2 = true ∧
      bitAt (heldState.get BIST.HELD_STAT_REGION_HELD.f) 1 = false ∧ heldState.laneHeld 2 = true ∧
      (∀ k, k < 12 → k ≠ 10 → heldState.tileFailed (clusterTile 2 k) = false) ∧
      heldState.getB (TILE.TILE_TEST_RETIRED.f (clusterTile 2 10)) = false) :=
  ⟨by decide +kernel, by decide +kernel, by decide +kernel, noWaiting _ (by decide +kernel), by decide +kernel, by decide +kernel,
    by decide +kernel⟩

/-- A background round; a slice under way; a BIST_RUN of tile 35 taken and under way. -/
def bistState (run : Option Nat) : State :=
  { taken .test (cmd 7 0 [2 + 11 * 256]) (regs [(BIST.BG_CFG_BG_EN.f, 1)]) with test := { s0.test with run := run, bgNow := [(1, 98)] } }

theorem witness_TileTestsEndWithTheirResult :
    ((bistState none).d0Up = true ∧ (bistState none).getB BIST.BG_CFG_BG_EN.f = true ∧ isUt 103 = true) ∧
    (bistState none).bgTestable 103 = true ∧
    (bistState none).test.bgNow.any (fun e => decide (e.2 = 98)) = true ∧
    ((bistState none).headOf .test = some (cmd 7 0 [2 + 11 * 256]) ∧ (bistState none).test.run = none ∧
      (bistState none).bistStop (bistTile (cmd 7 0 [2 + 11 * 256])) = none) ∧
    (put (bistState none) [(TILE.TILE_TEST_RETIRED.f 35, 1)]).bistStop (bistTile (cmd 7 0 [2 + 11 * 256])) = some .retired ∧
    ((bistState (some 35)).test.run = some 35 ∧ (bistState (some 35)).headOf .test = some (cmd 7 0 [2 + 11 * 256])) := by decide +kernel

/-- Region 0 under the placement policy, both lanes candidates, lane 1 harder, the pool `p`. -/
def poolState (p : Pool) : State :=
  let s := regs [(GLOBAL.MODE_PLACEMENT.f, 1), (LINE.MEAS_STAT_VALID.f 0, 1), (LINE.MEAS_STAT_VALID.f 1, 1), (LINE.SIG_LO.f 0, 1000),
    (LINE.ERR_LO.f 0, 1), (LINE.SIG_LO.f 1, 1), (LINE.ERR_LO.f 1, 1000), (LINE.RX_STATE_STATE.f 0, 9)]
  { s with loader := { s.loader with retained := some { blankImage with tilemaps := [[0, 0, 1, 0, 3]] } }, pools := [(0, p)] }

/-- A candidate start measured over all its cycles. -/
def measured : State :=
  (poolState .fresh).setLane 0 { (poolState .fresh).lane 0 with rxp := { ((poolState .fresh).lane 0).rxp with segN := 65536, segS := 36 } }

theorem witness_PoolPlacement :
    ((poolState .fresh).placesIn 0 = true ∧ ((poolState .fresh).pool 0).withdraw = none ∧
      [2 * 0, 2 * 0 + 1].filter (fun n => bitAt (((poolState .fresh).regionMap 0).getD 4 0) (n % 2) &&
        (poolState .fresh).getB (LINE.MEAS_STAT_VALID.f n)) = [0, 1] ∧
      (poolState .fresh).hardest [0, 1] = some 1 ∧ (poolState .fresh).throttled = false) ∧
    ((poolState { Pool.fresh with holder := some 1 }).pool 0).holder = some 1 ∧
    (((poolState { Pool.fresh with holder := some 0, streak := 2 }).pool 0).holder = some 0 ∧
      (!([0, 1].contains 0) || (poolState .fresh).aboveBy 0 1 ((poolState .fresh).get (LINE.PLACE_PLACE_HYST.f 0))) = true ∧
      2 ≤ ((poolState { Pool.fresh with holder := some 0, streak := 2 }).pool 0).streak) ∧
    (put (poolState { Pool.fresh with holder := some 0 }) [(LINE.ERR_LO.f 1, 1), (LINE.SIG_LO.f 1, 1000)]).aboveBy 0 1 20 = false ∧
    ((poolState .fresh).usable (poolTile 0 0) = true ∧ (poolState .fresh).test.run ≠ some (poolTile 0 0) ∧
      (poolState .fresh).loadingFor (poolTile 0 0) = none ∧ ((poolState .fresh).regionMap 0).getD 2 0 = 1) ∧
    ((poolState .fresh).rx 0 = .track ∧ ((poolState .fresh).lane 0).rxp.segN ≠ 65536 ∧
      (measured.placesIn 0 = true ∧ measured.rx 0 = .track ∧ (measured.lane 0).rxp.segN = 65536)) ∧
    ((poolState { Pool.fresh with withdraw := some (16, 1) }).pool 0).withdraw = some (16, 1) ∧
    ((poolState { Pool.fresh with withdraw := some (1, 1) }).pool 0).withdraw = some (1, 1) := by decide +kernel


/-! ### Witnesses: power -/

/-- Reset with the power state changed and register fields written. -/
def powered (f : PowerSt → PowerSt) (xs : List (Fld × Nat)) : State := let s := regs xs; { s with power := f s.power }
def vinState (v : VinSt) : State := powered (fun p => { p with vin := v }) []

theorem witness_PowerEntryAndItsStops :
    (vinState .off).power.vin = .off ∧ (vinState .debounce).power.vin = .debounce ∧ (vinState .softstart).power.vin = .softstart ∧
    (s0.power.vin ≠ .off ∧ s0.power.vin ≠ .ovStop) ∧ (vinState .ovStop).power.vin = .ovStop ∧ s0.power.vin = .up ∧
    (vinState .ocStop).power.vin = .ocStop := by decide

/-- Stage `k` of a sequence runs; D0 is held or not; BIST is due or runs. -/
def stageState (k : Nat) (d0 due bist : Bool) : State :=
  powered (fun p => { p with d0Reset := d0, bistDue := due, bistRunning := bist, stage6 := decide (k = 6), railsUp := 62 % 2 ^ k })
    [(PWR.AON_STAT_STAGE.f, k)]

theorem witness_StartUpStages :
    ((stageState 1 true true false).sequencing = true ∧ (stageState 1 true true false).stage = 1) ∧
    ((stageState 5 true true false).sequencing = true ∧ (stageState 5 true true false).stage = 5) ∧
    ((stageState 6 false false false).sequencing = true ∧ (stageState 6 false false false).stage = 6 ∧
      (stageState 6 false false false).power.stage6 = true) ∧
    ((stageState 7 true true false).sequencing = true ∧ (stageState 7 true true false).stage = 7) ∧
    ((stageState 8 true true false).sequencing = true ∧ (stageState 8 true true false).stage = 8 ∧
      (stageState 8 true true false).power.bistRunning = false ∧ (stageState 8 true true false).therm.held = false ∧
      (stageState 8 true true false).power.bistDue = true) ∧
    (let s : State := { stageState 8 true true false with therm := { s0.therm with shutdown := true, held := true } };
      s.sequencing = true ∧ s.stage = 8 ∧ s.power.bistRunning = false ∧ s.therm.held = true) ∧
    ((stageState 8 true false false).power.bistDue = false ∧ (stageState 8 true false false).d0Up = false) ∧
    ((stageState 8 false false false).sequencing = true ∧ (stageState 8 false false false).stage = 8 ∧
      (stageState 8 false false false).power.bistDue = false ∧ (stageState 8 false false false).d0Up = true) ∧
    (s0.sequencing = true ∧ bitAt s0.power.railsUp 1 = true ∧ bitAt s0.power.railsUp 5 = true) ∧
    (powered (fun p => { p with retry := some 3 }) []).power.retry = some 3 ∧
    ((stageState 8 true false true).power.bistRunning = true ∧ (stageState 8 true false true).sequencing = true ∧
      [3, 116].any sliceCritical = true ∧ [3, 115].any sliceCritical = false) ∧
    s0.canStartD0 = true := by decide

theorem witness_StartUpStages_map : (stageState 8 true false true).repairMap = some [] := by rfl

/-- The package asks for a state, with a WAIT taken. -/
def waitState (xs : List (Fld × Nat)) : State := taken .core (cmd 8 0 []) (regs xs)
/-- A draining domain; the queue of lane 7 to its decoder holds an entry, or nothing is left. -/
def drainState (d : Domain) (empty : Bool) : State :=
  let s := powered (fun p => { p with drains := [d] }) []
  if empty then s else s.setQueue ⟨.mlseDec, 7⟩ { (s.queue ⟨.mlseDec, 7⟩) with credits := 0, entries := [⟨.command [], false⟩] }
def returnState (d : Domain) (xs : List (Fld × Nat)) : State := powered (fun p => { p with returns := [(d, true)] }) xs
def standbyState : State := regs [(PWR.PWR_STAT_STATE.f, 2)]
def noClock (d0 : Bool) : State := powered (fun p => { p with refclk := false, d0Reset := d0 }) []

theorem witness_PowerStatesAndReturns :
    (let s := waitState [(PWR.PWR_STAT_STATE.f, 1), (PWR.PWR_MODE_STATE.f, 1)];
      s.headIs .core 8 0 = some (cmd 8 0 []) ∧ s.power.wait = none ∧ s.get PWR.PWR_MODE_STATE.f = 1 ∧ s.idle = true) ∧
    (let s := waitState [];
      s.headIs .core 8 0 = some (cmd 8 0 []) ∧ s.power.wait = none ∧ s.get PWR.PWR_MODE_STATE.f = 0 ∧ s.idle = false ∧
      s.parkDone = true ∧ s.gateDone = true) ∧
    (∀ i ∈ [0, 1], let s := waitState [(PWR.PWR_MODE_STATE.f, 2), (PWR.PWR_STAT_STATE.f, i)];
      s.headIs .core 8 0 = some (cmd 8 0 []) ∧ s.power.wait = none ∧ s.get PWR.PWR_MODE_STATE.f = 2 ∧ s.idle = decide (i = 1) ∧
      s.parkDone = true ∧ s.gateDone = true) ∧
    (let s := waitState [(PWR.PWR_STAT_PARKED.f, 2 ^ 7)];
      s.headIs .core 8 0 = some (cmd 8 0 []) ∧ s.power.wait = none ∧ s.lowest 7 = true ∧ s.wantsUnpark 7 = true ∧ s.idle = false) ∧
    (let s := waitState [(PWR.PWR_MODE_PARK.f, 2 ^ 7)];
      s.headIs .core 8 0 = some (cmd 8 0 []) ∧ s.power.wait = none ∧ s.lowest 7 = true ∧ s.wantsPark 7 = true ∧
      s.reloadIn (.group 7) = false ∧ s.idle = false) ∧
    (∀ d ∈ [Domain.group 7, .region 3, .package], (drainState d true).power.wait = none ∧
      (drainState d true).power.drains.contains d = true ∧ (drainState d true).drained d = true ∧
      (drainState d false).drained d = false) ∧ (drainState (.group 7) true).lowest 7 = true ∧
    (let s := returnState (.group 7) [(PWR.PWR_STAT_PARKED.f, 2 ^ 7)];
      s.power.wait = none ∧ s.power.returns = [(.group 7, true)] ∧ s.canReturn (.group 7) = true ∧ s.lowest 7 = true) ∧
    (let s := returnState (.region 3) [(PWR.PWR_STAT_GATED.f, 8)];
      s.power.returns = [(.region 3, true)] ∧ s.power.wait = none ∧ s.canReturn (.region 3) = true ∧ s.keptEntries = []) ∧
    (let s := s0.setDie 1 { (s0.die 1) with reapply := true, inReset := true };
      s.power.wait = none ∧ s.d0Up = true ∧ (s.die 1).reapply = true ∧ (s.die 1).powered = true ∧ s.power.refclk = true ∧ s.keptEntries = []) ∧
    ((0x50#7).toNat = standbyState.staticAddr ∧ (0x51#7).toNat ≠ standbyState.staticAddr) ∧
    (standbyState.power.vin = .up ∧ standbyState.standby = true) ∧
    (powered (fun p => { p with wake := some 2 }) []).power.wake.isSome = true ∧
    (s0.sequencing = true ∧ s0.power.refclk = true ∧ s0.d0Up = true ∧
      (powered (fun p => { p with d0Reset := true }) []).d0Up = false) ∧
    (∀ d0 ∈ [true, false], (noClock d0).sequencing = true ∧ (noClock d0).power.refclk = false ∧ (noClock d0).stage ≤ 6 ∧
      (noClock d0).railsTo 1 5 = true ∧ (noClock d0).d0Up = !d0 ∧ (noClock d0).keptEntries = [] ∧ (noClock d0).idle = false) ∧
    (let s := put (noClock false) [(PWR.PWR_STAT_STATE.f, 1)]; s.idle = true ∧ s.power.leavingIdle = false ∧ s.d0Up = true) := by
  refine ⟨?_, ?_, ?_, ?_, ?_, ?_, ?_, ?_, ?_, ?_, ?_, ?_, ?_, ?_, ?_, ?_⟩ <;> (try dsimp only) <;> decide +kernel

theorem witness_ResetsAndTestAccess :
    (s0.power.resetN = false ∧ s0.resetActs = true) ∧ (powered (fun p => { p with resetN := true }) []).power.resetN = true ∧
    (powered (fun p => { p with retry := some 2 }) []).resetActs = false ∧
    (let s := powered (fun p => { p with resetN := true, d0Reset := true }) [(PWR.AON_STAT_HELD_CAUSE.f, 1)];
      s.power.resetN = true ∧ s.get PWR.AON_STAT_HELD_CAUSE.f = 1 ∧ s.resetActs = true) ∧
    (s0.d0Up = true ∧ (0xA5 : Byte) = 0xA5 ∧ (0xA4 : Byte) ≠ 0xA5) ∧
    (s0.getB GLOBAL.RST_STAT_D1_BUSY.f = false ∧ s0.getB GLOBAL.RST_STAT_D2_BUSY.f = false ∧ (s0.die 0).powered = true ∧
      (s0.die 1).powered = true ∧ s0.getB PWR.PWR_STAT_CHANGING.f = false) ∧
    ((s0.setDie 1 { (s0.die 1) with powered := false }).die 1).powered = false ∧
    (regs [(PWR.PWR_STAT_CHANGING.f, 1)]).getB PWR.PWR_STAT_CHANGING.f = true ∧
    (regs [(GLOBAL.RST_STAT_D2_BUSY.f, 1)]).getB GLOBAL.RST_STAT_D2_BUSY.f = true ∧
    (bitAt s0.power.railsUp 2 = true ∧ tapHolds .extest = true ∧ tapHolds s0.tap = false ∧ tapHolds .bypass = tapHolds s0.tap) ∧
    (let s := { s0 with tap := .highz };
      bitAt s.power.railsUp 2 = true ∧ tapHolds .bypass = false ∧ tapHolds s.tap = true ∧ s.resetActs = true) ∧
    (taken .loader (cmd 1 4 [2]) s0).loaderHead 4 = some (cmd 1 4 [2]) := by dsimp only; decide


/-! ### Witnesses: the loader -/

/-- A slot write at offset `o` under way, with a SLOT_CHUNK of `n` bytes taken; the staging buffer holds clean bytes or is unwritten. -/
def chunkState (o n : Nat) (clean : Bool) (xs : List (Fld × Nat)) : State :=
  let s := taken .loader (cmd 1 2 [n]) (regs ((THERM.THERM_STAT_MRAM_WRITE_OK.f, 1) :: xs))
  { s with loader := { s.loader with
    write := some ⟨2, o, List.replicate 64 1⟩, staging := if clean then (List.range 16).map (fun i => (i, ⟨BitVec.ofNat 8 i, false⟩)) else [] } }
def hot : List (Fld × Nat) := [(THERM.THERM_STAT_MRAM_WRITE_OK.f, 0)]

/-- A public key of curve P-384, its SHA-384, and a signature section of key slot 1 with the values `r` and `s`.  The key pair and the
signatures were made with Python's integers and hashlib. -/
def pubKey : Nat := 0x4a14aad95673d51513a385309151ee57b66f8ef6d80a03ae54b268767b28cb37f72f272aa5fb5d11d7395157d985b5f33229d4134d1a63d2a1afa184a2d09e52b2d71527e66fb1427c13e6b1cb1978d474a7b7b735d792cdaa0996332db968ab4
def keyHash : List Nat := beBytes 48 0x50014e7e966eafce5d97a50f5657c8d759a03a76dd78a99f3b9efabef20bcf9e9deb45ab516a8e814961d9a6a9e85b1f
def signed (r s : Nat) : List Nat :=
  [1] ++ List.replicate 15 0 ++ beBytes 97 pubKey ++ List.replicate 15 0 ++ beBytes 48 r ++ beBytes 48 s

/-- A full container's bytes with the table entries `es` (type, region, bytes): header, table, sections, the signature section. -/
def container (typ region : Nat) (es : List (Nat × Nat × List Nat)) (sig : List Nat) : List Nat :=
  let n := es.length + 1
  let at_ (i : Nat) : Nat := 0x40 + 16 * n + ((es.take i).map (fun e => e.2.2.length)).sum
  let ilen := at_ es.length + 224
  let h := leBytes 4 0x534B4C4D ++ [0, 1] ++ leBytes 2 0x51 ++ leBytes 2 0x5832 ++ [0xB0, typ, region, n] ++ [0, 0] ++ leBytes 4 ilen ++
    List.replicate 40 0
  let entry (t r o : Nat) (b : List Nat) : List Nat := leBytes 2 t ++ [r, 0] ++ leBytes 4 o ++ leBytes 4 b.length ++ leBytes 4 (crc32c b)
  h ++ leBytes 4 (crc32c h) ++ (es.zipIdx.flatMap fun e => entry e.1.1 e.1.2.1 (at_ e.2) e.1.2.2) ++
    entry 0xFF 0xFF (at_ es.length) sig ++ es.flatMap (fun e => e.2.2) ++ sig

/-- A cluster record of a disabled lane with a chain of one tile, and a TILEMAP of it. -/
def clusterOff : List Nat := [0, 1, 0, 255, 255, 255, 255, 255, 0, 0] ++ List.replicate 14 0
def mapOff (r : Nat) : List Nat := r :: List.replicate 15 0 ++ clusterOff ++ clusterOff

/-- A partial image of region 3, and a full image. -/
def partImage : List Nat := container 2 3 [(1, 3, mapOff 3)] (signed
  0xae97cc22e6ceac8470d883f033809bbaf9ad615f82b08de2aeb5805d66ee76e725a6c8bf05873b7eb5553d680ad16219
  0xbe11cddbe89a0a410bdef17f3a39f20f9df03351d8190131162048710e286561b2e021c2798d4d9dddead35d3d69f4fd)
def fullImage : List Nat := container 1 0xFF ([0, 1, 2, 3].map (fun r => (1, r, mapOff r)) ++
  [(2, 0xFF, (List.range 8).flatMap (fun _ => [255, 255, 0, 0])), (3, 0xFF, (List.range 8).flatMap (fun _ => [0, 0, 1, 0, 0, 0, 0, 0])),
    (5, 0xFF, leBytes 4 0 ++ leBytes 4 0 ++ leBytes 4 16 ++ leBytes 4 0 ++ List.replicate 16 0)]) (signed
  0x201239b70f4d09bb693a3b395f9f0ed366f36e99b2548305ff8a26cf1f5b413416b5808ab8b4f73a8e339a4047120d2
  0xa41207ac905a1d88a35fb21014a7dbc3afab4e28d7780168927678129f859d49585ad69ff839cdd643b611f0f4c3c65)

/-- The checks of R75, those of key and signature apart. -/
theorem checkImage_passes (s : State) (g : ImgSrc) (u : ImgUse) (count ilen : Nat) (region : Nat) (es : List TabEntry)
    (ss : List Section) (hc : (g.run 0 64).getD 0x0D 0 = count) (hi : leField (g.run 0 64) 0x10 4 = ilen)
    (hr : (g.run 0 64).getD 0x0C 0 = region) (he : (List.range count).map (tabEntry (g.run 0x40 (16 * count))) = es)
    (hs : es.map (fun e => (⟨e.typ, e.region, g.run e.off e.len⟩ : Section)) = ss)
    (hh : (decide (64 ≤ u.supplied.getD u.limit) && g.poison.isEmpty && decide (leField (g.run 0 64) 0 4 = 0x534B4C4D) &&
      headerOk (g.run 0 64) && decide ((g.run 0 64).getD 5 0 = 1) && decide ((g.run 0 64).getD 4 0 = 0) &&
      decide (leField (g.run 0 64) 6 2 = 0x51) && decide (leField (g.run 0 64) 8 2 = 0x5832) && decide ((g.run 0 64).getD 0x0A 0 ≤ 0xB0) &&
      typeOk (g.run 0 64) u.full && decide (ilen ≤ u.limit) && (u.supplied.isNone || decide (ilen = u.supplied.getD u.limit)) &&
      tableOk g ilen count es && (es.zip ss).all (fun p => decide (p.1.crc = crc32c p.2.bytes)) && compositionOk u.full region ss &&
      s.contentOk u.full region ss && s.scopeOk u.full region ss) = true)
    (hk : keyOk s.keys u (g.run (ilen - 224) 224) = true)
    (hv : signatureOk g count (ilen - 224) (g.run (ilen - 224) 224) = true) : s.checkImage g u = (0, ss) := by
  subst hc hi hr he hs
  simp only [Bool.and_eq_true, decide_eq_true_eq, List.isEmpty_iff] at hh
  obtain ⟨⟨⟨⟨⟨⟨⟨⟨⟨⟨⟨⟨⟨⟨⟨⟨h1, h2⟩, h3⟩, h4⟩, h5⟩, h6⟩, h7⟩, h8⟩, h9⟩, h10⟩, h11⟩, h12⟩, h13⟩, h14⟩, h15⟩, h16⟩, h17⟩ := hh
  have hb : ∀ a b, g.bad a b = false := by intro a b; simp [ImgSrc.bad, h2]
  have hp : (((List.range ((g.run 0 64).getD 0x0D 0)).map (tabEntry (g.run 0x40 (16 * (g.run 0 64).getD 0x0D 0)))).zip
      (((List.range ((g.run 0 64).getD 0x0D 0)).map (tabEntry (g.run 0x40 (16 * (g.run 0 64).getD 0x0D 0)))).map
        (fun e => (⟨e.typ, e.region, g.run e.off e.len⟩ : Section)))).any (fun p => decide (p.1.crc ≠ crc32c p.2.bytes)) = false := by
    rw [List.any_eq_false]
    intro p hp
    have := List.all_eq_true.mp h14 p hp
    simpa using this
  unfold State.checkImage
  simp only [hb, h3, h4, h5, h6, h7, h8, h10]
  rw [if_neg (by omega), if_neg (by simp), if_neg (by simp), if_neg (by omega), if_neg (by simp), if_neg (by simp),
    if_neg (by simp), if_neg (by rintro (h | h | h) <;> first | exact absurd rfl h | omega), if_neg (by simp), if_neg, if_neg (by simp),
    if_neg (by rw [h13]; simp)]
  · unfold State.checkSections
    simp only [hb, hp, hk, hv, h15, h16, h17]
    simp
  · intro h
    rcases h with h | ⟨ha, hb'⟩
    · omega
    · cases hu : u.supplied with
      | none => simp [hu] at ha
      | some v => simp [hu] at h12; simp [hu] at hb'; exact hb' h12

/-- A PARTIAL taken with its image in staging; a slot write whose slot holds an image, its end taken. -/
def partStateOf (bs : List Nat) : State :=
  let s := taken .loader (cmd 1 0 [bs.length]) { s0 with keys := s0.keys.set 1 ⟨.valid, keyHash⟩ }
  { s with loader := { s.loader with staging := s0.loader.staging.setRun .unwritten 0 (bs.map (fun b => ⟨BitVec.ofNat 8 b, false⟩)) } }
def endStateOf (bs : List Nat) : State :=
  let s := taken .loader (cmd 1 3 []) { regs [(THERM.THERM_STAT_MRAM_WRITE_OK.f, 1)] with keys := s0.keys.set 1 ⟨.valid, keyHash⟩ }
  let s := s.mramWrite (slotBase 2) bs
  { s with loader := { s.loader with write := some ⟨2, bs.length, bs.take 64⟩ } }
def partState : State := partStateOf partImage
def endState : State := endStateOf fullImage
def partSrc : ImgSrc := ⟨partImage.map (· % 256), []⟩
def endSrcOf (bs : List Nat) : ImgSrc := ⟨bs.take 64 ++ (bs.map (· % 256)).drop 64, []⟩
def endSrc : ImgSrc := endSrcOf fullImage

theorem zipIdx_clean (bs : List Nat) (k : Nat) :
    ((bs.map (fun b => (⟨BitVec.ofNat 8 b, false⟩ : MByte))).zipIdx k).filter (fun e => e.1.poison) = [] := by
  induction bs generalizing k with
  | nil => rfl
  | cons b r ih => simp [List.zipIdx_cons, ih]

theorem stagingSrc_partState (bs : List Nat) : (partStateOf bs).stagingSrc bs.length = ⟨bs.map (· % 256), []⟩ := by
  have h := SMap.getRun_setRun (bs.map (fun b => (⟨BitVec.ofNat 8 b, false⟩ : MByte))) s0.loader.staging .unwritten 0
  rw [List.length_map] at h
  have h' : (partStateOf bs).loader.staging.getRun .unwritten 0 bs.length = bs.map (fun b => (⟨BitVec.ofNat 8 b, false⟩ : MByte)) := h
  unfold State.stagingSrc
  rw [h']
  simp only [zipIdx_clean]
  simp [List.map_map, Function.comp_def]

theorem slotSrc_endState (bs : List Nat) (hn : 64 ≤ bs.length) :
    (endStateOf bs).slotSrc 2 bs.length ((bs.take 64).take bs.length) = endSrcOf bs := by
  have h := SMap.getRun_setRun (bs.map (BitVec.ofNat 8)) s0.mram.bytes 0 (slotBase 2)
  rw [List.length_map] at h
  have hb : (endStateOf bs).mramRun (slotBase 2) bs.length = bs.map (· % 256) := by
    have := congrArg (List.map (fun b : Byte => b.toNat)) (show (List.range bs.length).map (fun i => (endStateOf bs).mramByte (slotBase 2 + i)) =
      bs.map (BitVec.ofNat 8) from h)
    simpa [State.mramRun, List.map_map, Function.comp_def] using this
  have hp : ∀ a, (endStateOf bs).mramBad a = false := by
    intro a
    have e : (endStateOf bs).mram.err = [] := rfl
    simp [State.mramBad, e, SMap.get]
  have hl : (bs.take 64).take bs.length = bs.take 64 := by rw [List.take_take, Nat.min_eq_right hn]
  have h64 : (bs.take 64).length = 64 := by rw [List.length_take, Nat.min_eq_left hn]
  unfold State.slotSrc
  rw [hl, hb, h64, endSrcOf]
  refine congrArg (ImgSrc.mk _) (List.filter_eq_nil_iff.2 ?_)
  intro i hi
  simp [hp]

/-- Reading words of which none has an error changes nothing. -/
theorem mramScan_clean (s : State) (a n : Nat) (he : s.mram.err = []) (hr : (s.addTo LOADER.MRAM_CE_CNT.f 0).regs = s.regs) :
    (s.mramUpsets a []).mramScan a n = s := by
  have f : ∀ e, s.mramFaults a n e = 0 := by intro e; simp [State.mramFaults, he]
  have u : s.mramUpsets a [] = s := rfl
  have q : s.addTo LOADER.MRAM_CE_CNT.f 0 = { s with regs := (s.addTo LOADER.MRAM_CE_CNT.f 0).regs } := rfl
  rw [u]
  simp only [State.mramScan, State.mramPoison, f, State.onlyIf]
  rw [q, hr]
  simp

/-- The signed images pass. -/
theorem partPasses : (partState.checkImage (partState.stagingSrc partImage.length) (.part partImage.length)).1 = 0 := by
  rw [show partState.stagingSrc partImage.length = partSrc from stagingSrc_partState partImage,
    checkImage_passes partState partSrc (.part partImage.length) 2 384 3 _ _ (by decide +kernel) (by decide +kernel)
    (by decide +kernel) rfl rfl (by decide +kernel) (by decide +kernel) (by decide +kernel)]
theorem endPasses :
    let u := (endState.mramUpsets (slotBase 2) []).mramScan (slotBase 2) fullImage.length
    (u.checkImage (u.slotSrc 2 fullImage.length ((fullImage.take 64).take fullImage.length)) (.slotEnd fullImage.length)).1 = 0 := by
  have e : (endState.mramUpsets (slotBase 2) []).mramScan (slotBase 2) fullImage.length = endState :=
    mramScan_clean endState _ _ rfl (by decide +kernel)
  rw [e]
  dsimp only
  rw [show endState.slotSrc 2 fullImage.length ((fullImage.take 64).take fullImage.length) = endSrc from
    slotSrc_endState fullImage (by decide +kernel), checkImage_passes endState endSrc (.slotEnd fullImage.length) 8 800 0xFF _ _ (by decide +kernel)
    (by decide +kernel) (by decide +kernel) rfl rfl (by decide +kernel) (by decide +kernel) (by decide +kernel)]

theorem witness_SlotWrites :
    ((taken .loader (cmd 1 1 [2]) (regs hot)).loaderHead 1 = some (cmd 1 1 [2]) ∧
      (taken .loader (cmd 1 1 [2]) (regs hot)).mramRefused = true) ∧
    ((taken .loader (cmd 1 1 [2]) (regs [(THERM.THERM_STAT_MRAM_WRITE_OK.f, 1)])).mramRefused = false ∧
      (taken .loader (cmd 1 1 [2]) (regs [(THERM.THERM_STAT_MRAM_WRITE_OK.f, 1)])).loaderHead 1 = some (cmd 1 1 [2])) ∧
    ((chunkState 3145728 1 true []).loaderHead 2 = some (cmd 1 2 [1]) ∧
      (chunkState 3145728 1 true []).loader.write = some ⟨2, 3145728, List.replicate 64 1⟩ ∧ 3145728 < 3145728 + 1) ∧
    ((chunkState 60 16 true []).loaderHead 2 = some (cmd 1 2 [16]) ∧ (chunkState 60 16 true []).stagingBad 16 = none ∧
      (chunkState 60 16 true []).mramRefused = false ∧ 60 + 16 ≤ 3145728) ∧
    ((chunkState 3145712 16 true []).stagingBad 16 = none ∧ (chunkState 3145712 16 true hot).mramRefused = true ∧
      3145712 + 16 ≤ 3145728) ∧
    ((chunkState 0 1 false []).loaderHead 2 = some (cmd 1 2 [1]) ∧ ((chunkState 0 1 false []).stagingBad 1).isSome = true) ∧
    ((taken .loader (cmd 1 3 []) (chunkState 0 1 true [])).loader.write.isSome = true ∧
      (endState.loaderHead 3 = some (cmd 1 3 []) ∧ endState.loader.write = some ⟨2, fullImage.length, fullImage.take 64⟩ ∧
        endState.mramRefused = false)) ∧
    ((taken .loader (cmd 1 3 []) s0).loaderHead 3 = some (cmd 1 3 []) ∧ s0.loader.write = none ∧
      (taken .loader (cmd 1 2 [1]) s0).loaderHead 2 = some (cmd 1 2 [1])) :=
  ⟨by decide, by decide, by decide +kernel, by decide +kernel, by decide +kernel, by decide +kernel,
    ⟨by decide +kernel, by decide +kernel, by decide +kernel, by decide +kernel⟩, by decide⟩

/-- An empty slot's end fails, and so does that of a short image with a lost word. -/
theorem witness_SlotWrites_code :
    (let u := ((taken .loader (cmd 1 3 []) (chunkState 0 1 true [])).mramUpsets (slotBase 2) []).mramScan (slotBase 2) 0;
      (u.checkImage (u.slotSrc 2 0 []) (.slotEnd 0)).1 ≠ 0) ∧
    (let u := ((endStateOf (List.replicate 72 1)).mramUpsets (slotBase 2) [(8, .multi)]).mramScan (slotBase 2) 72;
      (u.checkImage (u.slotSrc 2 72 (List.replicate 64 1)) (.slotEnd 72)).1 ≠ 0) := by
  decide +kernel

/-- A boot load tries the slots of the list. -/
def bootState (l : List Nat) : State := { s0 with ctx := { s0.ctx with ready := true }, loader := { s0.loader with toTry := l } }
def someImage : Image :=
  { slot := 1, serial := 9, lock := true, debug := false, key := 0
    sections := [0, 1, 2, 3].map (fun r => (⟨1, r, mapOff r⟩ : Section)) ++ [⟨5, 0xFF, leBytes 4 16 ++ leBytes 4 20 ++ leBytes 4 16 ++ leBytes 4 0 ++
      List.replicate 16 1⟩] }
def acceptedState : State := { s0 with loader := { s0.loader with accepted := some someImage } }
def thePart : Partial := { region := 3, tilemap := mapOff 3, datapath := none, reginit := [] }
def outageState : State :=
  let s := taken .loader (cmd 1 0 [384]) s0
  { s with loader := { s.loader with part := some thePart, retained := some blankImage } }

theorem witness_BootAndPartialLoads :
    ((bootState [3]).booting = true ∧ (bootState [3]).loader.toTry = [3]) ∧
    ((bootState [1, 2]).booting = true ∧ (bootState [1, 2]).loader.toTry = [1, 2] ∧ [2] ≠ ([] : List Nat)) ∧
    (acceptedState.loader.accepted = some someImage ∧ acceptedState.d0Up = true ∧ acceptedState.power.wake = none ∧
      (retainedOf someImage).reginit = [] ∧ (sectionOf someImage.sections 5).isSome = true) ∧
    ((taken .loader (cmd 1 0 [3]) s0).loaderHead 0 = some (cmd 1 0 [3]) ∧
      (taken .loader (cmd 1 0 [3]) s0).checkImage ((taken .loader (cmd 1 0 [3]) s0).stagingSrc 3) (.part 3) ≠ (0, [])) ∧
    (partState.loaderHead 0 = some (cmd 1 0 [partImage.length]) ∧ (partSrc.run 0 64).getD 0x0C 0 = 3 ∧
      partState.gated 3 = false ∧ partState.dieUp 1 = true ∧ (partState.setDie 1 { (partState.die 1) with inReset := true }).dieUp 1 = false) ∧
    (outageState.loader.part = some thePart ∧ thePart.region = (3 : Region).val ∧ thePart.reginit = [] ∧ outageState.power.wait = none ∧
      outageState.headIs .loader 1 0 = some (cmd 1 0 [384])) := by decide +kernel

theorem witness_BootAndPartialLoads_slots :
    let read (l : List Nat) (slot : Nat) (es : List (Nat × WordErr)) : Nat × Option Image :=
      let m := (bootState l).mramUpsets (slotBase slot) es
      (m.mramScan (slotBase slot) (m.slotLength slot)).slotImage slot
    (∃ img, (read [3] 3 []).2 = some img) ∧ (read [1, 2] 1 []).2 = none ∧ (read [2] 2 []).2 = none :=
  ⟨⟨_, rfl⟩, rfl, rfl⟩

/-! ### Witnesses: queues -/

/-- An enabled, running lane 7 in lock, its stream b on host lane 15, which is LOCKED. -/
def wired : State :=
  regs [(GLOBAL.MODE_LANE_EN.f, 255), (LINE.SYNC_STAT_SYNC_LOCK.f 7, 1), (LINE.RX_STATE_STATE.f 7, 9), (HOST.HCTL_ENABLED.f 15, 1),
    (HOST.HSTATE_RX_STATE.f 15, 2), (LINE.TX_STATE_SQ_REASON.f 7, 0), (PORT.PCFG_MAPPED.f 7, 1), (PORT.PCFG_HOST_A.f 7, 14),
    (PORT.PCFG_HOST_B.f 7, 15)]
/-- Queue `q` holds `k` copies of `e`. -/
def holding (q : QueueId) (e : QEntry) (k : Nat) (s : State) : State :=
  s.setQueue q { (s.queue q) with credits := q.kind.depth - k, entries := List.replicate k e }
def queueState (q : QueueId) (e : QEntry) (k : Nat) : State := holding q e k wired
def sample : QEntry := ⟨.samples (List.replicate 136 0) 0, false⟩
def word : QEntry := ⟨.command (List.replicate 8 0), false⟩
def toSend : QEntry := ⟨.toSend 0 0, false⟩
def request : QEntry := ⟨.request 0 false, false⟩

/-- An entry of queue `q` can be sent. -/
def sends (s : State) (q : QueueId) (e : QEntry) : Bool :=
  s.queueRuns q && QueueKind.carries q.kind e.data && !s.drainStops q && (s.queue q).conserved q.kind

def burst : QEntry := ⟨.burst (List.replicate 64 3), false⟩
def store : QEntry := ⟨.request 64 true, false⟩
def symbols : QEntry := ⟨.host 5 false, false⟩
/-- A row of stream a waits for the line; 128 bits of stream b for the host. -/
def rowState : State := wired.setPort 7 { wired.port 7 with rowsA := [toSend], rowTurnB := false, outB := List.replicate 128 true }
def inModeR (s : State) : State := put s [(GLOBAL.MODE_MODE_R.f, 128)]

theorem witness_CreditQueues :
    (∀ q ∈ [(⟨.cmdRing, 0⟩ : QueueId)], sends (queueState q word 63) q word = true ∧ ((queueState q word 63).queue q).credits = 1 ∧
      q.kind ∉ [QueueKind.adcFfe, .hostRx, .d0Link, .hostTx]) ∧
    (sends (queueState ⟨.adcFfe, 7⟩ sample 15) ⟨.adcFfe, 7⟩ sample = true ∧ ((queueState ⟨.adcFfe, 7⟩ sample 15).queue ⟨.adcFfe, 7⟩).credits = 1) ∧
    (sends (queueState ⟨.hostRx, 15⟩ symbols 1) ⟨.hostRx, 15⟩ symbols = true ∧
      ((queueState ⟨.hostRx, 15⟩ symbols 1).queue ⟨.hostRx, 15⟩).credits ≠ 0) ∧
    (sends rowState ⟨.d0Link, 7⟩ toSend = true ∧ (rowState.queue ⟨.d0Link, 7⟩).credits ≠ 0 ∧ rowState.modeR 7 = false ∧
      (if (rowState.port 7).rowTurnB then (rowState.port 7).rowsB else (rowState.port 7).rowsA) = [toSend] ∧
      ((holding ⟨.linkTxp, 7⟩ toSend QueueKind.linkTxp.depth rowState).queue ⟨.linkTxp, 7⟩).credits = 0) ∧
    (sends (inModeR wired) ⟨.d0Link, 7⟩ toSend = true ∧ ((inModeR wired).queue ⟨.d0Link, 7⟩).credits ≠ 0 ∧ (inModeR wired).modeR 7 = true) ∧
    (sends rowState ⟨.hostTx, 15⟩ symbols = true ∧ (rowState.queue ⟨.hostTx, 15⟩).credits ≠ 0 ∧ rowState.hostRole 15 = some (7, true) ∧
      rowState.streamHost 7 true = some 15 ∧ 128 ≤ (rowState.outBits 7 true).length) ∧
    (sends (inModeR wired) ⟨.hostTx, 15⟩ symbols = true ∧ ((inModeR wired).queue ⟨.hostTx, 15⟩).credits ≠ 0 ∧
      (inModeR wired).hostRole 15 = some (7, true)) ∧
    (sends (queueState ⟨.memRet, 0⟩ burst 1) ⟨.memRet, 0⟩ burst = true ∧ ((queueState ⟨.memRet, 0⟩ burst 1).queue ⟨.memRet, 0⟩).credits ≠ 0) ∧
    (sends (queueState ⟨.ctxReq, 0⟩ request 15) ⟨.ctxReq, 0⟩ request = true ∧
      ((queueState ⟨.ctxReq, 0⟩ request 15).queue ⟨.ctxReq, 0⟩).credits = 1 ∧
      (((queueState ⟨.ctxReq, 0⟩ request 15).queue ⟨.ctxReq, 0⟩).entries ++ [request]).head? = some request ∧
      ((queueState ⟨.ctxReq, 0⟩ request 15).queue ⟨.memRet, 0⟩).credits ≠ 0 ∧
      (let s := holding ⟨.memRet, 0⟩ burst QueueKind.memRet.depth (queueState ⟨.ctxReq, 0⟩ request 15);
        sends s ⟨.ctxReq, 0⟩ request = true ∧ (s.queue ⟨.memRet, 0⟩).credits = 0) ∧
      sends wired ⟨.ctxReq, 0⟩ store = true ∧ (((wired.queue ⟨.ctxReq, 0⟩).entries ++ [store]).head? = some store)) ∧
    (sends (queueState ⟨.cmdRing, 0⟩ word 64) ⟨.cmdRing, 0⟩ word = true ∧ ((queueState ⟨.cmdRing, 0⟩ word 64).queue ⟨.cmdRing, 0⟩).credits = 0) ∧
    (sends (queueState ⟨.ctxReq, 0⟩ request 16) ⟨.ctxReq, 0⟩ request = true ∧
      ((queueState ⟨.ctxReq, 0⟩ request 16).queue ⟨.ctxReq, 0⟩).credits = 0) ∧
    (sends (queueState ⟨.adcFfe, 7⟩ sample 16) ⟨.adcFfe, 7⟩ sample = true ∧ sends (queueState ⟨.linkTxp, 7⟩ toSend QueueKind.linkTxp.depth) ⟨.linkTxp, 7⟩ toSend = true) ∧
    (∀ q ∈ [(⟨.adcFfe, 7⟩ : QueueId), ⟨.linkTxp, 7⟩, ⟨.d0Link, 7⟩, ⟨.hostTx, 15⟩], wired.queueRuns q = true ∧
      wired.consumerActive q = true ∧ (wired.queue q).entries = []) ∧ (wired.hostRole 15).isSome = true ∧
    ((applyState readingD3).queueRuns ⟨.memRet, 0⟩ = true ∧ (applyState readingD3).consumerActive ⟨.memRet, 0⟩ = true ∧
      (applyState (applyOf .transfer)).queueRuns ⟨.ctxPort, 0⟩ = true ∧
      (applyState (applyOf .transfer)).consumerActive ⟨.ctxPort, 0⟩ = true) ∧
    (s0.monitorServed ⟨.linkTxp, 7⟩ = true ∧ s0.monitorServed ⟨.hostRx, 15⟩ = true ∧ s0.d0Up = true) := by
  refine ⟨?_, ?_, ?_, ?_, ?_, ?_, ?_, ?_, ?_, ?_, ?_, ?_, ?_, ?_, ?_, ?_⟩ <;> (try dsimp only) <;> decide +kernel

/-! ### Witnesses: the line receiver -/

theorem witness_FactoryPeerIdNeverEqualsAHostId : (0x7FFFFFFF#32).getLsbD 31 = false := by decide

/-- Lane 7 enabled in receive state `r`, with light, and register fields written. -/
def rxState (r : RxState) (xs : List (Fld × Nat)) : State :=
  regs ([(GLOBAL.MODE_LANE_EN.f, 255), (LINE.RX_STATE_STATE.f 7, r.code), (LINE.RX_STATE_LIGHT.f 7, 1)] ++ xs)
def l7 (f : LaneSt → LaneSt) (s : State) : State := s.setLane 7 (f (s.lane 7))

def rx7 (f : RxPath → RxPath) (s : State) : State := l7 (fun l => { l with rxp := f l.rxp }) s

/-- Sixteen votes, `k` of them `p` and the others 0. -/
def votes (k : Nat) (p : Int) : List Int := List.replicate k p ++ List.replicate (16 - k) 0

theorem witness_CdrLockAfterFourQuietWindows :
    (((rxState .cdr []).lane 7).rxp.voteN = 0 ∧ ((rxState .cdr []).lane 7).rxp.voteSum = 0) ∧
    ((votes 4 1).length = 16 ∧ (votes 4 1).sum.natAbs ≤ 4 ∧ (votes 4 (-1)).length = 16 ∧ (votes 4 (-1)).sum.natAbs ≤ 4) ∧
    ((votes 12 (-1)).length = 16 ∧ 12 ≤ (votes 12 (-1)).sum.natAbs) ∧
    ((votes 5 1).length = 16 ∧ 4 < (votes 5 1).sum.natAbs ∧ (votes 11 1).length = 16 ∧ 4 < (votes 11 1).sum.natAbs ∧
      (votes 11 1).sum.natAbs < 12) := by decide +kernel

/-- The exit measure of BLIND or DD holds `k` positions with sum `m`. -/
def exitState (r : RxState) (k m : Nat) : State := rx7 (fun x => { x with exitN := k, exitSum := m }) (rxState r [(LINE.DETECT_LEVEL_UNIT.f 7, 16)])
def gainState (r : RxState) (k track : Nat) : State := rx7 (fun x => { x with agcN := k }) (rxState r [(LINE.RX_CTL_AGC_TRACK.f 7, track)])
/-- Every sub-ADC has been sampled. -/
def sampledState (r : RxState) (freeze : Nat) : State :=
  rx7 (fun x => { x with subs := List.replicate 64 ⟨1, 0, 0, 0⟩ }) (rxState r [(LINE.RX_CTL_TRACK_FREEZE.f 7, freeze)])

theorem witness_AcquisitionMovesThroughItsStates :
    ((rxState .track []).laneOn 7 = true ∧ (rxState .track []).laneRuns 7 = true ∧ (rxState .track []).restartWaits 7 = false ∧
      (rxState .track []).rx 7 = .track) ∧
    ((rxState .idwait []).laneOn 7 = true ∧ (rxState .idwait []).laneRuns 7 = true ∧ (rxState .idwait []).restartWaits 7 = false ∧
      (rxState .idwait []).rx 7 = .idwait) ∧
    ((l7 (fun l => { l with loading := true }) (rxState .idwait [])).laneOn 7 = true ∧
      (l7 (fun l => { l with loading := true }) (rxState .idwait [])).laneRuns 7 = true ∧
      (l7 (fun l => { l with loading := true }) (rxState .idwait [])).restartWaits 7 = true ∧
      (l7 (fun l => { l with loading := true }) (rxState .idwait [])).rx 7 ≠ .off) ∧
    (∀ k ∈ [255, 256], (rx7 (fun x => { x with lockHeld := k }) (rxState .cdr [])).rx 7 = .cdr ∧
      ((rx7 (fun x => { x with lockHeld := k }) (rxState .cdr [])).lane 7).rxp.lockHeld = k) ∧
    (∀ p ∈ [(4095, 4095), (4096, 3686), (4096, 3687)], (exitState .blind p.1 p.2).rx 7 = .blind ∧
      ((exitState .blind p.1 p.2).lane 7).rxp.exitN = p.1 ∧ ((exitState .blind p.1 p.2).lane 7).rxp.exitSum = p.2) ∧
    (9 * 4096 ≤ 10 * 3687 ∧ 10 * 3686 < 9 * 4096) ∧
    (∀ p ∈ [(16383, 0), (16384, 17179869184), (16384, 17179869185)], (exitState .dd p.1 p.2).rx 7 = .dd ∧
      ((exitState .dd p.1 p.2).lane 7).rxp.exitN = p.1 ∧ ((exitState .dd p.1 p.2).lane 7).rxp.exitSum = p.2 ∧
      (exitState .dd p.1 p.2).get (LINE.DETECT_LEVEL_UNIT.f 7) = 16) ∧
    (16 * 17179869184 ≤ 16384 * (256 * 16) ^ 2 ∧ 16384 * (256 * 16) ^ 2 < 16 * 17179869185) ∧
    (rxState .train []).rx 7 = .train ∧
    (((rxState .search []).rx 7).timed = true ∧ (rxState .search []).replacing 7 = false ∧ (rxState .search []).reloading 3 = false) ∧
    ((rxState .warm []).rx 7 = .warm ∧ (rxState .warm []).replacing 7 = false) ∧
    (∀ p ∈ [(256, RxState.gain, 0), (256, .track, 0), (256, .track, 1), (255, .gain, 0)],
      ((gainState p.2.1 p.1 p.2.2).lane 7).rxp.agcN = p.1 ∧ (gainState p.2.1 p.1 p.2.2).rx 7 = p.2.1 ∧
      (gainState p.2.1 p.1 p.2.2).getB (LINE.RX_CTL_AGC_TRACK.f 7) = decide (p.2.2 = 1)) ∧
    (∀ r ∈ [RxState.cal, .track, .warm, .search], ∀ z ∈ [0, 1], (sampledState r z).rx 7 = r ∧
      ((sampledState r z).lane 7).rxp.subs.all (fun a => decide (0 < a.n)) = true ∧
      (sampledState r z).getB (LINE.RX_CTL_TRACK_FREEZE.f 7) = decide (z = 1)) := by
  refine ⟨?_, ?_, ?_, ?_, ?_, ?_, ?_, ?_, ?_, ?_, ?_, ?_, ?_⟩ <;> decide +kernel

/-- The configuration gives lane 7 the chain T0, T1; tile 85 is its second. -/
def chainMap : List Nat := List.replicate 0x28 0 ++ [1, 2, 0, 1, 255, 255, 255, 255, 0, 0] ++ List.replicate 14 0
def chainState : State :=
  let s := rxState .track [(TILE.TILE_INFO_FN.f 85, 1), (TILE.TILE_INFO_SERVES.f 85, 7), (TILE.TILE_INFO_STANDS_FOR.f 85, 15)]
  { s with loader := { s.loader with retained := some { blankImage with tilemaps := [[], [], [], chainMap] } } }
def timerState (rise : Bool) (r : RxState) : State := l7 (fun l => { l with lightTimer := some ⟨rise, 2 ^ 32 + 5⟩ }) (rxState r [])

theorem witness_ReceiveMeasurementsAndLight :
    (chainState.laneRuns (tileLane 85) = true ∧ chainState.tileFailed 85 = false ∧ chainState.get (TILE.TILE_INFO_FN.f 85) = 1 ∧
      chainState.chainPos 85 = some (7, 1) ∧ (chainState.lane 7).loading = false) ∧
    ((11 : Fin 16).val < 12 ∧ 12 ≤ (12 : Fin 16).val) ∧
    (s0.laneServed 7 = true ∧ s0.laneRuns 7 = true ∧ s0.parked 7 = false) ∧
    ((regs [(PWR.PWR_STAT_PARKED.f, 128)]).laneServed 7 = true ∧ (regs [(PWR.PWR_STAT_PARKED.f, 128)]).parked 7 = true) ∧
    ((regs [(LINE.HIST_STAT_BUSY.f 7, 1)]).getB (LINE.HIST_STAT_BUSY.f 7) = true ∧
      ((regs [(LINE.HIST_STAT_BUSY.f 7, 1)]).lane 7).histoLeft = 0 ∧
      ((l7 (fun l => { l with histoLeft := 1 }) s0).lane 7).histoLeft ≠ 0) ∧
    ((timerState true .dark).laneServed 7 = true ∧ ((timerState true .dark).lane 7).lightTimer = some ⟨true, 2 ^ 32 + 5⟩ ∧
      (timerState true .dark).parked 7 = false ∧ (timerState true .dark).parking 7 (timerState true .dark).groupLanes = false ∧
      (timerState true .dark).laneOn 7 = true ∧ (timerState true .dark).rx 7 = .dark ∧ (timerState true .dark).unsched 7 = false) ∧
    (∀ r ∈ [RxState.track, .idwait], (timerState false r).laneServed 7 = true ∧ (timerState false r).rx 7 = r ∧
      ((timerState false r).lane 7).lightTimer = some ⟨false, 2 ^ 32 + 5⟩) := by
  refine ⟨?_, ?_, ?_, ?_, ?_, ?_, ?_⟩ <;> decide +kernel

/-- The envelope clauses exclude each other by their form: at TH_ON a falling lane stays above, one step under TH_OFF it does not. -/
theorem witness_ReceiveMeasurementsAndLight_envelope : s0.laneServed 7 = true ∧ s0.getB (BCN.ENV_STAT_ABOVE.f 7) = false ∧
    s0.get (BCN.ENV_TH_TH_ON.f 7) < 2 ^ 16 := by decide

/-- Lane 7 in lock, in mode T or R, with 8 or 7 codewords lost. -/
def lockState (lost : Nat) (xs : List (Fld × Nat)) : State :=
  rxState .track ([(LINE.SYNC_STAT_SYNC_LOCK.f 7, 1), (LINE.SYNC_WIN_LOSS_COUNT.f 7, lost)] ++ xs)
/-- Lane 7 searching, with a run of 64 at offset 135. -/
def searchState : State := l7 (fun l => { l with runs := [(134, ⟨63, true, none⟩), (135, ⟨64, true, none⟩)] }) (rxState .search [])

/-- A word at the head of the decoders' queue, with one before it. -/
def softState (s : State) : State :=
  holding ⟨.mlseDec, 7⟩ ⟨.soft 5 (List.replicate 272 15), false⟩ 1 (rx7 (fun x => { x with prev := some ⟨9, List.replicate 272 1, false⟩ }) s)
def softW : SoftWord := ⟨5, List.replicate 272 15, false⟩

theorem witness_CodewordsAndLocks :
    (let s := softState (lockState 7 [(LINE.SYNC_STAT_OFFSET.f 7, 135)]);
      s.laneRuns 7 = true ∧ s.reloading 3 = false ∧ (s.lane 7).faulted = false ∧ s.softHead 7 = some softW ∧ s.syncLock 7 = true ∧
      s.get (LINE.SYNC_WIN_LOSS_COUNT.f 7) < 8 ∧ s.modeR 7 = false ∧ s.canPush ⟨.decLink, 7⟩ = true ∧
      (SoftWord.cut (s.get (LINE.SYNC_STAT_OFFSET.f 7)) (s.lane 7).rxp.prev softW).isSome = true) ∧
    (let s := holding ⟨.decLink, 7⟩ sample QueueKind.decLink.depth (softState (lockState 7 []));
      s.laneRuns 7 = true ∧ (s.lane 7).faulted = false ∧ s.softHead 7 = some softW ∧ s.delivers 7 = true ∧ s.canPush ⟨.decLink, 7⟩ = false) ∧
    (let s := softState searchState;
      s.laneRuns 7 = true ∧ s.reloading 3 = false ∧ (s.lane 7).faulted = false ∧ s.softHead 7 = some softW ∧ s.syncLock 7 = false ∧
      s.searching 7 = true ∧ 135 < 136 ∧ (SoftWord.cut 135 (s.lane 7).rxp.prev softW).isSome = true ∧
      SoftWord.cut 135 ((rxState .search []).lane 7).rxp.prev softW = none) ∧ (lockState 7 []).softHead 7 = none ∧
    (searchState.light 7 = true ∧ searchState.lockOffset 7 = some 135) ∧
    ((lockState 8 []).syncLock 7 = true ∧ 8 ≤ (lockState 8 []).get (LINE.SYNC_WIN_LOSS_COUNT.f 7) ∧ (lockState 8 []).rx 7 = .track) ∧
    ((lockState 7 [(LINE.SYNC_STAT_GROUP_LOCK.f 7, 1), (LINE.SYNC_WIN_GROUP_MISS.f 7, 3)]).groupLock 7 = true ∧
      3 ≤ (lockState 7 [(LINE.SYNC_STAT_GROUP_LOCK.f 7, 1), (LINE.SYNC_WIN_GROUP_MISS.f 7, 3)]).get (LINE.SYNC_WIN_GROUP_MISS.f 7) ∧
      8 ≤ (lockState 8 [(LINE.SYNC_STAT_GROUP_LOCK.f 7, 1), (LINE.SYNC_WIN_GROUP_MISS.f 7, 3)]).get (LINE.SYNC_WIN_LOSS_COUNT.f 7)) ∧
    (let s := l7 (fun l => { l with noGroup := 340 }) (lockState 0 [(GLOBAL.MODE_MODE_R.f, 128)]);
      s.modeR 7 = true ∧ s.syncLock 7 = true ∧ s.groupLock 7 = false ∧ 340 ≤ (s.lane 7).noGroup) := by
  refine ⟨?_, ?_, ?_, ?_, ?_, ?_, ?_, ?_⟩ <;> (try dsimp only) <;> decide +kernel

/-! ### Witnesses: the line transmitter -/

/-- Lane 7 with no reason to squelch, its output squelched or not, an entry to send or none. -/
def txState (sq : Nat) (es : List QEntry) : State :=
  let s := rxState .track [(LINE.TX_STATE_SQ_REASON.f 7, 0), (LINE.TX_STATE_SQUELCHED.f 7, sq)]
  (l7 (fun l => { l with tx := { l.tx with lastB := true } }) s).setQueue ⟨.linkTxp, 7⟩ { (s.queue ⟨.linkTxp, 7⟩) with entries := es }

def tx7 (f : TxHalf → TxHalf) (s : State) : State := l7 (fun l => { l with tx := f l.tx }) s

theorem witness_TransmittedCodewords :
    ((2 ^ 256 - 1 : Nat) < 2 ^ 256 ∧ 3 < 4) ∧
    ((txState 0 [toSend]).txRuns 7 = true ∧ ((txState 0 [toSend]).queue ⟨.linkTxp, 7⟩).entries = [⟨.toSend 0 0, false⟩]) ∧
    ((txState 0 []).txRuns 7 = true ∧ ((txState 0 []).queue ⟨.linkTxp, 7⟩).entries = []) ∧
    ((txState 0 []).squelched 7 = false ∧ (∀ k ∈ [0, 2], ((tx7 (fun x => { x with sent := k }) (txState 0 [])).lane 7).tx.sent = k) ∧
      ((tx7 (fun x => { x with commitPending := true }) (txState 0 [])).lane 7).tx.commitPending = true ∧
      ((tx7 (fun x => { x with commitPending := true }) (txState 0 [])).lane 7).tx.txLoad = none) ∧
    (regs [(LINE.TX_STATE_SQ_REASON.f 7, 1)]).txRuns 7 = false ∧ s0.laneServed 7 = true ∧
    ((put (txState 0 []) [(LINE.TX_STATE_SQ_REASON.f 7, 32)]).reasons 7 ≠ 0 ∧
      (put (txState 0 []) [(LINE.TX_STATE_SQ_REASON.f 7, 32)]).squelched 7 = false) ∧
    ((txState 0 []).reasons 7 = 0 ∧ (txState 1 []).squelched 7 = true) ∧
    ((txState 1 []).reasons 7 = 0 ∧ (txState 1 []).txRuns 7 = true ∧ (txState 1 []).nextTxB 7 = false) ∧
    ((regs [(LINE.TX_CTL_PATTERN.f 7, 4)]).get (LINE.TX_CTL_PATTERN.f 7) = (4#3).toNat ∧ s0.get (LINE.TX_CTL_PATTERN.f 7) ≠ (4#3).toNat) ∧
    ((txState 0 []).laneRuns 7 = true ∧ (txState 0 []).tileFailed (clusterTile 7 10) = false ∧ ((txState 0 []).lane 7).loading = false ∧
      (txState 0 []).squelched 7 = false ∧ ((l7 (fun l => { l with loading := true }) (txState 0 [])).lane 7).loading = true ∧
      ((txState 0 []).lane 7).tx.txLoad = none ∧ (txState 1 []).squelched 7 = true ∧
      ((tx7 (fun x => { x with txLoad := some (trainedFrom [], false) }) (txState 0 [])).lane 7).tx.txLoad.isSome = true) := by
  refine ⟨?_, ?_, ?_, ?_, ?_, ?_, ?_, ?_, ?_, ?_, ?_, ?_⟩ <;> decide +kernel

/-! ### Witnesses: host lanes and ports -/

/-- Host lane 15 in receiver state `r`; lane 7 in mode R with its ports of breakout. -/
def hostState (r : Nat) : State := regs [(HOST.HCTL_ENABLED.f 15, 1), (HOST.HSTATE_RX_STATE.f 15, r)]
def portState (xs : List (Fld × Nat)) : State :=
  regs ([(GLOBAL.MODE_MODE_R.f, 128), (PORT.PCFG_BREAKOUT.f 7, 1), (PORT.PCFG_MAPPED.f 7, 1), (PORT.PSTAT_AM_LOCK_B.f 7, 1)] ++ xs)
def sideB (f : PortSide → PortSide) (s : State) : State := s.setSide 7 true (f (s.side 7 true))
def mappedHosts : List (Fld × Nat) := (List.range 16).map (fun h => (HOST.HSTATE_RX_STATE.f h, 2))
def opened (s : State) : State := s.setPort 7 { s.port 7 with awaitA := false, awaitB := false }
def bothLocks : List (Fld × Nat) := [(LINE.SYNC_STAT_SYNC_LOCK.f 7, 1), (LINE.SYNC_STAT_GROUP_LOCK.f 7, 1), (LINE.SYNC_WIN_GROUP_MISS.f 7, 2)]

/-- A codeword of zeros with `k` symbols of value 1 at its end, complete at the receive of port b; one complete at a received stream, flagged
or not; one at the monitor. -/
def cwState (k : Nat) : State :=
  sideB (fun x => { x with dec := { x.dec with cws := [List.replicate (544 - k) 0 ++ List.replicate k 1] } }) (portState [])
def lineState (xs : List (Fld × Nat)) (flag : Bool) : State :=
  let s := portState xs
  s.setPort 7 { s.port 7 with awaitA := false, awaitB := false, decB := { (s.port 7).decB with cws := [(List.replicate 5440 false, flag, true)] } }
def monState : State :=
  let s := regs [(PORT.PCFG_BREAKOUT.f 7, 1), (PORT.PCFG_MAPPED.f 7, 1)]
  sideB (fun x => { x with mon := { x.mon with cws := [true] } }) s

theorem witness_HostLanesAndPorts :
    ((hostState 1).d0Up = true ∧ (hostState 1).get (HOST.HSTATE_RX_STATE.f 15) = 1 ∧ (hostState 2).get (HOST.HSTATE_RX_STATE.f 15) = 2 ∧
      (hostState 0).get (HOST.HSTATE_RX_STATE.f 15) = 0) ∧
    (let s := put wired [(HOST.HSTATE_RX_STATE.f 14, 1)];
      s.hostRole 14 = some (7, false) ∧ s.timesLane 14 7 = true ∧ s.txEnabled 7 = true) ∧
    ((portState []).d0Up = true ∧ (portState []).amLock 7 ((portState []).sideOf 7 true) = true ∧ (portState []).modeR 7 = true ∧
      ((portState []).side 7 true).dec.next (!(portState []).breakout 7) = none ∧ (cwState 1).modeR 7 = true ∧
      (cwState 1).amLock 7 ((cwState 1).sideOf 7 true) = true) ∧
    ((portState []).getB (PORT.PCFG_MAPPED.f 7) = true ∧ monState.getB (PORT.PCFG_MAPPED.f 7) = true ∧ monState.modeR 7 = false) ∧
    (let s := sideB (fun x => { x with hostGap := true }) (portState mappedHosts);
      (s.side 7 (s.sideOf 7 true)).hostGap = true ∧ s.amLock 7 (s.sideOf 7 true) = true ∧
      (s.sideHosts 7 (s.sideOf 7 true)).all (fun h => s.hostLocked h) = true) ∧
    (let x : PortSide := (portState []).side 7 true;
      x.hostGap = true ∧ x.txFifo.length < 512 ∧ isClean .idle = true ∧ isClean .eblock = false ∧ x.txResume = false ∧
      ({ x with txResume := true } : PortSide).txResume = true) ∧
    ((lineState [((nmState true).f 7, 1)] true).modeR 7 = true ∧ (lineState [((nmState true).f 7, 1)] true).nmSt 7 true ≠ 0) ∧
    (let s := sideB (fun x => { x with nmDiscard := false, ovfSkip := false, nm := List.replicate 3560 (.idle, false) })
        (lineState [((nmState true).f 7, 0)] true);
      s.nmSt 7 true = 0 ∧ s.breakout 7 = true ∧ s.awaiting 7 true = false ∧ (s.side 7 true).ovfSkip = false ∧
      (s.side 7 true).nmDiscard = false ∧ (s.side 7 true).nm.length + 80 ≤ s.nmCap 7) ∧
    ((portState []).port 7).decB.next = none ∧
    (monState.d0Up = true ∧ (monState.side 7 (monState.sideOf 7 true)).mon.cws = [true]) ∧
    ((portState [((nmState true).f 7, 1)]).nmSt 7 true = 1 ∧ (portState bothLocks).locksHeld 7 = true ∧
      (portState [((nmState true).f 7, 1)]).locksHeld 7 = false ∧ (portState [((nmState true).f 7, 0)]).nmSt 7 true = 0) ∧
    (let s := sideB (fun x => { x with gapCause := some .lockLoss }) (portState (((nmState true).f 7, 1) :: bothLocks));
      s.nmSt 7 true = 1 ∧ s.locksHeld 7 = true ∧ (s.side 7 true).gapCause = some .lockLoss) ∧
    (let s := portState [((nmState true).f 7, 0), (PORT.NM_CFG_RESUME_FILL.f 7, 0)];
      s.modeR 7 = true ∧ s.nmSt 7 true = 0 ∧ s.get (PORT.NM_CFG_RESUME_FILL.f 7) ≤ (s.side 7 true).nm.length) ∧
    ((portState [(PORT.NM_CFG_RESUME_FILL.f 7, 1)]).side 7 true).nm.length < (portState [(PORT.NM_CFG_RESUME_FILL.f 7, 1)]).get (PORT.NM_CFG_RESUME_FILL.f 7) := by
  refine ⟨?_, ?_, ?_, ?_, ?_, ?_, ?_, ?_, ?_, ?_, ?_, ?_, ?_, ?_⟩ <;> (try dsimp only) <;> decide +kernel

/-- A codeword is there to decode at port b, at the line's stream, flagged, and one with sixteen wrong symbols. -/
theorem witness_HostLanesAndPorts_codewords :
    (∃ q d, ((cwState 1).side 7 true).dec.next false = some (q, d)) ∧ (∃ q d, ((cwState 16).side 7 true).dec.next false = some (q, d)) ∧
    (∃ c d, ((lineState [] true).port 7).decB.next = some (c, d) ∧ c.1 = true) := by
  refine ⟨⟨_, _, rfl⟩, ⟨_, _, rfl⟩, ⟨_, _, rfl, ?_⟩⟩
  rfl

/-! ### Witnesses: the beacon -/

/-- Lane 7 not squelched, TX_MODE `m`, the beacon lane changed. -/
def beaconState (m : Nat) (f : BcnLane → BcnLane) (xs : List (Fld × Nat)) : State :=
  let s := rxState .track ([(LINE.TX_STATE_SQUELCHED.f 7, 0), (BCN.TX_CFG_TX_MODE.f 7, m), (TIME.TIME_STAT_TIME_SET.f, 1)] ++ xs)
  s.setBcn 7 (f (s.bcnL 7))
def sending (d : Option Nat) (full : Bool) (tick : Nat) : State :=
  let s := beaconState 2 (fun b => { b with frame := some ⟨full, false, 3, List.replicate 18 0, d, 0⟩ }) []
  { s with time := { s.time with tick := tick } }
def synState (x : SynSt) : State := s0.setSyn 3 x
/-- The beacon receiver of lane 7 with noise at -128 dB and a margin of 1 dB, receiving `f`, at tick 10,000. -/
def hearing (f : Option RxFrame) : State :=
  let s := beaconState 1 (fun b => { b with rx := f }) [(BCN.RX_CFG_SYNC_ERR.f 7, 2), (BCN.RX_CFG_DET_MARGIN.f 7, 4)]
  { s with time := { s.time with tick := 10000 } }
/-- The last 16 symbols of the preamble and the sync word of an ID burst, two of its bits wrong. -/
def hardShort : BitVec 32 := 0xAAAA5CA0#32
/-- A beacon payload of type short that passes its check, and its symbols under 2-FSK. -/
def goodBytes : List Nat := (let b := [0, 0, 0, 5, 0]; b ++ [crc16 b / 256])
def goodBody : List Byte := goodBytes.map (BitVec.ofNat 8)
def goodSymbols : List (BitVec 2) := (byteBits goodBytes).map (fun b => if b then 3#2 else 0#2)

theorem witness_BeaconFramesAndSynthesisers :
    ((beaconState 1 id []).d0Up = true ∧ (beaconState 1 id []).lowest 7 = true ∧ (beaconState 1 id []).get (BCN.TX_CFG_TX_MODE.f 7) = 1 ∧
      (beaconState 1 id []).squelched 7 = false ∧ (beaconState 1 id []).laneRuns 7 = true ∧ ((beaconState 1 id []).bcnL 7).held = none) ∧
    ((beaconState 2 id []).get (BCN.TX_CFG_TX_MODE.f 7) = 2 ∧ (beaconState 0 id []).get (BCN.TX_CFG_TX_MODE.f 7) = 0 ∧
      (put (beaconState 2 id []) [(LINE.TX_STATE_SQUELCHED.f 7, 1)]).squelched 7 = true) ∧
    (let s := (beaconState 2 (fun b => { b with held := some ⟨true, 0⟩ })
        [(SYN.SYN_STAT_LOCKED.f 3, 1), (SYN.SYN_STAT_CH.f 3, 15), (BCN.TX_CH_CH.f 7, 15), (SYN.SYN_STAT_SERVING.f 3, 2)]);
      (s.bcnL 7).held = some ⟨true, 0⟩ ∧ s.canStart 7 = true) ∧
    (((sending none true 0).bcnL 7).frame = some ⟨true, false, 3, List.replicate 18 0, none, 0⟩ ∧
      ((sending (some 0) true 996).bcnL 7).frame = some ⟨true, false, 3, List.replicate 18 0, some 0, 0⟩ ∧
      ((sending (some 0) true 996).convert 0).isSome = true ∧ (sending (some 0) true 996).timeGood = true ∧ (List.replicate 18 0).length = 18 ∧
      (sending (some 0) true 996).time.tick ≤ 0 + 996 ∧ 0 + 996 < (sending (some 0) true 997).time.tick ∧
      ((sending (some 0) true 997).convert 0).isSome = true ∧ (sending (some 0) true 997).timeGood = true) ∧
    (s0.bcnL 7).frame = none ∧ ((synState ⟨some 15, 16⟩).synR 3).hop = some 15 ∧
    (((synState ⟨none, 15⟩).synR 3).bg < 16 ∧ (synState ⟨none, 15⟩).get (SYN.SYN_STAT_SERVING.f 3) = 0 ∧
      ((synState ⟨none, 15⟩).synR 3).hop = none ∧ (synState ⟨none, 15⟩).throttled = false) ∧
    ((beaconState 1 id []).bcnRuns 7 = true ∧ ((beaconState 1 id []).bcnL 7).noiseDirty = false ∧ ((beaconState 1 id []).bcnL 7).rx = none ∧
      ((beaconState 1 (fun b => { b with noiseDirty := true }) []).bcnL 7).noiseDirty = true) ∧
    payloadOk false goodBytes = true ∧ payloadOk false (0 :: goodBytes) = false := by
  refine ⟨?_, ?_, ?_, ?_, ?_, ?_, ?_, ?_, ?_, ?_⟩ <;> (try dsimp only) <;> decide +kernel

/-- A detection at the noise and margin exactly, one below them, one of a stronger later frame, one of the same frame; a valid and a bad
report. -/
theorem witness_BeaconFramesAndSynthesisers_receive :
    ((hearing none).bcnRuns 7 = true ∧ correlate ((hearing none).get (BCN.RX_CFG_SYNC_ERR.f 7)) hardShort.toNat = some false ∧
      correlate ((hearing none).get (BCN.RX_CFG_SYNC_ERR.f 7)) 0 = none) ∧
    ((hearing none).getZ (BCN.NOISE.f 7) + ((hearing none).get (BCN.RX_CFG_DET_MARGIN.f 7) : Int) ≤ (hearing none).beaconPower 7 (2 ^ 16) ∧
      (hearing none).beaconPower 7 0 < (hearing none).getZ (BCN.NOISE.f 7) + ((hearing none).get (BCN.RX_CFG_DET_MARGIN.f 7) : Int)) ∧
    (((hearing (some ⟨true, 9402, -200⟩)).bcnL 7).rx = some ⟨true, 9402, -200⟩ ∧ (hearing none).sameFrame ⟨true, 9402, -200⟩ = false ∧
      (hearing (some ⟨true, 9402, -200⟩)).sameFrame ⟨true, 9402, -200⟩ = false ∧
      (-200 : Int) + 24 ≤ (hearing (some ⟨true, 9402, -200⟩)).beaconPower 7 (2 ^ 16) ∧
      (hearing (some ⟨true, 9403, -200⟩)).sameFrame ⟨true, 9403, -200⟩ = true) ∧
    (let s := hearing (some ⟨false, 9, 1⟩);
      s.bcnRuns 7 = true ∧ (s.bcnL 7).rx = some ⟨false, 9, 1⟩ ∧ s.ident 7 = none ∧ s.getB (BCN.RX_CH_MOD.f 7) = false) ∧
    demodulate false false (goodSymbols.map (·.toNat)) = goodBytes ∧ payloadOk false (demodulate false false []) = false := by
  refine ⟨?_, ?_, ?_, ?_, ?_, ?_⟩ <;> (try dsimp only) <;> decide +kernel

/-! ### Single steps of the spec's worked examples -/

/-- 08_beacon.md R266: the CRC of "123456789". -/
theorem test_beacon_crc : crc16 [0x31, 0x32, 0x33, 0x34, 0x35, 0x36, 0x37, 0x38, 0x39] = 0x29B1 := by decide

/-- 04_inner_code.md, worked example: the parity of the message 0x1234 under cover C0. -/
theorem test_inner_code_encode : encodeWord 0x1234 0 false = 0x12348190 := by decide +kernel

/-- The same codeword with c_240, which is bit 31, in error: one flip corrects it. -/
theorem test_inner_code_hard_decode :
    decodeExpect false 0 (0x12348190 ^^^ 0x80000000) (List.replicate 272 0) =
      { out := 0x12348190, unc := false, rxPoison := false, flips := 1, cover := 0 } := by decide +kernel

/-- 04_inner_code.md, worked example: Gray indices of symbols 120 to 135, and through the precoder from state 0. -/
theorem test_inner_code_precode : (codewordIndices 0x12348190).drop 120 = [0, 1, 0, 3, 0, 2, 1, 0, 3, 0, 0, 1, 3, 1, 0, 0] ∧
    (precodeFrom 0 [0, 1, 0, 3, 0, 2, 1, 0, 3, 0, 0, 1, 3, 1, 0, 0]).1 = [0, 1, 3, 0, 0, 2, 3, 1, 2, 2, 2, 3, 0, 1, 3, 1] := by
  decide +kernel

/-- 05_line_transmit.md, worked example: the FFE with h_1 = -26, h_2 = 208, h_3 = -48; the last sum clips. -/
theorem test_transmit_ffe :
    (let w (next this prev b : Int) := dacSum [0, -26, 208, -48, 0, 0, 0] [0, next, this, prev, 0, 0, 0] 56 (4096 * b);
    (dacCode (w 120 120 120 0), dacCode (w 120 120 120 1), dacCode (w 120 120 (-120) 0), dacCode (w 120 120 (-120) 1),
      dacCode (w (-120) 120 (-120) 0), dacClips (w (-120) 120 (-120) 0)) = (63, 66, 108, 111, 127, true)) := by decide +kernel

/-- 10_engine_housekeeping.md, worked example: the dither of 364 codes/16 at its peak and trough on channel 5. -/
def ditherState (a : Nat) : State :=
  { regs [(HKD.SINE_AMP_AMPLITUDE.f 0 0, 364), (HKD.SINE_TGT_TARGET.f 0 0, 5), (HKD.HKD_STAT_ACTIVE.f 0 5, 2048),
      (HKD.HKD_STAT_CLAMPED.f 0 5, 0)] with hk := { s0.hk with acc := [(0, a)] } }
theorem test_dither_peak : (run .ditherUpdate (ditherState (1023 * 4096))).get (HKD.HKD_STAT_OUT.f 0 5) = 2071 ∧
    (run .ditherUpdate (ditherState (3072 * 4096))).get (HKD.HKD_STAT_OUT.f 0 5) = 2025 := by decide +kernel

/-- 02_bitstream.md, worked example under R77: a device from the factory, slots A and B blank. -/
def factoryBoot : State := run (.bootSlotChecked []) (run (.bootSlotChecked []) (bootState [1, 2, 3]))
theorem test_factory_boot_errors : factoryBoot.get (errFld 1) = 1 ∧ factoryBoot.get (errFld 2) = 1 ∧ factoryBoot.get (errFld 3) = 0 ∧
    factoryBoot.loader.toTry = [3] := by decide +kernel

/-- 07_peer_contexts.md, worked example: the key of slot 291 and its address. -/
theorem test_context_slot_address : slotAddr 291 = 0x4048C000 := by decide

/-- A MGMT read of the word at an address, and a MGMT write of one. -/
def readAt (a : Nat) (s : State) : State := run (.mgmtRead 0x50 4 1) (run (.mgmtWrite 0x50 ((leBytes 4 a).map (BitVec.ofNat 8)) []) s)
def writeAt (a v : Nat) (s : State) : State := run (.mgmtWrite 0x50 ((leBytes 4 a).map (BitVec.ofNat 8)) ((leBytes 4 v).map (BitVec.ofNat 8))) s

/-- 16_register_map.md, worked example: a read of 0x0009_5500 is unassigned and latched with origin 0. -/
theorem test_unassigned_read :
    (readAt 0x95500 s0).getB GLOBAL.G_EVT_UNMAPPED.f = true ∧ (readAt 0x95500 s0).get GLOBAL.UNMAPPED_ADDR_ADDR.f = 0x95500 ∧
    (readAt 0x95500 s0).get GLOBAL.UNMAPPED_INFO_ORIGIN.f = 0 ∧ (readAt 0x95500 s0).mgmt.out.words = [0] := by decide +kernel

/-- 16_register_map.md, worked example: CTR_CFG of counter 5 of bank 2 takes 0x0001_0021. -/
theorem test_counter_config : (readAt 0xF2050 (writeAt 0xF2050 0x10021 s0)).mgmt.out.words = [0x10021] := by decide +kernel

/-- 15_management.md, worked example, steps 1 and 2: IRQ_N is low for source 62 at priority 6, and CLAIM returns it. -/
def nestedState : State :=
  regs [(INTC.SRC_PRIORITY.f 0 62, 6), (INTC.SRC_ENABLE.f 0 62, 1), (LINE.RX_EVT_LOCK_LOST.f 2, 1)]
theorem test_interrupt_claim :
    (run (.irqDelivery 0) nestedState).intc.irqLow = true ∧
    (run .claim (run (.irqDelivery 0) nestedState)).intc.claims = [(62, 6)] ∧
    (run .claim (run (.irqDelivery 0) nestedState)).intc.irqLow = false := by decide +kernel


end Sys2Proof.Tests
end

section
/-!
The factory peer ID (02_bitstream.md R93): its bits, and TX_PEER of every lane at reset.
-/

namespace Sys2Proof.Machine

open Sys2Proof

theorem leBytes_eq_map_range (n v : Nat) : leBytes n v = (List.range n).map (fun i => v / 256 ^ i % 256) := by
  induction n generalizing v with
  | zero => rfl
  | succ n ih =>
    rw [leBytes, ih, List.range_succ_eq_map, List.map_cons, List.map_map, Nat.pow_zero, Nat.div_one]
    congr 2
    funext i
    simp only [Function.comp, Nat.succ_eq_add_one, Nat.pow_succ', Nat.div_div_eq_div_mul]

theorem factoryPeer_eq_leBytes (n : Nat) : factoryPeer n = 2 ^ 31 + crc32c (leBytes 8 n) % 2 ^ 31 := by
  rw [leBytes_eq_map_range]
  rfl

theorem factoryPeer_lt (n : Nat) : factoryPeer n < 2 ^ 32 := by
  have hcrc := Nat.mod_lt (crc32c (leBytes 8 n)) (Nat.two_pow_pos 31)
  rw [factoryPeer_eq_leBytes]
  omega

theorem factoryPeer_mod (n : Nat) : factoryPeer n % 2 ^ 31 = crc32c (leBytes 8 n) % 2 ^ 31 := by
  rw [factoryPeer_eq_leBytes, Nat.add_mod_left, Nat.mod_mod]

theorem factoryPeer_bit31 (n : Nat) : bitAt (factoryPeer n) 31 = true := by
  have hlow := Nat.testBit_lt_two_pow (Nat.mod_lt (crc32c (leBytes 8 n)) (Nat.two_pow_pos 31))
  rw [factoryPeer_eq_leBytes, bitAt, Nat.testBit_two_pow_add_eq, hlow, Bool.not_false]

/-- A host ID has bit 31 clear, the factory peer ID has it set. -/
theorem toNat_ne_factoryPeer {q : BitVec 32} (hq : q.getLsbD 31 = false) (n : Nat) : q.toNat ≠ factoryPeer n := by
  intro h
  have hbit := factoryPeer_bit31 n
  rw [← h, bitAt, ← BitVec.getLsbD, hq] at hbit
  exact absurd hbit Bool.false_ne_true

/-- A table that lists one value under all its keys reads that value at each of them. -/
theorem SMap.get_map_const {α : Type} (ks : List Nat) (key : Nat → Nat) (d v : α) {n : Nat} (hn : n ∈ ks) :
    SMap.get (ks.map (fun i => (key i, v))) d (key n) = v := by
  induction ks with
  | nil => cases hn
  | cons i ks ih =>
    rw [List.map_cons, SMap.get]
    split
    next => rfl
    next hne =>
      rcases List.mem_cons.1 hn with rfl | hmem
      · exact absurd rfl hne
      · exact ih hmem

theorem factoryPeers_get (serial d : Nat) {n : Nat} (hn : n < 8) :
    (factoryPeers serial).get d (BCN.TX_PEER_PEER_ID.f n).key = factoryPeer serial :=
  SMap.get_map_const (List.range 8) (fun i => (BCN.TX_PEER_PEER_ID.f i).key) d _ (List.mem_range.2 hn)

/-- Settles O53: the low 31 bits of the ID are the CRC's and bit 31 is added to them; the bank at reset lists the ID
for every lane. -/
theorem factoryPeerIdNeverEqualsAHostId : Obligations.FactoryPeerIdNeverEqualsAHostId :=
  ⟨fun _ => ⟨factoryPeer_lt _, factoryPeer_bit31 _, factoryPeer_mod _, fun _ hq => toNat_ne_factoryPeer hq _⟩,
    fun n => factoryPeers_get _ _ n.isLt⟩

end Sys2Proof.Machine
end

section
/-!
The key hash slots (02_bitstream.md R73): which commands write them, what KEY_WRITE and KEY_REVOKE do to a slot, and how
LOAD_IMAGE_COMPLETE answers them.
-/

namespace Sys2Proof.Machine

open Sys2Proof

/-! ### Completing a loader operation -/

theorem State.headOf_of_loaderHead {s : State} {op : Nat} {w : List Nat} (h : s.loaderHead op = some w) :
    s.headOf .loader = some w := by
  unfold State.loaderHead State.headIs at h
  split at h
  · split at h
    next w' hw' =>
      split at h
      · rw [hw', h]
      · cases h
    · cases h
  · cases h

theorem loadImageCompleteEffect_of_run {s : State} {code : Nat} {w : List Nat} (hrun : s.loader.run = some code)
    (hhead : s.headOf .loader = some w) : loadImageCompleteEffect s = s.loaderDone w code := by
  simp only [loadImageCompleteEffect, hrun, hhead]

theorem State.loaderDone_answered (s : State) (w : List Nat) (code : Nat) :
    Answered .loader w (if code = 0 then .ok else .loaderError) code 0 0 s (s.loaderDone w code) :=
  (State.complete_answered ((s.setLoader { s.loader with run := none }).put LOADER.ERR_ERR_LAST.f code) .loader w _
    code 0 0).of_eq rfl rfl

/-- An operation taken in `s` that runs with `code` in `t` is answered with that code, and no key slot changes. -/
theorem completes_loadImageComplete {s t : State} {op code : Nat} {w : List Nat} (hhead : s.loaderHead op = some w)
    (hmgmt : t.mgmt = s.mgmt) (hrun : t.loader.run = some code) :
    Completes .loadImageComplete t fun u =>
      u.keys = t.keys ∧ Answered .loader w (if code = 0 then .ok else .loaderError) code 0 0 s u := by
  have hw : t.headOf .loader = some w := by
    simpa only [State.headOf, hmgmt] using State.headOf_of_loaderHead hhead
  refine ⟨t.loaderDone w code, ?_, (State.loaderDone_keeps t w code).same .keys (by decide),
    (State.loaderDone_answered t w code).of_eq hmgmt rfl⟩
  rw [exec_loadImageComplete, loadImageCompleteEffect_of_run hrun hw]

/-! ### `runWith` and `setKey` -/

theorem State.runWith_keys (s : State) (code : Nat) : (s.runWith code).keys = s.keys := rfl

theorem State.stagingBad_keys {s t : State} {n : Nat} (h : s.stagingBad n = some t) : t.keys = s.keys :=
  (State.stagingBad_keeps s n t h).same .keys (by decide)

/-- What an accepted key operation does: slot `k` takes `x`, the loader runs with code OK, all else stands, and
LOAD_IMAGE_COMPLETE answers OK. -/
theorem setKey_runWith_ok {s : State} {op : Nat} {w : List Nat} (hhead : s.loaderHead op = some w) (k : Nat)
    (x : KeySlot) :
    let t := (s.setKey k x).runWith 0
    t.keys = s.keys.set k x ∧ t.loader = { s.loader with run := some 0 } ∧ SameBut [.keys, .loader] s t ∧
      Completes .loadImageComplete t (fun u => u.keys = t.keys ∧ Answered .loader w .ok 0 0 0 s u) := by
  have hkeeps : Keeps [.keys, .loader] s ((s.setKey k x).runWith 0) :=
    (State.runWith_keeps _ 0).then rfl ((State.setKey_keeps s k x).weaken rfl)
  exact ⟨rfl, rfl, hkeeps.same, completes_loadImageComplete (code := 0) hhead rfl rfl⟩

/-- What a key operation that ends with code KEY does: no slot changes, and LOAD_IMAGE_COMPLETE answers LOADER_ERROR
with code 9. -/
theorem runWith_keyError {s : State} {op : Nat} {w : List Nat} (hhead : s.loaderHead op = some w) :
    (s.runWith 9).keys = s.keys ∧
      Completes .loadImageComplete (s.runWith 9) fun u =>
        u.keys = s.keys ∧ Answered .loader w .loaderError 9 0 0 s u :=
  ⟨rfl, completes_loadImageComplete (code := 9) hhead rfl rfl⟩

/-! ### KEY_WRITE -/

theorem keyWriteEffect_ok {s : State} {w : List Nat} (hhead : s.loaderHead 5 = some w) (hk : cmdWord w 1 ≠ 0)
    (hempty : s.keyState (cmdWord w 1) = .empty) (hbad : s.stagingBad 48 = none) (hmram : s.mramRefused = false) :
    keyWriteEffect true s = (s.setKey (cmdWord w 1) ⟨.valid, (s.stagingSrc 48).bytes⟩).runWith 0 := by
  have hslot : ¬(cmdWord w 1 = 0 ∨ s.keyState (cmdWord w 1) ≠ .empty) := not_or.2 ⟨hk, not_not_intro hempty⟩
  simp only [keyWriteEffect, hhead, if_neg hslot, hbad, hmram, Bool.not_true, Bool.or_self, Bool.false_eq_true,
    ↓reduceIte]

theorem keyWriteEffect_keyError {s : State} {w : List Nat} (ok : Bool) (hhead : s.loaderHead 5 = some w)
    (hslot : cmdWord w 1 = 0 ∨ s.keyState (cmdWord w 1) ≠ .empty) : keyWriteEffect ok s = s.runWith 9 := by
  simp only [keyWriteEffect, hhead, if_pos hslot]

/-- KEY_WRITE leaves every slot alone, or makes one EMPTY slot other than slot 0 VALID. -/
theorem keyWriteEffect_keys (ok : Bool) (s : State) :
    (keyWriteEffect ok s).keys = s.keys ∨
      ∃ k y, (k ≠ 0 ∧ s.keyState k = .empty ∧ y.state = .valid) ∧ (keyWriteEffect ok s).keys = s.keys.set k y := by
  unfold keyWriteEffect
  split
  next w hhead =>
    dsimp only
    split
    next => exact .inl rfl
    next hslot =>
      obtain ⟨hk, hempty⟩ := not_or.1 hslot
      split
      next t hbad => exact .inl ((State.runWith_keys t 14).trans (State.stagingBad_keys hbad))
      next =>
        split
        · exact .inl rfl
        · exact .inr ⟨_, _, ⟨hk, Classical.not_not.1 hempty, rfl⟩, rfl⟩
  next => exact .inl rfl

/-! ### KEY_REVOKE -/

theorem keyRevokeEffect_ok {s : State} {w : List Nat} (hhead : s.loaderHead 6 = some w) (hk : cmdWord w 1 ≠ 0)
    (hvalid : s.keyState (cmdWord w 1) = .valid) (hmram : s.mramRefused = false) :
    keyRevokeEffect true s =
      (s.setKey (cmdWord w 1) ⟨.revoked, (s.keys.map (·.hash)).getD (cmdWord w 1) []⟩).runWith 0 := by
  have hslot : ¬(cmdWord w 1 = 0 ∨ s.keyState (cmdWord w 1) ≠ .valid) := not_or.2 ⟨hk, not_not_intro hvalid⟩
  simp only [keyRevokeEffect, hhead, if_neg hslot, hmram, Bool.not_true, Bool.or_self, Bool.false_eq_true,
    ↓reduceIte]

theorem keyRevokeEffect_keyError {s : State} {w : List Nat} (ok : Bool) (hhead : s.loaderHead 6 = some w)
    (hslot : cmdWord w 1 = 0 ∨ s.keyState (cmdWord w 1) ≠ .valid) : keyRevokeEffect ok s = s.runWith 9 := by
  simp only [keyRevokeEffect, hhead, if_pos hslot]

/-- KEY_REVOKE leaves every slot alone, or makes one VALID slot other than slot 0 REVOKED with the same hash. -/
theorem keyRevokeEffect_keys (ok : Bool) (s : State) :
    (keyRevokeEffect ok s).keys = s.keys ∨
      ∃ k y, (k ≠ 0 ∧ s.keyState k = .valid ∧ y.state = .revoked ∧ y.hash = (s.keys.map (·.hash)).getD k []) ∧
        (keyRevokeEffect ok s).keys = s.keys.set k y := by
  unfold keyRevokeEffect
  split
  next w hhead =>
    dsimp only
    split
    next => exact .inl rfl
    next hslot =>
      obtain ⟨hk, hvalid⟩ := not_or.1 hslot
      split
      · exact .inl rfl
      · exact .inr ⟨_, _, ⟨hk, Classical.not_not.1 hvalid, rfl, rfl⟩, rfl⟩
  next => exact .inl rfl

/-! ### One slot under any command -/

theorem State.keyState_of_slot {s : State} {k : Nat} {x : KeySlot} (h : s.keys[k]? = some x) :
    s.keyState k = x.state := by
  simp only [State.keyState, List.getD_eq_getElem?_getD, List.getElem?_map, h, Option.map_some, Option.getD_some]

theorem keyHash_of_slot {keys : List KeySlot} {k : Nat} {x : KeySlot} (h : keys[k]? = some x) :
    (keys.map (·.hash)).getD k [] = x.hash := by
  simp only [List.getD_eq_getElem?_getD, List.getElem?_map, h, Option.map_some, Option.getD_some]

/-- Where at most one slot is written, and what is written at it satisfies `P`, a slot stands or is the one written. -/
theorem slot_of_same_or_set {keys keys' : List KeySlot} {P : Nat → KeySlot → Prop} {k : Nat} {x : KeySlot}
    (hx : keys[k]? = some x) (h : keys' = keys ∨ ∃ j y, P j y ∧ keys' = keys.set j y) :
    ∃ y, keys'[k]? = some y ∧ (y = x ∨ P k y) := by
  obtain rfl | ⟨j, y, hP, rfl⟩ := h
  · exact ⟨x, hx, .inl rfl⟩
  · by_cases hjk : j = k
    · subst hjk
      obtain ⟨hlt, -⟩ := List.getElem?_eq_some_iff.1 hx
      exact ⟨y, List.getElem?_set_self hlt, .inr hP⟩
    · exact ⟨x, by rw [List.getElem?_set_ne hjk, hx], .inl rfl⟩

/-- KEY_WRITE and KEY_REVOKE alone write key slots. -/
theorem Instr.keyCommand_of_keys_mem_parts {c : Instr} (h : Part.keys ∈ Instr.parts c) :
    (∃ ok, c = .keyWrite ok) ∨ ∃ ok, c = .keyRevoke ok := by
  cases c
  case keyWrite ok => exact .inl ⟨ok, rfl⟩
  case keyRevoke ok => exact .inr ⟨ok, rfl⟩
  all_goals cases List.contains_iff_mem.2 h

/-- R73 for one slot: it stands, or KEY_WRITE takes it from EMPTY to VALID, or KEY_REVOKE from VALID to REVOKED. -/
theorem exec_keySlot_forward {c : Instr} {s t : State} {k : Nat} {x : KeySlot} (h : exec c s = .next t)
    (hx : s.keys[k]? = some x) :
    ∃ y, t.keys[k]? = some y ∧ (y = x ∨ (k ≠ 0 ∧ (∃ ok, c = .keyWrite ok) ∧ x.state = .empty ∧ y.state = .valid) ∨
      (k ≠ 0 ∧ (∃ ok, c = .keyRevoke ok) ∧ x.state = .valid ∧ y.state = .revoked ∧ y.hash = x.hash)) := by
  by_cases hkeys : Part.keys ∈ Instr.parts c
  · obtain ⟨ok, rfl⟩ | ⟨ok, rfl⟩ := Instr.keyCommand_of_keys_mem_parts hkeys
    · cases h
      obtain ⟨y, hy, rfl | ⟨hk, hold, hnew⟩⟩ := slot_of_same_or_set hx (keyWriteEffect_keys ok s)
      · exact ⟨y, hy, .inl rfl⟩
      · exact ⟨y, hy, .inr (.inl ⟨hk, ⟨ok, rfl⟩, State.keyState_of_slot hx ▸ hold, hnew⟩)⟩
    · cases h
      obtain ⟨y, hy, rfl | ⟨hk, hold, hnew, hhash⟩⟩ := slot_of_same_or_set hx (keyRevokeEffect_keys ok s)
      · exact ⟨y, hy, .inl rfl⟩
      · exact ⟨y, hy, .inr (.inr ⟨hk, ⟨ok, rfl⟩, State.keyState_of_slot hx ▸ hold, hnew,
          hhash.trans (keyHash_of_slot hx)⟩)⟩
  · have hsame : t.keys = s.keys := (exec_keeps c s t h).same .keys hkeys
    exact ⟨x, by rw [hsame, hx], .inl rfl⟩

/-- Settles O6: only KEY_WRITE and KEY_REVOKE write a slot, each in one branch, which asks for a slot other than 0 in
the state that the move starts from; for any other slot state KEY_WRITE, and for slot 0 both, run with code KEY. -/
theorem keySlotsMoveOnlyForward : Obligations.KeySlotsMoveOnlyForward := by
  refine ⟨fun c s t k x h hx => exec_keySlot_forward h hx, ?writeOk, ?revokeOk, ?writeError, ?revokeError⟩
  case writeOk =>
    intro s w hhead hk hempty hbad hmram
    exact ⟨_, by rw [exec_keyWrite, keyWriteEffect_ok hhead hk hempty hbad hmram], setKey_runWith_ok hhead _ _⟩
  case revokeOk =>
    intro s w hhead hk hvalid hmram
    exact ⟨_, by rw [exec_keyRevoke, keyRevokeEffect_ok hhead hk hvalid hmram], setKey_runWith_ok hhead _ _⟩
  case writeError =>
    intro s w ok hhead hslot
    exact ⟨_, by rw [exec_keyWrite, keyWriteEffect_keyError ok hhead hslot], runWith_keyError hhead⟩
  case revokeError =>
    intro s w ok hhead hk
    exact ⟨_, by rw [exec_keyRevoke, keyRevokeEffect_keyError ok hhead (.inl hk)], runWith_keyError hhead⟩

end Sys2Proof.Machine
end

section
/-!
The lock of clock recovery (03_line_receive.md R104): the count of votes in a window, what CDR_WINDOW does to CDR_LOCK
and to the count of quiet windows, and what it leaves unchanged.
-/

namespace Sys2Proof.Machine

open Sys2Proof

/-! ### `onLane` -/

@[simp] theorem State.lane_onLane_same (s : State) (n : Nat) (f : LaneSt → LaneSt) :
    (s.onLane n f).lane n = f (s.lane n) := State.lane_setLane_same _ _ _

theorem State.lane_onLane_other (s : State) {n m : Nat} (f : LaneSt → LaneSt) (h : m ≠ n) :
    (s.onLane n f).lane m = s.lane m := State.lane_setLane_other _ _ h

@[simp] theorem State.onLane_getB (s : State) (n : Nat) (f : LaneSt → LaneSt) (x : Fld) :
    (s.onLane n f).getB x = s.getB x := rfl

theorem LanesBut.refl (ns : List Nat) (s : State) : LanesBut ns s s := fun _ _ => rfl

theorem LanesBut.onLane {ns : List Nat} {s t : State} {n : Nat} {f : LaneSt → LaneSt} (h : LanesBut ns s t) (hn : n ∈ ns) :
    LanesBut ns s (t.onLane n f) :=
  fun m hm => (State.lane_onLane_other t f fun hmn : m = n => hm (hmn ▸ hn)).trans (h m hm)

theorem LanesBut.ite {ns : List Nat} {s t u : State} {c : Prop} [Decidable c] (h : LanesBut ns s t) (k : LanesBut ns s u) :
    LanesBut ns s (if c then t else u) := by
  split
  · exact h
  · exact k

theorem LanesBut.put {ns : List Nat} {s t : State} {f : Fld} {v : Nat} (h : LanesBut ns s t) : LanesBut ns s (t.put f v) := h

/-! ### The votes of a window -/

@[simp] theorem State.cdrVote_quiet (s : State) (n : Nat) (p : Int) : ((s.cdrVote n p).lane n).quiet = (s.lane n).quiet := by
  simp [State.cdrVote]

theorem State.cdrVote_voteN (s : State) (n : Nat) (p : Int) (h : (s.lane n).rxp.voteN < 16) :
    ((s.cdrVote n p).lane n).rxp.voteN = (s.lane n).rxp.voteN + 1 := by
  simp [State.cdrVote, RxPath.vote, h]

theorem State.cdrVote_voteSum (s : State) (n : Nat) (p : Int) (h : (s.lane n).rxp.voteN < 16) :
    ((s.cdrVote n p).lane n).rxp.voteSum = (s.lane n).rxp.voteSum + p := by
  simp [State.cdrVote, RxPath.vote, h]

/-- The votes `ps` of one cycle each, the first of them first. -/
def State.cdrVotes (s : State) (n : Nat) (ps : List Int) : State := ps.foldl (fun s p => s.cdrVote n p) s

theorem State.cdrVotes_keeps (s : State) (n : Nat) (ps : List Int) : Keeps [.lanes] s (s.cdrVotes n ps) :=
  Keeps.foldl (.refl _ _) fun _ _ h => (State.cdrVote_keeps _ _ _).then rfl h

theorem State.cdrVotes_getB (s : State) (n : Nat) (ps : List Int) (f : Fld) : (s.cdrVotes n ps).getB f = s.getB f := by
  have hregs : (s.cdrVotes n ps).regs = s.regs := (s.cdrVotes_keeps n ps).same .regs (by decide)
  simp only [State.getB, State.get, hregs]

/-- As long as the window has room, votes count up and add up, and no window is judged. -/
theorem State.cdrVotes_lane (s : State) (n : Nat) (ps : List Int) (h : (s.lane n).rxp.voteN + ps.length ≤ 16) :
    ((s.cdrVotes n ps).lane n).rxp.voteN = (s.lane n).rxp.voteN + ps.length ∧
    ((s.cdrVotes n ps).lane n).rxp.voteSum = (s.lane n).rxp.voteSum + ps.sum ∧
    ((s.cdrVotes n ps).lane n).quiet = (s.lane n).quiet := by
  induction ps generalizing s with
  | nil => simp [State.cdrVotes]
  | cons p ps ih =>
    rw [List.length_cons] at h
    have hroom : (s.lane n).rxp.voteN < 16 := by omega
    have hN := s.cdrVote_voteN n p hroom
    obtain ⟨ihN, ihSum, ihQuiet⟩ := ih (s.cdrVote n p) (by omega)
    rw [hN, Nat.add_right_comm] at ihN
    rw [s.cdrVote_voteSum n p hroom, Int.add_assoc, ← List.sum_cons] at ihSum
    exact ⟨ihN, ihSum, ihQuiet.trans (s.cdrVote_quiet n p)⟩

/-! ### CDR_WINDOW -/

/-- The count of quiet windows after one whose votes sum to `v`. -/
def quietAfter (k : Nat) (v : Int) : Nat := if v.natAbs ≤ 4 then k + 1 else 0

/-- The lane at the start of the next window, with `k` quiet windows counted up to four. -/
def LaneSt.nextWindow (l : LaneSt) (k : Nat) : LaneSt :=
  { l with quiet := min k 4, rxp := { l.rxp with voteN := 0, voteSum := 0 } }

/-- In WARM the first setting of CDR_LOCK ends the fast gains and clears the run counters (R102, R121, R156). -/
def State.endFastGains (s : State) (n : Nat) : State :=
  if s.rx n = .warm ∧ (s.lane n).warmLocked = false then s.onLane n (fun l => { l with warmLocked := true, runs := [] })
  else s

theorem cdrWindowEffect_of_short {n : Lane} {s : State} (h : (s.lane n).rxp.voteN ≠ 16) : cdrWindowEffect n s = s :=
  if_neg h

/-- A full window moves the lane on to the next one; then a loud one clears CDR_LOCK and a fourth quiet one sets it. -/
theorem cdrWindowEffect_of_full {n : Lane} {s : State} (h : (s.lane n).rxp.voteN = 16) :
    cdrWindowEffect n s =
      let v := (s.lane n).rxp.voteSum
      let q := quietAfter (s.lane n).quiet v
      let t := s.onLane n (·.nextWindow q)
      if 12 ≤ v.natAbs then t.put (LINE.RX_STATE_CDR_LOCK.f n) 0
      else if 4 ≤ q then (t.put (LINE.RX_STATE_CDR_LOCK.f n) 1).endFastGains n
      else t :=
  if_pos h

theorem State.endFastGains_get (s : State) (n : Nat) (f : Fld) : (s.endFastGains n).get f = s.get f := by
  unfold State.endFastGains
  split <;> rfl

theorem State.endFastGains_lane (s : State) (n : Nat) :
    ((s.endFastGains n).lane n).rxp = (s.lane n).rxp ∧ ((s.endFastGains n).lane n).quiet = (s.lane n).quiet := by
  unfold State.endFastGains
  split <;> simp

theorem LanesBut.endFastGains {ns : List Nat} {s t : State} {n : Nat} (h : LanesBut ns s t) (hn : n ∈ ns) :
    LanesBut ns s (t.endFastGains n) := by
  unfold State.endFastGains
  split
  · exact h.onLane hn
  · exact h

theorem getB_put_cdrLock (s : State) (n : Lane) (b : Bool) :
    (s.put (LINE.RX_STATE_CDR_LOCK.f n) b.toNat).getB (LINE.RX_STATE_CDR_LOCK.f n) = b := by
  rw [State.getB, State.get_put_same]
  cases b <;> rfl

theorem cdrWindowEffect_lane {n : Lane} {s : State} (h : (s.lane n).rxp.voteN = 16) :
    ((cdrWindowEffect n s).lane n).rxp.voteN = 0 ∧ ((cdrWindowEffect n s).lane n).rxp.voteSum = 0 ∧
    ((cdrWindowEffect n s).lane n).quiet = min (quietAfter (s.lane n).quiet (s.lane n).rxp.voteSum) 4 := by
  rw [cdrWindowEffect_of_full h]
  dsimp only
  split
  case isTrue => simp [LaneSt.nextWindow]
  case isFalse => split <;> simp [LaneSt.nextWindow, State.endFastGains_lane]

theorem cdrWindowEffect_lock {n : Lane} {s : State} (h : (s.lane n).rxp.voteN = 16) :
    (cdrWindowEffect n s).getB (LINE.RX_STATE_CDR_LOCK.f n) =
      if 12 ≤ (s.lane n).rxp.voteSum.natAbs then false
      else if 4 ≤ quietAfter (s.lane n).quiet (s.lane n).rxp.voteSum then true
      else s.getB (LINE.RX_STATE_CDR_LOCK.f n) := by
  rw [cdrWindowEffect_of_full h]
  dsimp only
  split
  case isTrue => exact getB_put_cdrLock _ n false
  case isFalse =>
    split
    case isTrue =>
      rw [State.getB, State.endFastGains_get]
      exact getB_put_cdrLock _ n true
    case isFalse => exact State.onLane_getB _ _ _ _

theorem cdrWindowEffect_regsBut (n : Lane) (s : State) : RegsBut [LINE.RX_STATE_CDR_LOCK.f n] s (cdrWindowEffect n s) := by
  by_cases h : (s.lane n).rxp.voteN = 16
  · have hmoved : RegsBut [LINE.RX_STATE_CDR_LOCK.f n] s
        (s.onLane n (·.nextWindow (quietAfter (s.lane n).quiet (s.lane n).rxp.voteSum))) := fun _ _ => rfl
    have hput := fun v => hmoved.put (v := v) (List.mem_singleton_self _)
    rw [cdrWindowEffect_of_full h]
    exact .ite (hput 0) (.ite (fun f hf => (State.endFastGains_get _ _ f).trans (hput 1 f hf)) hmoved)
  · rw [cdrWindowEffect_of_short h]
    exact .refl _ _

theorem cdrWindowEffect_lanesBut (n : Lane) (s : State) : LanesBut [n.val] s (cdrWindowEffect n s) := by
  have hn : n.val ∈ [n.val] := List.mem_singleton_self _
  by_cases h : (s.lane n).rxp.voteN = 16
  · have hmoved : LanesBut [n.val] s
        (s.onLane n (·.nextWindow (quietAfter (s.lane n).quiet (s.lane n).rxp.voteSum))) := (LanesBut.refl _ s).onLane hn
    rw [cdrWindowEffect_of_full h]
    exact .ite hmoved.put (.ite (hmoved.put.endFastGains hn) hmoved)
  · rw [cdrWindowEffect_of_short h]
    exact .refl _ _

/-! ### Whole windows -/

/-- Lane `n` stands at the start of a window, after `k` quiet windows (of more than four, four are counted). -/
structure AtWindowStart (n : Lane) (k : Nat) (s : State) : Prop where
  voteN : (s.lane n).rxp.voteN = 0
  voteSum : (s.lane n).rxp.voteSum = 0
  quiet : (s.lane n).quiet = k

/-- One window of the 16 votes `ps`: the next window starts, and the sum decides CDR_LOCK. -/
theorem cdrWindow_completes {n : Lane} {k : Nat} {s : State} {ps : List Int} (hs : AtWindowStart n k s)
    (hlen : ps.length = 16) :
    Completes (.cdrWindow n) (s.cdrVotes n ps) fun t => AtWindowStart n (min (quietAfter k ps.sum) 4) t ∧
      t.getB (LINE.RX_STATE_CDR_LOCK.f n) =
        if 12 ≤ ps.sum.natAbs then false else if 4 ≤ quietAfter k ps.sum then true
        else s.getB (LINE.RX_STATE_CDR_LOCK.f n) := by
  obtain ⟨hN, hSum, hQuiet⟩ := s.cdrVotes_lane n ps (by have := hs.voteN; omega)
  rw [hs.voteN, Nat.zero_add, hlen] at hN
  rw [hs.voteSum, Int.zero_add] at hSum
  rw [hs.quiet] at hQuiet
  obtain ⟨hN', hSum', hQuiet'⟩ := cdrWindowEffect_lane hN
  have hlock := cdrWindowEffect_lock hN
  rw [hSum, hQuiet] at hQuiet' hlock
  rw [State.cdrVotes_getB] at hlock
  exact ⟨_, exec_cdrWindow n _, ⟨hN', hSum', hQuiet'⟩, hlock⟩

/-- A quiet window counts one more; it sets CDR_LOCK as the fourth and leaves it before. -/
theorem cdrWindow_quiet {n : Lane} {k : Nat} {s : State} {ps : List Int} (hs : AtWindowStart n k s)
    (hlen : ps.length = 16) (hquiet : ps.sum.natAbs ≤ 4) :
    Completes (.cdrWindow n) (s.cdrVotes n ps) fun t => AtWindowStart n (min (k + 1) 4) t ∧
      t.getB (LINE.RX_STATE_CDR_LOCK.f n) = if 3 ≤ k then true else s.getB (LINE.RX_STATE_CDR_LOCK.f n) := by
  have h := cdrWindow_completes hs hlen
  simpa only [quietAfter, if_pos hquiet, if_neg (show ¬ 12 ≤ ps.sum.natAbs by omega), Nat.reduceLeDiff,
    Nat.add_le_add_iff_right (n := 1) (m := 3)] using h

/-- A window that is not quiet ends the run of quiet windows; a loud one clears CDR_LOCK, another leaves it. -/
theorem cdrWindow_notQuiet {n : Lane} {k : Nat} {s : State} {ps : List Int} (hs : AtWindowStart n k s)
    (hlen : ps.length = 16) (hquiet : 4 < ps.sum.natAbs) :
    Completes (.cdrWindow n) (s.cdrVotes n ps) fun t => AtWindowStart n 0 t ∧
      t.getB (LINE.RX_STATE_CDR_LOCK.f n) =
        if 12 ≤ ps.sum.natAbs then false else s.getB (LINE.RX_STATE_CDR_LOCK.f n) := by
  have h := cdrWindow_completes hs hlen
  simpa [quietAfter, Nat.not_le.2 hquiet] using h

/-- Settles O54: a lane at the start of a window is described by its count of quiet windows, which each window moves on;
four quiet ones bring it to four from any count, three from 0 do not. -/
theorem cdrLockAfterFourQuietWindows : Obligations.CdrLockAfterFourQuietWindows := by
  refine ⟨?windows, ?short, ?frame⟩
  case windows =>
    intro s n votes window lock hN hSum
    have hs : AtWindowStart n (s.lane n).quiet s := ⟨hN, hSum, rfl⟩
    refine ⟨?set, ?clear, ?stays⟩
    case set =>
      intro a b c d ha hb hc hd qa qb qc qd
      obtain ⟨t, ht, hst, -⟩ := cdrWindow_quiet hs ha qa
      obtain ⟨u, hu, hsu, -⟩ := cdrWindow_quiet hst hb qb
      obtain ⟨v, hv, hsv, -⟩ := cdrWindow_quiet hsu hc qc
      obtain ⟨w, hw, -, hlock⟩ := cdrWindow_quiet hsv hd qd
      exact ⟨t, ht, u, hu, v, hv, w, hw, hlock.trans (if_pos (by omega))⟩
    case clear =>
      intro a ha loud
      obtain ⟨t, ht, -, hlock⟩ := cdrWindow_notQuiet hs ha (by omega)
      exact ⟨t, ht, hlock.trans (if_pos loud)⟩
    case stays =>
      intro a b c d ha hb hc hd na qb qc qd
      obtain ⟨t, ht, hst, ht'⟩ := cdrWindow_notQuiet hs ha na
      obtain ⟨u, hu, hsu, hu'⟩ := cdrWindow_quiet hst hb qb
      obtain ⟨v, hv, hsv, hv'⟩ := cdrWindow_quiet hsu hc qc
      obtain ⟨w, hw, -, hw'⟩ := cdrWindow_quiet hsv hd qd
      exact ⟨t, ht, fun hlt => ht'.trans (if_neg (by omega)), u, hu, v, hv, w, hw, hw'.trans (hv'.trans hu')⟩
  case short => exact fun s n h => ⟨_, exec_cdrWindow n s, cdrWindowEffect_of_short h⟩
  case frame =>
    exact fun s n => ⟨_, exec_cdrWindow n s, (cdrWindowEffect_keeps n s).same, cdrWindowEffect_regsBut n s,
      cdrWindowEffect_lanesBut n s⟩

end Sys2Proof.Machine
end
